-- ==== Sys2Proof/Word.lean ====
section
/-!
DEFINITION. The word types of the model and their plainest arithmetic. Registers are 32 bits wide (R6), multi-byte fields
are little-endian (R5), TIME_RAW has 56 bits (R396) and frame numbers have 40 (R16).
-/
namespace Sys2Proof

/-- One byte. -/
abbrev Byte := BitVec 8

/-- A run of bytes, lowest address first. -/
abbrev Bytes := List Byte

/-- A register or ring index: 32 bits (R6, R342). -/
abbrev Word32 := BitVec 32

/-- A frame number: 40 bits, wrapping (R16, R17). -/
abbrev FrameNo := BitVec 40

/-- TIME_RAW: a 56-bit count of postmark units (R396). -/
abbrev RawTime := BitVec 56

/-- A postmark: 64 bits (R399). -/
abbrev Postmark := BitVec 64

/-- The signed 40-bit difference by which frame numbers are compared (R17). -/
def frameDiff (a b : FrameNo) : Int := (a - b).toInt

/-- The signed 56-bit difference by which raw times are compared (R400). -/
def rawDiff (a b : RawTime) : Int := (a - b).toInt

/-- The signed 64-bit difference by which postmarks are compared (R401). -/
def postmarkDiff (a b : Postmark) : Int := (a - b).toInt

/-- The signed 32-bit difference by which ring indices are compared (R342). -/
def indexDiff (a b : Word32) : Int := (a - b).toInt

end Sys2Proof
end

