-- ==== Sys2Proof/Syntax.lean ====
section
/-!
DEFINITION. The commands and events of the Kilix module: one constructor of `Instr` per row of spec/opcode_table.json, in the
table's order, and the plain data their operands carry. The table gives no operand bits; an operand is what the row's rule
takes from outside the module: a register value, an address, a message, a measured outcome.
-/
namespace Sys2Proof

/-- A unit that can be fenced: CLASS and INDEX of Table 16-3 (R494). -/
structure FUnit where
  cls : Nat
  idx : Nat
  deriving DecidableEq, Repr

/-- What the start-up steps meet that no register decides: the units that fail the self-test of step 6a (R81), whether PLL-S
locks in step 8 (R438), how many Franking Store writes of this start fail (R496), the time the steps take, in pu (R80), and the
clock lost in steps 6 to 7a, if any (R78): 1 PLL-C, 2 PLL-M, 3 the module oscillator, and whether it is lost after the franking
write. -/
structure BootEnv where
  failed     : List FUnit
  pllSLocks  : Bool
  storeFails : Nat
  took       : Nat
  lost       : Option (Nat × Bool)
  deriving DecidableEq, Repr

/-- The results of deskew calibration of one group (R168 to R173): the mean round-trip RT in 1/64 pu, the mean placement D_c
of each channel, the phase 4 residual of each channel from the group mean, the group mean from the module grid, each a mean over up to
4,096 pulses and so in 1/4,096 of 0.5 ps, and the island temperature in 1/16 °C. -/
structure CalData where
  roundTrip : Nat
  placements : List (Nat × Int)
  residuals : List (Nat × Int)
  groupMean : Int
  temp      : Int
  deriving DecidableEq, Repr

/-- What one group answers while it is brought up, steps 10 to 15 of Table 03-3 (R84 to R87): whether its lanes lock at the
first or at the repeated training (R85), the identity and calibration values its IDENT message carries, the used and unused
channels and lanes that fail the tile self-test (R86), whether its field PLL locks and its rails come up (R87), whether a
fuse is found open (R123), and the deskew results. -/
structure GroupBoot where
  group      : Nat
  firstTrain : Bool
  againTrain : Bool
  identity   : Bytes
  asymmetry  : Int
  tileDelay  : Int
  failChans  : List Nat
  failLanes  : List Nat
  pllLocks   : Bool
  railsUp    : Bool
  fuseOpen   : Bool
  cal        : CalData
  deriving DecidableEq, Repr

/-- The framing of a barrier message as the receiver meets it (Table 04-8, R135). -/
structure Msg where
  typ     : Byte
  seq     : Byte
  len     : Nat
  payload : Bytes
  crc     : BitVec 32
  deriving DecidableEq, Repr

/-- The content of a STATUS message (Table 04-7, R138): rail voltages in mV, rail currents in 10 µA, the island temperature in
1/16 °C, whether a clamp conducts and the fuse is open, and the bits of CONFIG_CRC that an upset of the tile's settings
memory has changed, 0 without one (R138). -/
structure StatusData where
  volts     : List Nat
  currs     : List Nat
  temp      : Int
  clamp     : Bool
  fuseOpen  : Bool
  upset     : BitVec 32
  deriving DecidableEq, Repr

/-- The settings of one channel that SET_CHANNEL carries (Table 04-7). -/
structure ChanSet where
  chan  : Nat
  mode  : Nat
  thrHi : Nat
  thrLo : Nat
  hyst  : Nat
  slope : Nat
  deriving DecidableEq, Repr

/-- Which bytes of a doorbell a write covers (R343). -/
inductive DbPart where
  | low | full | high
  deriving DecidableEq, Repr

/-- How a read request of the module's, or the translation of an address that it is about to use, ends (R468, R469): a completion with data,
with the status Completer Abort or Unsupported Request, or poisoned; a translation that fails; no tag for the read; no completion in time. -/
inductive ReadEnd where
  | ok | completerAbort | unsupported | poisoned | translationError | noTag | timeout
  deriving DecidableEq, Repr

/-- The inbound requests that the endpoint turns away before they act (R482, Table 15-14): those that complete with Unsupported Request, a
poisoned write to a BAR, and a request whose ECRC does not match. -/
inductive BadRequest where
  | ioRequest | atomicRequest | lockedRequest | memoryRequest | poisonedWrite | ecrcMismatch
  deriving DecidableEq, Repr

/-- What an MSI-X unmask clears: one vector's mask, or the function mask (R466). -/
inductive MaskTarget where
  | vector (v : Nat) | function
  deriving DecidableEq, Repr

/-- The configuration write that ends INTA (R467). -/
inductive IntxOff where
  | interruptDisable | msixEnable
  deriving DecidableEq, Repr

/-- What every PTP message carries (R410): whether it came over UDP or layer 2, its domainNumber, versionPTP and minorVersionPTP, and its
sender. -/
structure PtpHead where
  udp     : Bool
  domain  : Nat
  version : Nat
  minor   : Nat
  sender  : Nat
  deriving DecidableEq, Repr

/-- A received PTP Announce as master selection reads it (R410): the sender's dataset in the order in which the standard
compares it, its announced Sync and Announce intervals (log2 s), and its UTC offset. -/
structure AnnounceData where
  head      : PtpHead
  gmId      : Nat
  priority1 : Nat
  quality   : Nat
  priority2 : Nat
  stepsRemoved : Nat
  logSync   : Int
  logAnnounce : Int
  utcOffset : Option Int
  deriving DecidableEq, Repr

/-- A received Sync or Follow_Up (R410): its sequence number, whether it is two-step, its origin time in 2^-16 ns,
and its correctionField in 2^-16 ns. -/
structure SyncData where
  head    : PtpHead
  seqId   : Nat
  twoStep : Bool
  origin  : Int
  correction : Int
  deriving DecidableEq, Repr

/-- A received Delay_Resp (R410): the sequence number it answers, the receive time of the Delay_Req in 2^-16 ns, its
correctionField, and its logMessageInterval. -/
structure DelayData where
  head     : PtpHead
  seqId    : Nat
  received : Int
  correction : Int
  logInterval : Int
  deriving DecidableEq, Repr

/-- The measurements of one PW_ update (R532, R516): rail voltages in mV, rail currents in 10 mA, total and exported power in
10 mW, die and hottest DRAM temperatures in 1/16 °C, whether the DRAM requires more than twice its base refresh rate, and each
island's transfer input and output power in 10 mW and whether the transfer is at its input limit. -/
structure PwMeas where
  volts   : List Nat
  currs   : List Nat
  total   : Nat
  exported : Nat
  die     : Int
  dram    : Int
  dramHot : Bool
  islandIn  : List Nat
  islandOut : List Nat
  xferLimit : List Bool
  deriving DecidableEq, Repr

/-- What is found wrong while the work window of a frame is worked (R23, R336, R320): the Class T units that had not finished,
the gathering bank words with a double-bit error (bank, byte address in it), the capture memory granules with an uncorrectable
error (granule, byte address in it), and the single-bit errors corrected in gathering banks since the last release (bank, how
many). -/
structure WindowFaults where
  late     : List FUnit
  bankErrs : List (Nat × Nat)
  dramErrs : List (Nat × Nat)
  corrected : List (Nat × Nat)
  deriving DecidableEq, Repr

/-- The level that SEAL_OPEN_N has taken: whether it has held for 20 ms, and whether the store write that franks it is good (R496, R499). -/
structure SealLevel where
  held    : Bool
  storeOk : Bool
  deriving DecidableEq, Repr

/-- A round of capture memory (R314): the single-bit link errors corrected in the one before (R320), and how many read and write slots the
control cluster's best-effort work wants of it (R318). -/
structure RoundWork where
  corrected : Nat
  ccReads   : Nat
  ccWrites  : Nat
  deriving DecidableEq, Repr

/-- What a lane meets as it ends a split block (R387): the granule of its source with an uncorrectable error, and a destination whose
translation fails. -/
structure BlockTrouble where
  bad      : Option Nat := none
  dstFails : Bool := false
  deriving DecidableEq, Repr

/-- What a completion brings to a read of the module's: its bytes, and the output byte of a decompression, if any, at which the translation of
the destination fails as the bytes are decoded (R386, R387). -/
structure Arrival where
  bytes    : Bytes
  dstFails : Option Nat := none
  deriving DecidableEq, Repr

/-- The cycles of a window read: the byte of the request at which the bank finds a double-bit error (R336), and the bytes, by address in the
bank space, that port B writes in them (R333). -/
structure ReadCycles where
  bad    : Option Nat := none
  portB  : List (Nat × Byte) := []
  deriving DecidableEq, Repr

/-- One command or event: one constructor per row of spec/opcode_table.json. -/
inductive Instr where
  | powerGood (env : BootEnv)
  | modResetAssert
  | modResetRelease (env : BootEnv)
  | railBrownout (rail : Nat)
  | railOutOfTolerance (rail : Nat)
  | watchdogReset (lockstep : Bool) (env : BootEnv)
  | lockstepMismatch (env : BootEnv)
  | thermalShutdown
  | thermalRestart (env : BootEnv)
  | islandPowerWave (k : Nat) (res : List GroupBoot)
  | refInPresent (pllSLocks : Bool)
  | refInLost
  | refWaitExpiry
  | leaderChoiceTimeout
  | positionToken (p : Nat)
  | chainTokenTimeout
  | alignmentMark
  | armingEntry
  | runningEntry
  | frameTick
  | frameNumberWrap
  | timeRawWrap
  | coastingEnd
  | memoryRound (work : RoundWork)
  | frameRelease (f : WindowFaults)
  | rearm (q : Nat)
  | pulseEnd (o : Nat)
  | envelopeWrite (ring : Nat) (bad : Option (Nat × Nat)) (how : ReadEnd)
  | ringNotification (ring : Nat)
  | recordPartWrite (rec : Nat) (bad : Option Nat) (how : ReadEnd)
  | streamEnvelopeWrite (rec : Nat) (bad : Option Nat) (how : ReadEnd)
  | measure (rec : Nat) (how : ReadEnd)
  | spanReadoutWrite (ring : Nat) (bad : Option Nat) (how : ReadEnd)
  | completion (ring : Nat) (how : ReadEnd)
  | deadLetterDrain (how : ReadEnd)
  | datagramSend (stream : Nat)
  | doorbellWrite (ring : Nat) (part : DbPart) (value : Word32)
  | commandFetch (ring : Nat) (fetched : ReadEnd) (entry : Bytes)
  | nop
  | seqArm
  | seqDisarm
  | seqForce
  | seqCommandApply
  | spanRead
  | compress
  | decompress
  | splitBlockDispatch
  | splitBlockComplete (lane : Nat) (fault : Bool) (trouble : BlockTrouble)
  | statsRead (dest : ReadEnd)
  | planSwitch
  | planSwitchApply
  | timePref
  | bankAssign
  | ringReset
  | groupPowerDown
  | groupPowerDownApply (g : Nat)
  | groupPowerUp (res : GroupBoot)
  | groupPowerUpRejoin (g : Nat)
  | rebind
  | rebindCtrlGo (key : Nat)
  | rebindDecision
  | rebindTeardown
  | rebindDrainEnd (env : BootEnv)
  | flashRead (len : Nat)
  | flashProgram (len : Nat)
  | flashErase4k (len : Nat)
  | flashErase64k (len : Nat)
  | flashOperationComplete (ok : Bool)
  | winCommit (k : Nat) (go : Bool)
  | bankOwnerWrite (bank : Nat) (owner : Nat)
  | ringEnable (ring : Nat) (value : Word32)
  | ringDisable (ring : Nat) (value : Word32)
  | notifyUnmask (ring : Nat) (value : Word32)
  | expansionMaxWrite (value : Word32)
  | intxPendingWrite (index : Nat) (value : Word32)
  | msixUnmask (target : MaskTarget)
  | sqDeadLoRead (q : Nat)
  | imMeanLoRead (e : Nat)
  | tbRawLoRead
  | tbDomGmLoRead (x : Nat)
  | registerWrite (offset : Nat) (allEnables : Bool) (data : Bytes)
  | windowRead (k : Nat) (offset len : Nat) (cycles : ReadCycles)
  | windowWrite (k : Nat) (offset : Nat) (data : Bytes) (portB : List (Nat × Byte))
  | perstN
  | hotReset
  | functionLevelReset
  | hostPoolZeroed
  | busMasterEnableClear
  | busMasterEnableSet
  | d3hotEntry
  | d0Return
  | atsInvalidateRequest (itag : Nat) (addr : Nat) (size : Nat)
  | atsInvalidateCompletion
  | hostReadCompletion (tag : Nat) (how : ReadEnd) (data : Arrival)
  | hostReadTimeout (tag : Nat)
  | samples (g : Nat) (m : Msg)
  | edges (g : Nat) (m : Msg)
  | stamps (g : Nat) (m : Msg)
  | status (g : Nat) (m : Msg) (d : StatusData)
  | echo (g : Nat) (m : Msg) (seq : Byte) (crc : BitVec 32) (result : Nat)
  | cal (g : Nat) (m : Msg) (d : CalData)
  | ident (g : Nat) (m : Msg) (d : GroupBoot)
  | idle (g : Nat) (m : Msg)
  | echoTimeout (g : Nat)
  | laneLockLoss (g : Nat) (lane : Nat)
  | tick (g : Nat) (m : Msg)
  | setChannel (g : Nat) (m : Msg) (c : ChanSet)
  | setRail (g : Nat) (m : Msg) (rail : Nat) (on : Bool)
  | setMclk (g : Nat) (m : Msg) (out div format : Nat)
  | setTrim (g : Nat) (m : Msg) (chan trim : Nat)
  | phaseStep (g : Nat) (m : Msg)
  | calStart (g : Nat) (m : Msg) (pulses : Bool)
  | selfTest (g : Nat) (m : Msg)
  | islandOff (g : Nat) (m : Msg)
  | identReq (g : Nat) (m : Msg)
  | islandBrownout (g : Nat)
  | railCurrentLimit (g : Nat) (rail : Nat) (enter : Bool)
  | overcurrent (g : Nat) (rail : Nat)
  | pllSLossOfLock
  | pllSRelock (band : Nat)
  | groupRejoin (g : Nat) (res : GroupBoot)
  | faultHoldResume
  | pllCLossOfLock
  | pllCRelock (band : Nat) (env : BootEnv)
  | pllMLossOfLock
  | pllMRelock (band : Nat)
  | pllFLossOfLock (g : Nat)
  | oscillatorFailure
  | syncInEdge (offset : Nat)
  | ppsInPulse (at_ : Postmark)
  | ppsOutPulse
  | ppsOutPulseEnd
  | announce (port : Nat) (d : AnnounceData)
  | sync (port : Nat) (d : SyncData)
  | followUp (port : Nat) (d : SyncData)
  | delayReq (x : Nat)
  | delayResp (port : Nat) (d : DelayData)
  | domainLost (x : Nat)
  | arpRequest (port : Nat) (asked : Nat)
  | arpReply (port : Nat) (ip mac : Nat)
  | arpRetry (port : Nat) (ip : Nat)
  | arpRefresh (port : Nat) (ip : Nat)
  | icmpEchoRequest (port : Nat) (len : Nat) (data : Bytes)
  | frameDiscard (port : Nat)
  | ethLinkDown (port : Nat)
  | ethLinkUp (port : Nat)
  | sealChange (open_ : Bool) (how : SealLevel)
  | fence (u : FUnit) (cause detail : Nat)
  | quarantineEnd (u : FUnit)
  | selfTestComplete (u : FUnit) (pass : Bool) (res : Option GroupBoot)
  | readmit (u : FUnit)
  | pwMeasurementUpdate (m : PwMeas)
  | lifetimeStatisticsUpdate (seconds : Nat)
  | smbusBlockRead (code : Nat)
  | smbusAlertResponse
  | trigInEdge (input : Nat) (rise : Bool) (offset : Nat)
  | zoneChange (chan : Nat) (microvolts : Int) (offset fine : Nat)
  | perstNRelease
  | interruptDisableSet (which : IntxOff)
  | ltrMechanismEnable
  | unsupportedRequest (kind : BadRequest)
  deriving DecidableEq, Repr

end Sys2Proof
end

