-- ==== Sys2Proof/Decode.lean ====
section
/-!
DEFINITION. The command that a word spells by the table's bits. No row of spec/opcode_table.json gives a bit (every row's list of
fields is empty), so no word spells a command. The byte layouts that the specification does give, such as the 64-byte command
entry of Table 11-9, are decoded where they are received.
-/
namespace Sys2Proof

/-- The command spelt by a word of `nbits` bits: none, since the table gives no row any bits. -/
def decodeTableWord (_nbits _w : Nat) : Option Instr := none

end Sys2Proof
end

