-- ==== Sys2Proof/Machine/FolioTypes.lean ====
section
/-!
DEFINITION. The configuration that a Folio holds, as plain data: one structure per entry of each quire body (chapters 02 to 15).
A `Folio` is what the loader has read, decoded and checked; the bytes it was read from are kept beside it in the state.
-/
namespace Sys2Proof.Machine

/-- MODULE body (R68, Table 02-9). `frame` is FRAME: T_F is FRAME × 62.5 µs. -/
structure ModuleQ where
  mode   : Nat := 1
  frame  : Nat := 2
  strict : Bool := false
  margin : List Nat := []
  deriving DecidableEq, Repr, Inhabited

/-- One CLK_OUT setting of a plan (R440, Table 14-8). -/
structure ClkOutQ where
  div    : Nat := 0
  format : Nat := 0
  syncEn : Bool := false
  deriving DecidableEq, Repr, Inhabited

/-- One clock plan (R446, Table 14-8). `mclkDiv` is group-major, 64 entries, 0xFFFF as FIELD. -/
structure PlanQ where
  plan   : Nat := 0
  ref    : Nat := 0
  refMhz : Nat := 100
  mult   : Nat := 0
  q      : Nat := 1
  n      : Nat := 40
  outs   : List ClkOutQ := []
  mclkDiv : List Nat := []
  deriving DecidableEq, Repr, Inhabited

/-- CLOCKS body (R455). `body` keeps the plain bytes, which the mirror shows (R456) and R450 compares. -/
structure ClocksQ where
  syncPulse  : Bool := false
  resumeSync : Bool := false
  refWaitMs  : Nat := 0
  plans      : List PlanQ := []
  body       : Bytes := []
  deriving DecidableEq, Repr, Inhabited

/-- One domain entry of TIME (Table 13-8). -/
structure DomainQ where
  source    : Nat := 0
  port      : Nat := 0
  ptpDomain : Nat := 0
  logDelayReq : Int := 0
  asymNs    : Int := 0
  deriving DecidableEq, Repr, Inhabited

/-- One port entry of TIME (Table 13-9). -/
structure PortQ where
  pmode   : Nat := 0
  mtu     : Nat := 0
  vlan    : Nat := 0
  ipv4    : Nat := 0
  prefixLen : Nat := 0
  pcp     : Nat := 0
  gateway : Nat := 0
  rateMbps : Nat := 0
  deriving DecidableEq, Repr, Inhabited

/-- TIME body (R431, Table 13-7). -/
structure TimeQ where
  maxSlew   : Nat := 500000
  slewLimit : Nat := 100000
  holdoverS : Nat := 3600
  timemapFrames : Nat := 1
  priority  : Nat := 0
  coastForever : Bool := false
  ppsOutEn  : Bool := false
  ppsOutUntraced : Bool := false
  ppsOutWidth : Nat := 0
  domains   : List DomainQ := []
  ports     : List PortQ := []
  deriving DecidableEq, Repr, Inhabited

/-- One MCLK entry of FIELD (Table 04-10). -/
structure MclkQ where
  div    : Nat := 0
  format : Nat := 0
  returnDelay : Nat := 0
  deriving DecidableEq, Repr, Inhabited

/-- One FIELD entry (R139, Table 04-9). -/
structure GroupQ where
  group    : Nat := 0
  settleMs : Nat := 0
  railMa   : List Nat := []
  mclk     : List MclkQ := []
  deriving DecidableEq, Repr, Inhabited

/-- One CHANNELS entry (R140, Table 04-11). -/
structure ChanQ where
  chan    : Nat := 0
  mode    : Nat := 0
  rateK   : Nat := 0
  clockSrc : Nat := 0
  clockFalling : Bool := false
  slope   : Nat := 0
  clockCmp : Bool := false
  dataCmp : Bool := false
  thrHi   : Nat := 0
  thrLo   : Nat := 0
  hyst    : Nat := 0
  storage : Nat := 0
  decimD  : Nat := 0
  clockHz : Nat := 0
  edgeRate : Nat := 0
  stampRate : Nat := 0
  historyUs : Nat := 0
  cableDelay : Nat := 0
  deriving DecidableEq, Repr, Inhabited

/-- One condition entry (R191, Table 06-3). `a` and `b` are the unsigned 64-bit words; `sa`, `sb` their signed values. -/
structure CondQ where
  type : Nat := 0
  mode : Nat := 0
  comp : Bool := false
  polarity : Bool := false
  invert : Bool := false
  onset : Bool := false
  src  : Nat := 0
  a    : Nat := 0
  b    : Nat := 0
  c    : Nat := 0
  d    : Nat := 0
  deriving DecidableEq, Repr, Inhabited

/-- One slot (R210, Table 06-6). -/
structure SlotQ where
  condA   : Nat := 0
  condB   : Nat := 0
  combine : Nat := 0
  action  : Nat := 0
  arg     : Nat := 0
  next    : Nat := 0
  deriving DecidableEq, Repr, Inhabited

/-- One sequencer entry (R222, Table 06-9): `levels` holds eight slots a level. -/
structure SeqQ where
  seq      : Nat := 0
  armAtStart : Bool := false
  rearmForever : Bool := false
  hostOpen : Bool := false
  keepState : Bool := false
  armCount : Nat := 0
  holdoff  : Nat := 0
  levels   : List (List SlotQ) := []
  conds    : List CondQ := []
  deriving DecidableEq, Repr, Inhabited

/-- One RECORDS entry (R251, Table 07-3). -/
structure RecQ where
  rec_    : Nat := 0
  kind    : Nat := 0
  seq     : Nat := 0
  continuous : Bool := false
  measure : Bool := false
  partFrames : Nat := 1
  pre     : Nat := 0
  post    : Nat := 0
  streamLen : Nat := 0
  streams : List Nat := []
  deriving DecidableEq, Repr, Inhabited

/-- One REDUCTIONS entry (R281, Table 08-5). -/
structure RedQ where
  red     : Nat := 0
  kind    : Nat := 0
  stored  : Bool := false
  pickFalling : Bool := false
  comp    : Bool := false
  input   : Nat := 0
  order   : Nat := 0
  shift   : Nat := 0
  mode    : Nat := 0
  d       : Nat := 1
  phase   : Nat := 0
  window  : Nat := 0
  firD    : Nat := 0
  historyUs : Nat := 0
  coef    : List Int := []
  deriving DecidableEq, Repr, Inhabited

/-- One SUMS entry (R283): inputs are (RED, GAIN). -/
structure SumQ where
  ws      : Nat := 0
  stored  : Bool := false
  offset  : Int := 0
  historyUs : Nat := 0
  inputs  : List (Nat × Int) := []
  deriving DecidableEq, Repr, Inhabited

/-- One LC entry (R284, Table 08-9). -/
structure LcQ where
  lc   : Nat := 0
  mode : Nat := 0
  stat : Nat := 0
  src  : Nat := 0
  a    : Int := 0
  b    : Int := 0
  c    : Nat := 0
  deriving DecidableEq, Repr, Inhabited

/-- One EVT_OUT entry (R284, Table 08-10). -/
structure EvtQ where
  out    : Nat := 0
  invert : Bool := false
  any    : Bool := false
  and_   : Bool := false
  safe   : Nat := 0
  lcs    : List Nat := []
  pulseMask : Nat := 0
  pulseFrames : Nat := 0
  gateSeq : Nat := 0xFF
  gateFlag : Nat := 0
  deriving DecidableEq, Repr, Inhabited

/-- One MEASURE entry (R308, Table 09-5). -/
structure MeasQ where
  entry  : Nat := 0
  kind   : Nat := 0
  comp   : Bool := false
  polarity : Bool := false
  chA    : Nat := 0
  chB    : Nat := 0xFFFF
  edgeA  : Nat := 0
  edgeB  : Nat := 0
  cycles : Nat := 0
  n      : Nat := 1
  timeout : Nat := 1
  calOffset : Int := 0
  deriving DecidableEq, Repr, Inhabited

/-- One delivery ring entry (R370, Table 11-17). -/
structure RingQ where
  ring    : Nat := 0
  notifyTick : Bool := false
  size    : Nat := 4096
  staging : Nat := 0
  notifyK : Nat := 0
  deriving DecidableEq, Repr, Inhabited

/-- One network stream entry (Table 11-18). -/
structure StreamQ where
  stream  : Nat := 0
  port    : Nat := 0
  deadLetter : Bool := false
  staging : Nat := 4096
  destIp  : Nat := 0
  destUdp : Nat := 1
  srcUdp  : Nat := 1
  dscp    : Nat := 0
  deriving DecidableEq, Repr, Inhabited

/-- One subscription (Table 11-19). -/
structure SubQ where
  source : Nat := 0
  mask   : Nat := 0
  types  : Nat := 0
  target : Nat := 0
  deriving DecidableEq, Repr, Inhabited

/-- DELIVERY body (R370). -/
structure DeliveryQ where
  hbFrames : Nat := 1
  rings    : List RingQ := []
  streams  : List StreamQ := []
  subs     : List SubQ := []
  deriving DecidableEq, Repr, Inhabited

/-- HOST body (R483, Table 15-15). An absent quire acts as all zeros. -/
structure HostQ where
  permit   : Nat := 0
  planMask : Nat := 0
  groupMask : Nat := 0
  poolGb   : Nat := 0
  poolDb   : Nat := 0
  winMask  : Nat := 0
  winRo    : Nat := 0
  deriving DecidableEq, Repr, Inhabited

/-- INSTALLATION body (R96, Table 03-5). -/
structure InstallQ where
  position : Nat := 0
  chainLen : Nat := 1
  leader   : Nat := 0
  syncDelay : Nat := 0
  deriving DecidableEq, Repr, Inhabited

/-- A Folio as bound: the header fields that matter after binding, the quires' bodies, which quires are SEALED (type codes),
and the plain FIELD and CHANNELS bodies that the FG_ mirrors show (R147). -/
structure Folio where
  seqNo     : Nat := 0
  serial    : Nat := 0
  subsysVid : Nat := 0
  subsysId  : Nat := 0
  sealedTypes : List Nat := []
  sealedHash : Bytes := []
  present   : List Nat := []
  module_   : ModuleQ := {}
  clocks    : ClocksQ := {}
  time      : TimeQ := {}
  field     : List GroupQ := []
  channels  : List ChanQ := []
  extRate   : List Nat := []
  seqs      : List SeqQ := []
  records   : List RecQ := []
  reds      : List RedQ := []
  sums      : List SumQ := []
  lcs       : List LcQ := []
  evts      : List EvtQ := []
  meas      : List MeasQ := []
  delivery  : DeliveryQ := {}
  host      : HostQ := {}
  install   : Option InstallQ := none
  fieldBody : Bytes := []
  chanBody  : Bytes := []
  deriving DecidableEq, Repr, Inhabited

end Sys2Proof.Machine
end

