-- ==== Sys2Proof/Machine/Parts.lean ====
section
/-!
DEFINITION. The parts of the module's state, chapter by chapter, as plain data. A field's docstring names the register or the
item, its width where the spec gives one, the rule that names it, and its reset value where that is not zero or absent.
-/
namespace Sys2Proof.Machine

/-- A sparse table: keys strictly rising, an absent key reading as a default. -/
abbrev Tbl (α : Type) := List (Nat × α)

/-- A byte store: addresses strictly rising, an absent address reading as the store's fill byte. -/
abbrev Mem := List Host.Cell

/-! ## Pins and supply (chapters 03 and 17) -/

/-- The level of a driven pin (R79): not driven, low or high. -/
inductive PinLevel where
  | hiZ | low | high
  deriving DecidableEq, Repr, Inhabited

/-- The state of one supply rail (R508 to R510): without power, or browned out until power-good; as a measurement has found it below its
brownout threshold, which is no brownout before it has lasted 2 µs; between that and its tolerance; in tolerance; above it. -/
inductive RailState where
  | off | brownout | low | marginal | ok | high
  deriving DecidableEq, Repr, Inhabited

structure Pins where
  /-- The three supply rails, VDD_CORE, VDD_IO, VDD_AUX (R508). -/
  rails : List RailState := [.off, .off, .off]
  /-- MOD_RESET_N is high, that is released (R511). -/
  modResetN : Bool := true
  /-- SEAL_OPEN_N level now: true is high, sealed (R499, Table 17-7: pull-up reads sealed). -/
  sealOpenN : Bool := true
  /-- PERST_N is high, that is released (Table 17-7: pull-down, in reset). -/
  perstN : Bool := false
  /-- EVT_OUT0 to EVT_OUT15 (R79, Table 03-2). -/
  evtOut : List PinLevel := List.replicate 16 .hiZ
  /-- PPS_OUT (R419, Table 17-7). -/
  ppsOut : PinLevel := .hiZ
  /-- Power-good has come, and no rail has browned out since (R509, R510). -/
  good : Bool := false
  deriving DecidableEq, Repr, Inhabited

structure Power where
  /-- PW_RAILk.VOLT, 3 × 16 bits (R532). -/
  volts : List Nat := [0, 0, 0]
  /-- PW_RAILk.CURR, 3 × 16 bits (R532). -/
  currs : List Nat := [0, 0, 0]
  /-- PW_POWER.TOTAL, 16 bits (R532). -/
  total : Nat := 0
  /-- PW_POWER.EXPORT, 16 bits (R532). -/
  exported : Nat := 0
  /-- PW_TEMP.DIE, 16 bits signed (R532). -/
  die : Int := 0
  /-- PW_TEMP.DRAM, 16 bits signed (R532). -/
  dram : Int := 0
  /-- PW_ISLANDg.IN, 16 × 16 bits (R532). -/
  islandIn : List Nat := List.replicate 16 0
  /-- PW_ISLANDg.OUT, 16 × 16 bits (R532). -/
  islandOut : List Nat := List.replicate 16 0
  /-- The core die, or a DRAM package, stands at its warning, as last measured (R531, Table 17-5). -/
  dieWarn : Bool := false
  dramWarn : Bool := false
  /-- Which transfers are at their input limit now (R531). -/
  xferNow : List Bool := List.replicate 16 false
  /-- The DRAM requires more than twice its base refresh rate now (R319, R516). -/
  dramHot : Bool := false
  /-- PW_ALERT.ISLAND, 16 bits, W1C (R532). -/
  alertIsland : Nat := 0
  /-- PW_ALERT.XFER, W1C (R532). -/
  alertXfer : Bool := false
  /-- PW_ALERT.DRAM, W1C (R532). -/
  alertDram : Bool := false
  /-- PW_ALERT.DIE, W1C (R532). -/
  alertDie : Bool := false
  /-- PW_ALERT.RAIL, 3 bits, W1C (R532). -/
  alertRail : Nat := 0
  /-- PW_STATUS.SHUTDOWN, W1C, kept by every reset (R517). -/
  shutdown : Bool := false
  /-- A thermal shutdown holds the module in OFF until the die reaches 90 °C (R517). -/
  thermalOff : Bool := false
  /-- The highest core die and island temperatures since the lifetime statistics were last updated (R504). -/
  peakDie : Option Int := none
  peakIsland : Option Int := none
  /-- Power has come since the last start, which POWER_ONS has not yet counted (R504). -/
  freshPower : Bool := false
  deriving DecidableEq, Repr, Inhabited

/-! ## Binding (chapters 02 and 03) -/

/-- Module states (R75, Table 03-1). -/
inductive ModState where
  | off | boot | unbound | bound | arming | running | faultHold
  deriving DecidableEq, Repr, Inhabited

/-- A Folio copy or firmware slot. -/
inductive Copy where
  | a | b
  deriving DecidableEq, Repr, Inhabited

/-- Where an accepted or undecided REBIND stands (R105 to R108). -/
inductive RebindPhase where
  | none | reading | accepted | draining
  deriving DecidableEq, Repr, Inhabited

/-- What the module waits for between its start-up steps (R80). -/
inductive BindWait where
  | none | refIn | waves | arming
  deriving DecidableEq, Repr, Inhabited

structure Boot where
  /-- MOD_STATE.STATE, 4 bits (R75, R110). Before power the module is in OFF. -/
  state : ModState := .off
  /-- MOD_STATE.STEP, 8 bits (R80, R110); reset 0x01 in BOOT. -/
  step : Nat := 0
  /-- MOD_STATE.REBIND_RESULT, 3 bits (R107, R110). -/
  rebindResult : Nat := 0
  /-- MOD_STATE.RESUME: the state FAULT_HOLD resumes (R77, R110). -/
  resume : Option ModState := .none
  /-- MOD_STATE.REBINDING (R108, R110). -/
  rebinding : Bool := false
  /-- Progress of a REBIND (R105 to R108). -/
  phase : RebindPhase := .none
  /-- The command ring of a REBIND command in progress and its CMD_ID and FLAGS; none when REBIND_CTRL started it (R104). -/
  rebindCmd : Option (Nat × Bytes) := Option.none
  /-- SEAL_OPEN_N was low at the sample of the bind or REBIND in progress (R66, R106). -/
  sealSample : Bool := false
  /-- FW_STATUS.ERR_A, 4 bits (R110). -/
  fwErrA : Nat := 0
  /-- FW_STATUS.ERR_B, 4 bits (R110). -/
  fwErrB : Nat := 0
  /-- FW_STATUS.SLOT, 2 bits (R110). -/
  fwSlot : Option Copy := Option.none
  /-- VERSION of the running firmware, 32 bits (Table 03-4). -/
  fwVersion : Nat := 0
  /-- SHA-256 of the running firmware as signed, 32 bytes (R94, R500). -/
  fwHash : Bytes := []
  /-- START_MS, 32 bits (R103). -/
  startMs : Nat := 0
  /-- The time, in pu since reset, of power-good or of the acceptance of the REBIND from which START_MS counts (R103). -/
  startAt : Nat := 0
  /-- BIND_ERROR.CODE, 12 bits (R72, R73). -/
  errCode : Nat := 0
  /-- BIND_ERROR.DETAIL, 16 bits (R72, R73). -/
  errDetail : Nat := 0
  /-- BIND_ERROR.COPY, 2 bits (R73). -/
  errCopy : Option Copy := Option.none
  /-- FOLIO_STATUS.SUBSYS_STALE (R62, R73). -/
  subsysStale : Bool := false
  /-- FOLIO_STATUS.SEAL_AT_BIND (R73). -/
  sealAtBind : Bool := false
  /-- FOLIO_STATUS.STRICT_EFFECTIVE (R66, R73). -/
  strictEffective : Bool := false
  /-- FOLIO_STATUS.SEALED_CHANGED (R73). -/
  sealedChanged : Bool := false
  /-- FOLIO_STATUS.A_CHECKED and A_VALID (R73). -/
  aChecked : Bool := false
  aValid : Bool := false
  /-- FOLIO_STATUS.B_CHECKED and B_VALID (R73). -/
  bChecked : Bool := false
  bValid : Bool := false
  /-- FOLIO_ERR.ERR_A, 12 bits (R73). -/
  errA : Nat := 0
  /-- FOLIO_ERR.ERR_B, 12 bits (R73). -/
  errB : Nat := 0
  /-- FOLIO_SEQ, 32 bits (R73). -/
  folioSeq : Nat := 0
  /-- FOLIO_SERIAL, 64 bits (R73). -/
  folioSerial : Nat := 0
  /-- SEALED_HASH0 to 7 and LID: the sealed hash, 32 bytes (R59, R73); empty reads zero. -/
  sealedHash : Bytes := []
  /-- The bound Folio (R74, R147); none while UNBOUND. -/
  folio : Option Folio := Option.none
  /-- The Folio of the last bind, whose TIME entries the domains and ports run with (R109, R408). -/
  lastBound : Option Folio := Option.none
  /-- The copy in flash that is currently bound (Table 02-2). -/
  boundCopy : Option Copy := Option.none
  /-- The bound copy's stored bytes, which the Folio mirror shows (R74). -/
  image : Bytes := []
  /-- The image held for a REBIND in the work area of capture memory, and its copy (R106, Table 10-1); and each copy's own code as
  its choice found them, which FOLIO_ERR takes when the bind's checks begin (R73). -/
  held : Option (Copy × Bytes) := Option.none
  heldErrs : Nat × Nat := (0, 0)
  /-- The time, in pu since reset, at which the 100 ms of an accepted REBIND end (R108). -/
  drainUntil : Nat := 0
  /-- Calibrations of the waves powered so far, for step 15 (R87). -/
  cals : List (Nat × CalData) := []
  /-- The Folio the running bind attempts: admitted and placed, discovery under way (R76). -/
  binding : Option Folio := Option.none
  /-- Configuration-space subsystem IDs set by the ROM (R62). -/
  subsysVid : Nat := 0
  subsysId : Nat := 0
  /-- What the start-up waits for (R80, R437). -/
  wait : BindWait := .none
  /-- Waves powered so far in step 9 (R83). -/
  wavesDone : Nat := 0
  /-- PW_STATUS.WAVE: island power waves in progress (R83, R532). -/
  waveOn : Bool := false
  /-- Chain: this module is the leader (R97); none while undecided. -/
  leader : Option Bool := Option.none
  /-- Chain position discovered (R98). -/
  position : Option Nat := Option.none
  /-- Health map: failed and permanently fenced core units, and unused field units that failed (R81, R86, R493). -/
  health : List FUnit := []
  /-- The units that a REBIND carries into the health map until a module reset (R493). -/
  carried : List FUnit := []
  deriving DecidableEq, Repr, Inhabited

/-- The serial NOR flash on the carrier, which the loader reads and the host writes (R3, R44, R45). -/
structure Flash where
  /-- The device's bytes; an unlisted byte reads 0xFF, as erased. -/
  mem : Mem := []
  /-- Device size in Mbit; 0 is a device that does not answer (R72, 0x101 and 0x102). -/
  sizeMbit : Nat := 512
  /-- The SFDP table is present and readable, and advertises a supported read mode (R45, R72). -/
  sfdp : Bool := true
  modeOk : Bool := true
  deriving DecidableEq, Repr, Inhabited

/-- A host flash operation that has been accepted (R475). -/
structure FlashOp where
  op : Nat
  len : Nat
  addr : Nat
  data : Bytes
  /-- It waits while the loader reads the flash (R47). -/
  waiting : Bool
  /-- A reset came since it started: RESULT and DONE are not kept (R476). -/
  forgotten : Bool
  deriving DecidableEq, Repr, Inhabited

structure FlashRegs where
  /-- FLASH_CTRL.OP, 3 bits (R476, Table 15-12). -/
  op : Nat := 0
  /-- FLASH_CTRL.LEN, 9 bits. -/
  len : Nat := 0
  /-- FLASH_ADDR, 32 bits. -/
  addr : Nat := 0
  /-- FLASH_DATA, 256 bytes. -/
  data : Bytes := List.replicate 256 0
  /-- The operation in progress or waiting: FLASH_STATUS.BUSY and WAIT. -/
  busy : Option FlashOp := none
  /-- FLASH_STATUS.DONE, W1C. -/
  done : Bool := false
  /-- FLASH_STATUS.RESULT, 4 bits. -/
  result : Nat := 0
  deriving DecidableEq, Repr, Inhabited

/-! ## Time (chapter 13) -/

/-- A segment of the active timeline (R403, R421): anchor postmark, disciplined time there in 2^-16 ns, rate in 2^-40, the domain
followed, and how the segment began. -/
structure Seg where
  anchor : Postmark
  q      : Int
  rho    : Int
  dom    : Option Nat
  step   : Bool
  stepBack : Bool
  switch : Bool
  stepNs : Int
  deriving DecidableEq, Repr, Inhabited

/-- Timeline states (R412). -/
inductive TlState where
  | untraced | traced | coasting
  deriving DecidableEq, Repr, Inhabited

/-- Domain states (R408, Table 13-2). -/
inductive DomState where
  | off | acquiring | traced | lost
  deriving DecidableEq, Repr, Inhabited

/-- One time domain (R406 to R411, R433). -/
structure Domain where
  /-- TB_DOMx_STATUS.STATE. -/
  state : DomState := .off
  /-- TB_DOMx_STATUS.LOG_SYNC, s8. -/
  logSync : Int := 0
  /-- TB_DOMx_OFFSET, s32 ns. -/
  offsetNs : Int := 0
  /-- TB_DOMx_DELAY, ns. -/
  delayNs : Int := 0
  /-- TB_DOMx_RATE, s32 in 2^-40. -/
  rate : Int := 0
  /-- TB_DOMx_GM, 64-bit clockIdentity of the selected grandmaster. -/
  gm : Nat := 0
  /-- TB_DOMx_GM_HI as latched (R433). -/
  gmHi : Nat := 0
  /-- TB_DOMx_RX, 32 bits, saturating. -/
  rx : Nat := 0
  /-- TB_DOMx_ERR, 32 bits, saturating. -/
  err : Nat := 0
  /-- The Announce senders heard on the domain's port (R410). -/
  masters : List AnnounceData := []
  /-- The selected master's sender number (R410). -/
  master : Option Nat := none
  /-- currentUtcOffset of the selected master (R402). -/
  utc : Option Int := none
  /-- The Sync under way: sequence number, receive stamp, origin time and correction once known (R410, R411). -/
  syncSeq : Nat := 0
  syncRx : Option Postmark := none
  syncOrigin : Option Int := none
  /-- The last completed Sync: receive stamp and corrected origin time (R408). -/
  lastSync : Option (Postmark × Int) := none
  /-- When the selected master's latest Announce came, in pu since reset, and its announced interval, log2 s (R408). -/
  annAt : Option Nat := none
  annLog : Int := 0
  /-- When the selected master's latest Sync came, or it was selected, in pu since reset (R408). -/
  syncAt : Option Nat := none
  /-- Where the latest pulse was placed, in pu since reset (R408). -/
  pulseAt : Option Nat := none
  /-- The Delay_Req sent and not yet answered: sequence number and transmit stamp (R410, R411). -/
  reqSeq : Nat := 0
  reqTx : Option Postmark := none
  /-- The time, in pu since reset, of the latest Delay_Req (R410). -/
  reqAt : Option Nat := none
  /-- Minimum Delay_Req interval in force, log2 s (R410). -/
  reqLog : Int := 0
  /-- The domain's own mapping: postmark and domain time in 2^-16 ns of its current estimate (R408). -/
  est : Option (Postmark × Int) := none
  /-- Consecutive agreeing measurements while ACQUIRING, latest first: postmark and time (R408). -/
  run : List (Postmark × Int) := []
  /-- Consecutive outliers while TRACED, latest first (R409). -/
  outliers : List (Postmark × Int) := []
  /-- The domain has been TRACED at least once since reset (R407). -/
  everTraced : Bool := false
  /-- A new phase was taken and the timeline has not yet followed it (R409, R413). -/
  newPhase : Bool := false
  deriving DecidableEq, Repr, Inhabited

/-- One Ethernet port (R423 to R426, R433). -/
structure EthPort where
  /-- TB_ETHp_STATUS.LINK. -/
  link : Bool := false
  /-- TB_ETHp_TX, RX and RX_DROP, 32 bits each, saturating. -/
  tx : Nat := 0
  rx : Nat := 0
  rxDrop : Nat := 0
  /-- Resolved ARP entries by IPv4 address: MAC, and the time, in pu since reset, from which the refresh counts (R425). -/
  arp : Tbl (Nat × Nat) := []
  /-- Addresses asked for and not yet answered (R425), with the time of the last request; TB_ETHp_STATUS.ARP_WAIT where one has no entry. -/
  asked : Tbl Nat := []
  /-- Token bucket of RATE_MBPS, in units of 1/128,000 byte (R430), and the time it was last filled, in pu. -/
  tokens : Nat := 0
  filledAt : Nat := 0
  /-- The stream served last (R430). -/
  lastStream : Option Nat := none
  deriving DecidableEq, Repr, Inhabited

/-- A network stream's sending state (R427 to R430, R433). -/
structure NetStream where
  /-- TB_STRs_DGRAM: datagrams sent since bind, the next DGRAM_SEQ. -/
  dgram : Word32 := 0
  /-- TB_STRs_FRAG, saturating. -/
  frag : Nat := 0
  /-- Bytes of the first staged envelope already sent as fragments (R428). -/
  fragOff : Nat := 0
  /-- SEQ of the next envelope of the stream (R351). -/
  seqNext : Word32 := 0
  deriving DecidableEq, Repr, Inhabited

structure Time where
  /-- TIME_RAW, 56 bits (R396). -/
  raw : RawTime := 0
  /-- Wrap count of TIME_RAW (R398). -/
  wraps : Nat := 0
  /-- The full count that the clock which drives it counts on from, in its own cycles (R397). -/
  countFrom : Nat := 0
  /-- The tick of frame 0 of the bind, as a count of pu since reset (R150); none before frame ticks begin. -/
  tick0 : Option Nat := none
  /-- The number of the latest frame tick, that is of the frame being sampled (R16). -/
  frame : FrameNo := 0
  /-- Frame ticks so far in this bind (the frame number without its wrap). -/
  ticks : Nat := 0
  /-- The instant of the latest frame tick, as a count of pu since reset (R13, R14). -/
  tickAt : Nat := 0
  /-- Segments of the active timeline, latest first (R403). -/
  segs : List Seg := []
  /-- TB_STATUS.STATE (R412). -/
  tl : TlState := .untraced
  /-- TB_STATUS.ACTIVE: 0 DOM_A, 1 DOM_B (R412). -/
  active : Option Nat := none
  /-- TB_STATUS.PREF (R412). -/
  pref : Option Nat := none
  /-- TB_STATUS.SLEWING (R414). -/
  slewing : Bool := false
  /-- The timeline's rate without its slew term, in 2^-40 (R412, R414). -/
  baseRate : Int := 0
  /-- The time, in pu since reset, at which coasting ends; none when it does not (R412). -/
  coastEnd : Option Nat := none
  /-- The time, in pu since reset, at which coasting last ended (R204, R412). -/
  coastEnded : Option Nat := none
  /-- TB_STEPS.FWD and BACK, 16 bits each, saturating. -/
  stepsFwd : Nat := 0
  stepsBack : Nat := 0
  /-- A step took effect at the tick of this frame (R415): its envelopes carry TIME_STEPPED. -/
  stepFrames : List FrameNo := []
  /-- Frames whose tick found the timeline UNTRACED (R416), kept until they are released. -/
  untracedFrames : List FrameNo := []
  /-- TB_RAW_HI, TB_DIS_SEC_LO, TB_DIS_SEC_HI and TB_DIS_NS as latched (R433). -/
  rawHi : Nat := 0
  disSecLo : Nat := 0
  disSecHi : Nat := 0
  disNs : Nat := 0
  /-- DOM_A and DOM_B. -/
  domA : Domain := {}
  domB : Domain := {}
  /-- The last whole second at which PPS_OUT pulsed (R419), and the end of the pulse under way, in pu. -/
  ppsLast : Option Int := none
  ppsEnd : Option Nat := none
  /-- ETH0 and ETH1. -/
  eth0 : EthPort := {}
  eth1 : EthPort := {}
  /-- Network streams. -/
  streams : Tbl NetStream := []
  /-- TIME_PREF commands waiting for their frame boundary: command ring and entry (R361). -/
  prefCmds : List (Nat × Bytes) := []
  deriving DecidableEq, Repr, Inhabited

/-! ## Clocks (chapter 14) -/

/-- A synthesiser (R434, R438, R457). -/
structure Pll where
  /-- Locked. -/
  lock : Bool := false
  /-- CK_PLLx.LOSSES, 16 bits, saturating. -/
  losses : Nat := 0
  /-- CK_PLLx.BAND, 6 bits. -/
  band : Nat := 0
  deriving DecidableEq, Repr, Inhabited

structure Clocks where
  pllS : Pll := {}
  pllC : Pll := {}
  pllM : Pll := {}
  /-- CK_STATUS.PLAN, 2 bits (R446). -/
  plan : Nat := 0
  /-- Plan switches that await their t_s, in fetch order: plan, the tick count of t_s, and the command (ring and entry) that waits for it
  (R449). CK_STATUS.PENDING shows the last. -/
  pending : List (Nat × Nat × Nat × Bytes) := []
  /-- CK_STATUS.DEFERRED (R450). -/
  deferred : Option Nat := none
  /-- CK_STATUS.REF_PRESENT, and the declared MHz at which REF_IN has last been found present (R436). -/
  refPresent : Bool := false
  refMhz : Nat := 0
  /-- CK_STATUS.REF_SEL (R457), and the reference, its MHz, M, Q and N that PLL-S runs with; empty before its first lock
  (R109). -/
  refSel : Bool := false
  sConf : List Nat := []
  /-- The time, in pu since reset, at which the wait for REF_IN ends (R437). -/
  refUntil : Option Nat := none
  /-- CK_STATUS.OSC_FAIL and SAFE_CLOCK (R453, R454). -/
  oscFail : Bool := false
  safeClock : Bool := false
  /-- CK_STATUS.SYNC_WAIT (R443). -/
  syncWait : Bool := false
  /-- CK_STATUS.CHAIN_SLIP (R452). -/
  chainSlip : Bool := false
  /-- CK_SYNC.EDGES, 16 bits, saturating, and MARK_ERR, s16 (R443, R452). -/
  syncEdges : Nat := 0
  markErr : Int := 0
  /-- The first SYNC_IN edge has started the SYNC_EN outputs, with its time in pu since reset (R443). -/
  syncStart : Option Nat := none
  /-- CK_SWITCHES, 32 bits, saturating (R457). -/
  switches : Nat := 0
  /-- CLK_OUT0 to 3: divider in force, 0 when gated (R440, R442). -/
  clkDiv : List Nat := [0, 0, 0, 0]
  /-- The tick, in pu since reset, from which each CLK_OUT's rising edges are counted (R442). -/
  clkFrom : List Nat := [0, 0, 0, 0]
  /-- What each CLK_OUT ran on before its last change or gating: the tick and the divider, and the instant by which its last high phase ends
  (R439, R442). -/
  clkOld : List (Nat × Nat × Nat) := []
  /-- The format in which each CLK_OUT is driven (R441). -/
  clkFormat : List Nat := [0, 0, 0, 0]
  /-- The clock faults that hold FAULT_HOLD: 0 PLL-S, 1 PLL-C (R454). -/
  holds : List Nat := []
  /-- The frame count of the loss of lock that holds FAULT_HOLD, by clock source (R494, HOLD_END). -/
  holdFrom : Tbl Nat := []
  /-- The postmarks of the losses that FAULT_HOLD is held for (R494). -/
  holdMark : Tbl Postmark := []
  deriving DecidableEq, Repr, Inhabited

/-! ## Field groups (chapters 04 and 05) -/

/-- A comparator pair and its changes within the frame being sampled (R116, R159). -/
structure TileChan where
  /-- HI and LO comparators now (R114, R116). -/
  hi : Bool := false
  lo : Bool := false
  /-- HI and LO at the last frame tick, from which the frame's samples are taken (R153, R162). -/
  hi0 : Bool := false
  lo0 : Bool := false
  /-- All changes of the frame so far, oldest first: OFFSET in fu, HI, LO (R159, R287). -/
  raw : List (Nat × Bool × Bool) := []
  /-- The zone of the latest sample of a CLOCKED channel (R160). -/
  lastZone : Nat := 0
  /-- A stamp was lost since the previous stamp: the next carries BREAK (R288, R292). -/
  breakNext : Bool := false
  /-- The clock edges of the frame before that lie less than 1.0 ns before its end, latest first: how many bins before the tick, and
  the level after the edge, of the HI and of the LO comparator (R156). -/
  tailHi : List (Nat × Bool) := []
  tailLo : List (Nat × Bool) := []
  deriving DecidableEq, Repr, Inhabited

/-- The settings that a tile has applied, and those it has received for the next TICK (R137). -/
structure TileSet where
  chans : Tbl ChanSet := []
  rails : Tbl Bool := []
  mclk : Tbl (Nat × Nat) := []
  trims : Tbl Nat := []
  deriving DecidableEq, Repr, Inhabited

/-- States of FG_STATUS.STATE (R147, Table 04-13). -/
inductive GState where
  | unused | powering | settling | running | fenced | down | permanent
  deriving DecidableEq, Repr, Inhabited

structure Group where
  /-- FG_STATUS.STATE, 4 bits. -/
  state : GState := .unused
  /-- FG_STATUS.LIMIT_EVENTS, 16 bits, saturating. -/
  limitEvents : Nat := 0
  /-- FG_STATUS.FUSE_OPEN, BROWNOUT (W1C), CLAMP_ACTIVE, PLL_LOCK. -/
  fuseOpen : Bool := false
  brownout : Bool := false
  clamp : Bool := false
  pllLock : Bool := false
  /-- FG_STATUS.RAIL_LIMIT, 4 bits, and the group limit as the fifth (R120): since when, in pu, the rail is in current limit, and
  whether that is detected as an overcurrent (R122). -/
  railLimit : List (Option (Nat × Bool)) := [none, none, none, none, none]
  /-- FG_BARRIER_ERR.CRC and FRAMING, 16 bits each, saturating. -/
  crcErr : Nat := 0
  framingErr : Nat := 0
  /-- FG_TEMP.TEMP, s16 (R147). -/
  temp : Int := 0
  /-- FG_RAILk.VOLT and CURR, 4 × 16 bits each. -/
  volts : List Nat := [0, 0, 0, 0]
  currs : List Nat := [0, 0, 0, 0]
  /-- FG_DESKEW.CAL_TEMP (s16), STALE, PHASE (11 bits) and FG_BARRIER_DELAY (32 bits) (R177). -/
  calTemp : Int := 0
  stale : Bool := false
  phase : Nat := 0
  barrierDelay : Nat := 0
  calibrated : Bool := false
  /-- Next expected SEQ of forward messages and next SEQ of reverse messages (R135). -/
  fwdSeq : Byte := 0
  revSeq : Byte := 0
  /-- Next SEQ that the tile expects of reverse messages (R135). -/
  tileSeq : Byte := 0
  /-- Reverse messages that have no ECHO yet: TYPE, SEQ and CRC, oldest first (R136). -/
  unechoed : List (Byte × Byte × BitVec 32) := []
  /-- The island is powered (R83, R143). -/
  powered : Bool := false
  /-- The instant, in pu since reset, from which the MCLK outputs may start: the rails have reached 4.75 V (R84); none while they are
  gated (R127). -/
  mclkFrom : Option Nat := none
  /-- Of gated MCLK outputs: the instant from which they could start, and the instant of the gating. An output that was high then completes its
  high phase (R439). -/
  mclkTail : Option (Nat × Nat) := none
  railsOn : Bool := false
  /-- Tile: whole-sample shift of the frame start (R170). -/
  shift : Nat := 0
  /-- Tile: fine phase steps of PLL-Fg made since it locked (R170). -/
  steps : Nat := 0
  /-- What phase 2 of a calibration in progress has found: BARRIER_DELAY and the phase steps, which the registers show at its end (R170,
  R177). -/
  calAlign : Option (Nat × Nat) := none
  /-- The phase of Table 05-4 that a calibration in progress is in, 0 with none: 1 round trip, 2 aligned, 3 pulse injection, 4 trims
  set, 5 verification; and the trims that it has found, by group-local channel. -/
  calPhase : Nat := 0
  calTrim : Tbl Nat := []
  testBusy : Bool := false
  /-- Tile settings applied and received (R137), and the core's own copy (R113, R138). -/
  applied : TileSet := {}
  received : TileSet := {}
  coreCopy : TileSet := {}
  /-- The tile's channels, by group-local number. -/
  chans : Tbl TileChan := []
  /-- TDC lanes: the instant, in fu since reset, until which each is dead (R292). -/
  laneDead : Tbl Nat := []
  /-- The frame number bits [15:0] of the last TICK (Table 04-7). -/
  tickLow : Nat := 0
  /-- A power command in progress: its entry and command ring, and the tick count at which a power-down acts (R143, R144). -/
  powerCmd : Option (Nat × Bytes) := none
  downAt : Option Nat := none
  /-- The first frame with the group's data: the group takes part in frames from this tick count on (R144). -/
  dataFrom : Option Nat := none
  deriving DecidableEq, Repr, Inhabited

/-- A TRIG_IN input (R206): the level now and at the last frame tick, the kept edges of the frame (OFFSET in pu, rise), and how
many edges were dropped. -/
structure TrigIn where
  lvl : Bool := false
  lvl0 : Bool := false
  kept : List (Nat × Bool) := []
  dropped : Nat := 0
  /-- The edges of the frame before that lie less than 2 ns before its end, latest first: how many pu before the tick (R206). -/
  tail : List Nat := []
  deriving DecidableEq, Repr, Inhabited

/-- A phase grid of an MCLK output (R125): the tick in pu since reset from which it counts, its divider, the edges of each
direction counted before it since frame 0 (R157), and how many it has, once a divider change has ended it (R449). -/
structure MGrid where
  from_ : Nat
  div   : Nat
  base  : Nat
  n     : Option Nat
  deriving DecidableEq, Repr, Inhabited

structure Field where
  /-- FG0 to FG15. -/
  groups : Tbl Group := []
  /-- FG_TRIMc: TRIM (9 bits) and RESIDUAL (s8) (R177). -/
  trims : Tbl (Nat × Int) := []
  /-- FG_OVERRUNc: FRAMES and DROPPED, 16 bits each, saturating (R164, R177). -/
  overruns : Tbl (Nat × Nat) := []
  /-- TRIG_IN0 to 3 (R206). -/
  trig : Tbl TrigIn := []
  /-- The voltage at each channel's contact against FCOM, in µV (R114). -/
  inputs : Tbl Int := []
  /-- Phase grids of the bind by output 4·g + k, oldest first (R125, R449); until the tick of frame 0 those of the bind before, on which a high
  phase still ends (R439). -/
  grids : Tbl (List MGrid) := []
  /-- Samples a CLOCKED channel with a channel clock source has taken in valid frames so far (R157). -/
  taken : Tbl Nat := []
  deriving DecidableEq, Repr, Inhabited

/-- What landed for one channel in one frame (R158, R159, R163, R288). -/
structure LandedChan where
  /-- Samples in order: OFFSET in pu after t_n, bit, and channel sample index j (R150, R157). -/
  samples : List (Nat × Bool × Nat) := []
  /-- Transition entries (Table 05-2) and the true zone at t_n (R163). -/
  entries : List (Nat × Nat) := []
  zone0 : Nat := 0
  /-- The channel's latest sample before the frame, where the frame before carried one or knew one (R187, R196). -/
  last0 : Option Bool := none
  /-- Changes or clock edges dropped in the frame (R156, R164). -/
  dropped : Nat := 0
  /-- Of a TRANSITIONS channel clocked by a channel: the entries, the changes and edges dropped, and the closing zone that the frame has without
  its last clock edge, which the next frame may show to begin a pulse that is too short (R156). -/
  uncut : Option (List (Nat × Nat) × Nat × Nat) := none
  /-- Stamps, as the 8-byte words of Table 09-1. -/
  stamps : List (BitVec 64) := []
  /-- The instants of the stamps that the lane dropped, in fu after the tick (R291, R299). -/
  stampsLost : List Nat := []
  deriving DecidableEq, Repr, Inhabited

/-- A run of MCLK edges located in a frame (R154): the first at `off` pu after t_n, `n` of them `per` pu apart, counted from
frame 0 as `j` and up (Table 08-2). -/
structure EdgeRun where
  off : Nat
  per : Nat
  n : Nat
  j : Nat
  deriving DecidableEq, Repr, Inhabited

/-- One frame in the frame sets, landing or landed (R27, R327). -/
structure FrameSet where
  /-- The frame's tick count in the bind, its number and its tick in pu since reset. -/
  count : Nat
  frame : FrameNo
  tickAt : Nat
  chans : Tbl LandedChan
  /-- Located MCLK edges of the frame: key 8·group + 2·output + (1 for falling edges). -/
  mclk : Tbl (List EdgeRun)
  /-- The clock plan in force in the frame (R446). -/
  plan : Nat
  /-- TRIG_IN inputs of the frame (R206). -/
  trig : Tbl TrigIn
  /-- Edges lost to dead time in the frame, by lane 8·g + j (R292). -/
  coll : Tbl Nat
  /-- The message types of Table 04-7 that the frame still misses, by group that takes part in it: bit 0 SAMPLES, bit 1 EDGES,
  bit 2 STAMPS (R134). -/
  need : Tbl Nat
  /-- Groups whose frame has landed in full. -/
  groupsOk : List Nat
  /-- Streams whose landed bytes are INVALID through a bank (R336, R337): channel c's data as c, its stamps as 1,024 + c. -/
  badChans : List Nat
  /-- The timeline's state, SLEWING, OSC and UTC offset at the frame's tick, which TIMEMAP reports (Table 13-5). -/
  tl : TlState
  slewing : Bool
  osc : Bool
  utc : Option Int
  /-- The whole frame is INVALID for sampling: FAULT_HOLD, or before RUNNING (R102, R451). -/
  invalid : Bool
  /-- Field data may be used: the module was RUNNING at the tick (R101). -/
  field : Bool
  deriving DecidableEq, Repr, Inhabited

end Sys2Proof.Machine
end

