-- ==== Sys2Proof/Machine/Tbl.lean ====
section
/-!
DEFINITION. Operations on the sparse tables and byte stores of the state, byte order (R5), saturating counters and the small
arithmetic that every chapter uses.
-/
namespace Sys2Proof.Machine

/-- The entry of key `k`, where there is one. -/
def tget? {α : Type} : Tbl α → Nat → Option α
  | [], _ => none
  | (k', v) :: t, k => if k' = k then some v else tget? t k

/-- The entry of key `k`, or the default. -/
def tget {α : Type} (d : α) (t : Tbl α) (k : Nat) : α := (tget? t k).getD d

/-- The table with key `k` holding `v`, keys kept rising. -/
def tput {α : Type} : Tbl α → Nat → α → Tbl α
  | [], k, v => [(k, v)]
  | (k', v') :: t, k, v =>
    if k' = k then (k, v) :: t else if k < k' then (k, v) :: (k', v') :: t else (k', v') :: tput t k v

/-- The table without key `k`. -/
def tdel {α : Type} (t : Tbl α) (k : Nat) : Tbl α := t.filter (fun e => e.1 != k)

/-- Changes the entry of key `k`, starting from the default. -/
def tmod {α : Type} (d : α) (t : Tbl α) (k : Nat) (f : α → α) : Tbl α := tput t k (f (tget d t k))

/-- Changes every entry. -/
def tmap {α : Type} (t : Tbl α) (f : Nat → α → α) : Tbl α := t.map (fun e => (e.1, f e.1 e.2))

/-! ## Byte stores -/

/-- The byte at an address: the listed one, or the store's fill byte. -/
def mget (fill : Byte) : Mem → Nat → Byte
  | [], _ => fill
  | (a', v) :: m, a => if a' = a then v else mget fill m a

/-- A byte store with one byte written, in canonical form. -/
def mput (fill : Byte) : Mem → Nat → Byte → Mem
  | [], a, v => if v = fill then [] else [(a, v)]
  | (a', v') :: m, a, v =>
    if a' = a then (if v = fill then m else (a, v) :: m)
    else if a < a' then (if v = fill then (a', v') :: m else (a, v) :: (a', v') :: m)
    else (a', v') :: mput fill m a v

/-- The canonical form: addresses strictly rising, no entry equal to the fill byte. -/
def Memory.wfFrom (fill : Byte) : Nat → Mem → Bool
  | _, [] => true
  | lo, (a, v) :: m => decide (lo ≤ a) && decide (v ≠ fill) && Memory.wfFrom fill (a + 1) m

/-- The canonical form of a byte store with the given fill byte. -/
def Memory.wf (fill : Byte) (m : Mem) : Bool := Memory.wfFrom fill 0 m

/-- `n` bytes from address `a` on. -/
def mread (fill : Byte) (m : Mem) (a : Nat) : Nat → Bytes
  | 0 => []
  | n + 1 => mget fill m a :: mread fill m (a + 1) n

/-- Writes bytes from address `a` on. -/
def mwrite (fill : Byte) (m : Mem) (a : Nat) : Bytes → Mem
  | [] => m
  | b :: bs => mwrite fill (mput fill m a b) (a + 1) bs

/-- Sets every byte of [lo, hi) back to the fill byte. -/
def mclear (m : Mem) (lo hi : Nat) : Mem := m.filter (fun c => c.1 < lo || hi ≤ c.1)

/-! ## Byte order and bits -/

/-- The `n` bytes of a number, least significant first (R5). -/
def le (n : Nat) (v : Nat) : Bytes :=
  match n with
  | 0 => []
  | n + 1 => BitVec.ofNat 8 v :: le n (v / 256)

/-- The number whose bytes these are, least significant first (R5). -/
def ofLe : Bytes → Nat
  | [] => 0
  | b :: bs => b.toNat + 256 * ofLe bs

/-- The `n` bytes of a two's complement number. -/
def leInt (n : Nat) (v : Int) : Bytes := le n (v % (2 ^ (8 * n) : Nat)).toNat

/-- The two's complement number held in `bits` bits. -/
def sint (bits : Nat) (v : Nat) : Int := (BitVec.ofNat bits v).toInt

/-- `n` zero bytes. -/
def zeros (n : Nat) : Bytes := List.replicate n 0

/-- Bytes [o, o + n) of a run, zero where it ends. -/
def sub (b : Bytes) (o n : Nat) : Bytes :=
  let x := (b.drop o).take n
  x ++ zeros (n - x.length)

/-- The little-endian field of `n` bytes at offset `o`. -/
def fld (b : Bytes) (o n : Nat) : Nat := ofLe (sub b o n)

/-- The signed little-endian field. -/
def sfld (b : Bytes) (o n : Nat) : Int := sint (8 * n) (fld b o n)

/-- Pads with zeros to a multiple of `k`. -/
def padTo (k : Nat) (b : Bytes) : Bytes := b ++ zeros ((k - b.length % k) % k)

/-- Rounds up to a multiple of `k`. -/
def roundUp (k n : Nat) : Nat := (n + k - 1) / k * k

/-- Quotient rounded up. -/
def cdiv (a b : Nat) : Nat := (a + b - 1) / b

/-- Bit `i` of a number. -/
def bit (v i : Nat) : Bool := v.testBit i

/-- Bits [lo + n − 1 : lo] of a number. -/
def bits (v lo n : Nat) : Nat := v / 2 ^ lo % 2 ^ n

/-- One as a number. -/
def b2n (b : Bool) : Nat := if b then 1 else 0

/-- Sets or clears bit `i`. -/
def setBit (v i : Nat) (b : Bool) : Nat := if bit v i = b then v else if b then v + 2 ^ i else v - 2 ^ i

/-- A number from its bits, bit 0 first. -/
def ofBits : List Bool → Nat
  | [] => 0
  | b :: bs => b2n b + 2 * ofBits bs

/-- Adds to a counter of `w` bits that saturates. -/
def satAdd (w a b : Nat) : Nat := min (a + b) (2 ^ w - 1)

/-- Clamps to the two's complement range of `w` bits. -/
def satInt (w : Nat) (v : Int) : Int := max (-(2 ^ (w - 1) : Nat)) (min ((2 ^ (w - 1) : Nat) - 1) v)

/-- A value clamped to `w` bits, and whether it was. -/
def satIntB (w : Nat) (v : Int) : Int × Bool := (satInt w v, decide (satInt w v ≠ v))

/-- Quotient toward −∞. -/
def fdiv (a b : Int) : Int := Int.fdiv a b

/-- Quotient rounded to nearest, ties toward +∞, for a positive divisor (R265, R297). -/
def divUp (a : Int) (b : Nat) : Int := Int.fdiv (2 * a + b) (2 * b)

/-- Quotient rounded to nearest, ties away from zero, for a positive divisor (R250, R304). -/
def divAway (a : Int) (b : Nat) : Int := if 0 ≤ a then Int.fdiv (2 * a + b) (2 * b) else -(Int.fdiv (2 * (-a) + b) (2 * b))

/-- The largest n with n² ≤ v, by bisection from the top bit. -/
def isqrtFrom (v : Nat) : Nat → Nat → Nat
  | 0, r => r
  | k + 1, r => if (r + 2 ^ k) * (r + 2 ^ k) ≤ v then isqrtFrom v k (r + 2 ^ k) else isqrtFrom v k r

/-- The integer square root. -/
def isqrt (v : Nat) : Nat := isqrtFrom v (Nat.log2 v / 2 + 1) 0

/-- The exact round(√v / n), ties toward +∞ (R304): the largest r with (2r − 1)² n² ≤ 4v. -/
def sqrtDivRound (v n : Nat) : Nat := (isqrt (4 * v) / n + 1) / 2

/-- The first position whose element satisfies `p`. -/
def findIdx? {α : Type} (p : α → Bool) (l : List α) : Option Nat :=
  let i := l.findIdx p
  if i < l.length then some i else none

/-- The numbers [lo, lo + n). -/
def upFrom (lo n : Nat) : List Nat := (List.range n).map (lo + ·)

/-- Sorts by a key, keeping the order of equals. -/
def insertBy {α : Type} (key : α → Nat) (x : α) : List α → List α
  | [] => [x]
  | y :: l => if key x < key y then x :: y :: l else y :: insertBy key x l

/-- Sorts by a key, keeping the order of equals. -/
def sortBy {α : Type} (key : α → Nat) (l : List α) : List α := l.foldl (fun acc x => insertBy key x acc) []

/-- Removes repeats, keeping first places. -/
def uniq (l : List Nat) : List Nat := l.foldl (fun acc x => if acc.contains x then acc else acc ++ [x]) []

/-- Changes element `i`. -/
def lmod {α : Type} (l : List α) (i : Nat) (f : α → α) : List α := l.modify i f

/-- Element `i`, or 0. -/
def nth (l : List Nat) (i : Nat) : Nat := l.getD i 0

end Sys2Proof.Machine
end

