-- ==== Sys2Proof/Machine/Codec.lean ====
section
/-!
DEFINITION. The checks and hashes that the specification names: CRC-32C (R135), SHA-256 (R59, R497), Adler-32 (R380), and ECDSA
verification on P-256 (R94).
-/
namespace Sys2Proof.Machine

/-! ## CRC-32C (R135) -/

/-- One bit of the reflected CRC-32C. -/
def crcBit (c : BitVec 32) : BitVec 32 := if c.getLsbD 0 then (c >>> 1) ^^^ 0x82F63B78#32 else c >>> 1

/-- One byte. -/
def crcByte (c : BitVec 32) (b : Byte) : BitVec 32 :=
  let c := c ^^^ b.setWidth 32
  crcBit (crcBit (crcBit (crcBit (crcBit (crcBit (crcBit (crcBit c)))))))

/-- CRC-32C: polynomial 0x1EDC_6F41 reflected, initial value and final exclusive-OR all ones (R135). -/
def crc32c (b : Bytes) : BitVec 32 := (b.foldl crcByte 0xFFFFFFFF#32) ^^^ 0xFFFFFFFF#32

/-! ## CRC-8 (SMBus 3.1, R529) -/

/-- One bit of CRC-8: polynomial x^8 + x^2 + x + 1, most significant bit first. -/
def crc8Bit (c : Byte) : Byte := if c.getLsbD 7 then (c <<< 1) ^^^ 0x07#8 else c <<< 1

/-- CRC-8 with initial value 0. -/
def crc8 (b : Bytes) : Byte :=
  b.foldl (fun c x => crc8Bit (crc8Bit (crc8Bit (crc8Bit (crc8Bit (crc8Bit (crc8Bit (crc8Bit (c ^^^ x))))))))) 0#8

/-! ## Adler-32 (RFC 1950, R380) -/

/-- Adler-32, most significant half last summed. -/
def adler32 (b : Bytes) : Nat :=
  let r := b.foldl (fun (acc : Nat × Nat) x =>
    let a := (acc.1 + x.toNat) % 65521
    (a, (acc.2 + a) % 65521)) (1, 0)
  r.2 * 65536 + r.1

/-! ## SHA-256 -/

/-- The first sixty-four primes, from which FIPS 180-4 takes its constants. -/
def shaPrimes : List Nat :=
  (List.range 312).filter (fun p => decide (2 ≤ p) && [2, 3, 5, 7, 11, 13, 17].all (fun q => p = q || p % q ≠ 0))

/-- The largest number below 2^n, above `r`, whose `k`-th power does not exceed `m`, bit by bit. -/
def rootBelow (k m : Nat) : Nat → Nat → Nat
  | 0, r => r
  | n + 1, r => rootBelow k m n (if (r + 2 ^ n) ^ k ≤ m then r + 2 ^ n else r)

/-- The first 32 bits of the fraction of the `k`-th root of `p`. -/
def rootFraction (k p : Nat) : BitVec 32 := BitVec.ofNat 32 (rootBelow k (p * 2 ^ (32 * k)) 37 0)

/-- The round constants: cube roots of the first sixty-four primes. -/
def shaK : List (BitVec 32) := shaPrimes.map (rootFraction 3)

/-- The initial hash words: square roots of the first eight primes. -/
def shaInit : List (BitVec 32) := (shaPrimes.take 8).map (rootFraction 2)

def rotr (x : BitVec 32) (n : Nat) : BitVec 32 := x.rotateRight n

/-- A big-endian word of four bytes. -/
def beWord (b : Bytes) : BitVec 32 := b.foldl (fun a x => (a <<< 8) ||| x.setWidth 32) 0#32

/-- The next schedule word, from the words so far, latest first. -/
def shaNext (w : List (BitVec 32)) : BitVec 32 :=
  let s0 := let x := w.getD 14 0; rotr x 7 ^^^ rotr x 18 ^^^ (x >>> 3)
  let s1 := let x := w.getD 1 0; rotr x 17 ^^^ rotr x 19 ^^^ (x >>> 10)
  w.getD 15 0 + s0 + w.getD 6 0 + s1

/-- The schedule of a 64-byte block, latest word first, extended by `n` words. -/
def shaSched : Nat → List (BitVec 32) → List (BitVec 32)
  | 0, w => w
  | n + 1, w => shaSched n (shaNext w :: w)

/-- One round on the eight working words. -/
def shaRound (v : List (BitVec 32)) (kw : BitVec 32 × BitVec 32) : List (BitVec 32) :=
  match v with
  | [a, b, c, d, e, f, g, h] =>
    let t1 := h + (rotr e 6 ^^^ rotr e 11 ^^^ rotr e 25) + ((e &&& f) ^^^ (~~~e &&& g)) + kw.1 + kw.2
    let t2 := (rotr a 2 ^^^ rotr a 13 ^^^ rotr a 22) + ((a &&& b) ^^^ (a &&& c) ^^^ (b &&& c))
    [t1 + t2, a, b, c, d + t1, e, f, g]
  | _ => v

/-- The sixteen words of a block, latest first. -/
def shaWords (b : Bytes) : List (BitVec 32) :=
  (List.range 16).foldl (fun acc i => beWord (sub b (4 * i) 4) :: acc) []

/-- One block. -/
def shaBlock (h : List (BitVec 32)) (b : Bytes) : List (BitVec 32) :=
  let w := (shaSched 48 (shaWords b)).reverse
  let v := (shaK.zip w).foldl shaRound h
  List.zipWith (· + ·) h v

/-- Whole blocks of a padded message. -/
def shaBlocks : Nat → List (BitVec 32) → Bytes → List (BitVec 32)
  | 0, h, _ => h
  | n + 1, h, b => shaBlocks n (shaBlock h (b.take 64)) (b.drop 64)

/-- The `n` bytes of a number, most significant first. -/
def be (n v : Nat) : Bytes := (le n v).reverse

/-- SHA-256, 32 bytes. -/
def sha256 (b : Bytes) : Bytes :=
  let pad := (119 - b.length % 64) % 64
  let m := b ++ [0x80] ++ zeros pad ++ be 8 (8 * b.length)
  (shaBlocks (m.length / 64) shaInit m).flatMap (fun w => be 4 w.toNat)

/-! ## ECDSA on P-256 (R94) -/

/-- The field prime, the group order and the curve's b. -/
def p256 : Nat := 2 ^ 256 - 2 ^ 224 + 2 ^ 192 + 2 ^ 96 - 1
def n256 : Nat := 0xFFFFFFFF00000000FFFFFFFFFFFFFFFFBCE6FAADA7179E84F3B9CAC2FC632551
def b256 : Nat := 0x5AC635D8AA3A93E7B3EBBD55769886BC651D06B0CC53B0F63BCE3C3E27D2604B

/-- The base point. -/
def g256 : Nat × Nat :=
  (0x6B17D1F2E12C4247F8BCE6E563A440F277037D812DEB33A0F4A13945D898C296,
   0x4FE342E2FE1A7F9B8EE7EB4A7C0F9E162BCE33576B315ECECBB6406837BF51F5)

/-- x^e mod m over the low `k` bits of e. -/
def powMod (m x e : Nat) : Nat → Nat
  | 0 => 1
  | k + 1 => let r := powMod m (x * x % m) (e / 2) k; if e % 2 = 1 then x * r % m else r

/-- The inverse modulo a prime. -/
def invMod (m x : Nat) : Nat := powMod m (x % m) (m - 2) 256

/-- a − b modulo m. -/
def subMod (m a b : Nat) : Nat := (a + (m - b % m)) % m

/-- A point: none is the point at infinity. -/
abbrev Point := Option (Nat × Nat)

/-- Point addition on P-256. -/
def ptAdd : Point → Point → Point
  | none, q => q
  | p, none => p
  | some (x1, y1), some (x2, y2) =>
    if x1 = x2 ∧ (y1 + y2) % p256 = 0 then none
    else
      let l := if x1 = x2 then (3 * x1 * x1 + (p256 - 3)) * invMod p256 (2 * y1) % p256
        else subMod p256 y2 y1 * invMod p256 (subMod p256 x2 x1) % p256
      let x3 := subMod p256 (subMod p256 (l * l) x1) x2
      some (x3, subMod p256 (l * subMod p256 x1 x3) y1)

/-- Scalar multiplication over the low `k` bits. -/
def ptMul (p : Point) (e : Nat) : Nat → Point
  | 0 => none
  | k + 1 => let r := ptMul (ptAdd p p) (e / 2) k; if e % 2 = 1 then ptAdd p r else r

/-- The point lies on the curve. -/
def onCurve (q : Nat × Nat) : Bool :=
  q.1 < p256 && q.2 < p256 && decide (q.2 * q.2 % p256 = (q.1 * q.1 * q.1 + (p256 - 3) * q.1 + b256) % p256)

/-- Verification of an ECDSA signature (r, s) of a message under a public key. -/
def ecdsaVerify (key : Nat × Nat) (msg : Bytes) (r s : Nat) : Bool :=
  if r = 0 || n256 ≤ r || s = 0 || n256 ≤ s || !onCurve key then false
  else
    let z := ofLe (sha256 msg).reverse
    let w := invMod n256 s
    match ptAdd (ptMul (some g256) (z * w % n256) 256) (ptMul (some key) (r * w % n256) 256) with
    | none => false
    | some (x, _) => x % n256 = r

end Sys2Proof.Machine
end

