-- ==== Sys2Proof/Machine/Store.lean ====
section
/-!
DEFINITION. The layout of the Franking Store (R496, Tables 16-5 to 16-10) over its bytes: counter page copies, audit events,
significant-fault counters, lifetime statistics and the factory page, and the store as manufactured.
-/
namespace Sys2Proof.Machine

/-- Reads `n` bytes of the store. -/
def stRead (m : Mem) (a n : Nat) : Bytes := mread 0 m a n

/-- A little-endian field of the store. -/
def stGet (m : Mem) (a n : Nat) : Nat := ofLe (stRead m a n)

/-- A counter page copy (Table 16-6). -/
structure Page where
  gen      : Nat := 0
  franking : Nat := 0
  next     : Nat := 0
  hash     : Bytes := []
  hashValid : Bool := false
  lastStrict : Bool := false
  sealOpen : Bool := false
  fwVersion : Nat := 0
  fwHash   : Bytes := []
  deriving DecidableEq, Repr, Inhabited

/-- "LKFS" (Table 16-6). -/
def pageMagic : Nat := 0x53464B4C

/-- A copy's first 252 bytes. -/
def pageBody (p : Page) : Bytes :=
  le 4 pageMagic ++ le 4 p.gen ++ le 4 p.franking ++ le 4 p.next ++ sub p.hash 0 32 ++
    le 4 (b2n p.hashValid + 2 * b2n p.lastStrict + 4 * b2n p.sealOpen) ++ le 4 p.fwVersion ++ sub p.fwHash 0 32 ++ zeros 164

/-- A copy's 256 bytes, with its CRC. -/
def pageBytes (p : Page) : Bytes := pageBody p ++ le 4 (crc32c (pageBody p)).toNat

/-- A copy read back; none when its MAGIC or CRC is wrong (R501). -/
def pageOf (b : Bytes) : Option Page :=
  if fld b 0 4 = pageMagic ∧ fld b 252 4 = (crc32c (b.take 252)).toNat then
    some { gen := fld b 4 4, franking := fld b 8 4, next := fld b 12 4, hash := sub b 16 32,
           hashValid := bit (fld b 48 4) 0, lastStrict := bit (fld b 48 4) 1, sealOpen := bit (fld b 48 4) 2,
           fwVersion := fld b 52 4, fwHash := sub b 56 32 }
  else none

/-- Copy 0 or 1 of the counter page. -/
def pageCopy (m : Mem) (i : Nat) : Option Page := pageOf (stRead m (0x800 * i) 256)

/-- The valid copy whose GEN is newer by signed 32-bit difference, with its number (R501). -/
def currentPage (m : Mem) : Option (Nat × Page) :=
  match pageCopy m 0, pageCopy m 1 with
  | some a, some b => if indexDiff (BitVec.ofNat 32 b.gen) (BitVec.ofNat 32 a.gen) < 0 then some (0, a) else some (1, b)
  | some a, none => some (0, a)
  | none, some b => some (1, b)
  | none, none => none

/-- Address of an audit event (Table 16-7). -/
def eventAddr (n : Nat) : Nat := 0x1000 + 64 * (n % 1024)

/-- CHAIN of event `n` as stored; 16 zero bytes before the first (R497). -/
def chainOf (m : Mem) (n : Nat) : Bytes := stRead m (eventAddr n + 48) 16

/-- CHAIN of an event from its predecessor's and its bytes 0 to 47 (R497). -/
def chainNext (prev body : Bytes) : Bytes := (sha256 (prev ++ sub body 0 48)).take 16

/-- The predecessor's CHAIN of event `n`. -/
def chainBefore (m : Mem) (n : Nat) : Bytes := if n = 0 then zeros 16 else chainOf m (n - 1)

/-- Event `n` is present with a correct CHAIN (R501). -/
def eventIntact (m : Mem) (n : Nat) : Bool :=
  let b := stRead m (eventAddr n) 64
  fld b 0 4 = n && b.drop 48 == chainNext (chainBefore m n) b

/-- The first 48 bytes of an audit event (Table 16-7). -/
def eventBody (no code eflags franking fwVersion powerOn uptime tai : Nat) (data : Bytes) (serial : Nat) : Bytes :=
  le 4 no ++ le 1 code ++ le 1 eflags ++ le 2 0 ++ le 4 franking ++ le 4 fwVersion ++ le 4 powerOn ++ le 4 uptime ++
    le 8 tai ++ sub data 0 8 ++ le 8 serial

/-- Offset of a unit's significant-fault counter (Table 16-9). -/
def counterAddr (cls idx : Nat) : Nat :=
  0x11000 + (match cls with
    | 0x01 => 4 * idx
    | 0x02 => 0x400 + 4 * idx
    | 0x03 => 0x1000 + 4 * idx
    | 0x04 => 0x600 + 4 * idx
    | 0x05 => 0x5C
    | 0x06 => 0x100 + 4 * idx
    | 0x07 => 0x74
    | 0x08 => 0x70
    | 0x09 => 0x80 + 4 * idx
    | 0x0A => 0x78
    | 0x0B => 0x40 + 4 * idx
    | 0x0C => 0x50
    | 0x0D => 0x60 + 4 * idx
    | 0x0E => 0x54
    | 0x0F => 0x58
    | _ => 0x7C)

/-- Lifetime statistics (R504). -/
def lifeAddr : Nat := 0x19000
def powerOnsAddr : Nat := lifeAddr
def watchdogsAddr : Nat := lifeAddr + 4
def bindsAddr : Nat := lifeAddr + 8
def faultsAddr : Nat := lifeAddr + 12
def permanentAddr : Nat := lifeAddr + 16
def uptimeAddr : Nat := lifeAddr + 24
def maxCoreAddr : Nat := lifeAddr + 32
def maxIslandAddr : Nat := lifeAddr + 34

/-- The factory page (Table 16-10). -/
def factoryAddr : Nat := 0x3F000

/-- The factory page's MAGIC, FORMAT and CRC are right (R505). -/
def factoryOk (m : Mem) : Bool := stGet m (factoryAddr + 4092) 4 = (crc32c (stRead m factoryAddr 4092)).toNat

/-- Module serial (Table 16-10). -/
def factorySerial (m : Mem) : Nat := stGet m (factoryAddr + 8) 8

/-- Tile entry of group `g`: identity, A_g, k_g and MCLK output delays. -/
def tileIdentity (m : Mem) (g : Nat) : Bytes := stRead m (factoryAddr + 64 + 64 * g) 16
def tileAsymmetry (m : Mem) (g : Nat) : Int := sint 32 (stGet m (factoryAddr + 64 + 64 * g + 16) 4)
def tileDelay (m : Mem) (g : Nat) : Int := sint 32 (stGet m (factoryAddr + 64 + 64 * g + 20) 4)
def mclkOutDelay (m : Mem) (g j : Nat) : Int := sint 32 (stGet m (factoryAddr + 64 + 64 * g + 24 + 4 * j) 4)
/-- Contact-to-injection delay of a channel, in 0.5 ps. -/
def injDelay (m : Mem) (c : Nat) : Nat := stGet m (factoryAddr + 1088 + 2 * c) 2

/-- A port's MAC address, its first byte highest (R423). -/
def portMac (m : Mem) (p : Nat) : Nat := ofLe (stRead m (factoryAddr + 16 + 6 * p) 6).reverse

/-- The counter page as manufactured: the FACTORY event written, nothing franked. -/
def factoryPage : Page := { gen := 1, next := 1 }

/-- The FACTORY event (R497). -/
def factoryEvent : Bytes :=
  let b := eventBody 0 0 0 0 0 0 0 0 [] 0
  b ++ chainNext (zeros 16) b

/-- The factory page's first 4,092 bytes: MAGIC, FORMAT and serial 1; every other value zero (assumption 6). -/
def factoryBody : Bytes := le 4 0x41464B4C ++ le 4 1 ++ le 8 1 ++ zeros 4076

/-- The store as it leaves manufacture (R496, assumption 6). -/
def manufactured : Mem :=
  let m := mwrite 0 [] 0 (pageBytes factoryPage)
  let m := mwrite 0 m 0x1000 factoryEvent
  let m := mwrite 0 m factoryAddr (factoryBody.take 24)
  mwrite 0 m (factoryAddr + 4092) (le 4 (crc32c factoryBody).toNat)

end Sys2Proof.Machine
end

