-- ==== Sys2Proof/Config.lean ====
section
/-!
DEFINITION. What the specification leaves to the implementation, as constants without a body: nothing can be proved of their
values, so a claim holds whatever they are.
-/
namespace Sys2Proof

/-- A fresh free value: applied to the counter `State.free`, which a step that takes one advances (assumption 2). -/
opaque Config.freeValue : Nat → BitVec 64

/-- The rate estimate of a time domain, in 2^-40, from its previous estimate, the raw time between two measurements in pu and
the change of the domain's offset between them in 2^-16 ns: R408 states that the rate is estimated and gives no formula. -/
opaque Config.rateEstimate : Int → Int → Int → Int

/-- The new estimate of a TRACED domain's time, in 2^-16 ns, from the time its old estimate gives at a measurement and the
measured time: R408 and R409 keep an estimate and give no filter. -/
opaque Config.phaseEstimate : Int → Int → Int

/-- The rate, in 2^-40, by which the servo steers the timeline that follows a TRACED domain without slewing: from the domain's
rate and the difference that is left, in 2^-16 ns. R414 gives the servo this task and no law. -/
opaque Config.servoRate : Int → Int → Int

/-- How the compressor would code one DEFLATE block with codes of its own (R381): its symbols, as (0, byte) for a literal and (length,
distance) for a match; the lengths of its literal and distance codes; the code length code's lengths, in the order of RFC 1951; and the code
length symbols, each with its extra bits' value. -/
structure DeflatePlan where
  tokens : List (Nat × Nat)
  lit  : List Nat
  dist : List Nat
  cl   : List Nat
  lens : List (Nat × Nat)
  deriving DecidableEq, Repr

/-- The DEFLATE blocks that the compressor makes of a split block: from its plain bytes, CMODE, and whether it is the last one. R381 fixes
the form of the output and R382 its determinism, and neither fixes the matches, the blocks and the codes. -/
opaque Config.deflate : Bytes → Nat → Bool → List DeflatePlan

/-- The affine points of the two firmware verification keys of Evvos, (x, y) on P-256, current then next (R94). -/
opaque Config.firmwareKeys : List (Nat × Nat)

/-- What a field of an internal work queue's ring table entry reads: ring, offset in the entry, and instant. R366 gives the queues their
megabyte and states neither their sizes nor what they hold. -/
opaque Config.workQueue : Nat → Nat → Nat → BitVec 32

/-- The page that the host's translation agent answers to the module's n-th translation request, for a page of the host's (R468): no command
carries the answer. -/
opaque Config.translation : Nat → Nat → BitVec 52

/-- The words of the n-th AER header log, the header of the request that met the error (R482): no command carries it. -/
opaque Config.headerLog : Nat → Nat → BitVec 32

end Sys2Proof
end

