-- ==== Sys2Proof/Machine/Parts2.lean ====
section
/-!
DEFINITION. The parts of the module's state for chapters 06 to 12 and 15 to 16: sequencers, records and history, reductions,
the interval meter, banks and capture memory, rings, jobs, the endpoint, faults and the Franking Store.
-/
namespace Sys2Proof.Machine

/-! ## Sequencers (chapter 06) -/

/-- One condition unit's tracking of its condition (R188, R193). Absolute samples count 2 ns grid samples from t_0; absolute
placements count pu from t_0. -/
structure CondSt where
  /-- The condition has been tracked at a step since its last start (R193). -/
  tracking : Bool := false
  /-- Value of a level condition at the previous step, after INVERT (R192, R193). -/
  prev : Bool := true
  /-- State of a VALUE or MEASURE comparison (R203). -/
  level : Bool := false
  /-- The step sample at which tracking began or restarted (R202, R209). -/
  since : Nat := 0
  /-- The condition view as last seen (R187): the zone of a TRANSITIONS channel, the bit of a sampled channel, or, for PATTERN,
  the comparators of the group, bit k for channel k. -/
  zone : Nat := 0
  /-- Step sample of the last change of the comparator since tracking began (R200). -/
  lastChange : Option Nat := none
  /-- Placement of the start of the pulse in progress (R197). -/
  pulse : Option Nat := none
  /-- Zone 0b01 entered from zone z at placement p, with no return since (R198, R199). -/
  mid : Option (Nat × Nat) := none
  /-- The s_r for which a TIMEOUT has matched, or the level-entry sample for which ELAPSED has (R200, R204). -/
  matched : Option Nat := none
  /-- AT has matched in this bind (R204). -/
  atDone : Bool := false
  /-- The last instant at which EVERY matched, and the last one that passed without a match, in whole periods since the PTP
  epoch (R204, R205). -/
  every : Option Int := none
  everyBase : Option Int := none
  deriving DecidableEq, Repr, Inhabited

/-- States of Table 06-1. -/
inductive SeqState where
  | idle | armed | dead
  deriving DecidableEq, Repr, Inhabited

/-- The part of a sequencer that a slot's condition sees (R189). -/
structure SeqView where
  level : Nat := 0
  cnt   : List Nat := [0, 0, 0, 0]
  flags : Nat := 0
  gate  : Bool := false
  /-- Level-entry sample (R200). -/
  entry : Nat := 0
  deriving DecidableEq, Repr, Inhabited

/-- The dead time under way (R231 to R235). -/
structure Dead where
  /-- Trigger sample S, span end E, re-arm instant A (R233); `never` when a CONTINUOUS STREAMING record names the sequencer (R232). -/
  trig  : Nat := 0
  span  : Nat := 0
  rearm : Nat := 0
  never : Bool := false
  /-- The sequencer as it stood before the trigger action: held level, counters, flags, gate, level-entry sample (R234). -/
  held  : SeqView := {}
  /-- First step sample counted for missed triggers (R234). -/
  from_ : Nat := 0
  missed : Nat := 0
  deriving DecidableEq, Repr, Inhabited

structure Seq where
  /-- SQ_STATE.STATE (R178). -/
  st : SeqState := .idle
  /-- SQ_STATE.LEVEL, FLAG, GATE; counters CNT0 to 3, 32 bits each, saturating (R201); level-entry sample. -/
  view : SeqView := {}
  /-- Triggers of the current arming (R179). -/
  armTrigs : Nat := 0
  /-- SQ_ARMING, 32 bits. -/
  armings : Nat := 0
  /-- SQ_TRIGGERS, SQ_MISSED, SQ_RESTARTS, 32 bits each, saturating. -/
  triggers : Nat := 0
  missed : Nat := 0
  restarts : Nat := 0
  /-- SQ_DEAD, 64 bits; and SQ_DEAD_HI as latched (R257). -/
  deadPu : Nat := 0
  deadHi : Nat := 0
  /-- SQ_STATE.DISARM_PENDING. -/
  disarm : Bool := false
  /-- The dead time under way. -/
  dead : Dead := {}
  /-- DEAD_TIME and MISSED for the next TRIGGER envelope (R235). -/
  lastDead : Nat := 0
  lastMissed : Nat := 0
  /-- Step samples of the last step and of the last trigger (R209). -/
  lastStep : Option Nat := none
  lastTrig : Option Nat := none
  /-- R221 held in the latest frame evaluated. -/
  invalid : Bool := false
  /-- Condition units' tracking, by condition index. -/
  conds : Tbl CondSt := []
  deriving DecidableEq, Repr, Inhabited

/-- A sequencer command waiting for its frame m (R182). `act`: 1 arm, 2 disarm, 3 force. -/
structure SeqCmd where
  ring : Nat
  entry : Bytes
  act : Nat
  seq : Nat
  /-- Frame m's count; none while it waits for the first frame of RUNNING. -/
  m : Option Nat
  deriving DecidableEq, Repr, Inhabited

/-! ## History and records (chapter 07) -/

/-- One frame of a stored stream, with its frame index entry (R225, R226, Table 10-2). -/
structure HistFrame where
  count : Nat
  frame : FrameNo
  /-- The frame's tick, pu since reset. -/
  tickAt : Nat
  /-- Items: bits (0 or 1), transition entries, or stored outputs as u32. -/
  items : List Nat
  /-- The instant of each item, in pu after the frame's tick (R228). -/
  times : List Nat
  /-- Bytes written to the stream before this frame, and this frame's bytes. -/
  start : Nat
  len : Nat
  crc : BitVec 32
  invalid : Bool
  zone : Nat
  budget : Bool
  fenced : Bool
  deriving DecidableEq, Repr, Inhabited

/-- A history ring (R224 to R226). -/
structure Hist where
  /-- Stream reference of R251, ring number, size in bytes, b_max. -/
  stream : Nat := 0
  ring : Nat := 0
  size : Nat := 0
  bmax : Nat := 1
  /-- Granule runs that make up the ring: first granule, granules (R365). -/
  runs : List (Nat × Nat) := []
  /-- Bytes written so far in the bind. -/
  written : Nat := 0
  /-- Frames held, latest first. -/
  frames : List HistFrame := []
  deriving DecidableEq, Repr, Inhabited

/-- A record, a segment, a STREAMING run or a gate interval that is not fully delivered (R236 to R246). -/
structure Run where
  /-- RECORD_NO and SEGMENT. -/
  no : Nat := 0
  segment : Nat := 0
  /-- SAMPLE, trigger frame count and postmark. -/
  sample : Nat := 0
  trigCount : Nat := 0
  postmark : Postmark := 0
  /-- Span [lo, hi) in absolute grid samples; no `hi` while it has no end (R227, R246). -/
  lo : Int := 0
  hi : Option Int := none
  /-- Data parts written; the flags its parts have carried (R240). -/
  parts : Nat := 0
  invalid : Bool := false
  budget : Bool := false
  fenced : Bool := false
  short : Bool := false
  truncated : Bool := false
  lost : Bool := false
  /-- Chunks made deliverable so far (R237), and the commit made deliverable. -/
  chunks : Nat := 0
  committed : Bool := false
  /-- STREAMING and QUALIFIED: next frame count to deliver and frames skipped, by stream index (R244, R245). -/
  next : Tbl Nat := []
  skipped : Tbl Nat := []
  /-- Items delivered so far, by stream index: for MEASURE (R248): placement, value. -/
  items : Tbl (List (Nat × Nat)) := []
  badStreams : List Nat := []
  budStreams : List Nat := []
  deriving DecidableEq, Repr, Inhabited

/-- A record definition (R241, R257). -/
structure Rec where
  /-- RECORD_NO of the last record, run or interval, or of the arming in progress (R242). -/
  no : Nat := 0
  /-- The arming that produced the last segment, and its segments so far (R242). -/
  arming : Nat := 0
  segs : Nat := 0
  runs : List Run := []
  /-- Records lost under R241 since the previous commit. -/
  lostSince : Nat := 0
  /-- AQ_DONE, AQ_LOST, AQ_INVALID, AQ_SKIPPED, 32 bits each, saturating. -/
  done : Nat := 0
  lost : Nat := 0
  invalid : Nat := 0
  skipped : Nat := 0
  deriving DecidableEq, Repr, Inhabited

/-! ## Reductions, sums and limits (chapter 08) -/

/-- One output: index m, value, postmark as an absolute placement in pu from t_0, saturated. -/
structure OutItem where
  m : Nat
  value : Int
  at_ : Nat
  sat : Bool
  deriving DecidableEq, Repr, Inhabited

/-- What a value source (reduction, sum or meter entry) gave in one frame. -/
structure FrameOut where
  valid : Bool := false
  /-- INVALID only through settling (Table 08-11). -/
  settling : Bool := false
  /-- The outputs that the grid places in the frame, so that an envelope is due (R285): how many, and the index of the first. -/
  count : Nat := 0
  firstIndex : Nat := 0
  items : List OutItem := []
  budget : Bool := false
  faultMask : Nat := 0
  deriving DecidableEq, Repr, Inhabited

/-- A reduction instance (R258 to R265, R286). -/
structure Red where
  /-- RD_STAT.STATE: 0 not in bind, 1 settling, 2 valid, 3 invalid. -/
  state : Nat := 0
  /-- RD_STAT.ASYM, SAT (W1C) and LANE; RD_DELAY. -/
  asym : Bool := false
  sat : Bool := false
  lane : Nat := 0
  delay : Nat := 0
  /-- The index of the first input after the last start; none before the first start, and while a start is due (R261). -/
  startIn : Option Nat := none
  /-- The frame counts at which clock plan switches start the instance again (R270). -/
  startAt : List Nat := []
  /-- Inputs since the start that a later window may need, latest first: index, value, placement in pu from t_0. For a
  transition input: placement, level after it, and 1 for a change or 0 for a level taken up at a tick (R536). -/
  inputs : List (Nat × Int × Nat) := []
  /-- Scaled sinc outputs since the start, for the FIR, latest first: index, value, saturated. -/
  fir : List (Nat × Int × Bool) := []
  /-- The instance has made, since its last start, an output whose window lies wholly after that start (R261). -/
  settled : Bool := false
  out : FrameOut := {}
  /-- The latest valid output before this frame (R202). -/
  last : Option OutItem := none
  prior : Option OutItem := none
  deriving DecidableEq, Repr, Inhabited

/-- A weigh sum (R271 to R273, R286). -/
structure Ws where
  /-- RD_WS_VALUE, s32. -/
  value : Int := 0
  /-- RD_WS_STAT.SAT (W1C) and INVALID. -/
  sat : Bool := false
  invalid : Bool := false
  out : FrameOut := {}
  last : Option OutItem := none
  prior : Option OutItem := none
  /-- Outputs of each input, in the order of the inputs, that no output of the sum has combined yet, each with the BUDGET_OVERRUN of
  its frame (R271). -/
  held : List (List (OutItem × Bool)) := []
  /-- The output index after the last that each input's grid has placed so far, once one is known (R271, R285). -/
  ends : List (Option Nat) := []
  deriving DecidableEq, Repr, Inhabited

/-- A limit comparator (R274, R275, R286). -/
structure Lc where
  /-- Evaluated in a frame of this bind. -/
  started : Bool := false
  /-- RD_LC_STAT: TRUE_COUNT (16 bits, saturating), UNSETTLED, INVALID, STATE. -/
  trueCount : Nat := 0
  unsettled : Bool := false
  invalid : Bool := false
  state : Bool := false
  /-- The previous output since the source's start (RATE modes). -/
  prev : Option Int := none
  /-- True at an evaluation of the frame, or at the end of the frame before (R276, ANY). -/
  any : Bool := false
  deriving DecidableEq, Repr, Inhabited

/-- A process output (R276 to R280, R286). -/
structure Evt where
  /-- The frame count at whose commit the pulse has ended (R277); none without a pulse. -/
  pulse : Option Nat := none
  /-- RD_EVT_STATE.SAFE and LEVEL of the output. -/
  safe : Bool := false
  level : Bool := false
  /-- RD_EVT_DROPPED, 32 bits, saturating. -/
  dropped : Nat := 0
  deriving DecidableEq, Repr, Inhabited

structure Process where
  reds : Tbl Red := []
  sums : Tbl Ws := []
  lcs : Tbl Lc := []
  evts : Tbl Evt := []
  /-- RD_EVT_STATE: SAFE in bits [31:16] and LEVEL in bits [15:0], as the last commit of the bind left them. -/
  evtState : Nat := 0
  deriving DecidableEq, Repr, Inhabited

/-! ## The interval meter (chapter 09) -/

/-- A completed block (R303, Table 09-7): its instant in fu from t_0, the cable delay of its last stamp in fu, its number,
statistics, and flags. -/
structure MBlock where
  at_   : Int
  cable : Int
  no    : Nat
  mean  : Int
  std   : Nat
  noStd : Bool
  mn    : Int
  mx    : Int
  budget : Bool
  brk   : Bool
  deriving DecidableEq, Repr, Inhabited

/-- A MEASURE entry (R296 to R310). Times are in fu from t_0. -/
structure Meas where
  /-- IM_STAT.STATE: 0 not in bind, 1 awaiting first block, 2 valid, 3 invalid. -/
  state : Nat := 0
  /-- IM_STAT.NO_STD, OVERRUN (W1C) and BREAK (W1C). -/
  noStd : Bool := false
  overrun : Bool := false
  brk : Bool := false
  /-- What IM_BLOCKS, IM_BREAKS and IM_ABANDONED count; the registers saturate at 32 bits, BLOCK_NO has 64. -/
  blocks : Nat := 0
  breaks : Nat := 0
  abandoned : Nat := 0
  /-- IM_MEAN, 64 bits, and IM_MEAN_HI as latched. -/
  mean : Int := 0
  meanHi : Nat := 0
  /-- Pending start, or first edge of the span or pulse, with the edges counted since (R297). -/
  start : Option Int := none
  edges : Nat := 0
  /-- PHASE: B edges and A edges since the last break that may still bracket, oldest first, each with the BUDGET_OVERRUN of its
  frame. -/
  bEdges : List (Int × Bool) := []
  aEdges : List (Int × Bool) := []
  /-- The accumulator of R304: x0, min, max, sum, sq, k, sqsat. -/
  x0 : Int := 0
  mn : Int := 0
  mx : Int := 0
  sum : Int := 0
  sq : Nat := 0
  k : Nat := 0
  sqsat : Bool := false
  /-- The block in progress carries BUDGET_OVERRUN or BREAK (R305, R306). -/
  blkBudget : Bool := false
  blkBreak : Bool := false
  /-- A span in progress depends on a stamp of a frame with BUDGET_OVERRUN. -/
  spanBudget : Bool := false
  /-- A frame of RUNNING has been worked on; INVALID in the last frame, and the first frame of such a run; blocks abandoned since
  the previous STATS envelope; breaks in the frame. -/
  started : Bool := false
  invalid : Bool := false
  newInvalid : Bool := false
  abandonedSince : Nat := 0
  breaksNow : Nat := 0
  /-- The latest result and the latest block before the frame (R303). -/
  latest : Option (Int × Int) := none
  lastBlock : Option MBlock := none
  /-- The latest STD before the frame: that of the latest block that has one (R202). -/
  lastStd : Option Int := none
  /-- The frame's results (instant, value) and blocks, oldest first. -/
  results : List (Int × Int) := []
  blks : List MBlock := []
  deriving DecidableEq, Repr, Inhabited

structure Meter where
  entries : Tbl Meas := []
  /-- IM_LANEl: channels assigned to lane l = 8·g + j (R293), RATE, and IM_LANE_COLL, 32 bits, saturating. -/
  lanes : Tbl (List Nat) := []
  rate : Tbl Nat := []
  coll : Tbl Nat := []
  /-- IM_DROPc: FRAMES and DROPPED, 16 bits each, saturating. -/
  drops : Tbl (Nat × Nat) := []
  deriving DecidableEq, Repr, Inhabited

/-- The blocks SQ_, AQ_, RD_ and IM_ as they stood at the last frame release, which STATS_READ copies (Table 11-10). -/
structure Snap where
  seqs : Tbl Seq
  recs : Tbl Rec
  proc : Process
  meter : Meter
  /-- RD_STAT.LANE by instance, and IM_LANE.STATE of the lanes that are not in service. -/
  lanes : Tbl Nat
  tdc : Tbl Nat
  deriving DecidableEq, Repr, Inhabited

/-! ## Banks and capture memory (chapter 10) -/

structure Banks where
  /-- Bytes of GB0 to GB127 and DB0 to DB7: bank b's byte a is at 2^20·b + a; an unlisted byte reads 0. -/
  mem : Mem := []
  /-- BK_OWNERb.OWNER and OWNER_B, 10 bits each (Table 10-4, R338). -/
  owner : Tbl Nat := []
  ownerB : Tbl Nat := []
  /-- BK_OWNERb.POOL. -/
  pool : List Nat := []
  /-- The role of each placed bank: 1 to 3 frame sets, 4 staging, 5 pool, 6 job, 7 control, 8 mailbox; ARG (Table 11-15). -/
  role : Tbl (Nat × Nat) := []
  /-- The bank that serves a placed bank's place in its stead (R337). -/
  moved : Tbl Nat := []
  /-- Re-admitted frame-set banks that return at the next use of their set, and re-admitted staging and job banks, which are spares until
  the next bind (R337). -/
  returning : List Nat := []
  retired : List Nat := []
  /-- BK_ECCb: CORR and UNCORR, 16 bits each. -/
  ecc : Tbl (Nat × Nat) := []
  /-- BK_VIOL_HOST, BK_VIOL_INT, BK_DENIED, 32 bits each. -/
  violHost : Nat := 0
  violInt : Nat := 0
  denied : Nat := 0
  /-- BK_VIOL_LAST while VALID: WRITE, BANK, REQUESTER, OWNER. -/
  violLast : Option (Bool × Nat × Nat × Nat) := none
  /-- BK_COLLd, and BK_COLL_ADDRd while VALID. -/
  coll : Tbl Nat := []
  collAddr : Tbl Nat := []
  /-- BK_DRAM_CORR, BK_DRAM_UNCORR; BK_DRAM_LAST.GRANULE while VALID. -/
  dramCorr : Nat := 0
  dramUncorr : Nat := 0
  dramLast : Option Nat := none
  /-- BK_SCHED_W, BK_SCHED_R, BK_FREE_USED. -/
  schedW : Nat := 0
  schedR : Nat := 0
  freeUsed : Nat := 0
  /-- Rounds of the frame so far (R314), free slots used in it, and the round-robin pointer of R318. -/
  rounds : Nat := 0
  freeNow : Nat := 0
  lastServed : Nat := 0
  /-- Read credit of each record definition, in bytes (R317); and what each reader has read so far of the part, envelope or split block that
  it waits to be read: the requester, what it reads, and bytes (R317, R318). Requesters: a record definition; 0x3000 + compression lane; 0x10000 +
the serial number of a span readout, of which `readouts` is the next. -/
  credit : Tbl Nat := []
  reading : List (Nat × List Nat × Nat) := []
  readouts : Nat := 0
  /-- The first frame that is served since the bind or since a hold for PLL-C, whose window no release opens (R327, R454). -/
  served : Nat := 0
  /-- Mailbox words read as the open work window opened: condition source to word (R208). -/
  mailbox : Tbl Nat := []
  /-- Capture memory does not take history writes: PLL-M is not locked, or it is fenced (R322). -/
  dramOff : Bool := false
  /-- Zeroing of the host pool is under way (R331). -/
  zeroing : Bool := false
  deriving DecidableEq, Repr, Inhabited

/-! ## Rings (chapter 11) -/

/-- An envelope before it is written: the header of Table 11-4 without SEQ, and the payload. -/
structure Envelope where
  typ : Nat
  flags : Nat
  source : Nat
  frame : FrameNo
  postmark : Postmark
  payload : Bytes
  /-- While it is staged: its index in the staging ring (R342). -/
  slot : Word32 := 0
  deriving DecidableEq, Repr, Inhabited

/-- A span readout in progress (R247). -/
structure Readout where
  cmd : Nat × Bytes
  stream : Nat
  /-- Frame counts still to deliver: next and last. -/
  next : Nat
  last : Nat
  tag : Nat
  written : Nat
  /-- Which readout of the bind this is: a requester of its own (R318). -/
  serial : Nat := 0
  deriving DecidableEq, Repr, Inhabited

/-- What is ready for a delivery ring or the dead-letter ring, in the order in which it became ready (R30, R237, R354). -/
inductive Item where
  | staged (e : Envelope)
  | part (rec no seg chunk idx : Nat)
  | commit (rec no seg : Nat)
  | stream (rec no chunk idx : Nat)
  | measure (rec no seg : Nat) (e : Envelope)
  | completion (e : Envelope)
  | readout (r : Readout)
  deriving DecidableEq, Repr, Inhabited

/-- A host ring's entry in the ring table (Table 11-2) and its doorbell (R343). -/
structure Ring where
  enable : Bool := false
  error : Bool := false
  dbBad : Bool := false
  parity : Bool := false
  vector : Nat := 0
  tick : Bool := false
  mask : Bool := false
  k : Nat := 1
  base : Nat := 0
  size : Nat := 0
  wb : Nat := 0
  prod : Word32 := 0
  cons : Word32 := 0
  /-- RT_SEQ.NEXT. -/
  seq : Word32 := 0
  /-- RT_DROP_ENV and RT_DROP_BYTES, 32 bits each, saturating. -/
  dropEnv : Nat := 0
  dropUnits : Nat := 0
  /-- RT_WAITING, 16 bits, saturating. -/
  waiting : Nat := 0
  /-- Due and not yet signalled (R346). -/
  due : Bool := false
  /-- Last accepted doorbell index (R343). -/
  doorbell : Word32 := 0
  /-- Declared by the DELIVERY quire (delivery rings). -/
  declared : Bool := false
  /-- Ready items, oldest first. -/
  ready : List Item := []
  /-- The next envelope staged carries LOSS_BEFORE, and the target drops the rest of this frame (R356). -/
  lossNext : Bool := false
  dropping : Bool := false
  deriving DecidableEq, Repr, Inhabited

/-- A fetched command (R361): its ring 0 to 255, its entry, and whether it has started. -/
structure Cmd where
  ring : Nat
  entry : Bytes
  started : Bool
  deriving DecidableEq, Repr, Inhabited

structure Rings where
  /-- Host rings that are not at their defaults, by ring number. -/
  rings : Tbl Ring := []
  /-- Staging rings by ring number: target (ring number, or 0x8000 + stream), bytes, offset in the staging area (R366). The
  staged bytes themselves are the target's ready items. -/
  staging : Tbl (Nat × Nat × Nat) := []
  /-- RT_PROD of the staging ring of a target, and of the dead-letter reserve (R342). -/
  stageProd : Tbl Word32 := []
  /-- Network streams' staged envelopes, oldest first. -/
  netReady : Tbl (List Envelope) := []
  netLoss : List Nat := []
  netDropping : List Nat := []
  /-- Drops since the previous LOSS envelope: (target, cause) to (envelopes, units) (R357); key 256·target + cause. -/
  losses : Tbl (Nat × Nat) := []
  /-- Dead-letter envelopes dropped since the previous LOSS envelope (R358). -/
  dlDropped : Nat := 0
  /-- Commands fetched and not yet completed, in fetch order (R361). -/
  cmds : List Cmd := []
  /-- Completion entries decided and not yet written: command ring, entry (R347, R478). -/
  done : List (Nat × Bytes) := []
  /-- Fetching is stopped for an accepted or undecided REBIND (R105). -/
  fetchStop : Bool := false
  /-- GENERATION of the placement map (R367, R368). -/
  gen : Nat := 0
  /-- Placement: reduction instance to lane, (sequencer, condition) to condition unit (key 256·SEQ + INDEX), channel to TDC
  lane; lanes and units in use now, after moves (R367). -/
  redLane : Tbl Nat := []
  redHome : Tbl Nat := []
  condCu : Tbl Nat := []
  condHome : Tbl Nat := []
  tdcLane : Tbl Nat := []
  /-- Every staged envelope type waiting for release outside a frame: FAULT and FRANKING envelopes made since the last
  release (R494, R502). -/
  waitingEnv : List Envelope := []
  deriving DecidableEq, Repr, Inhabited

/-! ## Jobs (chapter 12) -/

/-- Where a split block or decompression stands (R390, R391). -/
inductive BlockSt where
  | waiting | running | coded | written
  deriving DecidableEq, Repr, Inhabited

/-- A split block: its lane once dispatched, its state, and its output while held. -/
structure Block where
  idx : Nat
  lane : Option Nat
  st : BlockSt
  /-- Bytes of its input asked for so far, where the host holds it (R376). -/
  asked : Nat
  out : Bytes
  deriving DecidableEq, Repr, Inhabited

/-- A COMPRESS or DECOMPRESS job (R373 to R391). -/
structure Job where
  /-- The model's own number of the job, by which its reads name it. -/
  id : Nat
  cmd : Nat × Bytes
  /-- The job was started as DECOMPRESS. -/
  inflate : Bool
  /-- JFLAGS, source, and destination. -/
  zlib : Bool
  precode : Bool
  cmode : Nat
  kind : Nat
  srcA : Nat
  srcB : Nat
  srcLen : Nat
  dst : Nat
  dstLen : Nat
  /-- EXPANSION_MAX as sampled at the start (R385). -/
  guard : Nat
  /-- Host source bytes received so far, by the offset of each read (R376); plain input where it is known. -/
  got : Tbl Bytes
  plain : Bytes
  /-- The frames of a history source: count, and where the frame's block begins and ends in the plain input (R374). -/
  spans : List (Nat × Nat × Nat)
  /-- The lowest source offset at which a decompression's read has failed (R386, R469). -/
  readFail : Option Nat
  blocks : List Block
  /-- Output bytes written so far. -/
  written : Nat
  deriving DecidableEq, Repr, Inhabited

structure Jobs where
  /-- CX_CTRL.EXPANSION_MAX, 13 bits, reset 0x0400. -/
  expMax : Nat := 0x400
  /-- CX_STATUS.BAD_WRITE, W1C. -/
  badWrite : Bool := false
  /-- Jobs started and not complete, in start order, and the number of the next one. -/
  jobs : List Job := []
  nextId : Nat := 0
  /-- CLi's job bank; absent when the lane is out of service. -/
  bank : Tbl Nat := []
  /-- CX_BLOCKSi and CX_KIBi, 32 bits each, saturating. -/
  blocks : Tbl Nat := []
  kib : Tbl Nat := []
  /-- CX_FAILs by status code, 32 bits each, saturating. -/
  fails : Tbl Nat := []
  deriving DecidableEq, Repr, Inhabited

/-! ## The endpoint (chapter 15) -/

/-- A window's settings (R471): BASE, LIMIT, BANK, WRITE, EN, ROT. -/
structure WinSet where
  base : Nat := 0
  limit : Nat := 0
  bank : Nat := 0
  write : Bool := false
  en : Bool := false
  rot : Nat := 0
  deriving DecidableEq, Repr, Inhabited

/-- WINk (Table 15-10). -/
structure Win where
  shadow : WinSet := {}
  active : WinSet := {}
  /-- WIN_STATUS.GEN (16 bits, wrapping) and DENIED; WIN_DROPS, 32 bits, saturating. -/
  gen : Nat := 0
  denied : Bool := false
  drops : Nat := 0
  deriving DecidableEq, Repr, Inhabited

/-- An outstanding read of the module (R469): the job it serves, the offset in the job's source, the length and the address; `dead`
when its data is to be discarded (R477). -/
structure ReadReq where
  job : Nat
  off : Nat
  len : Nat
  addr : Nat
  dead : Bool
  deriving DecidableEq, Repr, Inhabited

/-- One MSI-X table entry: address, data, mask. -/
structure MsixEntry where
  addr : Nat := 0
  data : Nat := 0
  mask : Bool := true
  deriving DecidableEq, Repr, Inhabited

/-- An Invalidate Request being served (R470): ITag, address, size, and the tags of reads that used its translations. -/
structure Inval where
  itag : Nat
  addr : Nat
  size : Nat
  waits : List Nat
  deriving DecidableEq, Repr, Inhabited

structure Pcie where
  /-- The link has trained since PERST_N was released (R90). -/
  linkUp : Bool := false
  /-- Command register: Memory Space Enable, Bus Master Enable, Parity Error Response, SERR# Enable, Interrupt Disable. -/
  mse : Bool := false
  bme : Bool := false
  perr : Bool := false
  serr : Bool := false
  intxDisable : Bool := false
  /-- Status error bits (15:11 and 8), W1C. -/
  status : Nat := 0
  /-- BAR0 to BAR5, 32 bits each, as last written within their size masks. -/
  bars : List Nat := [0, 0, 0, 0, 0, 0]
  /-- Interrupt Line and Cache Line Size, 8 bits each. -/
  intLine : Nat := 0
  cacheLine : Nat := 0
  /-- Power state D3hot (R480). -/
  d3 : Bool := false
  /-- Device Control (16 bits), Device Control 2 (16 bits), Link Control (16 bits), Device Status error bits (W1C). -/
  devCtl : Nat := 0x2810
  devCtl2 : Nat := 0
  linkCtl : Nat := 0
  devSts : Nat := 0
  /-- MSI-X Enable, Function Mask, table and Pending Bit Array. -/
  msixEn : Bool := false
  msixFnMask : Bool := false
  msix : Tbl MsixEntry := []
  pba : List Nat := []
  /-- INTX_PENDING bits by vector (R467). -/
  intx : List Nat := []
  /-- IRQ_STATUS, IRQ_ENABLE, IRQ_VECTOR (Table 15-8). -/
  irqStatus : Nat := 0
  irqEnable : Nat := 0
  irqVector : Nat := 0
  /-- AER: uncorrectable status, mask, severity; correctable status and mask (Table 15-3; the severity at reset: PRESUMED, log entry 22). -/
  aerUnc : Nat := 0
  aerUncMask : Nat := 0
  aerUncSev : Nat := 0x00462010
  aerCor : Nat := 0
  aerCorMask : Nat := 0x2000
  /-- AER control, bits 6 and 8: ECRC Generation Enable and ECRC Check Enable (Table 15-3). -/
  aerCtl : Nat := 0
  /-- The AER log (Table 15-13): First Error Pointer, valid while its status bit is set, and the number of the header log held. -/
  aerFirst : Option Nat := none
  aerLog : Option Nat := none
  /-- Header logs made so far: the model's own count (log entry 22). -/
  aerLogs : Nat := 0
  /-- ATS Enable, the translation cache (pages with their translations, most recently used first), the translation requests made so far (the
  model's own count) and the Invalidate Requests outstanding (R468, R470). -/
  atsEn : Bool := false
  ats : List (Nat × Nat) := []
  atsAsked : Nat := 0
  invals : List Inval := []
  /-- LTR: the maximum snoop and no-snoop latency registers as the host sets them, 16 bits each, and the latency last reported in µs
  (R481). -/
  ltrMax : Nat := 0
  ltrNoSnoop : Nat := 0
  ltrSent : Nat := 0
  /-- L1 PM Substates Control 1 and Control 2 as the host sets them (R461, R481). -/
  l1Ctl1 : Nat := 0
  l1Ctl2 : Nat := 0x28
  /-- Outstanding reads by tag, and tags kept out of use until their completion or timeout (R477). -/
  reads : Tbl ReadReq := []
  /-- Tags retired with an epoch: out of use until a completion, which is dropped silently, or a timeout (R479). -/
  retired : List Nat := []
  /-- WIN0 to WIN15. -/
  wins : Tbl Win := []
  deriving DecidableEq, Repr, Inhabited

/-! ## Faults and the Franking Store (chapter 16) -/

/-- A fenced unit (R487 to R493). -/
structure Fence where
  /-- FENCE_FRAME and FAULT_FRAME as frame counts. -/
  fenceCount : Nat := 0
  faultCount : Nat := 0
  cause : Nat := 0
  permanent : Bool := false
  /-- The fence goes back to an over-temperature, through failed self-tests where there were any (Table 17-14). -/
  heat : Bool := false
  /-- The instant, in pu since reset, at which quarantine ends; none when the unit has none (R490). -/
  quarEnd : Option Nat := none
  /-- The self-test is running, or has passed: from which instant, in pu since reset, re-admission waits for the next frame boundary
  (R491, R492; a group's settle time, R146). -/
  testing : Bool := false
  passed : Option Nat := none
  deriving DecidableEq, Repr, Inhabited

/-- A detection that waits for the frame boundary (R487, R489). -/
structure Detection where
  unit : FUnit
  cause : Nat
  detail : Nat
  more : Nat
  /-- Fault frame as a frame count, and postmark of the detection. -/
  faultCount : Nat
  postmark : Postmark
  deriving DecidableEq, Repr

structure Faults where
  /-- Fences in force, by unit key 2^24·CLASS + INDEX. -/
  fences : Tbl Fence := []
  /-- Frame counts of the fences of each unit in this bind, latest first (R493). -/
  history : Tbl (List Nat) := []
  pending : List Detection := []
  /-- FT_FAULTS, 32 bits, saturating. -/
  count : Nat := 0
  /-- FT_LAST_UNIT and FT_LAST_CAUSE. -/
  lastUnit : FUnit := ⟨0, 0⟩
  lastEvent : Nat := 0
  lastCause : Nat := 0
  /-- FT_STATUS.FW_UNFRANKED and LAST_RESET. -/
  fwUnfranked : Bool := false
  lastReset : Nat := 0
  deriving DecidableEq, Repr, Inhabited

/-- The Franking Store and what runs around it (R496 to R505). -/
structure Franking where
  /-- The store's 256 KiB; an unlisted byte reads 0 (R496). Reset: as manufactured (Machine/Store.lean). -/
  mem : Mem := []
  /-- The next writes of the store fail their read-back: how many (set by the outside, consumed by writes). -/
  failing : Nat := 0
  /-- No valid counter copy: the store is fenced until the next reset (R501). -/
  noCopy : Bool := false
  /-- FIRMWARE_CHANGE rolled forward whose full hash is still to be written: its 8 DATA bytes (R501). -/
  fwPartial : Option Bytes := none
  /-- Debounced level of SEAL_OPEN_N: true is open (FT_SEAL.OPEN). -/
  sealOpen : Bool := false
  /-- Seconds since the last power-on (UPTIME_S of events), and pu at power-on. -/
  upBase : Nat := 0
  /-- Audit events not yet delivered as FRANKING envelopes: event numbers (R502). -/
  undelivered : List Nat := []
  deriving DecidableEq, Repr, Inhabited

/-! ## What leaves the module -/

/-- The attributes of a PCIe request that the module issues: traffic class 0, Relaxed Ordering and No Snoop clear, in every one (R459), and
whether its address is a translated one (R468). -/
structure RequestAttr where
  translated : Bool := false
  tc : Nat := 0
  relaxed : Bool := false
  noSnoop : Bool := false
  deriving DecidableEq, Repr, Inhabited

/-- The Ethernet head of a frame that a port sends (R423, R424): the port's own MAC address, and its one VLAN at priority PCP, none where
the port is untagged. -/
structure EthHead where
  src  : Nat
  vlan : Option (Nat × Nat)
  deriving DecidableEq, Repr, Inhabited

/-- The IPv4 and UDP heads of a stream datagram (chapter 13, envelope streaming): TTL 64, ECN 0 and DF set in every one. -/
structure UdpHead where
  src     : Nat
  dst     : Nat
  srcPort : Nat
  dstPort : Nat
  dscp    : Nat
  sum     : Nat
  ttl     : Nat := 64
  ecn     : Nat := 0
  df      : Bool := true
  deriving DecidableEq, Repr, Inhabited

/-- Where a Delay_Req goes (Table 13-3): an IPv4 address and UDP port, or a MAC address and Ethertype. -/
inductive PtpTo where
  | udp (ip port : Nat)
  | layer2 (mac ethertype : Nat)
  deriving DecidableEq, Repr, Inhabited

/-- What a frame that a port sends carries: a stream datagram to a MAC address, an ARP request or answer, an ICMP echo answer, a
Delay_Req. -/
inductive NetMsg where
  | datagram (mac : Nat) (head : UdpHead) (bytes : Bytes)
  | arpAsk (ip : Nat)
  | arpAnswer (ip : Nat)
  | icmpAnswer (bytes : Bytes)
  | delayReq (goesTo : PtpTo) (domain seqId : Nat)
  deriving DecidableEq, Repr, Inhabited

/-- What leaves the module, oldest first in `State.out`: the model's own record of it. -/
inductive Output where
  /-- One write request to host memory, of at most Max_Payload_Size bytes in one page (R458): of an envelope, a completion entry, a writeback
  or job output. -/
  | hostWrite (addr : Nat) (bytes : Bytes) (attr : RequestAttr := {})
  /-- An MSI-X message of a vector. -/
  | msi (vector addr data : Nat) (attr : RequestAttr := {})
  | assertInta
  | deassertInta
  /-- A completion of an inbound read: its bytes, or Completer Abort, or Unsupported Request. -/
  | readData (bytes : Bytes)
  | completerAbort
  | unsupported
  /-- A read request of the module: tag, address, length. -/
  | readReq (tag addr len : Nat) (attr : RequestAttr := {})
  /-- A translation request for a page; an Invalidate Completion. -/
  | translate (page : Nat) (attr : RequestAttr := {})
  | invalDone (itag : Nat)
  /-- An LTR message of a latency in ns. -/
  | ltr (snoop noSnoop : Nat)
  /-- A reverse message to a group's tile: TYPE, SEQ and payload; or from a tile to the core. -/
  | toTile (group : Nat) (typ seq : Byte) (payload : Bytes)
  | fromTile (group : Nat) (typ : Byte) (payload : Bytes)
  /-- A token or an alignment mark on SYNC_OUT. -/
  | token (position : Nat)
  | mark
  /-- An Ethernet frame sent on a port. -/
  | frame (port : Nat) (head : EthHead) (msg : NetMsg)
  /-- An SMBus answer with its PEC: a block of bytes, or the module's address. -/
  | smbus (bytes : Bytes) (pec : Byte)
  | smbusAddress (addr : Nat) (pec : Byte)
  deriving DecidableEq, Repr, Inhabited

end Sys2Proof.Machine
end

