-- ==== Sys2Proof/Machine/State.lean ====
section
/-!
DEFINITION. The state of the Kilix module as plain data, the reasons a step could stop, and the state after reset: the module
without power, in OFF, with nothing bound (R75, Table 03-1). Every register is a field of one of the parts in Machine/Parts.lean
and Machine/Parts2.lean, with the value it has after a reset as its default.
-/
namespace Sys2Proof.Machine

/-- A reason for a machine fault. The specification names an effect for every row of the command table, and a row whose event
cannot occur in the present state leaves the state as it is, so no meaning raises one: the constructor is never used, which is
safe, because it can stop no run. -/
inductive Fault where
  /-- Raised by no command. -/
  | none
  deriving DecidableEq, Repr

/-- A reason for a refusal. -/
inductive Refusal where
  /-- Raised by the dispatch alone, for a row of the command table that has no meaning yet, named by its mnemonic. It is safe:
  the run stops. -/
  | notModelled (mnemonic : String)
  deriving DecidableEq, Repr

/-- The state of the module. -/
structure State where
  /-- Pins and rails (chapters 03 and 17). -/
  pins : Pins
  /-- PW_ registers and supervision (chapter 17). -/
  power : Power
  /-- Binding, Folio and firmware registers (chapters 02 and 03). -/
  boot : Boot
  /-- The carrier's flash (chapter 02) and the flash access registers (chapter 15). -/
  flash : Flash
  flashRegs : FlashRegs
  /-- TB_ registers, domains, ports and streams (chapter 13). -/
  time : Time
  /-- CK_ registers and synthesisers (chapter 14). -/
  clocks : Clocks
  /-- FG_ registers, tiles and barrier (chapters 04 and 05). -/
  field : Field
  /-- Frames landing, landed or being worked on, latest first (R27, R327). -/
  frames : List FrameSet
  /-- The frames released so far in this bind: the count of the next frame to be released (R22). -/
  released : Nat
  /-- The count of the first frame of RUNNING (R101); none before RUNNING. -/
  firstRun : Option Nat
  /-- The instant, in pu since reset, at which the settle time of ARMING ends (R101). -/
  settleEnd : Option Nat
  /-- SQ0 to SQ63 (chapter 06), and the sequencer commands that wait for their frame (R182). -/
  seqs : Tbl Seq
  seqCmds : List SeqCmd
  /-- The sequencers as the latest release left them, which the SQ_ registers show (R257), while something of the frame in its
  work window has been applied already. -/
  shown : Option (Tbl Seq)
  /-- Record definitions (chapter 07) and history rings by stream reference. -/
  recs : Tbl Rec
  hist : Tbl Hist
  /-- Reductions, sums, limits and process outputs (chapter 08). -/
  proc : Process
  /-- The interval meter (chapter 09). -/
  meter : Meter
  /-- Chapters 06 to 09 as they stood at the last frame release of the bind, for STATS_READ (Table 11-10). -/
  snap : Option Snap
  /-- Gathering banks and the capture memory schedule (chapter 10). -/
  banks : Banks
  /-- Rings, staging, commands and the placement map (chapter 11). -/
  rings : Rings
  /-- CX_ registers and jobs (chapter 12). -/
  jobs : Jobs
  /-- The endpoint (chapter 15). -/
  pcie : Pcie
  /-- FT_ registers, fences and quarantines (chapter 16). -/
  faults : Faults
  /-- The Franking Store (chapter 16). -/
  franking : Franking
  /-- The model's own counter of free values taken (no register of the module). -/
  free : Nat
  /-- The model's own record of what left the module, oldest first. -/
  out : List Output
  /-- The model's own queue of commands that wait, first in, first out. -/
  pending : List Instr
  deriving DecidableEq, Repr

/-- The module before power-good: OFF, with every register at the reset value the specification gives, and the Franking
Store and the flash as the log entries name them. -/
def State.reset : State where
  pins := {}
  power := {}
  boot := {}
  flash := {}
  flashRegs := {}
  time := {}
  clocks := {}
  field := {}
  frames := []
  released := 0
  firstRun := none
  settleEnd := none
  seqs := []
  seqCmds := []
  shown := none
  recs := []
  hist := []
  proc := {}
  meter := {}
  snap := none
  banks := {}
  rings := {}
  jobs := {}
  pcie := {}
  faults := {}
  franking := { mem := manufactured, undelivered := [0] }
  free := 0
  out := []
  pending := []

end Sys2Proof.Machine
end

