-- ==== Sys2Proof/Machine/Ops.lean ====
section
/-!
DEFINITION. The operations that every chapter shares: instants and frames, module states, units and fences, what leaves the
module, interrupts and address translation. A block takes no exceptions: raising an interrupt is an effect on the state.
-/
namespace Sys2Proof.Machine

/-- The outcome of a meaning. -/
abbrev Res := Host.Outcome State Fault Refusal

/-! ## Instants and frames (chapter 01, R396 to R399) -/

/-- 2^56, the period of TIME_RAW (R398). -/
def rawPeriod : Nat := 2 ^ 56

/-- The full count of pu since reset (R399). -/
def Time.now (t : Time) : Nat := t.wraps * rawPeriod + t.raw.toNat

/-- The full count of pu since reset. -/
def State.now (s : State) : Nat := s.time.now

/-- The postmark of an instant: the low 64 bits of the full count (R399). -/
def postmarkOf (pu : Nat) : Postmark := BitVec.ofNat 64 pu

/-- The state with raw time at a full count that is not earlier than now; TIME_RAW never runs backward (R397). -/
def advanceTo (s : State) (pu : Nat) : State :=
  if s.now < pu then
    { s with time := { s.time with raw := BitVec.ofNat 56 (pu % rawPeriod), wraps := pu / rawPeriod } }
  else s

/-- The cycle in which the full count advances: 32 pu of the sample clock while PLL-S is locked, 160 pu of the module oscillator else
(R397). -/
def State.countStep (s : State) : Nat := if s.clocks.pllS.lock then 32 else 160

/-- The full count that a reader sees: the cycles that have passed (R397). The instants between them are those of hardware that places an
event finer. -/
def State.rawCount (s : State) : Nat := s.time.countFrom + (s.now - s.time.countFrom) / s.countStep * s.countStep

/-- The count goes on from the value it has reached, as its clock changes (R397). -/
def holdCount (s : State) : State := { s with time := { s.time with countFrom := s.rawCount } }

/-- One microsecond and one millisecond in pu. -/
def puUs : Nat := 16000
def puMs : Nat := 16000000
def puSec : Nat := 16000000000

/-- The Folio in force: the bound one, or the one being bound. -/
def State.cfg (s : State) : Folio := (s.boot.folio.orElse (fun _ => s.boot.binding)).getD {}

/-- Tick spacing in pu: FRAME × 1,000,000 (Table 01-1). -/
def spacingOf (f : Folio) : Nat := f.module_.frame * 1000000

/-- Tick spacing of the bind (R13). -/
def State.spacing (s : State) : Nat := spacingOf s.cfg

/-- Grid samples of 2 ns in one frame: 31,250 × FRAME (Table 06-10). -/
def State.spf (s : State) : Nat := s.cfg.module_.frame * 31250

/-- The offset δ of 8 µs (R18). -/
def delta : Nat := 128000

/-- The instant of frame `c`'s tick in pu since reset (R13). -/
def State.tickOf (s : State) (c : Nat) : Nat := s.time.tick0.getD 0 + c * s.spacing

/-- The frame number of frame count `c`: 40 bits, wrapping (R16, R17). -/
def frameNo (c : Nat) : FrameNo := BitVec.ofNat 40 c

/-- Frame ticks are running. -/
def State.ticking (s : State) : Bool := s.time.tick0.isSome

/-- Frame ticks so far: frame `ticks − 1` is being sampled. -/
def State.curFrame (s : State) : Nat := s.time.ticks - 1

/-- The frame with the given number among recent ones, by the signed 40-bit difference from the frame being sampled (R17). -/
def State.countOfNo (s : State) (n : Nat) : Option Nat :=
  let d := frameDiff (BitVec.ofNat 40 n) (frameNo s.curFrame)
  let c : Int := s.curFrame + d
  if 0 ≤ c then some c.toNat else none

/-! ## Module states (Table 03-1) -/

/-- MOD_STATE.STATE code. -/
def ModState.code : ModState → Nat
  | .off => 0 | .boot => 1 | .unbound => 2 | .bound => 3 | .arming => 4 | .running => 5 | .faultHold => 6

/-- BOUND or later: the module is bound (R92). -/
def State.isBound (s : State) : Bool :=
  match s.boot.state with
  | .bound | .arming | .running | .faultHold => true
  | _ => false

/-- PLL-S has locked in this bind: step 8 waits for REF_IN no more, and the lock is not that of the bind before (R97, R100, R437). -/
def State.lockedInBind (s : State) : Bool := s.clocks.pllS.lock && s.boot.wait != BindWait.refIn

/-- VDD_AUX feeds the supervision, which runs in every state (R517, R529): it has not browned out, or has come back since. -/
def State.auxUp (s : State) : Bool := s.pins.rails.getD 2 .off != RailState.brownout

/-- The supervision measures: from the first power-good, in every state in which VDD_AUX is there (R517, R532). -/
def State.measuring (s : State) : Bool := s.auxUp && !s.pins.rails.contains RailState.off

/-- ALERT_N is low: a warning of Table 17-5 holds, a rail lies between its tolerance and its brownout threshold, or a transfer is at its input
limit. It is a level, and nothing latches it (R531). -/
def State.alertLow (s : State) : Bool :=
  s.auxUp && (s.power.dieWarn || s.power.dramWarn || s.field.groups.any (fun e => e.2.powered && decide (1680 ≤ e.2.temp)) ||
    s.pins.rails.any (fun r => r == RailState.marginal) || s.power.xferNow.any id)

/-- The module has power and is not held in OFF. -/
def State.powered (s : State) : Bool := decide (s.boot.state ≠ .off)

/-- The core runs on its own clock: commands and delivery are served (chapter 15, introduction). -/
def State.coreClock (s : State) : Bool := s.clocks.pllC.lock && !s.clocks.safeClock

/-! ## Units (Table 16-3) -/

/-- The key of a unit in the fence tables. -/
def ukey (cls idx : Nat) : Nat := cls * 2 ^ 24 + idx

def unitKey (u : FUnit) : Nat := ukey u.cls u.idx

/-- The unit is fenced now (R487). -/
def State.fenced (s : State) (cls idx : Nat) : Bool := (tget? s.faults.fences (ukey cls idx)).isSome

/-- The fence is permanent (R493). -/
def State.permanent (s : State) (cls idx : Nat) : Bool :=
  match tget? s.faults.fences (ukey cls idx) with
  | some f => f.permanent
  | none => false

/-- The unit's status code where registers show it: 1 in service, 2 fenced, 3 fenced until reset or rebind. -/
def State.unitCode (s : State) (cls idx : Nat) : Nat :=
  if s.permanent cls idx then 3 else if s.fenced cls idx then 2 else 1

/-- The blocks that a frame release takes for STATS_READ (Table 11-10). -/
def State.snapNow (s : State) : Snap :=
  { seqs := s.seqs, recs := s.recs, proc := s.proc, meter := s.meter, lanes := s.rings.redLane
    tdc := ((List.range 128).filter (fun l => s.unitCode 0x02 l ≠ 1)).map (fun l => (l, s.unitCode 0x02 l)) }

/-- The unit is in the health map (R81, R493). -/
def State.sick (s : State) (cls idx : Nat) : Bool :=
  (s.boot.health ++ s.boot.carried).any (fun u => u.cls == cls && u.idx == idx)

/-! ## What leaves the module -/

def emit (s : State) (o : Output) : State := { s with out := s.out ++ [o] }

def emits (s : State) (os : List Output) : State := { s with out := s.out ++ os }

/-- A fresh free value, and the counter advanced (assumption 2). -/
def takeFree (s : State) : BitVec 64 × State := (Config.freeValue s.free, { s with free := s.free + 1 })

/-! ## The endpoint's right to issue requests -/

/-- The endpoint sends messages: the link is up, Bus Master Enable is set, the function is in D0, and the endpoint is not fenced, for it then acts
as after a Bus Master Enable clear (R466, R477, R480, Table 16-1). -/
def State.canSignal (s : State) : Bool := s.pcie.linkUp && s.pcie.bme && !s.pcie.d3 && !s.fenced 0x0C 0

/-- The module may issue requests: the link is up, Bus Master Enable is set, the function is in D0, the endpoint is not
fenced and the core runs on its own clock (R466, R477, R480, Table 16-1, chapter 15). -/
def State.canIssue (s : State) : Bool :=
  s.canSignal && s.coreClock

/-- The cached translation of the page of a host address. -/
def cachedPage (s : State) (addr : Nat) : Option Nat := (s.pcie.ats.find? (fun e => e.1 == addr / 4096)).map (·.2)

/-- Asks for the translation of the page of a host address that the cache does not hold (R468). -/
def askPage (s : State) (addr : Nat) : State :=
  if s.pcie.atsEn && (cachedPage s addr).isNone then
    emit { s with pcie := { s.pcie with atsAsked := s.pcie.atsAsked + 1 } } (.translate (addr / 4096))
  else s

/-- Obtains the translation of the page of a host address before the address is used: from the cache, or asked for and taken into it, evicting
the least recently used (R468). -/
def translate (s : State) (addr : Nat) : State :=
  if s.pcie.atsEn then
    let page := addr / 4096
    let got := (cachedPage s addr).getD (Config.translation s.pcie.atsAsked page).toNat
    let t := askPage s addr
    { t with pcie := { t.pcie with ats := ((page, got) :: t.pcie.ats.filter (fun e => e.1 != page)).take 4096 } }
  else s

/-- The address that a request to a host address carries, once its page has been translated (R468). -/
def hostAddr (s : State) (addr : Nat) : Nat :=
  if s.pcie.atsEn then ((cachedPage s addr).map (fun p => p * 4096 + addr % 4096)).getD addr else addr

/-- The attributes of the module's requests now (R459, R468). -/
def reqAttr (s : State) : RequestAttr := { translated := s.pcie.atsEn }

/-- Max_Payload_Size, from Device Control bits [7:5]: at most 512 (Table 15-1). -/
def State.mps (s : State) : Nat := min 512 (128 * 2 ^ (s.pcie.devCtl / 32 % 8))

/-- The write requests that carry bytes to a host address: none longer than `mps`, none beyond its page (R458). -/
def writeChunks (mps : Nat) : Nat → Nat → Bytes → List (Nat × Bytes)
  | 0, _, _ => []
  | k + 1, addr, b =>
    if b.isEmpty then []
    else
      let n := min mps (4096 - addr % 4096)
      (addr, b.take n) :: writeChunks mps k (addr + n) (b.drop n)

/-- One write request (R458, R468). -/
def writeRequest (s : State) (c : Nat × Bytes) : State :=
  let t := translate s c.1
  emit t (.hostWrite (hostAddr t c.1) c.2 (reqAttr t))

/-- A write to host memory (R458, R468). -/
def hostWrite (s : State) (addr : Nat) (b : Bytes) : State :=
  (writeChunks s.mps b.length addr b).foldl writeRequest s

/-! ## Interrupts (R466, R467) -/

/-- Adds to a set kept as a list without repeats. -/
def setAdd (l : List Nat) (v : Nat) : List Nat := if l.contains v then l else l ++ [v]

/-- A signal of vector `v` (R466, R467): a message, a PBA bit, or an INTx pending bit. -/
def signal (s : State) (v : Nat) : State :=
  let p := s.pcie
  if p.msixEn then
    let e := tget {} p.msix v
    if s.canSignal && !p.msixFnMask && !e.mask then emit s (.msi v e.addr e.data)
    else { s with pcie := { p with pba := setAdd p.pba v } }
  else if p.intxDisable then s
  else
    let s' := if p.intx.isEmpty then emit s .assertInta else s
    { s' with pcie := { s'.pcie with intx := setAdd p.intx v } }

/-- Sends the message of every vector that is pending in the PBA and no longer masked (R466). -/
def flushPba (s : State) : State :=
  s.pcie.pba.foldl (fun s v =>
    let e := tget {} s.pcie.msix v
    if s.pcie.msixEn && s.canSignal && !s.pcie.msixFnMask && !e.mask then
      emit { s with pcie := { s.pcie with pba := s.pcie.pba.filter (· != v) } } (.msi v e.addr e.data)
    else s) s

/-- Sets bit `i` of IRQ_STATUS, and signals IRQ_VECTOR where an enabled bit changes from 0 to 1 (R466). -/
def raiseIrq (s : State) (i : Nat) : State :=
  if bit s.pcie.irqStatus i then s
  else
    let s' := { s with pcie := { s.pcie with irqStatus := setBit s.pcie.irqStatus i true } }
    if bit s.pcie.irqEnable i then signal s' s.pcie.irqVector else s'

/-- Moves the module to a state; a change sets IRQ_STATUS.STATE (Table 15-8). -/
def setState (s : State) (m : ModState) : State :=
  if s.boot.state = m then s else raiseIrq { s with boot := { s.boot with state := m } } 0

/-- The error bits of Status and Device Status that go with an uncorrectable error: Signaled Target Abort, Detected Parity Error, Signaled
System Error, and the detected error by its severity (PCI Express Base 5.0, as Table 15-2 takes them; log entry 22). -/
def noteError (p : Pcie) (b : Nat) : Pcie :=
  let st := setBit p.status 11 (bit p.status 11 || b = 15)
  let st := setBit st 15 (bit st 15 || b = 12)
  let ds := setBit p.devSts (if bit p.aerUncSev b then 2 else 1) true
  { p with status := setBit st 14 (bit st 14 || (p.serr && !bit p.aerUncMask b)), devSts := setBit ds 3 (bit ds 3 || b = 20) }

/-- The AER uncorrectable status bits: 12 Poisoned TLP, 14 Completion Timeout, 15 Completer Abort, 16 Unexpected Completion,
19 ECRC, 20 Unsupported Request, 22 Uncorrectable Internal (PCI Express Base 5.0, as R458 and R482 take it). The first error that is not
masked is kept in the log until its status bit is cleared (log entry 22). -/
def aerLatch (p : Pcie) (b : Nat) : Pcie :=
  let q := noteError { p with aerUnc := setBit p.aerUnc b true } b
  if bit p.aerUncMask b || p.aerFirst.any (bit p.aerUnc) then q
  else { q with aerFirst := some b, aerLog := some p.aerLogs, aerLogs := p.aerLogs + 1 }

/-- Logs an uncorrectable error of the endpoint. -/
def aer (s : State) (b : Nat) : State := { s with pcie := aerLatch s.pcie b }

/-- What a completion to a read of the module's leaves in the error registers (Tables 15-2 and 15-14): Received Target Abort, Received Master
Abort, a poisoned completion with Master Data Parity Error where Parity Error Response is set, or a Completion Timeout. -/
def noteRead (s : State) (how : ReadEnd) : State :=
  let st (i : Nat) : State := { s with pcie := { s.pcie with status := setBit s.pcie.status i true } }
  match how with
  | .completerAbort => st 12
  | .unsupported => st 13
  | .poisoned => aer (if s.pcie.perr then st 8 else s) 12
  | .timeout => aer s 14
  | .ok => s
  | .translationError => s
  | .noTag => s

/-- `n` corrected errors: Corrected Internal Error, bit 14 of the correctable status (R482). -/
def aerCorrected (s : State) (n : Nat) : State :=
  if n = 0 then s else { s with pcie := { s.pcie with aerCor := setBit s.pcie.aerCor 14 true, devSts := setBit s.pcie.devSts 0 true } }

/-! ## Inbound requests (R463, R480, R482) -/

/-- A memory request to a BAR is accepted (R463, R480). -/
def State.barOpen (s : State) : Bool := s.pcie.linkUp && s.pcie.mse && !s.pcie.d3

/-- An inbound request completes with Unsupported Request (R482). -/
def refuseRequest (s : State) : State := emit (aer s 20) .unsupported

/-- A memory request to a BAR: served, or refused under R463; without a link none arrives. -/
def memRequest (s : State) (k : State → State) : State :=
  if !s.pcie.linkUp then s else if s.barOpen then k s else refuseRequest s

/-- A configuration write: it arrives while the link is up (R90). -/
def cfgRequest (s : State) (k : State → State) : State := if s.pcie.linkUp then k s else s

/-! ## Messages to tiles (R134, R135) -/

/-- Changes group `g`'s record. -/
def modGroup (s : State) (g : Nat) (f : Group → Group) : State :=
  { s with field := { s.field with groups := tmod {} s.field.groups g f } }

/-- A group's MCLK outputs are gated at an instant (R127, R143, R439). -/
def gateMclk (now : Nat) (e : Group) : Group :=
  { e with mclkFrom := none, mclkTail := (e.mclkFrom.map (fun a => (a, now))).orElse (fun _ => e.mclkTail) }

/-- What a calibration in progress has found is given up. -/
def dropCal (e : Group) : Group := { e with calPhase := 0, calTrim := [], calAlign := none }

/-- Group `g`'s record. -/
def State.group (s : State) (g : Nat) : Group := tget {} s.field.groups g

/-- Channel `c`'s entry in the tile (global channel number: group c / 64, local c mod 64). -/
def State.tileChan (s : State) (c : Nat) : TileChan := tget {} (s.group (c / 64)).chans (c % 64)

def modChan (s : State) (c : Nat) (f : TileChan → TileChan) : State :=
  modGroup s (c / 64) (fun g => { g with chans := tmod {} g.chans (c % 64) f })

/-- The CHANNELS entry of a channel. -/
def Folio.chan? (f : Folio) (c : Nat) : Option ChanQ := f.channels.find? (fun q => q.chan = c)

def Folio.chan (f : Folio) (c : Nat) : ChanQ := (f.chan? c).getD {}

/-- The FIELD entry of a group. -/
def Folio.group? (f : Folio) (g : Nat) : Option GroupQ := f.field.find? (fun q => q.group = g)

/-- Groups with a FIELD entry, ascending. -/
def Folio.groups (f : Folio) : List Nat := f.field.map (·.group)

def Folio.seq? (f : Folio) (q : Nat) : Option SeqQ := f.seqs.find? (fun e => e.seq = q)
def Folio.red? (f : Folio) (r : Nat) : Option RedQ := f.reds.find? (fun e => e.red = r)
def Folio.sum? (f : Folio) (w : Nat) : Option SumQ := f.sums.find? (fun e => e.ws = w)
def Folio.lc? (f : Folio) (l : Nat) : Option LcQ := f.lcs.find? (fun e => e.lc = l)
def Folio.evt? (f : Folio) (o : Nat) : Option EvtQ := f.evts.find? (fun e => e.out = o)
def Folio.meas? (f : Folio) (e : Nat) : Option MeasQ := f.meas.find? (fun q => q.entry = e)
def Folio.rec? (f : Folio) (r : Nat) : Option RecQ := f.records.find? (fun q => q.rec_ = r)
def Folio.ring? (f : Folio) (k : Nat) : Option RingQ := f.delivery.rings.find? (fun q => q.ring = k)
def Folio.stream? (f : Folio) (k : Nat) : Option StreamQ := f.delivery.streams.find? (fun q => q.stream = k)
def Folio.plan? (f : Folio) (p : Nat) : Option PlanQ := f.clocks.plans.find? (fun q => q.plan = p)

/-- The quire of a type is SEALED (Table 02-5 codes). -/
def Folio.isSealed (f : Folio) (t : Nat) : Bool := f.sealedTypes.contains t

/-- One step of raw time with nothing commanded: 32 pu while PLL-S is locked, otherwise 160 pu (R397), while the module has
power (assumption 3). -/
def idle (s : State) : State :=
  if s.powered then advanceTo s (s.now + s.countStep) else s

end Sys2Proof.Machine
end

