-- ==== Sys2Proof/Machine/TimeBase.lean ====
section
/-!
DEFINITION. Disciplined time (R402 to R405), the two time domains (R406 to R411), the choice of the active domain and the
timeline at each frame tick (R412 to R418).
-/
namespace Sys2Proof.Machine

/-- Counts of 2^-16 ns in one nanosecond and one second (R402). -/
def qNs : Int := 65536
def qSec : Int := 65536000000000

/-- A mapping's disciplined time at `d` pu after its anchor (R403): 4,096 counts a pu plus the rate's correction toward −∞. -/
def mapTime (q d rho : Int) : Int := q + d * 4096 + fdiv (d * rho) (2 ^ 28)

/-- The disciplined time of a postmark in a segment (R403). -/
def Seg.timeAt (g : Seg) (p : Postmark) : Int := mapTime g.q (postmarkDiff p g.anchor) g.rho

/-- The segment a postmark belongs to: the latest anchor not later than it (R405). -/
def segOf (segs : List Seg) (p : Postmark) : Option Seg := segs.find? (fun g => 0 ≤ postmarkDiff p g.anchor)

/-- The disciplined time of a postmark, where it has one (R405, R413). -/
def Time.discAt (t : Time) (p : Postmark) : Option Int := (segOf t.segs p).map (·.timeAt p)

/-- The postmark of now. -/
def State.postmark (s : State) : Postmark := postmarkOf s.now

/-- The postmark of an event that firmware stamps: it reads the count (R397, R411). -/
def State.firmMark (s : State) : Postmark := postmarkOf s.rawCount

/-- Domain `x`: 0 DOM_A, 1 DOM_B. -/
def Time.dom (t : Time) (x : Nat) : Domain := if x = 0 then t.domA else t.domB

def Time.setDom (t : Time) (x : Nat) (d : Domain) : Time := if x = 0 then { t with domA := d } else { t with domB := d }

def modDom (s : State) (x : Nat) (f : Domain → Domain) : State := { s with time := s.time.setDom x (f (s.time.dom x)) }

/-- The TIME entry of domain `x`. -/
def Folio.dom (f : Folio) (x : Nat) : DomainQ := f.time.domains.getD x {}

/-- The TIME entry of port `p`. -/
def Folio.port (f : Folio) (p : Nat) : PortQ := f.time.ports.getD p {}

/-- Port `p`'s state. -/
def Time.eth (t : Time) (p : Nat) : EthPort := if p = 0 then t.eth0 else t.eth1

def modEth (s : State) (p : Nat) (f : EthPort → EthPort) : State :=
  { s with time := if p = 0 then { s.time with eth0 := f s.time.eth0 } else { s.time with eth1 := f s.time.eth1 } }

/-- A domain's own time at a postmark (R408). -/
def Domain.timeAt (d : Domain) (p : Postmark) : Option Int :=
  d.est.map (fun e => mapTime e.2 (postmarkDiff p e.1) d.rate)

/-- SLEW_LIMIT in counts. -/
def Folio.slewLimit (f : Folio) : Int := f.time.slewLimit * qNs

/-- Measurements (postmark, time) agree to within a limit: no two of their offsets from raw time differ by more (R408). -/
def agree (lim : Int) (l : List (Postmark × Int)) : Bool :=
  match l with
  | [] => true
  | m :: _ =>
    let offs := l.map (fun e => e.2 - m.2 - postmarkDiff e.1 m.1 * 4096)
    let hi := offs.foldl max 0
    let lo := offs.foldl min 0
    decide (hi - lo ≤ lim)

/-- The longest run of latest measurements, at most four, that agree. -/
def agreeRun (lim : Int) (l : List (Postmark × Int)) : List (Postmark × Int) :=
  if agree lim (l.take 4) then l.take 4 else if agree lim (l.take 3) then l.take 3
  else if agree lim (l.take 2) then l.take 2 else l.take 1

/-- A rate estimate from the last accepted measurement to a new one (R408). -/
def newRate (d : Domain) (p : Postmark) (t : Int) : Int :=
  match d.est with
  | none => d.rate
  | some e =>
    let dp := postmarkDiff p e.1
    satInt 32 (Config.rateEstimate d.rate dp (t - e.2 - dp * 4096))

/-- Takes one measurement, the domain's time `t` at postmark `p`, into domain `x` (R407 to R409). -/
def takeMeasurement (s : State) (x : Nat) (p : Postmark) (t : Int) : State :=
  let lim := s.cfg.slewLimit
  let off := match s.time.discAt p with
    | some q => satInt 32 (fdiv (t - q) qNs)
    | none => 0
  let canTrace := (s.cfg.dom x).source ≠ 3 || (s.time.dom (1 - x)).everTraced
  modDom s x fun d =>
    let d := { d with offsetNs := off }
    match d.state with
    | .acquiring =>
      let run := agreeRun lim ((p, t) :: d.run)
      let d := { d with rate := newRate { d with est := d.run.head? } p t, run := run }
      if run.length == 4 && canTrace then
        { d with state := .traced, est := some (p, t), run := [], outliers := [], everTraced := true }
      else d
    | .traced =>
      let pred := (d.timeAt p).getD t
      if lim < |t - pred| then
        let o := agreeRun lim ((p, t) :: d.outliers)
        if o.length = 4 then { d with est := some (p, t), outliers := [], newPhase := s.time.active == some x }
        else { d with err := satAdd 32 d.err 1, outliers := o }
      else { d with rate := newRate d p t, est := some (p, Config.phaseEstimate pred t), outliers := [] }
    | _ => d

/-- A source is heard again: a LOST domain acquires afresh (R408). -/
def domainHeard (d : Domain) : Domain :=
  if d.state = .lost then { d with state := .acquiring, run := [], outliers := [], lastSync := none, est := none } else d

/-- Sets a domain LOST. -/
def domainLose (d : Domain) : Domain :=
  match d.state with
  | .off => d
  | _ => { d with state := .lost, run := [], outliers := [], newPhase := false, syncRx := none, syncOrigin := none, reqTx := none,
                  masters := [], master := none, annAt := none, syncAt := none, pulseAt := none }

/-- 2^e seconds in pu. -/
def secPow (e : Int) : Nat := if 0 ≤ e then puSec * 2 ^ e.toNat else puSec / 2 ^ (-e).toNat

/-- The first instant at which a domain is lost if it hears nothing more (Table 13-2): the announce timeout, three of the master's Announce
intervals (PRESUMED, assumption 23), four Sync intervals, or 1.5 s after a pulse. -/
def Domain.lostFrom (d : Domain) : Option Nat :=
  if d.state == DomState.acquiring || d.state == DomState.traced then
    ([d.annAt.map (fun t => t + 3 * secPow d.annLog), d.syncAt.map (fun t => t + 4 * secPow d.logSync),
      d.pulseAt.map (fun t => t + 3 * puSec / 2)].filterMap id).min?
  else none

/-- A domain at an instant: LOST, where it has heard nothing for too long (R408). -/
def Domain.heardUntil (d : Domain) (now : Nat) : Domain :=
  match d.lostFrom with
  | some t => if t ≤ now then domainLose d else d
  | none => d

/-! ## The timeline at a frame tick -/

/-- The order of preference of the domains (R412). -/
def domainOrder (t : Time) (f : Folio) : List Nat :=
  match t.pref with
  | some x => [x, 1 - x]
  | none => if f.time.priority = 1 then [1, 0] else [0, 1]

/-- MAX_SLEW, in 2^-40. -/
def Folio.maxSlew (f : Folio) : Int := (f.time.maxSlew * 2 ^ 40 / 1000000000 : Nat)

/-- The slew term for a remaining difference, in 2^-40, rounded toward zero (R414). -/
def slewTerm (f : Folio) (left : Int) : Int :=
  let need : Int := (left.natAbs * 2 ^ 28 / spacingOf f : Nat)
  let v := min f.maxSlew need
  if left < 0 then -v else v

/-- Anchors a new segment at the tick, or keeps the present one where nothing changes. -/
def anchorSeg (t : Time) (p : Postmark) (q rho : Int) (dom : Option Nat) : Time :=
  match t.segs with
  | [] => t
  | g :: _ =>
    if g.rho = rho && g.dom = dom then t
    else { t with segs := { anchor := p, q := q, rho := rho, dom := dom, step := false, stepBack := false,
                            switch := decide (g.dom ≠ dom), stepNs := 0 } :: t.segs }

/-- A step at the tick: the timeline takes the domain's time (R415). -/
def stepSeg (t : Time) (p : Postmark) (n : FrameNo) (old new rho : Int) (dom : Nat) : Time :=
  let back := decide (new < old)
  let sw := decide ((t.segs.head?.bind (·.dom)) ≠ some dom)
  { t with
    segs := { anchor := p, q := new, rho := satInt 32 rho, dom := some dom, step := !back, stepBack := back, switch := sw,
              stepNs := satInt 64 (fdiv (new - old) qNs) } :: t.segs
    slewing := false, baseRate := satInt 32 rho
    stepsFwd := if back then t.stepsFwd else satAdd 16 t.stepsFwd 1
    stepsBack := if back then satAdd 16 t.stepsBack 1 else t.stepsBack
    stepFrames := n :: t.stepFrames }

/-- The timeline at a tick that finds the active domain `x` TRACED (R413, R415, R416): it steps to the domain's time, slews to it or
follows it. -/
def traceTick (f : Folio) (p : Postmark) (n : FrameNo) (now : Int) (was : Option Nat) (x : Nat) (t : Time) : Time :=
  let d := t.dom x
  let dt := (d.timeAt p).getD now
  let left := dt - now
  let prior := t.tl
  let changed := decide (was ≠ some x)
  let t := { t with active := some x, tl := .traced, coastEnd := none }
  if prior == TlState.untraced || d.newPhase || (prior == TlState.coasting && f.slewLimit < |left|) then stepSeg t p n now dt d.rate x
  else
    let slew := (t.slewing || changed || prior == TlState.coasting) && qNs ≤ |left|
    let rho := if slew then satInt 32 (d.rate + slewTerm f left) else satInt 32 (Config.servoRate d.rate left)
    let base := if slew then d.rate else rho
    anchorSeg { t with slewing := slew, baseRate := base } p now rho (some x)

/-- Coasting ends at an instant, and the timeline is UNTRACED (R412). -/
def Time.untrace (t : Time) (e : Nat) : Time := { t with tl := .untraced, coastEnd := none, coastEnded := some e }

/-- The timeline at a tick that finds no domain TRACED (R412, R414): it begins to coast, coasts on, or is UNTRACED. -/
def coastTick (f : Folio) (tick : Nat) (active : Option Nat) (t : Time) : Time :=
  match t.tl with
  | .traced => { t with tl := .coasting, active := active,
                        coastEnd := if f.time.coastForever then none else some (tick + f.time.holdoverS * puSec) }
  | .coasting => match t.coastEnd with
    | some e => if e ≤ tick then t.untrace e else t
    | none => t
  | .untraced => t

/-- A frame number begins anew: what was noted of the frame that bore it before the wrap is over (R17, R415, R416). -/
def forgetFrame (n : FrameNo) (t : Time) : Time :=
  { t with untracedFrames := t.untracedFrames.filter (· != n), stepFrames := t.stepFrames.filter (· != n) }

/-- A frame whose tick finds the timeline UNTRACED is noted (R418). -/
def noteUntraced (n : FrameNo) (t : Time) : Time :=
  if t.tl == TlState.untraced then { t with untracedFrames := n :: t.untracedFrames } else t

/-- The preference of a domain ends with its source (R412). -/
def keepPref (f : Folio) (t : Time) : Time :=
  match t.pref with
  | some x => if (f.dom x).source = 0 then { t with pref := none } else t
  | none => t

/-- A new phase acts at the next tick, or not at all (R409, R413). -/
def phasesTaken (t : Time) : Time :=
  { t with domA := { t.domA with newPhase := false }, domB := { t.domB with newPhase := false } }

/-- The timeline at a frame tick: the domains that are overdue are LOST, the active domain is chosen, and the timeline is traced, coasts, steps or slews
(R412 to R416). -/
def tickTimeline (f : Folio) (tick : Nat) (n : FrameNo) (t : Time) : Time :=
  let p := postmarkOf tick
  let t := { t with domA := t.domA.heardUntil tick, domB := t.domB.heardUntil tick }
  match t.segs with
  | [] => { t with segs := [{ anchor := p, q := 0, rho := 0, dom := none, step := false, stepBack := false, switch := false,
                              stepNs := 0 }], untracedFrames := n :: t.untracedFrames }
  | g :: _ =>
    let t := keepPref f t
    let was := t.active
    let active := ((domainOrder t f).find? (fun x => (t.dom x).state == DomState.traced)).orElse (fun _ => was)
    let traced : Bool := match active with
      | some x => decide ((t.dom x).state = .traced)
      | none => false
    let now := g.timeAt p
    phasesTaken <| if traced then traceTick f p n now was (active.getD 0) t
    else
      let t := coastTick f tick active t
      noteUntraced n (anchorSeg { t with slewing := false } p now t.baseRate g.dom)

/-- The header flags of a frame's envelopes: TIME_UNTRACED and TIME_STEPPED (R415, R416). -/
def timeFlags (t : Time) (n : FrameNo) : Nat :=
  (if t.untracedFrames.contains n then 4 else 0) + (if t.stepFrames.contains n then 8 else 0)

end Sys2Proof.Machine
end

