-- ==== Sys2Proof/Machine/Franking.lean ====
section
/-!
DEFINITION. Writing the Franking Store (R496 to R504): writes with read-back, audit events, the roll-forward at power-on, the
significant-fault counters and the lifetime statistics.
-/
namespace Sys2Proof.Machine

/-- One write of the store with its read-back (R496). While a failure is due, the read-back mismatches, and whether the bytes
landed all the same is open (assumption 5). -/
def storeWrite (s : State) (a : Nat) (b : Bytes) : State × Bool :=
  let put (s : State) : State := { s with franking := { s.franking with mem := mwrite 0 s.franking.mem a b } }
  if s.franking.failing = 0 then (put s, true)
  else
    let (v, s) := takeFree s
    let s := { s with franking := { s.franking with failing := s.franking.failing - 1 } }
    (if v.getLsbD 0 then put s else s, false)

/-- The current counter page; all zeros without a valid copy. -/
def State.page (s : State) : Page := ((currentPage s.franking.mem).map (·.2)).getD {}

/-- The store is fenced: no franked event can be written (R501). -/
def State.storeFenced (s : State) : Bool := s.fenced 0x0E 0

/-- The running firmware's VERSION. -/
def State.fwVersion (s : State) : Nat := s.boot.fwVersion

/-- Seconds since the last power-on. -/
def State.uptime (s : State) : Nat := s.franking.upBase + s.now / puSec

/-- Disciplined seconds if the timeline is TRACED, otherwise 0 (Table 16-7). -/
def State.taiSeconds (s : State) : Nat :=
  match s.time.tl with
  | .traced => ((s.time.discAt s.firmMark).map (fun q => (q / qSec).toNat)).getD 0
  | _ => 0

/-- Writes a counter page over the copy whose GEN is lower, with GEN one above the other copy's (R501). -/
def writePage (s : State) (p : Page) : State × Bool :=
  match currentPage s.franking.mem with
  | some (i, old) => storeWrite s (0x800 * (1 - i)) (pageBytes { p with gen := (old.gen + 1) % 2 ^ 32 })
  | none => (s, false)

/-- What a franked event changes on the counter page besides FRANKING and EVENT_NEXT (R67, R499, R500). -/
structure PageChange where
  hash : Option Bytes := none
  strict : Option Bool := none
  sealOpen : Option Bool := none
  fw : Option (Nat × Bytes) := none

def PageChange.apply (c : PageChange) (p : Page) : Page :=
  { p with
    hash := c.hash.getD p.hash
    hashValid := if c.hash.isSome then true else p.hashValid
    lastStrict := c.strict.getD p.lastStrict
    sealOpen := c.sealOpen.getD p.sealOpen
    fwVersion := (c.fw.map (·.1)).getD p.fwVersion
    fwHash := (c.fw.map (·.2)).getD p.fwHash }

/-- Event `n` is to be delivered once the page counts it, whatever its read-back said: an event that the page does not count yet is
found, and written into the page, at the next power-on (R501, R502). -/
def noteEvent (s : State) (n : Nat) : State :=
  if s.page.next = n then s else { s with franking := { s.franking with undelivered := s.franking.undelivered ++ [n] } }

/-- Franks one event: the audit event first, then the counter copy, each read back (R497, R498, R501). Answers whether both
writes were good; with the store fenced, or the counter saturated and the event counted, nothing is written. The page does not count an event
whose own read-back has failed: the next power-on finds whether it is intact (R501). An event that the page counts is to be delivered (R502). -/
def frankWrite (s : State) (code : Nat) (strict offline : Bool) (data : Bytes) (serial : Nat) (c : PageChange) :
    State × Bool :=
  match currentPage s.franking.mem with
  | none => (s, false)
  | some (_, p) =>
    let counted : Bool := code == 1 || code == 5
    if s.storeFenced || (counted && p.franking = 0xFFFFFFFF) then (s, false)
    else
      let fr := if counted then p.franking + 1 else p.franking
      let open_ := c.sealOpen.getD p.sealOpen
      let ef := b2n strict + 2 * b2n open_ + 4 * b2n offline + 8 * b2n counted
      let body := eventBody p.next code ef fr s.fwVersion (stGet s.franking.mem powerOnsAddr 4) s.uptime s.taiSeconds data serial
      let ev := body ++ chainNext (chainBefore s.franking.mem p.next) body
      let (s, ok) := storeWrite s (eventAddr p.next) ev
      if !ok then (s, false)
      else
        let (s, ok) := writePage s (c.apply { p with franking := fr, next := (p.next + 1) % 2 ^ 32 })
        (noteEvent s p.next, ok)

/-- Rolls the page forward over one intact event (R501). -/
def rollEvent (p : Page) (b : Bytes) : Page × Option Bytes :=
  let code := fld b 4 1
  let p' := { p with franking := fld b 8 4, next := (p.next + 1) % 2 ^ 32 }
  if code = 1 then ({ p' with hashValid := false, lastStrict := bit (fld b 5 1) 0 }, none)
  else if code = 3 then ({ p' with sealOpen := true }, none)
  else if code = 4 then ({ p' with sealOpen := false }, none)
  else if code = 5 then ({ p' with fwVersion := fld b 12 4 }, some (sub b 32 8))
  else (p', none)

/-- The roll-forward over every further intact event, at most a whole ring of them (R501). -/
def rollForward : Nat → State → State
  | 0, s => s
  | k + 1, s =>
    match currentPage s.franking.mem with
    | none => s
    | some (_, p) =>
      if eventIntact s.franking.mem p.next then
        let b := stRead s.franking.mem (eventAddr p.next) 64
        let (p', part) := rollEvent p b
        let (s, ok) := writePage s p'
        let s := noteEvent { s with franking := { s.franking with fwPartial := part.orElse (fun _ => s.franking.fwPartial) } } p.next
        if ok then rollForward k s else s
      else s

/-- Adds to a u32 of the store that saturates (R503, R504). -/
def storeAdd (s : State) (a n : Nat) : State :=
  (storeWrite s a (le 4 (satAdd 32 (stGet s.franking.mem a 4) n))).1

/-- A unit's significant-fault counter. -/
def State.sigCount (s : State) (cls idx : Nat) : Nat := stGet s.franking.mem (counterAddr cls idx) 4

/-- A temperature taken into the highest since the last update. -/
def peak (p : Option Int) (t : Int) : Option Int := some (max t (p.getD t))

/-- Takes up the uptime and the highest temperatures measured in the lifetime statistics (R504). -/
def lifetimeUpdate (s : State) (seconds : Nat) : State :=
  let m := s.franking.mem
  let p := s.power
  let (s, _) := storeWrite s uptimeAddr (le 8 (min (stGet m uptimeAddr 8 + seconds) (2 ^ 64 - 1)))
  let core := max (sint 16 (stGet m maxCoreAddr 2)) (s.power.peakDie.getD s.power.die)
  let old := sint 16 (stGet m maxIslandAddr 2)
  let s := { s with power := { s.power with peakDie := none, peakIsland := none } }
  (storeWrite s maxCoreAddr (leInt 2 core ++ leInt 2 (max old (p.peakIsland.getD old)))).1

end Sys2Proof.Machine
end

