-- ==== Sys2Proof/Machine/Rings.lean ====
section
/-!
DEFINITION. Envelopes (R348 to R352), subscriptions (R371), staging and loss (R356 to R358), writing into host rings with PAD,
writeback and notification (R342 to R346), and completions (R354, R362).
-/
namespace Sys2Proof.Machine

/-! ## Ring numbers (Table 11-1) -/

def dlRing : Nat := 16383
def deliveryRing (k : Nat) : Nat := 7680 + k
def commandRing (i : Nat) : Nat := 11776 + i
def completionRing (i : Nat) : Nat := 12032 + i

/-- KIND of a ring number (Table 11-2): 1 history, 2 staging, 3 delivery, 4 command, 5 completion, 6 work queue, 7 dead-letter. -/
def rkind (r : Nat) : Nat :=
  if r < 5632 then 1 else if r < 7680 then 2 else if r < 11776 then 3 else if r < 12032 then 4 else if r < 12288 then 5
  else if r < 16383 then 6 else if r = 16383 then 7 else 0

/-- Host rings: delivery, command, completion and dead-letter (R339). -/
def isHostRing (r : Nat) : Bool := rkind r = 3 || rkind r = 4 || rkind r = 5 || rkind r = 7

/-- A host ring's entry. -/
def State.ring (s : State) (r : Nat) : Ring := tget {} s.rings.rings r

def modRing (s : State) (r : Nat) (f : Ring → Ring) : State :=
  { s with rings := { s.rings with rings := tmod {} s.rings.rings r f } }

/-- Bytes of a ring's index unit (Table 11-1). -/
def unitBytes (r : Nat) : Nat := if rkind r = 4 then 64 else 32

/-- Credit of a ring in its index units: SIZE − (PROD − CONS) (R342). -/
def Ring.credit (r : Ring) : Int := r.size - (r.prod - r.cons).toNat

/-! ## Envelopes -/

/-- LENGTH: header and payload, a multiple of 32 (R348). -/
def Envelope.length (e : Envelope) : Nat := roundUp 32 (32 + e.payload.length)

/-- The bytes of an envelope with its SEQ (Table 11-4). -/
def Envelope.bytes (e : Envelope) (seq : Word32) : Bytes :=
  sub (le 1 e.typ ++ le 1 1 ++ le 2 e.flags ++ le 4 e.length ++ le 4 e.source ++ le 8 e.frame.toNat ++
    le 8 e.postmark.toNat ++ le 4 seq.toNat ++ e.payload) 0 e.length

/-- Header flags (R349). -/
def fInvalid : Nat := 1
def fLossBefore : Nat := 2
def fBudget : Nat := 16
def fSealed : Nat := 32
def fFenced : Nat := 64

/-- Adds a header flag. -/
def Envelope.flag (e : Envelope) (b : Bool) (f : Nat) : Envelope := if b then { e with flags := e.flags ||| f } else e

/-- A subscription takes an envelope (R371). -/
def SubQ.takes (q : SubQ) (typ source : Nat) : Bool := bit q.types typ && (source &&& q.mask) == q.source

/-- The targets of an envelope, ascending, each once (R371). -/
def targetsOf (f : Folio) (typ source : Nat) : List Nat :=
  uniq ((f.delivery.subs.filter (fun q => q.takes typ source)).map (·.target))

/-- Some subscription takes an envelope: the unit is subscribed (R285, R309). -/
def subscribed (f : Folio) (typ source : Nat) : Bool := f.delivery.subs.any (fun q => q.takes typ source)

/-! ## Staging and loss -/

/-- The staged envelopes of a ready list. -/
def stagedOf (l : List Item) : List Envelope :=
  l.filterMap (fun i => match i with
    | .staged e => some e
    | _ => none)

/-- Bytes of envelopes. -/
def envBytes (l : List Envelope) : Nat := l.foldl (fun a e => a + e.length) 0

/-- Bytes of the staged items of a ring's ready list. -/
def stagedBytes (l : List Item) : Nat := envBytes (stagedOf l)

/-- Counts one dropped envelope for a target (R357): `t` is a ring number or 0x8000 + stream. The dead-letter ring has a count of its own
(R358). -/
def countDrop (s : State) (t cause len : Nat) : State :=
  let s := if t = dlRing then { s with rings := { s.rings with dlDropped := satAdd 32 s.rings.dlDropped 1 } }
    else { s with rings := { s.rings with
      losses := tmod (0, 0) s.rings.losses (256 * t + cause) (fun e => (satAdd 32 e.1 1, satAdd 32 e.2 (len / 32))) } }
  if t < 0x8000 then
    modRing s t (fun r => { r with dropEnv := satAdd 32 r.dropEnv 1, dropUnits := satAdd 32 r.dropUnits (len / 32) })
  else s

/-- The staging ring number of a target, where it has one (R366). -/
def stagingRingOf (s : State) (t : Nat) : Option Nat :=
  (s.rings.staging.find? (fun e => e.2.1 = t)).map (·.1)

/-- The bank that a serving bank stands in for: itself, or the fenced bank whose work has moved to it (R337). -/
def origBank (s : State) (b : Nat) : Nat := ((s.banks.moved.find? (fun e => e.2 == b)).map (·.1)).getD b

/-- The bank that serves a place: the placed bank, or the spare that its work has moved to (R337). -/
def holderBank (s : State) (b : Nat) : Nat := tget b s.banks.moved b

/-- The bank that serves a place is fenced (R337). -/
def bankBroken (s : State) (b : Nat) : Bool := s.fenced 0x06 (holderBank s b)

/-- A bank serves a placed bank's place now. -/
def servesPlace (s : State) (b : Nat) : Bool := holderBank s (origBank s b) = b

/-- The owner of a bank or of its port A now (R325, R327): no release opens the window of the first frame served, so the Class T evaluator holds
that frame's set from its W_n on without one. -/
def ownerNow (s : State) (b : Nat) : Nat :=
  let n := s.released
  if s.ticking && n = s.banks.served && decide (n + 1 < s.time.ticks) && decide (s.tickOf (n + 1) + delta ≤ s.now) && servesPlace s b &&
      (tget (0, 0) s.banks.role (origBank s b)).1 = n % 3 + 1 && !s.fenced 0x06 b then 0x030
  else tget 0 s.banks.owner b

/-- The places of the staging area, in order (R324). -/
def stageBanks (s : State) : List Nat := (s.banks.role.filter (fun e => e.2.1 = 4)).map (·.1)

/-- Bytes and offset in the staging area of what stages envelopes for a target (R366): its staging ring, or the reserve of the dead-letter
ring, which takes the last 64 KiB (R358; assumption 41). -/
def stageSpan (s : State) (t : Nat) : Nat × Nat :=
  if t = dlRing then (65536, (stageBanks s).length * 2 ^ 20 - 65536)
  else
    let off := ((s.rings.staging.find? (fun e => e.2.1 = t)).map (·.2.2.2)).getD 0
    if t < 0x8000 then (((s.cfg.ring? (t - 7680)).map (·.staging)).getD 0, off)
    else (((s.cfg.stream? (t - 0x8000)).map (·.staging)).getD 0, off)

/-- What is staged for a target, oldest first. -/
def stagedFor (s : State) (t : Nat) : List Envelope :=
  if t < 0x8000 then stagedOf (s.ring t).ready else tget [] s.rings.netReady (t - 0x8000)

/-- RT_PROD and RT_CONS of what stages for a target (R342): where the next envelope goes, and where the oldest one held lies. -/
def stageProdOf (s : State) (t : Nat) : Word32 := tget 0 s.rings.stageProd t
def stageConsOf (s : State) (t : Nat) : Word32 := (((stagedFor s t).head?).map (·.slot)).getD (stageProdOf s t)

/-- The free units of what stages for a target. -/
def stageFree (s : State) (t : Nat) : Int := ((stageSpan s t).1 / 32 : Nat) - ((stageProdOf s t - stageConsOf s t).toNat : Int)

/-- Offsets in the staging area of the 32-byte units that an envelope of `len` bytes has at an index (R342). -/
def stageUnits (s : State) (t : Nat) (slot : Word32) (len : Nat) : List Nat :=
  let sp := stageSpan s t
  (List.range (len / 32)).map (fun i => sp.2 + 32 * ((slot.toNat + i) % max 1 (sp.1 / 32)))

/-- The staging ring does not take an envelope of `len` bytes: it is fenced, or the place in the staging area where the envelope would go is
absent (Table 16-1, R337). Answers the loss cause. -/
def stagingBroken (s : State) (t len : Nat) : Option Nat :=
  if (match stagingRingOf s t with
      | some r => s.fenced 0x0A r
      | none => false) then some 3
  else if (stageUnits s t (stageProdOf s t) len).any (fun a => match (stageBanks s)[a / 1048576]? with
      | some b => bankBroken s b
      | none => false) then some 2
  else none

/-- Why a target's staging ring drops an envelope of `len` bytes now, where it does (R356); `dropping` is set once it has dropped one of the
same frame. -/
def stageRefuses (s : State) (t : Nat) (dropping : Bool) (len : Nat) : Option Nat :=
  match stagingBroken s t len with
  | some c => some c
  | none => if dropping || decide (stageFree s t < (len / 32 : Nat)) then some 1 else none

/-- The staging ring of a target takes `len` bytes. -/
def stageTake (s : State) (t len : Nat) : State :=
  { s with rings := { s.rings with stageProd := tput s.rings.stageProd t (stageProdOf s t + BitVec.ofNat 32 (len / 32)) } }

/-- Offers one envelope to what stages for ring `r` (R356); answers whether it was taken. -/
def offerAt (s : State) (r : Nat) (e : Envelope) : State × Bool :=
  let g := s.ring r
  match stageRefuses s r g.dropping e.length with
  | some c => (modRing (countDrop s r c e.length) r (fun g => { g with lossNext := true, dropping := true }), false)
  | none => (modRing (stageTake s r e.length) r (fun g =>
      { g with lossNext := false, ready := g.ready ++ [.staged { e.flag g.lossNext fLossBefore with slot := stageProdOf s r }] }), true)

/-- Offers one envelope to delivery ring `k`'s staging ring (R356). -/
def offerRing (s : State) (k : Nat) (e : Envelope) : State := (offerAt s (deliveryRing k) e).1

/-- The fragments already sent of a stream's first envelope count for nothing once it is dropped (R428). -/
def cutFragment (s : State) (k : Nat) : State :=
  { s with time := { s.time with streams := tmap s.time.streams (fun i e => if i = k then { e with fragOff := 0 } else e) } }

/-- Offers one envelope to network stream `k`'s staging ring (R356). -/
def offerStream (s : State) (k : Nat) (e : Envelope) : State :=
  let t := 0x8000 + k
  match stageRefuses s t (s.rings.netDropping.contains k) e.length with
  | some c =>
    let s := countDrop s t c e.length
    { s with rings := { s.rings with netLoss := setAdd s.rings.netLoss k, netDropping := setAdd s.rings.netDropping k } }
  | none =>
    let s := stageTake { s with rings := { s.rings with
      netReady := tput s.rings.netReady k (stagedFor s t ++ [{ e.flag (s.rings.netLoss.contains k) fLossBefore with slot := stageProdOf s t }]) } }
      t e.length
    { s with rings := { s.rings with netLoss := s.rings.netLoss.filter (· != k) } }

/-- Offers an envelope to the dead-letter reserve of 64 KiB, under R356; answers whether it was taken (R358). -/
def offerDeadLetter (s : State) (e : Envelope) : State × Bool := offerAt s dlRing e

/-! ## LTR (R481) -/

/-- LTR Mechanism Enable: Device Control 2, bit 10 (R461). -/
def State.ltrOn (s : State) : Bool := bit s.pcie.devCtl2 10

/-- Every staging ring's fill and size. -/
def stagingFills (s : State) : List (Nat × Nat) :=
  s.rings.staging.map (fun e => (envBytes (stagedFor s e.2.1), (stageSpan s e.2.1).1))

/-- The latency, in ns, that a maximum latency register names: VALUE in bits [9:0], times 32 to the power SCALE in bits [12:10]
(PCI Express Base 5.0). -/
def ltrNs (r : Nat) : Nat := r % 1024 * 32 ^ (r / 1024 % 8)

/-- Sends an LTR message of `us` µs, limited to the host's maximum latencies (R481). -/
def sendLtr (s : State) (us : Nat) : State :=
  let s := { s with pcie := { s.pcie with ltrSent := us } }
  emit s (.ltr (min (1000 * us) (ltrNs s.pcie.ltrMax)) (min (1000 * us) (ltrNs s.pcie.ltrNoSnoop)))

/-- Reports a tolerance of 1 µs once any staging ring passes half full, and 10 µs once every one is below a quarter (R481). -/
def ltrCheck (s : State) : State :=
  if s.ltrOn then
    let l := stagingFills s
    if s.pcie.ltrSent ≠ 1 && l.any (fun e => e.2 < 2 * e.1) then sendLtr s 1
    else if s.pcie.ltrSent = 1 && l.all (fun e => 4 * e.1 < e.2) then sendLtr s 10
    else s
  else s

/-- Drops the envelopes staged for a target that satisfy `p`, with a cause (R336, R337, Table 16-1). The next one staged carries LOSS_BEFORE
(R356), and the emptier ring may raise the latency reported (R481). -/
def dropHeld (s : State) (t cause : Nat) (p : Envelope → Bool) : State :=
  let l := (stagedFor s t).filter p
  if l.isEmpty then s
  else
    let s := l.foldl (fun s e => countDrop s t cause e.length) s
    if t < 0x8000 then
      ltrCheck (modRing s t (fun g => { g with lossNext := true, ready := g.ready.filter (fun i => match i with
        | .staged e => !p e
        | _ => true) }))
    else
      let k := t - 0x8000
      let s := if (((stagedFor s t).head?).map p).getD false then cutFragment s k else s
      ltrCheck { s with rings := { s.rings with
        netReady := tput s.rings.netReady k ((stagedFor s t).filter (fun e => !p e)), netLoss := setAdd s.rings.netLoss k } }

/-- Drops every envelope held for a target, with a cause. -/
def dropStaged (s : State) (t cause : Nat) : State := dropHeld s t cause (fun _ => true)

/-- Everything that stages envelopes: the targets of the staging rings, and the dead-letter ring. -/
def stageTargets (s : State) : List Nat := s.rings.staging.map (·.2.1) ++ [dlRing]

/-- Offers an envelope to one target. -/
def offer (e : Envelope) (s : State) (t : Nat) : State :=
  if t < 0x8000 then offerRing s t e else offerStream s (t - 0x8000) e

/-- Network streams that carry every dead-letter envelope, as targets. -/
def deadLetterStreams (f : Folio) : List Nat :=
  (f.delivery.streams.filter (·.deadLetter)).map (fun q => 0x8000 + q.stream)

/-- Stages one envelope at a release (R356, R371): to every target that subscribes to it, and a FAULT envelope also to the
dead-letter ring and the streams that carry dead letters. -/
def stage (s : State) (e : Envelope) : State :=
  let ts := targetsOf s.cfg e.typ e.source
  let ts := if e.typ = 0x0B then uniq (ts ++ deadLetterStreams s.cfg) else ts
  let s := ts.foldl (offer e) s
  if e.typ = 0x0B then (offerDeadLetter s e).1 else s

/-- Rank of a type in the order of R355. -/
def typeRank (t : Nat) : Nat :=
  if t = 0x0B then 0 else if t = 0x09 then 1 else if t = 0x08 then 2 else if t = 0x0D then 4 else 3

/-- The order of R355 within one frame: by rank, then, for the other types, by SOURCE; TRIGGER and FAULT envelopes come in the
order in which they are given. -/
def orderEnvelopes (l : List Envelope) : List Envelope :=
  sortBy (fun e => typeRank e.typ * 2 ^ 32 + (if typeRank e.typ = 3 then e.source else 0)) l

/-- The LOSS envelopes of a release, at most 1,020 entries each (R357, Table 11-8). -/
def lossEnvelopes (n : FrameNo) (p : Postmark) (dl : Nat) (flags : Nat) : Nat → List (Nat × (Nat × Nat)) → List Envelope
  | 0, _ => []
  | k + 1, l =>
    let now := l.take 1020
    let e : Envelope :=
      { typ := 0x0A, flags := flags, source := 0, frame := n, postmark := p
        payload := padTo 32 (le 2 now.length ++ zeros 2 ++ le 4 dl ++ zeros 24 ++
          now.flatMap (fun x => le 2 (x.1 / 256) ++ le 1 (x.1 % 256) ++ zeros 1 ++ le 4 x.2.1 ++ le 4 x.2.2 ++ zeros 4)) }
    if l.length ≤ 1020 then [e] else e :: lossEnvelopes n p 0 flags k (l.drop 1020)

/-- Produces the LOSS envelopes that a release owes (R357, R358). -/
def stageLoss (s : State) (n : FrameNo) (p : Postmark) : State :=
  let l := s.rings.losses
  let dl := s.rings.dlDropped
  if l.isEmpty && dl = 0 then s
  else
    let envs := lossEnvelopes n p dl (timeFlags s.time n) (l.length / 1020 + 1) l
    let s := { s with rings := { s.rings with losses := [] } }
    let r := envs.foldl (fun (acc : State × Bool) e =>
      let (s, ok) := offerDeadLetter acc.1 e
      let s := if ok && acc.2 then { s with rings := { s.rings with dlDropped := s.rings.dlDropped - dl } } else s
      ((deadLetterStreams s.cfg).foldl (offer e) s, false)) (s, true)
    r.1

/-! ## Writing into host rings -/

/-- The writeback of a ring's index, and of zero above it (R345). -/
def writeback (s : State) (r : Nat) (i : Word32) : State := hostWrite s (s.ring r).wb (le 4 i.toNat ++ zeros 4)

/-- A delivery, completion or dead-letter ring may be written now. -/
def State.canWriteRing (s : State) (r : Nat) : Bool := (s.ring r).enable && s.canIssue && !s.fenced 0x0A r

/-- Units that an envelope of `len` bytes needs at the ring's producer index: the PAD up to the wrap point, and its own. -/
def padUnits (g : Ring) (len : Nat) : Nat :=
  let pos := g.prod.toNat % (max g.size 1)
  if g.size < pos + len / 32 then g.size - pos else 0

/-- The whole envelope fits within the credit together with any PAD (R28). -/
def Ring.fits (g : Ring) (len : Nat) : Bool := decide (((padUnits g len + len / 32 : Nat) : Int) ≤ g.credit)

/-- The header of a PAD envelope before an envelope: FRAME is that one's (R352), and with it the flags that every envelope of the frame
carries, TIME_UNTRACED and TIME_STEPPED (R415, R416). -/
def padBytes (g : Ring) (units : Nat) (e : Envelope) : Bytes :=
  ({ typ := 0x0E, flags := e.flags &&& 12, source := 0, frame := e.frame, postmark := 0, payload := zeros (32 * units - 32) } : Envelope).bytes g.seq
    |>.take 32

/-- Counts one entry written and not yet notified (R346). -/
def Ring.noted (g : Ring) : Ring := { g with waiting := satAdd 16 g.waiting 1 }

/-- Writes an envelope to a delivery or dead-letter ring, with a PAD before the wrap point, then the writeback (R342, R345,
R351, R352). The credit must have been judged. -/
def putEnvelope (s : State) (r : Nat) (e : Envelope) : State :=
  let g := s.ring r
  let pu := padUnits g e.length
  let pos := g.prod.toNat % (max g.size 1)
  let s := if pu = 0 then s else hostWrite s (g.base + 32 * pos) (padBytes g pu e)
  let at_ := if pu = 0 then pos else 0
  let s := hostWrite s (g.base + 32 * at_) (e.bytes g.seq)
  let prod := g.prod + BitVec.ofNat 32 (pu + e.length / 32)
  let s := modRing s r (fun g => { g.noted with prod := prod, seq := g.seq + 1 })
  writeback s r prod

/-- The ring is due for notification (R346). -/
def Ring.isDue (g : Ring) : Bool := (g.k != 0 && g.k ≤ g.waiting) || (g.due && 0 < g.waiting)

/-- Signals a due ring unless it is masked (R346). -/
def notify (s : State) (r : Nat) : State :=
  let g := s.ring r
  if g.isDue && !g.mask then modRing (signal s g.vector) r (fun g => { g with waiting := 0, due := false }) else s

/-! ## Completions -/

/-- A completion entry (Table 11-11). -/
def complEntry (cmd : Bytes) (status result mask detail : Nat) : Bytes :=
  sub cmd 4 4 ++ sub cmd 0 1 ++ le 1 status ++ zeros 2 ++ le 8 result ++ le 8 mask ++ le 4 detail ++ zeros 4

/-- The COMPLETION envelope of an ON_RING command (R354). -/
def complEnvelope (s : State) (ring : Nat) (entry : Bytes) : Envelope :=
  let n := frameNo (s.released - 1)
  { typ := 0x0F, flags := timeFlags s.time n, source := 0x60000000 + ring, frame := n, postmark := s.firmMark, payload := entry }

/-- Writes the completion entries that can be written, in the order in which their commands completed (R347, R362, R478). An
ON_RING command's COMPLETION envelope becomes ready then (R354); RING_K of a command that R363 has refused may name no delivery ring, and
then there is none. -/
def flushDone : Nat → State → List (Nat × Bytes × Bytes) → State
  | 0, s, _ => s
  | _, s, [] => s
  | k + 1, s, (i, cmd, entry) :: l =>
    let r := completionRing i
    let g := s.ring r
    if s.canWriteRing r && decide (1 ≤ g.credit) then
      let pos := g.prod.toNat % (max g.size 1)
      let s := hostWrite s (g.base + 32 * pos) entry
      let prod := g.prod + 1
      let s := modRing s r (fun g => { g.noted with prod := prod })
      let s := writeback s r prod
      let s := if bit (fld cmd 1 1) 0 && (s.cfg.ring? (fld cmd 2 2)).isSome then
          modRing s (deliveryRing (fld cmd 2 2)) (fun g => { g with ready := g.ready ++ [.completion (complEnvelope s i entry)] })
        else s
      flushDone k s l
    else
      let s := { s with rings := { s.rings with done := s.rings.done ++ [(i, cmd ++ entry)] } }
      flushDone k s l

/-- Writes what can be written of the completions decided so far. -/
def writeCompletions (s : State) : State :=
  let l := s.rings.done.map (fun e => (e.1, e.2.take 64, e.2.drop 64))
  flushDone (l.length + 1) { s with rings := { s.rings with done := [] } } l

/-- What waited for the right to issue requests goes on: pending messages and completions (R466, R478). -/
def resumeIssue (s : State) : State := writeCompletions (flushPba s)

/-- Removes the first fetched command with this ring and entry. -/
def dropCmd : List Cmd → Nat → Bytes → List Cmd
  | [], _, _ => []
  | c :: l, i, e => if c.ring = i && c.entry == e then l else c :: dropCmd l i e

/-! ## Fetched commands (R360, R361, R363) -/

/-- OPCODE, and the FENCE flag, of a command entry (Table 11-9). -/
def opOf (entry : Bytes) : Nat := fld entry 0 1
def fenceOf (entry : Bytes) : Bool := bit (fld entry 1 1) 1

/-- The opcodes of Table 11-10. -/
def knownOp (op : Nat) : Bool :=
  [0x00, 0x01, 0x02, 0x03, 0x10, 0x20, 0x21, 0x30, 0x40, 0x41, 0x50, 0x51, 0x60, 0x70].contains op

/-- The command that starts next (R105, R361): the first that is not started, whose ring has no earlier command that is not, that waits
for no earlier command under FENCE and, for a REBIND, for none at all. `before` holds the earlier commands. -/
def nextStart (before : List Cmd) : List Cmd → Option Cmd
  | [] => none
  | c :: l =>
    let mine := before.filter (fun b => b.ring = c.ring)
    if !c.started && mine.all (·.started) && !(fenceOf c.entry && !mine.isEmpty) && !(opOf c.entry = 0x70 && !before.isEmpty) then some c
    else nextStart (before ++ [c]) l

/-- A command that was fetched before an endpoint reset: its completion is discarded (R479). It keeps its ring number plus 256. -/
def oldEpoch (ring : Nat) : Bool := decide (256 ≤ ring)

/-- One command completes: its entry waits for its completion ring, and it is no longer outstanding (R361, R362, R479). -/
def completeOne (s : State) (cmd : Nat × Bytes) (status result mask detail : Nat) : State :=
  writeCompletions { s with rings := { s.rings with
    cmds := dropCmd s.rings.cmds cmd.1 cmd.2
    done := if oldEpoch cmd.1 then s.rings.done else s.rings.done ++ [(cmd.1, cmd.2 ++ complEntry cmd.2 status result mask detail)] } }

/-- Commands with an unknown opcode start and complete in their turn with BAD_COMMAND (R363). -/
def sweepBad : Nat → State → State
  | 0, s => s
  | k + 1, s =>
    match nextStart [] s.rings.cmds with
    | some c => if knownOp (opOf c.entry) then s else sweepBad k (completeOne s (c.ring, c.entry) 7 0 0 0)
    | none => s

/-- Completes a command (R361, R362). -/
def complete (s : State) (cmd : Nat × Bytes) (status result : Nat) (mask : Nat := 0) (detail : Nat := 0) : State :=
  let s := completeOne s cmd status result mask detail
  sweepBad s.rings.cmds.length s

end Sys2Proof.Machine
end

