-- ==== Sys2Proof/Machine/Faults.lean ====
section
/-!
DEFINITION. The end of jobs (R387, R388) and of commands that need host memory (R477, R478); the fault discipline (R487 to R494):
detections, fences, moves to spares, FAULT envelopes, self-tests and re-admission; and franked events, whose failure is a fault.
-/
namespace Sys2Proof.Machine

/-! ## Jobs and host reads that end -/

/-- Ends a job (R387): its completion, CX_FAIL or CX_KIB, and its reads out of use. -/
def finishJob (s : State) (j : Job) (status result mask : Nat) : State :=
  let jobs := s.jobs
  let s := { s with jobs := { jobs with
    jobs := jobs.jobs.filter (fun x => x.id ≠ j.id)
    fails := if status = 0 || status = 1 then jobs.fails else tmod 0 jobs.fails status (fun n => satAdd 32 n 1) } }
  let s := { s with pcie := { s.pcie with
    reads := tmap s.pcie.reads (fun _ r => if r.job = j.id then { r with dead := true } else r) } }
  complete s j.cmd status result mask

/-- The lanes that code a split block of a job, or hold one that waits for the output before it (R391). -/
def servingLanes (j : Job) : List Nat :=
  j.blocks.filterMap (fun b => if b.st == BlockSt.running || b.st == BlockSt.coded then b.lane else none)

/-- The lanes of a job that have faulted and are fenced at the next boundary, a mask bit each (R388). -/
def lanesFaulted (s : State) (j : Job) : Nat :=
  ((servingLanes j).filter (fun l => s.faults.pending.any (fun d => d.unit == ⟨0x09, l⟩))).foldl (fun m l => m ||| 2 ^ l) 0

/-- The bank at a place serves one of a job's lanes as its job bank. -/
def jobBankOf (s : State) (j : Job) (place : Nat) : Bool := (servingLanes j).any (fun l => tget? s.jobs.bank l == some place)

/-- A serving lane, or the job bank of one, has faulted and is fenced at the next boundary: UNIT_FAULT for the job (Table 12-3). -/
def servedBad (s : State) (j : Job) : Bool :=
  lanesFaulted s j ≠ 0 || s.faults.pending.any (fun d => d.unit.cls = 0x06 && servesPlace s d.unit.idx && jobBankOf s j (origBank s d.unit.idx))

/-- Fails every job that satisfies `p`, with a status and mask; UNIT_FAULT names every lane of the job that has faulted (R388). -/
def failJobs (s : State) (p : Job → Bool) (status mask : Nat) : State :=
  (s.jobs.jobs.filter p).foldl (fun s j => finishJob s j status 0 (if status = 5 then mask ||| lanesFaulted s j else mask)) s

/-- The readout items of a ready list. -/
def readoutsOf (l : List Item) : List Readout :=
  l.filterMap (fun i => match i with
    | .readout r => some r
    | _ => none)

/-- Ends every span readout on a ring with a status (R478, R479); RESULT is the envelopes it has written (Table 11-10). -/
def endReadouts (s : State) (status : Nat) (r : Nat) : State :=
  let l := readoutsOf (s.ring r).ready
  let s := modRing s r (fun g => { g with ready := g.ready.filter (fun i => match i with
    | .readout _ => false
    | _ => true) })
  l.foldl (fun s x => complete s x.cmd status x.written) s

/-- Ends the started commands that need host memory with ABORTED (R478) and sets their reads aside until they complete or time
out (R477). -/
def abortHostWork (s : State) : State :=
  let s := { s with pcie := { s.pcie with reads := tmap s.pcie.reads (fun _ r => { r with dead := true }) } }
  let s := failJobs s (fun _ => true) 9 0
  (s.rings.rings.map (·.1)).foldl (fun s r => endReadouts s 9 r) s

/-! ## Frames and validity -/

/-- The first frame whose work window opens at or after now (R22, R494). -/
def State.nextWindow (s : State) : Nat :=
  if !s.ticking then 0
  else if s.now ≤ s.tickOf (s.released + 1) + delta then s.released else s.released + 1

/-- The first frame whose work window opens after now (R182). -/
def State.windowAfter (s : State) : Nat :=
  if s.ticking && s.now = s.tickOf (s.released + 1) + delta then s.released + 1 else s.nextWindow

/-- A detection on the unit waits for the frame boundary, with this fault frame or an earlier one. -/
def pendingBad (s : State) (cls idx c : Nat) : Bool :=
  s.faults.pending.any (fun d => d.unit.cls == cls && d.unit.idx == idx && d.faultCount ≤ c)

/-- Frame `c` is INVALID for every output that depends on the unit (R488). -/
def unitBad (s : State) (cls idx c : Nat) : Bool :=
  pendingBad s cls idx c ||
  (match tget? s.faults.fences (ukey cls idx) with
   | some f => decide (f.faultCount ≤ c)
   | none => false)

/-- The lowest-numbered frame that a unit holds now (R488): the frame being sampled for a group, the frame in its work window
for every other unit. -/
def faultFrameNow (s : State) (cls : Nat) : Nat :=
  if cls = 0x01 || cls = 0x02 then
    (if s.now < s.tickOf s.curFrame + 4 * puUs then s.curFrame - 1 else s.curFrame)
  else s.released

/-! ## Moves to spares (R219, R220, R269, R337, R367) -/

/-- Reduction lanes on which placement step 3 packs: the 256 lowest-numbered healthy ones (R268). -/
def packedLanes (s : State) : List Nat := ((List.range 272).filter (fun l => !s.sick 0x04 l)).take 256

/-- The lowest-numbered healthy spare lane (R269). -/
def spareLane (s : State) : Option Nat :=
  let packed := packedLanes s
  (List.range 272).find? (fun l => !s.sick 0x04 l && !packed.contains l && !s.fenced 0x04 l &&
    !(s.rings.redLane.any (fun e => e.2 == l)))

/-- The lowest-numbered healthy spare condition unit (R219, R220). -/
def spareUnit (s : State) : Option Nat :=
  (List.range 4096).find? (fun u => !s.sick 0x03 u && !s.fenced 0x03 u && !(s.rings.condCu.any (fun e => e.2 == u)))

/-- The lowest-numbered healthy spare bank, none that serves a lane's self-test (R324, R325, R337). -/
def spareBank (s : State) : Option Nat :=
  (List.range 120).find? (fun b => !s.sick 0x06 b && !s.fenced 0x06 b &&
    ((tget? s.banks.role b).isNone || s.banks.retired.contains b) && !(s.banks.moved.any (fun e => e.2 == b)) &&
    decide (tget 0 s.banks.owner b < 0x100))

/-- A move or return of work: GENERATION increases by 1 (R367). -/
def bumpGen (s : State) : State := { s with rings := { s.rings with gen := (s.rings.gen + 1) % 2 ^ 32 } }

/-- Restarts the tracking of the condition entries whose key satisfies `p`, whose sequencers restart under R221 (R193, R220). -/
def restartConds (s : State) (p : Nat → Bool) : State :=
  let f (t : Tbl Seq) : Tbl Seq := tmap t (fun q e => { e with
    invalid := e.invalid || (List.range (((s.cfg.seq? q).map (·.conds.length)).getD 0)).any (fun i => p (256 * q + i))
    conds := tmap e.conds (fun i c => if p (256 * q + i) then { atDone := c.atDone, every := c.every } else c) })
  { s with seqs := f s.seqs, shown := s.shown.map f }

/-- Starts reduction instances again (R261): their filter state is cleared. -/
def restartReds (s : State) (p : Nat → Bool) : State :=
  { s with proc := { s.proc with reds := tmap s.proc.reds (fun r e =>
      if p r then { e with startIn := none, inputs := [], fir := [], settled := false } else e) } }

/-- Moves the work of a fenced unit to the lowest-numbered spare of its kind; answers whether it did (R367). -/
def moveOut (s : State) (cls idx : Nat) : State × Bool :=
  if cls = 0x03 then
    let held := (s.rings.condCu.filter (fun e => e.2 == idx)).map (·.1)
    if held.isEmpty then (s, false)
    else match spareUnit s with
      | none => (s, false)
      | some u =>
        let s := { s with rings := { s.rings with condCu := tmap s.rings.condCu (fun _ v => if v = idx then u else v) } }
        (bumpGen (restartConds s held.contains), true)
  else if cls = 0x04 then
    let held := (s.rings.redLane.filter (fun e => e.2 == idx)).map (·.1)
    if held.isEmpty then (s, false)
    else match spareLane s with
      | none => (s, false)
      | some u =>
        let s := { s with rings := { s.rings with redLane := tmap s.rings.redLane (fun _ v => if v = idx then u else v) } }
        (bumpGen (restartReds s held.contains), true)
  else if cls = 0x06 && idx < 120 then
    match tget? s.banks.role (origBank s idx) with
    | some (role, arg) =>
      if servesPlace s idx && (role = 1 || role = 2 || role = 3 || role = 4 || role = 6) then
        match spareBank s with
        | none => (s, false)
        | some u => (bumpGen { s with banks := { s.banks with
            moved := tput s.banks.moved (origBank s idx) u
            owner := if role = 4 then tput s.banks.owner u 0x040 else if role = 6 then tput s.banks.owner u (0x050 + arg)
              else s.banks.owner } }, true)
      else (s, false)
    | none => (s, false)
  else (s, false)

/-- Condition entries that a fenced unit still holds, for want of a spare, move to the lowest spare there is now (R220). -/
def moveStranded (s : State) : State :=
  (uniq (s.rings.condCu.map (·.2))).foldl (fun s u => if s.fenced 0x03 u then (moveOut s 0x03 u).1 else s) s

/-- Returns the work of a re-admitted unit to it (R220, R269, R337, R367). A staging or job bank's range stays with the spare
until the next bind, and the original becomes a spare; a frame-set bank returns at the next use of its set. Work that has moved on from one spare to another returns
to its home alone (DESIGN CHOICE, log entry 29). -/
def moveBack (s : State) (cls idx : Nat) : State :=
  if cls = 0x03 then
    let home := (s.rings.condHome.filter (fun e => e.2 == idx)).map (·.1)
    let s := if home.all (fun k => tget 0 s.rings.condCu k == idx) then restartConds s home.contains
      else bumpGen (restartConds { s with rings := { s.rings with
        condCu := tmap s.rings.condCu (fun k v => if home.contains k then idx else v) } } home.contains)
    moveStranded s
  else if cls = 0x04 then
    let home := (s.rings.redHome.filter (fun e => e.2 == idx)).map (·.1)
    if home.all (fun k => tget 0 s.rings.redLane k == idx) then restartReds s home.contains
    else
      let s := { s with rings := { s.rings with
        redLane := tmap s.rings.redLane (fun k v => if home.contains k then idx else v) } }
      bumpGen (restartReds s home.contains)
  else if cls = 0x06 then
    match tget? s.banks.moved idx with
    | none => s
    | some _ =>
      let role := (tget (0, 0) s.banks.role idx).1
      { s with banks := { s.banks with
        retired := if role = 4 || role = 6 then setAdd s.banks.retired idx else s.banks.retired
        returning := if role = 4 || role = 6 then s.banks.returning else setAdd s.banks.returning idx } }
  else s

/-! ## FAULT envelopes -/

/-- A FAULT envelope (R494, Table 16-4); its FRAME is set when it is released. -/
def faultEnvelope (u : FUnit) (cause event more faultCount fenceCount count detail lost spare quar : Nat)
    (p : Postmark) : Envelope :=
  { typ := 0x0B, flags := 0
    source := 0x10000000 + u.cls * 65536 + (if u.cls = 0x07 then 0 else u.idx % 65536)
    frame := 0, postmark := p
    payload := le 1 u.cls ++ le 1 cause ++ le 1 event ++ le 1 more ++ le 4 u.idx ++ le 8 (frameNo faultCount).toNat ++
      le 8 (frameNo fenceCount).toNat ++ le 4 count ++ le 4 detail ++ le 8 lost ++ le 1 spare ++ zeros 7 ++ le 8 quar ++
      zeros 8 }

/-- Holds an envelope for the next release. -/
def holdEnvelope (s : State) (e : Envelope) : State :=
  { s with rings := { s.rings with waitingEnv := s.rings.waitingEnv ++ [e] } }

/-- The unit has a quarantine (R490): PLL-S, PLL-C, PLL-M and the oscillator, capture memory for loss of lock of PLL-M, and a
store without a valid copy have none. -/
def hasQuarantine (s : State) (u : FUnit) (cause : Nat) : Bool :=
  !(u.cls = 0x0B || (u.cls = 0x08 && cause = 0x08) || (u.cls = 0x0E && s.franking.noCopy))

/-- Seven previous fences all lie within 65,535 frames before this one, by signed 40-bit difference (R493). -/
def isPermanent (hist : List Nat) (c : Nat) : Bool :=
  7 ≤ hist.length && (hist.take 7).all (fun h =>
    let d := frameDiff (frameNo c) (frameNo h)
    decide (0 ≤ d) && decide (d ≤ 65535))

/-- Entries of the frame index that stream entries of ring `h` use: H + 1 (R313). -/
def Hist.indexLen (h : Hist) : Nat := h.size / max h.bmax 1 + 1

/-- The granule of the frame index that holds an entry, 16 bytes each (R312, R313). The streams' entries lie in ring order, an entry at its frame
count modulo H + 1 (assumption 33). -/
def indexGranule (s : State) (h : Hist) (count : Nat) : Nat :=
  let before := (s.hist.filter (fun e => decide (e.2.ring < h.ring))).foldl (fun a e => a + e.2.indexLen) 0
  507904 + 16 * (before + count % h.indexLen) / 65536

/-- The place, in granules of the ring, of a granule. -/
def granulePlace (h : Hist) (gr : Nat) : Option Nat :=
  (h.runs.foldl (fun (acc : Nat × Option Nat) r =>
    (acc.1 + r.2, if acc.2.isNone && r.1 ≤ gr && gr < r.1 + r.2 then some (acc.1 + (gr - r.1)) else acc.2)) (0, none)).2

/-- Bytes of a frame, or its entry in the frame index, lie in a granule. -/
def touchesGranule (s : State) (h : Hist) (gr : Nat) (f : HistFrame) : Bool :=
  indexGranule s h f.count = gr ||
  (match granulePlace h gr with
    | some k =>
      let lo := k * 65536
      let a := f.start % (max h.size 1)
      f.len ≠ 0 && ((a < lo + 65536 && lo < a + f.len) || (h.size < a + f.len && lo < a + f.len - h.size))
    | none => false)

/-- Marks held frames INVALID and FENCED in their index entries, whose CRC is 0 from then on (Table 10-2). -/
def spoilHeld (s : State) (p : Hist → HistFrame → Bool) : State :=
  { s with hist := tmap s.hist (fun _ h => { h with frames := h.frames.map (fun f =>
      if p h f then { f with invalid := true, fenced := true, crc := 0 } else f) }) }

/-- The frames that touch a granule (R321). -/
def invalidateGranule (s : State) (gr : Nat) : State := spoilHeld s (fun h f => touchesGranule s h gr f)

/-- What a fence does to its unit besides taking its work away (Table 16-1 and the list after it). A current-limit event of a fenced group that
has not lasted 100 µs is not counted in LIMIT_EVENTS (R122; DESIGN CHOICE, log entry 30). -/
def fenceEffect (s : State) (u : FUnit) (perm : Bool) : State :=
  match u.cls with
  | 0x01 =>
    let c := (s.group u.idx).powerCmd
    let s := modGroup s u.idx (fun g => { dropCal (gateMclk s.now g) with
      state := if perm then .permanent else .fenced, powered := false, railsOn := false, calibrated := false
      pllLock := false, dataFrom := none, unechoed := [], applied := {}, received := {}, powerCmd := none, downAt := none
      railLimit := [none, none, none, none, none], clamp := false, testBusy := false, temp := 0 })
    match c with
    | some c => complete s c 5 0 (2 ^ u.idx)
    | none => s
  | 0x06 =>
    let serves := servesPlace s u.idx
    let s := { s with banks := { s.banks with
      owner := tput s.banks.owner u.idx 0, ownerB := tdel s.banks.ownerB u.idx
      returning := s.banks.returning.filter (· != u.idx), retired := s.banks.retired.filter (· != u.idx) } }
    let b := origBank s u.idx
    let target : Option Nat := if serves then (tget? s.banks.role b).map (·.1) else none
    if target = some 4 then
      let k := (findIdx? (fun x => x == b) (stageBanks s)).getD 0
      (stageTargets s).foldl (fun s t => dropHeld s t 2 (fun e => (stageUnits s t e.slot e.length).any (fun a => a / 1048576 = k))) s
    else if target = some 6 then
      failJobs s (fun j => jobBankOf s j b) 5 0
    else s
  | 0x07 => invalidateGranule s u.idx
  | 0x08 => { s with banks := { s.banks with dramOff := true } }
  | 0x09 => failJobs s (fun j => (servingLanes j).contains u.idx) 5 (2 ^ u.idx)
  | 0x0A =>
    if isHostRing u.idx then modRing s u.idx (fun g => { g with enable := false, error := true, parity := true })
    else if rkind u.idx = 2 then
      match tget? s.rings.staging u.idx with
      | some (t, _, _) => dropStaged s t 3
      | none => s
    else if rkind u.idx = 1 then spoilHeld s (fun h _ => h.ring == u.idx)
    else s
  | 0x0C => abortHostWork s
  | _ => s

/-- Fences a unit (R487 to R489, R493): the fence, the move to a spare, the FAULT envelope, the counters. `fenceCount` is the
first frame whose work window opens after the fence. -/
def fenceUnit (s : State) (d : Detection) (fenceCount : Nat) : State :=
  let u := d.unit
  let hist := tget [] s.faults.history (unitKey u)
  let perm := isPermanent hist fenceCount
  let quar := hasQuarantine s u d.cause && !perm
  let s := storeAdd s (counterAddr u.cls u.idx) 1
  let s := storeAdd s faultsAddr 1
  let s := if perm then storeAdd s permanentAddr 1 else s
  let heat := d.cause = 0x0C || (d.cause = 0x10 && ((tget? s.faults.fences (unitKey u)).map (·.heat)).getD false)
  let f : Fence := { fenceCount := fenceCount, faultCount := d.faultCount, cause := d.cause, permanent := perm, heat := heat
                     quarEnd := if quar then some (s.now + 256 * s.spacing) else none }
  let s := { s with faults := { s.faults with
    fences := tput s.faults.fences (unitKey u) f
    history := tput s.faults.history (unitKey u) (fenceCount :: hist)
    pending := s.faults.pending.filter (fun e => !(e.unit == u))
    count := satAdd 32 s.faults.count 1, lastUnit := u, lastEvent := if perm then 2 else 1, lastCause := d.cause } }
  let s := fenceEffect s u perm
  let (s, moved) := moveOut s u.cls u.idx
  holdEnvelope s (faultEnvelope u d.cause (if perm then 2 else 1) d.more d.faultCount fenceCount
    (s.sigCount u.cls u.idx) d.detail 0 (b2n moved) (if quar then (frameNo (fenceCount + 256)).toNat else 0) d.postmark)

/-- The cause fences at once (Table 16-1). -/
def atOnce (cause : Nat) : Bool :=
  cause = 0x05 || cause = 0x07 || cause = 0x08 || cause = 0x0D || cause = 0x10 || cause = 0x11

/-- A detection on a unit (R489): folded into the pending one, which keeps its cause and takes the earlier fault frame, or new. -/
def addDetection (l : List Detection) (d : Detection) : List Detection :=
  if l.any (fun e => e.unit == d.unit) then
    l.map (fun e => if e.unit == d.unit then { e with more := min 255 (e.more + 1 + d.more), faultCount := min e.faultCount d.faultCount } else e)
  else l ++ [d]

/-- Detects a fault of a unit (R487, R489): fenced at once where Table 16-1 says so, otherwise at the frame boundary. A unit
that is fenced already does no work, so nothing further is detected on it but a failed self-test. -/
def detect (s : State) (u : FUnit) (cause detail faultCount : Nat) : State :=
  let d : Detection := { unit := u, cause := cause, detail := detail, more := 0, faultCount := faultCount, postmark := s.firmMark }
  if s.fenced u.cls u.idx && cause ≠ 0x10 then s
  else if atOnce cause then
    match s.faults.pending.find? (fun e => e.unit == u) with
    | some e => fenceUnit s { e with more := min 255 (e.more + 1), faultCount := min e.faultCount faultCount } s.nextWindow
    | none => fenceUnit s d s.nextWindow
  else { s with faults := { s.faults with pending := addDetection s.faults.pending d } }

/-- Fences every unit with a pending detection, by ascending CLASS and INDEX (R487, R489). -/
def fencePending (s : State) (fenceCount : Nat) : State :=
  (sortBy (fun d => unitKey d.unit) s.faults.pending).foldl (fun s d => fenceUnit s d fenceCount) s

/-- The self-test of a fenced unit has passed, and its re-admission may follow (R492, R146). -/
def State.mayReturn (s : State) (f : Fence) : Bool :=
  !f.permanent && (match f.passed with
    | some t => decide (t ≤ s.now)
    | none => false)

/-- Ends a fence: the unit is re-admitted, its work returns, and a FAULT envelope with EVENT READMIT reports it (R492, R494). Capture memory stays
fenced as long as PLL-M is not locked (R322). -/
def readmitUnit (s : State) (u : FUnit) : State :=
  match (tget? s.faults.fences (unitKey u)).filter (fun _ => u.cls != 0x08 || s.clocks.pllM.lock) with
  | none => s
  | some f =>
    let c := if u.cls = 0x01 || u.cls = 0x02 then s.time.ticks else s.nextWindow
    let s := { s with faults := { s.faults with
      fences := tdel s.faults.fences (unitKey u), lastUnit := u, lastEvent := 3, lastCause := f.cause } }
    let s := moveBack s u.cls u.idx
    let s := match u.cls with
      | 0x01 => modGroup s u.idx (fun g => { g with state := .settling, dataFrom := some c })
      | 0x02 =>
        let lost := (s.rings.tdcLane.filter (fun e => e.2 == u.idx)).map (fun e => 1024 + e.1)
        { s with frames := s.frames.map (fun f => if f.count < c then { f with badChans := f.badChans ++ lost } else f) }
      | 0x06 => { s with banks := { s.banks with
          owner := if s.banks.pool.contains u.idx then tput s.banks.owner u.idx 1
            else if servesPlace s u.idx && !s.banks.retired.contains u.idx then
              (match tget (0, 0) s.banks.role (origBank s u.idx) with
                | (4, _) => tput s.banks.owner u.idx 0x040
                | (6, i) => tput s.banks.owner u.idx (0x050 + i)
                | _ => s.banks.owner)
            else s.banks.owner
          ownerB := if (tget? s.banks.role u.idx).map (·.1) = some 8 then tput s.banks.ownerB u.idx 0x030 else s.banks.ownerB
          mem := if s.banks.pool.contains u.idx then mclear s.banks.mem (u.idx * 2 ^ 20) ((u.idx + 1) * 2 ^ 20) else s.banks.mem } }
      | 0x08 => { s with banks := { s.banks with dramOff := false } }
      | 0x0C => resumeIssue s
      | _ => s
    holdEnvelope s (faultEnvelope u f.cause 3 0 f.faultCount c (s.sigCount u.cls u.idx) 0 0 0 0 (postmarkOf (s.tickOf c)))

/-- Units fenced now, and permanently fenced (Table 16-13). -/
def State.fencedNow (s : State) : Nat := min 65535 s.faults.fences.length
def State.fencedForGood (s : State) : Nat := min 65535 (s.faults.fences.filter (fun e => e.2.permanent)).length

/-- A failed store write is a fault of the store, fenced at once (R496, cause 0x11). -/
def storeFault (s : State) : State := detect s ⟨0x0E, 0⟩ 0x11 0 s.released

/-- Franks an event (R498); a failed write fences the store (R501). Answers whether the event was franked. -/
def frank (s : State) (code : Nat) (strict offline : Bool) (data : Bytes) (serial : Nat) (c : PageChange) : State × Bool :=
  let was := s.franking.failing
  let (s, ok) := frankWrite s code strict offline data serial c
  if !ok && was ≠ 0 && !s.storeFenced then (storeFault s, false) else (s, ok)

/-- STRICT as it stands for an event that no bind brings (Table 16-7): in effect for the bound Folio, otherwise for the last
franked bind (R66). -/
def State.strictNow (s : State) : Bool := if s.boot.folio.isSome then s.boot.strictEffective else s.page.lastStrict

/-- Franks a seal change to the pin's level (R499). -/
def frankSeal (s : State) (open_ offline : Bool) : State :=
  (frank s (if open_ then 3 else 4) s.strictNow offline [] 0 { sealOpen := some open_ }).1

end Sys2Proof.Machine
end

