-- ==== Sys2Proof/Machine/Views.lean ====
section
/-!
DEFINITION. The stamp of Table 09-1; what the core sees of one channel in one frame (R187, R536): the condition view at the tick and the changes of the
frame, and which frames of a channel, an input or a unit are INVALID (R488).
-/
namespace Sys2Proof.Machine

/-! ## Stamps as they cross the barrier (R288) -/

/-- A stamp's word (Table 09-1). -/
def stampWord (lane c off : Nat) (rise brk : Bool) : BitVec 64 :=
  BitVec.ofNat 64 (off + c % 64 * 2 ^ 32 + b2n (!rise) * 2 ^ 38 + b2n brk * 2 ^ 39 + lane % 8 * 2 ^ 40)

/-- OFFSET, EDGE as rise, and BREAK of a stamp's word (Table 09-1). -/
def stampOffset (w : BitVec 64) : Nat := w.toNat % 2 ^ 32
def stampRise (w : BitVec 64) : Bool := !bit w.toNat 38
def stampBreak (w : BitVec 64) : Bool := bit w.toNat 39

/-- Stamps that the lane dropped of a channel in the frame (R291). -/
def LandedChan.stampsDropped (l : LandedChan) : Nat := l.stampsLost.length

/-- A sampled channel: TIMING or CLOCKED, its STORAGE not TRANSITIONS (R185). MODE 0 is OFF; STORAGE 3 is TRANSITIONS
(Table 04-11). -/
def ChanQ.sampled (q : ChanQ) : Bool := q.mode ≠ 0 && q.storage ≠ 3

/-- A TRANSITIONS channel. -/
def ChanQ.trans (q : ChanQ) : Bool := q.mode ≠ 0 && q.storage = 3

/-- The view of one channel in one frame: the zone or bit at the tick, and its changes (OFFSET, value after). `fresh`: no sample of it is
known from before the frame. -/
structure ChanView where
  trans : Bool
  fresh : Bool
  init  : Nat
  changes : List (Nat × Nat)

/-- The samples at which a sampled channel's bit differs from the sample before (R196). -/
def bitChanges : Option Bool → List (Nat × Bool × Nat) → List (Nat × Nat)
  | _, [] => []
  | none, (_, b, _) :: l => bitChanges (some b) l
  | some p, (o, b, _) :: l => if p = b then bitChanges (some b) l else (o, b2n b) :: bitChanges (some b) l

/-- What landed for a channel in a frame. -/
def FrameSet.chan (f : FrameSet) (c : Nat) : LandedChan := tget {} f.chans c

/-- The condition view of channel `c` in a landed frame (R187, R536). The first sample that is known of a sampled channel has none before it:
it sets the view and is no change (R196), and until it comes the view is what it will show; with no sample in or before the frame it is low
(DESIGN CHOICE, log entry 29). -/
def viewOf (q : Folio) (f : FrameSet) (c : Nat) : ChanView :=
  let l := f.chan c
  if (q.chan c).trans then { trans := true, fresh := false, init := l.zone0, changes := l.entries }
  else
    let first := (l.samples.head?).map (·.2.1)
    { trans := false, fresh := l.last0.isNone, init := b2n ((l.last0.orElse (fun _ => first)).getD false)
      changes := bitChanges l.last0 l.samples }

/-- The comparator that COMP names, in a view's value (R187): HI is high in zone 0b11, LO in zones 0b01 and 0b11. -/
def cmpOf (trans comp : Bool) (v : Nat) : Bool := if trans then (if comp then v ≠ 0 else v = 3) else v = 1

/-- The changes of one comparator among changes of the view, from the value before them. A kept change into the zone that the view already
shows, as SLOPE may leave one, changes no comparator: the spec does not say (DESIGN CHOICE, log entry 29). -/
def cmpChanges (trans comp : Bool) : Nat → List (Nat × Nat) → List (Nat × Bool)
  | _, [] => []
  | v, (p, w) :: l =>
    if cmpOf trans comp v = cmpOf trans comp w then cmpChanges trans comp w l
    else (p, cmpOf trans comp w) :: cmpChanges trans comp w l

/-- The value after the last of some changes. -/
def lastVal (v : Nat) (l : List (Nat × Nat)) : Nat := (l.getLast?.map (·.2)).getD v

/-! ## Validity of a frame's sources -/

/-- Group `g`'s frame landed and is valid (R101, R488). -/
def groupValid (s : State) (f : FrameSet) (g : Nat) : Bool :=
  f.field && !f.invalid && f.groupsOk.contains g && !unitBad s 0x01 g f.count

/-- Channel `c` carries valid data in a landed frame (R336, R488). -/
def chanValid (s : State) (f : FrameSet) (c : Nat) : Bool := groupValid s f (c / 64) && !f.badChans.contains c

/-- Channel `c`'s envelopes and outputs of the frame carry BUDGET_OVERRUN (R164, R165). -/
def chanOver (f : FrameSet) (c : Nat) : Bool := (f.chan c).dropped ≠ 0

/-- The landed frame with a count. -/
def State.frameAt? (s : State) (c : Nat) : Option FrameSet := s.frames.find? (fun f => f.count = c)

/-- Completes the indices of the channels clocked by another channel, as frame `f` is worked (R157): their samples count only in frames
that carry the group's data, in the order of the frames. -/
def indexSamples (s : State) (f : FrameSet) : State × FrameSet :=
  (f.chans.map (·.1)).foldl (fun acc c =>
    let q := s.cfg.chan c
    if q.mode ≠ 2 || 64 ≤ q.clockSrc then acc
    else
      let base := tget 0 acc.1.field.taken c
      let l := acc.2.chan c
      ({ acc.1 with field := { acc.1.field with
          taken := if groupValid s f (c / 64) then tput acc.1.field.taken c (base + l.samples.length) else acc.1.field.taken } },
       { acc.2 with chans := tput acc.2.chans c { l with samples := l.samples.map (fun x => (x.1, x.2.1, x.2.2 + base)) } })) (s, f)

/-! ## Sample rates -/

/-- DIV of MCLKk of group `g` in FIELD (Table 04-10); 0 is gated. -/
def Folio.fieldDiv (q : Folio) (g k : Nat) : Nat := ((((q.group? g).map GroupQ.mclk).getD []).getD k {}).div

/-- DIV of MCLKk of group `g` under a clock plan (R446, R456): the plan's own, or FIELD's where the plan says so, has no entry,
or FIELD gates the output. -/
def Folio.planDiv (q : Folio) (plan g k : Nat) : Nat :=
  let d := q.fieldDiv g k
  if d = 0 then 0
  else match q.plan? plan with
    | none => d
    | some e => let v := e.mclkDiv.getD (4 * g + k) 0xFFFF; if v = 0xFFFF then d else v

/-- Stands for the fastest of the declared plans, output by output, at which admission is worked (R447). -/
def planMax : Nat := 0xFF

/-- DIV of MCLKk of group `g` under a plan, or the smallest over the plans (R447). -/
def Folio.mclkDiv (q : Folio) (plan g k : Nat) : Nat :=
  if plan = planMax then (q.clocks.plans.map (fun p => q.planDiv p.plan g k)).foldl min (q.fieldDiv g k)
  else q.planDiv plan g k

/-- The sample rate of a channel as its mode declares it (Table 05-1), as a fraction in Hz: a TIMING channel, a CLOCKED channel
with an MCLK source, which gives none where it is gated, or one with a channel clock source. CLOCK_SRC is 0 to 63 for a channel of the group and 0x40 to 0x43 for
MCLK0 to MCLK3 (Table 04-11). -/
def chanRate (q : Folio) (plan c : Nat) : Nat × Nat :=
  let e := q.chan c
  if e.mode = 1 then (500000000, 2 ^ e.rateK)
  else if e.mode = 2 then
    (if e.clockSrc < 64 then (e.clockHz, 1) else match q.mclkDiv plan (c / 64) (e.clockSrc - 64) with
      | 0 => (0, 1)
      | d => (500000000, d))
  else (0, 1)

/-- Whether one rate is above another. -/
def rateAbove (a b : Nat × Nat) : Bool := b.1 * a.2 < a.1 * b.2

/-- Grid samples before frame `c`. -/
def gridOf (s : State) (c : Nat) : Nat := c * s.spf

/-- The placement of frame `c`'s tick, in pu from t_0. -/
def placeOf (s : State) (c : Nat) : Nat := c * s.spacing

/-- The edges of a run: (OFFSET, index). -/
def EdgeRun.edges (r : EdgeRun) : List (Nat × Nat) := (List.range r.n).map (fun i => (r.off + i * r.per, r.j + i))

/-- The located MCLK edges of a frame for an output and direction, in order (R154). -/
def FrameSet.mclkEdges (f : FrameSet) (g k : Nat) (falling : Bool) : List (Nat × Nat) :=
  (tget [] f.mclk (8 * g + 2 * k + b2n falling)).flatMap (·.edges)

end Sys2Proof.Machine
end

