-- ==== Sys2Proof/Machine/Reduce.lean ====
section
/-!
DEFINITION. Reduction instances (R258 to R270): inputs, the output grid, starts and settling, the five kinds; group delay; and
weigh sums (R271 to R273), as the work window of a frame computes them.
-/
namespace Sys2Proof.Machine

/-! ## Inputs -/

/-- Channel of an instance. -/
def RedQ.chan (q : RedQ) : Nat := q.red / 4

/-- A chained instance, and its input's number (Table 08-2). -/
def RedQ.chained (q : RedQ) : Bool := 0x20 ≤ q.input
def RedQ.source (q : RedQ) : Nat := 4 * (q.red / 4) + (q.input - 0x20)

/-- A pick. -/
def RedQ.pick (q : RedQ) : Bool := 0x10 ≤ q.input && q.input ≤ 0x13

/-- A transition input. -/
def RedQ.transIn (f : Folio) (q : RedQ) : Bool := q.input = 0 && (f.chan q.chan).trans

/-- The bit of the latest sample at or before each of some instants, both in order (R259). -/
def pickBits : Option Bool → List (Nat × Bool × Nat) → List (Nat × Nat) → Nat → List (Nat × Bool × Nat)
  | _, _, [], _ => []
  | _, _, _, 0 => []
  | p, (o, b, j) :: l, (e, i) :: es, k + 1 =>
    if o ≤ e then pickBits (some b) l ((e, i) :: es) k
    else (match p with
      | some x => (e, x, i) :: pickBits p ((o, b, j) :: l) es k
      | none => pickBits p ((o, b, j) :: l) es k)
  | p, [], (e, i) :: es, k + 1 =>
    (match p with
      | some x => (e, x, i) :: pickBits p [] es k
      | none => pickBits p [] es k)

/-- The bit inputs of an instance in a frame: (OFFSET, bit, index). -/
def bitInputs (f : FrameSet) (q : RedQ) : List (Nat × Bool × Nat) :=
  let l := f.chan q.chan
  if q.pick then
    let es := f.mclkEdges (q.chan / 64) (q.input - 0x10) q.pickFalling
    pickBits l.last0 l.samples es (l.samples.length + es.length + 1)
  else l.samples

/-- The index range [lo, hi) of the inputs that a frame holds for an instance, whether or not they are valid (R260). `src` is
the input instance's frame. -/
def inputRange (s : State) (f : FrameSet) (q : RedQ) (src : FrameOut) : Nat × Nat :=
  if q.chained then (src.firstIndex, src.firstIndex + src.count)
  else if q.pick then
    let es := f.mclkEdges (q.chan / 64) (q.input - 0x10) q.pickFalling
    match es.head? with
    | some (_, j) => (j, j + es.length)
    | none => (0, 0)
  else
    let c := s.cfg.chan q.chan
    if c.trans then (gridOf s f.count, gridOf s (f.count + 1))
    else if c.mode = 1 then
      let p := 2 ^ c.rateK
      (cdiv (gridOf s f.count) p, cdiv (gridOf s (f.count + 1)) p)
    else if 64 ≤ c.clockSrc then
      let es := f.mclkEdges (q.chan / 64) (c.clockSrc - 64) c.clockFalling
      match es.head? with
      | some (_, j) => (j, j + es.length)
      | none => (0, 0)
    else
      let l := (f.chan q.chan).samples
      match l.head? with
      | some (_, _, j) => (j, j + l.length)
      | none => (0, 0)

/-- The number of grid points d·D + phase below an index. -/
def gridBelow (j d phase : Nat) : Nat := if j ≤ phase then 0 else cdiv (j - phase) (max d 1)

/-- The output range [lo, hi) of a decimation of an input range (R260). -/
def outRange (r : Nat × Nat) (d phase : Nat) : Nat × Nat :=
  if r.1 = r.2 then (0, 0) else (gridBelow r.1 d phase, gridBelow r.2 d phase)

/-! ## The kinds -/

/-- Coefficient `i` of the k-fold convolution of D ones (R262), by inclusion and exclusion. -/
def sincTap (k d i : Nat) : Int :=
  (List.range (k + 1)).foldl (fun a t =>
    if i < t * d then a
    else a + (if t % 2 = 0 then 1 else -1) * (Nat.choose k t * Nat.choose (i - t * d + k - 1) (k - 1) : Nat)) 0

/-- The value of input `j` among inputs listed latest first. -/
def inputAt (l : List (Nat × Int × Nat)) (j : Nat) : Int := ((l.find? (fun e => e.1 = j)).map (·.2.1)).getD 0

/-- The inputs with index in [lo, hi], latest first. -/
def inputsIn (l : List (Nat × Int × Nat)) (lo hi : Int) : List (Nat × Int × Nat) :=
  l.filter (fun e => decide (lo ≤ e.1) && decide ((e.1 : Int) ≤ hi))

/-- The sinc output at input `j` (R262). -/
def sincAt (q : RedQ) (l : List (Nat × Int × Nat)) (j : Nat) : Int :=
  (inputsIn l ((j : Int) - q.order * (q.d - 1)) j).foldl (fun a e => a + sincTap q.order q.d (j - e.1) * e.2.1) 0

/-- Scaling with saturation (R263). -/
def sincScale (y : Int) (shift : Nat) : Int × Bool :=
  satIntB 32 (if shift = 0 then y else fdiv (y + (2 ^ (shift - 1) : Nat)) (2 ^ shift : Nat))

/-- A Q2.22 sum narrowed to s32 (R264, R272). -/
def q22 (acc : Int) : Int × Bool := satIntB 32 (fdiv (acc + 2 ^ 21) (2 ^ 22))

/-- The length of an output's window in inputs (R261). -/
def RedQ.windowLen (q : RedQ) : Nat :=
  if q.kind = 1 then q.order * (q.d - 1) + 1 else if q.kind = 2 || q.kind = 3 then q.window else q.d

/-- The first input of the window of the output whose last input is `j`. -/
def RedQ.windowFrom (q : RedQ) (j : Nat) : Int := (j : Int) - q.windowLen + 1

/-- The changes of a bit input among inputs listed latest first, in [lo, hi], in MODE's direction (R265): each input is compared
with the one before it, and the first since the start is never a change. -/
def bitEdges (mode : Nat) (lo hi : Int) : List (Nat × Int × Nat) → Nat
  | [] => 0
  | [_] => 0
  | a :: b :: l =>
    let here := decide (lo ≤ a.1) && decide ((a.1 : Int) ≤ hi) &&
      ((mode ≠ 1 && b.2.1 < a.2.1) || (mode ≠ 0 && a.2.1 < b.2.1))
    b2n here + bitEdges mode lo hi (b :: l)

/-- High time in pu within [lo, hi) of levels listed latest first by placement (Table 08-3). -/
def highTime (lo hi : Int) : List (Nat × Int × Nat) → Int
  | [] => 0
  | e :: l =>
    let from_ := max lo (e.1 : Int)
    (if e.2.1 = 1 && decide (from_ < hi) then hi - from_ else 0) + highTime lo (min hi e.1) l

/-- The output of a kind other than SINC at input `j`, before saturation (Table 08-3). -/
def otherAt (q : RedQ) (trans : Bool) (l : List (Nat × Int × Nat)) (j : Nat) : Int :=
  let lo := q.windowFrom j
  let w := inputsIn l lo j
  match q.kind with
  | 2 =>
    let sum := w.foldl (fun a e => a + e.2.1) 0
    if q.chained then divUp sum (max q.window 1) else divUp (sum * 2 ^ 30) (max q.window 1)
  | 3 =>
    let x := (w.head?.map (·.2.1)).getD 0
    let mx := w.foldl (fun a e => max a e.2.1) x
    let mn := w.foldl (fun a e => min a e.2.1) x
    if q.mode = 0 then mx else if q.mode = 1 then mn else mx - mn
  | 4 =>
    if trans then
      ((l.filter (fun e => e.2.2 = 1 && decide (lo ≤ (e.1 / 32 : Nat)) && decide (e.1 / 32 ≤ j) &&
        ((q.mode ≠ 1 && e.2.1 = 1) || (q.mode ≠ 0 && e.2.1 = 0)))).length : Nat)
    else bitEdges q.mode lo j l
  | 5 =>
    if trans then divUp (highTime (32 * lo) (32 * (j + 1)) l * 2 ^ 31) (32 * max q.d 1)
    else divUp ((w.filter (fun e => e.2.1 = 1)).length * 2 ^ 31) (max q.d 1)
  | _ => 0

/-! ## One frame of an instance -/

/-- A bit as an input value: ±1, or for EDGE_COUNT and DUTY 0 and 1 (R259, Table 08-3). -/
def bitValue (q : RedQ) (b : Bool) : Int := if q.kind = 4 || q.kind = 5 then b2n b else if b then 1 else -1

/-- The inputs of a frame, oldest first: index, value, placement in pu from t_0. For a transition input: placement, level, and
whether it is a change; the level at the tick is taken up first where it differs (R536). -/
def frameInputs (s : State) (f : FrameSet) (q : RedQ) (src : FrameOut) (e : Red) : List (Nat × Int × Nat) :=
  let base := placeOf s f.count
  if q.chained then src.items.map (fun o => (o.m, o.value, o.at_))
  else if q.transIn s.cfg then
    let v := viewOf s.cfg f q.chan
    let lvl : Int := b2n (cmpOf true q.comp v.init)
    let corr := if (e.inputs.head?.map (·.2.1)) = some lvl then [] else [(base, lvl, 0)]
    corr ++ (cmpChanges true q.comp v.init v.changes).map (fun x => (base + x.1, (b2n x.2 : Int), 1))
  else (bitInputs f q).map (fun x => (x.2.2, bitValue q x.2.1, base + x.1))

/-- Keeps what a later window may need of the inputs listed latest first: as many as the window holds and one before, or, of a
transition input, those placed in the window and one before. -/
def trimInputs (q : RedQ) (trans : Bool) (l : List (Nat × Int × Nat)) (next : Nat) : List (Nat × Int × Nat) :=
  if trans then
    let lo := 32 * (next - q.windowLen)
    let (a, b) := l.span (fun e => lo < e.1)
    a ++ b.take 1
  else l.take (q.windowLen + 1)

/-- The outputs of a frame at input indices j_m, m in [lo, hi), for an instance without FIR. -/
def plainOuts (s : State) (q : RedQ) (trans : Bool) (start : Nat) (l : List (Nat × Int × Nat)) (lo hi : Nat) :
    List (Option OutItem) :=
  (upFrom lo (hi - lo)).map fun m =>
    let j := m * q.d + q.phase
    if q.windowFrom j < start then none
    else
      let (v, sat) := if q.kind = 1 then sincScale (sincAt q l j) q.shift else satIntB 32 (otherAt q trans l j)
      let at_ := if trans then 32 * j else ((l.find? (fun e => e.1 = j)).map (·.2.2)).getD (placeOf s 0)
      some { m := m, value := v, at_ := at_, sat := sat }

/-- The FIR outputs q in [lo, hi) of a SINC, from the scaled sinc outputs, latest first, with their placements (R264). -/
def firOuts (q : RedQ) (fir : List (Nat × Int × Bool)) (at_ : Nat → Nat) (lo hi : Nat) : List (Option OutItem) :=
  (upFrom lo (hi - lo)).map fun n =>
    let m := n * q.firD + q.firD - 1
    let w := fir.filter (fun e => e.1 ≤ m && m < e.1 + q.coef.length)
    if w.length = q.coef.length then
      let acc := w.foldl (fun a e => a + q.coef.getD (m - e.1) 0 * e.2.1) 0
      let (v, sat) := q22 acc
      some { m := n, value := v, at_ := at_ m, sat := sat || w.any (·.2.2) }
    else none

/-- The stream's outputs on the grid in a frame (R260): the first index and how many. -/
def gridOuts (q : RedQ) (r : Nat × Nat) : Nat × Nat :=
  let o := outRange r q.d q.phase
  if q.kind = 1 && !q.coef.isEmpty then outRange o q.firD (q.firD - 1) else o

/-- The input of an instance is valid in the frame (R261). -/
def inputValid (s : State) (f : FrameSet) (q : RedQ) (src : FrameOut) : Bool :=
  if q.chained then src.valid else chanValid s f q.chan

/-- The instance's lane serves it in the frame (R269, R488): it has a lane now, and no fault touches that lane's frame. -/
def laneServes (s : State) (f : FrameSet) (r : Nat) : Bool :=
  match tget? s.rings.redLane r with
  | some l => !unitBad s 0x04 l f.count
  | none => false

/-- The index of the first input that a frame gives: a pick has none at an edge before which no sample is in hand (R259, R261). -/
def firstInput (f : FrameSet) (q : RedQ) (r : Nat × Nat) : Option Nat :=
  if q.pick then (bitInputs f q).head?.map (·.2.2) else if r.1 < r.2 then some r.1 else none

/-- One frame of an instance (R258 to R265). `src` is what its input instance gave in the frame. A start in a frame without inputs waits
for the first input, and a pick's for the first edge with a sample at or before it. FIRST_INDEX of an invalid frame is the index of the first
output that it would have held (DESIGN CHOICE, assumption 29). -/
def redFrame (s : State) (f : FrameSet) (q : RedQ) (src : FrameOut) (e : Red) : Red :=
  let trans := q.transIn s.cfg
  let r := inputRange s f q src
  let g := gridOuts q r
  let count := g.2 - g.1
  let over_ := if q.chained then src.budget else chanOver f q.chan
  let base : FrameOut := { count := count, firstIndex := g.1, budget := over_ }
  if !inputValid s f q src || !laneServes s f q.red then
    let settling := q.chained && src.settling && laneServes s f q.red
    { e with startIn := none, inputs := [], fir := [], settled := false, state := if settling then 1 else 3
             out := { base with settling := settling }, last := none, prior := none }
  else
    let e := if e.startIn.isNone || e.startAt.contains f.count then
        { e with startIn := firstInput f q r, startAt := e.startAt.filter (fun c => decide (f.count < c)), inputs := [], fir := [], settled := false, last := none, prior := none }
      else e
    let start := e.startIn.getD r.2
    let l := (frameInputs s f q src e).reverse ++ e.inputs
    let sinc := outRange r q.d q.phase
    let hasFir := q.kind = 1 && !q.coef.isEmpty
    let plain := plainOuts s q trans start l sinc.1 sinc.2
    let fir := if hasFir then ((plain.filterMap id).map (fun o => (o.m, o.value, o.sat))).reverse ++ e.fir else []
    let at_ (m : Nat) : Nat := ((plain.filterMap id).find? (fun o => o.m = m)).elim 0 (·.at_)
    let outs := if hasFir then firOuts q fir at_ g.1 g.2 else plain
    let good := outs.all (·.isSome)
    let settled := e.settled || outs.any (·.isSome)
    let valid := if count = 0 then settled else good
    let items := if valid then outs.filterMap id else []
    let e := { e with inputs := trimInputs q trans l r.2, fir := fir.take q.coef.length, settled := settled
                      state := if valid then 2 else 1, sat := e.sat || items.any (·.sat)
                      out := { base with valid := valid, settling := !valid, items := items } }
    if valid then e else { e with last := none, prior := none }

/-- Every instance of the frame, in index order, so that a chained instance follows its input (R268). -/
def redsFrame (s : State) (f : FrameSet) : State :=
  s.cfg.reds.foldl (fun s q =>
    let src := if q.chained then (tget {} s.proc.reds q.source).out else {}
    { s with proc := { s.proc with reds := tmod {} s.proc.reds q.red (redFrame s f q src) } }) s

/-! ## Weigh sums -/

/-- The sum, limit and measure engine serves the frame (R488). -/
def engineServes (s : State) (f : FrameSet) : Bool := !unitBad s 0x05 0 f.count

/-- The outputs of a weigh sum's inputs that wait, with those of the frame. -/
def sumHeld (ins : List (FrameOut × Int)) (held : List (List (OutItem × Bool))) : List (List (OutItem × Bool)) :=
  ins.zipIdx.map (fun e => held.getD e.2 [] ++ e.1.1.items.map (fun o => (o, e.1.1.budget)))

/-- Every input has given its output `m`. -/
def sumReady (held : List (List (OutItem × Bool))) (m : Nat) : Bool := held.all (fun l => l.any (fun o => o.1.m = m))

/-- How far each input's outputs reached before a frame, and reach with it; a frame whose first index and number are 0 tells nothing. -/
def sumEnds (ins : List (FrameOut × Int)) (ends : List (Option Nat)) : List (Option Nat × Option Nat) :=
  ins.zipIdx.map (fun e =>
    let o := e.1.1
    let old := ends.getD e.2 none
    if o.firstIndex + o.count = 0 then (old, old) else (old.orElse (fun _ => some o.firstIndex), some (o.firstIndex + o.count)))

/-- The outputs [lo, hi) of a sum that belong to a frame: those whose last input the grids place in it (R261, R271). -/
def sumRange (l : List (Option Nat × Option Nat)) : Nat × Nat :=
  if l.all (fun e => e.1.isSome && e.2.isSome) then (((l.filterMap (·.1)).min?).getD 0, ((l.filterMap (·.2)).min?).getD 0) else (0, 0)

/-- Output `m` of each input. -/
def sumInputs (held : List (List (OutItem × Bool))) (m : Nat) : List (OutItem × Bool) :=
  held.filterMap (fun l => l.find? (fun o => o.1.m = m))

/-- Output `m` of a weigh sum (R271, R272). -/
def sumItem (q : SumQ) (here : List (OutItem × Bool)) (m : Nat) : OutItem :=
  let acc := (here.zip q.inputs).foldl (fun a i => a + i.2.2 * i.1.1.value) (q.offset * 2 ^ 22)
  let r := q22 acc
  { m := m, value := r.1, at_ := here.foldl (fun a i => max a i.1.at_) 0, sat := r.2 }

/-- One frame of a weigh sum (R271 to R273). An output belongs to the frame that gives its last input. A frame in which every input is valid, but
an output lacks an input of an earlier, invalid frame, is settling (DEDUCED from R261, log entry 29). -/
def sumFrame (s : State) (f : FrameSet) (q : SumQ) (w : Ws) : Ws :=
  let ins := q.inputs.map (fun i => ((tget {} s.proc.reds i.1).out, i.2))
  let mask := ofBits (ins.map (fun i => !i.1.valid))
  let eng := engineServes s f
  let ends := sumEnds ins w.ends
  let lo := (sumRange ends).1
  let hi := (sumRange ends).2
  let held : List (List (OutItem × Bool)) := sumHeld ins w.held
  let ms : List Nat := upFrom lo (hi - lo)
  let base : FrameOut := { count := hi - lo, firstIndex := lo, faultMask := mask, budget := ins.any (fun i => i.1.budget) }
  let w : Ws := { w with ends := ends.map (·.2), held := held.map (fun l => l.filter (fun o => decide (hi ≤ o.1.m))) }
  if mask ≠ 0 || !eng || !ms.all (sumReady held) then
    let settling := eng && ins.all (fun i => i.1.valid || i.1.settling)
    { w with invalid := true, out := { base with settling := settling }, last := none, prior := none }
  else
    -- an input that has started again starts the sum's outputs again (R261)
    let fresh := q.inputs.any (fun i => (tget {} s.proc.reds i.1).last.isNone)
    let w : Ws := if fresh then { w with last := none, prior := none } else w
    let items : List OutItem := ms.map (fun m => sumItem q (sumInputs held m) m)
    { w with invalid := false, value := (items.getLast?.map (·.value)).getD w.value, sat := w.sat || items.any (·.sat)
             out := { base with valid := true, items := items
                                budget := base.budget || ms.any (fun m => (sumInputs held m).any (·.2)) } }

/-- Every weigh sum of the frame. -/
def sumsFrame (s : State) (f : FrameSet) : State :=
  s.cfg.sums.foldl (fun s q =>
    { s with proc := { s.proc with sums := tmod {} s.proc.sums q.ws (sumFrame s f q) } }) s

/-- The latest two of the outputs so far. -/
def lastTwo (last prior : Option OutItem) (items : List OutItem) : Option OutItem × Option OutItem :=
  match items.reverse with
  | a :: b :: _ => (some a, some b)
  | [a] => (some a, last)
  | [] => (last, prior)

/-- Takes up the frame's outputs as the latest ones, after everything of the frame has read them (R202). -/
def keepOutputs (s : State) : State :=
  { s with proc := { s.proc with
    reds := tmap s.proc.reds (fun _ e =>
      let (a, b) := lastTwo e.last e.prior e.out.items
      { e with last := a, prior := b })
    sums := tmap s.proc.sums (fun _ e =>
      let (a, b) := lastTwo e.last e.prior e.out.items
      { e with last := a, prior := b }) } }

/-! ## Group delay -/

/-- Input rate of an instance, as a fraction in Hz (Table 08-2): `fuel` bounds the chain, which has at most four members. -/
def redRate (q : Folio) (plan : Nat) : Nat → RedQ → Nat × Nat
  | 0, _ => (0, 1)
  | k + 1, e =>
    if e.chained then
      match q.red? e.source with
      | none => (0, 1)
      | some x =>
        let r := redRate q plan k x
        (r.1, r.2 * max 1 x.d * (if x.coef.isEmpty then 1 else max 1 x.firD))
    else if e.pick then
      match q.mclkDiv plan (e.chan / 64) (e.input - 0x10) with
      | 0 => (0, 1)
      | d => (500000000, d)
    else if (q.chan e.chan).trans then (500000000, 1)
    else chanRate q plan e.chan

/-- Output rate of an instance (R267). -/
def redOutRate (q : Folio) (plan : Nat) (e : RedQ) : Nat × Nat :=
  let r := redRate q plan 4 e
  (r.1, r.2 * max 1 e.d * (if e.coef.isEmpty then 1 else max 1 e.firD))

/-- The FIR is symmetric (Table 08-4). -/
def RedQ.symmetric (e : RedQ) : Bool := e.coef == e.coef.reverse

/-- RD_DELAY in ns and RD_STAT.ASYM of an instance (R266). -/
def redDelay (q : Folio) (plan : Nat) : Nat → RedQ → Nat × Bool
  | 0, _ => (0, false)
  | k + 1, e =>
    let r := redRate q plan 4 e
    let halves := if e.kind = 1 then e.order * (e.d - 1) + (if e.coef.isEmpty || !e.symmetric then 0 else (e.coef.length - 1) * e.d)
      else if e.kind = 2 || e.kind = 3 then e.window - 1 else e.d - 1
    let own := if r.1 = 0 then 0 else (2 * (halves * r.2 * 1000000000) + 2 * r.1) / (4 * r.1)
    let asym := !e.coef.isEmpty && !e.symmetric
    match if e.chained then q.red? e.source else none with
    | some x => let (d, a) := redDelay q plan k x; (own + d, asym || a)
    | none => (own, asym)

end Sys2Proof.Machine
end

