-- ==== Sys2Proof/Machine/MeterEval.lean ====
section
/-!
DEFINITION. The interval meter in the work window of a frame (R296 to R306): results, breaks, blocks and their statistics.
Instants are contact-plane times in fu (1/256 pu) from t_0.
-/
namespace Sys2Proof.Machine

/-- CABLE_DELAY of a channel in fu. -/
def cableFu (q : Folio) (c : Nat) : Int := 256 * (q.chan c).cableDelay

/-- An edge direction is one that an EDGE field uses (Table 09-5): 0 rise, 1 fall, 2 either. -/
def edgeUsed (edge : Nat) (rise : Bool) : Bool := edge = 2 || (edge = 0 && rise) || (edge = 1 && !rise)

/-- One stamp as an entry meets it: instant, rise, BREAK, whether it is channel B's, and whether its lane dropped it (R291). -/
structure StampEv where
  t    : Int
  rise : Bool
  brk  : Bool
  isB  : Bool
  lost : Bool := false

/-- The stamps of a channel in a frame, then those that its lane dropped. -/
def stampsOf (s : State) (f : FrameSet) (c : Nat) (isB : Bool) : List StampEv :=
  let base : Int := 256 * placeOf s f.count
  (f.chan c).stamps.map (fun x => { t := base + stampOffset x, rise := stampRise x, brk := stampBreak x, isB := isB }) ++
    (f.chan c).stampsLost.map (fun x => { t := base + x, rise := false, brk := true, isB := isB, lost := true })

/-- Merges two lists of stamps in time order; at one instant B's comes first. -/
def mergeStamps : Nat → List StampEv → List StampEv → List StampEv
  | 0, a, b => a ++ b
  | _, [], b => b
  | _, a, [] => a
  | k + 1, x :: a, y :: b => if x.t < y.t then x :: mergeStamps k a (y :: b) else y :: mergeStamps k (x :: a) b

/-- Adds a result to the accumulator of R304. -/
def accAdd (m : Meas) (x : Int) : Meas :=
  let m := if m.k = 0 then { m with x0 := x, mn := x, mx := x, sum := 0, sq := 0, sqsat := false } else m
  let d := x - m.x0
  let p := d.natAbs * d.natAbs
  let over_ := m.sqsat || 2 ^ 80 - 1 < m.sq + p
  { m with sum := m.sum + d, sqsat := over_, sq := if over_ then m.sq else m.sq + p
           mn := min m.mn x, mx := max m.mx x, k := m.k + 1 }

/-- Closes a block of N results (R304). MEAN follows acc_close, which rounds the difference term SUM · 256 / N alone away from zero, also where
Table 09-4's Σx / N would round a tie the other way (DESIGN CHOICE, log entry 29). -/
def accClose (n : Nat) (m : Meas) (at_ cable : Int) : Meas :=
  let mean := m.x0 * 256 + divAway (m.sum * 256) (max n 1)
  let v := ((n * m.sq : Nat) - m.sum * m.sum).toNat * 65536
  let b : MBlock :=
    { at_ := at_, cable := cable, no := m.blocks, mean := mean
      std := if m.sqsat then 2 ^ 64 - 1 else sqrtDivRound v (max n 1)
      noStd := m.sqsat, mn := m.mn, mx := m.mx, budget := m.blkBudget, brk := m.blkBreak }
  { m with blks := m.blks ++ [b], blocks := m.blocks + 1, mean := mean, noStd := m.sqsat, k := 0
           blkBudget := false, blkBreak := false }

/-- Takes one result: its value, instant, the cable delay of its last stamp, and whether a stamp it uses came from a frame with
BUDGET_OVERRUN (R298, R303, R306). -/
def takeResult (q : MeasQ) (m : Meas) (x at_ cable : Int) (budget : Bool) : Meas :=
  let m := accAdd { m with results := m.results ++ [(at_, x)] } x
  let m := { m with blkBudget := m.blkBudget || budget }
  if q.n ≤ m.k then accClose q.n m at_ cable else m

/-- A break (R299): the partial span, the pending start or the bracketing B edge is discarded; a block in progress carries it. The A edges of
a PHASE entry that wait for their B period go with it, also those whose corrected instant lies after the break (DESIGN CHOICE,
assumption 29). -/
def takeBreak (m : Meas) (budget : Bool) : Meas :=
  { m with start := none, edges := 0, bEdges := [], aEdges := [], spanBudget := false
           breaks := m.breaks + 1, brk := true, breaksNow := m.breaksNow + 1
           blkBreak := m.blkBreak || m.k ≠ 0, blkBudget := m.blkBudget || (m.k ≠ 0 && budget) }

/-- The limit of R299 in fu. -/
def MeasQ.limit (q : MeasQ) : Int := 32 * 256 * q.timeout

/-- The span, start or B period in progress began at this instant. -/
def Meas.since (q : MeasQ) (m : Meas) : Option Int := if q.kind = 5 then m.bEdges.getLast?.map (·.1) else m.start

/-- A break where the span in progress is longer than TIMEOUT at an instant. -/
def breakIfLate (q : MeasQ) (m : Meas) (t : Int) (budget : Bool) : Meas :=
  match m.since q with
  | some t0 => if q.limit < t - t0 then takeBreak m budget else m
  | none => m

/-- The B edges b_k ≤ a′ < b_{k+1} that bracket an A edge, given corrected for the cable delays. -/
def bracket (a cb : Int) : List (Int × Bool) → Option ((Int × Bool) × (Int × Bool))
  | x :: y :: l => if x.1 - cb ≤ a && decide (a < y.1 - cb) then some (x, y) else bracket a cb (y :: l)
  | _ => none

/-- Resolves the A edges of a PHASE entry that are bracketed (R297). An A edge before the first B edge since the break has no
bracket and is dropped. -/
def resolvePhase (f : Folio) (q : MeasQ) (m : Meas) : Meas :=
  let ca := cableFu f q.chA
  let cb := cableFu f q.chB
  let l := m.aEdges
  l.foldl (fun m e =>
    let a := e.1 - ca - q.calOffset
    match bracket a cb m.bEdges with
    | some (x, y) =>
      let r := divUp (2 ^ 32 * (a - (x.1 - cb))) (max 1 (y.1 - x.1).toNat) % 2 ^ 32
      let m := { m with aEdges := m.aEdges.filter (fun z => z.1 ≠ e.1) }
      if y.1 < e.1 then takeResult q m r e.1 ca (e.2 || x.2 || y.2) else takeResult q m r y.1 cb (e.2 || x.2 || y.2)
    | none =>
      match m.bEdges.head? with
      | some x => if a < x.1 - cb then { m with aEdges := m.aEdges.filter (fun z => z.1 ≠ e.1) } else m
      | none => m) m

/-- One stamp of an entry (R297, R299). A stamp that the lane dropped is a break at its instant and nothing else.
POLARITY 0 of WIDTH is the high pulse (DESIGN CHOICE, log entry 29). -/
def takeStamp (f : Folio) (q : MeasQ) (budget : Bool) (m : Meas) (e : StampEv) : Meas :=
  let m := if e.brk then takeBreak m budget else m
  let used := if q.kind = 4 then !e.isB else edgeUsed (if e.isB then q.edgeB else q.edgeA) e.rise
  if !used || e.lost then m
  else match q.kind with
    | 1 =>
      let m := breakIfLate q m e.t budget
      if e.isB then
        match m.start with
        | some a =>
          if a < e.t then
            takeResult q { m with start := none, spanBudget := false }
              ((e.t - cableFu f q.chB) - (a - cableFu f q.chA) - q.calOffset) e.t (cableFu f q.chB) (m.spanBudget || budget)
          else m
        | none => m
      else { m with start := some e.t, spanBudget := budget }
    | 2 | 3 =>
      let m := breakIfLate q m e.t budget
      match m.start with
      | none => { m with start := some e.t, edges := 0, spanBudget := budget }
      | some a =>
        if q.cycles ≤ m.edges + 1 then
          let span := max 1 (e.t - a).toNat
          let x := if q.kind = 2 then divUp span (max 1 q.cycles) else divUp (q.cycles * 4096000000000000000) span
          takeResult q { m with start := some e.t, edges := 0, spanBudget := budget } x e.t (cableFu f q.chA)
            (m.spanBudget || budget)
        else { m with edges := m.edges + 1, spanBudget := m.spanBudget || budget }
    | 4 =>
      let m := breakIfLate q m e.t budget
      if e.rise != q.polarity then { m with start := some e.t, spanBudget := budget }
      else match m.start with
        | some a => takeResult q { m with start := none, spanBudget := false } (e.t - a) e.t (cableFu f q.chA)
            (m.spanBudget || budget)
        | none => m
    | 5 =>
      if e.isB then
        let m := breakIfLate q m e.t budget
        resolvePhase f q { m with bEdges := m.bEdges ++ [(e.t, budget)] }
      else resolvePhase f q { m with aEdges := m.aEdges ++ [(e.t, budget)] }
    | _ => m

/-- Drops B edges that no later A edge can be bracketed by: all but the last at or before a bound. -/
def pruneB (bound : Int) : List (Int × Bool) → List (Int × Bool)
  | x :: y :: l => if y.1 ≤ bound then pruneB bound (y :: l) else x :: y :: l
  | l => l

/-- The lane that serves a channel, by lane number 8·g + j, serves the frame (R295, R300). -/
def tdcServes (s : State) (f : FrameSet) (c : Nat) : Bool :=
  match tget? s.rings.tdcLane c with
  | some l => !unitBad s 0x02 l f.count
  | none => false

/-- A channel of an entry is valid in the frame (R300). -/
def measChanValid (s : State) (f : FrameSet) (c : Nat) : Bool :=
  groupValid s f (c / 64) && !f.badChans.contains (1024 + c) && tdcServes s f c

/-- One frame of an entry (R296 to R306). -/
def measFrame (s : State) (f : FrameSet) (q : MeasQ) (m : Meas) : Meas :=
  let two := q.kind = 1 || q.kind = 5
  let ok := measChanValid s f q.chA && (!two || measChanValid s f q.chB) && engineServes s f
  let overA := (f.chan q.chA).stampsDropped ≠ 0
  let overB := two && (f.chan q.chB).stampsDropped ≠ 0
  let budget := overA || overB
  let m := { m with results := [], blks := [], breaksNow := 0, newInvalid := false, overrun := m.overrun || budget }
  if !ok then
    let first := !(m.started && m.invalid)
    let m := takeBreak m budget
    let ab := m.k ≠ 0
    { m with started := true, invalid := true, newInvalid := first, state := 3
             abandoned := m.abandoned + b2n ab, abandonedSince := satAdd 32 m.abandonedSince (b2n ab)
             k := 0, blkBudget := false, blkBreak := false, latest := none, lastBlock := none, lastStd := none }
  else
    let m := if !m.started || m.invalid then takeBreak m budget else m
    let a := stampsOf s f q.chA false
    let b := if two then stampsOf s f q.chB true else []
    let m := (mergeStamps (a.length + b.length) a b).foldl (takeStamp s.cfg q budget) m
    let endT : Int := 256 * placeOf s (f.count + 1)
    let m := breakIfLate q m endT budget
    let m := { m with bEdges := pruneB (endT - cableFu s.cfg q.chA - q.calOffset + cableFu s.cfg q.chB) m.bEdges }
    { m with started := true, invalid := false
             state := if m.lastBlock.isSome || !m.blks.isEmpty then 2 else 1 }

/-- Every entry of the frame, with IM_DROP and IM_LANE_COLL (R291, R292). -/
def meterFrame (s : State) (f : FrameSet) : State :=
  let s := s.cfg.meas.foldl (fun s q =>
    { s with meter := { s.meter with entries := tmod {} s.meter.entries q.entry (measFrame s f q) } }) s
  let drops := f.chans.foldl (fun t e =>
    if e.2.stampsDropped = 0 then t
    else tmod (0, 0) t e.1 (fun d => (satAdd 16 d.1 1, min 65535 e.2.stampsDropped))) s.meter.drops
  let coll := f.coll.foldl (fun t e => tmod 0 t e.1 (fun n => satAdd 32 n e.2)) s.meter.coll
  { s with meter := { s.meter with drops := drops, coll := coll } }

/-- The outputs of a statistic in the frame (R303): instant and value, in order. A block without STD gives no STD. -/
def Meas.outputs (m : Meas) (stat : Nat) : List (Int × Int) :=
  match stat with
  | 0 => m.results
  | 1 => m.blks.map (fun b => (b.at_, b.mean))
  | 2 => m.blks.filterMap (fun b => if b.noStd then none else some (b.at_, (b.std : Int)))
  | 3 => m.blks.map (fun b => (b.at_, b.mn))
  | _ => m.blks.map (fun b => (b.at_, b.mx))

/-- The output of a statistic in force before the frame. -/
def Meas.before (m : Meas) (stat : Nat) : Option Int :=
  match stat with
  | 0 => m.latest.map (·.2)
  | 1 => m.lastBlock.map (·.mean)
  | 2 => m.lastStd
  | 3 => m.lastBlock.map (·.mn)
  | _ => m.lastBlock.map (·.mx)

/-- Takes up the frame's results as the latest ones. -/
def keepResults (s : State) : State :=
  { s with meter := { s.meter with entries := tmap s.meter.entries (fun _ m =>
      { m with latest := m.results.getLast?.orElse (fun _ => m.latest)
               lastBlock := m.blks.getLast?.orElse (fun _ => m.lastBlock)
               lastStd := ((m.outputs 2).getLast?.map (·.2)).orElse (fun _ => m.lastStd) }) } }

end Sys2Proof.Machine
end

