-- ==== Sys2Proof/Machine/SeqEval.lean ====
section
/-!
DEFINITION. Condition units (R185 to R209): the steps of a sequencer, the tracking of each condition and whether it matches at a
step, with its causing placement (R215). Grid samples are absolute, counted from t_0; placements are in pu from t_0.
-/
namespace Sys2Proof.Machine

/-! ## What a sequencer reads -/

/-- The channels that a mask of PATTERN names. -/
def maskChans (g mask : Nat) : List Nat := ((List.range 64).filter (fun k => bit mask k)).map (fun k => 64 * g + k)

/-- The channels that a condition reads (Table 06-4). -/
def CondQ.chans (q : CondQ) : List Nat :=
  if q.type = 1 then maskChans q.src q.a else if 2 ≤ q.type && q.type ≤ 6 then [q.src] else []

/-- The TRIG_IN inputs that a condition reads. -/
def CondQ.trigs (q : CondQ) : List Nat := if q.type = 0x0B then [q.src] else []

def SeqQ.chans (q : SeqQ) : List Nat := uniq (q.conds.flatMap (·.chans))
def SeqQ.trigs (q : SeqQ) : List Nat := uniq (q.conds.flatMap (·.trigs))

/-- The pacing channel (R185): the sampled channel of highest rate, the lowest number at equal rates. -/
def pacing (f : Folio) (plan : Nat) (q : SeqQ) : Option Nat :=
  (sortBy id (q.chans.filter (fun c => (f.chan c).sampled))).foldl (fun best c =>
    match best with
    | none => some c
    | some b => if rateAbove (chanRate f plan c) (chanRate f plan b) then some c else some b) none

/-- Merges two ascending lists, each number once. -/
def mergeAsc : Nat → List Nat → List Nat → List Nat
  | 0, a, b => a ++ b
  | _, [], b => b
  | _, a, [] => a
  | k + 1, x :: a, y :: b =>
    if x = y then mergeAsc k a (y :: b) else if x < y then x :: mergeAsc k a (y :: b) else y :: mergeAsc k (x :: a) b

/-- Removes neighbours that repeat. -/
def dedup : List Nat → List Nat
  | x :: y :: l => if x = y then dedup (y :: l) else x :: dedup (y :: l)
  | l => l

/-- The union of ascending lists. -/
def unionAsc (ls : List (List Nat)) : List Nat :=
  ls.foldl (fun a b => let b := dedup b; mergeAsc (a.length + b.length) a b) []

/-- The step samples of a sequencer in a frame, ascending (R185). -/
def stepsOf (s : State) (f : FrameSet) (q : SeqQ) : List Nat :=
  let pace := match pacing s.cfg f.plan q with
    | some c => (f.chan c).samples.map (fun x => x.1 / 32)
    | none => []
  let trans := (q.chans.filter (fun c => (s.cfg.chan c).trans)).map (fun c => (f.chan c).entries.map (fun x => x.1 / 32))
  let trig := q.trigs.map (fun k => (tget {} f.trig k).kept.map (fun x => x.1 / 32))
  unionAsc ([[0], pace] ++ trans ++ trig)

/-! ## One step as a condition meets it -/

/-- What a condition unit sees at one step. -/
structure StepIn where
  /-- The step's grid sample, and that of the sequencer's previous step. -/
  g     : Nat
  prev  : Option Nat
  /-- The first step of the frame. -/
  tick  : Bool
  /-- The sequencer as it stood before the step, or as held in DEAD (R189, R234). -/
  self  : SeqView
  /-- The other sequencers as they stood at the end of the previous step sample (R190). -/
  peers : Tbl Seq
  /-- Disciplined time at the start of the step sample, while the active domain is traced or coasting; and whether time stepped
  back at the frame's tick (R204, R205). -/
  disc  : Option Int
  back  : Bool

/-- The changes of a channel's view that a step takes up: those placed in its step sample, and on a sampled channel those since
the previous step (R185, R187). `carried` are the previous frame's changes, as placements. -/
def stepChanges (base : Nat) (i : StepIn) (tracking : Bool) (v : ChanView) (carried : List (Nat × Nat)) : List (Nat × Nat) :=
  let hi := 32 * (i.g + 1)
  let lo := if v.trans || !tracking then 32 * i.g
    else match i.prev with
      | some p => 32 * (p + 1)
      | none => 32 * i.g
  let old := if i.tick && tracking && !v.trans then carried.filter (fun x => lo ≤ x.1) else []
  old ++ ((v.changes.map (fun x => (base + x.1, x.2))).filter (fun x => lo ≤ x.1 && x.1 < hi))

/-- The previous frame's changes of a sampled channel, as placements. -/
def carriedChanges (s : State) (f : FrameSet) (c : Nat) : List (Nat × Nat) :=
  if (s.cfg.chan c).trans || f.count = 0 then []
  else match s.frameAt? (f.count - 1) with
    | some p => (viewOf s.cfg p c).changes.map (fun x => (placeOf s p.count + x.1, x.2))
    | none => []

/-- What a condition gives at a step: whether it matches, and its cause: the source as CAUSE_SRC names it, and the causing
placement, where it has one (R215). -/
structure CondOut where
  hit   : Bool := false
  cause : Option (Nat × Nat) := none

/-- A level condition's match (R192, R193). -/
def levelOut (q : CondQ) (st : CondSt) (v : Bool) (cause : Option (Nat × Nat)) : CondSt × CondOut :=
  let w := v != q.invert
  ({ st with prev := w }, { hit := if q.onset then w && !st.prev else w, cause := cause })

/-- The condition's tracking as a step begins: at the first step everything starts afresh (R193); at a tick a TRANSITIONS
channel's zone is taken up, and what it contradicts is discarded (R536). -/
def beginChan (q : CondQ) (i : StepIn) (v : ChanView) (st : CondSt) : CondSt :=
  if !st.tracking then { st with tracking := true, since := i.g, zone := v.init, pulse := none, mid := none, lastChange := none }
  else if i.tick && v.fresh then { st with zone := v.init }
  else if i.tick && v.trans && st.zone ≠ v.init then
    { st with zone := v.init, mid := none
              pulse := if cmpOf true q.comp st.zone = cmpOf true q.comp v.init then st.pulse else none }
  else st

/-- EDGE (R196): a change in the step sample itself. -/
def condEdge (q : CondQ) (i : StepIn) (v : ChanView) (ch : List (Nat × Nat)) (st : CondSt) : CondSt × CondOut :=
  let l := (cmpChanges v.trans q.comp st.zone ch).filter (fun x =>
    (q.mode = 2 || (q.mode = 0 && x.2) || (q.mode = 1 && !x.2)) && decide (32 * i.g ≤ x.1))
  ({ st with zone := lastVal st.zone ch }, { hit := !l.isEmpty, cause := l.head?.map (fun x => (q.src, x.1)) })

/-- The test of a pulse width (R197). -/
def widthHit (q : CondQ) (w : Nat) : Bool :=
  match q.mode with
  | 0 => w < 32 * q.a
  | 1 => 32 * q.a < w
  | 2 => 32 * q.a ≤ w && w ≤ 32 * q.b
  | _ => w < 32 * q.a || 32 * q.b < w

/-- PULSE_WIDTH (R197): the pulse in progress and the ending changes that match. -/
def pulseFold (q : CondQ) : Option Nat → List (Nat × Bool) → Option Nat × List Nat
  | p, [] => (p, [])
  | p, (t, lvl) :: l =>
    if lvl != q.polarity then pulseFold q (some t) l
    else
      let (p', hits) := pulseFold q none l
      match p with
      | some t0 => if widthHit q (t - t0) then (p', t :: hits) else (p', hits)
      | none => (p', hits)

/-- The match is at the step whose sample holds the ending change; with several in one step sample the first is the cause, where R215 speaks of
one (DESIGN CHOICE, log entry 29). -/
def condPulse (q : CondQ) (i : StepIn) (v : ChanView) (ch : List (Nat × Nat)) (st : CondSt) : CondSt × CondOut :=
  let (p, ends) := pulseFold q st.pulse (cmpChanges v.trans q.comp st.zone ch)
  let hits := ends.filter (fun t => decide (32 * i.g ≤ t))
  ({ st with pulse := p, zone := lastVal st.zone ch }, { hit := !hits.isEmpty, cause := hits.head?.map (fun t => (q.src, t)) })

/-- RUNT and SLEW over zone changes (R198, R199): the zone, the entry into 0b01 in progress, and the matching changes. -/
def zoneFold (q : CondQ) : Nat → Option (Nat × Nat) → List (Nat × Nat) → Option (Nat × Nat) × List Nat
  | _, mid, [] => (mid, [])
  | z, mid, (t, w) :: l =>
    if w = z then zoneFold q z mid l
    else if w = 1 then zoneFold q w (some (z, t)) l
    else
      let (m', hits) := zoneFold q w none l
      let hit : Bool :=
        if q.type = 4 then
          (match mid with
            | some (from_, _) => z = 1 && from_ = w && (q.mode = 2 || (q.mode = 0 && w = 0) || (q.mode = 1 && w = 3))
            | none => false)
        else
          let tau : Option Nat := if z = 1 then (match mid with
              | some (from_, p) => if from_ ≠ w then some (t - p) else none
              | none => none) else some 0
          match tau with
          | some d =>
            (q.mode = 0 && w = 3 && 32 * q.a < d) || (q.mode = 1 && w = 3 && d < 32 * q.a) ||
            (q.mode = 2 && w = 0 && 32 * q.a < d) || (q.mode = 3 && w = 0 && d < 32 * q.a)
          | none => false
      if hit then (m', t :: hits) else (m', hits)

/-- RUNT and SLEW (R198, R199); with several returning or completing changes in one step sample the first is the cause (DESIGN CHOICE, log
entry 29). -/
def condZone (q : CondQ) (ch : List (Nat × Nat)) (st : CondSt) : CondSt × CondOut :=
  let (m, hits) := zoneFold q st.zone st.mid ch
  ({ st with mid := m, zone := lastVal st.zone ch }, { hit := !hits.isEmpty, cause := hits.head?.map (fun t => (q.src, t)) })

/-- TIMEOUT (R200). Where R536 corrects the level at a tick, the one match for a reference may come at a later step than the first at or after
s_r + A (DESIGN CHOICE, log entry 29). -/
def condTimeout (q : CondQ) (i : StepIn) (v : ChanView) (ch : List (Nat × Nat)) (st : CondSt) : CondSt × CondOut :=
  let l := cmpChanges v.trans q.comp st.zone ch
  let st := { st with zone := lastVal st.zone ch
                      lastChange := match l.getLast? with
                        | some x => some (x.1 / 32)
                        | none => st.lastChange }
  let ref := max (max (st.lastChange.getD st.since) st.since) i.self.entry
  let lvl := cmpOf v.trans q.comp st.zone
  let ok := ref + q.a ≤ i.g && st.matched ≠ some ref && (q.mode = 0 || (q.mode = 1 && lvl) || (q.mode = 2 && !lvl))
  (if ok then { st with matched := some ref } else st, { hit := ok })

/-- The changes of a channel's view in a step sample, whatever they change (R215). -/
def changesIn (base g : Nat) (v : ChanView) : List Nat :=
  (v.changes.map (fun x => base + x.1)).filter (fun t => 32 * g ≤ t && t < 32 * (g + 1))

/-- PATTERN (R195): the comparators of the group as bits of `zone`. Of two channels whose last changes share a placement the lower is the
source of the cause (DESIGN CHOICE, log entry 29). -/
def condPattern (s : State) (f : FrameSet) (base : Nat) (q : CondQ) (i : StepIn) (st : CondSt) : CondSt × CondOut :=
  let fresh := !st.tracking
  let r := (maskChans q.src q.a).foldl (fun (acc : Nat × Option (Nat × Nat)) c =>
    let v := viewOf s.cfg f c
    let k := c % 64
    let was := if fresh || (i.tick && (v.trans || v.fresh)) then cmpOf v.trans q.comp v.init else bit acc.1 k
    let ch := stepChanges base i (!fresh) v (carriedChanges s f c)
    let now := match ch.getLast? with
      | some x => cmpOf v.trans q.comp x.2
      | none => was
    let cause := match (changesIn base i.g v).getLast? with
      | some x => (match acc.2 with
          | some y => if y.2 < x then some (c, x) else some y
          | none => some (c, x))
      | none => acc.2
    (setBit acc.1 k now, cause)) (st.zone, none)
  let st := { st with tracking := true, zone := r.1, since := if fresh then i.g else st.since }
  levelOut q st (r.1 &&& q.a == q.b) r.2

/-! ## VALUE and MEASURE -/

/-- Becomes true, for the modes of Table 06-5; `p` is the output before. -/
def becomesTrue (mode : Nat) (a b : Int) (v : Int) (p : Option Int) : Bool :=
  match mode with
  | 0 => decide (a < v)
  | 1 => decide (v < a)
  | 2 => decide (a ≤ v) && decide (v ≤ b)
  | 3 => decide (v < a) || decide (b < v)
  | 4 => match p with
    | some x => decide (a < v - x)
    | none => false
  | _ => match p with
    | some x => decide (a < x - v)
    | none => false

/-- Becomes false, for the modes of Table 06-5. -/
def becomesFalse (mode : Nat) (a b : Int) (c : Nat) (v : Int) (p : Option Int) : Bool :=
  match mode with
  | 0 => decide (v < a - c)
  | 1 => decide (a + c < v)
  | 2 => decide (v < a - c) || decide (b + c < v)
  | 3 => decide (a + c ≤ v) && decide (v ≤ b - c)
  | m => !becomesTrue m a b v p

/-- The comparison's next state. -/
def compareStep (mode : Nat) (a b : Int) (c : Nat) (was : Bool) (v : Int) (p : Option Int) : Bool :=
  if was then !becomesFalse mode a b c v p else becomesTrue mode a b v p

/-- The outputs in force of a value source up to a placement: the latest, and the one before where that too has been in force since tracking
began at grid sample `since`: it has where the latest came after that step (R202). -/
def inForce (items : List OutItem) (last prior : Option OutItem) (since hi : Nat) : Option Int × Option Int :=
  let (a, b) := lastTwo last prior (items.filter (fun o => o.at_ ≤ hi))
  (a.map (·.value), if a.any (fun o => decide (32 * (since + 1) ≤ o.at_)) then b.map (·.value) else none)

/-- VALUE (R202, R203). -/
def condValue (s : State) (q : CondQ) (i : StepIn) (st : CondSt) : CondSt × CondOut :=
  let hi := 32 * i.g + 31
  let since := if st.tracking then st.since else i.g
  let (v, p) := if q.src / 2 ^ 24 = 1 then
      let e := tget {} s.proc.reds (q.src % 4096)
      inForce e.out.items e.last e.prior since hi
    else
      let e := tget {} s.proc.sums (q.src % 256)
      inForce e.out.items e.last e.prior since hi
  let was := st.tracking && st.level
  let now := match v with
    | some x => compareStep q.mode (sint 64 q.a) (sint 64 q.b) q.c was x p
    | none => false
  levelOut q { st with tracking := true, since := since, level := now } now none

/-- MEASURE (R202, R203). -/
def condMeasure (s : State) (q : CondQ) (i : StepIn) (st : CondSt) : CondSt × CondOut :=
  let m := tget {} s.meter.entries q.src
  let hi : Int := 256 * (32 * i.g + 32) - 1
  let v := ((m.outputs q.d).filter (fun x => decide (x.1 ≤ hi))).getLast?.map (·.2) |>.orElse (fun _ => m.before q.d)
  let was := st.tracking && st.level
  let now := match v with
    | some x => compareStep q.mode (sint 64 q.a) (sint 64 q.b) q.c was x none
    | none => false
  levelOut q { st with tracking := true, level := now } now none

/-! ## TIME, EXTERNAL, MAILBOX, SEQUENCER, COUNT -/

/-- TIME (R204, R205). -/
def condTime (q : CondQ) (i : StepIn) (st : CondSt) : CondSt × CondOut :=
  let fresh := !st.tracking
  let st := if fresh then { st with tracking := true, since := i.g, everyBase := none } else st
  match q.mode with
  | 0 =>
    let ok := i.self.entry + q.a ≤ i.g && st.matched ≠ some i.self.entry
    (if ok then { st with matched := some i.self.entry } else st, { hit := ok })
  | 1 =>
    let target : Int := (q.a * 1000000000 + q.c) * qNs
    let ok := !st.atDone && (match i.disc with
      | some t => decide (target ≤ t)
      | none => false)
    (if ok then { st with atDone := true } else st, { hit := ok })
  | _ =>
    let per : Int := q.a * 1000000 * qNs
    match i.disc with
    | none => ({ st with everyBase := none }, {})
    | some t =>
      let k := fdiv t (max per 1)
      let base := match st.everyBase with
        | some b => if i.back && i.tick then fdiv (t - 1) (max per 1) else b
        | none => fdiv (t - 1) (max per 1)
      let low := match st.every with
        | some e => max e base
        | none => base
      if low < k then ({ st with every := some k, everyBase := some base }, { hit := true })
      else ({ st with everyBase := some base }, {})

/-- EXTERNAL (R206): an event on a kept edge of the input in the step sample, or the input's level after it. -/
def condExternal (f : FrameSet) (base : Nat) (q : CondQ) (i : StepIn) (st : CondSt) : CondSt × CondOut :=
  let t := tget {} f.trig q.src
  let all := t.kept.map (fun x => (base + x.1, x.2))
  let here := all.filter (fun x => 32 * i.g ≤ x.1 && x.1 < 32 * (i.g + 1))
  let st := { st with tracking := true }
  if q.mode = 3 then
    let lvl := (((all.filter (fun x => x.1 < 32 * (i.g + 1))).getLast?).map (·.2)).getD t.lvl0
    levelOut q st lvl (here.getLast?.map (fun x => (0x1000 + q.src, x.1)))
  else
    let l := here.filter (fun x => q.mode = 2 || (q.mode = 0 && x.2) || (q.mode = 1 && !x.2))
    (st, { hit := !l.isEmpty, cause := l.head?.map (fun x => (0x1000 + q.src, x.1)) })

/-- MAILBOX (R207, R208). -/
def condMailbox (s : State) (q : CondQ) (st : CondSt) : CondSt × CondOut :=
  let w := tget 0 s.banks.mailbox q.src
  let v := match q.mode with
    | 0 => w &&& q.a == q.b
    | 1 => !(w &&& q.a == q.b)
    | _ => w &&& q.a != 0
  levelOut q { st with tracking := true } v none

/-- SEQUENCER (R209). -/
def condSequencer (q : CondQ) (i : StepIn) (st : CondSt) : CondSt × CondOut :=
  let st := if st.tracking then st else { st with tracking := true, since := i.g }
  let e := tget {} i.peers q.src
  match q.mode with
  | 0 => levelOut q st (e.st == SeqState.armed && e.view.level == q.a) none
  | 1 => levelOut q st (bit e.view.flags q.a) none
  | 2 => levelOut q st (e.st == SeqState.armed) none
  | _ =>
    let ok : Bool := match e.lastTrig, i.prev with
      | some t, some p => p ≤ t && t < i.g && st.since ≤ t
      | _, _ => false
    (st, { hit := ok })

/-- COUNT (R201). -/
def condCount (q : CondQ) (i : StepIn) (st : CondSt) : CondSt × CondOut :=
  let n := nth i.self.cnt q.src
  let v := match q.mode with
    | 0 => decide (q.a ≤ n)
    | 1 => decide (n = q.a)
    | _ => decide (n < q.a)
  levelOut q { st with tracking := true } v none

/-- One condition at one step (R188, R191): its tracking and what it gives. -/
def condStep (s : State) (f : FrameSet) (q : CondQ) (i : StepIn) (st : CondSt) : CondSt × CondOut :=
  let base := placeOf s f.count
  let chan (k : ChanView → List (Nat × Nat) → CondSt → CondSt × CondOut) : CondSt × CondOut :=
    let v := viewOf s.cfg f q.src
    let ch := stepChanges base i st.tracking v (carriedChanges s f q.src)
    k v ch (beginChan q i v st)
  match q.type with
  | 0x01 => condPattern s f base q i st
  | 0x02 => chan (condEdge q i)
  | 0x03 => chan (condPulse q i)
  | 0x04 => chan (fun _ => condZone q)
  | 0x05 => chan (condTimeout q i)
  | 0x06 => chan (fun _ => condZone q)
  | 0x07 => condCount q i st
  | 0x08 => condValue s q i st
  | 0x09 => condMeasure s q i st
  | 0x0A => condTime q i st
  | 0x0B => condExternal f base q i st
  | 0x0C => condMailbox s q st
  | _ => condSequencer q i st

end Sys2Proof.Machine
end

