-- ==== Sys2Proof/Machine/Sequencer.lean ====
section
/-!
DEFINITION. Sequencers (R178 to R184, R210 to R221) and their dead time (R231 to R235): arming, slots and actions, triggers,
re-arming, the commands, and the steps of one frame over all sequencers in order of step sample (R190).
-/
namespace Sys2Proof.Machine

/-- What a TRIGGER envelope reports (Table 06-10), with the trigger's absolute grid sample and its postmark. -/
structure TrigEvt where
  seq    : Nat
  level  : Nat
  slot   : Nat
  mask   : Nat
  tag    : Nat
  forced : Bool
  noEdge : Bool
  last   : Bool
  cause  : Nat
  abs    : Nat
  sample : Nat
  fine   : Nat
  cable  : Nat
  no     : Nat
  arming : Nat
  missed : Nat
  dead   : Nat
  view   : SeqView
  budget : Bool
  postmark : Postmark
  /-- A disarm of the same frame has ended its CONTINUOUS runs (R232). -/
  ended  : Bool := false

/-- What the sequencers do in one frame: triggers, EVT_PULSE requests (sequencer, output), and store gate changes (sequencer,
grid sample, on), oldest first. -/
structure SeqRun where
  trigs  : List TrigEvt := []
  pulses : List (Nat × Nat) := []
  gates  : List (Nat × Nat × Bool) := []

/-- Sequencer `q`'s state. -/
def State.seq (s : State) (q : Nat) : Seq := tget {} s.seqs q

def setSeq (s : State) (q : Nat) (e : Seq) : State := { s with seqs := tput s.seqs q e }

/-- Notes a change of the store gate at a grid sample (R246). -/
def noteGate (r : SeqRun) (q g : Nat) (was now : Bool) : SeqRun :=
  if was = now then r else { r with gates := r.gates ++ [(q, g, now)] }

/-- Clears the counters, the flags and the store gate. -/
def SeqView.cleared (v : SeqView) : SeqView := { v with cnt := [0, 0, 0, 0], flags := 0, gate := false }

/-- An arming from IDLE (R179, R200). -/
def armFromIdle (e : Seq) (g : Nat) : Seq :=
  { e with st := .armed, view := { e.view.cleared with level := 0, entry := g }, armTrigs := 0, armings := e.armings + 1
           disarm := false, lastDead := 0, lastMissed := 0 }

/-- RESTART (Table 06-7). -/
def restartView (v : SeqView) (g : Nat) : SeqView := { v.cleared with level := 0, entry := g }

/-- The arming's triggers are used up (Table 06-1). -/
def SeqQ.usedUp (q : SeqQ) (e : Seq) : Bool := !q.rearmForever && decide (q.armCount ≤ e.armTrigs)

/-- The end of dead time at the re-arm instant (R179, R233, R235). -/
def rearmSeq (q : SeqQ) (e : Seq) : Seq :=
  let d := e.dead
  let pu := 32 * (d.rearm - d.span)
  let e := { e with deadPu := (e.deadPu + pu) % 2 ^ 64, missed := satAdd 32 e.missed d.missed, lastDead := pu
                    lastMissed := d.missed, dead := {} }
  if e.disarm || q.usedUp e then { e with st := .idle, disarm := false, view := { e.view with gate := false } }
  else
    let v := if q.keepState then e.view else e.view.cleared
    { e with st := .armed, view := { v with level := 0, entry := d.rearm } }

/-- Re-arms a sequencer whose re-arm instant is at or before a grid sample. At sample 0 of a frame the frame's commands come first, whatever
the re-arm instant: R182 and R233 give no order (DESIGN CHOICE, log entry 19). -/
def rearmBy (q : SeqQ) (e : Seq) (g : Nat) (r : SeqRun) : Seq × SeqRun :=
  if e.st == SeqState.dead && !e.dead.never && decide (e.dead.rearm ≤ g) then
    let e' := rearmSeq q e
    (e', noteGate r q.seq e.dead.rearm e.view.gate e'.view.gate)
  else (e, r)

/-- The records that name a sequencer. -/
def Folio.recsOf (f : Folio) (q : Nat) : List RecQ := f.records.filter (fun r => r.seq = q)

/-- The span end E of a trigger at grid sample `g` of frame count `c` (R231). -/
def spanEnd (s : State) (q g c : Nat) : Nat :=
  (s.cfg.recsOf q).foldl (fun e r =>
    if r.kind = 1 || r.kind = 2 then max e (g + r.post)
    else if r.kind = 3 && !r.continuous then max e (gridOf s (c + r.streamLen))
    else e) g

/-- A CONTINUOUS STREAMING record names the sequencer (R232). -/
def endless (s : State) (q : Nat) : Bool := (s.cfg.recsOf q).any (fun r => r.kind = 3 && r.continuous)

/-- The cable delay that a trigger subtracts (R216): that of the causing channel. -/
def causeCable (f : Folio) (cause : Nat) : Nat := if cause < 0x1000 then (f.chan cause).cableDelay else 0

/-- Takes a TRIGGER (R180, R184, R215, R216, R231): the sequencer goes to DEAD, and the trigger is reported. -/
def takeTrigger (s : State) (f : FrameSet) (q : SeqQ) (e : Seq) (g slot mask tag : Nat) (forced : Bool)
    (cause : Option (Nat × Nat)) (budget : Bool) : Seq × TrigEvt :=
  let base := placeOf s f.count
  let c := match cause with
    | some (src, p) => if base ≤ p then some (src, p - base) else none
    | none => none
  let sample := g - gridOf s f.count
  let fine := match c with
    | some x => x.2
    | none => if forced then 0 else 32 * sample
  let src := (c.map (·.1)).getD 0xFFFF
  let cable := causeCable s.cfg src
  let e' := { e with armTrigs := e.armTrigs + 1, triggers := satAdd 32 e.triggers 1, lastTrig := some g, st := .dead
                     dead := { trig := g, span := spanEnd s q.seq g f.count, never := endless s q.seq
                               rearm := spanEnd s q.seq g f.count + q.holdoff + 1, held := e.view
                               from_ := if forced then g else g + 1, missed := 0 } }
  (e', { seq := q.seq, level := e.view.level, slot := slot, mask := mask, tag := tag, forced := forced, noEdge := c.isNone
         last := !q.rearmForever && decide (e'.armTrigs = q.armCount), cause := src, abs := g, sample := sample, fine := fine
         cable := cable, no := e'.armTrigs, arming := e.armings, missed := e.lastMissed, dead := e.lastDead, view := e.view
         budget := budget, postmark := postmarkOf (f.tickAt + fine + 2 ^ 64 - cable) })

/-- The slots of a level. -/
def SeqQ.slots (q : SeqQ) (level : Nat) : List SlotQ := q.levels.getD level []

/-- A slot's match, and its cause: COND_A's if it matched, otherwise COND_B's (R211, R215). -/
def slotOut (outs : List CondOut) (k : SlotQ) : Bool × Option (Nat × Nat) :=
  let a := outs.getD k.condA {}
  let b := outs.getD k.condB {}
  let m := if k.combine = 0 then a.hit else if k.combine = 1 then a.hit && b.hit else a.hit || b.hit
  (k.action ≠ 0 && m, if a.hit then a.cause else b.cause)

/-- The effect of an action on the sequencer's view (Table 06-7), TRIGGER and RESTART apart, with NEXT (R213). -/
def actionView (k : SlotQ) (v : SeqView) (g : Nat) : SeqView :=
  let v := match k.action with
    | 0x03 => { v with gate := true }
    | 0x04 => { v with gate := false }
    | 0x05 => { v with cnt := lmod v.cnt k.arg (fun n => satAdd 32 n 1) }
    | 0x06 => { v with cnt := lmod v.cnt k.arg (fun _ => 0) }
    | 0x07 => { v with flags := setBit v.flags k.arg true }
    | 0x08 => { v with flags := setBit v.flags k.arg false }
    | _ => v
  if k.next < 0x10 then { v with level := k.next, entry := g } else v

/-- Tracks every condition of the sequencer at a step (R188). -/
def trackAll (s : State) (f : FrameSet) (q : SeqQ) (i : StepIn) (e : Seq) : Seq × List CondOut :=
  q.conds.foldl (fun (acc : Seq × List CondOut) c =>
    let k := acc.2.length
    let (st, o) := condStep s f c i (tget {} acc.1.conds k)
    ({ acc.1 with conds := tput acc.1.conds k st }, acc.2 ++ [o])) (e, [])

/-- One step of a sequencer (R189, R212, R213, R234). -/
def seqStep (s : State) (f : FrameSet) (q : SeqQ) (peers : Tbl Seq) (disc : Option Int) (back budget : Bool) (g : Nat)
    (e : Seq) (r : SeqRun) : Seq × SeqRun :=
  let (e, r) := rearmBy q e g r
  let self := if e.st == SeqState.dead then e.dead.held else e.view
  let i : StepIn := { g := g, prev := e.lastStep, tick := decide (g = gridOf s f.count), self := self
                      peers := peers, disc := disc, back := back }
  let (e, outs) := trackAll s f q i e
  let e := { e with lastStep := some g }
  let hits := (q.slots self.level).map (slotOut outs)
  match e.st with
  | .idle => (e, r)
  | .dead =>
    let counts := e.dead.from_ ≤ g && (e.dead.never || g < e.dead.rearm) && hits.any (·.1)
    (if counts then { e with dead := { e.dead with missed := satAdd 32 e.dead.missed 1 } } else e, r)
  | .armed =>
    match findIdx? (·.1) hits with
    | none => (e, r)
    | some w =>
      let k := (q.slots self.level).getD w {}
      let mask := ofBits (hits.map (·.1))
      if k.action = 0x02 then
        let (e, t) := takeTrigger s f q e g w mask k.arg false ((hits.getD w (false, none)).2) budget
        (e, { r with trigs := r.trigs ++ [t] })
      else if k.action = 0x0A then
        ({ e with view := restartView e.view g }, noteGate r q.seq g e.view.gate false)
      else
        let v := actionView k e.view g
        let r := noteGate r q.seq g e.view.gate v.gate
        ({ e with view := v }, if k.action = 0x09 then { r with pulses := r.pulses ++ [(q.seq, k.arg)] } else r)

/-! ## Invalid sources (R221) -/

/-- The sources of a sequencer are valid in a frame (R221). A SEQUENCER condition's source always is: R221 does not say whether a sequencer that
is itself under R221 is an INVALID source (DESIGN CHOICE, log entry 29). -/
def seqSourcesValid (s : State) (f : FrameSet) (q : SeqQ) : Bool :=
  q.chans.all (chanValid s f) &&
  q.conds.all (fun c =>
    if c.type = 8 then
      (if c.src / 2 ^ 24 = 1 then (tget {} s.proc.reds (c.src % 4096)).out.valid
       else (tget {} s.proc.sums (c.src % 256)).out.valid)
    else if c.type = 9 then !(tget {} s.meter.entries c.src).invalid
    else if c.type = 0x0C then !unitBad s 0x06 (128 + c.src / 65536 % 8) f.count
    else true)

/-- Every condition of the sequencer has a unit, and no fault touches the frame of any (R220, R221). -/
def unitsServe (s : State) (f : FrameSet) (q : SeqQ) : Bool :=
  (List.range q.conds.length).all (fun k =>
    match tget? s.rings.condCu (256 * q.seq + k) with
    | some u => !unitBad s 0x03 u f.count
    | none => false)

/-- R221 holds for the sequencer in the frame. -/
def under221 (s : State) (f : FrameSet) (q : SeqQ) : Bool := f.invalid || !seqSourcesValid s f q || !unitsServe s f q

/-- The channels of a MEASURE entry. -/
def measChans (q : Folio) (e : Nat) : List Nat :=
  match q.meas? e with
  | some m => [m.chA] ++ (if m.kind = 1 || m.kind = 5 then [m.chB] else [])
  | none => []

/-- The sequencer's TRIGGER envelopes of the frame carry BUDGET_OVERRUN (R165, R206, R221): a channel or an input that it reads has dropped
changes, and so has one that a value source of it derives from. -/
def seqBudget (s : State) (f : FrameSet) (q : SeqQ) : Bool :=
  q.chans.any (chanOver f) || q.trigs.any (fun k => (tget {} f.trig k).dropped ≠ 0) ||
  q.conds.any (fun c =>
    if c.type = 8 then
      (if c.src / 2 ^ 24 = 1 then (tget {} s.proc.reds (c.src % 4096)).out.budget else (tget {} s.proc.sums (c.src % 256)).out.budget)
    else if c.type = 9 then (measChans s.cfg c.src).any (fun k => (f.chan k).stampsDropped ≠ 0)
    else false)

/-- The sequencer without the tracking of its conditions: each begins as at its first step (R193, R221). -/
def Seq.untracked (e : Seq) : Seq :=
  { e with lastStep := none, conds := tmap e.conds (fun _ c => { atDone := c.atDone, every := c.every }) }

/-- A frame begins for a sequencer (R179, R221, R233): armed at start in the first frame of RUNNING; under R221 its tracking is
discarded and its re-arm instant moves to the next frame; in the first valid frame after that, or after a move of one of its conditions (R220), it restarts with all its tracking. -/
def beginSeq (s : State) (f : FrameSet) (q : SeqQ) (e : Seq) (r : SeqRun) : Seq × SeqRun :=
  let g := gridOf s f.count
  let next := gridOf s (f.count + 1)
  let e := if s.firstRun = some f.count && q.armAtStart then armFromIdle e g else e
  if under221 s f q then
    let d := e.dead
    let d := if e.st == SeqState.dead && !d.never && d.rearm < next then { d with rearm := next } else d
    ({ e.untracked with invalid := true, dead := d }, r)
  else if e.invalid then
    let e := { e.untracked with invalid := false, restarts := satAdd 32 e.restarts 1 }
    if e.st == SeqState.armed then ({ e with view := restartView e.view g }, noteGate r q.seq g e.view.gate false) else (e, r)
  else (e, r)

/-! ## Commands at sample 0 of frame m (R183) -/

/-- The grid sample of a CONTINUOUS run's end on disarm, and the effect of a sequencer command (Table 06-2). `act`: 1 arm,
2 disarm, 3 force. Answers the status: 0 OK, 4 BAD_COMMAND is coded by the caller as false. -/
def seqCommand (s : State) (f : FrameSet) (q : SeqQ) (act : Nat) (e : Seq) (r : SeqRun) : Seq × SeqRun × Bool :=
  let g := gridOf s f.count
  if act = 1 then
    match e.st with
    | .idle => (armFromIdle e g, r, true)
    | .armed => ({ e with armTrigs := 0 }, r, true)
    | .dead => ({ e with armTrigs := 0, disarm := false }, r, true)
  else if act = 2 then
    match e.st with
    | .idle => (e, r, true)
    | .armed => ({ e with st := .idle, view := { e.view with gate := false } }, noteGate r q.seq g e.view.gate false, true)
    | .dead =>
      if e.dead.never then
        ({ e with st := .idle, dead := {}, view := { e.view with gate := false } }, noteGate r q.seq g e.view.gate false, true)
      else ({ e with disarm := true }, r, true)
  else
    match e.st with
    | .armed =>
      if e.invalid then (e, r, false)
      else
        let (e, t) := takeTrigger s f q e g 0xFF 0 0 true none (seqBudget s f q)
        (e, { r with trigs := r.trigs ++ [t] }, true)
    | _ => (e, r, false)

/-! ## The frame -/

/-- Coasting has ended inside a frame, at or before an instant of it (R204, R412). -/
def Time.endedInside (t : Time) (f : FrameSet) (at_ : Nat) : Bool :=
  match t.coastEnded with
  | some e => decide (f.tickAt < e) && decide (e ≤ at_)
  | none => false

/-- Disciplined time at the start of a grid sample of a frame, on the mapping of the frame's tick, while the timeline is traced
or coasting at that sample (R204). -/
def discSample (s : State) (f : FrameSet) (g : Nat) : Option Int :=
  let at_ := f.tickAt + 32 * (g - gridOf s f.count)
  if s.time.untracedFrames.contains f.frame || s.time.endedInside f at_ then none
  else (segOf s.time.segs (postmarkOf f.tickAt)).map (fun e => e.timeAt (postmarkOf at_))

/-- Time stepped back at the frame's tick (R205). -/
def steppedBack (s : State) (f : FrameSet) : Bool :=
  s.time.segs.any (fun e => e.anchor == postmarkOf f.tickAt && e.stepBack)

/-- One sequencer's plan for a frame: its entry, its step samples still to come, and whether BUDGET_OVERRUN applies. -/
structure SeqPlan where
  q      : SeqQ
  steps  : List Nat
  budget : Bool

/-- The steps of every sequencer at one step sample, all seeing the others as they stood at the end of the previous one (R190): at sample 0,
as the frame before left them, `before`. -/
def sampleStep (s : State) (f : FrameSet) (before : Tbl Seq) (smp : Nat) (plans : List SeqPlan) (seqs : Tbl Seq) (r : SeqRun) :
    List SeqPlan × Tbl Seq × SeqRun :=
  let g := gridOf s f.count + smp
  -- dead times that end before this sample end before it is looked at
  let pre := plans.foldl (fun (acc : Tbl Seq × SeqRun) p =>
    if g = 0 then acc
    else
      let (e, r) := rearmBy p.q (tget {} acc.1 p.q.seq) (g - 1) acc.2
      (tput acc.1 p.q.seq e, r)) (seqs, r)
  let peers := if smp = 0 then before else pre.1
  let disc := discSample s f g
  let back := steppedBack s f
  plans.foldl (fun (acc : List SeqPlan × Tbl Seq × SeqRun) p =>
    match p.steps with
    | x :: rest =>
      if x = smp then
        let (e, r) := seqStep s f p.q peers disc back p.budget g (tget {} acc.2.1 p.q.seq) acc.2.2
        (acc.1 ++ [{ p with steps := rest }], tput acc.2.1 p.q.seq e, r)
      else (acc.1 ++ [p], acc.2.1, acc.2.2)
    | [] => (acc.1 ++ [p], acc.2.1, acc.2.2)) ([], pre.1, pre.2)

/-- The sequencers of one frame, after `beginSeq` and the commands of the frame; `before` is how the frame before left them. -/
def seqsFrame (s : State) (f : FrameSet) (before : Tbl Seq) (r : SeqRun) : State × SeqRun :=
  let plans := (s.cfg.seqs.filter (fun q => !(s.seq q.seq).invalid)).map (fun q =>
    { q := q, steps := stepsOf s f q, budget := seqBudget s f q : SeqPlan })
  let samples := unionAsc (plans.map (·.steps))
  let out := samples.foldl (fun (acc : List SeqPlan × Tbl Seq × SeqRun) smp => sampleStep s f before smp acc.1 acc.2.1 acc.2.2)
    (plans, s.seqs, r)
  let last := gridOf s (f.count + 1) - 1
  let fin := s.cfg.seqs.foldl (fun (acc : Tbl Seq × SeqRun) q =>
    let (e, r) := rearmBy q (tget {} acc.1 q.seq) last acc.2
    (tput acc.1 q.seq e, r)) (out.2.1, out.2.2)
  ({ s with seqs := fin.1 }, fin.2)

/-- Every sequencer begins the frame. -/
def beginSeqs (s : State) (f : FrameSet) : State × SeqRun :=
  s.cfg.seqs.foldl (fun (acc : State × SeqRun) q =>
    let (e, r) := beginSeq acc.1 f q (acc.1.seq q.seq) acc.2
    (setSeq acc.1 q.seq e, r)) (s, {})

end Sys2Proof.Machine
end

