-- ==== Sys2Proof/Machine/Limits.lean ====
section
/-!
DEFINITION. Limit comparators (R274, R275) and process outputs (R276 to R280) in the work window of a frame.
-/
namespace Sys2Proof.Machine

/-! ## Limit comparators -/

/-- What an LC's source gives in a frame: valid, its outputs in postmark order, and whether it had a valid output before the
frame since its last start. -/
structure LcSource where
  valid : Bool
  items : List Int
  older : Bool
  /-- In an invalid frame: it has started, and settles (R261). -/
  settling : Bool

/-- An instance has started and its frame is settling; one whose own input settles has not started (R261). -/
def redSettles (e : Red) : Bool := e.out.settling && e.startIn.isSome

/-- The source of an LC (R274, Table 08-9). -/
def lcSource (s : State) (f : FrameSet) (q : LcQ) : LcSource :=
  let eng := engineServes s f
  if q.src / 2 ^ 24 = 1 then
    let e := tget {} s.proc.reds (q.src % 4096)
    { valid := e.out.valid && eng, items := e.out.items.map (·.value), older := e.last.isSome, settling := redSettles e }
  else if q.src / 2 ^ 24 = 2 then
    let e := tget {} s.proc.sums (q.src % 256)
    { valid := e.out.valid && eng, items := e.out.items.map (·.value), older := e.last.isSome
      settling := e.out.settling && ((s.cfg.sum? (q.src % 256)).map (·.inputs)).any (fun l => l.all (fun i =>
        let r := tget {} s.proc.reds i.1
        r.out.valid || redSettles r)) }
  else
    let m := tget {} s.meter.entries (q.src % 1024)
    { valid := !m.invalid && eng, items := (m.outputs q.stat).map (·.2)
      older := (m.before q.stat).isSome, settling := false }

/-- One evaluation (R275, Table 06-5). -/
def lcEval (q : LcQ) (e : Lc) (v : Int) : Lc :=
  if (q.mode = 4 || q.mode = 5) && e.prev.isNone then { e with prev := some v }
  else
    let now := if e.unsettled then becomesTrue q.mode q.a q.b v e.prev else compareStep q.mode q.a q.b q.c e.state v e.prev
    { e with prev := some v, unsettled := false, state := now, any := e.any || now
             trueCount := if now && !e.state then satAdd 16 e.trueCount 1 else e.trueCount }

/-- One frame of an LC (R275). A start of the source makes it unsettled and false at once, in the settling frames already. -/
def lcFrame (s : State) (f : FrameSet) (q : LcQ) (e : Lc) : Lc :=
  let x := lcSource s f q
  let fresh : Lc := { e with unsettled := true, state := false, prev := none }
  if !x.valid then { (if x.settling then fresh else e) with started := true, invalid := true, any := false }
  else
    let e := if !e.started || e.invalid || !x.older then fresh else e
    x.items.foldl (lcEval q) { e with started := true, invalid := false, any := e.state }

/-- Every LC of the frame. -/
def lcsFrame (s : State) (f : FrameSet) : State :=
  s.cfg.lcs.foldl (fun s q =>
    { s with proc := { s.proc with lcs := tmod {} s.proc.lcs q.lc (lcFrame s f q) } }) s

/-! ## Process outputs -/

/-- The level term (R276). -/
def levelTerm (s : State) (q : EvtQ) : Bool :=
  let l := q.lcs.map (fun i => let e := tget {} s.proc.lcs i; if q.any then e.any else e.state)
  let t := if l.isEmpty then false else if q.and_ then l.all id else l.any id
  if q.gateSeq = 0xFF then t else t && bit (s.seq q.gateSeq).view.flags q.gateFlag

/-- The sequencers an output depends on (R279). -/
def EvtQ.seqs (q : EvtQ) : List Nat :=
  (List.range 64).filter (bit q.pulseMask) ++ (if q.gateSeq = 0xFF then [] else [q.gateSeq])

/-- A cause of R279 holds for the output in the frame. -/
def safeCause (s : State) (f : FrameSet) (q : EvtQ) : Bool :=
  q.lcs.any (fun i => let e := tget {} s.proc.lcs i; e.invalid || e.unsettled) ||
  q.seqs.any (fun k => (s.seq k).invalid) || !engineServes s f || decide (s.boot.state = .faultHold)

/-- The SAFE level of an output whose level at the previous commit is `was` (R279). -/
def EvtQ.safeLevel (q : EvtQ) (was : Bool) : Bool := if q.safe = 0 then false else if q.safe = 1 then true else was

/-- One frame of a process output (R276, R277, R279); `pulses` are the EVT_PULSE requests of the frame. -/
def evtFrame (s : State) (f : FrameSet) (q : EvtQ) (pulses : List (Nat × Nat)) (e : Evt) : Evt :=
  let n := (pulses.filter (fun x => x.2 = q.out && bit q.pulseMask x.1)).length
  if safeCause s f q then
    { e with pulse := none, safe := true, dropped := satAdd 32 e.dropped n, level := q.safeLevel e.level }
  else
    let p : Option Nat := if n ≠ 0 then some (f.count + q.pulseFrames) else e.pulse
    let on : Bool := match p with
      | some c => decide (f.count < c)
      | none => false
    { e with pulse := if on then p else none, safe := false, level := (levelTerm s q || on) != q.invert }

/-- A pin level. -/
def pinOf (b : Bool) : PinLevel := if b then .high else .low

/-- The pins as the latest commit set them; an output without an entry is LOW (R276). -/
def evtPins (s : State) : List PinLevel :=
  (List.range 16).map (fun o => match s.cfg.evt? o with
    | some _ => pinOf (tget {} s.proc.evts o).level
    | none => .low)

/-- RD_EVT_STATE as a commit leaves it (Table 08-17). -/
def evtWord (t : Tbl Evt) : Nat := t.foldl (fun a e => a + b2n e.2.safe * 2 ^ (16 + e.1) + b2n e.2.level * 2 ^ e.1) 0

/-- The commit of a frame (R278, R286). -/
def commitEvts (s : State) (f : FrameSet) (pulses : List (Nat × Nat)) : State :=
  let s := s.cfg.evts.foldl (fun s q =>
    { s with proc := { s.proc with evts := tmod {} s.proc.evts q.out (evtFrame s f q pulses) } }) s
  { s with pins := { s.pins with evtOut := evtPins s }, proc := { s.proc with evtState := evtWord s.proc.evts } }

/-- Every output takes its SAFE level, on entry to FAULT_HOLD (R280). -/
def safeEvts (s : State) : State :=
  let s := s.cfg.evts.foldl (fun s q =>
    { s with proc := { s.proc with evts := tmod {} s.proc.evts q.out (fun e =>
        { e with safe := true, level := q.safeLevel e.level, pulse := none }) } }) s
  { s with pins := { s.pins with evtOut := evtPins s } }

end Sys2Proof.Machine
end

