-- ==== Sys2Proof/Machine/Figures.lean ====
section
/-!
DEFINITION. The stream figures of admission (R34, Table 01-5) at the highest rate over the plans (R447), the landed bytes of a
frame (R38) and where they lie in the banks of a frame set (R324), which the effects of bank faults read (R336, R337).
-/
namespace Sys2Proof.Machine

/-- ⌈rate × T_F⌉ of a rate given as a fraction in Hz: T_F is FRAME / 16,000 s. -/
def perFrame (q : Folio) (r : Nat × Nat) : Nat := cdiv (r.1 * q.module_.frame) (r.2 * 16000)

/-- e_F and s_F of a channel (R34). -/
def eF (q : Folio) (c : Nat) : Nat := perFrame q ((q.chan c).edgeRate, 1)
def sF (q : Folio) (c : Nat) : Nat := perFrame q ((q.chan c).stampRate, 1)

/-- Highest declared sample rate of a channel (R447). -/
def maxRate (q : Folio) (c : Nat) : Nat × Nat := chanRate q planMax c

/-- N_F, the most samples a channel takes in a frame (R156). -/
def nF (q : Folio) (c : Nat) : Nat := perFrame q (maxRate q c)

/-- Landed bytes per frame of a channel's own stream, before rounding (Table 01-5). -/
def landedBytes (q : Folio) (c : Nat) : Nat :=
  let e := q.chan c
  if e.mode = 0 then 0
  else if e.trans then 4 * eF q c
  else let r := maxRate q c; cdiv (r.1 * q.module_.frame) (r.2 * 128000)

/-- A group's landed streams in ascending channel, each channel's data before its stamps: (key, bytes rounded to 64). The key is
c for data and 1,024 + c for stamps. R38 gives the sizes; the order within a group's share is DEDUCED (assumption 8). -/
def landedStreams (q : Folio) (g : Nat) : List (Nat × Nat) :=
  (q.channels.filter (fun c => c.chan / 64 = g && c.mode ≠ 0)).flatMap (fun c =>
    (c.chan, roundUp 64 (landedBytes q c.chan)) ::
      (if c.stampRate = 0 then [] else [(1024 + c.chan, roundUp 64 (8 * sF q c.chan))]))

/-- L_F,g (R38, R324). -/
def landedOf (q : Folio) (g : Nat) : Nat := (landedStreams q g).foldl (fun a e => a + e.2) 0

/-- The streams of a group with bytes in [lo, hi) of its share of a frame set. -/
def landedIn (q : Folio) (g lo hi : Nat) : List Nat :=
  ((landedStreams q g).foldl (fun (acc : Nat × List Nat) e =>
    (acc.1 + e.2, if acc.1 < hi && lo < acc.1 + e.2 then acc.2 ++ [e.1] else acc.2)) (0, [])).2

/-- The banks of a group's share of frame set `k`, ascending. -/
def shareBanks (s : State) (k g : Nat) : List Nat := (s.banks.role.filter (fun e => e.2 == (k + 1, g))).map (·.1)

/-- The streams of frame `c` that land in a fenced bank without a spare (R337). -/
def brokenStreams (s : State) (c : Nat) : List Nat :=
  s.cfg.groups.flatMap (fun g =>
    let bs := shareBanks s (c % 3) g
    (List.range bs.length).flatMap (fun i =>
      if bankBroken s (nth bs i) then landedIn s.cfg g (i * 2 ^ 20) ((i + 1) * 2 ^ 20) else []))

/-- The streams of frame `c` that land in the place of bank `b` (R337). -/
def bankStreams (s : State) (c b : Nat) : List Nat :=
  match tget? s.banks.role (origBank s b) with
  | some (role, g) =>
    if role = c % 3 + 1 then
      let i := (findIdx? (fun x => x == origBank s b) (shareBanks s (c % 3) g)).getD 0
      landedIn s.cfg g (i * 2 ^ 20) ((i + 1) * 2 ^ 20)
    else []
  | none => []

/-- The streams of frame `c` with bytes in the word of bank `b` that holds address `a`, as the bank's place is served (R336). -/
def wordStreams (s : State) (c b a : Nat) : List Nat :=
  match tget? s.banks.role (origBank s b) with
  | some (role, g) =>
    if role = c % 3 + 1 then
      let bs := shareBanks s (c % 3) g
      let off := (findIdx? (fun x => x == origBank s b) bs).getD 0 * 2 ^ 20 + a / 8 * 8
      landedIn s.cfg g off (off + 8)
    else []
  | none => []

end Sys2Proof.Machine
end

