-- ==== Sys2Proof/Machine/PlaceMap.lean ====
section
/-!
DEFINITION. The write slots of placement step 2 (R315), and the placement map (R368, R369, Tables 11-14 and 11-15) of the places in use now:
a move or return changes them at a frame boundary, and the map with them.
-/
namespace Sys2Proof.Machine

/-- Step 2: write slots per ring, and of the frame index as ring 0xFFFF (R315). -/
def placeSlots (h : List Hist) : List (Nat × Nat) :=
  h.map (fun x => (x.ring, cdiv x.bmax 32 + 1)) ++ [(0xFFFF, cdiv h.length 2)]

/-- One section: its header and entries. -/
def section_ (k size : Nat) (l : List Bytes) : Bytes := le 1 k ++ le 1 0 ++ le 2 size ++ le 4 l.length ++ l.flatMap id

/-- The history rings in ring order. -/
def histRings (s : State) : List Hist := sortBy (·.ring) (s.hist.map (·.2))

/-- Role and argument of each bank as the places are served now (R337, R367). -/
def bankRole (s : State) (b : Nat) : Nat × Nat := if servesPlace s b then tget (0, 0) s.banks.role (origBank s b) else (0, 0)

/-- The map's bytes from offset 64. A ring in several runs of granules has an entry for each. -/
def mapBody (s : State) : Bytes :=
  section_ 1 16 ((histRings s).flatMap (fun h => h.runs.map (fun r => le 2 h.ring ++ le 2 0 ++ le 4 h.stream ++ le 4 r.1 ++ le 4 r.2))) ++
  section_ 2 8 ((placeSlots (histRings s)).map (fun e => le 2 e.1 ++ le 2 0 ++ le 4 e.2)) ++
  section_ 3 4 (s.rings.redLane.map (fun e => le 2 e.1 ++ le 2 e.2)) ++
  section_ 4 4 (s.rings.condCu.map (fun e => le 1 (e.1 / 256) ++ le 1 (e.1 % 256) ++ le 2 e.2)) ++
  section_ 5 4 (s.rings.tdcLane.map (fun e => le 2 e.1 ++ le 1 e.2 ++ le 1 0)) ++
  section_ 6 4 ((List.range 136).map (fun b => let r := bankRole s b; le 1 b ++ le 1 r.1 ++ le 1 r.2 ++ le 1 0)) ++
  section_ 7 16 (s.rings.staging.map (fun e => le 2 e.1 ++ le 2 e.2.1 ++ le 4 e.2.2.2 ++ le 4 e.2.2.1 ++ le 4 0))

/-- MAP_HASH of the current map. -/
def mapHash (s : State) : Bytes := if s.banks.role.isEmpty then zeros 32 else sub (sha256 (mapBody s)) 0 32

/-- The whole map as it reads (Table 11-14): nothing while no Folio is placed. -/
def State.mapBytes (s : State) : Bytes :=
  if s.banks.role.isEmpty then []
  else
    let b := mapBody s
    le 4 0x4D504B4C ++ le 2 1 ++ le 2 0 ++ le 4 (64 + b.length) ++ le 4 s.rings.gen ++ zeros 16 ++ sub (sha256 b) 0 32 ++ b

end Sys2Proof.Machine
end

