-- ==== Sys2Proof/Machine/Records.lean ====
section
/-!
DEFINITION. History (R224 to R226), spans and records (R227 to R246), per-record measurements (R248 to R250) and their envelopes
(R253 to R256), from the history of the stored streams.
-/
namespace Sys2Proof.Machine

/-! ## Stored streams -/

/-- The stream references of every stored stream, in the order of placement step 1 (R224, R365). -/
def storedStreams (f : Folio) : List Nat :=
  (f.channels.filter (fun c => c.mode ≠ 0 && c.storage ≠ 0)).map (·.chan) ++
  (f.reds.filter (·.stored)).map (fun r => 0x01000000 + r.red) ++
  (f.sums.filter (·.stored)).map (fun w => 0x02000000 + w.ws)

/-- A stream reference names a channel, whose items are bits or transition entries. -/
def streamChan (ref : Nat) : Bool := ref / 2 ^ 24 = 0

/-- The stream's items are single bits. -/
def streamBits (f : Folio) (ref : Nat) : Bool := streamChan ref && !(f.chan ref).trans

/-- The stream's items are transition entries. -/
def streamTrans (f : Folio) (ref : Nat) : Bool := streamChan ref && (f.chan ref).trans

/-- Bits packed as R158 sets out. -/
def packBits (l : List Nat) : Bytes :=
  (List.range (cdiv l.length 8)).map (fun i => BitVec.ofNat 8 (ofBits (((l.drop (8 * i)).take 8).map (· = 1))))

/-- Items as bytes (R158, R159, R225). -/
def itemBytes (bitsP : Bool) (l : List Nat) : Bytes := if bitsP then packBits l else l.flatMap (le 4)

/-- A transition entry's word (Table 05-2). -/
def entryWord (o z : Nat) : Nat := o * 256 + z * 64

/-- The items of a stream in a landed frame and their offsets from the tick, and whether the frame is valid for the stream. -/
def streamItems (s : State) (f : FrameSet) (ref : Nat) : List Nat × List Nat × Bool :=
  let base := placeOf s f.count
  let outs (o : FrameOut) : List Nat × List Nat × Bool :=
    (o.items.map (fun x => (x.value % 2 ^ 32).toNat), o.items.map (fun x => x.at_ - base), o.valid)
  if ref / 2 ^ 24 = 1 then outs (tget {} s.proc.reds (ref % 2 ^ 24)).out
  else if ref / 2 ^ 24 = 2 then outs (tget {} s.proc.sums (ref % 2 ^ 24)).out
  else
    let q := s.cfg.chan ref
    let l := f.chan ref
    let ok := chanValid s f ref
    if q.trans then (l.entries.map (fun x => entryWord x.1 x.2), l.entries.map (·.1), ok)
    else
      let kept := if q.storage = 2 then l.samples.filter (fun x => x.2.2 % (max q.decimD 1) = 0) else l.samples
      (kept.map (fun x => b2n x.2.1), kept.map (·.1), ok)

/-- A bank that holds a channel's landed data of frame `c` has a fault that reaches the frame (R324, R336). -/
def bankFault (s : State) (chan c : Nat) : Bool :=
  let g := chan / 64
  let bs := shareBanks s (c % 3) g
  (List.range bs.length).any (fun i =>
    unitBad s 0x06 (holderBank s (nth bs i)) c && (landedIn s.cfg g (i * 2 ^ 20) ((i + 1) * 2 ^ 20)).contains chan)

/-- A unit that serves a channel in frame `c` has a fault that reaches the frame. -/
def chanFault (s : State) (chan c : Nat) : Bool := unitBad s 0x01 (chan / 64) c || bankFault s chan c

/-- A unit that serves an instance in frame `c` has a fault that reaches the frame. -/
def redFault (s : State) (r c : Nat) : Bool := chanFault s (r / 4) c || unitBad s 0x04 (tget 0 s.rings.redLane r) c

/-- The history ring of a stream has a fault that reaches frame `c` (R488). -/
def histFault (s : State) (ref c : Nat) : Bool := (tget? s.hist ref).any (fun h => unitBad s 0x0A h.ring c)

/-- A unit that serves the stream in frame `c` was fenced for that frame (R240, R488): its history ring, its group, the banks of its group's
frame set, the lane of its reduction, the sum engine. A spare that takes the work over serves the frames after the fault frame. A clock source serves no
named stream (DESIGN CHOICE, assumption 28): the hold that its loss begins spoils the frames as blocks that are INVALID. -/
def streamFenced (s : State) (ref c : Nat) : Bool :=
  if histFault s ref c then true
  else if streamChan ref then chanFault s ref c
  else if ref / 2 ^ 24 = 1 then
    redFault s (ref % 2 ^ 24) c
  else unitBad s 0x05 0 c || (((s.cfg.sum? (ref % 2 ^ 24)).map SumQ.inputs).getD []).any (fun i => redFault s i.1 c)

/-- The granule that holds byte `a` of a history ring. -/
def granuleOf (runs : List (Nat × Nat)) (a : Nat) : Option Nat :=
  let r := runs.foldl (fun (acc : Nat × Option Nat) r =>
    let k := a / 65536
    (acc.1 + r.2, if acc.2.isNone && acc.1 ≤ k && k < acc.1 + r.2 then some (r.1 + (k - acc.1)) else acc.2)) (0, none)
  r.2

/-- The granules that bytes [a, a + n) of a ring touch. -/
def granulesOf (h : Hist) (a n : Nat) : List Nat :=
  if n = 0 || h.size = 0 then []
  else
    let p := a % h.size
    (List.range (n / 65536 + 2)).filterMap (fun i => granuleOf h.runs ((min (p + i * 65536) (p + n - 1)) % h.size))

/-- Frame entries of a ring that are still held (R226): none of its bytes overwritten, and its index entry among the last
H + 1. -/
def Hist.heldFrames (h : Hist) : List HistFrame :=
  (h.frames.take (h.size / (max h.bmax 1) + 1)).filter (fun f => h.written ≤ f.start + h.size)

/-- The lowest-numbered frame that a history ring holds (R488). -/
def ringHolds (s : State) (r : Nat) : Option Nat :=
  (s.hist.find? (fun e => e.2.ring = r)).bind (fun e => (e.2.frames.map (·.count)).min?)

/-- The history write of one stream in one frame (R225, R313, R321, R322). A fenced ring takes nothing (R487). -/
def histStream (s : State) (f : FrameSet) (h : Hist) : Hist :=
  let (items, times, ok) := streamItems s f h.stream
  let q := s.cfg
  let b := itemBytes (streamBits q h.stream) items
  let off := s.banks.dramOff || unitBad s 0x08 0 f.count || unitBad s 0x0A h.ring f.count
  let gr := granulesOf h h.written b.length
  let hole := (indexGranule s h f.count :: gr).any (fun g => s.fenced 0x07 g)
  let valid := ok && !off
  let b := if valid then b else []
  let budget := if streamChan h.stream then chanOver f h.stream
    else if h.stream / 2 ^ 24 = 1 then (tget {} s.proc.reds (h.stream % 2 ^ 24)).out.budget
    else (tget {} s.proc.sums (h.stream % 2 ^ 24)).out.budget
  let e : HistFrame :=
    { count := f.count, frame := f.frame, tickAt := f.tickAt, items := if valid && !hole then items else []
      times := if valid && !hole then times else [], start := h.written, len := b.length
      crc := if valid && !hole then crc32c b else 0, invalid := !valid || hole
      zone := if streamTrans q h.stream then (f.chan h.stream).zone0 else 0, budget := budget
      fenced := hole || off || streamFenced s h.stream f.count }
  let h := { h with written := h.written + b.length, frames := e :: h.frames }
  { h with frames := h.heldFrames }

/-- Every history write of the frame. -/
def histFrame (s : State) (f : FrameSet) : State := { s with hist := tmap s.hist (fun _ h => histStream s f h) }

/-- The held frame of a stream with a count. -/
def heldFrame (s : State) (ref : Nat) (c : Int) : Option HistFrame :=
  (tget {} s.hist ref).frames.find? (fun f => (f.count : Int) = c)

/-! ## Runs -/


/-- A WINDOW or SEGMENTED definition. -/
def RecQ.whole (q : RecQ) : Bool := q.kind = 1 || q.kind = 2

/-- The types of a record's own envelopes: RECORD, or SPAN and TRANSITIONS (Table 07-1). -/
def RecQ.types (q : RecQ) : List Nat := if q.whole then [1] else [2, 3]

/-- The ring of a record's envelopes (R236, R252): the target of its subscription. -/
def recRing (f : Folio) (q : RecQ) : Option Nat :=
  (q.types.flatMap (fun t => targetsOf f t (0x31000000 + q.rec_))).find? (fun t => decide (t < 0x8000))

/-- Record definition `r`'s state. -/
def State.recd (s : State) (r : Nat) : Rec := tget {} s.recs r

def modRec (s : State) (r : Nat) (f : Rec → Rec) : State := { s with recs := tmod {} s.recs r f }

/-- A run among a definition's, by number and segment. -/
def Rec.run? (e : Rec) (no seg : Nat) : Option Run := e.runs.find? (fun x => x.no = no && x.segment = seg)

def modRun (s : State) (r no seg : Nat) (f : Run → Run) : State :=
  modRec s r (fun e => { e with runs := e.runs.map (fun x => if x.no = no && x.segment = seg then f x else x) })

def dropRun (s : State) (r no seg : Nat) : State :=
  modRec s r (fun e => { e with runs := e.runs.filter (fun x => !(x.no = no && x.segment = seg)) })


/-- Begins a record, segment or run at a trigger (R227, R230, R241, R242, R244). -/
def beginRun (s : State) (q : RecQ) (t : TrigEvt) (c : Nat) : State :=
  let e := s.recd q.rec_
  let newNo := q.kind ≠ 2 || e.arming ≠ t.arming || e.no = 0
  let no := if newNo then e.no + 1 else e.no
  let seg := if q.kind = 2 then (if newNo then 0 else e.segs) else 0
  let e := { e with no := no, arming := t.arming, segs := seg + 1 }
  if q.whole && 4096 ≤ e.runs.length then
    { s with recs := tput s.recs q.rec_ { e with lostSince := satAdd 32 e.lostSince 1, lost := satAdd 32 e.lost 1 } }
  else
    let hi : Option Int := if q.whole then some (t.abs + q.post : Nat)
      else if q.continuous then (if t.ended then some (gridOf s c : Nat) else none) else some (gridOf s (c + q.streamLen) : Nat)
    let lo : Int := (t.abs : Int) - q.pre
    let run : Run := { no := no, segment := seg, sample := t.sample, trigCount := c, postmark := t.postmark, lo := lo, hi := hi
                       short := decide (lo < (gridOf s (s.firstRun.getD 0) : Nat)) }
    { s with recs := tput s.recs q.rec_ { e with runs := e.runs ++ [run] } }

/-- Begins the runs that the first frame of RUNNING begins (R227). -/
def beginFirst (s : State) (c : Nat) : State :=
  s.cfg.records.foldl (fun s q =>
    if q.kind = 3 && q.seq = 0xFF then
      let e := s.recd q.rec_
      let run : Run := { no := e.no + 1, trigCount := c, lo := (gridOf s c : Nat), hi := none }
      { s with recs := tput s.recs q.rec_ { e with no := e.no + 1, runs := e.runs ++ [run] } }
    else s) s

/-- Begins every record that a trigger begins. -/
def takeTrigs (s : State) (c : Nat) (l : List TrigEvt) : State :=
  l.foldl (fun s t => (s.cfg.recsOf t.seq).foldl (fun s q => if q.kind = 4 then s else beginRun s q t c) s) s

/-- Ends the open runs of a definition at a grid sample (R232, R246). -/
def endRuns (s : State) (r g : Nat) : State :=
  modRec s r (fun e => { e with runs := e.runs.map (fun x => if x.hi.isNone then { x with hi := some (g : Nat) } else x) })

/-- Follows the store gates of a frame for the QUALIFIED records (R246). -/
def takeGates (s : State) (c : Nat) (l : List (Nat × Nat × Bool)) : State :=
  l.foldl (fun s x => (s.cfg.recsOf x.1).foldl (fun s q =>
    if q.kind ≠ 4 then s
    else if x.2.2 then
      let e := s.recd q.rec_
      let run : Run := { no := e.no + 1, trigCount := c, lo := (x.2.1 : Nat), hi := none }
      { s with recs := tput s.recs q.rec_ { e with no := e.no + 1, runs := e.runs ++ [run] } }
    else endRuns s q.rec_ x.2.1) s) s

/-! ## Chunks -/

/-- The first frame of a run's span, and the last where it has an end. -/
def runFirst (s : State) (x : Run) : Int := fdiv x.lo s.spf
def runLast (s : State) (x : Run) : Option Int := x.hi.map (fun h => fdiv (h - 1) s.spf)

/-- The frames [first, last] of chunk `k` of a run (R236, R244). -/
def chunkFrames (s : State) (q : RecQ) (x : Run) (k : Nat) : Int × Int :=
  let a := runFirst s x + k * q.partFrames
  let b := a + q.partFrames - 1
  (a, match runLast s x with
      | some l => min b l
      | none => b)

/-- Every chunk of the run has been made deliverable. -/
def chunksDone (s : State) (q : RecQ) (x : Run) : Bool :=
  match runLast s x with
  | some l => decide (l < runFirst s x + x.chunks * q.partFrames)
  | none => false

/-- Adds items to the ready list of a ring. -/
def pushReady (s : State) (ring : Nat) (l : List Item) : State := modRing s ring (fun g => { g with ready := g.ready ++ l })

/-- Closes a run or gate interval whose chunks are all deliverable (R244, R246): a stream none of whose envelopes waits gets one more, which
carries LAST. -/
def closeStream (s : State) (ring : Nat) (q : RecQ) (x : Run) : State :=
  let waits (i : Nat) : Bool := (s.ring ring).ready.any (fun e => match e with
    | .stream r no _ k => r = q.rec_ && no = x.no && k = i
    | _ => false)
  pushReady s ring (((List.range q.streams.length).filter (fun i => !waits i)).map (Item.stream q.rec_ x.no x.chunks))

/-- A bound on the chunks of a run that begin at or before frame `c`. -/
def runFuel (s : State) (x : Run) (c : Nat) : Nat := ((c : Int) - runFirst s x).toNat + 3

/-- Makes deliverable what the release of frame `c` makes deliverable of one run (R237, R244). -/
def queueRun (q : RecQ) (ring c : Nat) : Nat → State → Run → State
  | 0, s, _ => s
  | n + 1, s, x =>
    if x.committed then s
    else if chunksDone s q x then
      let s := modRun s q.rec_ x.no x.segment (fun x => { x with committed := true })
      if q.whole then pushReady s ring [.commit q.rec_ x.no x.segment] else closeStream s ring q x
    else
      let (_, b) := chunkFrames s q x x.chunks
      if b ≤ (c : Int) && x.trigCount ≤ c then
        let items := (List.range q.streams.length).map (fun i =>
          if q.whole then Item.part q.rec_ x.no x.segment x.chunks i else Item.stream q.rec_ x.no x.chunks i)
        let items := if x.lost then [] else items
        let x' := { x with chunks := x.chunks + 1 }
        queueRun q ring c n (pushReady (modRun s q.rec_ x.no x.segment (fun _ => x')) ring items) x'
      else s

/-- Makes deliverable what the release of frame `c` makes deliverable, in ascending REC, then RECORD_NO (R237). -/
def queueParts (s : State) (c : Nat) : State :=
  s.cfg.records.foldl (fun s q =>
    match recRing s.cfg q with
    | none => s
    | some k => (s.recd q.rec_).runs.foldl (fun s x => queueRun q (deliveryRing k) c (runFuel s x c) s x) s) s

/-! ## Blocks -/

/-- One block and what it carries (Table 07-5): its bytes, flags, its items with their placements, and its ZONE. -/
structure BlockOut where
  bytes : Bytes
  invalid : Bool
  budget : Bool
  fenced : Bool
  count : Nat
  items : List (Nat × Nat)
  zone : Nat
  from_ : Nat

/-- The block of one stream in one held frame, for a span [lo, hi) of grid samples (R228, R254). -/
def blockOf (s : State) (ref : Nat) (lo : Int) (hi : Option Int) (f : HistFrame) : BlockOut :=
  let base := placeOf s f.count
  let l := (f.items.zip f.times).map (fun x => (base + x.2, x.1))
  let before := l.filter (fun x => decide ((x.1 : Int) < 32 * lo))
  let rest := l.filter (fun x => decide (32 * lo ≤ (x.1 : Int)))
  let inside := match hi with
    | some h => rest.filter (fun x => decide ((x.1 : Int) < 32 * h))
    | none => rest
  let trans := streamTrans s.cfg ref
  let zone := if trans then (match before.getLast? with
      | some x => x.2 / 64 % 4
      | none => f.zone) else 0
  let data := if f.invalid then [] else itemBytes (streamBits s.cfg ref) (inside.map (·.2))
  let n := if f.invalid then 0 else inside.length
  { bytes := le 8 f.frame.toNat ++ le 4 (if f.invalid then 0 else before.length) ++ le 4 n ++ le 4 data.length ++ le 1 zone ++
      le 1 (b2n f.invalid + 2 * b2n f.budget + 4 * b2n f.fenced) ++ zeros 2 ++ padTo 8 data
    invalid := f.invalid, budget := f.budget, fenced := f.fenced, count := n
    items := if f.invalid then [] else inside
    zone := zone
    from_ := max base (32 * lo).toNat }

/-- The frames [a, b] that carry blocks: those from the first frame of RUNNING on. -/
def blockFrames (s : State) (a b : Int) : List Int :=
  let a := max a (s.firstRun.getD 0 : Nat)
  (List.range (b - a + 1).toNat).map (fun i => a + i)

/-- The stream payload (Table 07-4). -/
def streamPayload (rec_ kind pflags no seg part stream idx blocks lost sample : Nat) (data : Bytes) : Bytes :=
  le 1 rec_ ++ le 1 kind ++ le 2 pflags ++ le 4 no ++ le 4 seg ++ le 4 part ++ le 4 stream ++ le 2 idx ++ le 2 blocks ++
    le 4 lost ++ le 4 sample ++ data

/-- Header flags of a frame's envelope by unit (R349). -/
def headFlags (s : State) (n : FrameNo) (invalid budget sealed fenced : Bool) : Nat :=
  timeFlags s.time n ||| (if invalid then fInvalid else 0) ||| (if budget then fBudget else 0) |||
    (if sealed then fSealed else 0) ||| (if fenced then fFenced else 0)

/-- The RECORDS quire is SEALED (type code 0x31, Table 02-5). -/
def quireRecords : Nat := 0x31

/-- A frame number from a frame count that may lie before frame 0. -/
def frameNoInt (c : Int) : FrameNo := BitVec.ofInt 40 c

/-- The postmark of a held frame's tick, by count. -/
def tickPostmark (s : State) (c : Int) : Postmark := BitVec.ofInt 64 ((s.time.tick0.getD 0 : Nat) + c * s.spacing)

/-- A data part of a WINDOW or SEGMENTED record (R236, R237), or none where a block it needs is no longer held (R239). DESIGN CHOICE
(assumption 28): INVALID, BUDGET_OVERRUN and FENCED_SOURCE in the header of a data part, a SPAN, a TRANSITIONS or a readout envelope are
those of the blocks it carries; chapter 07 states them for commits. -/
def partEnvelope (s : State) (q : RecQ) (x : Run) (chunk idx : Nat) : Option (Envelope × List BlockOut) :=
  let ref := nth q.streams idx
  let (a, b) := chunkFrames s q x chunk
  let frames := (blockFrames s a b).map (heldFrame s ref)
  if frames.any (·.isNone) then none
  else
    let blocks := (frames.filterMap id).map (blockOf s ref x.lo x.hi)
    let n := frameNoInt (max b x.trigCount)
    some ({ typ := 1
            flags := headFlags s n (blocks.any (·.invalid)) (blocks.any (·.budget)) (s.cfg.isSealed quireRecords)
              (blocks.any (·.fenced))
            source := 0x31000000 + q.rec_, frame := n, postmark := x.postmark
            payload := padTo 32 (streamPayload q.rec_ q.kind 0 x.no x.segment x.parts ref idx blocks.length 0 x.sample
              (blocks.flatMap (·.bytes))) }, blocks)

/-- Takes a data part into the run's account, for its commit and its MEASURE envelope. -/
def takePart (s : State) (q : RecQ) (x : Run) (idx : Nat) (blocks : List BlockOut) : Run :=
  let trans := streamTrans s.cfg (nth q.streams idx)
  let items := blocks.flatMap (fun b =>
    (if trans then [(b.from_, 256 + b.zone)] else []) ++
      b.items.map (fun i => (i.1, if trans then i.2 / 64 % 4 else i.2)))
  { x with parts := x.parts + 1, invalid := x.invalid || blocks.any (·.invalid), budget := x.budget || blocks.any (·.budget)
           fenced := x.fenced || blocks.any (·.fenced)
           items := if q.measure then tmod [] x.items idx (· ++ items) else x.items
           badStreams := if blocks.any (·.invalid) then setAdd x.badStreams idx else x.badStreams
           budStreams := if blocks.any (·.budget) then setAdd x.budStreams idx else x.budStreams }

/-- A commit (R236, R239, R240, R243). -/
def commitEnvelope (s : State) (q : RecQ) (x : Run) : Envelope :=
  let n := frameNoInt ((runLast s x).getD x.trigCount)
  let bad := x.lost || x.invalid || x.short || x.truncated
  { typ := 1, flags := headFlags s n bad x.budget (s.cfg.isSealed quireRecords) x.fenced
    source := 0x31000000 + q.rec_, frame := n, postmark := x.postmark
    payload := streamPayload q.rec_ q.kind (1 + 2 * b2n x.lost + 4 * b2n x.short + 8 * b2n x.truncated) x.no x.segment x.parts
      0xFFFFFFFF 0 0 (s.recd q.rec_).lostSince x.sample [] }

/-! ## MEASURE (R248 to R250) -/

/-- What items say of a level signal, oldest first (R249): (placement, high, edge). An item of a bit stream is an edge where its bit differs
from that of the item before it. A transition entry into zone 0b11 is a rising edge and a change out of 0b11 a falling one. An item of 256 or
more is the ZONE of a block, which sets the level without an edge. -/
def levelEvents (trans : Bool) : Option Bool → List (Nat × Nat) → List (Nat × Bool × Bool)
  | _, [] => []
  | p, (t, v) :: l =>
    let b := if trans then v % 256 = 3 else v = 1
    if 256 ≤ v || (!trans && p.isNone) then (t, b, false) :: levelEvents trans (some b) l
    else if (trans && b) || p = some (!b) then (t, b, true) :: levelEvents trans (some b) l
    else levelEvents trans (some b) l

/-- Widths of high pulses between a rising edge and the falling edge that ends them. -/
def pulseWidths : Option Nat → List (Nat × Bool × Bool) → List Nat
  | _, [] => []
  | _, (t, true, true) :: l => pulseWidths (some t) l
  | p, (_, true, false) :: l => pulseWidths p l
  | some p, (t, false, true) :: l => (t - p) :: pulseWidths none l
  | _, (_, false, _) :: l => pulseWidths none l

/-- Transit times of rises and falls over zone entries (R199). -/
def transits : Option Nat → Option (Nat × Nat) → List (Nat × Nat) → List Nat
  | _, _, [] => []
  | z, mid, (t, v) :: l =>
    if 256 ≤ v then transits (some (v - 256)) (if z = some (v - 256) then mid else none) l
    else match z with
      | none => transits (some v) none l
      | some y =>
        if y = v then transits z mid l
        else if v = 1 then transits (some 1) (some (y, t)) l
        else if y = 1 then
          (match mid with
            | some (f, p) => if f = v then transits (some v) none l else (t - p) :: transits (some v) none l
            | none => transits (some v) none l)
        else 0 :: transits (some v) none l

/-- High time of a level signal within [a, b), high since the instant given. -/
def highWithin (a b : Nat) : Option Nat → List (Nat × Bool × Bool) → Nat
  | some p, [] => b - max a (min p b)
  | none, [] => 0
  | p, (t, true, _) :: l => highWithin a b (some (p.getD t)) l
  | some p, (t, false, _) :: l => (max a (min t b) - max a (min p b)) + highWithin a b none l
  | none, (_, false, _) :: l => highWithin a b none l

/-- The MEASURE entry of a channel stream (R249, Table 07-7). -/
def chanMeasure (ref : Nat) (trans invalid budget : Bool) (items : List (Nat × Nat)) : Bytes :=
  let ones := 2 ^ 64 - 1
  if invalid then
    le 4 ref ++ le 4 (1 + 2 * b2n budget + 4 + 8 + 16) ++ le 4 0 ++ le 4 ones ++ le 8 ones ++ le 8 ones ++ le 8 ones ++ le 8 ones ++
      le 4 ones ++ le 4 ones ++ zeros 8
  else
    let e := levelEvents trans none items
    let rises := (e.filter (fun x => x.2.1 && x.2.2)).map (·.1)
    let n := rises.length
    let t1 := rises.headD 0
    let tl := rises.getLastD 0
    let d := tl - t1
    let per := n < 2 || d = 0
    let w := pulseWidths none e
    let tr := if trans then transits none none items else []
    let rnd (a b : Nat) : Nat := (2 * a + b) / (2 * max b 1)
    let mn (l : List Nat) : Nat := l.foldl min (l.headD 0)
    let mx (l : List Nat) : Nat := l.foldl max 0
    let flags := 2 * b2n budget + 4 * b2n per + 8 * b2n w.isEmpty + 16 * b2n tr.isEmpty
    le 4 ref ++ le 4 flags ++ le 4 n ++
      le 4 (if per then ones else rnd (highWithin t1 tl none e * 1000000) d) ++
      le 8 (if per then ones else rnd (256 * d) (n - 1)) ++
      le 8 (if per then ones else rnd ((n - 1) * 16000000000000000) d) ++
      le 8 (if w.isEmpty then ones else mn w) ++ le 8 (if w.isEmpty then ones else mx w) ++
      le 4 (if tr.isEmpty then ones else min (mn tr) 0xFFFFFFFE) ++ le 4 (if tr.isEmpty then ones else min (mx tr) 0xFFFFFFFE) ++
      zeros 8

/-- The MEASURE entry of a value stream (R250, Table 07-7). Without an output in the span the specification states no MIN, MAX,
MEAN and AMPLITUDE: they are free values (assumption 2). -/
def valueMeasure (s : State) (ref : Nat) (invalid budget : Bool) (items : List (Nat × Nat)) : Bytes × State :=
  let ones := 2 ^ 32 - 1
  if invalid then
    (le 4 ref ++ le 4 (1 + 2 * b2n budget) ++ le 4 0 ++ le 4 ones ++ le 8 ones ++ le 8 ones ++ le 8 ones ++ zeros 24, s)
  else if items.isEmpty then
    let (v, s) := takeFree s
    let (w, s) := takeFree s
    (le 4 ref ++ le 4 (2 * b2n budget) ++ le 4 0 ++ le 4 (v.toNat % 2 ^ 32) ++ le 8 (v.toNat / 2 ^ 32) ++ le 8 (w.toNat % 2 ^ 32) ++
      le 8 (w.toNat / 2 ^ 32) ++ zeros 24, s)
  else
    let l := items.map (fun x => sint 32 x.2)
    let x := l.headD 0
    let mn := l.foldl min x
    let mx := l.foldl max x
    let mean := divAway (l.foldl (· + ·) 0) l.length
    (le 4 ref ++ le 4 (2 * b2n budget) ++ le 4 l.length ++ leInt 4 mn ++ leInt 4 mx ++ zeros 4 ++ leInt 4 mean ++ zeros 4 ++
      le 4 (mx - mn).toNat ++ zeros 4 ++ zeros 24, s)

/-- The MEASURE envelope of a record (R248, R256). DESIGN CHOICE (assumption 28): its header flags are the commit's. -/
def measureEnvelope (s : State) (q : RecQ) (x : Run) (c : Envelope) : Envelope × State :=
  let (entries, s) := (List.range q.streams.length).foldl (fun (acc : Bytes × State) i =>
    let ref := nth q.streams i
    let items := tget [] x.items i
    let inv := x.badStreams.contains i
    let bud := x.budStreams.contains i
    if streamChan ref then (acc.1 ++ chanMeasure ref (streamTrans acc.2.cfg ref) inv bud items, acc.2)
    else
      let (b, s) := valueMeasure acc.2 ref inv bud items
      (acc.1 ++ b, s)) (([] : Bytes), s)
  ({ typ := 6, flags := c.flags, source := 0x31000000 + q.rec_, frame := c.frame, postmark := c.postmark
     payload := le 1 q.rec_ ++ le 1 q.kind ++ le 2 q.streams.length ++ le 4 x.no ++ le 4 x.segment ++ le 4 x.sample ++ le 4 q.pre ++
       le 4 q.post ++ zeros 8 ++ entries }, s)

/-! ## Writing from history -/

/-- Reads and writes of history are possible now (R322, R454). -/
def State.canReadHistory (s : State) : Bool := !s.banks.dramOff && !s.fenced 0x08 0 && s.coreClock

/-- The first ready item of a ring. -/
def headItem (s : State) (ring : Nat) : Option Item := (s.ring ring).ready.head?

def popReady (s : State) (ring : Nat) : State := modRing s ring (fun g => { g with ready := g.ready.drop 1 })

/-- Writes an envelope from the head of a ring's ready list if it fits, then goes on with `k`; otherwise nothing happens (R28,
R238). -/
def writeHead (s : State) (ring : Nat) (e : Envelope) (k : State → State) : State :=
  if s.canWriteRing ring && (s.ring ring).fits e.length then k (putEnvelope (popReady s ring) ring e) else s

/-- A record is lost (R239): no further part is written for it, and its commit says so. -/
def loseRun (s : State) (ring rec_ no seg : Nat) : State :=
  let s := modRing s ring (fun g => { g with ready := g.ready.filter (fun i => match i with
    | .part r n sg _ _ => !(r = rec_ && n = no && sg = seg)
    | _ => true) })
  modRun s rec_ no seg (fun x => { x with lost := true })

/-- The lowest-numbered frame of which a granule holds bytes or an index entry (R488). -/
def granuleHolds (s : State) (gr : Nat) : Option Nat :=
  ((s.hist.flatMap (fun e => (e.2.frames.filter (touchesGranule s e.2 gr)).map (·.count)))).min?

/-- An uncorrectable error in capture memory, at a byte of a granule (R320, R321): its fault. The frames that touch the granule are INVALID from
the fence on. -/
def dramError (s : State) (gr addr : Nat) : State :=
  let t := { s with banks := { s.banks with dramUncorr := satAdd 32 s.banks.dramUncorr 1, dramLast := some gr } }
  detect t ⟨0x07, gr⟩ 0x01 addr ((granuleHolds s gr).getD s.released)

/-- Bytes of capture memory (Table 10-1). -/
def dramBytes : Nat := 524288 * 65536

/-- Takes an error met by the read of a row, at a byte address of capture memory, into account. The row writes nothing: it reads again, and
finds the frames INVALID once the granule is fenced (R321). -/
def readFault (s : State) (bad : Option Nat) : State :=
  match bad with
  | some a => if a < dramBytes then dramError s (a / 65536) (a % 65536) else s
  | none => s

/-- The read of a row meets an error of capture memory. -/
def readFails (bad : Option Nat) : Bool :=
  match bad with
  | some a => decide (a < dramBytes)
  | none => false

/-- RECORD_PART_WRITE: the next part or commit of definition `r` (R236 to R241), with what its read meets. -/
def recordPartWrite (s : State) (r : Nat) (bad : Option Nat) : State :=
  match s.cfg.rec? r with
  | none => s
  | some q =>
    match recRing s.cfg q with
    | none => s
    | some k =>
      let ring := deliveryRing k
      match headItem s ring with
      | some (.part r' no seg chunk idx) =>
        if r' ≠ r || !s.canReadHistory || !s.canWriteRing ring then s
        else if readFails bad then readFault s bad
        else
          match (s.recd r).run? no seg with
          | none => popReady s ring
          | some x =>
            match partEnvelope s q x chunk idx with
            | none => loseRun s ring r no seg
            | some (e, blocks) => writeHead s ring e (fun s => modRun s r no seg (fun x => takePart s q x idx blocks))
      | some (.commit r' no seg) =>
        if r' ≠ r then s
        else match (s.recd r).run? no seg with
          | none => popReady s ring
          | some x =>
            let e := commitEnvelope s q x
            let bad := bit e.flags 0
            writeHead s ring e (fun s =>
              let s := modRec s r (fun d => { d with
                lostSince := 0, done := if x.lost then d.done else satAdd 32 d.done 1
                lost := if x.lost then satAdd 32 d.lost 1 else d.lost
                invalid := if !x.lost && bad then satAdd 32 d.invalid 1 else d.invalid })
              let s := dropRun s r no seg
              if q.measure && !x.lost then
                let (m, s) := measureEnvelope s q x e
                modRing s ring (fun g => { g with ready := .measure r no seg m :: g.ready })
              else s)
      | _ => s

/-- MEASURE: the MEASURE envelope of definition `r` that is first on its ring (R248). -/
def measureWrite (s : State) (r : Nat) : State :=
  match (s.cfg.rec? r).bind (recRing s.cfg) with
  | none => s
  | some k =>
    let ring := deliveryRing k
    match headItem s ring with
    | some (.measure r' _ _ e) => if r' = r then writeHead s ring e id else s
    | _ => s

/-- The oldest frame of a stream that is held. -/
def oldestHeld (s : State) (ref : Nat) : Int :=
  match (tget {} s.hist ref).frames.getLast? with
  | some f => f.count
  | none => (s.released : Nat)

/-- Where the next envelope of a SPAN or TRANSITIONS chunk begins and ends, and the frames that it leaves out because history no longer
holds them (R245, R246): first frame, last frame, frames left out, and whether any is gone. Every frame up to the one it goes on from counts
as skipped, also one that lies beyond the end of the run (DESIGN CHOICE, assumption 28). -/
def streamCut (s : State) (q : RecQ) (x : Run) (chunk idx : Nat) : Int × Int × Nat × Bool :=
  let ref := nth q.streams idx
  let (a, b) := chunkFrames s q x chunk
  let from_ := max a (tget 0 x.next idx : Nat)
  if (blockFrames s from_ b).any (fun c => (heldFrame s ref c).isNone) then
    let from' := max from_ (oldestHeld s ref + 8)
    (from', b, (from' - max from_ (s.firstRun.getD 0 : Nat)).toNat, true)
  else (from_, b, 0, false)

/-- The run once the frames left out are counted. -/
def cutRun (x : Run) (idx : Nat) (cut : Int × Int × Nat × Bool) : Run :=
  if cut.2.2.2 then { x with next := tput x.next idx cut.1.toNat, skipped := tmod 0 x.skipped idx (satAdd 32 · cut.2.2.1) } else x

/-- The state once the frames left out are counted. -/
def noteCut (s : State) (r no : Nat) (x : Run) (cut : Int × Int × Nat × Bool) : State :=
  if cut.2.2.2 then modRec (modRun s r no 0 (fun _ => x)) r (fun d => { d with skipped := satAdd 32 d.skipped cut.2.2.1 }) else s

/-- The blocks of an envelope, each with its frame; a TRANSITIONS definition has none for a frame without entries. -/
def streamBlocks (s : State) (q : RecQ) (x : Run) (idx : Nat) (cut : Int × Int × Nat × Bool) : List (HistFrame × BlockOut) :=
  let ref := nth q.streams idx
  let all := (blockFrames s cut.1 cut.2.1).filterMap (heldFrame s ref)
  let blocks := all.map (fun f => (f, blockOf s ref x.lo x.hi f))
  if q.kind = 4 then blocks.filter (fun e => e.2.count ≠ 0) else blocks

/-- The chunk is the last of a closed run. -/
def streamLast (s : State) (x : Run) (cut : Int × Int × Nat × Bool) : Bool := x.committed && decide (some cut.2.1 = runLast s x)

/-- The SPAN or TRANSITIONS envelope of a chunk (R244, R246). The last one of a run that a REBIND cuts carries LAST and not TRUNCATED, of which R243
speaks for commits alone (DESIGN CHOICE, log entry 28). -/
def streamEnvelope (s : State) (q : RecQ) (x : Run) (chunk idx : Nat) (cut : Int × Int × Nat × Bool)
    (blocks : List (HistFrame × BlockOut)) : Envelope :=
  let ref := nth q.streams idx
  let n := frameNoInt (max (max (chunkFrames s q x chunk).1 cut.2.1) x.trigCount)
  let lost := tget 0 x.skipped idx
  let pm := match blocks.head? with
    | some f => postmarkOf f.1.tickAt
    | none => tickPostmark s (max cut.1 (chunkFrames s q x chunk).1)
  { typ := if streamTrans s.cfg ref then 3 else 2
    flags := headFlags s n (blocks.any (·.2.invalid)) (blocks.any (·.2.budget)) (s.cfg.isSealed quireRecords)
      (blocks.any (·.2.fenced)) ||| (if lost ≠ 0 then fLossBefore else 0)
    source := 0x31000000 + q.rec_, frame := n, postmark := pm
    payload := padTo 32 (streamPayload q.rec_ q.kind (b2n (streamLast s x cut)) x.no 0 x.parts ref idx blocks.length lost x.sample
      (blocks.flatMap (·.2.bytes))) }

/-- A closed run of which nothing waits on its ring is over. -/
def endStream (s : State) (ring r no : Nat) (committed : Bool) : State :=
  if committed && !((s.ring ring).ready.any (fun i => match i with
      | .stream r2 n2 _ _ => r2 = r && n2 = no
      | _ => false)) then dropRun s r no 0 else s

/-- STREAM_ENVELOPE_WRITE: the next SPAN or TRANSITIONS envelope of definition `r` (R244 to R246). -/
def streamWrite (s : State) (r : Nat) (bad : Option Nat) : State :=
  match s.cfg.rec? r with
  | none => s
  | some q =>
    match recRing s.cfg q with
    | none => s
    | some k =>
      let ring := deliveryRing k
      match headItem s ring with
      | some (.stream r' no chunk idx) =>
        if r' ≠ r || !s.canReadHistory || !s.canWriteRing ring then s
        else if readFails bad then readFault s bad
        else
          match (s.recd r).run? no 0 with
          | none => popReady s ring
          | some x =>
            let cut := streamCut s q x chunk idx
            let x := cutRun x idx cut
            let s := noteCut s r no x cut
            let blocks := streamBlocks s q x idx cut
            if blocks.isEmpty && !streamLast s x cut then endStream (popReady s ring) ring r no x.committed
            else
              writeHead s ring (streamEnvelope s q x chunk idx cut blocks) (fun s =>
                endStream (modRun s r no 0 (fun x => { x with parts := x.parts + 1, skipped := tdel x.skipped idx })) ring r no x.committed)
      | _ => s

/-! ## Span readouts (R247) -/

/-- The next envelope of a span readout, which carries the frames `hs` (R247). -/
def readoutEnvelope (s : State) (x : Readout) (hs : List HistFrame) : Envelope :=
  let blocks := hs.map (blockOf s x.stream 0 none)
  let n := frameNo x.next
  { typ := if streamTrans s.cfg x.stream then 3 else 2
    flags := headFlags s n (blocks.any (·.invalid)) (blocks.any (·.budget)) (s.cfg.isSealed quireRecords) (blocks.any (·.fenced))
    source := 0x310000FF, frame := n, postmark := postmarkOf ((hs.head?.map (·.tickAt)).getD 0)
    payload := padTo 32 (streamPayload 0xFF 0 (b2n (decide (min (x.next + 63) x.last = x.last))) x.tag 0 x.written x.stream 0 blocks.length 0 0
      (blocks.flatMap (·.bytes))) }

/-- What history holds of the frames of a span readout's next envelope, 64 at most (R247). -/
def readoutFrames (s : State) (x : Readout) : List (Option HistFrame) :=
  (upFrom x.next (min (x.next + 63) x.last + 1 - x.next)).map (fun (c : Nat) => heldFrame s x.stream (c : Int))

/-- SPAN_READOUT_WRITE: the next envelope of the readout that is first on a ring; after the last one the command completes. -/
def readoutWrite (s : State) (k : Nat) (bad : Option Nat) : State :=
  let ring := deliveryRing k
  match headItem s ring with
  | some (.readout x) =>
    if !s.canReadHistory || s.fenced 0x0F 0 || !s.canWriteRing ring then s
    else if readFails bad then readFault s bad
    else
      let b := min (x.next + 63) x.last
      let frames := readoutFrames s x
      if frames.any (·.isNone) then complete (popReady s ring) x.cmd 8 x.written
      else writeHead s ring (readoutEnvelope s x (frames.filterMap id)) (fun s =>
        if b = x.last then complete s x.cmd 0 (x.written + 1)
        else pushReady s ring [.readout { x with next := b + 1, written := x.written + 1 }])
  | _ => s

/-! ## Ends of records -/

/-- A REBIND cuts the spans that reach beyond the last frame released (R243): each is closed with a commit that carries INVALID
and TRUNCATED, after the parts of its released frames. -/
def truncateRuns (s : State) : State :=
  let end_ : Int := (gridOf s s.released : Nat)
  s.cfg.records.foldl (fun s q =>
    let s := modRec s q.rec_ (fun e => { e with runs := e.runs.map (fun x =>
      match x.hi with
      | some h => if end_ < h then { x with hi := some (max end_ (x.lo + 1)), truncated := true } else x
      | none => { x with hi := some (max end_ (x.lo + 1)), truncated := true }) })
    match recRing s.cfg q with
    | none => s
    | some k => (s.recd q.rec_).runs.foldl (fun s x =>
        queueRun q (deliveryRing k) (s.released - 1) (runFuel s x (s.released - 1)) s x) s) s

end Sys2Proof.Machine
end

