-- ==== Sys2Proof/Machine/Release.lean ====
section
/-!
DEFINITION. The release of a frame (R22): the Class T work of its window, the commit of its process outputs, its envelopes
(R217, R223, R285, R309, R353, R355, R421, R494, R502) into staging, and the frame boundary that opens the next window.
-/
namespace Sys2Proof.Machine

/-! ## Registers that envelopes copy -/

/-- MOD_STATE (Table 03-8). -/
def modStateReg (s : State) : Nat :=
  let b := s.boot
  let step := if b.state == ModState.boot || b.state == ModState.bound then b.step else 0
  step * 65536 + b.rebindResult * 4096 + (match b.resume with
    | some m => m.code
    | none => 0) * 256 + b2n b.rebinding * 16 + b.state.code

/-- LID: bytes 0 to 3 of the sealed hash, byte 0 highest (R59). -/
def lidReg (s : State) : Nat := ofLe (s.boot.sealedHash.take 4).reverse

/-! ## The work window -/

/-- What the work window of a frame leaves for its release: sequencer events, and the sequencer commands applied with their
status. -/
structure Work where
  run  : SeqRun
  cmds : List (SeqCmd × Nat)

/-- The sequencer commands due in a frame: those of that frame, and those that waited for the first frame of RUNNING (R182). -/
def dueCmds (s : State) (c : Nat) : List SeqCmd := s.seqCmds.filter (fun k => decide (k.m.getD c ≤ c))

/-- Applies one sequencer command at sample 0 of a frame (R182 to R184); a disarm of a sequencer in endless dead time ends its
CONTINUOUS runs, that of a trigger forced in the same frame among them (R232). -/
def applyCmd (f : FrameSet) (acc : State × Work) (k : SeqCmd) : State × Work :=
  let (s, w) := acc
  match s.cfg.seq? k.seq with
  | none => (s, { w with cmds := w.cmds ++ [(k, 8)] })
  | some q =>
    let e := s.seq k.seq
    let ends := k.act = 2 && e.st == SeqState.dead && e.dead.never
    let (e, r, ok) := seqCommand s f q k.act e w.run
    let s := setSeq s k.seq e
    let s := if ends then (s.cfg.recsOf k.seq).foldl (fun s r => endRuns s r.rec_ (gridOf s f.count)) s else s
    let r := if ends then { r with trigs := r.trigs.map (fun t => { t with ended := t.ended || t.seq == k.seq }) } else r
    (s, { run := r, cmds := w.cmds ++ [(k, if ok then 0 else 7)] })

/-- The start of a frame's Class T work: reductions, sums and meter, then every sequencer begins the frame, and its commands are
applied before the step at sample 0 (R182). -/
def beginWork (s : State) (f : FrameSet) : State × Work :=
  let s := meterFrame (sumsFrame (redsFrame s f) f) f
  let (s, r) := beginSeqs s f
  (dueCmds s f.count).foldl (applyCmd f) (s, { run := r, cmds := [] })

/-- The triggers of a frame in the order of R217. -/
def orderTrigs (l : List TrigEvt) : List TrigEvt := sortBy (fun t => t.abs * 64 + t.seq) l

/-- All Class T work of a frame that carries field data, up to the process outputs and the history writes (R24). -/
def workFrame (s : State) (f : FrameSet) : State × Work :=
  let (s, f) := indexSamples s f
  let before := s.shown.getD s.seqs
  let (s, w) := beginWork { s with seqs := before, shown := none } f
  let (s, run) := seqsFrame s f before w.run
  let run := { run with trigs := orderTrigs run.trigs }
  let s := lcsFrame s f
  let s := commitEvts s f run.pulses
  let s := histFrame s f
  let s := if s.firstRun = some f.count then beginFirst s f.count else s
  let s := takeTrigs s f.count run.trigs
  let s := takeGates s f.count run.gates
  (s, { w with run := run })

/-- The sequencers as they stand once the commands of the frame in its work window have been applied, which the release works
out again (R182); none where no landed frame has a command due. -/
def aheadSeqs (s : State) : Option (Tbl Seq) :=
  match s.frameAt? s.released with
  | some f =>
    if f.field && !(dueCmds s f.count).isEmpty then
      let (s, f) := indexSamples s f
      some (beginWork { s with seqs := s.shown.getD s.seqs, shown := none } f).1.seqs
    else none
  | none => none

/-! ## Envelopes of a frame -/

/-- Quires whose SEALED mark envelopes carry (Table 02-5). -/
def quireSequencers : Nat := 0x30
def quireReductions : Nat := 0x40
def quireSums : Nat := 0x41
def quireMeasure : Nat := 0x50

/-- A TRIGGER envelope (R223, Table 06-10). -/
def triggerEnvelope (s : State) (f : FrameSet) (t : TrigEvt) : Envelope :=
  { typ := 8, flags := headFlags s f.frame false t.budget (s.cfg.isSealed quireSequencers) false
    source := 0x30000000 + t.seq, frame := f.frame, postmark := t.postmark
    payload := le 1 t.seq ++ le 1 t.level ++ le 1 t.slot ++ le 1 t.mask ++ le 1 t.tag ++
      le 1 (b2n t.forced + 2 * b2n t.noEdge + 4 * b2n t.last) ++ le 2 t.cause ++ le 4 t.sample ++ le 4 t.fine ++ le 4 t.cable ++
      le 4 t.no ++ le 4 t.arming ++ le 4 t.missed ++ le 8 t.dead ++ (List.range 4).flatMap (fun i => le 4 (nth t.view.cnt i)) ++
      le 1 t.view.flags ++ le 1 (b2n t.view.gate) ++ zeros 6 }

/-- A REDUCTION or WEIGH_SUM envelope (R285, Tables 08-11 and 08-12). -/
def valueEnvelope (s : State) (f : FrameSet) (typ source unit kind mask : Nat) (sealed : Bool) (o : FrameOut) : Envelope :=
  let base := placeOf s f.count
  let items := if o.valid then o.items else []
  { typ := typ, flags := headFlags s f.frame (!o.valid) o.budget sealed false, source := source, frame := f.frame
    postmark := postmarkOf (f.tickAt + (match items.head? with
      | some x => x.at_ - base
      | none => 0))
    payload := le 2 unit ++ le 1 kind ++ le 1 (b2n (items.any (·.sat)) + 2 * b2n (!o.valid && o.settling)) ++
      le 2 items.length ++ zeros 2 ++ le 8 o.firstIndex ++ le 8 mask ++ zeros 8 ++
      items.flatMap (fun x => leInt 4 x.value ++ le 4 ((x.at_ - base) % 2 ^ 24 + 2 ^ 24 * b2n x.sat)) }

/-- The REDUCTION envelopes of a frame. -/
def redEnvelopes (s : State) (f : FrameSet) : List Envelope :=
  s.cfg.reds.filterMap (fun q =>
    let o := (tget {} s.proc.reds q.red).out
    if o.count = 0 then none
    else some (valueEnvelope s f 4 (0x40000000 + q.red) q.red q.kind 0 (s.cfg.isSealed quireReductions) o))

/-- The WEIGH_SUM envelopes of a frame. -/
def sumEnvelopes (s : State) (f : FrameSet) : List Envelope :=
  s.cfg.sums.filterMap (fun q =>
    let o := (tget {} s.proc.sums q.ws).out
    if o.count = 0 then none
    else some (valueEnvelope s f 5 (0x41000000 + q.ws) q.ws 0 o.faultMask (s.cfg.isSealed quireSums) o))

/-- One STATS block (Table 09-7). -/
def statsBlock (base : Int) (b : MBlock) : Bytes :=
  le 8 b.no ++ leInt 8 b.mean ++ le 8 b.std ++ leInt 8 b.mn ++ leInt 8 b.mx ++ leInt 4 (b.at_ - b.cable - base) ++
    le 2 (b2n b.noStd + 2 * b2n b.budget + 4 * b2n b.brk) ++ zeros 2

/-- The STATS envelope of an entry, where the frame owes one (R309). The header postmark is the whole count at or before the first block's
instant, which is in fu (DESIGN CHOICE, assumption 29). -/
def statsEnvelope (s : State) (f : FrameSet) (q : MeasQ) (m : Meas) : Option Envelope :=
  if m.blks.isEmpty && !m.newInvalid then none
  else
    let base : Int := 256 * placeOf s f.count
    let inv := m.blks.isEmpty
    some { typ := 7
           flags := headFlags s f.frame inv (m.blks.any (·.budget)) (s.cfg.isSealed quireMeasure) false
           source := 0x50000000 + q.entry, frame := f.frame
           postmark := (match m.blks.head? with
             | some b => BitVec.ofInt 64 ((f.tickAt : Int) + fdiv (b.at_ - b.cable - base) 256)
             | none => postmarkOf f.tickAt)
           payload := le 2 q.entry ++ le 1 q.kind ++ zeros 1 ++ le 2 m.blks.length ++ zeros 2 ++ le 4 q.n ++
             le 4 (min m.breaksNow (2 ^ 32 - 1)) ++ le 4 m.abandonedSince ++ zeros 12 ++ m.blks.flatMap (statsBlock base) }

/-- The STATS envelopes of a frame. -/
def statsEnvelopes (s : State) (f : FrameSet) : List Envelope :=
  s.cfg.meas.filterMap (fun q => statsEnvelope s f q (tget {} s.meter.entries q.entry))

/-- A block abandoned has been reported by the frame's STATS envelope. -/
def clearAbandoned (s : State) : State :=
  { s with meter := { s.meter with entries := tmap s.meter.entries (fun _ m =>
      if m.blks.isEmpty && !m.newInvalid then m else { m with abandonedSince := 0 }) } }

/-- The TIMEMAP envelope of a frame, where it owes one (R421, Table 13-5). -/
def timemapEnvelope (s : State) (f : FrameSet) : List Envelope :=
  match segOf s.time.segs (postmarkOf f.tickAt) with
  | none => []
  | some g =>
    if g.anchor == postmarkOf f.tickAt || f.count = 0 || f.frame.toNat % (max 1 s.cfg.time.timemapFrames) = 0 then
      let ns := fdiv g.q qNs
      [{ typ := 9, flags := timeFlags s.time f.frame, source := 0, frame := f.frame, postmark := postmarkOf f.tickAt
         payload := le 1 (g.dom.getD 0xFF) ++ le 1 (match f.tl with
             | .untraced => 0
             | .traced => 1
             | .coasting => 2) ++
           le 2 (b2n g.step + 2 * b2n g.stepBack + 4 * b2n f.slewing + 8 * b2n g.switch + 16 * b2n f.osc + 32 * b2n f.utc.isSome) ++
           leInt 4 g.rho ++ le 8 g.anchor.toNat ++ leInt 6 (fdiv g.q qSec) ++ leInt 2 (g.q % qNs) ++ leInt 4 (ns % 1000000000) ++
           leInt 2 (f.utc.getD 0) ++ zeros 2 ++ leInt 8 g.stepNs ++ zeros 24 }]
    else []

/-- The HEARTBEAT envelope of a frame, where it owes one (R353, Table 11-7). -/
def heartbeatEnvelope (s : State) (f : FrameSet) : List Envelope :=
  if f.frame.toNat % (max 1 s.cfg.delivery.hbFrames) = 0 then
    [{ typ := 0x0D, flags := timeFlags s.time f.frame, source := 0, frame := f.frame, postmark := postmarkOf f.tickAt
       payload := le 4 (modStateReg s) ++ le 4 (lidReg s) ++ le 8 s.boot.folioSerial ++ le 4 s.page.franking ++ le 4 s.rings.gen ++
         zeros 8 ++ mapHash s }]
  else []

/-- The FRANKING envelopes of a release in RUNNING (R502): the events not yet delivered, as far as the last 1,024. -/
def frankingEnvelopes (s : State) (f : FrameSet) : List Envelope :=
  if s.boot.state == ModState.running then
    let l := s.franking.undelivered
    (l.drop (l.length - 1024)).map (fun n =>
      { typ := 0x0C, flags := timeFlags s.time f.frame, source := 0x10FF0000, frame := f.frame
        postmark := postmarkOf (f.tickAt + 2 * s.spacing), payload := stRead s.franking.mem (eventAddr n) 64 })
  else []

/-- The FAULT envelopes that wait, given the frame that releases them, in the order of R489. -/
def faultEnvelopes (s : State) (f : FrameSet) : List Envelope :=
  (sortBy (fun e => fld e.payload 0 1 * 2 ^ 32 + fld e.payload 4 4) s.rings.waitingEnv).map (fun e =>
    { e with frame := f.frame, flags := e.flags ||| timeFlags s.time f.frame })

/-- Every staged envelope of a frame, in the order of R355. -/
def frameEnvelopes (s : State) (f : FrameSet) (trigs : List TrigEvt) : List Envelope :=
  let field := if f.field then redEnvelopes s f ++ sumEnvelopes s f ++ statsEnvelopes s f else []
  orderEnvelopes (faultEnvelopes s f ++ timemapEnvelope s f ++ trigs.map (triggerEnvelope s f) ++ field ++
    frankingEnvelopes s f ++ heartbeatEnvelope s f)

/-! ## What goes wrong in the window -/

/-- The staged envelope that holds byte `a` of a staging bank's place, with its target (R336). -/
def stagedAt (s : State) (b a : Nat) : Option (Nat × Envelope) :=
  match tget? s.banks.role (origBank s b) with
  | some (4, _) =>
    if servesPlace s b then
      let off := (findIdx? (fun x => x == origBank s b) (stageBanks s)).getD 0 * 2 ^ 20 + a / 32 * 32
      (stageTargets s).findSome? (fun t =>
        ((stagedFor s t).find? (fun e => (stageUnits s t e.slot e.length).contains off)).map (fun e => (t, e)))
    else none
  | _ => none

/-- The envelope assembler drops the envelope that holds a word with a double-bit error (R336). -/
def dropWord (s : State) (b a : Nat) : State :=
  match stagedAt s b a with
  | some (t, e) => dropHeld s t 3 (· == e)
  | none => s

/-- The frame that a frame-set bank holds, from frame `c` on (R327); `c` for any other bank. -/
def bankFrame (s : State) (c b : Nat) : Nat :=
  ((s.frames.reverse.find? (fun f => decide (c ≤ f.count) && (tget (0, 0) s.banks.role (origBank s b)).1 = f.count % 3 + 1)).map (·.count)).getD c

/-- A double-bit error in a gathering bank, met while the window of frame `c` is worked: in a frame-set bank it reaches the frame in that set, which
is being worked, landed or landing (R336, R488). -/
def bankError (c : Nat) (s : State) (e : Nat × Nat) : State :=
  let (b, a) := e
  let s := { s with banks := { s.banks with ecc := tmod (0, 0) s.banks.ecc b (fun x => (x.1, satAdd 16 x.2 1)) } }
  let at_ := bankFrame s c b
  let s := { s with frames := s.frames.map (fun f =>
    if f.count = at_ then { f with badChans := f.badChans ++ wordStreams s f.count b a } else f) }
  detect (dropWord s b a) ⟨0x06, b⟩ 0x02 a at_

/-- The units that can miss a deadline (Table 16-1, cause 0x09). -/
def canBeLate (u : FUnit) : Bool :=
  (u.cls = 0x01 && u.idx < 16) || (u.cls = 0x03 && u.idx < 4096) || (u.cls = 0x04 && u.idx < 272) ||
    (u.cls = 0x05 && u.idx = 0) || (u.cls = 0x08 && u.idx = 0)

/-- Counts single-bit errors that a bank has corrected (R336, R482). -/
def bankCorrected (s : State) (e : Nat × Nat) : State :=
  aerCorrected { s with banks := { s.banks with ecc := tmod (0, 0) s.banks.ecc e.1 (fun x => (satAdd 16 x.1 e.2, x.2)) } } e.2

/-- What is found wrong while the window of frame `c` is worked (R23, R320, R336). -/
def windowFaults (s : State) (c : Nat) (w : WindowFaults) : State :=
  let s := (w.corrected.filter (fun e => decide (e.1 < 136))).foldl bankCorrected s
  let s := (w.late.filter canBeLate).foldl (fun s u => detect s u 0x09 0 c) s
  let s := (w.bankErrs.filter (fun e => decide (e.1 < 136))).foldl (bankError c) s
  (w.dramErrs.filter (fun e => decide (e.1 < 524288))).foldl (fun s e => dramError s e.1 e.2) s

/-! ## The frame boundary -/

/-- The re-admitted banks of frame set `k` take their places again, and their spares return to the spares (R337, R367). -/
def returnBanks (s : State) (k : Nat) : State :=
  (s.banks.returning.filter (fun b => (tget (0, 0) s.banks.role b).1 = k + 1)).foldl (fun s b =>
    bumpGen { s with banks := { s.banks with
      owner := match tget? s.banks.moved b with
        | some u => tput s.banks.owner u 0
        | none => s.banks.owner
      moved := tdel s.banks.moved b, returning := s.banks.returning.filter (· != b) } }) s

/-- A frame-set bank that is fenced, or that returns without a spare, holds nothing of the frames that have begun to land in it: their streams there
are INVALID, and the bank or its spare serves from the next use of the set (R337). -/
def spoilBank (s : State) (b : Nat) : State :=
  if servesPlace s b then
    { s with frames := s.frames.map (fun f =>
      if s.released ≤ f.count then { f with badChans := f.badChans ++ bankStreams s f.count b } else f) }
  else s

/-- Hands the frame sets over at the close of W_n (R327, Table 10-5). A bank that has not been handed to a lander since it began to serve waits
for the next use of its set (R337). -/
def handover (s : State) (n : Nat) : State :=
  let s := returnBanks s (n % 3)
  { s with banks := { s.banks with owner := s.banks.role.foldl (fun t e =>
      let b := holderBank s e.1
      if s.fenced 0x06 b then t
      else if e.2.1 = n % 3 + 1 then tput t b (0x020 + e.2.2)
      else if e.2.1 = (n + 1) % 3 + 1 && tget 0 t b ≠ 0 then tput t b 0x030 else t) s.banks.owner } }

/-- The mailbox words that conditions name. -/
def mailboxSrcs (q : Folio) : List Nat :=
  uniq (q.seqs.flatMap (fun e => (e.conds.filter (fun c => c.type = 0x0C)).map (·.src)))

/-- Reads every mailbox word as a window opens (R208). -/
def latchMailbox (s : State) : State :=
  { s with banks := { s.banks with mailbox := (mailboxSrcs s.cfg).map (fun k =>
      (k, ofLe (mread 0 s.banks.mem (2 ^ 20 * (128 + k / 65536 % 8) + 4 * (k % 65536)) 4))) } }

/-- Re-admits a unit (R492); a bank that no spare has stood in for serves from the next use of its set (R337). -/
def readmit (s : State) (u : FUnit) : State := readmitUnit (if u.cls = 0x06 then spoilBank s u.idx else s) u

/-- Re-admits every unit whose self-test has passed (R492). -/
def readmitPassed (s : State) : State :=
  (s.faults.fences.filter (fun e => s.mayReturn e.2)).foldl (fun s e => readmit s ⟨e.1 / 2 ^ 24, e.1 % 2 ^ 24⟩) s

/-- The frame boundary at the release of frame `n`: fences, returns, and the opening of the next window. -/
def boundary (s : State) (n : Nat) : State :=
  let s := (s.faults.pending.filter (fun d => d.unit.cls = 0x06)).foldl (fun s d => spoilBank s d.unit.idx) s
  let s := fencePending s (n + 1)
  let s := readmitPassed s
  latchMailbox (handover s n)

/-! ## FRAME_RELEASE -/

/-- Frame `n` can be released: it has landed, tick n + 2 has come, the core runs on its own clock, and no REBIND has stopped
Class T (R22, R108, R454). -/
def State.canRelease (s : State) : Bool :=
  s.ticking && s.coreClock && decide (s.released + 3 ≤ s.time.ticks) && (s.frameAt? s.released).isSome &&
    decide (s.boot.phase ≠ .draining)

/-- A group whose frame has not landed by T_F + 4 µs misses its deadline (Table 16-1, cause 0x09). -/
def lateGroups (s : State) (c : Nat) : State :=
  match s.frameAt? c with
  | some f =>
    if f.field && !f.invalid && s.boot.state != ModState.faultHold then
      (f.need.filter (fun e => e.2 ≠ 0)).foldl (fun s e => detect s ⟨0x01, e.1⟩ 0x09 0 c) s
    else s
  | none => s

/-- FG_OVERRUN (R164): frames with BUDGET_OVERRUN, and what the latest of them dropped. -/
def countOverruns (s : State) (f : FrameSet) : State :=
  { s with field := { s.field with overruns := f.chans.foldl (fun t e =>
      if e.2.dropped = 0 then t else tmod (0, 0) t e.1 (fun x => (satAdd 16 x.1 1, min 65535 e.2.dropped))) s.field.overruns } }

/-- The release of frame `n` (R22). -/
def releaseFrame (s : State) (f : FrameSet) : State :=
  let n := f.count
  let (s, w) := if f.field then workFrame (countOverruns s f) f else (s, { run := {}, cmds := [] })
  let s := { s with rings := { s.rings with
      rings := tmap s.rings.rings (fun _ g => { g with dropping := false }), netDropping := [] } }
  let s := (frameEnvelopes s f w.run.trigs).foldl stage s
  let s := { s with rings := { s.rings with waitingEnv := [] } }
  let s := if s.boot.state == ModState.running then { s with franking := { s.franking with undelivered := [] } } else s
  let s := stageLoss s f.frame (postmarkOf f.tickAt)
  let s := if f.field then queueParts s n else s
  let s := if f.field then clearAbandoned (keepResults (keepOutputs s)) else s
  let s := { s with
    released := n + 1
    frames := s.frames.filter (fun x => decide (n ≤ x.count))
    seqCmds := s.seqCmds.filter (fun k => !(w.cmds.any (fun x => x.1 == k))) }
  let s := w.cmds.foldl (fun s x => complete s (x.1.ring, x.1.entry) x.2 0) s
  let s := boundary (lateGroups s (n + 1)) n
  ltrCheck { s with snap := some s.snapNow }

/-- FRAME_RELEASE: at t_{n+2} + δ the window of the oldest frame closes (R22, Table 01-2). -/
def execFrameRelease (w : WindowFaults) (s : State) : Res :=
  if s.canRelease then
    let n := s.released
    let s := windowFaults (advanceTo s (s.tickOf (n + 2) + delta)) n w
    match s.frameAt? n with
    | some f => .next (releaseFrame s f)
    | none => .next s
  else .next s

/-- SEQ_COMMAND_APPLY: once the window of a landed frame is open, the sequencer commands due in it are applied at its sample 0
(R182); the registers show it, and the completions are written, at its release. -/
def execSeqCommandApply (s : State) : Res :=
  if s.canRelease || (s.ticking && s.coreClock && decide (s.tickOf (s.released + 1) + delta ≤ s.now)) then
    match aheadSeqs s with
    | some t => .next { s with shown := some (s.shown.getD s.seqs), seqs := t }
    | none => .next s
  else .next s

/-- REARM: a sequencer whose re-arm instant A is at the tick of the frame in its work window, or earlier, is re-armed (R233).
Instants A within a frame are met by that frame's steps. -/
def execRearm (q : Nat) (s : State) : Res :=
  match s.cfg.seq? q with
  | some e =>
    let d := (s.seq q).dead
    if s.ticking && (s.seq q).st == SeqState.dead && !d.never && decide (d.rearm ≤ gridOf s s.released) then
      .next { s with shown := some (s.shown.getD s.seqs)
                     seqs := tput s.seqs q (rearmBy e (s.seq q) (gridOf s s.released) {}).1 }
    else .next s
  | none => .next s

/-- PULSE_END: the pulse of an output whose last commit has passed ends (R277). -/
def execPulseEnd (o : Nat) (s : State) : Res :=
  .next { s with proc := { s.proc with evts := tmap s.proc.evts (fun k e =>
    if k = o then (match e.pulse with
      | some c => if c ≤ s.released then { e with pulse := none } else e
      | none => e) else e) } }

end Sys2Proof.Machine
end

