-- ==== Sys2Proof/Machine/Tile.lean ====
section
/-!
DEFINITION. What the tiles capture in one frame (R149 to R165, R287 to R292): samples, transitions, located MCLK edges and
stamps, and how they cross the barrier and land (R134).
-/
namespace Sys2Proof.Machine

/-! ## Comparators -/

/-- The zone of a comparator pair (Table 05-2). -/
def zoneCode (z : Bool × Bool) : Nat := if z.1 then 3 else if z.2 then 1 else 0

/-- The comparator that a CMP bit selects: HI (0) or LO (1). -/
def selCmp (cmp : Bool) (z : Bool × Bool) : Bool := if cmp then z.2 else z.1

/-- Changes by 62.5 ps bin: one change a bin, with the final state, and none where a bin ends as it began (R161). -/
def mergeBins : Bool × Bool → List (Nat × Bool × Bool) → List (Nat × Bool × Bool)
  | _, [] => []
  | z, [(t, w)] => if w = z then [] else [(t / 256, w)]
  | z, (t, w) :: (t', w') :: l =>
    if t / 256 = t' / 256 then mergeBins z ((t', w') :: l)
    else if w = z then mergeBins z ((t', w') :: l)
    else (t / 256, w) :: mergeBins w ((t', w') :: l)

/-- The changes of a value among changes of a comparator pair. -/
def mapChanges {α : Type} [BEq α] (f : Bool × Bool → α) : Bool × Bool → List (Nat × Bool × Bool) → List (Nat × α)
  | _, [] => []
  | z, (t, w) :: l => if f w == f z then mapChanges f w l else (t, f w) :: mapChanges f w l

/-- The value just before each of some instants (R153): (OFFSET, value, index), both lists in order. -/
def sampleBits {α : Type} : Nat → α → List (Nat × α) → List (Nat × Nat) → List (Nat × α × Nat)
  | 0, _, _, _ => []
  | _, _, _, [] => []
  | k + 1, v, [], (o, j) :: r => (o, v, j) :: sampleBits k v [] r
  | k + 1, v, (p, w) :: c, (o, j) :: r =>
    if p < o then sampleBits k w c ((o, j) :: r) else (o, v, j) :: sampleBits k v ((p, w) :: c) r

/-- Removes the pulses shorter than `m` bins, latest first: both of their changes go (R156, R206, assumption 12). -/
def deglitchOnto {α : Type} (m : Nat) (acc l : List (Nat × α)) : List (Nat × α) :=
  l.foldl (fun acc x => match acc with
    | y :: r => if x.1 - y.1 < m then r else x :: acc
    | [] => [x]) acc

/-- Changes of the frame before, `m` bins at most before its end and latest first, counted from `m` bins before the tick. -/
def tailFrom {α : Type} (m : Nat) (tail : List (Nat × α)) : List (Nat × α) := tail.map (fun e => (m - e.1, e.2))

/-- The changes of a frame without short pulses, also without one that began in the tail of the frame before. -/
def deglitch {α : Type} (m : Nat) (tail l : List (Nat × α)) : List (Nat × α) :=
  (((deglitchOnto m (tailFrom m tail) (l.map (fun x => (x.1 + m, x.2)))).reverse).filter (fun x => m ≤ x.1)).map
    (fun x => (x.1 - m, x.2))

/-- The changes of a frame of `len` bins that lie less than `m` bins before its end, as its tail. -/
def tailOf {α : Type} (m len : Nat) (l : List (Nat × α)) : List (Nat × α) :=
  ((l.filter (fun x => len < x.1 + m)).map (fun x => (len - x.1, x.2))).reverse

/-- The changes of the tail that are no short pulse begun there and ended by the changes `l` of the next frame. -/
def tailLeft {α : Type} (m : Nat) (tail l : List (Nat × α)) : List (Nat × α) :=
  (deglitchOnto m (tailFrom m tail) (l.map (fun x => (x.1 + m, x.2)))).filter (fun x => x.1 < m)

/-- Zone changes that SLOPE keeps (R117): BOTH 0, RISING 1, FALLING 2. -/
def slopeKeeps (slope : Nat) : Nat → List (Nat × Nat) → List (Nat × Nat)
  | _, [] => []
  | z, (t, w) :: l =>
    if slope = 0 || (slope = 1 && z < w) || (slope = 2 && w < z) then (t, w) :: slopeKeeps slope w l else slopeKeeps slope w l

/-! ## MCLK edges (R125, R154) -/

/-- The located edges of one phase grid in [lo, hi): `delay` is the factory output delay plus RETURN_DELAY in pu. -/
def gridRun (e : MGrid) (falling : Bool) (delay : Int) (lo hi : Nat) : Option EdgeRun :=
  let per := 32 * e.div
  if per = 0 then none
  else
    let first : Int := (e.from_ : Int) + (if falling then 32 * (cdiv e.div 2 : Nat) else 0) + delay
    let upTo (x : Nat) : Nat := (-(fdiv (first - x) per)).toNat
    let i0 := upTo lo
    let i1 := match e.n with
      | some n => min n (upTo hi)
      | none => upTo hi
    if i0 < i1 then some { off := (first + i0 * per - lo).toNat, per := per, n := i1 - i0, j := e.base + i0 } else none

/-- Factory output delay plus RETURN_DELAY of an output, in pu: the placement is the 62.5 ps bin that holds the instant. -/
def mclkDelay (s : State) (g k : Nat) : Int :=
  fdiv (mclkOutDelay s.franking.mem g k) 64 + (((((s.cfg.group? g).map GroupQ.mclk).getD []).getD k {}).returnDelay : Nat)

/-- Edges of the phase grid of frame 0 that lie before its first one and are located at or after the tick of frame 0: index 0 is
the first edge located in frame 0, as in the worked example of chapter 08, whose frame n holds inputs 1,250n to 1,250n + 1,249 with a
RETURN_DELAY of 600 ns (R157, Table 08-2). -/
def edgesBefore (s : State) (l : List MGrid) (falling : Bool) (delay : Int) : Int :=
  match l with
  | e :: _ =>
    if s.time.tick0 = some e.from_ then fdiv ((if falling then 32 * (cdiv e.div 2 : Nat) else 0) + delay) (max 1 (32 * e.div) : Nat) else 0
  | [] => 0

/-- The located edges of output `k` of group `g` in [lo, hi), counted from frame 0. -/
def mclkRuns (s : State) (g k : Nat) (falling : Bool) (lo hi : Nat) : List EdgeRun :=
  let l := tget [] s.field.grids (4 * g + k)
  let d := mclkDelay s g k
  (l.filterMap (fun e => gridRun e falling d lo hi)).map (fun r => { r with j := ((r.j : Int) + edgesBefore s l falling d).toNat })

/-- Every located edge of a frame, by output and direction. -/
def frameMclk (s : State) (tick : Nat) : Tbl (List EdgeRun) :=
  s.cfg.groups.flatMap (fun g => (List.range 4).flatMap (fun k =>
    [(8 * g + 2 * k, mclkRuns s g k false tick (tick + s.spacing)),
     (8 * g + 2 * k + 1, mclkRuns s g k true tick (tick + s.spacing))]))

/-! ## Channels -/

/-- The merged changes of a channel in the frame that closes. -/
def TileChan.merged (t : TileChan) : List (Nat × Bool × Bool) := mergeBins (t.hi0, t.lo0) t.raw

/-- The settings that the tile applies to a channel (R137); without them the channel is OFF. -/
def State.tileSet (s : State) (c : Nat) : ChanSet := tget ⟨c % 64, 0, 0, 0, 0, 0⟩ (s.group (c / 64)).applied.chans (c % 64)

/-- The tail of the comparator that CLOCK_CMP selects. -/
def TileChan.tail (t : TileChan) (cmp : Bool) : List (Nat × Bool) := if cmp then t.tailLo else t.tailHi

/-- The clock edges of a channel clock source in the frame that closes, by both directions (R154, R156). -/
def clockEdges (s : State) (src : Nat) (cmp : Bool) : List (Nat × Bool) :=
  let t := s.tileChan src
  deglitch 16 (t.tail cmp) (mapChanges (selCmp cmp) (t.hi0, t.lo0) t.merged)

/-- Group `g` drives MCLKk with divider `n` and the edge at `at_` pu since reset, which leaves its contact `delay` before it is located,
is one that the output gives: it has started at a rising edge at or after the instant from which it may (R84). -/
def mclkGiven (s : State) (g k : Nat) (falling : Bool) (at_ : Nat) : Bool :=
  let e := s.group g
  let n := (tget (0, 0) e.applied.mclk k).1
  match e.mclkFrom with
  | some a => n ≠ 0 && decide ((a : Int) + mclkDelay s g k + (if falling then 32 * (cdiv n 2 : Nat) else 0) ≤ at_)
  | none => false

/-- The sample instants of a channel in a frame: (OFFSET, index), before the sample budget (R150 to R154). A channel clock source
counts from 0: its indices are completed as the frame is worked. A clock of more than 250 MHz whose pulses last 1.0 ns or longer misses no
edge: R156 does not say which edges are missed (DESIGN CHOICE, log entry 12). -/
def instants (s : State) (f : FrameSet) (c : Nat) : List (Nat × Nat) :=
  let q := s.cfg.chan c
  if q.mode = 1 then
    let p := 32 * 2 ^ q.rateK
    let base := placeOf s f.count
    let lo := cdiv base p
    (upFrom lo (cdiv (base + s.spacing) p - lo)).map (fun j => (j * p - base, j))
  else if q.mode = 2 then
    if 64 ≤ q.clockSrc then (f.mclkEdges (c / 64) (q.clockSrc - 64) q.clockFalling).filter (fun x =>
      mclkGiven s (c / 64) (q.clockSrc - 64) q.clockFalling (f.tickAt + x.1))
    else
      let e := (clockEdges s (c / 64 * 64 + q.clockSrc) q.clockCmp).filter (fun x => x.2 != q.clockFalling)
      (e.zipIdx).map (fun x => (x.1.1, x.2))
  else []

/-- The zone changes among zone samples (R160). -/
def zoneChanges : Nat → List (Nat × Nat × Nat) → List (Nat × Nat)
  | _, [] => []
  | z, (o, w, _) :: l => if z = w then zoneChanges z l else (o, w) :: zoneChanges w l

/-- The latest sample bit before a frame, from the frame before it (R187). -/
def bitBefore (s : State) (f : FrameSet) (c : Nat) : Option Bool :=
  if f.count = 0 then none
  else match s.frameAt? (f.count - 1) with
    | some p => if chanValid s p c then (((p.chan c).samples.getLast?).map (·.2.1)).orElse (fun _ => (p.chan c).last0) else none
    | none => none

/-- What a CLOCKED TRANSITIONS channel gives at some sample instants, of which the budget takes the first: its entries, the changes and
edges dropped, and the zone of its latest sample (R156, R160, R164). -/
def clockedTrans (s : State) (c : Nat) (inst : List (Nat × Nat)) : List (Nat × Nat) × Nat × Nat :=
  let t := s.tileChan c
  let z0 := (t.hi0, t.lo0)
  let kept := inst.take (nF s.cfg c)
  let zs := mapChanges zoneCode z0 t.merged
  let at_ := sampleBits (zs.length + kept.length + 1) (zoneCode z0) zs kept
  let keep := slopeKeeps (s.tileSet c).slope t.lastZone (zoneChanges t.lastZone at_)
  let e := eF s.cfg c
  (keep.take e, (inst.length - kept.length) + (keep.length - e), (at_.getLast?.map (·.2.1)).getD t.lastZone)

/-- What the tile captures of one channel in the frame that closes, but for its stamps (R150 to R165), with the SLOPE that it applies.
A channel without settings in the tile is OFF, and its comparators show nothing (`execZoneChange`). The samples of a TRANSITIONS
channel are kept where a pick reads them (R117, R259). -/
def captureChan (s : State) (f : FrameSet) (c : Nat) : LandedChan :=
  let q := s.cfg.chan c
  let t := s.tileChan c
  let z0 := (t.hi0, t.lo0)
  let m := t.merged
  let inst := instants s f c
  let kept := if q.mode = 2 then inst.take (nF s.cfg c) else inst
  if q.trans && q.mode = 2 then
    let r := clockedTrans s c inst
    { entries := r.1, zone0 := zoneCode z0, dropped := r.2.1
      uncut := if q.clockSrc < 64 then some (clockedTrans s c inst.dropLast) else none }
  else if q.trans then
    let keep := slopeKeeps (s.tileSet c).slope (zoneCode z0) (mapChanges zoneCode z0 m)
    let e := eF s.cfg c
    let bs := mapChanges (selCmp q.dataCmp) z0 m
    let picked := q.mode = 1 && s.cfg.reds.any (fun r => r.chan = c && r.pick)
    { samples := if picked then sampleBits (bs.length + kept.length + 1) (selCmp q.dataCmp z0) bs kept else []
      last0 := if picked then bitBefore s f c else none
      entries := keep.take e, zone0 := zoneCode z0, dropped := keep.length - e }
  else
    let bs := mapChanges (selCmp q.dataCmp) z0 m
    { samples := sampleBits (bs.length + kept.length + 1) (selCmp q.dataCmp z0) bs kept, zone0 := zoneCode z0
      last0 := bitBefore s f c, dropped := inst.length - kept.length }

/-- The zone of a channel's latest sample as the frame closes (R160). -/
def closeZone (s : State) (f : FrameSet) (c : Nat) : Nat :=
  let q := s.cfg.chan c
  if q.mode = 2 && q.trans then (clockedTrans s c (instants s f c)).2.2 else (s.tileChan c).lastZone

/-! ## Stamps (R287 to R292) -/

/-- The MEASURE entries that name a channel, each with the edge directions it needs: (COMP, rise, fall) (R290). -/
def stampUses (q : Folio) (c : Nat) : List (Bool × Bool × Bool) :=
  q.meas.flatMap (fun e =>
    (if e.chA = c then [(e.comp, e.kind = 4 || edgeUsed e.edgeA true, e.kind = 4 || edgeUsed e.edgeA false)] else []) ++
    (if (e.kind = 1 || e.kind = 5) && e.chB = c then [(e.comp, edgeUsed e.edgeB true, edgeUsed e.edgeB false)] else []))

/-- The edges of a channel that its lane is to stamp in the frame: (OFFSET in fu, rise). -/
def stampEdges (s : State) (c : Nat) : List (Nat × Bool) :=
  let u := stampUses s.cfg c
  match u with
  | [] => []
  | (comp, _, _) :: _ =>
    let t := s.tileChan c
    (mapChanges (selCmp comp) (t.hi0, t.lo0) t.raw).filter (fun x => u.any (fun k => if x.2 then k.2.1 else k.2.2))

/-- What the lanes of a group make of a frame: stamps by channel, BREAK pending by channel, dead time by lane in fu since reset,
and edges lost by lane. -/
structure LaneRun where
  stamps : Tbl (List (BitVec 64)) := []
  brk    : Tbl Bool := []
  dead   : Tbl Nat := []
  lost   : Tbl Nat := []

/-- One edge of a channel at its lane (R292): 8 ns of dead time are 32,768 fu. -/
def laneEdge (lane base : Nat) (r : LaneRun) (e : Nat × Nat × Bool) : LaneRun :=
  let (t, c, rise) := e
  if base + t < tget 0 r.dead lane then { r with lost := tmod 0 r.lost lane (· + 1), brk := tput r.brk c true }
  else
    { r with stamps := tmod [] r.stamps c (· ++ [stampWord lane c t rise (tget false r.brk c)]), brk := tput r.brk c false
             dead := tput r.dead lane (base + t + 32768) }

/-- The lanes of a group in the frame that closes: each lane takes its channels' edges in order of their bins, the lower channel
first within a bin (R292). The lane runs, and counts, also while it is fenced (DESIGN CHOICE, log entry 29). -/
def laneRun (s : State) (tick g : Nat) : LaneRun :=
  let gr := s.group g
  let start : LaneRun := { dead := gr.laneDead, brk := gr.chans.map (fun e => (64 * g + e.1, e.2.breakNext)) }
  (List.range 8).foldl (fun r j =>
    let lane := 8 * g + j
    let cs := ((s.rings.tdcLane.filter (fun e => e.2 == lane)).map (·.1))
    let es := cs.flatMap (fun c => (stampEdges s c).map (fun x => (x.1, c, x.2)))
    (sortBy (fun e => e.1 / 256 * 1024 + e.2.1) es).foldl (laneEdge lane (256 * tick)) r) start

/-! ## The frame closes -/

/-- A group takes part in frame `c` (R143, R144): it is RUNNING, carries data from that frame or an earlier one on, and no power-down
acts at its tick or before. -/
def groupTakes (s : State) (g c : Nat) : Bool :=
  let gr := s.group g
  gr.state == GState.running && (match gr.dataFrom with
    | some d => decide (d ≤ c)
    | none => false) && (match gr.downAt with
    | some d => decide (c < d)
    | none => true)

/-- The message types that a group's frame crosses in (Table 04-7). -/
def groupNeeds (q : Folio) (g : Nat) : Nat :=
  let l := q.channels.filter (fun c => c.chan / 64 = g)
  b2n (l.any (·.sampled)) + 2 * b2n (l.any (·.trans)) + 4 * b2n (l.any (fun c => c.stampRate ≠ 0))

/-- The channels of a group. -/
def groupChans (q : Folio) (g : Nat) : List Nat := (q.channels.filter (fun c => c.chan / 64 = g && c.mode ≠ 0)).map (·.chan)

/-- e_F of a TRIG_IN input (R206). -/
def trigBudget (q : Folio) (i : Nat) : Nat := perFrame q (nth q.extRate i, 1)

/-- What a frame lands of a TRIG_IN input: the first e_F edges are kept (R206). -/
def landedTrig (q : Folio) (i : Nat) (t : TrigIn) : TrigIn :=
  { t with kept := t.kept.take (trigBudget q i), dropped := t.kept.length - trigBudget q i }

/-- A TRIG_IN input without its last edge: the short pulse that begins with it ends in the next frame (R206). -/
def TrigIn.dropLast (t : TrigIn) : TrigIn :=
  if t.dropped ≠ 0 then { t with dropped := t.dropped - 1 } else { t with kept := t.kept.dropLast }

/-- What the groups that take part in a frame captured in it. -/
def captureFrame (s : State) (f : FrameSet) : FrameSet :=
  let f := { f with mclk := frameMclk s f.tickAt }
  let gs := s.cfg.groups.filter (fun g => groupTakes s g f.count)
  let runs := gs.map (fun g => (g, laneRun s f.tickAt g))
  { f with
    chans := gs.flatMap (fun g => (groupChans s.cfg g).map (fun c =>
      let l := captureChan s f c
      let st := tget [] ((tget {} runs g).stamps) c
      let n := sF s.cfg c
      (c, { l with stamps := st.take n, stampsLost := (st.drop n).map stampOffset })))
    coll := runs.flatMap (fun e => e.2.lost)
    trig := tmap s.field.trig (landedTrig s.cfg)
    need := gs.map (fun g => (g, groupNeeds s.cfg g))
    groupsOk := gs.filter (fun g => groupNeeds s.cfg g = 0)
    badChans := f.badChans ++ brokenStreams s f.count }

/-- The lane has dropped stamps of a channel: the next one it sends carries BREAK (Table 09-1, R291). -/
def stampsCut (q : Folio) (r : LaneRun) (c : Nat) : Bool := decide (sF q c < (tget [] r.stamps c).length)

/-- The tiles and the TRIG_IN inputs as the next frame begins. -/
def nextFrame (s : State) (f : FrameSet) : State :=
  let field := s.field
  { s with field := { field with
    groups := tmap field.groups (fun g gr =>
      let r := laneRun s f.tickAt g
      { gr with laneDead := r.dead
                chans := tmap gr.chans (fun k t =>
                  { t with hi0 := t.hi, lo0 := t.lo, raw := [], breakNext := tget t.breakNext r.brk (64 * g + k) || stampsCut s.cfg r (64 * g + k)
                           lastZone := closeZone s { f with mclk := frameMclk s f.tickAt } (64 * g + k)
                           tailHi := tailOf 16 s.spacing (clockEdges s (64 * g + k) false)
                           tailLo := tailOf 16 s.spacing (clockEdges s (64 * g + k) true) }) })
    trig := tmap field.trig (fun _ t => { t with
      lvl0 := t.lvl, kept := [], dropped := 0, tail := (tailOf 32 s.spacing (t.kept.map (fun x => (x.1, x.2)))).map (·.1) }) } }

/-- Closes the frame being sampled: what it captured waits to cross the barrier. -/
def closeFrame (s : State) : State :=
  match s.frames with
  | f :: l => nextFrame { s with frames := captureFrame s f :: l } f
  | [] => s

/-! ## Landing -/

/-- The frame that a message of kind `k` (0 SAMPLES, 1 EDGES, 2 STAMPS) of group `g` completes: the oldest closed one whose window
has not opened and that still misses it. Data that comes more than 4 µs after the frame's end is not landed (R18, R23). -/
def landingFrame (s : State) (g k : Nat) : Option FrameSet :=
  (s.frames.drop 1).reverse.find? (fun f => decide (s.released < f.count) && bit (tget 0 f.need g) k &&
    decide (s.now ≤ f.tickAt + s.spacing + 4 * puUs))

/-- How many samples of a channel's latest frame have gone with a clock pulse shorter than 1.0 ns that the tick cuts (R156). -/
def cutPulses (s : State) (c : Nat) : Nat :=
  let q := s.cfg.chan c
  if q.mode ≠ 2 || 64 ≤ q.clockSrc then 0
  else
    let t := s.tileChan (c / 64 * 64 + q.clockSrc)
    let sel (l : List (Nat × Bool)) : Nat := (l.filter (fun x => x.2 != q.clockFalling)).length
    let tail := t.tail q.clockCmp
    sel tail - sel (tailLeft 16 tail (mapChanges (selCmp q.clockCmp) (t.hi0, t.lo0) t.merged))

/-- A channel's landed frame without its last `n` clock edges, the dropped ones first. -/
def LandedChan.cutLast (l : LandedChan) (n : Nat) : LandedChan :=
  { l with dropped := l.dropped - n, samples := l.samples.take (l.samples.length - (n - l.dropped)) }

/-- The samples of a group's frame as they land: the last edge of a frame may turn out to begin a pulse that is too short. -/
def landSamples (s : State) (f : FrameSet) (g : Nat) : FrameSet :=
  if f.count + 1 ≠ s.curFrame then f
  else { f with chans := tmap f.chans (fun c l => if c / 64 = g && !(s.cfg.chan c).trans then l.cutLast (cutPulses s c) else l) }

/-- A channel that has lost the last clock edge of the frame that lands: what the frame has without it (R156). -/
def edgeCut (s : State) (f : FrameSet) (g c : Nat) (l : LandedChan) : Option (List (Nat × Nat) × Nat × Nat) :=
  if f.count + 1 = s.curFrame && c / 64 = g && decide (cutPulses s c ≠ 0) then l.uncut else none

/-- The entries of a group's frame as they land. -/
def landEdges (s : State) (f : FrameSet) (g : Nat) : FrameSet :=
  { f with chans := tmap f.chans (fun c l => match edgeCut s f g c l with
      | some (e, d, _) => { l with entries := e, dropped := d }
      | none => l) }

/-- The latest zones go back with the clock edges that have gone. -/
def landZones (s : State) (f : FrameSet) (g : Nat) : State :=
  f.chans.foldl (fun s e => match edgeCut s f g e.1 e.2 with
    | some (_, _, z) => modChan s e.1 (fun t => { t with lastZone := z })
    | none => s) s

/-- A message of kind `k` of group `g` lands (R134): the frame is landed in full once no kind is missing. While the core is on the safe clock
none lands (R454). -/
def landKind (s : State) (g k : Nat) : State :=
  match if s.coreClock then landingFrame s g k else none with
  | none => s
  | some f =>
    let need := setBit (tget 0 f.need g) k false
    let f' := if k = 0 then landSamples s f g else if k = 1 then landEdges s f g else f
    let s := if k = 1 then landZones s f g else s
    let f' := { f' with need := tput f'.need g need, groupsOk := if need = 0 then setAdd f'.groupsOk g else f'.groupsOk }
    { s with frames := s.frames.map (fun x => if x.count = f.count then f' else x) }

/-! ## TRIG_IN and the comparators -/

/-- An edge of a TRIG_IN input `offset` pu after the latest tick: with the edge before it, it is kept or a pulse shorter than 2 ns, which
is not detected (R206). A pulse that the tick cuts takes the last edge of the frame that has closed with it, and the level at the tick is that
before the pulse. -/
def trigEdge (s : State) (i : Nat) (rise : Bool) (offset : Nat) : State :=
  let t := tget {} s.field.trig i
  let put (s : State) (t : TrigIn) : State := { s with field := { s.field with trig := tput s.field.trig i { t with lvl := rise } } }
  match t.kept.getLast?, t.tail with
  | some e, _ => put s { t with kept := if offset < e.1 + 32 then t.kept.dropLast else t.kept ++ [(offset, rise)] }
  | none, d :: r =>
    if offset + d < 32 then
      put { s with frames := s.frames.map (fun f => if f.count + 1 = s.curFrame then
        { f with trig := tmod {} f.trig i TrigIn.dropLast } else f) } { t with tail := r, lvl0 := rise }
    else put s { t with kept := [(offset, rise)] }
  | none, [] => put s { t with kept := [(offset, rise)] }

/-- TRIG_IN_EDGE: an edge of TRIG_INi, `offset` pu after the latest tick (R206). -/
def execTrigInEdge (i : Nat) (rise : Bool) (offset : Nat) (s : State) : Res :=
  let t := tget {} s.field.trig i
  if !s.powered || 4 ≤ i || t.lvl == rise then .next s
  else if !s.ticking then .next { s with field := { s.field with trig := tput s.field.trig i { t with lvl := rise, lvl0 := rise } } }
  else if s.spacing ≤ offset || offset < (t.kept.getLast?.map (·.1)).getD 0 then .next s
  else .next (trigEdge (advanceTo s (s.time.tickAt + offset)) i rise offset)

/-- The threshold voltage of a code, in µV: −8 V and 5 mV a step (R114). -/
def thresholdOf (code : Nat) : Int := (code : Int) * 5000 - 8000000

/-- A comparator with threshold code `code` and hysteresis `h` mV that stood at `now`, at an input of `v` µV: it goes high above the
threshold and low below the threshold less the hysteresis (R116). -/
def comparator (code h : Nat) (now : Bool) (v : Int) : Bool :=
  if now then decide (thresholdOf code - 1000 * (h : Int) ≤ v) else decide (thresholdOf code < v)

/-- Both comparators of a channel at its present input, as its tile's settings make them (R114 to R116). Comparators of a channel that is
OFF, or of an island without power, do not work (Table 05-1, R116). -/
def State.comparators (s : State) (c : Nat) : Bool × Bool :=
  let t := s.tileChan c
  let q := s.tileSet c
  let v := tget 0 s.field.inputs c
  if !(s.group (c / 64)).powered || q.mode = 0 then (t.hi, t.lo)
  else (comparator q.thrHi q.hyst t.hi v, comparator q.thrLo q.hyst t.lo v)

/-- The comparators of a channel follow its input, `offset` fu after the latest tick (R116, R287). The tile places the change. SLOPE, budgets
and dead time apply as the frame closes. -/
def followInput (s : State) (c offset : Nat) : State :=
  let z := s.comparators c
  modChan s c (fun t =>
    if t.hi == z.1 && t.lo == z.2 then t
    else if !s.ticking then { t with hi := z.1, lo := z.2, hi0 := z.1, lo0 := z.2 }
    else { t with hi := z.1, lo := z.2, raw := t.raw ++ [(offset, z.1, z.2)] })

/-- ZONE_CHANGE: the input of a channel goes to `v` µV against FCOM, `pu` and `fine` fu after the latest tick, and the comparators follow it. -/
def execZoneChange (c : Nat) (v : Int) (pu fine : Nat) (s : State) : Res :=
  let offset := 256 * pu + fine
  let s' := { s with field := { s.field with inputs := tput s.field.inputs c v } }
  if !s.ticking then .next (followInput s' c 0)
  else if 256 * s.spacing ≤ offset || offset < ((s.tileChan c).raw.getLast?.map (·.1)).getD 0 then .next s
  else .next (followInput (advanceTo s' (s.time.tickAt + offset / 256)) c offset)

end Sys2Proof.Machine
end

