-- ==== Sys2Proof/Machine/Islands.lean ====
section
/-!
DEFINITION. Islands and their tiles: the settings a group is given (R113, R138), its bring-up and calibration (R84 to R87, R168 to
R173), its power-down (R88, R143), the end of a bind that is refused (R72, R88), and what of a bind its end discards (R108).
-/
namespace Sys2Proof.Machine

/-! ## Settings (R113, R137, R138) -/

/-- The rails of a group that its FIELD entry switches on (R124). -/
def railOn (q : Folio) (g k : Nat) : Bool := decide (nth (((q.group? g).map (·.railMa)).getD []) k ≠ 0)

/-- FORMAT of MCLKk of group `g`. -/
def mclkFormat (q : Folio) (g k : Nat) : Nat := ((((q.group? g).map GroupQ.mclk).getD []).getD k {}).format

/-- The core's own copy of the settings of group `g` under a clock plan (R113). -/
def coreSettings (s : State) (plan g : Nat) : TileSet :=
  let q := s.cfg
  { chans := (q.channels.filter (fun c => c.chan / 64 = g && c.mode ≠ 0)).map (fun c =>
      (c.chan % 64, ⟨c.chan % 64, c.mode, c.thrHi, c.thrLo, c.hyst, c.slope⟩))
    rails := (List.range 4).map (fun k => (k, railOn q g k))
    mclk := (List.range 4).map (fun k => (k, (q.planDiv plan g k, mclkFormat q g k)))
    trims := (List.range 64).filterMap (fun k => (tget? s.field.trims (64 * g + k)).map (fun t => (k, t.1))) }

/-- A tile's settings in the fixed order in which CONFIG_CRC covers them; R138 names no order (assumption 10). -/
def settingsBytes (t : TileSet) : Bytes :=
  t.chans.flatMap (fun e => le 1 e.1 ++ le 1 e.2.mode ++ le 2 e.2.thrHi ++ le 2 e.2.thrLo ++ le 1 e.2.hyst ++ le 1 e.2.slope) ++
  t.rails.flatMap (fun e => le 1 e.1 ++ le 1 (b2n e.2)) ++
  t.mclk.flatMap (fun e => le 1 e.1 ++ le 2 e.2.1 ++ le 1 e.2.2) ++
  t.trims.flatMap (fun e => le 1 e.1 ++ le 2 e.2)

/-- CONFIG_CRC (R138). -/
def configCrc (t : TileSet) : BitVec 32 := crc32c (settingsBytes t)

/-- Settings received on top of those applied (R137): the applied ones with those received since the last TICK. -/
def TileSet.merge (a b : TileSet) : TileSet :=
  { chans := b.chans.foldl (fun t e => tput t e.1 e.2) a.chans
    rails := b.rails.foldl (fun t e => tput t e.1 e.2) a.rails
    mclk := b.mclk.foldl (fun t e => tput t e.1 e.2) a.mclk
    trims := b.trims.foldl (fun t e => tput t e.1 e.2) a.trims }

/-- The comparators of a group's channels follow their inputs under settings that have just been applied. -/
def followAll (s : State) (g : Nat) : State :=
  let off (c : Nat) : Nat := max (256 * (s.now - s.time.tickAt)) (((s.tileChan c).raw.getLast?.map (·.1)).getD 0)
  (((s.group g).applied.chans).map (fun e => 64 * g + e.1)).foldl (fun s c => followInput s c (off c)) s

/-- The tile applies what it has received, at a TICK (R137). -/
def applySettings (s : State) (g : Nat) : State :=
  followAll (modGroup s g (fun e =>
    let a := e.applied.merge e.received
    { e with applied := a, received := {}, railsOn := a.rails.any (·.2) })) g

/-- The payloads of SET_CHANNEL, SET_RAIL, SET_MCLK and SET_TRIM for some settings, with their types (Table 04-7, log entry 17). -/
def settingMsgs (t : TileSet) : List (Nat × Bytes) :=
  t.chans.map (fun e => (0x82, le 1 e.1 ++ le 1 e.2.mode ++ le 2 e.2.thrHi ++ le 2 e.2.thrLo ++ le 1 e.2.hyst ++ le 1 e.2.slope)) ++
  t.rails.map (fun e => (0x83, le 1 e.1 ++ le 1 (b2n e.2))) ++
  t.mclk.map (fun e => (0x84, le 1 e.1 ++ le 2 e.2.1 ++ le 1 e.2.2)) ++
  t.trims.map (fun e => (0x86, le 1 e.1 ++ le 2 e.2))

/-- Reverse messages of a row that brings a group up or calibrates it: their exchange, with an ECHO of each, lies within the row
(R134, R136, log entry 16). -/
def exchange (s : State) (g : Nat) (l : List (Nat × Bytes)) : State :=
  let e := s.group g
  let n := BitVec.ofNat 8 l.length
  emits (modGroup s g (fun e => { e with revSeq := e.revSeq + n, tileSeq := e.tileSeq + n, fwdSeq := e.fwdSeq + n }))
    (l.zipIdx.map (fun x => .toTile g (BitVec.ofNat 8 x.1.1) (e.revSeq + BitVec.ofNat 8 x.2) x.1.2))

/-- The core sends a group its settings under the plan in force, and keeps its own copy (R113); the tile receives them, and applies them at
the TICKs that the row spans (R137). -/
def sendSettings (s : State) (g : Nat) : State :=
  let t := coreSettings s s.clocks.plan g
  applySettings (modGroup (exchange s g (settingMsgs t)) g (fun e => { e with coreCopy := t, received := t })) g

/-! ## Calibration (R168 to R173) -/

/-- d_r of R169, and c_g of R170, in 1/64 pu. d_r is rounded down to its register's unit, and c_g takes the rounded value: R169 and R170 name
no rounding (DESIGN CHOICE, log entry 29). -/
def oneWay (s : State) (g : Nat) (d : CalData) : Int := fdiv (d.roundTrip + tileAsymmetry s.franking.mem g) 2
def groupCorrection (s : State) (g : Nat) (d : CalData) : Int := oneWay s g d + tileDelay s.franking.mem g

/-- A mean of a calibration in 0.5 ps, rounded to nearest with ties toward +∞: R171 and Table 05-7 name no tie (DESIGN CHOICE, log entry 29). -/
def halfPs (x : Int) : Int := fdiv (x + 2048) 4096

/-- D_c of a channel, with its contact-to-injection delay, in 1/4,096 of 0.5 ps (R171). -/
def injected (s : State) (g : Nat) (p : Nat × Int) : Nat × Int := (p.1, p.2 + 4096 * injDelay s.franking.mem (64 * g + p.1))

/-- The trims of a calibration by group-local channel (R171). -/
def calTrims (s : State) (g : Nat) (d : CalData) : List (Nat × Int) :=
  let l := d.placements.map (injected s g)
  let mx := l.foldl (fun a e => max a e.2) ((l.head?.map (·.2)).getD 0)
  l.map (fun e => (e.1, halfPs (mx - e.2)))

/-- A calibration meets R172: trims within 511, residuals within 8 ps of the group's mean, the mean within 25 ps of the grid. -/
def calOk (s : State) (g : Nat) (d : CalData) : Bool :=
  (calTrims s g d).all (fun e => decide (e.2 ≤ 511)) && d.residuals.all (fun e => decide (e.2.natAbs ≤ 16 * 4096)) &&
    decide (d.groupMean.natAbs ≤ 50 * 4096)

/-- The phase steps of a group correction: 0 to 2,047 (R170). -/
def alignSteps (s : State) (g : Nat) (d : CalData) : Nat := (groupCorrection s g d % 2048).toNat

/-- What phase 2 finds: the whole-sample shift, which the tile takes up, and the delay and the phase steps for the end of the calibration
(R169, R170, R177). -/
def findAlign (s : State) (g : Nat) (d : CalData) : State :=
  modGroup s g (fun e => { e with
    shift := (fdiv (groupCorrection s g d) 2048).toNat, calAlign := some ((oneWay s g d % 2 ^ 32).toNat, alignSteps s g d) })

/-- FG_BARRIER_DELAY and FG_DESKEW.PHASE at the end of a deskew or of a partial realignment (R177). -/
def takeAlign (e : Group) : Group :=
  match e.calAlign with
  | some (d, p) => { e with barrierDelay := d, phase := p, calAlign := none }
  | none => e

/-- Phases 1 and 2 within a row: 4,096 marks, and a PHASE_STEP for each step of the field PLL, which locks without any (R168, R170). -/
def applyAlign (s : State) (g : Nat) (d : CalData) : State :=
  let n := alignSteps s g d
  let s := exchange s g (List.replicate 4096 (0x87, [0]) ++ List.replicate n (0x85, []))
  modGroup (findAlign s g d) g (fun e => { e with steps := n })

/-- A partial realignment: phases 1 and 2, with the trims kept (R167, R177, R452). -/
def realign (s : State) (g : Nat) (d : CalData) : State := modGroup (applyAlign s g d) g takeAlign

/-- The trims of phase 3 go to the tile within a row, and the core's copy takes them (R113, R171). -/
def setTrims (s : State) (g : Nat) (t : List (Nat × Nat)) : State :=
  let s := exchange s g (t.map (fun e => (0x86, le 1 e.1 ++ le 2 e.2)))
  applySettings (modGroup s g (fun e => { e with
    coreCopy := { e.coreCopy with trims := t.foldl (fun l x => tput l x.1 x.2) e.coreCopy.trims }
    received := { e.received with trims := t.foldl (fun l x => tput l x.1 x.2) e.received.trims } })) g

/-- The temperature of an island (R516, Table 17-5), as a STATUS or a calibration gives it: its warning at 105 °C and its fence at 115 °C (cause 0x0C). -/
def islandTemp (s : State) (g : Nat) (t : Int) : State :=
  let s := modGroup s g (fun e => { e with temp := t, stale := e.stale || (e.calibrated && decide (240 < (t - e.calTemp).natAbs)) })
  let s := { s with power := { s.power with peakIsland := peak s.power.peakIsland t } }
  let s := if 1680 ≤ t then { s with power := { s.power with alertIsland := s.power.alertIsland ||| 2 ^ g } } else s
  if 1840 ≤ t then detect s ⟨0x01, g⟩ 0x0C (t % 65536).toNat (faultFrameNow s 1) else s

/-- The end of a full deskew: the trims and residuals in FG_TRIM, the temperature, the delay and the phase (R171, R173, R177). -/
def recordCal (s : State) (g : Nat) (trims : List (Nat × Nat)) (d : CalData) : State :=
  let s := { s with field := { s.field with trims := trims.foldl (fun t e =>
      tput t (64 * g + e.1) (e.2, satInt 8 (halfPs (((d.residuals.find? (fun r => r.1 = e.1)).map (·.2)).getD 0)))) s.field.trims } }
  islandTemp (modGroup s g (fun e => { dropCal (takeAlign e) with calTemp := d.temp, stale := false, calibrated := true })) g d.temp

/-- A full deskew within a row (R168 to R173, R177): the alignment, pulse injection, the trims set, and verification, in that order. -/
def applyCal (s : State) (g : Nat) (d : CalData) : State :=
  let t := (calTrims s g d).map (fun e => (e.1, e.2.toNat))
  let s := setTrims (exchange (applyAlign s g d) g [(0x87, [1])]) g t
  recordCal (exchange s g [(0x87, [1])]) g t d

/-! ## Bring-up (steps 10 to 15 of Table 03-3) -/

/-- A group-local channel that the Folio uses, and a lane of the group that it uses. -/
def chanUsed (s : State) (g k : Nat) : Bool := (s.cfg.chan (64 * g + k)).mode ≠ 0
def laneUsed (s : State) (g j : Nat) : Bool := s.rings.tdcLane.any (fun e => e.2 == 8 * g + j)

/-- The self-test of a tile passes on what the Folio uses; with a fuse that has opened it never passes again (R86, R123). -/
def selfTestOk (s : State) (r : GroupBoot) : Bool :=
  !r.fuseOpen && !(s.group r.group).fuseOpen && !r.failChans.any (chanUsed s r.group) && !r.failLanes.any (laneUsed s r.group)

/-- The tile is the one of the factory page (R86). -/
def identOk (s : State) (r : GroupBoot) : Bool :=
  sub r.identity 0 16 == tileIdentity s.franking.mem r.group && r.asymmetry == tileAsymmetry s.franking.mem r.group &&
    r.tileDelay == tileDelay s.franking.mem r.group

/-- The step at which the bring-up of a group fails: its bind error (R85 to R87) and, for a power-up, the cause of Table 16-1
that its failure counts as (assumption 11). -/
def bootFailure (s : State) (r : GroupBoot) : Option (Nat × Nat) :=
  if !r.firstTrain && !r.againTrain then some (0x501, 0x05)
  else if !r.pllLocks then some (0x504, 0x07)
  else if !identOk s r then some (0x502, 0x06)
  else if !selfTestOk s r then some (0x503, 0x06)
  else if !r.railsUp then some (0x505, 0x0B)
  else if !calOk s r.group r.cal then some (0x506, 0x06)
  else none

/-- An island takes power: its tile begins without settings, with every comparator low (R113, R116), and its barrier counts from
zero. -/
def islandPower (s : State) (g : Nat) (st : GState) : State :=
  modGroup s g (fun e => { dropCal e with
    state := st, powered := true, mclkFrom := none, mclkTail := none, railsOn := false, pllLock := false, chans := [], unechoed := []
    fwdSeq := 0, revSeq := 0, tileSeq := 0, laneDead := [], testBusy := false, dataFrom := none
    applied := {}, received := {}, steps := 0, railLimit := [none, none, none, none, none], clamp := false })

/-- A fuse that is found open stays open (R123). -/
def noteFuse (s : State) (r : GroupBoot) : State := if r.fuseOpen then modGroup s r.group (fun e => { e with fuseOpen := true }) else s

/-- Steps 10 to 14 of a group whose steps succeed: power, IDENT_REQ and SELF_TEST with their answers, its settings, its rails, and from this
instant its MCLK outputs, each from the next rising edge of its grid on (R84 to R87, R113). -/
def islandUp (s : State) (g : Nat) (st : GState) : State :=
  let s := sendSettings (exchange (islandPower s g st) g [(0x8A, []), (0x88, [])]) g
  modGroup s g (fun e => { e with pllLock := true, railsOn := true, mclkFrom := some s.now })

/-- A group's bring-up has succeeded up to step 15: up, calibrated, and its trims sent (R84, R113, R167). -/
def islandReady (s : State) (r : GroupBoot) (st : GState) : State :=
  let s := applyCal (islandUp s r.group st) r.group r.cal
  modGroup s r.group (fun e => { e with railsOn := true })

/-- Unused channels and lanes that fail the self-test go into the health map (R86). Table 16-3 has no class for a channel: it is
listed under 0x100, which no unit bears. -/
def recordUnused (s : State) (r : GroupBoot) : State :=
  let l := (r.failLanes.filter (fun j => !laneUsed s r.group j)).map (fun j => (⟨0x02, 8 * r.group + j⟩ : FUnit)) ++
    (r.failChans.filter (fun k => !chanUsed s r.group k)).map (fun k => (⟨0x100, 64 * r.group + k⟩ : FUnit))
  { s with boot := { s.boot with health := s.boot.health ++ l.filter (fun u => !s.boot.health.contains u) } }

/-- An island loses power: MCLK gated, rails off, the tile's settings lost (R88, R113, R143). A current-limit event that this cuts short before
its 100 µs is not counted in LIMIT_EVENTS (DESIGN CHOICE, log entry 30). -/
def islandOff (s : State) (g : Nat) (st : GState) : State :=
  modGroup s g (fun e => { dropCal (gateMclk s.now e) with
    state := st, powered := false, railsOn := false, pllLock := false, dataFrom := none, unechoed := []
    applied := {}, received := {}, testBusy := false
    railLimit := [none, none, none, none, none], clamp := false, temp := 0 })

/-- Every island loses power. -/
def islandsOff (s : State) : State := (s.field.groups.map (·.1)).foldl (fun s g => islandOff s g .unused) s

/-! ## The end of a bind -/

/-- A phase grid ends with its bind: it has the periods that began before an instant, and no more (R125). -/
def stopGrid (t : Nat) (e : MGrid) : MGrid :=
  if e.n.isSome then e else { e with n := some (if t ≤ e.from_ then 0 else (t - 1 - e.from_) / max 1 (32 * e.div) + 1) }

/-- Discards what belongs to one bind (R108, R109, Table 16-11): frames, sequencers, records, history, process, meter, placement,
rings, windows, jobs and bank ownership. Counters that run since bind begin again from zero. -/
def clearBind (s : State) : State :=
  let b := s.banks
  let rs := s.rings
  { s with
    frames := [], released := 0, firstRun := none, settleEnd := none, seqs := [], seqCmds := [], shown := none, recs := []
    hist := [], proc := {}, meter := {}, snap := none
    field := { groups := tmap s.field.groups (fun _ e =>
                 { (islandOffGroup e) with limitEvents := 0, crcErr := 0, framingErr := 0 })
               trims := s.field.trims, overruns := [], trig := tmap s.field.trig (fun _ t => { t with lvl0 := t.lvl, kept := [], dropped := 0, tail := [] })
               inputs := s.field.inputs, grids := tmap s.field.grids (fun _ l => l.map (stopGrid s.now)), taken := [] }
    banks := { mem := if b.zeroing then b.pool.foldl (fun m x => mclear m (x * 2 ^ 20) ((x + 1) * 2 ^ 20)) b.mem else b.mem
               dramOff := b.dramOff, violLast := b.violLast, collAddr := b.collAddr, dramLast := b.dramLast }
    rings := { gen := rs.gen }
    jobs := { expMax := s.jobs.expMax, badWrite := s.jobs.badWrite }
    clocks := { s.clocks with syncWait := false }
    pcie := { s.pcie with wins := [] }
    time := { s.time with tick0 := none, frame := 0, ticks := 0, tickAt := 0, stepFrames := [], untracedFrames := [], prefCmds := []
                          streams := [] } }
where
  islandOffGroup (e : Group) : Group :=
    { dropCal e with
      state := .unused, powered := false, mclkFrom := none, railsOn := false, pllLock := false, dataFrom := none
      unechoed := [], applied := {}, received := {}, coreCopy := {}, chans := [], testBusy := false
      powerCmd := none, downAt := none, calibrated := false, temp := 0 }

/-- Fences, quarantines and fence histories end at a bind; the core units that are fenced for good go into the health map until a
module reset (R493). FT_FAULTS begins again (R507). A fence of the Franking Store ends only as the bind succeeds, because it refuses
every bind that needs a franking write (R501). -/
def clearFaults (s : State) : State :=
  let good := (s.faults.fences.filter (fun e => e.2.permanent)).map (fun e => (⟨e.1 / 2 ^ 24, e.1 % 2 ^ 24⟩ : FUnit))
  let core := good.filter (fun u => u.cls = 0x03 || u.cls = 0x04 || u.cls = 0x06 || u.cls = 0x07 || u.cls = 0x09 || u.cls = 0x0D)
  { s with faults := { s.faults with fences := s.faults.fences.filter (fun e => e.1 = ukey 0x0E 0)
                                     history := [], pending := [], count := 0 }
           boot := { s.boot with carried := s.boot.carried ++ core.filter (fun u => !s.boot.carried.contains u) } }

/-- A REBIND has ended: IRQ_STATUS.REBIND (Table 15-8). -/
def rebindEnded (s : State) : State :=
  if s.boot.rebinding then raiseIrq { s with boot := { s.boot with rebinding := false } } 2 else s

/-- A bind is refused (R72, R88): every island loses power, nothing of the Folio runs, and the module is UNBOUND with its code. -/
def bindRefuse (s : State) (code detail : Nat) (copy : Option Copy) : State :=
  let s := clearBind (islandsOff s)
  let s := { s with
    boot := { s.boot with
      errCode := code, errDetail := detail, errCopy := copy, folio := none, binding := none, boundCopy := none, image := []
      held := none, folioSeq := 0, folioSerial := 0, sealedHash := [], phase := .none, wait := .none, waveOn := false
      wavesDone := 0, leader := none, position := none, resume := none }
    pins := { s.pins with evtOut := List.replicate 16 .low, ppsOut := .low }
    time := { s.time with ppsEnd := none } }
  rebindEnded (setState s .unbound)

/-- A refusal while the module discovers, BOUND (R85 to R88, R99). BIND_ERROR.COPY is the bound copy, though no 0x5xx code is about its content,
and none for a clock lost in steps 6 to 7a, where no copy is bound yet (DESIGN CHOICE, log entry 27). -/
def refuseBound (s : State) (code detail : Nat) : State := bindRefuse s code detail s.boot.boundCopy

end Sys2Proof.Machine
end

