-- ==== Sys2Proof/Machine/Barrier.lean ====
section
/-!
DEFINITION. The barrier (R134 to R138): forward and reverse messages and their faults, what the tile does on receipt, and the field
events of a group's supply (R120 to R123, R146).
-/
namespace Sys2Proof.Machine

/-! ## Framing and faults (R135, R136) -/

/-- The CRC that a message's bytes give (Table 04-8). -/
def msgCrc (typ seq : Byte) (payload : Bytes) : BitVec 32 := crc32c (typ :: seq :: (le 2 payload.length ++ payload))

/-- The types of Table 04-7 by direction. -/
def forwardType (t : Byte) : Bool := decide (1 ≤ t.toNat) && decide (t.toNat ≤ 8)
def reverseType (t : Byte) : Bool := decide (0x81 ≤ t.toNat) && decide (t.toNat ≤ 0x8A)

/-- Group `g`'s lanes carry messages: its island is powered, its field PLL runs, and so does the forwarded reference. -/
def State.laneUp (s : State) (g : Nat) : Bool := (s.group g).powered && (s.group g).pllLock && s.clocks.pllS.lock

/-- DETAIL of a barrier fault: TYPE and SEQ (Table 16-4). -/
def msgDetail (typ seq : Byte) : Nat := typ.toNat + 256 * seq.toNat

/-- A CRC mismatch of group `g` (cause 0x03). -/
def crcFault (s : State) (g : Nat) (typ seq : Byte) : State :=
  detect (modGroup s g (fun e => { e with crcErr := satAdd 16 e.crcErr 1 })) ⟨0x01, g⟩ 0x03 (msgDetail typ seq) (faultFrameNow s 1)

/-- Another barrier fault of group `g` (cause 0x04). -/
def framingFault (s : State) (g : Nat) (typ seq : Byte) : State :=
  detect (modGroup s g (fun e => { e with framingErr := satAdd 16 e.framingErr 1 })) ⟨0x01, g⟩ 0x04 (msgDetail typ seq)
    (faultFrameNow s 1)

/-- How a message is received: good, a CRC mismatch, another framing fault, or not the message of the row. A LEN above 4,096 is judged
before the CRC, whose place it gives (DEDUCED). -/
inductive Received where
  | good | crc | framing | other
  deriving DecidableEq, Repr

/-- Judges a message of the given direction whose receiver expects `seq` (R136). -/
def judgeMsg (known : Byte → Bool) (typ : Nat) (seq : Byte) (m : Msg) : Received :=
  if 4096 < m.len then .framing
  else if m.len ≠ m.payload.length || m.crc ≠ msgCrc m.typ m.seq m.payload then .crc
  else if !known m.typ || m.seq ≠ seq then .framing
  else if m.typ.toNat ≠ typ then .other
  else .good

/-- A forward message at the core: whether it is taken, and what its framing does (R135, R136). The SEQ expected next is the received one plus 1
after a SEQ break or a LEN fault, and the expected one plus 1 after a CRC mismatch (DESIGN CHOICE, log entry 37). -/
def takeForward (s : State) (g typ : Nat) (m : Msg) : State × Bool :=
  if !s.laneUp g then (s, false)
  else match judgeMsg forwardType typ (s.group g).fwdSeq m with
    | .good => (modGroup s g (fun e => { e with fwdSeq := e.fwdSeq + 1 }), true)
    | .crc => (crcFault (modGroup s g (fun e => { e with fwdSeq := e.fwdSeq + 1 })) g m.typ m.seq, false)
    | .framing => (framingFault (modGroup s g (fun e => { e with fwdSeq := m.seq + 1 })) g m.typ m.seq, false)
    | .other => (s, false)

/-- A reverse message at the tile, which echoes what it has received (R136). The SEQ expected next is as for a forward message (DESIGN CHOICE, log
entry 37). -/
def takeReverse (s : State) (g typ : Nat) (m : Msg) : State × Bool :=
  if !s.laneUp g then (s, false)
  else match judgeMsg reverseType typ (s.group g).tileSeq m with
    | .good =>
      (emit (modGroup s g (fun e => { e with tileSeq := e.tileSeq + 1 }))
        (.fromTile g 0x05 ([m.seq] ++ le 4 m.crc.toNat ++ [0])), true)
    | .crc => (crcFault (modGroup s g (fun e => { e with tileSeq := e.tileSeq + 1 })) g m.typ m.seq, false)
    | .framing => (framingFault (modGroup s g (fun e => { e with tileSeq := m.seq + 1 })) g m.typ m.seq, false)
    | .other => (s, false)

/-- The core sends a reverse message to group `g`, which is to be echoed (R136). -/
def sendTile (s : State) (g typ : Nat) (payload : Bytes) : State :=
  if !s.laneUp g then s
  else
    let seq := (s.group g).revSeq
    let t := BitVec.ofNat 8 typ
    emit (modGroup s g (fun e => { e with revSeq := e.revSeq + 1, unechoed := e.unechoed ++ [(t, seq, msgCrc t seq payload)] }))
      (.toTile g t seq payload)

/-! ## Forward messages -/

/-- A row whose message is taken has its effect; any other leaves what its framing did. -/
def onForward (s : State) (g typ : Nat) (m : Msg) (k : State → State) : Res :=
  let (s, ok) := takeForward s g typ m
  .next (if ok then k s else s)

/-- The same for a reverse message. -/
def onReverse (s : State) (g typ : Nat) (m : Msg) (k : State → State) : Res :=
  let (s, ok) := takeReverse s g typ m
  .next (if ok then k s else s)

/-- SAMPLES: sample bits of FULL and DECIMATE channels (R134). -/
def execSamples (g : Nat) (m : Msg) (s : State) : Res := onForward s g 0x01 m (fun s => landKind s g 0)

/-- EDGES: transition entries (R159). -/
def execEdges (g : Nat) (m : Msg) (s : State) : Res := onForward s g 0x02 m (fun s => landKind s g 1)

/-- STAMPS: TDC stamps (R288). -/
def execStamps (g : Nat) (m : Msg) (s : State) : Res := onForward s g 0x03 m (fun s => landKind s g 2)

/-- Four measurements of 16 bits. -/
def four16 (l : List Nat) : List Nat := (List.range 4).map (fun k => min 65535 (nth l k))

/-- STATUS (R138, R147): the core takes up the measurements, and compares the CONFIG_CRC of what the tile applies with that of its own copy. A fuse found open is a tile
self-check fault (R123, DEDUCED). -/
def statusTaken (s : State) (g : Nat) (d : StatusData) : State :=
  let opened := d.fuseOpen && !(s.group g).fuseOpen
  let s := modGroup s g (fun e => { e with volts := four16 d.volts, currs := four16 d.currs, clamp := d.clamp
                                           fuseOpen := e.fuseOpen || d.fuseOpen })
  let s := islandTemp s g d.temp
  if opened || configCrc (s.group g).applied ^^^ d.upset ≠ configCrc (s.group g).coreCopy then detect s ⟨0x01, g⟩ 0x06 0 (faultFrameNow s 1) else s

/-- STATUS: once per frame (R138). -/
def execStatus (g : Nat) (m : Msg) (d : StatusData) (s : State) : Res := onForward s g 0x04 m (fun s => statusTaken s g d)

/-- Removes the first reverse message with this SEQ and CRC from those that have no ECHO. -/
def dropEcho (l : List (Byte × Byte × BitVec 32)) (seq : Byte) (crc : BitVec 32) : List (Byte × Byte × BitVec 32) :=
  l.eraseIdx (l.findIdx (fun e => e.2.1 == seq && e.2.2 == crc))

/-- ECHO: a reverse message's SEQ and CRC, with a result code (R136). Only a result code of 0 acknowledges it (DEDUCED). -/
def execEcho (g : Nat) (m : Msg) (seq : Byte) (crc : BitVec 32) (result : Nat) (s : State) : Res :=
  onForward s g 0x05 m (fun s =>
    if result = 0 then modGroup s g (fun e => { e with unechoed := dropEcho e.unechoed seq crc }) else s)

/-- ECHO_TIMEOUT: a reverse message has no matching ECHO within 20 µs (R136). -/
def execEchoTimeout (g : Nat) (s : State) : Res :=
  match (s.group g).unechoed with
  | [] => .next s
  | (typ, seq, _) :: l =>
    if s.laneUp g then .next (framingFault (modGroup s g (fun e => { e with unechoed := l })) g typ seq) else .next s

/-- A tile test or calibration of group `g` has failed: the bind is refused while the module discovers, and otherwise it is a
significant fault of the group (R86, R87, R144, R172). -/
def tileFailure (s : State) (g code : Nat) : State :=
  if s.boot.state == ModState.bound then refuseBound s code g else detect s ⟨0x01, g⟩ 0x06 0 (faultFrameNow s 1)

/-- A group may be calibrated: it is not RUNNING, so that no frame carries its data (R137, R167). -/
def calAllowed (s : State) (g : Nat) : Bool := !((s.group g).state == GState.running)

/-- The calibration of a group goes on to a phase. -/
def toPhase (s : State) (g k : Nat) : State := modGroup s g (fun e => { e with calPhase := k })

/-- A calibration ends with a failure (R172). -/
def calFails (s : State) (g : Nat) : State := tileFailure (modGroup s g dropCal) g 0x506

/-- Phase 2 of a calibration: the frame start shifts and the core steps the field PLL, one message a step (R169, R170). -/
def alignByMessages (s : State) (g : Nat) (d : CalData) : State :=
  toPhase ((List.range (alignSteps s g d)).foldl (fun s _ => sendTile s g 0x85 []) (findAlign s g d)) g 2

/-- Phase 3: the trims, within their range, go to the tile, and the core's copy takes them (R171, R172). -/
def trimByMessages (s : State) (g : Nat) (d : CalData) : State :=
  let l := calTrims s g d
  if l.all (fun e => decide (e.2 ≤ 511)) then
    let t := l.map (fun e => (e.1, e.2.toNat))
    let s := t.foldl (fun s e => sendTile s g 0x86 (le 1 e.1 ++ le 2 e.2)) s
    toPhase (modGroup s g (fun e => { e with
      calTrim := t, coreCopy := { e.coreCopy with trims := t.foldl (fun l x => tput l x.1 x.2) e.coreCopy.trims } })) g 4
  else calFails s g

/-- CAL: the results of the phase that a CAL_START has started (R168 to R173): phase 1 gives the correction, phase 3 the trims, and phase 4
judges them. While the group is RUNNING there is no calibration (R167). -/
def calTaken (s : State) (g : Nat) (d : CalData) : State :=
  if !calAllowed s g then s else match (s.group g).calPhase with
  | 1 => alignByMessages s g d
  | 3 => trimByMessages s g d
  | 5 => if calOk s g d then recordCal s g (s.group g).calTrim d else calFails s g
  | _ => s

/-- CAL: results of a calibration that has been started. -/
def execCal (g : Nat) (m : Msg) (d : CalData) (s : State) : Res := onForward s g 0x06 m (fun s => calTaken s g d)

/-- IDENT: the tile's identity and its factory values are matched with the factory page, and a self-test that has been started is
judged (R86). -/
def execIdent (g : Nat) (m : Msg) (d : GroupBoot) (s : State) : Res :=
  onForward s g 0x07 m (fun s =>
    let r := { d with group := g }
    let test := (s.group g).testBusy
    let s := modGroup s g (fun e => { e with testBusy := false })
    let s := if test then noteFuse s r else s
    if !identOk s r then tileFailure s g 0x502
    else if test && !selfTestOk s r then tileFailure s g 0x503
    else s)

/-- IDLE: fill (R134). -/
def execIdle (g : Nat) (m : Msg) (s : State) : Res := onForward s g 0x08 m id

/-- LANE_LOCK_LOSS: one of the five forward lanes or the reverse lane loses lock or alignment; the group is fenced at once (R136).
The loss that follows a loss of PLL-S is part of that fault (R451). -/
def execLaneLockLoss (g lane : Nat) (s : State) : Res :=
  if s.laneUp g && decide (lane < 6) then
    .next (detect (modGroup s g (fun e => { e with framingErr := satAdd 16 e.framingErr 1 })) ⟨0x01, g⟩ 0x05 0 (faultFrameNow s 1))
  else .next s

/-! ## Reverse messages: what the tile does -/

/-- TICK: the tile applies what it has received since the previous TICK (R137). -/
def execTick (g : Nat) (m : Msg) (s : State) : Res :=
  onReverse s g 0x81 m (fun s => applySettings (modGroup s g (fun e => { e with tickLow := fld m.payload 0 2 })) g)

/-- SET_CHANNEL (R137). -/
def execSetChannel (g : Nat) (m : Msg) (c : ChanSet) (s : State) : Res :=
  onReverse s g 0x82 m (fun s => if 64 ≤ c.chan then s else modGroup s g (fun e => { e with
    received := { e.received with chans := tput e.received.chans c.chan c } }))

/-- SET_RAIL (R137). -/
def execSetRail (g : Nat) (m : Msg) (rail : Nat) (on : Bool) (s : State) : Res :=
  onReverse s g 0x83 m (fun s => if 4 ≤ rail then s else modGroup s g (fun e => { e with
    received := { e.received with rails := tput e.received.rails rail on } }))

/-- SET_MCLK (R127, R137). -/
def execSetMclk (g : Nat) (m : Msg) (out div format : Nat) (s : State) : Res :=
  onReverse s g 0x84 m (fun s => if 4 ≤ out then s else modGroup s g (fun e => { e with
    received := { e.received with mclk := tput e.received.mclk out (div, format) } }))

/-- SET_TRIM (R137), which changes nothing while the group is RUNNING (R167). -/
def execSetTrim (g : Nat) (m : Msg) (chan trim : Nat) (s : State) : Res :=
  onReverse s g 0x86 m (fun s => if 64 ≤ chan || !calAllowed s g then s else modGroup s g (fun e => { e with
    received := { e.received with trims := tput e.received.trims chan trim } }))

/-- PHASE_STEP: one fine step of the field PLL on receipt, 2,047 at most, and none while the group is RUNNING (R137, R167, R170). -/
def execPhaseStep (g : Nat) (m : Msg) (s : State) : Res :=
  onReverse s g 0x85 m (fun s => if calAllowed s g then modGroup s g (fun e => { e with steps := min 2047 (e.steps + 1) }) else s)

/-- The phase that a CAL_START begins: a round trip begins a calibration, pulses follow the alignment, and more pulses verify the trims
(Table 05-4); in no other order. -/
def calNext (phase : Nat) (pulses : Bool) : Nat :=
  if !pulses then 1 else if phase = 2 then 3 else if phase = 4 then 5 else phase

/-- CAL_START: pulse injection or a round-trip measurement begins on receipt, and not while the group is RUNNING (R137, R167, R168). -/
def execCalStart (g : Nat) (m : Msg) (pulses : Bool) (s : State) : Res :=
  onReverse s g 0x87 m (fun s => if calAllowed s g then modGroup s g (fun e => { e with calPhase := calNext e.calPhase pulses }) else s)

/-- SELF_TEST: the tile starts its self-test (R86). -/
def execSelfTest (g : Nat) (m : Msg) (s : State) : Res :=
  onReverse s g 0x88 m (fun s => modGroup s g (fun e => { e with testBusy := true }))

/-- ISLAND_OFF: the tile gates MCLK, switches off its rails and powers down (R143). -/
def execIslandOff (g : Nat) (m : Msg) (s : State) : Res :=
  onReverse s g 0x89 m (fun s => islandOff s g .down)

/-- IDENT_REQ: the tile answers with IDENT, which carries the identity and factory values that step 13 has matched (R86). -/
def execIdentReq (g : Nat) (m : Msg) (s : State) : Res :=
  onReverse s g 0x8A m (fun s => emit s (.fromTile g 0x07
    (tileIdentity s.franking.mem g ++ leInt 4 (tileAsymmetry s.franking.mem g) ++ leInt 4 (tileDelay s.franking.mem g))))

/-! ## Supply of a group -/

/-- ISLAND_BROWNOUT: the island's supply falls below its threshold; its lanes lose lock and the group is fenced at once (R146). -/
def execIslandBrownout (g : Nat) (s : State) : Res :=
  if (s.group g).powered then
    .next (detect (modGroup s g (fun e => { e with brownout := true, framingErr := satAdd 16 e.framingErr 1 })) ⟨0x01, g⟩ 0x05 0
      (faultFrameNow s 1))
  else .next s

/-- 100 µs of current limit are an overcurrent (R122). -/
def limitTime : Nat := 100 * puUs

/-- An overcurrent of group `g` whose limit began at an instant: the fault frame holds the onset (R488). -/
def overcurrentSince (s : State) (g rail from_ : Nat) : State :=
  let c := if s.ticking then (from_ - s.time.tick0.getD 0) / (max 1 s.spacing) else 0
  detect (modGroup s g (fun e => { e with railLimit := e.railLimit.set rail (some (from_, true)) })) ⟨0x01, g⟩ 0x0B 0
    (max s.released (min c s.curFrame))

/-- A rail leaves current limit: an event shorter than 100 µs is counted, and a longer one is an overcurrent (R122). -/
def leaveLimit (s : State) (g rail : Nat) (l : Nat × Bool) : State :=
  let s := if limitTime ≤ s.now - l.1 then (if l.2 then s else overcurrentSince s g rail l.1)
    else modGroup s g (fun e => { e with limitEvents := satAdd 16 e.limitEvents 1 })
  modGroup s g (fun e => { e with railLimit := e.railLimit.set rail none })

/-- RAIL_CURRENT_LIMIT: rail `rail` of a group, or with 4 the group as a whole, enters or leaves current limit (R120, R122). -/
def execRailCurrentLimit (g rail : Nat) (enter : Bool) (s : State) : Res :=
  let e := s.group g
  match e.railLimit.getD rail none with
  | none =>
    .next (if e.railsOn && decide (rail < 5) && enter then
      modGroup s g (fun e => { e with railLimit := e.railLimit.set rail (some (s.now, false)) }) else s)
  | some l => .next (if enter then s else leaveLimit s g rail l)

/-- OVERCURRENT: a rail or the group has stayed in current limit for 100 µs (R122). A frame tick that comes first is taken first. -/
def execOvercurrent (g rail : Nat) (s : State) : Res :=
  match (s.group g).railLimit.getD rail none with
  | some (a, false) =>
    if (s.group g).railsOn && !(s.ticking && decide (s.tickOf s.time.ticks < a + limitTime)) then
      .next (overcurrentSince (advanceTo s (a + limitTime)) g rail a)
    else .next s
  | _ => .next s

end Sys2Proof.Machine
end

