-- ==== Sys2Proof/Machine/Frame.lean ====
section
/-!
DEFINITION. Frame ticks (R13 to R17) and what happens at one: the frame that closes and the frame that opens (R15, R18), TICK to the
tiles (R137), the timeline (R412 to R415), notification at ticks (R346), alignment marks (R100), CLK_OUT at frame 0 (R442); and the
entries into ARMING and RUNNING (R76, R101, R103).
-/
namespace Sys2Proof.Machine

/-! ## Instants of ticks -/

/-- The tick at which something that waits for the next tick happens: the latest one where it is now, otherwise the next. -/
def entryTick (s : State) : Nat := if s.time.ticks ≠ 0 && s.now = s.time.tickAt then s.time.ticks - 1 else s.time.ticks

/-- The state at the tick of count `c`, where that is the next tick or has come; none where it lies further ahead. -/
def atTick (s : State) (c : Nat) : Option State :=
  if !s.ticking then none
  else if c < s.time.ticks then some s
  else if c = s.time.ticks then some (advanceTo s (s.tickOf c))
  else none

/-! ## CLK_OUT (R440 to R444) -/

/-- SYNC_IN is in pulse mode (R443). -/
def Folio.pulseMode (q : Folio) : Bool := q.install.isNone && q.clocks.syncPulse

/-- The CLK_OUT entry of a plan. -/
def Folio.clkOut (q : Folio) (plan k : Nat) : ClkOutQ := (((q.plan? plan).map (·.outs)).getD []).getD k {}

/-- CLK_OUTk is held low in a plan until the first SYNC_IN edge (R443). -/
def State.syncHeld (s : State) (plan k : Nat) : Bool :=
  s.cfg.pulseMode && (s.cfg.clkOut plan k).syncEn && s.clocks.syncStart.isNone

/-- The outputs that a SYNC_IN edge starts are low: PLL-S has locked in this bind, and none runs on the divider of the bind before, which it
keeps up to frame 0 (R442, R443). -/
def State.syncReady (s : State) : Bool :=
  s.lockedInBind && (List.range 4).all (fun k => !(s.cfg.clkOut s.clocks.plan k).syncEn || nth s.clocks.clkDiv k = 0)

/-- Some CLK_OUT waits for SYNC_IN (R443). -/
def State.syncWaits (s : State) : Bool :=
  s.syncReady && (List.range 4).any (fun k => s.syncHeld s.clocks.plan k && (s.cfg.clkOut s.clocks.plan k).div ≠ 0)

/-- The divider that CLK_OUTk runs on in a plan: 0 while it waits for SYNC_IN (R442, R443). -/
def State.clkWant (s : State) (plan k : Nat) : Nat := if s.syncHeld plan k then 0 else (s.cfg.clkOut plan k).div

/-- A SYNC_EN output of a follower starts anew at the tick of frame 0, which gives it the leader's phase (R443). -/
def State.clkRestarts (s : State) (k : Nat) : Bool :=
  decide (s.time.ticks = 0) && s.cfg.install.isSome && s.boot.leader = some false && (s.cfg.clkOut s.clocks.plan k).syncEn

/-- CLK_OUTk changes as a plan comes into force. -/
def State.clkChanges (s : State) (k plan : Nat) : Bool := s.clkWant plan k ≠ nth s.clocks.clkDiv k || s.clkRestarts k

/-- CK_STATUS.SYNC_WAIT follows what the outputs wait for (R443, R457). -/
def noteSync (s : State) : State := { s with clocks := { s.clocks with syncWait := s.syncWaits } }

/-- The end of the high phase, of `high` pu in every `per` from `from_` on, that an instant lies in. -/
def highEnd (per high from_ t : Nat) : Option Nat :=
  if from_ ≤ t && decide ((t - from_) % per < high) then some (t - (t - from_) % per + high) else none

/-- The end of the high phase that an instant lies in, of an output of divider `d` counted from a tick: ⌈D/2⌉ of D VCO periods of 4 pu
(R440, R442). -/
def clkPhase (from_ d t : Nat) : Option Nat := if d = 0 then none else highEnd (4 * d) (4 * cdiv d 2) from_ t

/-- The plan in force once every switch due by tick `c` is in force: the last of them in fetch order (R449). -/
def planAt (s : State) (c : Nat) : Nat :=
  (((s.clocks.pending.filter (fun e => decide (e.2.1 ≤ c))).getLast?).map (·.1)).getD s.clocks.plan

/-- The instant of the next divider change that is known ahead, where `differs` says it of a plan: the tick of a plan switch, or that of frame 0
of a bind. An output gives no period whose high phase would end later (R442). -/
def State.changeAt (s : State) (differs : Nat → Bool) : Option Nat :=
  if s.ticking && s.time.ticks = 0 then (if differs s.clocks.plan then s.time.tick0 else none)
  else ((s.clocks.pending.filter (fun e => differs (planAt s e.2.1))).map (fun e => s.tickOf e.2.1)).min?

/-- The end of CLK_OUTk's high phase, where it gives one at an instant (R440, R442). -/
def State.clkHigh (s : State) (k t : Nat) : Option Nat :=
  (clkPhase (nth s.clocks.clkFrom k) (nth s.clocks.clkDiv k) t).filter (fun z =>
    (s.changeAt (s.clkChanges k)).all (fun c => decide (z ≤ c)))

/-- The instant by which every CLK_OUT has completed the high phase that it is in now. -/
def State.clkBusy (s : State) : Nat := (List.range 4).foldl (fun a k => max a ((s.clkHigh k s.now).getD s.now)) s.now

/-- What CLK_OUTk leaves behind as it changes: no high phase of it ends later than `last` (R439, R442). -/
def Clocks.leave (c : Clocks) (k last : Nat) : Nat × Nat × Nat :=
  if nth c.clkDiv k = 0 then c.clkOld.getD k (0, 0, 0) else (nth c.clkFrom k, nth c.clkDiv k, last)

/-- The format of CLK_OUTk: that of the plans in which it runs, and the one it had where it runs in none (R441; log entry 36). -/
def clkFormatOf (s : State) (k : Nat) : Nat :=
  match s.cfg.clocks.plans.find? (fun p => decide ((s.cfg.clkOut p.plan k).div ≠ 0)) with
  | some p => (s.cfg.clkOut p.plan k).format
  | none => nth s.clocks.clkFormat k

/-- An output that a bind finds held low is driven in the bind's format from there (R441, R442); one that runs takes it with its divider. -/
def noteFormats (s : State) : State :=
  { s with clocks := { s.clocks with clkFormat := (List.range 4).map (fun k =>
      if nth s.clocks.clkDiv k = 0 then clkFormatOf s k else nth s.clocks.clkFormat k) } }

/-- CLK_OUT takes the dividers of the plan in force at an instant (R442): an output that changes completes its last old period and
counts its edges from there, and an output that SYNC_IN is to start stays low. All stay gated while PLL-S is lost (R439, R451). -/
def startOutputs (s : State) (t : Nat) : State :=
  let c := s.clocks
  let changes (k : Nat) : Bool := s.clkChanges k c.plan
  if !c.pllS.lock then s
  else noteSync { s with clocks := { c with
      clkOld := (List.range 4).map (fun k => if changes k then c.leave k t else c.clkOld.getD k (0, 0, 0))
      clkFrom := (List.range 4).map (fun k => if changes k then t else nth c.clkFrom k)
      clkDiv := (List.range 4).map (s.clkWant c.plan), clkFormat := (List.range 4).map (clkFormatOf s) } }

/-- CLK_OUT gated low at a loss of lock of PLL-S: an output that is high completes its high phase (R439). -/
def gateOutputs (s : State) : State :=
  { s with clocks := { s.clocks with
      clkDiv := [0, 0, 0, 0], clkOld := (List.range 4).map (fun k => s.clocks.leave k ((s.clkHigh k s.now).getD s.now)) } }

/-! ## MCLK grids (R125) -/

/-- The MCLK outputs that run in the plan in force, each with its divider. -/
def State.mclkRunning (s : State) : List (Nat × Nat) :=
  s.cfg.groups.flatMap (fun g => ((List.range 4).map (fun k => (4 * g + k, s.cfg.planDiv s.clocks.plan g k))).filter (fun e => e.2 ≠ 0))

/-- The phase grids of a bind, from the tick of frame 0. -/
def startGrids (s : State) (t : Nat) : State :=
  { s with field := { s.field with grids := s.mclkRunning.map (fun e => (e.1, [{ from_ := t, div := e.2, base := 0, n := none }])) } }

/-- The tick of frame 0 is known: the instants t_r + i · n · 2 ns of each phase grid reach back before it (R84, R125), after what the grids of
the bind before had. -/
def knownGrids (s : State) (t : Nat) : State :=
  { s with field := { s.field with grids := s.mclkRunning.foldl (fun l e => tput l e.1
      (tget [] l e.1 ++ [{ from_ := t % (32 * e.2), div := e.2, base := 0, n := none }])) s.field.grids } }

/-! ## FRAME_TICK -/

/-- TIME_PREF commands take effect and complete (R361, R412). -/
def applyPrefs (s : State) : State :=
  let l := s.time.prefCmds
  l.foldl (fun s c =>
      let d := fld c.2 8 1
      let p : Option Nat := if d < 2 && (s.cfg.dom d).source ≠ 0 then some d else none
      complete { s with time := { s.time with pref := p } } c 0 0)
    { s with time := { s.time with prefCmds := [] } }

/-- The frame that opens at a tick. -/
def openFrame (s : State) (n t : Nat) : FrameSet :=
  { count := n, frame := frameNo n, tickAt := t, chans := [], mclk := [], plan := s.clocks.plan, trig := [], coll := [], need := []
    groupsOk := [], badChans := [], tl := s.time.tl, slewing := s.time.slewing, osc := !s.clocks.pllS.lock
    utc := (s.time.active.map (fun x => (s.time.dom x).utc)).getD none
    invalid := s.boot.state == ModState.faultHold, field := s.boot.state == ModState.running || s.boot.resume == some .running }

/-- Groups whose outputs a switch from one plan to another changes: (group, output, new divider). -/
def planChanges (s : State) (old plan : Nat) : List (Nat × Nat × Nat) :=
  s.cfg.groups.flatMap (fun g => (List.range 4).filterMap (fun k =>
    let d := s.cfg.planDiv plan g k
    if d = s.cfg.planDiv old g k then none else some (g, k, d)))

/-- SET_MCLK messages after tick `n` for a switch that takes effect at the next tick (R449, Table 14-6). -/
def sendMclk (s : State) (n : Nat) : State :=
  (planChanges s (planAt s n) (planAt s (n + 1))).foldl (fun s e =>
    if (s.group e.1).state == GState.running then
      sendTile s e.1 0x84 (le 1 e.2.1 ++ le 2 e.2.2 ++ le 1 (mclkFormat s.cfg e.1 e.2.1))
    else s) s

/-- At tick `n` a group that has rejoined and settled begins to carry data (R144, R452), and one that powers down has its MCLK outputs gated
(R143). -/
def joinGroups (s : State) (n : Nat) : State :=
  { s with field := { s.field with groups := tmap s.field.groups (fun _ e =>
      let e := if e.downAt = some n then gateMclk (s.tickOf n) e else e
      if e.state == GState.settling && e.dataFrom = some n then { dropCal e with state := .running } else e) } }

/-- A ring with TICK set and entries to notify falls due at a tick (R346). -/
def dueRings (s : State) : State :=
  { s with rings := { s.rings with rings := tmap s.rings.rings (fun _ g =>
      if g.tick && g.waiting ≠ 0 then { g with due := true } else g) } }

/-- The memory rounds of the frame that closes are taken into BK_FREE_USED (R314). -/
def closeRounds (s : State) : State :=
  { s with banks := { s.banks with freeUsed := s.banks.freeNow, freeNow := 0, rounds := 0 } }

/-- PPS_OUT is low while the timeline is UNTRACED, unless PPS_OUT_UNTRACED is set (R419). -/
def quietPps (s : State) : State :=
  if s.time.tl == TlState.untraced && !s.cfg.time.ppsOutUntraced then
    { s with pins := { s.pins with ppsOut := .low }, time := { s.time with ppsEnd := none } }
  else s

/-- The time at tick `n`: the timeline takes its choice (R412 to R416) and the frame is counted. -/
def stampTick (s : State) (n t : Nat) : State :=
  quietPps { s with time := { tickTimeline s.cfg t (frameNo n) (forgetFrame (frameNo n) s.time) with ticks := n + 1, frame := frameNo n, tickAt := t } }

/-- What tick `n` sends: TICK to every tile (R137), the mark of a chain (R100) and SET_MCLK (R449); and what falls due at it. -/
def announceTick (s : State) (n : Nat) : State :=
  let s := (s.field.groups.map (·.1)).foldl (fun s g => sendTile s g 0x81 (le 2 (n % 65536))) s
  let s := if s.cfg.install.isSome then emit s .mark else s
  dueRings (closeRounds (sendMclk s n))

/-- Frame `n` opens at its tick. -/
def beginFrame (s : State) (n t : Nat) : State := joinGroups { s with frames := openFrame s n t :: s.frames } n

/-- TIME_RAW_WRAP: TIME_RAW wraps from 2^56 − 1 to 0 and the wrap count increases (R398), unless a frame tick comes before. -/
def execTimeRawWrap (s : State) : Res :=
  let t := (s.time.wraps + 1) * rawPeriod
  if !s.powered || (s.ticking && s.tickOf s.time.ticks < t) then .next s else .next (advanceTo s t)

/-- COASTING_END: HOLDOVER_S has passed without a TRACED domain, and the timeline is UNTRACED (R412). -/
def execCoastingEnd (s : State) : Res :=
  match s.time.coastEnd with
  | some e =>
    if s.time.tl == TlState.coasting && !(s.ticking && s.tickOf s.time.ticks < e) then
      let s := advanceTo s e
      .next (quietPps { s with time := s.time.untrace e })
    else .next s
  | none => .next s

/-! ## ARMING and RUNNING -/

/-- The length of ARMING in frames (R101): the longest settle time of a powered group, rounded up, and at least one frame. -/
def settleFrames (s : State) : Nat :=
  let ms := (s.cfg.field.filter (fun q => (s.group q.group).powered)).foldl (fun a q => max a q.settleMs) 0
  max 1 (cdiv (ms * puMs) s.spacing)

/-- ARMING begins at a tick: the groups settle. -/
def beginArming (s : State) (c : Nat) : State :=
  let s := { s with settleEnd := some (s.tickOf (c + settleFrames s))
                    boot := { s.boot with wait := .none, resume := none }
                    field := { s.field with groups := tmap s.field.groups (fun _ e =>
                      if e.powered && e.pllLock && (e.state == GState.powering || e.state == GState.running) then { e with state := .settling, dataFrom := none }
      else e) } }
  setState s .arming

/-- ARMING_ENTRY: discovery and deskew are complete, and the next tick enters ARMING (R76). -/
def execArmingEntry (s : State) : Res :=
  if s.boot.state == ModState.bound && s.boot.wait == BindWait.arming && s.ticking then
    let c := entryTick s
    match atTick s c with
    | some s => .next (beginArming s c)
    | none => .next s
  else .next s

/-- RUNNING begins at tick `c` (R101, R103): that frame is the first with field data. -/
def beginRunning (s : State) (c : Nat) : State :=
  let s := { s with
    firstRun := some c, settleEnd := none
    boot := { s.boot with startMs := min ((s.tickOf c - s.boot.startAt) / puMs) (2 ^ 32 - 1), resume := none }
    frames := s.frames.map (fun f => if f.count = c then { f with field := true } else f)
    field := { s.field with groups := tmap s.field.groups (fun _ e =>
      if e.powered && e.pllLock && e.state == GState.settling && (e.dataFrom.getD c) ≤ c then { dropCal e with state := .running, dataFrom := some c }
      else e) } }
  setState s .running

/-- RUNNING_ENTRY: the tick that ends the settle time enters RUNNING (R101). -/
def execRunningEntry (s : State) : Res :=
  match s.settleEnd with
  | some e =>
    if s.boot.state == ModState.arming && s.ticking then
      let c := (e - s.time.tick0.getD 0) / (max 1 s.spacing)
      match atTick s c with
      | some s => .next (beginRunning s (max c s.curFrame))
      | none => .next s
    else .next s
  | none => .next s

end Sys2Proof.Machine
end

