-- ==== Sys2Proof/Machine/Deflate.lean ====
section
/-!
DEFINITION. RFC 1951 and RFC 1950 decoding as R55 and R384 to R386 take it, and the compressed forms of R380 to R383: stored
blocks, fixed Huffman codes, and the free choice of the compressor where it meets every rule.
-/
namespace Sys2Proof.Machine

/-- How a decoding ends before its stream does, in stream order (R386): a malformation, the guard, or the end of the bytes at hand. -/
inductive InfErr where
  | malformed | limit | more
  deriving DecidableEq, Repr

/-- A decoding under way: bits left, output latest first, and its length. -/
structure Inf where
  inp : List Bool
  out : Bytes
  n   : Nat
  deriving DecidableEq, Repr

/-- The bits of bytes, least significant first (RFC 1951). -/
def toBits (b : Bytes) : List Bool := b.flatMap (fun x => (List.range 8).map (fun i => x.getLsbD i))

/-- The bytes of bits, padded with zeros. -/
def ofBitsBytes : Nat → List Bool → Bytes
  | 0, _ => []
  | n + 1, l => match l with
    | [] => []
    | _ => BitVec.ofNat 8 (ofBits (l.take 8)) :: ofBitsBytes n (l.drop 8)

/-- Reads `n` bits, least significant first. -/
def rdBits (n : Nat) (s : Inf) : Except InfErr (Nat × Inf) :=
  if s.inp.length < n then .error .more
  else .ok (ofBits (s.inp.take n), { s with inp := s.inp.drop n })

/-- Reads `n` bits on top of a base, where the sum may not pass `bound`: the low bits at hand may tell already that it does (R386). -/
def rdExtra (n base bound : Nat) (s : Inf) : Except InfErr (Nat × Inf) :=
  let v := base + ofBits (s.inp.take n)
  if bound < v then .error .malformed
  else if s.inp.length < n then .error .more
  else .ok (v, { s with inp := s.inp.drop n })

/-- A canonical code: for each length 1 to 15 the symbols of that length, ascending. -/
abbrev Code := List (List Nat)

/-- The canonical code of a list of code lengths. -/
def mkCode (lens : List Nat) : Code :=
  (List.range 15).map (fun l => (List.range lens.length).filter (fun i => lens.getD i 0 = l + 1))

/-- The sum of 2^(15 − length) over the code: 2^15 when it is complete, more when it is over-subscribed. -/
def kraft (lens : List Nat) : Nat := lens.foldl (fun a l => if l = 0 then a else a + 2 ^ (15 - l)) 0

/-- Decodes one symbol: `code` and `first` are the code read so far and the first code of this length. -/
def decSym : Code → Nat → Nat → Inf → Except InfErr (Nat × Inf)
  | [], _, _, _ => .error .malformed
  | syms :: rest, code, first, s =>
    match s.inp with
    | [] => .error .more
    | b :: inp =>
      let code := 2 * code + b2n b
      let first := 2 * first
      if code < first + syms.length then .ok (syms.getD (code - first) 0, { s with inp := inp })
      else decSym rest code (first + syms.length) { s with inp := inp }

/-- Puts one byte out under the guard. -/
def putByte (limit : Nat) (b : Byte) (s : Inf) : Except InfErr Inf :=
  if s.n < limit then .ok { s with out := b :: s.out, n := s.n + 1 } else .error .limit

/-- Copies `len` bytes from distance `d`. -/
def copyBack (limit d : Nat) : Nat → Inf → Except InfErr Inf
  | 0, s => .ok s
  | n + 1, s => (putByte limit (s.out.getD (d - 1) 0) s).bind (copyBack limit d n)

/-- Length codes 257 to 285 and distance codes 0 to 29: base and extra bits (RFC 1951). -/
def lenTable : List (Nat × Nat) :=
  [(3, 0), (4, 0), (5, 0), (6, 0), (7, 0), (8, 0), (9, 0), (10, 0), (11, 1), (13, 1), (15, 1), (17, 1), (19, 2), (23, 2)] ++
  [(27, 2), (31, 2), (35, 3), (43, 3), (51, 3), (59, 3), (67, 4), (83, 4), (99, 4), (115, 4), (131, 5), (163, 5)] ++
  [(195, 5), (227, 5), (258, 0)]
def distTable : List (Nat × Nat) :=
  [(1, 0), (2, 0), (3, 0), (4, 0), (5, 1), (7, 1), (9, 2), (13, 2), (17, 3), (25, 3), (33, 4), (49, 4), (65, 5), (97, 5)] ++
  [(129, 6), (193, 6), (257, 7), (385, 7), (513, 8), (769, 8), (1025, 9), (1537, 9), (2049, 10), (3073, 10)] ++
  [(4097, 11), (6145, 11), (8193, 12), (12289, 12), (16385, 13), (24577, 13)]

/-- The fixed code lengths (RFC 1951). Distance codes 30 and 31 exist and mean nothing, as literal codes 286 and 287 do. -/
def fixedLit : List Nat := List.replicate 144 8 ++ List.replicate 112 9 ++ List.replicate 24 7 ++ List.replicate 8 8
def fixedDist : List Nat := List.replicate 32 5

/-- Symbols of a block up to its end. -/
def infSyms (limit : Nat) (lit dist : Code) : Nat → Inf → Except InfErr Inf
  | 0, _ => .error .malformed
  | k + 1, s => (decSym lit 0 0 s).bind fun (sym, s) =>
    if sym < 256 then (putByte limit (BitVec.ofNat 8 sym) s).bind (infSyms limit lit dist k)
    else if sym = 256 then .ok s
    else match lenTable[sym - 257]? with
      | none => .error .malformed
      | some (lb, le) => (rdBits le s).bind fun (lx, s) => (decSym dist 0 0 s).bind fun (ds, s) =>
        match distTable[ds]? with
        | none => .error .malformed
        | some (db, de) => (rdExtra de db s.n s).bind fun (d, s) =>
          (copyBack limit d (lb + lx) s).bind (infSyms limit lit dist k)

/-- The order in which code length code lengths stand. -/
def clOrder : List Nat := [16, 17, 18, 0, 8, 7, 9, 6, 10, 5, 11, 4, 12, 3, 13, 2, 14, 1, 15]

/-- The code length code's lengths by symbol, from their order in the block. -/
def bySymbol (cls : List Nat) : List Nat :=
  (List.range 19).map (fun i => ((clOrder.zip cls).find? (fun e => e.1 = i)).elim 0 (·.2))

/-- Reads `n` three-bit code lengths, latest first in `acc`, as long as they over-subscribe no code. -/
def rdCl : Nat → List Nat → Inf → Except InfErr (List Nat × Inf)
  | 0, acc, s => .ok (acc.reverse, s)
  | n + 1, acc, s => (rdBits 3 s).bind fun (v, s) =>
    if 2 ^ 15 < kraft (v :: acc) then .error .malformed else rdCl n (v :: acc) s

/-- The code lengths read so far, `hl` of them for literals, rule out every end: a code over-subscribed, no code for the end of a block, or the
literals' code incomplete. -/
def lensBad (hl : Nat) (l : List Nat) : Bool :=
  let ll := l.take hl
  2 ^ 15 < kraft ll || 2 ^ 15 < kraft (l.drop hl) || (ll[256]? == some 0) || (hl ≤ l.length && kraft ll ≠ 2 ^ 15)

/-- Reads code lengths up to `want`, latest first, `hl` of them for literals; each failure is met in the byte that shows it (R386). -/
def rdLens (hl want : Nat) (cl : Code) : Nat → List Nat → Inf → Except InfErr (List Nat × Inf)
  | 0, _, _ => .error .malformed
  | k + 1, acc, s =>
    if lensBad hl acc.reverse then .error .malformed
    else if acc.length = want then .ok (acc.reverse, s)
    else (decSym cl 0 0 s).bind fun (sym, s) =>
      if sym < 16 then rdLens hl want cl k (sym :: acc) s
      else
        let (nb, base, v) := if sym = 16 then (2, 3, acc.head?) else if sym = 17 then (3, 3, some 0) else (7, 11, some 0)
        match v with
        | none => .error .malformed
        | some v => (rdExtra nb base (want - acc.length) s).bind fun (x, s) => rdLens hl want cl k (List.replicate x v ++ acc) s

/-- A dynamic block's codes, each complete. RFC 1951 lets a block use no distance code, or one of one bit: the loader accepts that (R54), and
DECOMPRESS accepts no incomplete code (`strict`, R384). -/
def rdDynamic (strict : Bool) (s : Inf) : Except InfErr (Code × Code × Inf) :=
  (rdExtra 5 257 286 s).bind fun (hl, s) => (rdBits 5 s).bind fun (hd, s) => (rdBits 4 s).bind fun (hc, s) =>
  (rdCl (hc + 4) [] s).bind fun (cls, s) =>
    let clens := bySymbol cls
    if kraft clens ≠ 2 ^ 15 then .error .malformed
    else (rdLens hl (hl + hd + 1) (mkCode clens) (s.inp.length + 1) [] s).bind fun (lens, s) =>
      let dl := lens.drop hl
      let used := dl.filter (· ≠ 0)
      if kraft dl ≠ 2 ^ 15 && (strict || (used ≠ [] && used ≠ [1])) then .error .malformed
      else .ok (mkCode (lens.take hl), mkCode dl, s)

/-- Copies stored bytes. -/
def infStored (limit : Nat) : Nat → Inf → Except InfErr Inf
  | 0, s => .ok s
  | n + 1, s => (rdBits 8 s).bind fun (v, s) =>
    (putByte limit (BitVec.ofNat 8 v) s).bind (infStored limit n)

/-- DEFLATE blocks up to the final one, with how many more may come. -/
def infBlocks (strict : Bool) (limit : Nat) : Nat → Inf → Except InfErr Inf
  | 0, _ => .error .malformed
  | k + 1, s => (rdBits 1 s).bind fun (fin, s) => (rdBits 2 s).bind fun (ty, s) =>
    let body : Except InfErr Inf :=
      if ty = 0 then
        (rdBits (s.inp.length % 8) s).bind fun (_, s) => (rdBits 16 s).bind fun (len, s) => (rdBits 8 s).bind fun (lo, s) =>
          if len % 256 + lo ≠ 255 then .error .malformed
          else (rdBits 8 s).bind fun (hi, s) => if len / 256 + hi ≠ 255 then .error .malformed else infStored limit len s
      else if ty = 1 then infSyms limit (mkCode fixedLit) (mkCode fixedDist) (s.inp.length + 1) s
      else if ty = 2 then (rdDynamic strict s).bind fun (l, d, s) => infSyms limit l d (s.inp.length + 1) s
      else .error .malformed
    body.bind fun s => if fin = 1 then .ok s else infBlocks strict limit k s

/-- Decodes a raw stream under an output limit: the end state, with its input aligned to a byte. -/
def inflateRaw (strict : Bool) (limit : Nat) (b : Bytes) : Except InfErr Inf :=
  (infBlocks strict limit (8 * b.length + 1) { inp := toBits b, out := [], n := 0 }).map
    (fun s => { s with inp := s.inp.drop (s.inp.length % 8) })

/-- The plain bytes of a raw stream and the bytes after its final block. -/
def rawPart (strict : Bool) (limit : Nat) (b : Bytes) : Except InfErr (Bytes × Bytes) :=
  (inflateRaw strict limit b).map (fun s => (s.out.reverse, ofBitsBytes (s.inp.length / 8) s.inp))

/-- The zlib header is one that R54 and R384 take: CM 8, CINFO at most 7, a header check that holds, FDICT clear. -/
def zlibHead (cmf flg : Nat) : Bool := cmf % 16 = 8 && cmf / 16 ≤ 7 && (cmf * 256 + flg) % 31 = 0 && !bit flg 5

/-- The Adler-32 of the plain bytes stands first in what follows them: what is left, judged byte by byte. -/
def afterAdler (plain rest : Bytes) : Except InfErr (Bytes × Bytes) :=
  let want := (le 4 (adler32 plain)).reverse
  let got := rest.take 4
  if got ≠ want.take got.length then .error .malformed
  else if got.length < 4 then .error .more else .ok (plain, rest.drop 4)

/-- Decodes one stream as far as the bytes at hand reach: its plain bytes, and the bytes after it (R54, R384 to R386). -/
def inflatePart (strict zlib : Bool) (limit : Nat) (b : Bytes) : Except InfErr (Bytes × Bytes) :=
  if zlib then
    match b with
    | [] => .error .more
    | [c] => if c.toNat % 16 = 8 && c.toNat / 16 ≤ 7 then .error .more else .error .malformed
    | c :: f :: l =>
      if !zlibHead c.toNat f.toNat then .error .malformed
      else (rawPart strict limit l).bind fun (plain, rest) => afterAdler plain rest
  else rawPart strict limit b

/-! ## Compressed forms (R380 to R383) -/

/-- A stored DEFLATE block, at a byte boundary. -/
def storedBlock (fin : Bool) (b : Bytes) : Bytes :=
  BitVec.ofNat 8 (b2n fin) :: (le 2 b.length ++ le 2 (65535 - b.length) ++ b)

/-- Stored blocks of at most 65,535 bytes; the last of the last split block is final (R381). -/
def storedBlocks (last : Bool) : Nat → Bytes → Bytes
  | 0, _ => []
  | k + 1, b =>
    if b.length ≤ 65535 then storedBlock last b
    else storedBlock false (b.take 65535) ++ storedBlocks last k (b.drop 65535)

/-- The flush point that ends a split block (R381). -/
def flushPoint : Bytes := [0x00, 0x00, 0x00, 0xFF, 0xFF]

/-- A split block coded as stored blocks. -/
def deflateStored (last : Bool) (b : Bytes) : Bytes :=
  storedBlocks last (b.length + 1) b ++ (if last then [] else flushPoint)

/-- The code of a symbol under canonical lengths, most significant bit first. -/
def symBits (lens : List Nat) (sym : Nat) : List Bool :=
  let l := lens.getD sym 0
  let before := (List.range lens.length).foldl (fun a i =>
    let li := lens.getD i 0
    if li ≠ 0 && (li < l || (li = l && i < sym)) then a + 2 ^ (15 - li) else a) 0
  (List.range l).map (fun i => bit (before / 2 ^ (15 - l)) (l - 1 - i))

/-- A number in `n` bits, least significant first. -/
def lowBits (n v : Nat) : List Bool := (List.range n).map (bit v)

/-- A value coded as the last base of a table that it reaches: symbol `first` on, then the extra bits. -/
def baseBits (tbl : List (Nat × Nat)) (lens : List Nat) (first v : Nat) : List Bool :=
  let i := (tbl.filter (fun e => e.1 ≤ v)).length - 1
  let e := tbl.getD i (0, 0)
  symBits lens (first + i) ++ lowBits e.2 (v - e.1)

/-- The symbols of a block and its end under two codes. -/
def tokenBits (lit dist : List Nat) (l : List (Nat × Nat)) : List Bool :=
  l.flatMap (fun t => if t.1 = 0 then symBits lit t.2 else baseBits lenTable lit 257 t.1 ++ baseBits distTable dist 0 t.2) ++
    symBits lit 256

/-- A block in the fixed Huffman codes. -/
def fixedForm (fin : Bool) (p : DeflatePlan) : List Bool := [fin, true, false] ++ tokenBits fixedLit fixedDist p.tokens

/-- A block in its own Huffman codes, with them before it. -/
def dynamicForm (fin : Bool) (p : DeflatePlan) : List Bool :=
  [fin, false, true] ++ lowBits 5 (p.lit.length - 257) ++ lowBits 5 (p.dist.length - 1) ++ lowBits 4 (p.cl.length - 4) ++
    p.cl.flatMap (lowBits 3) ++
    p.lens.flatMap (fun e => symBits (bySymbol p.cl) e.1 ++ lowBits (if e.1 < 16 then 0 else if e.1 = 16 then 2 else if e.1 = 17 then 3 else 7) e.2) ++
    tokenBits p.lit p.dist p.tokens

/-- A block stored, `pos` bits after the start of the split block. -/
def storedForm (fin : Bool) (pos : Nat) (b : Bytes) : List Bool :=
  [fin, false, false] ++ List.replicate ((8 - (pos + 3) % 8) % 8) false ++ toBits (le 2 b.length ++ le 2 (65535 - b.length) ++ b)

/-- The form that CMODE gives a DEFLATE block (R381): fixed codes under 0b01; otherwise the shortest of the three, stored where no other is
shorter, and fixed codes where only its own codes are as short (DESIGN CHOICE, assumption 4). -/
def blockForm (cmode : Nat) (fin : Bool) (pos : Nat) (b : Bytes) (p : DeflatePlan) : List Bool :=
  let f := fixedForm fin p
  let d := dynamicForm fin p
  let t := storedForm fin pos b
  if cmode = 1 then f
  else if t.length ≤ f.length && t.length ≤ d.length then t
  else if f.length ≤ d.length then f else d

/-- The plain bytes that a block covers. -/
def planSize (p : DeflatePlan) : Nat := (p.tokens.map (fun t => if t.1 = 0 then 1 else t.1)).sum

/-- The blocks of a split block one after another, `pos` bits after its start. -/
def planBits (cmode : Nat) (last : Bool) : Nat → Bytes → List DeflatePlan → List Bool
  | _, _, [] => []
  | pos, b, p :: ps =>
    let x := blockForm cmode (last && ps.isEmpty) pos (b.take (planSize p)) p
    x ++ planBits cmode last (pos + x.length) (b.drop (planSize p)) ps

/-- A bit stream in bytes, with the flush point after a split block that is not the last (R381). -/
def closeBits (last : Bool) (l : List Bool) : Bytes :=
  let l := l ++ (if last then [] else [false, false, false])
  ofBitsBytes (l.length + 1) l ++ (if last then [] else [0x00, 0x00, 0xFF, 0xFF])

/-- Blocks that the compressor may make of a split block (R381): at most 65,535 bytes each, of literals and of matches in reach, and they
decode to the split block, in the fixed codes under CMODE 0b01 and in their own otherwise. -/
def plansOk (cmode : Nat) (b : Bytes) (ps : List DeflatePlan) : Bool :=
  let form := if cmode = 1 then fixedForm else dynamicForm
  let l := ps.dropLast.flatMap (form false) ++ (ps.getLast?.map (form true)).getD []
  ps.all (fun p => planSize p ≤ 65535 && p.tokens.all (fun t =>
    if t.1 = 0 then t.2 < 256 else 3 ≤ t.1 && t.1 ≤ 258 && 1 ≤ t.2 && t.2 ≤ 32768)) &&
  (match inflateRaw true b.length (ofBitsBytes (l.length + 1) l) with
   | .ok s => s.inp.isEmpty && s.out.reverse = b
   | .error _ => false)

/-- Neighbouring packages in pairs. -/
def pairPackages : List (Nat × List Nat) → List (Nat × List Nat)
  | a :: b :: l => (a.1 + b.1, a.2 ++ b.2) :: pairPackages l
  | _ => []

/-- Code lengths of at most `limit` that take the fewest bits for symbols that occur so often: at least two of them occur. -/
def codeLengths (limit : Nat) (counts : List Nat) : List Nat :=
  let leaves := sortBy (·.1) (((List.range counts.length).filter (fun i => counts.getD i 0 ≠ 0)).map (fun i => (counts.getD i 0, [i])))
  let top := (List.range (limit - 1)).foldl (fun l _ => sortBy (·.1) (leaves ++ pairPackages l)) leaves
  let used := (top.take (2 * leaves.length - 2)).flatMap (·.2)
  (List.range counts.length).map (fun i => used.count i)

/-- A block of literals with codes of its own. -/
def literalPlan (b : Bytes) : DeflatePlan :=
  let syms := 0 :: 256 :: b.map BitVec.toNat
  let lit := codeLengths 15 ((List.range 257).map (fun i => syms.count i))
  let lens := lit ++ [1, 1]
  let cl := codeLengths 7 ((List.range 19).map (fun i => lens.count i))
  { tokens := b.map (fun x => (0, x.toNat)), lit := lit, dist := [1, 1], cl := clOrder.map (fun i => cl.getD i 0)
    lens := lens.map (fun l => (l, 0)) }

/-- Blocks of literals, 65,535 bytes each but the last. -/
def literalPlans : Nat → Bytes → List DeflatePlan
  | 0, _ => []
  | k + 1, b => if b.length ≤ 65535 then [literalPlan b] else literalPlan (b.take 65535) :: literalPlans k (b.drop 65535)

/-- A split block's compressed form: stored for CMODE 0b10; otherwise the compressor's own blocks where they meet the rules, and blocks of
literals where they do not (assumption 4). No output is longer than the stored form, but where fixed codes throughout make the literals
longer. -/
def deflateSplit (cmode : Nat) (last : Bool) (b : Bytes) : Bytes :=
  let stored := deflateStored last b
  if cmode = 2 then stored
  else
    let ps := Config.deflate b cmode last
    let own := closeBits last (planBits cmode last 0 b ps)
    let plain := closeBits last (planBits cmode last 0 b (literalPlans (b.length + 1) b))
    if plansOk cmode b ps && own.length ≤ max stored.length plain.length then own else plain

/-- The split blocks of a plain input: 1,048,576 bytes each but the last (R381). -/
def splitBlocks : Nat → Bytes → List Bytes
  | 0, _ => []
  | k + 1, b => if b.length ≤ 1048576 then [b] else b.take 1048576 :: splitBlocks k (b.drop 1048576)

/-! ## The transition pre-coder (R393, R394) -/

/-- LEB128, low bits first, in at most five bytes. -/
def leb128 : Nat → Nat → Bytes
  | 0, _ => []
  | k + 1, z => if z < 128 then [BitVec.ofNat 8 z] else BitVec.ofNat 8 (z % 128 + 128) :: leb128 k (z / 128)

/-- The coded entries of one block (R393). -/
def precode (entries : List Nat) : Bytes :=
  (entries.foldl (fun (acc : Nat × Bytes) e =>
    let v := e / 64
    let d : BitVec 32 := BitVec.ofNat 32 v - BitVec.ofNat 32 acc.1
    let z := (d <<< 1) ^^^ (d.sshiftRight 31)
    (v, acc.2 ++ leb128 5 z.toNat)) (0, [])).2

end Sys2Proof.Machine
end

