-- ==== Sys2Proof/Machine/Quires.lean ====
section
/-!
DEFINITION. Quire bodies (R68, R96, R139, R140, R191, R210, R222, R251, R281 to R284, R308, R370, R431, R455, R483): reading each
body into the Folio.
-/
namespace Sys2Proof.Machine

/-! ## Cutting a body into entries -/

/-- `n` pieces of `k` bytes. -/
def cutFrom (k : Nat) : Nat → Bytes → List Bytes
  | 0, _ => []
  | n + 1, b => b.take k :: cutFrom k n (b.drop k)

/-- The first `n` entries of `k` bytes, as far as the bytes hold them whole. -/
def cutEvery (k n : Nat) (b : Bytes) : List Bytes := cutFrom k (min n (b.length / k)) b

/-- The entries of `k` bytes that begin in a body of at most `n` of them. -/
def entriesFrom (k n : Nat) (b : Bytes) : List Bytes := cutFrom k (min n (cdiv b.length k)) b

/-- `n` entries, each as long as its own head says: none where they do not fill the bytes exactly. -/
def cutBy (size : Bytes → Nat) : Nat → Bytes → Option (List Bytes)
  | 0, b => if b.isEmpty then some [] else none
  | n + 1, b =>
    let k := size b
    if k = 0 || b.length < k then none
    else (cutBy size n (b.drop k)).map (fun l => b.take k :: l)

/-- Numbers strictly rising. -/
def rising : List Nat → Bool
  | a :: b :: l => decide (a < b) && rising (b :: l)
  | _ => true

/-- Bytes [o, o + n) are zero. -/
def zeroAt (b : Bytes) (o n : Nat) : Bool := (sub b o n).all (· == 0)

/-- Every byte is zero. -/
def allZero (b : Bytes) : Bool := b.all (· == 0)

/-- A number lies in [lo, hi]. -/
def within (lo hi v : Nat) : Bool := decide (lo ≤ v) && decide (v ≤ hi)

/-- Four bytes of an IPv4 address, first octet at the lowest offset (Tables 11-18 and 13-9). -/
def ipAt (b : Bytes) (o : Nat) : Nat := ofLe (sub b o 4).reverse

/-! ## Reading the bodies -/

/-- MODULE (Table 02-9). -/
def readModule (b : Bytes) : ModuleQ :=
  { mode := fld b 0 1, frame := fld b 1 1, strict := bit (fld b 2 2) 0
    margin := (List.range 9).map (fun i => fld b (8 + 2 * i) 2) }

/-- One plan (Table 14-8). -/
def readPlan (b : Bytes) : PlanQ :=
  { plan := fld b 0 1, ref := fld b 1 1, refMhz := fld b 2 1, mult := fld b 3 1, q := fld b 4 1, n := fld b 6 2
    outs := (cutEvery 8 4 (sub b 8 32)).map (fun e => { div := fld e 0 4, format := fld e 4 1, syncEn := bit (fld e 5 1) 0 })
    mclkDiv := (cutEvery 2 64 (sub b 40 128)).map ofLe }

/-- CLOCKS (Tables 14-7 and 14-8). -/
def readClocks (n : Nat) (b : Bytes) : ClocksQ :=
  { syncPulse := bit (fld b 0 1) 0, resumeSync := bit (fld b 0 1) 1, refWaitMs := fld b 2 2
    plans := (cutEvery 192 n (b.drop 16)).map readPlan, body := b }

/-- One domain (Table 13-8). -/
def readDomain (b : Bytes) : DomainQ :=
  { source := fld b 0 1, port := fld b 1 1, ptpDomain := fld b 2 1, logDelayReq := sfld b 3 1, asymNs := sfld b 4 4 }

/-- One port (Table 13-9); GATEWAY first octet first, as the table has it for IPV4 (DESIGN CHOICE, log entry 24). -/
def readPort (b : Bytes) : PortQ :=
  { pmode := fld b 0 1, mtu := fld b 1 1, vlan := fld b 2 2, ipv4 := ipAt b 4, prefixLen := fld b 8 1, pcp := fld b 9 1
    gateway := ipAt b 12, rateMbps := fld b 16 4 }

/-- TIME (Tables 13-7 to 13-9). -/
def readTime (b : Bytes) : TimeQ :=
  { maxSlew := fld b 0 4, slewLimit := fld b 4 4, holdoverS := fld b 8 4, timemapFrames := fld b 12 4, priority := fld b 16 1
    coastForever := bit (fld b 17 1) 0, ppsOutEn := bit (fld b 17 1) 1, ppsOutUntraced := bit (fld b 17 1) 2
    ppsOutWidth := fld b 20 4, domains := [readDomain (sub b 32 32), readDomain (sub b 64 32)]
    ports := [readPort (sub b 96 32), readPort (sub b 128 32)] }

/-- One FIELD entry (Tables 04-9 and 04-10). -/
def readGroup (b : Bytes) : GroupQ :=
  { group := fld b 0 1, settleMs := fld b 2 2, railMa := (List.range 4).map (fun k => fld b (4 + k) 1)
    mclk := (cutEvery 8 4 (sub b 8 32)).map (fun e => { div := fld e 0 2, format := fld e 2 1, returnDelay := fld e 4 4 }) }

/-- One CHANNELS entry (Table 04-11). -/
def readChan (b : Bytes) : ChanQ :=
  let f := fld b 5 1
  { chan := fld b 0 2, mode := fld b 2 1, rateK := fld b 3 1, clockSrc := fld b 4 1, clockFalling := bit f 0
    slope := bits f 1 2, clockCmp := bit f 3, dataCmp := bit f 4, thrHi := fld b 6 2, thrLo := fld b 8 2, hyst := fld b 10 1
    storage := fld b 11 1, decimD := fld b 12 4, clockHz := fld b 16 4, edgeRate := fld b 20 4, stampRate := fld b 24 4
    historyUs := fld b 28 4, cableDelay := fld b 32 4 }

/-- One condition (Table 06-3). -/
def readCond (b : Bytes) : CondQ :=
  let f := fld b 2 1
  { type := fld b 0 1, mode := fld b 1 1, comp := bit f 0, polarity := bit f 1, invert := bit f 6, onset := bit f 7
    src := fld b 4 4, a := fld b 8 8, b := fld b 16 8, c := fld b 24 4, d := fld b 28 4 }

/-- One slot (Table 06-6). -/
def readSlot (b : Bytes) : SlotQ :=
  { condA := fld b 0 1, condB := fld b 1 1, combine := fld b 2 1, action := fld b 3 1, arg := fld b 4 1, next := fld b 5 1 }

/-- Bytes of a sequencer entry (R222). -/
def seqEntryLen (b : Bytes) : Nat := 16 + 64 * fld b 1 1 + 32 * fld b 2 1

/-- One sequencer entry (Table 06-9). -/
def readSeq (b : Bytes) : SeqQ :=
  let nl := fld b 1 1
  let f := fld b 3 1
  { seq := fld b 0 1, armAtStart := bit f 0, rearmForever := bit f 1, hostOpen := bit f 2, keepState := bit f 3
    armCount := fld b 4 4, holdoff := fld b 8 4
    levels := (cutEvery 64 nl (b.drop 16)).map (fun l => (cutEvery 8 8 l).map readSlot)
    conds := (cutEvery 32 (fld b 2 1) (b.drop (16 + 64 * nl))).map readCond }

/-- Bytes of a record entry (R251). -/
def recEntryLen (b : Bytes) : Nat := 32 + 4 * fld b 4 2

/-- One RECORDS entry (Table 07-3). -/
def readRec (b : Bytes) : RecQ :=
  { rec_ := fld b 0 1, kind := fld b 1 1, seq := fld b 2 1, continuous := bit (fld b 3 1) 0, measure := bit (fld b 3 1) 1
    partFrames := fld b 6 2, pre := fld b 8 4, post := fld b 12 4, streamLen := fld b 16 4
    streams := (cutEvery 4 (fld b 4 2) (b.drop 32)).map ofLe }

/-- Bytes of a REDUCTIONS entry (R281). -/
def redEntryLen (b : Bytes) : Nat := 32 + 4 * fld b 20 1

/-- One REDUCTIONS entry (Table 08-5). -/
def readRed (b : Bytes) : RedQ :=
  let f := fld b 3 1
  { red := fld b 0 2, kind := fld b 2 1, stored := bit f 0, pickFalling := bit f 1, comp := bit f 2, input := fld b 4 1
    order := fld b 5 1, shift := fld b 6 1, mode := fld b 7 1, d := fld b 8 4, phase := fld b 12 4, window := fld b 16 4
    firD := fld b 21 1, historyUs := fld b 24 4
    coef := (cutEvery 4 (fld b 20 1) (b.drop 32)).map (fun e => sfld e 0 4) }

/-- Bytes of a SUMS entry (R283). -/
def sumEntryLen (b : Bytes) : Nat := 16 + 8 * fld b 2 1

/-- One SUMS entry (Tables 08-6 and 08-7). -/
def readSum (b : Bytes) : SumQ :=
  { ws := fld b 0 1, stored := bit (fld b 1 1) 0, offset := sfld b 4 4, historyUs := fld b 8 4
    inputs := (cutEvery 8 (fld b 2 1) (b.drop 16)).map (fun e => (fld e 0 2, sfld e 4 4)) }

/-- One LC entry (Table 08-9). -/
def readLc (b : Bytes) : LcQ :=
  { lc := fld b 0 2, mode := fld b 2 1, stat := fld b 3 1, src := fld b 4 4, a := sfld b 8 8, b := sfld b 16 8, c := fld b 24 4 }

/-- One EVT_OUT entry (Table 08-10). -/
def readEvt (b : Bytes) : EvtQ :=
  let f := fld b 1 1
  { out := fld b 0 1, invert := bit f 0, any := bit f 1, and_ := bit f 2, safe := fld b 2 1
    lcs := (cutEvery 2 (min 8 (fld b 3 1)) (sub b 4 16)).map ofLe, pulseMask := fld b 20 8, pulseFrames := fld b 28 1
    gateSeq := fld b 29 1, gateFlag := fld b 30 1 }

/-- The LC and EVT_OUT entries of LIMITS (R284). -/
def limitLcs (b : Bytes) : List Bytes := entriesFrom 32 (fld b 0 2) (b.drop 8)
def limitEvts (b : Bytes) : List Bytes := entriesFrom 32 (fld b 2 2) (b.drop (8 + 32 * fld b 0 2))

/-- One MEASURE entry (Table 09-5). -/
def readMeas (b : Bytes) : MeasQ :=
  { entry := fld b 0 2, kind := fld b 2 1, comp := bit (fld b 3 1) 0, polarity := bit (fld b 3 1) 1, chA := fld b 4 2
    chB := fld b 6 2, edgeA := fld b 8 1, edgeB := fld b 9 1, cycles := fld b 12 4, n := fld b 16 4, timeout := fld b 20 4
    calOffset := sfld b 24 4 }

/-- The entries of DELIVERY (R370). -/
def deliveryRings (b : Bytes) : List Bytes := entriesFrom 16 (fld b 0 2) (b.drop 16)
def deliveryStreams (b : Bytes) : List Bytes := entriesFrom 32 (fld b 2 2) (b.drop (16 + 16 * fld b 0 2))
def deliverySubs (b : Bytes) : List Bytes := entriesFrom 16 (fld b 4 2) (b.drop (16 + 16 * fld b 0 2 + 32 * fld b 2 2))

/-- DELIVERY (Tables 11-16 to 11-19). -/
def readDelivery (b : Bytes) : DeliveryQ :=
  { hbFrames := fld b 8 4
    rings := (deliveryRings b).map (fun e => { ring := fld e 0 2, notifyTick := bit (fld e 2 1) 0, size := fld e 4 4
                                               staging := fld e 8 4, notifyK := fld e 12 2 })
    streams := (deliveryStreams b).map (fun e => { stream := fld e 0 1, port := fld e 1 1, deadLetter := bit (fld e 2 1) 0
                                                   staging := fld e 4 4, destIp := ipAt e 8, destUdp := fld e 12 2
                                                   srcUdp := fld e 14 2, dscp := fld e 16 1 })
    subs := (deliverySubs b).map (fun e => { source := fld e 0 4, mask := fld e 4 4, types := fld e 8 2, target := fld e 10 2 }) }

/-- HOST (Table 15-15). -/
def readHost (b : Bytes) : HostQ :=
  { permit := fld b 0 4, planMask := fld b 4 1, groupMask := fld b 6 2, poolGb := fld b 8 1, poolDb := fld b 9 1
    winMask := fld b 10 2, winRo := fld b 12 2 }

/-- INSTALLATION (Table 03-5). -/
def readInstall (b : Bytes) : InstallQ :=
  { position := fld b 0 1, chainLen := fld b 1 1, leader := fld b 2 1, syncDelay := fld b 4 4 }

/-- A quire as its headers give it: TYPE, SEALED, ITEMS and the plain body. -/
structure QuireIn where
  typ : Nat
  sealed : Bool
  items : Nat
  body : Bytes
  deriving DecidableEq, Repr

/-- Reads one quire into the Folio (Table 02-5). -/
def readQuire (f : Folio) (q : QuireIn) : Folio :=
  let b := q.body
  let f := { f with present := f.present ++ [q.typ], sealedTypes := if q.sealed then f.sealedTypes ++ [q.typ] else f.sealedTypes }
  match q.typ with
  | 0x10 => { f with module_ := readModule b }
  | 0x11 => { f with clocks := readClocks q.items b }
  | 0x12 => { f with time := readTime b }
  | 0x20 => { f with field := (cutEvery 48 q.items b).map readGroup, fieldBody := b }
  | 0x21 => { f with channels := (cutEvery 40 q.items b).map readChan, chanBody := b }
  | 0x30 => { f with extRate := (cutEvery 4 4 b).map ofLe
                     seqs := ((cutBy seqEntryLen q.items (b.drop 16)).getD []).map readSeq }
  | 0x31 => { f with records := ((cutBy recEntryLen q.items b).getD []).map readRec }
  | 0x40 => { f with reds := ((cutBy redEntryLen q.items b).getD []).map readRed }
  | 0x41 => { f with sums := ((cutBy sumEntryLen q.items b).getD []).map readSum }
  | 0x42 => { f with lcs := (limitLcs b).map readLc, evts := (limitEvts b).map readEvt }
  | 0x50 => { f with meas := (cutEvery 32 q.items b).map readMeas }
  | 0x60 => { f with delivery := readDelivery b }
  | 0x61 => { f with host := readHost b }
  | 0x70 => { f with install := some (readInstall b) }
  | _ => f

/-! ## Lengths and item counts -/

/-- ITEMS and PLAIN_LEN are those of the quire's layout; a breach is a field out of range (0x117). -/
def lengthOk (q : QuireIn) : Bool :=
  let b := q.body
  let n := q.items
  let l := b.length
  match q.typ with
  | 0x10 => n = 1 && l = 32
  | 0x11 => within 1 4 n && l = 16 + 192 * n
  | 0x12 => n = 1 && l = 160
  | 0x20 => within 1 16 n && l = 48 * n
  | 0x21 => within 1 1024 n && l = 40 * n
  | 0x30 => within 1 64 n && 16 ≤ l && (cutBy seqEntryLen n (b.drop 16)).isSome
  | 0x31 => within 1 256 n && (cutBy recEntryLen n b).isSome
  | 0x40 => within 1 4096 n && (cutBy redEntryLen n b).isSome
  | 0x41 => within 1 256 n && (cutBy sumEntryLen n b).isSome
  | 0x42 => 1 ≤ n && n = fld b 0 2 + fld b 2 2 && l = 8 + 32 * n && fld b 0 2 ≤ 512 && fld b 2 2 ≤ 16
  | 0x50 => within 1 1024 n && l = 32 * n
  | 0x60 => n = fld b 0 2 + fld b 2 2 + fld b 4 2 && l = 16 + 16 * fld b 0 2 + 32 * fld b 2 2 + 16 * fld b 4 2 &&
      fld b 0 2 ≤ 4096 && fld b 2 2 ≤ 16 && within 1 8192 (fld b 4 2)
  | 0x61 => n = 1 && l = 32
  | 0x70 => n = 1 && l = 32
  | _ => false

/-! ## Reserved bytes and bits (R8, 0x116) -/

/-- Bits of a flag field named by `mask` are zero. -/
def clear (v mask : Nat) : Bool := v &&& mask == 0

/-- The entries of a quire whose entries give their own lengths, as far as the bytes reach: what is left where the next one does not fit
is the beginning of it. -/
def entriesOf (size : Bytes → Nat) : Nat → Bytes → List Bytes
  | 0, _ => []
  | n + 1, b =>
    if b.isEmpty then []
    else
      let k := size b
      if k = 0 || b.length < k then [b] else b.take k :: entriesOf size n (b.drop k)


/-- Every reserved byte and bit of a quire body is zero (R8). Bits [7:1] of an OUT entry's OFLAGS, to which Table 14-8 gives no name and
no value, count as reserved (DESIGN CHOICE, log entry 25). -/
def reservedOk (q : QuireIn) : Bool :=
  let b := q.body
  let n := q.items
  match q.typ with
  | 0x10 => clear (fld b 2 2) 0xFFFE && zeroAt b 4 4 && zeroAt b 26 6
  | 0x11 => clear (fld b 0 1) 0xFC && zeroAt b 1 1 && zeroAt b 4 12 && (entriesFrom 192 n (b.drop 16)).all (fun e =>
      zeroAt e 5 1 && zeroAt e 168 24 && (cutEvery 8 4 (sub e 8 32)).all (fun o => clear (fld o 5 1) 0xFE && zeroAt o 6 2))
  | 0x12 => clear (fld b 17 1) 0xF8 && zeroAt b 18 2 && zeroAt b 24 8 && zeroAt b 40 24 && zeroAt b 72 24 &&
      zeroAt b 106 2 && zeroAt b 116 12 && zeroAt b 138 2 && zeroAt b 148 12
  | 0x20 => (entriesFrom 48 n b).all (fun e => zeroAt e 1 1 && zeroAt e 40 8 &&
      (cutEvery 8 4 (sub e 8 32)).all (fun m => zeroAt m 3 1))
  | 0x21 => (entriesFrom 40 n b).all (fun e => clear (fld e 5 1) 0xE0 && zeroAt e 36 4)
  | 0x30 => (entriesOf seqEntryLen n (b.drop 16)).all (fun e =>
      let nl := fld e 1 1
      clear (fld e 3 1) 0xF0 && zeroAt e 12 4 && (entriesFrom 8 (8 * nl) (e.drop 16)).all (fun s => zeroAt s 6 2) &&
      (entriesFrom 32 (fld e 2 1) (e.drop (16 + 64 * nl))).all (fun c => clear (fld c 2 1) 0x3C && zeroAt c 3 1))
  | 0x31 => (entriesOf recEntryLen n b).all (fun e => clear (fld e 3 1) 0xFC && zeroAt e 20 12)
  | 0x40 => (entriesOf redEntryLen n b).all (fun e => clear (fld e 3 1) 0xF8 && zeroAt e 22 2 && zeroAt e 28 4)
  | 0x41 => (entriesOf sumEntryLen n b).all (fun e => clear (fld e 1 1) 0xFE && zeroAt e 3 1 && zeroAt e 12 4 &&
      (entriesFrom 8 (fld e 2 1) (e.drop 16)).all (fun i => zeroAt i 2 2))
  | 0x42 => zeroAt b 4 4 && (limitLcs b).all (fun e => zeroAt e 28 4) &&
      (limitEvts b).all (fun e => clear (fld e 1 1) 0xF8 && zeroAt e 31 1)
  | 0x50 => (entriesFrom 32 n b).all (fun e => clear (fld e 3 1) 0xFC && zeroAt e 10 2 && zeroAt e 28 4)
  | 0x60 => zeroAt b 6 2 && zeroAt b 12 4 &&
      (deliveryRings b).all (fun e => clear (fld e 2 1) 0xFE && zeroAt e 3 1 && zeroAt e 14 2) &&
      (deliveryStreams b).all (fun e => clear (fld e 2 1) 0xFE && zeroAt e 3 1 && zeroAt e 17 15) &&
      (deliverySubs b).all (fun e => clear (fld e 8 2) 0xC401 && zeroAt e 12 4)
  | 0x61 => clear (fld b 0 4) 0xFFFFFF00 && clear (fld b 4 1) 0xF0 && zeroAt b 5 1 && zeroAt b 14 18
  | 0x70 => zeroAt b 3 1 && zeroAt b 8 24
  | _ => true

end Sys2Proof.Machine
end

