-- ==== Sys2Proof/Machine/QuireChecks.lean ====
section
/-!
DEFINITION. The content checks of quires (R71 pass 8): field values (0x117) and references (0x118), chapter by chapter.
-/
namespace Sys2Proof.Machine

/-! ## MODULE, TIME, INSTALLATION, HOST -/

/-- MODULE values (Table 02-9, R11). -/
def moduleValues (b : Bytes) : Bool :=
  let m := readModule b
  within 1 3 m.mode && [1, 2, 4, 8, 16].contains m.frame && m.margin.all (fun x => decide (x ≤ 500))

/-- A domain's values (Table 13-8). -/
def domainValues (b : Bytes) : Bool :=
  let d := readDomain b
  decide (d.source ≤ 3) && decide (d.port ≤ 1) && decide (d.ptpDomain ≤ 239) && decide (-4 ≤ d.logDelayReq) &&
    decide (d.logDelayReq ≤ 4) && (d.source ≠ 0 || allZero (b.drop 1)) && (d.source ≠ 3 || zeroAt b 1 3)

/-- A port's values (Table 13-9). -/
def portValues (b : Bytes) : Bool :=
  let p := readPort b
  let mask := 2 ^ (32 - p.prefixLen)
  decide (p.pmode ≤ 2) && decide (p.mtu ≤ 1) && decide (p.vlan ≤ 4094) && decide (p.pcp ≤ 7) &&
  (if p.pmode = 0 then allZero (b.drop 1) else within 1 (if p.pmode = 1 then 10000 else 1000) p.rateMbps) &&
  (if p.ipv4 = 0 then p.prefixLen = 0 && p.gateway = 0
   else within 1 30 p.prefixLen && (p.gateway = 0 || p.gateway / mask = p.ipv4 / mask))

/-- The domain takes its time from PTP. -/
def DomainQ.ptp (d : DomainQ) : Bool := d.source = 1 || d.source = 2

/-- TIME values (Tables 13-7 to 13-9, R407, R432). -/
def timeValues (b : Bytes) : Bool :=
  let t := readTime b
  let da := t.domains.getD 0 {}
  let db := t.domains.getD 1 {}
  within 1000 1000000 t.maxSlew && within 1 1000000000 t.slewLimit &&
  (within 1 604800 t.holdoverS || (t.holdoverS = 0 && t.coastForever)) && 1 ≤ t.timemapFrames && t.priority ≤ 1 &&
  (if t.ppsOutEn then within 1 500000 t.ppsOutWidth else t.ppsOutWidth = 0) &&
  domainValues (sub b 32 32) && domainValues (sub b 64 32) && portValues (sub b 96 32) && portValues (sub b 128 32) &&
  (da.source ≠ 3 || db.ptp) && (db.source ≠ 3 || da.ptp) &&
  !(da.ptp && db.ptp && da.port = db.port && da.ptpDomain = db.ptpDomain)

/-- TIME references (R432): a PTP domain's port is on, and has an address where PTP runs over UDP. -/
def timeRefs (f : Folio) : Bool :=
  f.time.domains.all (fun d => !d.ptp || ((f.port d.port).pmode ≠ 0 && (d.source ≠ 1 || (f.port d.port).ipv4 ≠ 0)))

/-- INSTALLATION values (Table 03-5, R96). -/
def installValues (b : Bytes) : Bool :=
  let i := readInstall b
  i.position ≤ 7 && within 1 8 i.chainLen && i.leader ≤ 2 && i.syncDelay ≤ 1600000 && i.position < i.chainLen

/-- HOST values (Table 15-15). -/
def hostValues (b : Bytes) : Bool :=
  let h := readHost b
  (h.planMask != 0) == bit h.permit 5 && (h.groupMask != 0) == bit h.permit 7 && h.poolGb ≤ 119 &&
    (h.winRo &&& h.winMask) == h.winRo

/-- HOST references (R485). -/
def hostRefs (f : Folio) : Bool :=
  (List.range 4).all (fun p => !bit f.host.planMask p || (f.plan? p).isSome) &&
  (List.range 16).all (fun g => !bit f.host.groupMask g || (f.group? g).isSome)

/-! ## FIELD, CLOCKS, CHANNELS -/

/-- The second output of an LVDS pair (R126). -/
def GroupQ.pairSecond (q : GroupQ) (k : Nat) : Bool :=
  (k = 1 || k = 3) && (q.mclk.getD (k - 1) {}).div ≠ 0 && (q.mclk.getD (k - 1) {}).format = 3

/-- Smallest divider of an MCLK format (Table 04-4). -/
def mclkMin (format : Nat) : Nat := if format = 3 then 2 else 4

/-- A FIELD entry's values (Tables 04-9 and 04-10, R124 to R126). -/
def groupValues (b : Bytes) : Bool :=
  let q := readGroup b
  q.group ≤ 15 && q.settleMs ≤ 2000 && q.railMa.all (fun x => decide (x ≤ 50)) && q.railMa.foldl (· + ·) 0 ≤ 190 &&
  (List.range 4).all (fun k =>
    let m := q.mclk.getD k {}
    let raw := sub b (8 + 8 * k) 8
    if m.div = 0 || q.pairSecond k then allZero raw
    else m.format ≤ 3 && within (mclkMin m.format) 4096 m.div && m.returnDelay ≤ 1600000 &&
      (m.format ≠ 3 || k = 0 || k = 2))

/-- FIELD values. -/
def fieldValues (q : QuireIn) : Bool :=
  let l := cutEvery 48 q.items q.body
  l.all groupValues && rising (l.map (fun e => fld e 0 1))

/-- Smallest divider of a CLK_OUT format (Table 14-4). -/
def clkMin (format : Nat) : Nat := if format = 0 then 8 else if format = 1 then 16 else 20

/-- M as a fraction (Table 14-8). -/
def multNum (m : Nat) : Nat := if m = 1 then 2 else 1
def multDen (m : Nat) : Nat := if m = 2 then 2 else 1

/-- A plan's values (R435, R440, R441, R456, Table 14-8). -/
def planValues (f : Folio) (b : Bytes) : Bool :=
  let p := readPlan b
  let num := p.refMhz * multNum p.mult
  let den := p.q * multDen p.mult
  p.plan ≤ 3 && p.ref ≤ 1 && (if p.ref = 0 then p.refMhz = 100 else [10, 25, 50, 100].contains p.refMhz) && p.mult ≤ 2 &&
  within 1 64 p.q && within 20 400 p.n && 10 * den ≤ num && num ≤ 200 * den && p.n * num = 4000 * den &&
  (List.range 4).all (fun k =>
    let o := p.outs.getD k {}
    if o.div = 0 then allZero (sub b (8 + 8 * k) 8)
    else o.format ≤ 2 && within (clkMin o.format) 65536 o.div) &&
  (List.range 64).all (fun i =>
    let v := nth p.mclkDiv i
    let m := (((f.group? (i / 4)).map GroupQ.mclk).getD []).getD (i % 4) {}
    v = 0xFFFF || (p.plan ≠ 0 && m.div ≠ 0 && within (mclkMin m.format) 4096 v))

/-- CLOCKS values (Table 14-7, R441, R443, R444). -/
def clocksValues (f : Folio) (q : QuireIn) : Bool :=
  let c := readClocks q.items q.body
  (!c.resumeSync || c.syncPulse) && c.refWaitMs ≤ 10000 && !(c.syncPulse && f.present.contains 0x70) &&
  (cutEvery 192 q.items (q.body.drop 16)).all (planValues f) &&
  rising (c.plans.map (·.plan)) && (c.plans.head?.map (·.plan)) == some 0 &&
  (List.range 4).all (fun k =>
    let os := c.plans.map (fun p => p.outs.getD k {})
    let fs := (os.filter (fun o => o.div ≠ 0)).map (·.format)
    let ds := os.map (·.div)
    (uniq fs).length ≤ 1 && (!os.any (·.syncEn) || (uniq ds).length ≤ 1))

/-- The MEASURE entries name a channel. -/
def measNames (f : Folio) (c : Nat) : Bool := f.meas.any (fun e => e.chA = c || e.chB = c)

/-- A CHANNELS entry's values (Table 04-11, R115, R141, R289). -/
def chanValues (f : Folio) (b : Bytes) : Bool :=
  let q := readChan b
  let fl := fld b 5 1
  q.chan ≤ 1023 && q.mode ≤ 2 &&
  (if q.mode = 0 then allZero (b.drop 2)
   else
    (if q.mode = 1 then q.rateK ≤ 16 else q.rateK = 0) &&
    (if q.mode = 2 then q.clockSrc < 64 || within 0x40 0x43 q.clockSrc else q.clockSrc = 0 && clear fl 0x09) &&
    q.slope ≤ 2 && q.thrHi ≤ 4095 && q.thrLo ≤ q.thrHi && q.hyst ≤ 200 && q.storage ≤ 3 &&
    (if q.storage = 2 then within 2 65536 q.decimD else q.decimD = 0) &&
    (if q.mode = 2 && q.clockSrc < 64 then within 1 250000000 q.clockHz else q.clockHz = 0) &&
    within (if q.storage = 3 then 1 else 0) 500000000 q.edgeRate && q.stampRate ≤ 25000000 &&
    ((q.storage == 0) == (q.historyUs == 0)) && q.cableDelay ≤ 1600000 &&
    (q.stampRate = 0 || measNames f q.chan))

/-- CHANNELS values. -/
def channelsValues (f : Folio) (q : QuireIn) : Bool :=
  let l := cutEvery 40 q.items q.body
  l.all (chanValues f) && rising (l.map (fun e => fld e 0 2))

/-- CHANNELS references (R140, R141, R155). -/
def channelsRefs (f : Folio) : Bool :=
  f.channels.all (fun q =>
    (f.group? (q.chan / 64)).isSome &&
    (q.mode ≠ 2 ||
      (if q.clockSrc < 64 then (f.chan (q.chan / 64 * 64 + q.clockSrc)).mode = 1
       else f.fieldDiv (q.chan / 64) (q.clockSrc - 0x40) ≠ 0)))

/-! ## SEQUENCERS -/

/-- A duration in samples (R194). -/
def durOk (v : Nat) : Bool := within 1 4294967295 v

/-- The limits of Table 06-5 on a comparison's operands (R203). -/
def limitRules (mode : Nat) (a b : Int) (c : Nat) : Bool :=
  (!(mode = 2 || mode = 3) || decide (a ≤ b)) && (mode ≠ 3 || decide (a + c ≤ b - c)) && (!(mode = 4 || mode = 5) || c = 0)

/-- An s32 value. -/
def isS32 (v : Int) : Bool := decide (-2147483648 ≤ v) && decide (v ≤ 2147483647)

/-- A channel that is configured and not OFF. -/
def Folio.live (f : Folio) (c : Nat) : Bool := (f.chan c).mode ≠ 0

/-- COMP of a condition on a channel equals DATA_CMP of a sampled channel (R192). -/
def compOk (f : Folio) (comp : Bool) (c : Nat) : Bool := !(f.chan c).sampled || comp == (f.chan c).dataCmp

/-- A condition of this type and mode is an event (Table 06-4). -/
def CondQ.event (q : CondQ) : Bool :=
  within 2 6 q.type || q.type = 0x0A || (q.type = 0x0B && q.mode ≠ 3) || (q.type = 0x0D && q.mode = 3)

/-- The source of a VALUE condition or an LC is well formed: a reduction or a weigh sum (R202). -/
def valueSrc (src : Nat) : Bool := (src / 2 ^ 24 = 1 && src % 2 ^ 24 ≤ 4095) || (src / 2 ^ 24 = 2 && src % 2 ^ 24 ≤ 255)

/-- The source exists. -/
def valueSrcKnown (f : Folio) (src : Nat) : Bool :=
  if src / 2 ^ 24 = 1 then (f.red? (src % 4096)).isSome else (f.sum? (src % 256)).isSome

/-- A condition's values (R191 to R209, Tables 06-3 to 06-5). DESIGN CHOICE (assumption 43): SEQUENCER AT_LEVEL takes any level 0 to 15,
also one that sequencer SRC does not have. DESIGN CHOICE
(assumption 25): an operand that Table 06-4 does not mention for a type must be 0, as it must where the table says so. -/
def condValues (f : Folio) (own : Nat) (q : CondQ) : Bool :=
  let z (l : List Nat) : Bool := l.all (· == 0)
  (!(q.event && (q.invert || q.onset))) && (!q.comp || [1, 2, 3, 5].contains q.type) && (!q.polarity || q.type = 3) &&
  match q.type with
  | 0x01 => q.src ≤ 15 && q.mode = 0 && q.a ≠ 0 && (q.b &&& q.a) == q.b && z [q.c, q.d] &&
      (maskChans q.src q.a).all (compOk f q.comp)
  | 0x02 => q.src ≤ 1023 && q.mode ≤ 2 && z [q.a, q.b, q.c, q.d] && compOk f q.comp q.src
  | 0x03 => q.src ≤ 1023 && q.mode ≤ 3 && durOk q.a && z [q.c, q.d] && compOk f q.comp q.src &&
      (if 2 ≤ q.mode then durOk q.b && q.a ≤ q.b else q.b = 0)
  | 0x04 => q.src ≤ 1023 && q.mode ≤ 2 && z [q.a, q.b, q.c, q.d] && (!f.live q.src || (f.chan q.src).trans)
  | 0x05 => q.src ≤ 1023 && q.mode ≤ 2 && durOk q.a && z [q.b, q.c, q.d] && compOk f q.comp q.src
  | 0x06 => q.src ≤ 1023 && q.mode ≤ 3 && durOk q.a && z [q.b, q.c, q.d] && (!f.live q.src || (f.chan q.src).trans)
  | 0x07 => q.src ≤ 3 && q.mode ≤ 2 && q.a < 2 ^ 32 && z [q.b, q.c, q.d]
  | 0x08 => valueSrc q.src && q.mode ≤ 5 && isS32 (sint 64 q.a) && isS32 (sint 64 q.b) && q.d = 0 &&
      limitRules q.mode (sint 64 q.a) (sint 64 q.b) q.c
  | 0x09 => q.src ≤ 1023 && q.mode ≤ 3 && q.d ≤ 4 && limitRules q.mode (sint 64 q.a) (sint 64 q.b) q.c
  | 0x0A => q.src = 0 && (match q.mode with
      | 0 => durOk q.a && z [q.b, q.c, q.d]
      | 1 => q.a < 2 ^ 48 && q.c < 1000000000 && z [q.b, q.d]
      | 2 => within 1 86400000 q.a && z [q.b, q.c, q.d]
      | _ => false)
  | 0x0B => q.src ≤ 3 && q.mode ≤ 3 && z [q.a, q.b, q.c, q.d]
  | 0x0C => q.src < 2 ^ 19 && q.mode ≤ 2 && within 1 4294967295 q.a && q.b < 2 ^ 32 && (q.mode ≠ 2 || q.b = 0) && z [q.c, q.d]
  | 0x0D => q.src ≤ 63 && q.src ≠ own && q.mode ≤ 3 && z [q.b, q.c, q.d] &&
      (if q.mode = 0 then q.a ≤ 15 else if q.mode = 1 then q.a ≤ 7 else q.a = 0)
  | _ => false

/-- A condition's references (R191, R195, R202, R206, R485). A level is no item to refer to (assumption 43). -/
def condRefs (f : Folio) (q : CondQ) : Bool :=
  match q.type with
  | 0x01 => (maskChans q.src q.a).all f.live
  | 0x02 | 0x03 | 0x04 | 0x05 | 0x06 => f.live q.src
  | 0x08 => valueSrcKnown f q.src
  | 0x09 => (f.meas? q.src).isSome
  | 0x0B => nth f.extRate q.src ≠ 0
  | 0x0C => (List.range 16).any (fun k => bit f.host.winMask k && !bit f.host.winRo k)
  | 0x0D => (f.seq? q.src).isSome
  | _ => true

/-- Largest ARG of an action (Table 06-7). -/
def argMax (action : Nat) : Nat :=
  match action with
  | 0x02 => 255
  | 0x05 | 0x06 => 3
  | 0x07 | 0x08 => 7
  | 0x09 => 15
  | _ => 0

/-- A slot's values (Tables 06-6 and 06-7). -/
def slotValues (b : Bytes) : Bool :=
  let k := readSlot b
  if k.action = 0 then allZero b
  else
    k.condA ≤ 127 && k.condB ≤ 127 && k.combine ≤ 2 && (k.combine ≠ 0 || k.condB = 0) && k.action ≤ 0x0A &&
    k.arg ≤ argMax k.action && k.next ≤ 0x10 &&
    (if k.action = 1 then k.next ≠ 0x10 else if k.action = 2 || k.action = 0x0A then k.next = 0x10 else true)

/-- A slot's references (R210, R214). -/
def slotRefs (f : Folio) (q : SeqQ) (k : SlotQ) : Bool :=
  k.action = 0 ||
  (k.condA < q.conds.length && (k.combine = 0 || k.condB < q.conds.length) && (k.next = 0x10 || k.next < q.levels.length) &&
   (k.action ≠ 9 || (match f.evt? k.arg with
     | some e => bit e.pulseMask q.seq
     | none => false)))

/-- One sequencer entry's values (Table 06-9, R222). -/
def seqValues (f : Folio) (b : Bytes) : Bool :=
  let q := readSeq b
  q.seq ≤ 63 && within 1 16 (fld b 1 1) && within 1 128 (fld b 2 1) && ((q.armCount == 0) == q.rearmForever) &&
  (cutEvery 8 (8 * fld b 1 1) (b.drop 16)).all slotValues && q.conds.all (condValues f q.seq)

/-- SEQUENCERS values. -/
def seqsValues (f : Folio) (q : QuireIn) : Bool :=
  let l := entriesOf seqEntryLen q.items (q.body.drop 16)
  (List.range 4).all (fun i => decide (fld q.body (4 * i) 4 ≤ 50000000)) && l.all (seqValues f) &&
    rising (l.map (fun e => fld e 0 1))

/-- SEQUENCERS references. -/
def seqsRefs (f : Folio) : Bool :=
  f.seqs.all (fun q => q.levels.all (fun l => l.all (slotRefs f q)) && q.conds.all (condRefs f))

/-! ## REDUCTIONS, SUMS, LIMITS -/

/-- Smallest DIV over the plans is not gated: R456 gates an output that FIELD gates in every plan. -/
def Folio.mclkRuns (f : Folio) (g k : Nat) : Bool := f.fieldDiv g k ≠ 0

/-- Outputs of an instance in one frame, at the highest rate over the plans (R267, R447). -/
def redOuts (f : Folio) (q : RedQ) : Nat := perFrame f (redOutRate f planMax q)

/-- Outputs of a weigh sum in one frame: those of its first input. -/
def sumOuts (f : Folio) (q : SumQ) : Nat :=
  match q.inputs.head? with
  | some (r, _) => ((f.red? r).map (redOuts f)).getD 0
  | none => 0

/-- How an instance reads its input: 0 samples, 1 transitions, 2 pick, 3 chained, 4 not one of Table 08-2. -/
def RedQ.how (f : Folio) (q : RedQ) : Nat :=
  if q.input = 0 then (if (f.chan q.chan).trans then 1 else 0)
  else if within 0x10 0x13 q.input then 2 else if within 0x20 0x22 q.input then 3 else 4

/-- The pairings of R534. -/
def pairOk (kind how : Nat) : Bool :=
  match kind with
  | 1 => how = 0 || how = 2
  | 2 => how = 0 || how = 2 || how = 3
  | 3 => how = 3
  | 4 | 5 => how = 0 || how = 1 || how = 2
  | _ => false

/-- A REDUCTIONS entry's values (Table 08-5, R262, R267, R282, R534). A pairing with a channel that is OFF or missing is judged where no
mode of the channel would allow it. -/
def redValues (f : Folio) (b : Bytes) : Bool :=
  let q := readRed b
  let taps := fld b 20 1
  let how := q.how f
  let live := f.live q.chan
  q.red ≤ 4095 && within 1 5 q.kind && how ≤ 3 && (how ≠ 3 || q.input - 0x20 < q.red % 4) &&
  (if live || q.input ≠ 0 then pairOk q.kind how else pairOk q.kind 0 || pairOk q.kind 1) &&
  (if q.kind = 1 then within 1 5 q.order && q.shift ≤ 63 && within 2 16777216 q.d && q.d ^ q.order ≤ 2 ^ 64 && taps ≤ 64
   else q.order = 0 && q.shift = 0 && within 1 16777216 q.d && taps = 0) &&
  q.mode ≤ (if q.kind = 3 || q.kind = 4 then 2 else 0) && q.phase < q.d &&
  (if q.kind = 2 || q.kind = 3 then within 1 16777216 q.window else q.window = 0) &&
  (if taps = 0 then q.firD = 0 else within 1 64 q.firD) && ((q.historyUs != 0) == q.stored) &&
  q.coef.all (fun x => decide (-8388608 ≤ x) && decide (x ≤ 8388607)) &&
  (!q.pickFalling || how = 2) && (!q.comp || how = 1) && (how ≠ 2 || (f.chan q.chan).mode = 1) && redOuts f q ≤ 4096

/-- REDUCTIONS values. -/
def redsValues (f : Folio) (q : QuireIn) : Bool :=
  let l := entriesOf redEntryLen q.items q.body
  l.all (redValues f) && rising (l.map (fun e => fld e 0 2))

/-- REDUCTIONS references (R282). -/
def redsRefs (f : Folio) : Bool :=
  f.reds.all (fun q => f.live q.chan && (!q.chained || (f.red? q.source).isSome) &&
    (!q.pick || f.mclkRuns (q.chan / 64) (q.input - 0x10)))

/-- The grid of an instance under every plan (R271): its base (TIMING with RATE_K, or MCLK with its DIV under each plan) and the
D, PHASE and FIR_D of each stage from the channel outward; none where it shares no grid. -/
def gridOfRed (f : Folio) : Nat → RedQ → Option (List Nat × List (Nat × Nat × Nat))
  | 0, _ => none
  | k + 1, q =>
    let own := (q.d, q.phase, q.firD)
    if q.chained then
      match f.red? q.source with
      | some x => (gridOfRed f k x).map (fun e => (e.1, e.2 ++ [own]))
      | none => none
    else
      let c := f.chan q.chan
      let divs (j : Nat) : List Nat := f.clocks.plans.map (fun p => f.planDiv p.plan (q.chan / 64) j)
      if q.pick then some (0 :: divs (q.input - 0x10), [own])
      else if c.trans then none
      else if c.mode = 1 then some ([1, c.rateK], [own])
      else if 64 ≤ c.clockSrc then some (0 :: divs (c.clockSrc - 0x40), [own])
      else none

/-- The inputs of a weigh sum that have entries share one output grid (R271). -/
def oneGrid (f : Folio) (q : SumQ) : Bool :=
  match (q.inputs.filterMap (fun i => f.red? i.1)).map (gridOfRed f 4) with
  | [] => true
  | g :: l => q.inputs.length ≤ 1 || (g.isSome && l.all (· == g))

/-- A SUMS entry's values (Tables 08-6 and 08-7, R267, R271, R283). -/
def sumValues (f : Folio) (b : Bytes) : Bool :=
  let q := readSum b
  within 1 64 (fld b 2 1) && ((q.historyUs != 0) == q.stored) && rising (q.inputs.map (·.1)) &&
  q.inputs.all (fun i => i.1 ≤ 4095 && decide (i.2 ≠ 0) && decide (-8388608 ≤ i.2) && decide (i.2 ≤ 8388607)) &&
  oneGrid f q && sumOuts f q ≤ 4096

/-- SUMS values. -/
def sumsValues (f : Folio) (q : QuireIn) : Bool :=
  let l := entriesOf sumEntryLen q.items q.body
  l.all (sumValues f) && rising (l.map (fun e => fld e 0 1))

/-- SUMS references (R283). -/
def sumsRefs (f : Folio) : Bool := f.sums.all (fun q => q.inputs.all (fun i => (f.red? i.1).isSome))

/-- An LC entry's values (Table 08-9, R274). -/
def lcValues (b : Bytes) : Bool :=
  let q := readLc b
  let meas := q.src / 2 ^ 24 = 5
  q.lc ≤ 511 && q.mode ≤ 5 && (if meas then q.src % 2 ^ 24 ≤ 1023 && q.stat ≤ 4 && q.mode ≤ 3
    else valueSrc q.src && q.stat = 0 && isS32 q.a && isS32 q.b) &&
  (!([0, 1, 4, 5].contains q.mode) || q.b = 0) && limitRules q.mode q.a q.b q.c

/-- An EVT_OUT entry's values (Table 08-10, R284). -/
def evtValues (b : Bytes) : Bool :=
  let q := readEvt b
  let n := fld b 3 1
  q.out ≤ 15 && q.safe ≤ 2 && n ≤ 8 && zeroAt b (4 + 2 * n) (16 - 2 * n) &&
  (if q.pulseMask = 0 then q.pulseFrames = 0 else 1 ≤ q.pulseFrames) &&
  (q.gateSeq = 0xFF || q.gateSeq ≤ 63) && q.gateFlag ≤ 7 && (q.gateSeq ≠ 0xFF || q.gateFlag = 0) &&
  !(q.lcs.isEmpty && q.pulseMask = 0)

/-- LIMITS values. -/
def limitsValues (q : QuireIn) : Bool :=
  let lc := limitLcs q.body
  let ev := limitEvts q.body
  lc.all lcValues && rising (lc.map (fun e => fld e 0 2)) && ev.all evtValues && rising (ev.map (fun e => fld e 0 1))

/-- LIMITS references (R274, R284). -/
def limitsRefs (f : Folio) : Bool :=
  f.lcs.all (fun q => if q.src / 2 ^ 24 = 5 then (f.meas? (q.src % 2 ^ 24)).isSome else valueSrcKnown f q.src) &&
  f.evts.all (fun q => q.lcs.all (fun i => (f.lc? i).isSome) && q.seqs.all (fun s => (f.seq? s).isSome))

/-! ## MEASURE -/

/-- The channels of an entry. -/
def MeasQ.two (q : MeasQ) : Bool := q.kind = 1 || q.kind = 5
def MeasQ.chans (q : MeasQ) : List Nat := if q.two then [q.chA, q.chB] else [q.chA]

/-- The channels whose edges close an entry's results (R307): B of an INTERVAL; both of a PHASE, where every A edge makes a result
and a B edge produces it (DEDUCED); A otherwise. -/
def MeasQ.closing (q : MeasQ) : List Nat := if q.kind = 1 then [q.chB] else q.chans

/-- A MEASURE entry's values (Table 09-5, R290, R302, R307). -/
def measValues (f : Folio) (b : Bytes) : Bool :=
  let q := readMeas b
  q.entry ≤ 1023 && within 1 5 q.kind && (!q.polarity || q.kind = 4) && q.chA ≤ 1023 &&
  (if q.two then q.chB ≤ 1023 && q.chB ≠ q.chA && q.edgeB ≤ 2 else q.chB = 0xFFFF && q.edgeB = 0) &&
  (if q.kind = 4 then q.edgeA = 0 else q.edgeA ≤ 2) &&
  (if q.kind = 2 || q.kind = 3 then within 1 16777216 q.cycles else q.cycles = 0) && within 1 16777216 q.n && 1 ≤ q.timeout &&
  (!q.two || q.chA / 64 ≠ q.chB / 64 || q.calOffset = 0) &&
  q.chans.all (fun c => f.meas.all (fun e => !e.chans.contains c || e.comp == q.comp)) &&
  q.closing.all (fun c => decide (sF f c ≤ 4096 * q.n))

/-- MEASURE values. -/
def measuresValues (f : Folio) (q : QuireIn) : Bool :=
  let l := cutEvery 32 q.items q.body
  l.all (measValues f) && rising (l.map (fun e => fld e 0 2))

/-- MEASURE references (R289, R308). -/
def measuresRefs (f : Folio) : Bool := f.meas.all (fun q => q.chans.all (fun c => f.live c && (f.chan c).stampRate ≠ 0))

/-! ## RECORDS and DELIVERY -/

/-- The most bytes a stored stream writes in one frame (R226), at the highest rate over the plans. -/
def bMax (f : Folio) (ref : Nat) : Nat :=
  if streamChan ref then
    let q := f.chan ref
    if q.trans then 4 * eF f ref
    else
      let r := maxRate f ref
      cdiv (perFrame f (r.1, r.2 * (if q.storage = 2 then max 1 q.decimD else 1))) 8
  else if ref / 2 ^ 24 = 1 then 4 * ((f.red? (ref % 4096)).map (redOuts f)).getD 0
  else 4 * ((f.sum? (ref % 256)).map (sumOuts f)).getD 0

/-- The subscriptions that take some envelope of a record. -/
def recSubs (f : Folio) (q : RecQ) : List SubQ :=
  f.delivery.subs.filter (fun x => q.types.any (fun t => x.takes t (0x31000000 + q.rec_)))

/-- The largest data part of a record (R255). -/
def recPartMax (f : Folio) (q : RecQ) : Nat :=
  let b := q.streams.foldl (fun a r => max a (bMax f r)) 0
  roundUp 32 (64 + q.partFrames * (24 + roundUp 8 b))

/-- Bytes of delivery ring `k`. -/
def ringBytes (f : Folio) (k : Nat) : Nat := ((f.ring? k).map (·.size)).getD 0

/-- A RECORDS entry's values (Table 07-3, R242, R252). -/
def recValues (f : Folio) (b : Bytes) : Bool :=
  let q := readRec b
  within 1 4 q.kind && (q.seq ≤ 63 || (q.seq = 0xFF && q.kind = 3 && q.continuous && q.pre = 0)) &&
  within 1 1024 (fld b 4 2) && within 1 1024 q.partFrames &&
  (if q.kind = 3 then q.streamLen ≠ 0 || q.continuous else q.streamLen = 0 && !q.continuous) &&
  (if q.whole then q.pre + q.post ≠ 0 else !q.measure) && (q.kind ≠ 3 || q.post = 0) && (q.kind ≠ 4 || (q.pre = 0 && q.post = 0)) &&
  rising q.streams && (q.kind ≠ 4 || q.streams.all (fun r => !streamChan r || (f.chan r).storage ≠ 1)) &&
  (q.kind ≠ 2 || (match f.seq? q.seq with
    | some e => !e.rearmForever && e.armCount ≤ 65536
    | none => true)) &&
  (recSubs f q).all (fun x => 0x8000 ≤ x.target || (f.ring? x.target).isNone || 2 * recPartMax f q ≤ ringBytes f x.target)

/-- RECORDS values. -/
def recsValues (f : Folio) (q : QuireIn) : Bool :=
  let l := entriesOf recEntryLen q.items q.body
  l.all (recValues f) && rising (l.map (fun e => fld e 0 1))

/-- RECORDS references (R252). -/
def recsRefs (f : Folio) : Bool :=
  let st := storedStreams f
  f.records.all (fun q => (q.seq = 0xFF || (f.seq? q.seq).isSome) && q.streams.all st.contains && (recSubs f q).length = 1)

/-- The staged types (R533) as a TYPES mask. -/
def stagedTypes : Nat := 2 ^ 4 + 2 ^ 5 + 2 ^ 7 + 2 ^ 8 + 2 ^ 9 + 2 ^ 11 + 2 ^ 12 + 2 ^ 13

/-- The types of records and readouts as a TYPES mask. -/
def recordTypes : Nat := 2 ^ 1 + 2 ^ 2 + 2 ^ 3 + 2 ^ 6

/-- The largest envelope that a subscription takes (R285, R309, R256): every other staged type has at most 96 bytes. -/
def subMax (f : Folio) (x : SubQ) : Nat :=
  let m (a b : Nat) : Nat := max a b
  let a := f.reds.foldl (fun a q => if x.takes 4 (0x40000000 + q.red) then m a (roundUp 32 (64 + 8 * redOuts f q)) else a) 0
  let a := f.sums.foldl (fun a q => if x.takes 5 (0x41000000 + q.ws) then m a (roundUp 32 (64 + 8 * sumOuts f q)) else a) a
  let a := f.meas.foldl (fun a q => if x.takes 7 (0x50000000 + q.entry) then
      m a (roundUp 32 (64 + 48 * cdiv (q.closing.foldl (fun b c => max b (sF f c)) 0) (max 1 q.n))) else a) a
  f.records.foldl (fun a q => if q.measure && x.takes 6 (0x31000000 + q.rec_) then m a (64 + 64 * q.streams.length) else a) a

/-- DELIVERY values (Tables 11-16 to 11-19, R370, R372). -/
def deliveryValues (f : Folio) (q : QuireIn) : Bool :=
  let d := readDelivery q.body
  let mode := f.module_.mode
  1 ≤ d.hbFrames &&
  d.rings.all (fun e => e.ring ≤ 4095 && within 4096 1073741824 e.size && 2 ^ Nat.log2 e.size = e.size && e.staging % 4096 = 0) &&
  rising (d.rings.map (·.ring)) &&
  d.streams.all (fun e => e.stream ≤ 15 && e.port ≤ 1 && 4096 ≤ e.staging && e.staging % 4096 = 0 && 1 ≤ e.destUdp && 1 ≤ e.srcUdp &&
    e.dscp ≤ 63) && rising (d.streams.map (·.stream)) && (mode ≠ 2 || d.rings.isEmpty) && (mode ≠ 1 || d.streams.isEmpty) &&
  rising (d.subs.map (fun x => x.target * 2 ^ 64 + x.source * 2 ^ 32 + x.mask)) &&
  d.subs.all (fun x =>
    (x.source &&& x.mask) == x.source && x.types ≠ 0 &&
    (x.target ≤ 4095 || within 0x8000 0x800F x.target) &&
    (if x.target < 0x8000 then
      (match f.ring? x.target with
       | some r => (x.types &&& stagedTypes == 0 || r.staging ≠ 0) && 2 * subMax f x ≤ r.size
       | none => true)
     else x.types &&& recordTypes == 0 && (match f.stream? (x.target - 0x8000) with
       | some t => decide (subMax f x ≤ t.staging)
       | none => true)))

/-- DELIVERY references (R372, R432). -/
def deliveryRefs (f : Folio) : Bool :=
  f.delivery.subs.all (fun x => if x.target < 0x8000 then (f.ring? x.target).isSome else (f.stream? (x.target - 0x8000)).isSome) &&
  f.delivery.streams.all (fun t => (f.port t.port).pmode ≠ 0 && (f.port t.port).ipv4 ≠ 0)

/-! ## Every quire -/

/-- The values of one quire (0x117). -/
def valuesOk (f : Folio) (q : QuireIn) : Bool :=
  lengthOk q &&
  match q.typ with
  | 0x10 => moduleValues q.body
  | 0x11 => clocksValues f q
  | 0x12 => timeValues q.body
  | 0x20 => fieldValues q
  | 0x21 => channelsValues f q
  | 0x30 => seqsValues f q
  | 0x31 => recsValues f q
  | 0x40 => redsValues f q
  | 0x41 => sumsValues f q
  | 0x42 => limitsValues q
  | 0x50 => measuresValues f q
  | 0x60 => deliveryValues f q
  | 0x61 => hostValues q.body
  | 0x70 => installValues q.body
  | _ => false

/-- The references of one quire (0x118). -/
def refsOk (f : Folio) (q : QuireIn) : Bool :=
  match q.typ with
  | 0x12 => timeRefs f
  | 0x21 => channelsRefs f
  | 0x30 => seqsRefs f
  | 0x31 => recsRefs f
  | 0x40 => redsRefs f
  | 0x41 => sumsRefs f
  | 0x42 => limitsRefs f
  | 0x50 => measuresRefs f
  | 0x60 => deliveryRefs f
  | 0x61 => hostRefs f
  | _ => true

end Sys2Proof.Machine
end

