-- ==== Sys2Proof/Machine/Admission.lean ====
section
/-!
DEFINITION. Admission (R32 to R43, R69, R142, R229, R267, R268, R282, R293, R294, R447, R535): the nine checks of Table 01-4.
-/
namespace Sys2Proof.Machine

/-! ## Rates as fractions -/

/-- A rate as a numerator and a denominator. -/
abbrev Frac := Nat × Nat

/-- The sum of two rates, in lowest terms. -/
def fracAdd (a b : Frac) : Frac :=
  let n := a.1 * b.2 + b.1 * a.2
  let d := a.2 * b.2
  let g := max 1 (Nat.gcd n d)
  (n / g, d / g)

/-- The sum of several rates. -/
def fracSum (l : List Frac) : Frac := l.foldl fracAdd (0, 1)

/-- A rate is within a budget. -/
def fracLe (a : Frac) (b : Nat) : Bool := decide (a.1 ≤ b * a.2)

/-- `n` per frame, as a rate per second: T_F is FRAME / 16,000 s. -/
def perSecond (f : Folio) (n : Nat) : Frac := (n * 16000, max 1 f.module_.frame)

/-- A budget tightened by the margin of its check (R69). -/
def budget (f : Folio) (check b : Nat) : Nat := b * (1000 - nth f.module_.margin check) / 1000

/-! ## Stream figures (Table 01-5) -/

/-- Barrier bits per second of a channel, without its stamps. -/
def barrierRate (f : Folio) (q : ChanQ) : Frac :=
  if q.mode = 0 then (0, 1) else if q.trans then perSecond f (32 * eF f q.chan) else maxRate f q.chan

/-- The barrier payload of a group (R35). -/
def barrierOf (f : Folio) (g : Nat) : Frac :=
  fracSum ((250000000, 1) :: (f.channels.filter (fun q => q.chan / 64 = g && q.mode ≠ 0)).flatMap (fun q =>
    [barrierRate f q, perSecond f (64 * sF f q.chan)]))

/-- History bytes per second of a stored stream. -/
def writeRate (f : Folio) (ref : Nat) : Frac :=
  if streamChan ref then
    let q := f.chan ref
    let r := maxRate f ref
    if q.trans then perSecond f (4 * eF f ref)
    else if q.storage = 2 then (r.1, r.2 * 8 * max 1 q.decimD)
    else (r.1, r.2 * 8)
  else
    let out (q : RedQ) : Frac := let r := redOutRate f planMax q; (4 * r.1, r.2)
    if ref / 2 ^ 24 = 1 then ((f.red? (ref % 4096)).map out).getD (0, 1)
    else
      match (f.sum? (ref % 256)).bind (fun w => w.inputs.head?) with
      | some i => ((f.red? i.1).map out).getD (0, 1)
      | none => (0, 1)

/-- Declared history depth of a stored stream in µs. -/
def historyUs (f : Folio) (ref : Nat) : Nat :=
  if streamChan ref then (f.chan ref).historyUs
  else if ref / 2 ^ 24 = 1 then ((f.red? (ref % 4096)).map (·.historyUs)).getD 0
  else ((f.sum? (ref % 256)).map (·.historyUs)).getD 0

/-- Frames that a depth in µs touches: ⌈HISTORY_US / T_F⌉. -/
def framesIn (f : Folio) (us : Nat) : Nat := cdiv (us * 2) (125 * max 1 f.module_.frame)

/-- Declared history depth in bytes (R142, R282), before rounding. -/
def depthBytes (f : Folio) (ref : Nat) : Nat :=
  if streamChan ref && (f.chan ref).trans then 4 * eF f ref * framesIn f (historyUs f ref)
  else
    let r := writeRate f ref
    cdiv (historyUs f ref * r.1) (1000000 * r.2)

/-- Declared history depth in granules of 64 KiB (R41). -/
def depthGranules (f : Folio) (ref : Nat) : Nat := cdiv (depthBytes f ref) 65536

/-! ## Reads (R37) -/

/-- Bytes per record of one stream of a WINDOW or SEGMENTED record, as a fraction (R37); how a TRANSITIONS stream's are counted is the model's
(DESIGN CHOICE, log entry 25). -/
def recBytes (f : Folio) (q : RecQ) (ref : Nat) : Frac :=
  let w := q.pre + q.post
  if streamTrans f ref then (4 * eF f ref * (cdiv w (31250 * max 1 f.module_.frame) + 1), 1)
  else let r := writeRate f ref; (w * r.1, 500000000 * r.2)

/-- The guaranteed read rate of a record definition in bytes per second; none where its triggers have no shortest interval. -/
def readRate (f : Folio) (q : RecQ) : Option Frac :=
  if q.whole then
    let gap := q.post + ((f.seq? q.seq).map (·.holdoff)).getD 0
    let b := fracSum (q.streams.map (recBytes f q))
    if gap = 0 then (if b.1 = 0 then some (0, 1) else none) else some (b.1 * 500000000, b.2 * gap)
  else some (fracSum (q.streams.map (writeRate f)))

/-! ## Class T cost (R38, R39, R267, R268) -/

/-- Inputs of an instance in one frame (R267). -/
def redIns (f : Folio) (q : RedQ) : Nat :=
  match q.how f with
  | 1 => eF f q.chan
  | 3 => ((f.red? q.source).map (redOuts f)).getD 0
  | _ => perFrame f (redRate f planMax 4 q)

/-- Cost of an instance in cycles. -/
def redCost (f : Folio) (q : RedQ) : Nat := redIns f q + (if q.coef.isEmpty then 0 else 64 * redOuts f q) + 16

/-- The lowest member of an instance's chain. -/
def redRoot (f : Folio) : Nat → RedQ → Nat
  | 0, q => q.red
  | k + 1, q => if q.chained then ((f.red? q.source).map (redRoot f k)).getD q.red else q.red

/-- Packing items: each instance with everything chained to it, in the order of the lowest members. -/
def redItems (f : Folio) : List (List Nat) :=
  let l := f.reds.map (fun q => (redRoot f 4 q, q.red))
  (uniq (l.map (·.1))).map (fun r => (l.filter (fun e => e.1 = r)).map (·.2))

/-- Puts an item on the first of the open lanes that it fits, or opens the next. -/
def packItem : List (List Nat) → List Nat → List (List Nat)
  | [], it => [it]
  | l :: ls, it => if l.length + it.length ≤ 16 then (l ++ it) :: ls else l :: packItem ls it

/-- The packing of instances onto lanes (R268). -/
def packLanes (f : Folio) : List (List Nat) := (redItems f).foldl packItem []

/-- C_RED. -/
def cRed (f : Folio) : Nat :=
  (packLanes f).foldl (fun a l => max a (l.foldl (fun b r => b + ((f.red? r).map (redCost f)).getD 0) 0)) 0

/-- Outputs per frame of an LC's source: a measurement gives at most one result per closing stamp, and one block per N of them. -/
def lcOuts (f : Folio) (q : LcQ) : Nat :=
  if q.src / 2 ^ 24 = 1 then ((f.red? (q.src % 4096)).map (redOuts f)).getD 0
  else if q.src / 2 ^ 24 = 2 then ((f.sum? (q.src % 256)).map (sumOuts f)).getD 0
  else match f.meas? (q.src % 1024) with
    | some m =>
      let n := m.closing.foldl (fun b c => max b (sF f c)) 0
      if q.stat = 0 then n else cdiv n (max 1 m.n)
    | none => 0

/-- C_SUM. -/
def cSum (f : Folio) : Nat :=
  cRed f + f.sums.foldl (fun a w => a + w.inputs.length * sumOuts f w) 0 + f.lcs.foldl (fun a q => a + 2 * lcOuts f q) 0 +
    f.channels.foldl (fun a q => a + sF f q.chan) 0 + 128

/-- C_SEQ of a sequencer. -/
def cSeq (f : Folio) (sum : Nat) (q : SeqQ) : Nat :=
  let s := match pacing f planMax q with
    | some c => perFrame f (maxRate f c)
    | none => 0
  let e := (q.chans.filter (fun c => (f.chan c).trans)).foldl (fun a c => a + eF f c) 0 +
    q.trigs.foldl (fun a i => a + perFrame f (nth f.extRate i, 1)) 0
  cdiv s 8 + e + 64 + (if q.conds.any (fun c => c.type = 8 || c.type = 9) then sum else 0)

/-! ## TDC lanes (R293, R294) -/

/-- Assigns stamped channels to the healthy lanes of their group: (channel, lane 8·g + j) in order; a channel without a lane of its
group is left out. `sick` says which lanes may not be used. -/
def assignTdc (f : Folio) (sick : Nat → Bool) : List (Nat × Nat) :=
  let best (load : Tbl Nat) (g : Nat) : Option Nat :=
    ((List.range 8).map (8 * g + ·)).foldl (fun b l =>
      if sick l then b
      else match b with
        | none => some l
        | some x => if tget 0 load l < tget 0 load x then some l else some x) none
  ((f.channels.filter (fun q => q.stampRate ≠ 0)).foldl (fun (acc : Tbl Nat × List (Nat × Nat)) q =>
    match best acc.1 (q.chan / 64) with
    | some l => (tmod 0 acc.1 l (· + q.stampRate), acc.2 ++ [(q.chan, l)])
    | none => acc) ([], [])).2

/-- Stamps per frame assigned to a lane. -/
def laneStamps (f : Folio) (a : List (Nat × Nat)) (l : Nat) : Nat :=
  (a.filter (fun e => e.2 = l)).foldl (fun n e => n + sF f e.1) 0

/-! ## The checks (Table 01-4) -/

/-- Staging overhead (R38). -/
def stagingOverhead (f : Folio) : Nat :=
  f.delivery.rings.foldl (fun a r => a + r.staging) 0 + f.delivery.streams.foldl (fun a r => a + r.staging) 0 + 2 ^ 20

/-- A record's window plus 8 frames lies within the declared depth of each of its streams (R40, R229). DESIGN CHOICE (assumption 43): the
margin's floor is taken in the unit of the comparison, 2 ns for a sampled or value stream and entries for a TRANSITIONS stream; R69 names
the depth and no unit. -/
def windowFits (f : Folio) (q : RecQ) : Bool :=
  let w := q.pre + q.post
  q.streams.all (fun ref =>
    if streamTrans f ref then
      decide ((cdiv w (31250 * max 1 f.module_.frame) + 1) * eF f ref + 8 * eF f ref
        ≤ budget f 5 (eF f ref * framesIn f (historyUs f ref)))
    else decide (w + 8 * 31250 * f.module_.frame ≤ budget f 5 (500 * historyUs f ref)))

/-- The demands of Table 01-6 against their admissible counts, each tightened separately (R43, R69). -/
def demands (f : Folio) (tdc : List (Nat × Nat)) : List (Nat × Nat) :=
  [(f.seqs.foldl (fun a q => a + q.conds.length) 0, 3968), ((packLanes f).length, 256), (f.sums.length, 256), (f.lcs.length, 512),
   ((storedStreams f).length, 5632),
   ((f.delivery.rings.filter (fun r => r.staging ≠ 0)).length + f.delivery.streams.length, 2048), (f.delivery.rings.length, 4096)] ++
  f.channels.map (fun q => ((f.reds.filter (fun r => r.chan = q.chan)).length, 4)) ++ f.sums.map (fun w => (w.inputs.length, 64)) ++
  f.groups.map (fun g => ((uniq ((tdc.filter (fun e => e.1 / 64 = g)).map (·.2))).length, 8))

/-- The first failing admission check of a Folio, with its DETAIL (R32, R535, Table 01-9). -/
def admission (f : Folio) : Option (Nat × Nat) :=
  let none_ := 0xFFFF
  let st := storedStreams f
  let tdc := assignTdc f (fun _ => false)
  let bt := budget f 4 (65625 * f.module_.frame)
  match f.groups.find? (fun g => !fracLe (barrierOf f g) (budget f 0 46000000000)) with
  | some g => some (0x201, g)
  | none =>
    if !fracLe (fracSum (st.map (writeRate f))) (budget f 1 64000000000) then some (0x202, none_)
    else if !(f.records.all (fun q => (readRate f q).isSome)) ||
        !fracLe (fracSum (f.records.filterMap (readRate f))) (budget f 2 48000000000) then some (0x203, none_)
    else if budget f 3 125829120 < 3 * f.groups.foldl (fun a g => a + landedOf f g) 0 + stagingOverhead f then some (0x204, none_)
    else
      let sum := cSum f
      if bt < cRed f || bt < sum then some (0x205, none_)
      else match f.seqs.find? (fun q => decide (bt < cSeq f sum q)) with
        | some q => some (0x205, q.seq)
        | none => match f.records.find? (fun q => !windowFits f q) with
          | some q => some (0x206, q.rec_)
          | none =>
            if budget f 6 (31 * 2 ^ 30) < st.foldl (fun a r => a + 65536 * depthGranules f r) 0 then some (0x207, none_)
            else match (List.range 128).find? (fun l => !fracLe (perSecond f (laneStamps f tdc l)) (budget f 7 25000000)) with
              | some l => some (0x208, l)
              | none => if (demands f tdc).any (fun e => decide (budget f 8 e.2 < e.1)) then some (0x209, none_) else none

end Sys2Proof.Machine
end

