-- ==== Sys2Proof/Machine/Placement.lean ====
section
/-!
DEFINITION. Placement (R219, R268, R293, R294, R313 to R316, R324, R364 to R367): the seven steps of Table 11-13 against the health
map, and the state of a bind as placement leaves it.
-/
namespace Sys2Proof.Machine

/-- What placement gives: history rings (ring, stream, bytes, b_max, runs of granules), write slots, lanes, condition units, TDC
lanes, bank roles and staging rings. -/
structure Placed where
  hist  : List Hist
  slots : List (Nat × Nat)
  lanes : Tbl Nat
  conds : Tbl Nat
  tdc   : Tbl Nat
  banks : Tbl (Nat × Nat)
  rings : Tbl (Nat × Nat × Nat)
  deriving DecidableEq, Repr, Inhabited

/-! ## Step 1: history rings (R365) -/

/-- Granules of the 31 GiB of history (R41). -/
def histGranules : Nat := 507904

/-- The runs of healthy granules among those from `lo` up, given the sick ones ascending: first granule and length. -/
def healthyRuns : Nat → List Nat → List (Nat × Nat)
  | lo, [] => if lo < histGranules then [(lo, histGranules - lo)] else []
  | lo, x :: l => if lo < x then (lo, x - lo) :: healthyRuns (x + 1) l else healthyRuns (max lo (x + 1)) l

/-- Takes `n` granules from runs: the runs taken and those left. -/
def takeRuns : Nat → List (Nat × Nat) → List (Nat × Nat) × List (Nat × Nat)
  | _, [] => ([], [])
  | n, (a, k) :: l =>
    if n = 0 then ([], (a, k) :: l)
    else if n < k then ([(a, n)], (a + n, k - n) :: l)
    else let r := takeRuns (n - k) l; ((a, k) :: r.1, r.2)

/-- Sick capture memory granules of the 31 GiB, ascending. -/
def sickGranules (s : State) : List Nat :=
  sortBy id (uniq (((s.boot.health ++ s.boot.carried).filter (fun u => u.cls = 0x07 && u.idx < histGranules)).map (·.idx)))

/-- Write rates over one denominator, as whole numbers in their proportion. -/
def weights (l : List Frac) : List Nat :=
  let d := l.foldl (fun a r => Nat.lcm a (max 1 r.2)) 1
  l.map (fun r => r.1 * (d / max 1 r.2))

/-- The further granules that a remainder `g` gives each ring (R365). -/
def shares (g : Nat) (w : List Nat) : List Nat :=
  let all := w.foldl (· + ·) 0
  let q := w.map (fun x => if all = 0 then 0 else g * x / all)
  let left := g - q.foldl (· + ·) 0
  q.zipIdx.map (fun e => e.1 + (if e.2 < left then 1 else 0))

/-- Bytes of the frame index for ring sizes in granules and b_max (R313). -/
def indexBytes (l : List (Nat × Nat)) : Nat := l.foldl (fun a e => a + 16 * (65536 * e.1 / max 1 e.2 + 1)) 0

/-- The frame index limit of R313. -/
def indexLimit : Nat := 512 * 2 ^ 20

/-- The index limit holds with a remainder `g` shared out. -/
def indexFits (d w b : List Nat) (g : Nat) : Bool :=
  decide (indexBytes ((List.zipWith (· + ·) d (shares g w)).zip b) ≤ indexLimit)

/-- The index limit holds with a remainder `g` shared out without the odd granules, which is monotone in `g`. -/
def floorFits (d w b : List Nat) (g : Nat) : Bool :=
  let all := w.foldl (· + ·) 0
  decide (indexBytes ((List.zipWith (fun x y => x + (if all = 0 then 0 else g * y / all)) d w).zip b) ≤ indexLimit)

/-- The largest value in [lo, lo + 2^k) that satisfies a monotone bound, by bisection; `lo` satisfies it. -/
def bisect (p : Nat → Bool) (hi : Nat) : Nat → Nat → Nat
  | 0, lo => lo
  | k + 1, lo => if lo + 2 ^ k ≤ hi && p (lo + 2 ^ k) then bisect p hi k (lo + 2 ^ k) else bisect p hi k lo

/-- The largest value from `g` down that satisfies a bound. -/
def lastBelow (p : Nat → Bool) : Nat → Nat
  | 0 => 0
  | g + 1 => if p (g + 1) then g + 1 else lastBelow p g

/-- The remainder that step 1 shares out: every healthy granule left over, or the most that the index limit allows (R365). -/
def sharedGranules (d w b : List Nat) (g : Nat) : Nat :=
  if indexFits d w b g then g else lastBelow (indexFits d w b) (bisect (floorFits d w b) g 20 0)

/-- The first ring whose cumulative declared depth passes the healthy granules. -/
def firstUnheld (room : Nat) : Nat → List Nat → Nat
  | k, [] => k
  | k, d :: l => if room < d then k else firstUnheld (room - d) (k + 1) l

/-- Lays out rings of the given sizes one after another. -/
def layRings : Nat → List (Nat × Nat × Nat) → List (Nat × Nat) → List Hist
  | _, [], _ => []
  | k, (ref, b, g) :: l, rs =>
    let r := takeRuns g rs
    { stream := ref, ring := k, size := 65536 * g, bmax := b, runs := r.1 } :: layRings (k + 1) l r.2

/-- Step 1: history rings. The index limit is judged on the declared depths before their capacity; R313 and R365 give no order. -/
def placeHistory (s : State) (f : Folio) : Except (Nat × Nat) (List Hist) :=
  let st := storedStreams f
  let d := st.map (depthGranules f)
  let b := st.map (bMax f)
  let runs := healthyRuns 0 (sickGranules s)
  let room := runs.foldl (fun a r => a + r.2) 0
  let need := d.foldl (· + ·) 0
  if indexLimit < indexBytes (d.zip b) then .error (0x401, 0xFFFF)
  else if room < need then .error (0x401, firstUnheld room 0 d)
  else
    let w := weights (st.map (writeRate f))
    let sizes := List.zipWith (· + ·) d (shares (sharedGranules d w b (room - need)) w)
    .ok (layRings 0 (st.zip (b.zip sizes)) runs)

/-! ## Steps 2 to 5 -/

/-- Step 3: reduction instances on the healthy lanes (R268): (instance, lane). -/
def placeReductions (s : State) (f : Folio) : Except (Nat × Nat) (Tbl Nat) :=
  let healthy := packedLanes s
  let packed := packLanes f
  if healthy.length < packed.length then
    .error (0x403, ((packed.getD healthy.length []).head?).getD 0xFFFF)
  else .ok (((packed.zip healthy).flatMap (fun e => e.1.map (fun r => (r, e.2)))).foldl (fun t e => tput t e.1 e.2) [])

/-- Step 4: condition entries on the healthy units (R219): key 256·SEQ + INDEX. -/
def placeConditions (s : State) (f : Folio) : Except (Nat × Nat) (Tbl Nat) :=
  let keys := f.seqs.flatMap (fun q => (List.range q.conds.length).map (fun i => 256 * q.seq + i))
  let units := (List.range 4096).filter (fun u => !s.sick 0x03 u)
  match keys[units.length]? with
  | some k => .error (0x404, k / 256)
  | none => .ok (keys.zip units)

/-- Step 5: TDC lanes (R293, R294): the first channel without a lane, or that overloads its lane, refuses the bind. -/
def placeTdc (s : State) (f : Folio) : Except (Nat × Nat) (Tbl Nat) :=
  let a := assignTdc f (s.sick 0x02)
  let over_ (k : Nat) : Bool :=
    match a[k]? with
    | some (_, l) => !fracLe (perSecond f (laneStamps f (a.take (k + 1)) l)) 25000000
    | none => false
  let stamped := (f.channels.filter (fun q => q.stampRate ≠ 0)).map (·.chan)
  match stamped.find? (fun c => match findIdx? (fun e => e.1 == c) a with
      | some k => over_ k
      | none => true) with
  | some c => .error (0x405, c)
  | none => .ok a

/-! ## Step 6: banks (R324) -/

/-- Whole MiB. -/
def mibs (n : Nat) : Nat := cdiv n (2 ^ 20)

/-- Takes `n` banks for a role, where enough are left. -/
def takeBanks (l : List Nat) (n role arg : Nat) : Option (Tbl (Nat × Nat) × List Nat) :=
  if l.length < n then none else some ((l.take n).map (fun b => (b, role, arg)), l.drop n)

/-- The banks of one frame set. -/
def frameSet (f : Folio) (k : Nat) (l : List Nat) : Option (Tbl (Nat × Nat) × List Nat) :=
  f.groups.foldl (fun acc g => acc.bind (fun a =>
    (takeBanks a.2 (mibs (landedOf f g)) (k + 1) g).map (fun r => (a.1 ++ r.1, r.2)))) (some ([], l))

/-- Mailbox banks: the dual-port banks that MAILBOX conditions name (R208). -/
def mailboxBanks (f : Folio) : List Nat := uniq ((mailboxSrcs f).map (fun k => k / 65536 % 8))

/-- Role and argument of each bank that is not a spare. A lane and a dual-port bank that failed their self-test are not placed (R81). -/
def placeBanks (s : State) (f : Folio) : Except (Nat × Nat) (Tbl (Nat × Nat)) :=
  let healthy := (List.range 120).filter (fun b => !s.sick 0x06 b)
  match frameSet f 0 healthy with
  | none => .error (0x406, 0)
  | some (a, l) => match frameSet f 1 l with
    | none => .error (0x406, 1)
    | some (b, l) => match frameSet f 2 l with
      | none => .error (0x406, 2)
      | some (c, l) => match takeBanks l (mibs (stagingOverhead f)) 4 0 with
        | none => .error (0x406, 3)
        | some (d, l) => match takeBanks l f.host.poolGb 5 0 with
          | none => .error (0x406, 4)
          | some (e, l) =>
            let lanes := (List.range 8).filter (fun i => !s.sick 0x09 i)
            let jobs := (l.zip lanes).map (fun x => (x.1, 6, x.2))
            let cc := (upFrom 120 8).map (fun x => (x, 7, 0))
            let dbs := ((List.range 8).filter (fun x => !s.sick 0x06 (128 + x))).filterMap (fun x =>
              if (mailboxBanks f).contains x then some (128 + x, 8, 0)
              else if bit f.host.poolDb x then some (128 + x, 5, 0) else none)
            .ok ((a ++ b ++ c ++ d ++ e ++ jobs ++ cc ++ dbs).foldl (fun t x => tput t x.1 x.2) [])

/-! ## Step 7: staging rings (R366) -/

/-- Staging rings from ring 5,632: (target, bytes, offset). -/
def placeRings (f : Folio) : Tbl (Nat × Nat × Nat) :=
  let l := (f.delivery.rings.filter (fun r => r.staging ≠ 0)).map (fun r => (deliveryRing r.ring, r.staging)) ++
    f.delivery.streams.map (fun r => (0x8000 + r.stream, r.staging))
  (l.foldl (fun (acc : Nat × Nat × Tbl (Nat × Nat × Nat)) e =>
    (acc.1 + 1, roundUp 4096 (acc.2.1 + e.2), acc.2.2 ++ [(acc.1, e.1, e.2, acc.2.1)])) (5632, 0, [])).2.2

/-! ## All seven -/

/-- Placement (R364): the first failing step's code and detail, or the places. -/
def place (s : State) (f : Folio) : Except (Nat × Nat) Placed := do
  let h ← placeHistory s f
  let l ← placeReductions s f
  let c ← placeConditions s f
  let t ← placeTdc s f
  let b ← placeBanks s f
  pure { hist := h, slots := placeSlots h, lanes := l, conds := c, tdc := t, banks := b, rings := placeRings f }

/-! ## The bind's state -/

/-- A host ring as the Folio leaves it (Table 11-2, R340). -/
def freshRing (f : Folio) (r : Nat) : Ring :=
  match f.ring? (r - 7680) with
  | some q => if rkind r = 3 then { declared := true, size := q.size / 32, k := q.notifyK, tick := q.notifyTick } else {}
  | none => {}

/-- The owner a placed bank has from the start of the bind (R325, R327, R331): as W_0's sets stand before frame 0. -/
def firstOwner (role arg : Nat) : Nat :=
  if role = 1 || role = 2 || role = 3 then 0x020 + arg
  else if role = 4 then 0x040 else if role = 5 || role = 8 then 0x001 else if role = 6 then 0x050 + arg else 0

/-- Read credit of every definition per round, in bytes: ⌊Σ rate × 500 ns⌋ (R317, Table 10-11). -/
def readPerRound (f : Folio) : Nat :=
  let r := fracSum (f.records.filterMap (readRate f))
  r.1 / (2000000 * r.2)

/-- The meter as placed (R293): entries, lanes, and the sum of s_F ÷ T_F that a lane is assigned (Table 09-10). -/
def freshMeter (f : Folio) (tdc : Tbl Nat) : Meter :=
  { entries := f.meas.map (fun q => (q.entry, { state := 1 }))
    lanes := tdc.foldl (fun t e => tmod [] t e.2 (· ++ [e.1])) []
    rate := tmap (tdc.foldl (fun t e => tmod 0 t e.2 (· + sF f e.1)) []) (fun _ n => n * 16000 / max 1 f.module_.frame) }

/-- Reductions, sums, limits and outputs as a bind begins (R261, R266, R286). RD_STAT shows STATE 1, settling, and the lane from the bind on,
and not 0 up to the first commit: an instance of the bind is in it (DESIGN CHOICE, assumption 29). -/
def freshProcess (f : Folio) (plan : Nat) (lanes : Tbl Nat) : Process :=
  { reds := f.reds.map (fun q =>
      let d := redDelay f plan 4 q
      (q.red, { state := 1, lane := tget 0 lanes q.red, delay := d.1, asym := d.2 }))
    sums := f.sums.map (fun w => (w.ws, {})), lcs := f.lcs.map (fun q => (q.lc, {})), evts := f.evts.map (fun q => (q.out, {})) }

/-- The state with a placement installed, GENERATION 0 (R368). -/
def installPlacement (s : State) (f : Folio) (p : Placed) : State :=
  { s with
    hist := p.hist.map (fun h => (h.stream, h))
    seqs := f.seqs.map (fun q => (q.seq, {}))
    recs := f.records.map (fun q => (q.rec_, {}))
    proc := freshProcess f s.clocks.plan p.lanes
    meter := freshMeter f p.tdc
    banks := { s.banks with
      role := p.banks, moved := [], returning := [], retired := []
      owner := p.banks.map (fun e => (e.1, firstOwner e.2.1 e.2.2))
      ownerB := (p.banks.filter (fun e => e.2.1 = 8)).map (fun e => (e.1, 0x030))
      pool := (p.banks.filter (fun e => e.2.1 = 5 || e.2.1 = 8)).map (·.1)
      schedW := p.slots.foldl (fun a e => a + e.2) 0
      schedR := readPerRound f }
    jobs := { s.jobs with bank := sortBy (·.1) ((p.banks.filter (fun e => e.2.1 = 6)).map (fun e => (e.2.2, e.1))) }
    rings := { s.rings with
      rings := f.delivery.rings.map (fun q => (deliveryRing q.ring, freshRing f (deliveryRing q.ring)))
      staging := p.rings, stageProd := [], gen := 0
      redLane := p.lanes, redHome := p.lanes, condCu := p.conds, condHome := p.conds, tdcLane := p.tdc } }

end Sys2Proof.Machine
end

