-- ==== Sys2Proof/Machine/Loader.lean ====
section
/-!
DEFINITION. The loader (R44 to R66): a Folio copy's structure checks in the passes of R71, the choice of a copy (R60), seal closure
(R64), and the firmware images (R93 to R95).
-/
namespace Sys2Proof.Machine

/-! ## Reading the flash -/

/-- `n` bytes from address `a` of a byte store whose cells all lie at or after `a`. -/
def walk (fill : Byte) : Mem → Nat → Nat → Bytes
  | _, _, 0 => []
  | [], _, n + 1 => List.replicate (n + 1) fill
  | (k, v) :: m, a, n + 1 => if k = a then v :: walk fill m (a + 1) n else fill :: walk fill ((k, v) :: m) (a + 1) n

/-- `n` bytes from address `a` of a byte store. -/
def mslice (fill : Byte) (m : Mem) (a n : Nat) : Bytes := walk fill (m.dropWhile (fun c => c.1 < a)) a n

/-- `n` bytes of the flash; an unlisted byte is erased. -/
def flashBytes (s : State) (a n : Nat) : Bytes := mslice 0xFF s.flash.mem a n

/-- Bases of the Folio copies and of the firmware images (Table 02-1). -/
def copyBase : Copy → Nat
  | .a => 0
  | .b => 0x01000000
def fwBase : Copy → Nat
  | .a => 0x02000000
  | .b => 0x02800000

/-- The flash answers. Such a flash is readable, be it too small, without an SFDP table or without a mode that R45 names: the SFDP table is
the loader's, and without it the headers and the images are read in the mode of the SFDP read (DEDUCED, log entry 27). -/
def flashAnswers (s : State) : Bool := s.flash.sizeMbit ≠ 0

/-- The flash's own bind error (R71 step 1, Table 02-10). -/
def flashCode (s : State) : Nat :=
  if !flashAnswers s || !s.flash.sfdp then 0x101 else if s.flash.sizeMbit < 512 || !s.flash.modeOk then 0x102 else 0

/-! ## CRC-32 (R50) -/

/-- One bit of the reflected CRC-32 of RFC 1952. -/
def crc32Bit (c : BitVec 32) : BitVec 32 := if c.getLsbD 0 then (c >>> 1) ^^^ 0xEDB88320#32 else c >>> 1

/-- One byte. -/
def crc32Byte (c : BitVec 32) (b : Byte) : BitVec 32 :=
  let c := c ^^^ b.setWidth 32
  crc32Bit (crc32Bit (crc32Bit (crc32Bit (crc32Bit (crc32Bit (crc32Bit (crc32Bit c)))))))

/-- CRC-32 of RFC 1952. -/
def crc32 (b : Bytes) : BitVec 32 := (b.foldl crc32Byte 0xFFFFFFFF#32) ^^^ 0xFFFFFFFF#32

/-! ## The identity header (R49) -/

/-- The first failing check of an identity header, 0 where it passes; MIN_FW is judged against a running firmware where one is
given (R62). -/
def headerCode (h : Bytes) (fw : Option Nat) : Nat :=
  let tot := fld h 8 4
  if fld h 0 4 ≠ 0x4F464B4C || fld h 4 2 ≠ 1 || fld h 6 2 ≠ 256 then 0x104
  else if fld h 252 4 ≠ (crc32 (sub h 0 252)).toNat then 0x105
  else if fld h 18 2 ≠ 0x1024 || 0xA1 < fld h 20 1 || (match fw with
      | some v => decide (v < fld h 24 4)
      | none => false) then 0x106
  else if !within 2432 16777216 tot || tot % 64 ≠ 0 then 0x107
  else 0

/-! ## Directory entries and quires -/

/-- A directory entry with its quire's header and stored body. -/
structure RawQuire where
  dir    : Bytes
  off    : Nat
  head   : Bytes
  stored : Bytes
  deriving DecidableEq, Repr

def RawQuire.typ (q : RawQuire) : Nat := fld q.dir 0 1
def RawQuire.flags (q : RawQuire) : Nat := fld q.dir 1 1
def RawQuire.storedLen (q : RawQuire) : Nat := fld q.dir 8 4
def RawQuire.plainLen (q : RawQuire) : Nat := fld q.dir 12 4
def RawQuire.sealed (q : RawQuire) : Bool := bit q.flags 0
def RawQuire.deflated (q : RawQuire) : Bool := bit q.flags 1

/-- The quires of an image at the offsets that its directory names. -/
def rawQuires (img : Bytes) : List RawQuire :=
  (cutEvery 32 (min 64 (fld img 16 2)) (sub img 256 2048)).map (fun d =>
    let o := fld d 4 4
    { dir := d, off := o, head := sub (img.drop o) 0 64, stored := ((img.drop o).drop 64).take (fld d 8 4 - 64) })

/-- The canonical offsets of quires with the given stored lengths, and where the colophon then lies (R48). -/
def canonical : Nat → List Nat → List Nat × Nat
  | o, [] => ([], o)
  | o, l :: ls => let r := canonical (roundUp 64 (o + l)) ls; (o :: r.1, r.2)

/-- Mandatory quires (Table 02-5), and every type. -/
def mandatoryTypes : List Nat := [0x10, 0x11, 0x12, 0x20, 0x21, 0x60]
def quireTypes : List Nat := [0x10, 0x11, 0x12, 0x20, 0x21, 0x30, 0x31, 0x40, 0x41, 0x42, 0x50, 0x60, 0x61, 0x70]

/-- Directory and layout: pass 3 of R71. -/
def layoutCode (img : Bytes) (tot : Nat) (qs : List RawQuire) : Nat :=
  let n := fld img 16 2
  let types := qs.map RawQuire.typ
  let lens := qs.map RawQuire.storedLen
  let (offs, col) := canonical 2304 lens
  let padded := ((offs.zip lens).all (fun e =>
    let z := e.1 + e.2
    allZero ((img.drop z).take (roundUp 64 z - z))))
  if !within 6 64 n || !allZero (sub img (256 + 32 * n) (2048 - 32 * n)) then 0x10A
  else if !rising types then 0x10B
  else if !types.all quireTypes.contains then 0x10C
  else if !mandatoryTypes.all types.contains then 0x10D
  else if qs.map (·.off) ≠ offs || col + 128 ≠ tot || !padded then 0x10E
  else 0

/-- A quire header agrees with its directory entry (R53). -/
def quireHeaderOk (q : RawQuire) : Bool :=
  fld q.head 0 4 = 0x52495551 && fld q.head 4 1 = q.typ && fld q.head 5 1 = q.flags && fld q.head 8 4 = q.plainLen &&
    64 + fld q.head 12 4 = q.storedLen

/-- Lengths judged from the stored fields alone: pass 5 of R71. -/
def lengthCode (qs : List RawQuire) : Nat :=
  if qs.any (fun q => q.deflated && decide (1024 * fld q.head 12 4 < q.plainLen)) then 0x112
  else if qs.any (fun q => !q.deflated && fld q.head 12 4 ≠ q.plainLen) then 0x113
  else if 50331648 < qs.foldl (fun a q => a + q.plainLen) 0 then 0x115
  else 0

/-- A quire's plain body, or the code of its failure, the first in stream order (R54, R55, R71). Stored bytes that run out before the stream ends
are malformed, 0x111 (DESIGN CHOICE, log entry 42). -/
def plainBody (q : RawQuire) : Except Nat Bytes :=
  if q.deflated then
    match inflatePart false (bit q.flags 2) q.plainLen q.stored with
    | .ok (b, rest) => if b.length ≠ q.plainLen then .error 0x113 else if rest.isEmpty then .ok b else .error 0x111
    | .error .limit => .error 0x113
    | .error .malformed => .error 0x111
    | .error .more => .error 0x111
  else .ok q.stored

/-- Every body in directory order; the first failure ends the pass. -/
def plainBodies : List RawQuire → Except Nat (List (RawQuire × Bytes))
  | [] => .ok []
  | q :: qs => do
    let b ← plainBody q
    let r ← plainBodies qs
    pure ((q, b) :: r)

/-- Reserved bytes of the spine: the header, the directory, the quire headers and the colophon (Tables 02-3 to 02-7). -/
def spineReserved (img col : Bytes) (qs : List RawQuire) : Bool :=
  zeroAt img 21 3 && zeroAt img 136 116 &&
  qs.all (fun q => clear q.flags 0xF8 && zeroAt q.dir 2 2 && zeroAt q.dir 16 16 && zeroAt q.head 20 12) &&
  zeroAt col 24 8 && zeroAt col 64 32

/-- Values of the spine's quire entries (Tables 02-4 and 02-6). -/
def spineValues (qs : List RawQuire) : Bool :=
  qs.all (fun q => (q.deflated || !bit q.flags 2) && decide (65 ≤ q.storedLen) && within 1 16777216 q.plainLen &&
    decide (1 ≤ fld q.head 16 4))

/-- The quires as content. -/
def quireIns (l : List (RawQuire × Bytes)) : List QuireIn :=
  l.map (fun e => { typ := e.1.typ, sealed := e.1.sealed, items := fld e.1.head 16 4, body := e.2 })

/-- The sealed hash (R58). -/
def sealedHashOf (l : List (RawQuire × Bytes)) : Bytes :=
  sha256 ((l.filter (fun e => e.1.sealed)).flatMap (fun e => le 1 e.1.typ ++ [0] ++ sub e.1.head 6 2 ++ le 4 e.1.plainLen ++ e.2))

/-- A Folio from a copy's header, colophon and quires. -/
def folioOf (img col : Bytes) (l : List (RawQuire × Bytes)) : Folio :=
  (quireIns l).foldl readQuire
    { seqNo := fld img 12 4, serial := fld col 8 8, subsysVid := fld img 28 2, subsysId := fld img 30 2
      sealedHash := sub col 32 32 }

/-- Builders that A1 accepts (Table 02-7). -/
def builderOk (b : Nat) : Bool := b = 1 || decide (0x80000000 ≤ b)

/-- Every structure check of a copy in the passes of R71: its own 0x1xx code, or the Folio it holds. -/
def checkCopy (img : Bytes) (fw : Option Nat) : Except Nat Folio :=
  let tot := fld img 8 4
  let hc := headerCode (sub img 0 256) fw
  let col := sub (img.drop (tot - 128)) 0 128
  let qs := rawQuires img
  let lc := layoutCode img tot qs
  let len := lengthCode qs
  if hc ≠ 0 then .error hc
  else if fld col 0 4 ≠ 0x4F434B4C || fld col 4 2 ≠ 1 then .error 0x108
  else if sub col 96 32 ≠ sha256 (img.take (tot - 32)) then .error 0x109
  else if lc ≠ 0 then .error lc
  else if !qs.all quireHeaderOk then .error 0x10F
  else if !qs.all (fun q => fld q.head 6 2 = 1) then .error 0x110
  else if len ≠ 0 then .error len
  else match plainBodies qs with
    | .error e => .error e
    | .ok l =>
      let ins := quireIns l
      let f := folioOf img col l
      if !l.all (fun e => sub e.1.head 32 32 == sha256 e.2) then .error 0x114
      else if !spineReserved img col qs || !ins.all reservedOk then .error 0x116
      else if !spineValues qs || !ins.all (valuesOk f) then .error 0x117
      else if !ins.all (refsOk f) then .error 0x118
      else if f.sealedHash ≠ sealedHashOf l then .error 0x119
      else if fld col 6 2 ≠ (qs.filter RawQuire.sealed).length || f.serial = 0 || !builderOk (fld col 20 4) then .error 0x11A
      else .ok f

/-! ## The choice of a copy (R60) -/

/-- The identity header of a copy in flash. -/
def copyHeader (s : State) (c : Copy) : Bytes := flashBytes s (copyBase c) 256

/-- The bytes of a copy whose header passes. -/
def copyImage (s : State) (c : Copy) : Bytes := flashBytes s (copyBase c) (fld (copyHeader s c) 8 4)

/-- The candidates in the order of R60, as their headers stand against a firmware. -/
def copyOrder (s : State) (fw : Option Nat) : List Copy :=
  let ha := copyHeader s .a
  let hb := copyHeader s .b
  let a : Bool := headerCode ha fw = 0
  let b : Bool := headerCode hb fw = 0
  if a && b then
    (if 0 ≤ indexDiff (BitVec.ofNat 32 (fld ha 12 4)) (BitVec.ofNat 32 (fld hb 12 4)) then [.a, .b] else [.b, .a])
  else if a then [.a] else if b then [.b] else []

/-- What the choice finds: the copy, its bytes and Folio where one is valid, and each copy's own code, 0 where it is valid or
was not checked. -/
structure Choice where
  found : Option (Copy × Bytes × Folio)
  errA  : Nat
  errB  : Nat
  deriving DecidableEq, Repr

/-- Sets a copy's code. -/
def Choice.err (r : Choice) (c : Copy) (e : Nat) : Choice :=
  match c with
  | .a => { r with errA := e }
  | .b => { r with errB := e }

/-- Judges the candidates in order until one is valid (R60). -/
def chooseFrom (s : State) (fw : Option Nat) : List Copy → Choice → Choice
  | [], r => r
  | c :: l, r =>
    let img := copyImage s c
    match checkCopy img fw with
    | .ok f => { r with found := some (c, img, f) }
    | .error e => chooseFrom s fw l (r.err c e)

/-- The choice of a copy (R60, R63). -/
def chooseCopy (s : State) (fw : Option Nat) : Choice :=
  chooseFrom s fw (copyOrder s fw)
    { found := none, errA := headerCode (copyHeader s .a) fw, errB := headerCode (copyHeader s .b) fw }

/-- The subsystem IDs that the ROM sets (R62). -/
def romSubsys (s : State) : Nat × Nat :=
  if !flashAnswers s then (0x1F7C, 0)
  else match copyOrder s none with
    | c :: _ => (fld (copyHeader s c) 28 2, fld (copyHeader s c) 30 2)
    | [] => (0x1F7C, 0)

/-! ## Seal closure (R64, R65) -/

/-- The quires that a quire depends on, in the order of Table 02-8, as far as they are present. -/
def dependencies (f : Folio) (t : Nat) : List Nat :=
  let src (l : List Nat) : List Nat :=
    (if l.any (fun x => x / 2 ^ 24 = 1) then [0x40] else []) ++ (if l.any (fun x => x / 2 ^ 24 = 2) then [0x41] else []) ++
      (if l.any (fun x => x / 2 ^ 24 = 5) then [0x50] else [])
  let conds := f.seqs.flatMap (·.conds)
  match t with
  | 0x11 => [0x10]
  | 0x12 => [0x10]
  | 0x20 => [0x11]
  | 0x21 => [0x20]
  | 0x40 => [0x21]
  | 0x41 => [0x40]
  | 0x50 => [0x21]
  | 0x42 => 0x10 :: (src (f.lcs.map (·.src)) ++ (if f.evts.any (fun e => e.gateSeq ≠ 0xFF || e.pulseMask ≠ 0) then [0x30] else []))
  | 0x30 => 0x21 :: (src ((conds.filter (fun c => c.type = 8)).map (·.src)) ++
      (if conds.any (fun c => c.type = 9) then [0x50] else []) ++ (if conds.any (fun c => c.type = 0x0A && (c.mode = 1 || c.mode = 2)) then [0x12] else []))
  | 0x31 => 0x21 :: ((if f.records.any (fun r => r.seq ≠ 0xFF) then [0x30] else []) ++ src (f.records.flatMap (·.streams)))
  | 0x60 => [0x10]
  | 0x61 => [0x10]
  | 0x70 => [0x11]
  | _ => []

/-- Walks dependencies depth-first from a list of quires (R64): the first OPEN quire, and the quires visited. -/
def closureWalk (f : Folio) : Nat → List Nat → List Nat → Option Nat × List Nat
  | 0, _, seen => (none, seen)
  | _, [], seen => (none, seen)
  | k + 1, t :: l, seen =>
    if seen.contains t then closureWalk f k l seen
    else if !f.isSealed t then (some t, seen)
    else closureWalk f k (dependencies f t ++ l) (t :: seen)

/-- The first OPEN quire that a SEALED one depends on (R64). -/
def sealBreach (f : Folio) : Option Nat :=
  f.sealedTypes.findSome? (fun t => (closureWalk f 512 (dependencies f t) [t]).1)

/-- The lowest plan that HOST permits a switch to while CLOCKS is SEALED (R65). -/
def planBreach (f : Folio) : Option Nat :=
  if f.isSealed 0x11 then (List.range 4).find? (fun p => bit f.host.planMask p) else none

/-! ## Firmware (R93 to R95) -/

/-- The code of FW_STATUS that an image's header gives (Table 03-9). Reserved bytes that are not zero fail Table 03-4, and Table 03-9 gives
them no code: 0x1 (DESIGN CHOICE, log entry 27). -/
def fwHeaderCode (h : Bytes) : Nat :=
  if fld h 0 4 ≠ 0x57464B4C || fld h 4 2 ≠ 1 || 1 < fld h 6 2 then 1
  else if !within 1 8388480 (fld h 12 4) then 2
  else if 0xA1 < fld h 16 1 then 3
  else if (sub h 17 47).any (· != 0) then 1
  else 0

/-- The bytes of an image that its signature covers: header bytes 0 to 63 and the body (R94). -/
def fwSigned (s : State) (c : Copy) : Bytes :=
  let h := flashBytes s (fwBase c) 128
  h.take 64 ++ flashBytes s (fwBase c + 128) (fld h 12 4)

/-- The image authenticates (R94); SIG_R and SIG_S are little-endian, as every multi-byte field is (R5). -/
def fwAuthentic (s : State) (c : Copy) : Bool :=
  let h := flashBytes s (fwBase c) 128
  ecdsaVerify (Config.firmwareKeys.getD (fld h 6 2) (0, 0)) (fwSigned s c) (ofLe (sub h 64 32)) (ofLe (sub h 96 32))

/-- What the choice of firmware finds: the running image, and each image's code (R95). -/
structure FwChoice where
  slot : Option Copy
  errA : Nat
  errB : Nat
  deriving DecidableEq, Repr

/-- The choice of firmware (R95): the candidate with the higher VERSION first, A where they are equal. -/
def chooseFw (s : State) : FwChoice :=
  if !flashAnswers s then { slot := none, errA := 5, errB := 5 }
  else
    let ha := flashBytes s (fwBase .a) 128
    let hb := flashBytes s (fwBase .b) 128
    let ea := fwHeaderCode ha
    let eb := fwHeaderCode hb
    let first : Copy := if ea ≠ 0 || (eb = 0 && fld ha 8 4 < fld hb 8 4) then .b else .a
    let second : Copy := if first = .a then .b else .a
    let codeOf (c : Copy) : Nat := if c = .a then ea else eb
    let set (r : FwChoice) (c : Copy) : FwChoice := if c = .a then { r with errA := 4 } else { r with errB := 4 }
    let r : FwChoice := { slot := none, errA := ea, errB := eb }
    if codeOf first ≠ 0 then r
    else if fwAuthentic s first then { r with slot := some first }
    else
      let r := set r first
      if codeOf second ≠ 0 then r else if fwAuthentic s second then { r with slot := some second } else set r second

end Sys2Proof.Machine
end

