-- ==== Sys2Proof/Machine/Boot.lean ====
section
/-!
DEFINITION. The start-up steps (R75 to R103, Table 03-3): power, module reset and watchdog (R76, R508 to R511, R517), the checks of a
bind (R61 to R72), its placement and franking (R67), PLL-S lock (R437, R438), the island power waves (R83 to R88) and chain discovery
(R97 to R100).
-/
namespace Sys2Proof.Machine

/-! ## OFF -/

/-- The module has supply: since power-good no rail has browned out, and outside its tolerance the module runs on (R509, R510). -/
def State.railsOk (s : State) : Bool := s.pins.good

/-- A host flash operation that a reset stops leaves the bytes it would have changed open (R475, Table 16-11). -/
def stopFlash (s : State) : State :=
  match s.flashRegs.busy with
  | none => s
  | some o =>
    if o.waiting || o.op = 1 then s
    else
      let n := if o.op = 2 then o.len else if o.op = 3 then 4096 else 65536
      let a := if o.op = 2 then o.addr else o.addr / n * n
      let b := (List.range n).map (fun i => (Config.freeValue (s.free + i)).setWidth 8)
      { s with flash := { s.flash with mem := mwrite 0xFF s.flash.mem a b }, free := s.free + n }

/-- What a reset of scope M keeps of the supervision (Table 17-14): the warnings as last measured, which are levels (R531), what a thermal
shutdown has left (R517), and the maxima for the lifetime statistics (R504). Every PW_ field of scope M stands at its reset value. -/
def Power.kept (p : Power) : Power :=
  { freshPower := p.freshPower, peakDie := p.peakDie, peakIsland := p.peakIsland
    shutdown := p.shutdown, thermalOff := p.thermalOff, dieWarn := p.dieWarn, dramWarn := p.dramWarn }

/-- The supervision in the VDD_AUX domain as the module enters OFF (R517, R531). The loss of VDD_AUX, which its brownout is, ends it and clears
SHUTDOWN (log entry 34). -/
def offPower (s : State) : Power :=
  let p := s.power.kept
  if s.auxUp then p else { p with shutdown := false, thermalOff := false, dieWarn := false, dramWarn := false }

/-- Power-on: the PW_ fields of scope M take their reset values, and LAST_RESET is that of power-on (R9, Table 17-14). -/
def powerOn (s : State) : State := { s with power := { s.power.kept with freshPower := true } }

/-- The module enters OFF (R75, R76, R510): nothing is driven, every island is off, and of the state only what Table 16-11 keeps
remains. The supervision in the VDD_AUX domain runs on (R517, R531). A fuse that has opened stays open (R123). -/
def moduleOff (s : State) (keepUp : Bool) : State :=
  let s := stopFlash s
  { State.reset with
    pins := { rails := s.pins.rails, good := s.pins.good, modResetN := s.pins.modResetN, sealOpenN := s.pins.sealOpenN
              perstN := s.pins.perstN }
    power := offPower s
    flash := s.flash
    field := { groups := (s.field.groups.filter (fun e => e.2.fuseOpen)).map (fun e => (e.1, { fuseOpen := true })), trig := tmap s.field.trig (fun _ t => { lvl := t.lvl, lvl0 := t.lvl }), inputs := s.field.inputs }
    franking := { mem := s.franking.mem, fwPartial := s.franking.fwPartial, undelivered := s.franking.undelivered
                  sealOpen := s.franking.sealOpen, upBase := if keepUp then s.uptime else 0 }
    pcie := { aerLogs := s.pcie.aerLogs }
    free := s.free, out := s.out, pending := s.pending }

/-! ## The Franking Store at power-on (R501) -/

/-- A failed read-back since an earlier state is a fault of the store, fenced at once (R496). -/
def noteStore (before s : State) : State :=
  if s.franking.failing < before.franking.failing && !s.storeFenced then storeFault s else s

/-- The store's check at power-on and at a module reset: the roll-forward, or the fence of a store without a valid copy. -/
def storeCheck (s : State) : State :=
  match currentPage s.franking.mem with
  | some _ => noteStore s (rollForward 1024 s)
  | none => storeFault { s with franking := { s.franking with noCopy := true } }

/-- What this start counts in the lifetime statistics (R504, R517): a power-on, or a watchdog reset, and the lockstep mismatch that
caused it (R487). -/
def countStart (s : State) (code : Nat) : State :=
  let t := if s.power.freshPower then storeAdd s powerOnsAddr 1 else s
  let t := if code = 2 || code = 3 then storeAdd t watchdogsAddr 1 else t
  let t := if code = 2 then storeAdd (storeAdd t (counterAddr 0x10 0) 1) faultsAddr 1 else t
  noteStore s { t with power := { t.power with freshPower := false } }

/-! ## Firmware (step 5) -/

/-- FIRMWARE_CHANGE, where the running image is not the recorded one (R500, R501). Answers whether the start goes on. A store without a valid
copy records no image that the running one could differ from: its binds are refused by the checks that follow (DEDUCED, log entry 27). -/
def frankFirmware (s : State) (version : Nat) (hash : Bytes) : State × Bool :=
  match currentPage s.franking.mem, s.franking.fwPartial with
  | none, _ => (s, true)
  | some (_, p), some d =>
    if hash.take 8 == d then
      let (t, ok) := writePage s { p with fwHash := hash }
      let t := noteStore s t
      ({ t with franking := { t.franking with fwPartial := if ok then none else some d } }, true)
    else change s version hash
  | some (_, p), none => if p.fwHash == hash then (s, true) else change s version hash
where
  change (s : State) (version : Nat) (hash : Bytes) : State × Bool :=
    let (t, ok) := frank s 5 s.strictNow false (hash.take 8) 0 { fw := some (version, hash) }
    ({ t with franking := { t.franking with fwPartial := none } }, ok)

/-! ## The checks of a bind -/

/-- STRICT applies, and the sealed hash differs from the last one recorded (R66). A store without a valid copy counts as no hash
recorded and LAST_STRICT set (R501). -/
def strictApplies (s : State) (f : Folio) : Bool :=
  f.module_.strict || (match currentPage s.franking.mem with
    | some (_, p) => p.lastStrict
    | none => true)

def hashDiffers (s : State) (f : Folio) : Bool :=
  match currentPage s.franking.mem with
  | some (_, p) => !p.hashValid || p.hash != f.sealedHash
  | none => true

/-- The PLL-S settings of a plan: reference, its MHz, M, Q and N (R435, R446). -/
def PlanQ.conf (p : PlanQ) : List Nat := [p.ref, p.refMhz, p.mult, p.q, p.n]

/-- The plan in force. -/
def State.planNow (s : State) : PlanQ := (s.cfg.plan? s.clocks.plan).getD {}

/-- The process outputs of a module that is bound and not yet RUNNING: each at its safe state, HOLD keeping the pin's level (R79,
Table 03-2). -/
def bindEvts (s : State) : State :=
  safeEvts { s with proc := { s.proc with evts := s.cfg.evts.map (fun q =>
    (q.out, { level := s.pins.evtOut.getD q.out .low == PinLevel.high })) } }

/-- The domains and ports of a TIME quire as a bind takes them up: an entry that does not change runs on (R408, R418). What
its registers show is of scope M alone and stays (R433). -/
def bindTime (s : State) (old : Option Folio) (f : Folio) : State :=
  let same {α : Type} [DecidableEq α] (get : Folio → α) : Bool := match old with
    | some o => get o = get f
    | none => false
  let dom (x : Nat) (d : Domain) : Domain :=
    if same (fun q => q.dom x) then d
    else { state := if (f.dom x).source = 0 then .off else .acquiring, everTraced := d.everTraced
           rx := d.rx, err := d.err, offsetNs := d.offsetNs, delayNs := d.delayNs, rate := d.rate, gm := d.gm, gmHi := d.gmHi
           logSync := d.logSync }
  let eth (p : Nat) (e : EthPort) : EthPort :=
    if same (fun q => q.port p) then e else { tx := e.tx, rx := e.rx, rxDrop := e.rxDrop }
  { s with time := { s.time with
      domA := dom 0 s.time.domA, domB := dom 1 s.time.domB, eth0 := eth 0 s.time.eth0, eth1 := eth 1 s.time.eth1
      streams := f.delivery.streams.map (fun q => (q.stream, {}))
      ppsEnd := if f.time.ppsOutEn then s.time.ppsEnd else none }
           pins := { s.pins with ppsOut := if f.time.ppsOutEn then s.pins.ppsOut else .low } }

/-! ## A clock lost while binding (R78) -/

/-- LOSSES counts one (Table 14-11). -/
def Pll.lose (p : Pll) : Pll := { p with lock := false, losses := satAdd 16 p.losses 1 }

/-- A clock fault while binding is counted, and refuses the bind; no FAULT envelope is produced (R78). -/
def clockRefusal (s : State) (idx code detail : Nat) : State :=
  let s := noteStore s (storeAdd (storeAdd s (counterAddr 0x0B idx) 1) faultsAddr 1)
  let s := refuseBound s code detail
  { s with faults := { s.faults with count := satAdd 32 s.faults.count 1, lastUnit := ⟨0x0B, idx⟩, lastEvent := 1, lastCause := 0x08 } }

/-- PLL-S stops driving the count, which goes on from the value it has reached (R397), and its outputs are gated (R439). -/
def dropS (s : State) : State :=
  let s := gateOutputs (holdCount s)
  noteSync { s with clocks := { s.clocks with pllS := s.clocks.pllS.lose } }

/-- PLL-C moves the core to the safe clock; PLL-M leaves capture memory without history writes (R454, R322). -/
def dropC (s : State) : State := { s with clocks := { s.clocks with pllC := s.clocks.pllC.lose, safeClock := true } }
def dropM (s : State) : State :=
  { s with clocks := { s.clocks with pllM := s.clocks.pllM.lose }, banks := { s.banks with dramOff := true } }

/-- The module oscillator fails; PLL-S falls with it where it runs on it (R453). -/
def oscLost (s : State) : State :=
  let s := if s.clocks.pllS.lock && !s.clocks.refSel then dropS s else s
  { s with clocks := { s.clocks with oscFail := true } }

/-- A clock is lost in steps 6 to 7a: 1 PLL-C, 2 PLL-M, 3 the module oscillator, with every PLL that runs on it (R78, R453). -/
def loseBinding (s : State) (k : Nat) : State :=
  let s := if k = 3 then oscLost s else s
  let s := if k ≠ 2 && s.clocks.pllC.lock then dropC s else s
  let s := if k ≠ 1 && s.clocks.pllM.lock then dropM s else s
  clockRefusal s k 0x509 k

/-! ## Step 8 and after -/

/-- The lowest-numbered tick of the raw-time grid after now is the tick of frame 0: ticks lie at multiples of the spacing (R13, R16;
that they do is this model's choice), and no CLK_OUT is then still in a high phase that it is in now (R442; log entry 36). -/
def beginTicks (s : State) : State :=
  let t := (s.clkBusy / max 1 s.spacing + 1) * s.spacing
  knownGrids { s with time := { s.time with tick0 := some t } } t

/-- Discovery and deskew are complete (steps 15 and 16): the next tick enters ARMING (R76). A follower that waits for its first alignment mark
shows step 16 (DESIGN CHOICE, log entry 27). -/
def discoveryDone (s : State) : State :=
  if s.boot.wait == BindWait.waves && decide (s.cfg.groups.length ≤ 4 * s.boot.wavesDone) then
    if (s.cfg.install.isNone || s.boot.position.isSome) && s.ticking then
      { s with boot := { s.boot with wait := .arming, step := 17 } }
    else { s with boot := { s.boot with step := 16 } }
  else s

/-- The module leads its chain: position 0, and the token that says so (R97 to R99). -/
def becomeLeader (s : State) : State :=
  let s := emit (beginTicks { s with boot := { s.boot with leader := some true, position := some 0 } }) (.token 0)
  if (s.cfg.install.getD {}).position = 0 then discoveryDone s else refuseBound s 0x508 0

/-- PLL-S is locked in this bind (step 8): frame ticks begin, the leader is known or awaited, and step 8a fills capture memory until the
first wave (R16, R82, R97, R505). -/
def afterLock (s : State) : State :=
  let s := noteFormats { s with boot := { s.boot with step := 8, wait := .waves, waveOn := false, wavesDone := 0 } }
  let s := match s.cfg.install with
    | none => beginTicks s
    | some i => if i.leader = 1 then becomeLeader s else if i.leader = 2 then { s with boot := { s.boot with leader := some false } } else s
  if s.boot.state == ModState.bound && !factoryOk s.franking.mem then refuseBound s 0x502 0xFFFF else s

/-- A lock of PLL-S; its band is one of 64, which the search picks (R438, R457). -/
def lockS (s : State) : State :=
  let (v, s) := takeFree s
  noteSync { s with clocks := { s.clocks with
      pllS := { s.clocks.pllS with lock := true, band := v.toNat % 64 }, sConf := s.planNow.conf } }

/-- Locks of PLL-C and PLL-M at start-up (steps 3 and 6a). -/
def lockC (s : State) : State :=
  let (v, s) := takeFree s
  { s with clocks := { s.clocks with pllC := { s.clocks.pllC with lock := true, band := v.toNat % 64 }, safeClock := false } }
def lockM (s : State) : State :=
  let (v, s) := takeFree s
  { s with clocks := { s.clocks with pllM := { s.clocks.pllM with lock := true, band := v.toNat % 64 } }
           banks := { s.banks with dramOff := false } }

/-- PLL-S locks for the bind, or refuses it with 0x507 (R71, R109, R437) and has no settings to lock with again before the next bind. -/
def tryLockS (s : State) (locks : Bool) : State :=
  let s := holdCount s
  let s := gateOutputs { s with clocks := { s.clocks with
    pllS := { s.clocks.pllS with lock := false }, sConf := [], syncStart := none, refSel := s.planNow.ref = 1, refUntil := none }
                                boot := { s.boot with wait := .none } }
  if locks && (s.clocks.refSel || !s.clocks.oscFail) then afterLock (lockS s) else refuseBound s 0x507 0xFFFF

/-- The declared frequency of REF_IN in MHz: that of the plan in force, or of the first plan that selects REF_IN; with none declared, that of
the reference PLL-S runs on, or 0 (R436, R455). -/
def State.refDeclared (s : State) : Nat :=
  if s.planNow.ref = 1 then s.planNow.refMhz
  else match s.cfg.clocks.plans.find? (fun p => p.ref = 1) with
    | some p => p.refMhz
    | none => if s.clocks.refSel then nth s.clocks.sConf 1 else 0

/-- REF_IN counts as present only at the frequency that is declared now (R436). -/
def judgeRef (s : State) : State :=
  { s with clocks := { s.clocks with refPresent := s.clocks.refPresent && s.clocks.refMhz == s.refDeclared } }

/-- Step 8 (R109, R437): PLL-S relocks only for other settings; a plan on REF_IN waits for it first. -/
def step8 (s : State) (locks : Bool) : State :=
  let s := noteFormats s
  let p := s.planNow
  if s.clocks.pllS.lock && s.clocks.sConf == p.conf then
    afterLock (noteSync { s with clocks := { s.clocks with syncStart := if s.cfg.pulseMode then s.clocks.syncStart else none } })
  else if p.ref = 1 && !s.clocks.refPresent then
    { s with boot := { s.boot with wait := .refIn }, clocks := { s.clocks with refUntil := some (s.now + s.cfg.clocks.refWaitMs * puMs) } }
  else tryLockS s locks

/-- The plan in which a bind starts: PLAN0, or a deferred plan whose CLOCKS body has not changed (R446, R450). -/
def startPlan (s : State) (old : Option Folio) (f : Folio) : Nat :=
  match s.clocks.deferred, old with
  | some p, some o => if o.clocks.body == f.clocks.body then p else 0
  | _, _ => 0

/-- The bind succeeds (R67, R73, R76): the module is BOUND with the Folio in force, placed, and step 8 begins. -/
def enterBound (s : State) (c : Copy) (img : Bytes) (f : Folio) (pl : Placed) (old : Option Folio) (env : BootEnv) : State :=
  let plan := startPlan s old f
  let s := { s with faults := { s.faults with fences := s.faults.fences.filter (fun e => !(e.1 = ukey 0x0E 0 && !s.franking.noCopy)) } }
  let s := noteStore s (storeAdd s bindsAddr 1)
  let s := { s with
    boot := { s.boot with
      folio := some f, boundCopy := some c, image := img, held := none, folioSeq := f.seqNo, folioSerial := f.serial
      sealedHash := f.sealedHash, errCode := 0, errDetail := 0, errCopy := none, step := 8
      subsysStale := decide ((f.subsysVid, f.subsysId) ≠ (s.boot.subsysVid, s.boot.subsysId))
      wait := .none, wavesDone := 0, waveOn := false, leader := none, position := none, cals := [], phase := .none }
    clocks := { s.clocks with plan := plan, deferred := none, pending := [], switches := 0
                              chainSlip := false, holds := [], holdFrom := [], holdMark := [] } }
  let s := bindTime (bindEvts (installPlacement (judgeRef s) f pl)) s.boot.lastBound f
  step8 (rebindEnded (setState { s with boot := { s.boot with lastBound := some f } } .bound)) env.pllSLocks

/-- Step 6 has begun: a clock lost before the franking write refuses the bind at once (R78). -/
def afterLoss (s : State) (env : BootEnv) (k : State → State) : State :=
  match env.lost with
  | some (c, false) => loseBinding s c
  | _ => k s

/-- Steps 7 and 7a on a copy that has passed the structure checks: seal, STRICT, admission, placement and franking (R64 to R67, R71).
FOLIO_STATUS.STRICT_EFFECTIVE is set once both seal checks have passed, so that a bind refused with 0x301 or 0x302 leaves it 0 (DESIGN CHOICE,
log entry 27). -/
def bindChecks (s : State) (c : Copy) (img : Bytes) (f : Folio) (old : Option Folio) (env : BootEnv) : State :=
  let bound (s : State) (pl : Placed) : State :=
    match env.lost with
    | some (k, true) => loseBinding s k
    | _ => enterBound s c img f pl old env
  let refuse (s : State) (code detail : Nat) : State := bindRefuse s code detail (some c)
  match sealBreach f, planBreach f with
  | some t, _ => refuse s 0x301 t
  | none, some p => refuse s 0x302 p
  | none, none =>
    let strict := strictApplies s f
    let differs := hashDiffers s f
    let s := { s with boot := { s.boot with strictEffective := strict } }
    if strict && differs && !s.boot.sealSample then
      refuse (frank s 2 true false (f.sealedHash.take 8) f.serial {}).1 0x303 0xFFFF
    else match admission f with
      | some (code, d) => refuse s code d
      | none => match place s f with
        | .error (code, d) => refuse s code d
        | .ok pl =>
          if differs then
            let (s, ok) := frank s 1 strict false (f.sealedHash.take 8) f.serial { hash := some f.sealedHash, strict := some strict }
            if ok then bound { s with boot := { s.boot with sealedChanged := true } } pl
            else refuse s 0x304 0xFFFF
          else bound s pl

/-- Step 6 begins (R73, R493): what of the last bind is over, the health map, and the Folio registers. -/
def beginChecks (s : State) (env : BootEnv) (sealLow : Bool) (errA errB : Nat) (found : Option Copy) : State :=
  let s := flushPba (clearFaults (clearBind (islandsOff s)))
  let kept := s.boot.health.filter (fun u => u.cls = 0x02 || u.cls = 0x100)
  let s := if s.clocks.oscFail then s else if s.clocks.pllM.lock then { s with banks := { s.banks with dramOff := false } } else lockM s
  { s with boot := { s.boot with
      step := 6, folio := none, boundCopy := none, image := [], sealSample := sealLow, sealAtBind := sealLow
      sealedChanged := false, strictEffective := false, subsysStale := false, errCode := 0, errDetail := 0, errCopy := none
      health := env.failed.filter (fun u => u.cls ≠ 0x01 && u.cls ≠ 0x02) ++ kept
      errA := errA, errB := errB, aValid := found == some .a, bValid := found == some .b
      aChecked := errA ≠ 0 || found == some .a, bChecked := errB ≠ 0 || found == some .b
      folioSeq := 0, folioSerial := 0, sealedHash := [] } }

/-- Steps 6 to 8 from flash, at power-on and after a reset (R60, R61, R71). -/
def bindFromFlash (s : State) (env : BootEnv) : State :=
  let sealLow := !s.pins.sealOpenN
  let fc := flashCode s
  if fc ≠ 0 then bindRefuse (beginChecks s env sealLow 0 0 none) fc 0xFFFF none
  else
    let r := chooseCopy s (some s.boot.fwVersion)
    let s := beginChecks s env sealLow r.errA r.errB (r.found.map (·.1))
    afterLoss s env (fun s => match r.found with
      | none => bindRefuse s 0x103 0xFFFF none
      | some (c, img, f) => bindChecks s c img f none env)

/-! ## From power-good or the end of a reset -/

/-- A level of the seal pin that differs from the recorded one as the module starts is franked with OFFLINE (R499). -/
def offlineSeal (s : State) : State :=
  let low := !s.pins.sealOpenN
  let s := { s with franking := { s.franking with sealOpen := low } }
  if s.page.sealOpen = low then s else frankSeal s low true

/-- The rest of step 5, once the firmware is authentic: a change of it, then one of the seal, is franked before step 6 (R499, R500). -/
def firmwareOn (s : State) (v : Nat) (h : Bytes) (env : BootEnv) : State :=
  let r := frankFirmware s v h
  let s := offlineSeal r.1
  if r.2 then bindFromFlash s env
  else bindRefuse { s with faults := { s.faults with fwUnfranked := true } } 0x304 0xFFFF none

/-- Step 5: the firmware that runs, or the module halted in BOOT with STEP 5 (R95, R500). -/
def step5 (s : State) (env : BootEnv) : State :=
  let r := chooseFw s
  let s := { s with boot := { s.boot with state := .boot, step := 5, fwErrA := r.errA, fwErrB := r.errB, fwSlot := r.slot } }
  match r.slot with
  | none => s
  | some c =>
    let v := fld (flashBytes s (fwBase c) 128) 8 4
    let h := sha256 (fwSigned s c)
    firmwareOn { s with boot := { s.boot with fwVersion := v, fwHash := h } } v h env

/-- The start-up steps from step 1 (R80 to R82), with what they meet; `code` is FT_STATUS.LAST_RESET. The store's failures of this start
end with it. -/
def startUp (s : State) (code : Nat) (env : BootEnv) : State :=
  let rom := romSubsys s
  let code := if s.power.freshPower then 0 else code
  let s := { s with
    boot := { s.boot with state := .boot, step := 1, subsysVid := rom.1, subsysId := rom.2, startAt := 0 }
    pins := { s.pins with evtOut := List.replicate 16 .low, ppsOut := .low }
    pcie := { s.pcie with linkUp := s.pins.perstN }
    faults := { s.faults with lastReset := code }
    franking := { s.franking with failing := env.storeFails } }
  let s := lockC (countStart (storeCheck s) code)
  let s := step5 (advanceTo s (s.now + env.took)) env
  { s with franking := { s.franking with failing := 0 } }

/-! ## Power, reset and watchdog rows -/

/-- POWER_GOOD: the three rails have been within tolerance for 2 ms (R509). -/
def execPowerGood (env : BootEnv) (s : State) : Res :=
  if s.railsOk || s.powered then .next s
  else
    let s := powerOn { s with pins := { s.pins with rails := [.ok, .ok, .ok], good := true } }
    if s.pins.modResetN && !s.power.thermalOff then .next (startUp s 0 env) else .next s

/-- MOD_RESET_N_ASSERT: MOD_RESET_N is held low for at least 10 µs (R76, R511). In OFF it resets the PW_ fields of scope M (R9); what a
measurement latches while it is held low stays (log entry 34). -/
def execModResetAssert (s : State) : Res :=
  if !s.pins.modResetN then .next s
  else
    let s := { s with pins := { s.pins with modResetN := false } }
    .next (if s.powered then moduleOff s true else { s with power := offPower s })

/-- MOD_RESET_N_RELEASE: the start-up steps count from here exactly as from power-good (R80, R511). -/
def execModResetRelease (env : BootEnv) (s : State) : Res :=
  if s.pins.modResetN then .next s
  else
    let s := { s with pins := { s.pins with modResetN := true } }
    .next (if s.railsOk && !s.power.thermalOff then startUp s 1 env else s)

/-- RAIL_BROWNOUT: a rail stays below its brownout threshold for 2 µs (R510). With VDD_AUX the supervision goes, in OFF too (R517). -/
def execRailBrownout (rail : Nat) (s : State) : Res :=
  if 3 ≤ rail then .next s
  else
    let s := { s with pins := { s.pins with rails := s.pins.rails.set rail .brownout, good := false } }
    .next (if s.powered then moduleOff s false else if s.auxUp then s else { s with power := offPower s })

/-- RAIL_OUT_OF_TOLERANCE: the module goes on in the state it is in, ALERT_N is asserted and PW_ALERT.RAIL records the rail (R510). A rail
that has browned out and rises past its threshold pulls ALERT_N low too (R531), but has not left its tolerance now, so PW_ALERT does not
record it; VDD_AUX is back only in tolerance (R529). -/
def execRailOutOfTolerance (rail : Nat) (s : State) : Res :=
  let r := s.pins.rails.getD rail .off
  let marginal := { s.pins with rails := s.pins.rails.set rail .marginal }
  if rail < 3 && (r == RailState.ok || r == RailState.high || r == RailState.low) then
    .next { s with pins := marginal, power := { s.power with alertRail := setBit s.power.alertRail rail true } }
  else if rail < 2 && r == RailState.brownout then .next { s with pins := marginal }
  else .next s

/-- A control-cluster watchdog reset passes through OFF to BOOT (R76). -/
def watchdogReset (s : State) (code : Nat) (env : BootEnv) : State := startUp (moduleOff s true) code env

/-- WATCHDOG_RESET: a timeout, or the reset that a lockstep mismatch causes. -/
def execWatchdogReset (lockstep : Bool) (env : BootEnv) (s : State) : Res :=
  .next (if s.powered then watchdogReset s (if lockstep then 2 else 3) env else s)

/-- LOCKSTEP_MISMATCH: a watchdog reset at once, which the Franking Store counts at this boot (R487). -/
def execLockstepMismatch (env : BootEnv) (s : State) : Res := .next (if s.powered then watchdogReset s 2 env else s)

/-- THERMAL_SHUTDOWN: the core die reaches 120 °C (R517). In OFF, where the supervision runs on, it holds the module there. -/
def execThermalShutdown (s : State) : Res :=
  let hot := { s with power := { s.power with shutdown := true, thermalOff := true } }
  .next (if s.powered then moduleOff hot false else if s.measuring then hot else s)

/-- THERMAL_RESTART: the die has cooled to 90 °C, and the module restarts as from power-good (R517). -/
def execThermalRestart (env : BootEnv) (s : State) : Res :=
  if !s.power.thermalOff then .next s
  else
    let s := { s with power := { s.power with thermalOff := false, freshPower := true } }
    if s.railsOk then .next (if s.pins.modResetN then startUp (powerOn s) 0 env else powerOn s) else .next s

/-! ## REF_IN (R436, R437) -/

/-- The wait for REF_IN has ended without it: the bind is refused (R437). -/
def refWaitOver (s : State) : State := refuseBound { s with clocks := { s.clocks with refUntil := none } } 0x507 0xFFFF

/-- REF_IN_PRESENT: REF_IN has held within ±100 ppm for 1 ms; a bind that waits for it goes on. -/
def execRefInPresent (locks : Bool) (s : State) : Res :=
  if !s.powered then .next s
  else
    let s := { s with clocks := { s.clocks with refPresent := true, refMhz := s.refDeclared } }
    .next (if s.boot.state == ModState.bound && s.boot.wait == BindWait.refIn then
        (if s.clocks.refUntil.any (fun t => decide (t < s.now)) then refWaitOver s else tryLockS s locks)
      else s)

/-- REF_WAIT_EXPIRY: REF_IN is still absent at the end of REF_WAIT_MS. -/
def execRefWaitExpiry (s : State) : Res :=
  match s.clocks.refUntil with
  | some t =>
    if s.boot.state == ModState.bound && s.boot.wait == BindWait.refIn then
      let s := advanceTo s t
      .next (refWaitOver s)
    else .next s
  | none => .next s

/-! ## Island power waves (R83 to R88) -/

/-- The groups of wave `k`. -/
def waveGroups (f : Folio) (k : Nat) : List Nat := (f.groups.drop (4 * k)).take 4

/-- The failing step of a group in steps 10 to 14. -/
def waveFailure (s : State) (r : GroupBoot) : Option Nat :=
  match bootFailure s r with
  | some (0x506, _) => none
  | some (c, _) => some c
  | none => none

/-- Steps 10 to 14 of a group that meets no failure. -/
def waveUp (s : State) (r : GroupBoot) : State := recordUnused (islandUp s r.group .powering) r

/-- Step 15: the deskew of every powered group, or the first that leaves its range. -/
def deskewAll : State → List (Nat × CalData) → State × Option Nat
  | s, [] => (s, none)
  | s, (g, d) :: l => if calOk s g d then deskewAll (applyCal s g d) l else (s, some g)

/-- ISLAND_POWER_WAVE: wave `k` is powered, and its groups go through steps 10 to 14; after the last wave every group is deskewed. -/
def execIslandPowerWave (k : Nat) (res : List GroupBoot) (s : State) : Res :=
  let gs := waveGroups s.cfg k
  if !(s.boot.state == ModState.bound && s.boot.wait == BindWait.waves && k = s.boot.wavesDone && !gs.isEmpty &&
      res.map (·.group) == gs) then .next s
  else match res.findSome? (fun r => (waveFailure s r).map (fun c => (c, r.group))) with
    | some (c, g) => .next (refuseBound (res.foldl noteFuse s) c g)
    | none =>
      let s := res.foldl waveUp s
      let s := { s with boot := { s.boot with wavesDone := k + 1, cals := s.boot.cals ++ res.map (fun r => (r.group, r.cal))
                                              waveOn := decide (4 * (k + 1) < s.cfg.groups.length), step := 9 } }
      if 4 * (k + 1) < s.cfg.groups.length then .next s
      else
        let (s, bad) := deskewAll s s.boot.cals
        match bad with
        | some g => .next (refuseBound s 0x506 g)
        | none => .next (discoveryDone { s with boot := { s.boot with cals := [], step := 15 } })

/-! ## Chain discovery (R97 to R99) -/

/-- The module is in chain discovery: bound, in a chain, with PLL-S locked in this bind and no position yet. -/
def discovering (s : State) : Bool :=
  s.boot.state == ModState.bound && s.cfg.install.isSome && s.lockedInBind && s.boot.position.isNone

/-- LEADER_CHOICE_TIMEOUT: LEADER is 0 and SYNC_IN has shown no idle pattern for 50 ms. -/
def execLeaderChoiceTimeout (s : State) : Res :=
  .next (if discovering s && s.boot.leader.isNone then becomeLeader s else s)

/-- POSITION_TOKEN: a follower takes the position after the token's and passes it on. -/
def execPositionToken (p : Nat) (s : State) : Res :=
  let i := s.cfg.install.getD {}
  if discovering s && s.boot.leader ≠ some true then
    let s := emit { s with boot := { s.boot with leader := some false, position := some (p + 1) } } (.token (p + 1))
    .next (if p + 1 ≠ i.position || i.chainLen ≤ p + 1 then refuseBound s 0x508 (p + 1) else discoveryDone s)
  else .next s

/-- CHAIN_TOKEN_TIMEOUT: a follower has received no token in time. A module whose LEADER is 0 and that did not become the leader within 50 ms
has seen the idle pattern, and is a follower (R97). -/
def execChainTokenTimeout (s : State) : Res :=
  .next (if discovering s && s.boot.leader ≠ some true then refuseBound s 0x508 0xFFFF else s)

end Sys2Proof.Machine
end

