-- ==== Sys2Proof/Machine/Clocks.lean ====
section
/-!
DEFINITION. Loss of lock and relock of the synthesisers (R438, R439, R451 to R454, R78, R322), FAULT_HOLD and its end (R77, R494), the
frame ticks (R13, R17), the rejoining of groups (R452), SYNC_IN in pulse mode and in a chain (R443, R452, R100), and clock plan switches (R448 to R450).
-/
namespace Sys2Proof.Machine

/-! ## What a loss of lock does -/

/-- A relock in a band (R438). -/
def Pll.relock (p : Pll) (band : Nat) : Pll := { p with lock := true, band := band % 64 }

/-- The module was bound and past its bind when a clock failed: it goes to FAULT_HOLD (R76). -/
def State.past (s : State) : Bool :=
  match s.boot.state with
  | .arming | .running | .faultHold => true
  | _ => false

/-- The module binds (R78): in BOOT from step 6, or BOUND. -/
def State.bindingNow (s : State) : Bool :=
  (s.boot.state == ModState.boot && decide (6 ≤ s.boot.step)) ||
  s.boot.state == ModState.bound

/-- Pending plan switches are cancelled (Table 14-5). -/
def cancelSwitches (s : State) : State :=
  s.clocks.pending.foldl (fun s e => complete s (e.2.2.1, e.2.2.2) 5 0) { s with clocks := { s.clocks with pending := [] } }

/-- FAULT_HOLD is entered, or held for one more clock (R76, R77, R454). -/
def enterHold (s : State) (src from_ : Nat) : State :=
  let back := if s.boot.state == ModState.faultHold then s.boot.resume else some s.boot.state
  let s := { s with
    clocks := { s.clocks with holds := setAdd s.clocks.holds src
                              holdFrom := if s.clocks.holds.contains src then s.clocks.holdFrom else tput s.clocks.holdFrom src from_
                              holdMark := if s.clocks.holds.contains src then s.clocks.holdMark else tput s.clocks.holdMark src s.firmMark }
    boot := { s.boot with resume := back }, settleEnd := none }
  safeEvts (setState s .faultHold)

/-- Frames from a count on are INVALID for sampling (R451, R454). -/
def spoilFrames (s : State) (c : Nat) : State :=
  { s with frames := s.frames.map (fun f => if c ≤ f.count then { f with invalid := true } else f) }

/-- Groups lose their lanes and their field PLLs with PLL-S, which is no fault of theirs (R451, R452). -/
def groupsLose (s : State) : State :=
  { s with field := { s.field with groups := tmap s.field.groups (fun _ e =>
      if e.powered then { dropCal (gateMclk s.now e) with
        state := if e.state == GState.running || e.state == GState.settling then .powering else e.state
        pllLock := false, dataFrom := none, unechoed := [], steps := 0 }
      else e) } }

/-- A clock source fails: fenced at once, and reported (Table 16-1, cause 0x08). `more` counts what is folded into it (R489). -/
def clockFault (s : State) (idx detail more : Nat) : State :=
  if s.fenced 0x0B idx then s
  else fenceUnit s { unit := ⟨0x0B, idx⟩, cause := 0x08, detail := detail, more := more
                     faultCount := if idx = 0 then s.curFrame else s.released, postmark := s.firmMark } s.nextWindow

/-- PLL-S loses lock (R439, R451). While the bind waits for REF_IN, step 8 is still to come, and the loss refuses nothing (R78). `detail` tells a lost reference; `own` that this is the fault itself, not what follows from a
failed oscillator. -/
def loseS (s : State) (detail : Nat) (own : Bool) : State :=
  let s := dropS s
  if s.past then
    let s := groupsLose (cancelSwitches s)
    let s := enterHold (spoilFrames s s.curFrame) 0 s.curFrame
    if own then clockFault s 0 detail 0 else s
  else if s.bindingNow && s.boot.wait != BindWait.refIn && own then clockRefusal s 0 0x507 0xFFFF
  else s

/-- PLL-C loses lock (R454): the core moves to the safe clock and Class T stops, a deadline fault folded into the clock's. -/
def loseC (s : State) (own : Bool) : State :=
  let s := dropC s
  if s.past then
    let s := cancelSwitches (spoilFrames s s.released)
    let s := enterHold s 1 s.released
    if own then clockFault s 1 0 1 else s
  else if s.bindingNow && own then clockRefusal s 1 0x509 1
  else s

/-- A fence of capture memory or of PLL-M for a loss of lock waits for the next relock (R322). -/
def notPassed (s : State) (u : FUnit) : State :=
  { s with faults := { s.faults with fences := tmap s.faults.fences (fun k f =>
      if k = unitKey u && f.cause = 0x08 then { f with passed := none } else f) } }

/-- PLL-M loses lock (R322): capture memory is fenced at once, and the DRAM keeps its contents. -/
def loseM (s : State) (own : Bool) : State :=
  let s := dropM s
  let s := notPassed (notPassed s ⟨0x08, 0⟩) ⟨0x0B, 2⟩
  if s.past then
    let s := detect s ⟨0x08, 0⟩ 0x08 0 s.released
    if own then clockFault s 2 0 0 else s
  else if s.bindingNow && own then clockRefusal s 2 0x509 2
  else s

/-- PLL_S_LOSS_OF_LOCK. -/
def execPllSLossOfLock (s : State) : Res := .next (if s.powered && s.clocks.pllS.lock then loseS s 0 true else s)

/-- REF_IN_LOST (R436): a PLL-S that runs on REF_IN has lost its reference (R439, R451). -/
def execRefInLost (s : State) : Res :=
  if !s.powered || !(s.clocks.refPresent || (s.clocks.refSel && s.clocks.pllS.lock)) then .next s
  else
    let s := { s with clocks := { s.clocks with refPresent := false } }
    .next (if s.clocks.refSel && s.clocks.pllS.lock then loseS s 1 true else s)

/-- PLL_C_LOSS_OF_LOCK. -/
def execPllCLossOfLock (s : State) : Res := .next (if s.powered && s.clocks.pllC.lock then loseC s true else s)

/-- PLL_M_LOSS_OF_LOCK. -/
def execPllMLossOfLock (s : State) : Res := .next (if s.powered && s.clocks.pllM.lock then loseM s true else s)

/-- PLL_F_LOSS_OF_LOCK: a field PLL loses lock on its own, and its group is fenced at once (R454). -/
def execPllFLossOfLock (g : Nat) (s : State) : Res :=
  if (s.group g).powered && (s.group g).pllLock && s.clocks.pllS.lock then
    .next (detect (modGroup s g (fun e => { gateMclk s.now e with pllLock := false })) ⟨0x01, g⟩ 0x07 0 (faultFrameNow s 1))
  else .next s

/-- OSCILLATOR_FAILURE (R453): PLL-C and PLL-M lose their reference, and so does a PLL-S that runs on the oscillator. One fault, of
the oscillator, is reported. -/
def execOscillatorFailure (s : State) : Res :=
  if !s.powered || s.clocks.oscFail then .next s
  else
    let bind := s.bindingNow
    let s := { s with clocks := { s.clocks with oscFail := true } }
    let s := if s.clocks.pllS.lock && !s.clocks.refSel then loseS s 1 false else s
    let s := if s.clocks.pllC.lock then loseC s false else s
    let s := if s.clocks.pllM.lock then loseM s false else s
    .next (if s.past then clockFault s 3 0 0 else if bind then clockRefusal s 3 0x509 3 else s)

/-! ## Relock -/

/-- PLL_S_RELOCK: with its reference present again, PLL-S has locked (R451). A follower has slipped (R452); in pulse mode with
RESUME_SYNC the SYNC_EN outputs wait for an edge again. In UNBOUND it locks with the settings that it last locked with, and CLK_OUT stays low
until the frame 0 of a bind; a bind locks it in step 8 alone (DEDUCED, log entry 36). -/
def execPllSRelock (band : Nat) (s : State) : Res :=
  let c := s.clocks
  let may := s.boot.state == ModState.faultHold || (s.boot.state == ModState.unbound && c.sConf ≠ [])
  if may && !c.pllS.lock && (if c.refSel then c.refPresent else !c.oscFail) then
    .next (noteSync { s with clocks := { c with
      pllS := c.pllS.relock band
      chainSlip := c.chainSlip || s.boot.leader = some false
      syncStart := if s.cfg.pulseMode && s.cfg.clocks.resumeSync then none else c.syncStart } })
  else .next s

/-- PLL_C_RELOCK: in FAULT_HOLD the core returns to its own clock at the resuming frame boundary (R454); elsewhere at once, and a
module halted in BOOT before step 6 repeats step 5 (R78). -/
def execPllCRelock (band : Nat) (env : BootEnv) (s : State) : Res :=
  if !s.powered || s.clocks.pllC.lock || s.clocks.oscFail then .next s
  else
    let s := { s with clocks := { s.clocks with pllC := s.clocks.pllC.relock band } }
    if s.boot.state == ModState.faultHold then .next s
    else
      let s := { s with clocks := { s.clocks with safeClock := false } }
      .next (if s.boot.state == ModState.boot && s.boot.step = 5 && s.boot.phase == RebindPhase.none then step5 s env else resumeIssue s)

/-- The relock is the self-test of a clock source, and of capture memory fenced for it: it returns at the next frame boundary. -/
def passClock (s : State) (u : FUnit) : State :=
  { s with faults := { s.faults with fences := tmap s.faults.fences (fun k f =>
      if k = unitKey u && f.cause = 0x08 then { f with passed := some s.now } else f) } }

/-- PLL_M_RELOCK (R322): history writes resume at the next frame boundary, and record reads with them. -/
def execPllMRelock (band : Nat) (s : State) : Res :=
  if !s.powered || s.clocks.pllM.lock || s.clocks.oscFail then .next s
  else
    let s := { s with clocks := { s.clocks with pllM := s.clocks.pllM.relock band } }
    .next (if s.past then passClock (passClock s ⟨0x08, 0⟩) ⟨0x0B, 2⟩ else { s with banks := { s.banks with dramOff := false } })

/-! ## The end of FAULT_HOLD -/

/-- Everything that holds FAULT_HOLD has come back: the lost PLLs are locked, and the SYNC_IN edge awaited has come (R77, R451). -/
def holdOver (s : State) : Bool :=
  s.boot.state == ModState.faultHold && s.ticking && s.clocks.pllS.lock && s.clocks.pllC.lock &&
    !(s.cfg.pulseMode && s.cfg.clocks.resumeSync && s.clocks.holds.contains 0 && s.clocks.syncStart.isNone)

/-- One frame that PLL-C's loss left without a release: it is INVALID for every reduction, sum and stored stream and for every sequencer, which
takes no action in it (R221) but is armed where it is the first frame of RUNNING (R103), as the runs that this frame begins have begun with
it; and the parts whose last frame it is become deliverable in its place of the release order (R225, R227, R237, R454). -/
def lostFrame (s : State) (f : FrameSet) : State :=
  if f.field then
    let s := keepOutputs (histFrame (sumsFrame (redsFrame s f) f) f)
    let s := (beginSeqs { s with seqs := s.shown.getD s.seqs, shown := none } f).1
    queueParts (if s.firstRun = some f.count then beginFirst s f.count else s) f.count
  else s

/-- The frame sets as landing begins again with frame `r`, whose window no release will open (R327). -/
def landersBack (s : State) (r : Nat) : State :=
  { s with banks := { s.banks with
    served := r
    owner := s.banks.role.foldl (fun t e =>
      let b := holderBank s e.1
      if s.fenced 0x06 b || e.2.1 = 0 || 3 < e.2.1 then t else tput t b (0x020 + e.2.2)) s.banks.owner } }

/-- The frames that PLL-C's loss left without a release (R454): they are INVALID, their sequencer commands complete, and the Class T evaluator goes on
from the last of them. -/
def closeLost (s : State) (r : Nat) : State :=
  let lost := (s.frames.filter (fun f => decide (s.released ≤ f.count) && decide (f.count < r))).reverse
  match lost.getLast? with
  | none => s
  | some l =>
    let s := lost.dropLast.foldl lostFrame s
    let (s, w) := if l.field then workFrame s l else (s, { run := {}, cmds := [] })
    let s := if l.field then queueParts s l.count else s
    let s := landersBack { (if l.field then keepResults (keepOutputs s) else s) with
      released := r, seqCmds := s.seqCmds.filter (fun k => !(w.cmds.any (fun x => x.1 == k)))
      frames := s.frames.filter (fun f => decide (r ≤ f.count + 1)) } r
    w.cmds.foldl (fun s x => complete s (x.1.ring, x.1.entry) x.2 0) s

/-- HOLD_END of one clock source, with the postmark of its detection (R494): the frames from the fault on up to the first frame served again.
A permanent fence outlasts the hold (R493). -/
def holdEnd (r : Nat) (s : State) (src : Nat) : State :=
  let a := tget r s.clocks.holdFrom src
  let s := { s with faults := { s.faults with
    fences := if s.permanent 0x0B src then s.faults.fences else tdel s.faults.fences (ukey 0x0B src)
    lastUnit := ⟨0x0B, src⟩, lastEvent := 4, lastCause := 0x08 } }
  holdEnvelope s (faultEnvelope ⟨0x0B, src⟩ 0x08 4 0 a r (s.sigCount 0x0B src) 0 (r - a) 0 0 (tget (postmarkOf (s.tickOf r)) s.clocks.holdMark src))

/-- The core returns to its own clock at tick `c`, once PLL-C has relocked (R454). -/
def coreBack (s : State) (c : Nat) : State :=
  if s.clocks.safeClock then
    let s := if s.clocks.holds.contains 1 then closeLost s c else s
    resumeIssue { s with clocks := { s.clocks with safeClock := false } }
  else s

/-- FAULT_HOLD ends at tick `c` (R77, R442). -/
def resumeAt (s : State) (c : Nat) : State :=
  let s := startOutputs (coreBack s c) (s.tickOf c)
  let s := s.clocks.holds.foldl (holdEnd c) s
  let back := s.boot.resume.getD .running
  let s := { s with clocks := { s.clocks with holds := [], holdFrom := [], holdMark := [] }
                    boot := { s.boot with resume := none }
                    frames := s.frames.map (fun f => if f.count = c then { f with invalid := false, field := back == ModState.running } else f) }
  if back == ModState.arming then beginArming s c else setState s back

/-- FAULT_HOLD_RESUME: at the first tick after the lost PLLs have relocked (R77). -/
def execFaultHoldResume (s : State) : Res :=
  if holdOver s then
    let c := entryTick s
    match atTick s c with
    | some s => .next (resumeAt s c)
    | none => .next s
  else .next s

/-! ## Frame ticks -/

/-- The next frame tick (R13): the frame being sampled closes and begins to land, and frame n opens. No release opens
W_0, nor the first window after a hold for PLL-C: `ownerNow` tells the owner of its set from then on, and the mailbox is read from that
frame's closing tick on (R208, R327). A core that PLL-C's loss has put on the safe clock returns at a tick (R454). -/
def frameTick (s : State) : State :=
  let n := s.time.ticks
  let t := s.tickOf n
  let s := closeFrame (advanceTo s t)
  let s := if n = 0 then startGrids (startOutputs s t) t else s
  let s := announceTick (beginFrame (stampTick (applyPrefs s) n t) n t) n
  let s := if s.boot.state == ModState.faultHold && s.clocks.pllC.lock then coreBack s n else s
  if n = s.banks.served + 1 then latchMailbox s else s

/-- FRAME_TICK: the next tick of the bind (R13). The tick at which the frame number wraps has a row of its own. -/
def execFrameTick (s : State) : Res :=
  if s.ticking && s.powered && !(s.time.ticks ≠ 0 && s.time.frame = BitVec.ofNat 40 (2 ^ 40 - 1)) then .next (frameTick s)
  else .next s

/-- FRAME_NUMBER_WRAP: the tick at which the frame number wraps from 2^40 − 1 to 0 (R17). -/
def execFrameNumberWrap (s : State) : Res :=
  if s.ticking && s.powered && s.time.ticks ≠ 0 && s.time.frame = BitVec.ofNat 40 (2 ^ 40 - 1) then .next (frameTick s) else .next s

/-! ## Groups -/

/-- The first tick at or after an instant. -/
def tickFrom (s : State) (pu : Nat) : Nat := cdiv (pu - s.time.tick0.getD 0) (max 1 s.spacing)

/-- A group settles, and rejoins at the tick after its SETTLE_MS (R144, R452); a group that comes back in ARMING settles with it. -/
def joinLater (s : State) (g : Nat) : State :=
  let ms := ((s.cfg.group? g).map (·.settleMs)).getD 0
  let c := max (tickFrom s (s.now + ms * puMs)) s.time.ticks
  modGroup s g (fun e => { e with state := .settling, dataFrom := some c })

/-- GROUP_REJOIN: a powered group has retrained, locked and realigned after a relock of PLL-S (R452), or a step has failed. -/
def execGroupRejoin (g : Nat) (r : GroupBoot) (s : State) : Res :=
  let e := s.group g
  if !(e.powered && !e.pllLock && e.state == GState.powering && s.clocks.pllS.lock && s.past && !s.fenced 0x01 g) then .next s
  else if !r.firstTrain && !r.againTrain then .next (detect s ⟨0x01, g⟩ 0x05 0 (faultFrameNow s 1))
  else if !r.pllLocks then .next (detect s ⟨0x01, g⟩ 0x07 0 (faultFrameNow s 1))
  else
    let s := sendSettings (realign s g r.cal) g
    .next (joinLater (modGroup s g (fun e => { e with pllLock := true, mclkFrom := some s.now, railsOn := true })) g)

/-! ## The contacts of the clock outputs -/

/-- The output delay of CLK_OUT, 1.20 ns, in whole pu (R442, log entry 36). -/
def clkDelay : Nat := 19

/-- The level of CLK_OUTk now (R440 to R442): on its edges, or completing what it ran on before; `complement` is the other contact of the pair,
high-impedance in LVCMOS (Table 14-4). -/
def State.clkOutPin (s : State) (k : Nat) (complement : Bool) : PinLevel :=
  let t := s.now - clkDelay
  let old := s.clocks.clkOld.getD k (0, 0, 0)
  let high := (s.clkHigh k t).isSome || (clkPhase old.1 old.2.1 t).any (fun z => decide (z ≤ old.2.2))
  if !s.powered || (complement && nth s.clocks.clkFormat k = 2) then .hiZ else if high != complement then .high else .low

/-- The start of the high phase, on one phase grid of output `o` of group `g`, that an instant lies in: one of the periods that the grid has, and
none that a divider change known ahead would cut (R125, R442, R449). -/
def gridHigh (s : State) (g o : Nat) (r : MGrid) (t : Nat) : Option Nat :=
  let high := 32 * cdiv r.div 2
  match highEnd (32 * r.div) high r.from_ t with
  | some z =>
    let i := (z - high - r.from_) / (max 1 (32 * r.div))
    let held := match r.n with
      | some n => decide (i < n)
      | none => (s.changeAt (fun p => s.cfg.planDiv p g o ≠ r.div)).all (fun c => decide (z ≤ c))
    if r.div ≠ 0 && held then some (z - high) else none
  | none => none

/-- How far the sample grid of a group, and its MCLK outputs with it, lies from the frame ticks, in 1/64 pu: the fine steps that its PLL has made,
less those that its correction takes (R125, R170; that a step delays the edges is DEDUCED, log entry 36). -/
def Group.phaseOff (e : Group) : Int := (e.steps : Int) - (((e.calAlign.map (·.2)).getD e.phase : Nat) : Int)

/-- The level of MCLKk of group `g` now: gated low, with the complement of an LVDS pair high; and on its phase grid, high for the first ⌈n/2⌉ periods
of 2 ns, from the first rising edge at or after the instant at which it may start (R84, R125 to R127). Each edge reaches the contact with the
driver's factory output delay. An island without power drives nothing once a high phase in progress has ended, which the spec does not say
(DESIGN CHOICE, log entry 36). -/
def State.mclkPin (s : State) (g k : Nat) : PinLevel :=
  let e := s.group g
  let pair := k % 2 = 1 && mclkFormat s.cfg g (k - 1) = 3
  let o := if pair then k - 1 else k
  let t := ((s.now : Int) - fdiv (mclkOutDelay s.franking.mem g o + e.phaseOff) 64).toNat
  let start := ((tget [] s.field.grids (4 * g + o)).filterMap (fun r => gridHigh s g o r t)).head?
  let high : Bool := start.any (fun a => match e.mclkFrom, e.mclkTail with
    | some b, _ => decide (b ≤ a)
    | none, some (b, c) => decide (b ≤ a) && decide (a < c)
    | none, none => false)
  if !e.powered && !high then .hiZ else if high != pair then .high else .low

/-! ## SYNC_IN -/

/-- Starts the SYNC_EN outputs, which are low, with a rising edge at the contact 24 ns after a SYNC_IN edge, on the VCO grid of 4 pu (R443). -/
def syncOutputs (s : State) (at_ : Nat) : State :=
  let c := s.clocks
  let q (k : Nat) : ClkOutQ := s.cfg.clkOut c.plan k
  let from_ := (at_ + 384 - clkDelay + 2) / 4 * 4
  { s with clocks := { c with
      syncStart := some at_, syncWait := false
      clkDiv := (List.range 4).map (fun k => if (q k).syncEn then (q k).div else nth c.clkDiv k)
      clkFrom := (List.range 4).map (fun k => if (q k).syncEn then from_ else nth c.clkFrom k)
      clkFormat := (List.range 4).map (fun k => if (q k).syncEn then clkFormatOf s k else nth c.clkFormat k) } }

/-- The offset of an instant from the nearest one of a grid. -/
def gridOffset (per : Nat) (a : Int) : Int :=
  let r := a % (per : Int)
  if 2 * r ≤ per then r else r - per

/-- The offset of an instant from the nearest rising edge of a SYNC_EN output at its contact (R443). -/
def syncOffset (s : State) (at_ : Nat) : Option Int :=
  let l := (List.range 4).filterMap (fun k =>
    let d := nth s.clocks.clkDiv k
    if (s.cfg.clkOut s.clocks.plan k).syncEn && d ≠ 0 then
      some (gridOffset (4 * d) ((at_ : Int) - (nth s.clocks.clkFrom k + clkDelay : Nat)))
    else none)
  l.foldl (fun a x => match a with
    | some y => if x.natAbs < y.natAbs then some x else a
    | none => some x) none

/-- SYNC_IN_EDGE, `offset` pu from now (R443): in pulse mode the first edge that finds the SYNC_EN outputs waiting starts them; a later one is
counted, with its offset from the nearest output edge. In a REBIND that needs no new lock the outputs keep their old dividers up to frame 0
(R442), and wait from there. -/
def execSyncInEdge (offset : Nat) (s : State) : Res :=
  if !(s.isBound && s.cfg.pulseMode && s.lockedInBind) then .next s
  else if s.clocks.syncStart.isNone then .next (if s.syncReady then syncOutputs s (s.now + offset) else s)
  else .next { s with clocks := { s.clocks with
    syncEdges := satAdd 16 s.clocks.syncEdges 1
    markErr := ((syncOffset s (s.now + offset)).map (satInt 16)).getD s.clocks.markErr } }

/-- The offset of an instant from the nearest tick, in pu. -/
def tickOffset (s : State) (a : Int) : Int := gridOffset (max 1 s.spacing) (a - s.time.tick0.getD 0)

/-- ALIGNMENT_MARK (R97, R100, R452): what is seen on SYNC_IN makes a module whose LEADER is 0 a follower; the first mark after PLL-S's lock in
this bind, less SYNC_DELAY, starts a follower's ticks, and its frame 0 is the first tick after that; every later mark's offset from the
follower's own tick is shown. -/
def execAlignmentMark (s : State) : Res :=
  if !(s.isBound && s.cfg.install.isSome && s.boot.leader ≠ some true && s.lockedInBind) then .next s
  else
    let s := { s with boot := { s.boot with leader := some false } }
    let a : Int := (s.now : Int) - (s.cfg.install.getD {}).syncDelay
    match s.time.tick0 with
    | some _ => .next { s with clocks := { s.clocks with markErr := satInt 16 (tickOffset s a) } }
    | none =>
      let p : Int := (max 1 s.spacing : Nat)
      let k := fdiv ((s.clkBusy : Int) - a) p + 1
      let t := (a + k * p).toNat
      .next (discoveryDone (knownGrids { s with time := { s.time with tick0 := some t } } t))

/-! ## Plan switches -/

/-- The instances whose input rate changes between two plans (R270). -/
def rateChanges (q : Folio) (old plan : Nat) : List Nat :=
  (q.reds.filter (fun e => redRate q old 32 e ≠ redRate q plan 32 e)).map (·.red)

/-- A phase grid ends with the last period whose high phase ends at or before the switch (R449), and a new one begins there. -/
def endGrid (e : MGrid) (t : Nat) : MGrid :=
  let per := max 1 (32 * e.div)
  let high := 32 * cdiv e.div 2
  if e.n.isSome then e else { e with n := some (if t < e.from_ + high then 0 else (t - e.from_ - high) / per + 1) }

/-- The grids of one output after a divider change at an instant. -/
def switchGrid (l : List MGrid) (t div : Nat) : List MGrid :=
  let l := l.map (fun e => endGrid e t)
  let base := match l.getLast? with
    | some e => e.base + e.n.getD 0
    | none => 0
  if div = 0 then l else l ++ [{ from_ := t, div := div, base := base, n := none }]

/-- A powered group has been sent no SET_MCLK for dividers that its tile does not have: it was not running when they went out (R113, R449). -/
def lacksMclk (s : State) (g : Nat) : Bool :=
  let e := s.group g
  let have_ := (e.applied.merge e.received).mclk
  e.powered && e.pllLock && !e.unechoed.any (fun m => m.1 = 0x84) &&
    e.coreCopy.mclk.any (fun x => tget (0, 0) have_ x.1 != x.2)

/-- A plan comes into force at the tick of count `ts` (R449). A powered group that does not run yet, or that began to after SET_MCLK had gone
out, is given its settings under the new plan here. -/
def applyPlan (s : State) (plan ts : Nat) : State :=
  let old := s.clocks.plan
  let t := s.tickOf ts
  let ch := planChanges s old plan
  let reds := rateChanges s.cfg old plan
  let s := { s with
    clocks := { s.clocks with plan := plan, switches := satAdd 32 s.clocks.switches 1 }
    frames := s.frames.map (fun f => if ts ≤ f.count then { f with plan := plan } else f)
    field := { s.field with grids := ch.foldl (fun l e => tmod [] l (4 * e.1 + e.2.1) (fun g => switchGrid g t e.2.2)) s.field.grids }
    proc := { s.proc with reds := tmap s.proc.reds (fun r e => if reds.contains r then { e with startAt := e.startAt ++ [ts] } else e) } }
  let s := startOutputs s t
  let s := { s with field := { s.field with groups := tmap s.field.groups (fun g e =>
      if e.powered && e.pllLock then { e with coreCopy := coreSettings s plan g } else e) } }
  (uniq (ch.map (·.1))).foldl (fun s g => if lacksMclk s g then sendSettings s g else s) s

/-- PLAN_SWITCH_APPLY: at t_s the last switch in fetch order comes into force, and every switch of that tick completes (R449). -/
def execPlanSwitchApply (s : State) : Res :=
  match s.clocks.pending with
  | [] => .next s
  | (_, ts, _) :: _ =>
    match atTick s ts with
    | none => .next s
    | some s =>
      let now := s.clocks.pending.filter (fun e => e.2.1 = ts)
      let plan := planAt s ts
      let s := { s with clocks := { s.clocks with pending := s.clocks.pending.filter (fun e => e.2.1 ≠ ts) } }
      let s := if plan = s.clocks.plan then s else applyPlan s plan ts
      .next (now.foldl (fun s e => complete s (e.2.2.1, e.2.2.2) 0 0) s)

end Sys2Proof.Machine
end

