-- ==== Sys2Proof/Machine/Commands.lean ====
section
/-!
DEFINITION. Host commands (R360 to R363, Table 11-10): their fetch and judgement, and what NOP, the SEQ_ commands (R181 to R184),
SPAN_READ (R247), PLAN_SWITCH (R448 to R450), TIME_PREF (R412), BANK_ASSIGN (R330), RING_RESET (R359) and GROUP_POWER (R143 to R145) do.
-/
namespace Sys2Proof.Machine

/-! ## Fetch (R361) -/

/-- Commands of a command ring that have been fetched and whose completions have not been written. -/
def outstanding (s : State) (i : Nat) : Nat :=
  (s.rings.cmds.filter (fun c => c.ring = i)).length + (s.rings.done.filter (fun e => e.1 = i)).length

/-- A command may be fetched from ring `i` (R347, R361): its completion ring has room for it, and no REBIND has stopped fetching. -/
def canFetch (s : State) (i : Nat) : Bool :=
  let g := s.ring (commandRing i)
  let c := s.ring (completionRing i)
  g.enable && decide (0 < indexDiff g.prod g.cons) && s.canIssue && !s.rings.fetchStop && c.enable &&
    decide (outstanding s i < 256) && decide ((outstanding s i : Int) < c.credit)

/-- A ring whose host address has failed (R363, Table 15-9). -/
def failRing (s : State) (r : Nat) : State := modRing s r (fun g => { g with enable := false, error := true })

/-- A command entry arrives: the consumer index moves, and a REBIND stops all fetching (R105, R345). -/
def takeEntry (s : State) (i : Nat) (entry : Bytes) : State :=
  let r := commandRing i
  let cons := (s.ring r).cons + 1
  let s := writeback (modRing s r (fun g => { g with cons := cons })) r cons
  let s := { s with rings := { s.rings with cmds := s.rings.cmds ++ [{ ring := i, entry := entry, started := false }]
                                            fetchStop := s.rings.fetchStop || opOf entry = 0x70 } }
  sweepBad s.rings.cmds.length s

/-- COMMAND_FETCH: the module reads the next entry of a command ring. A read, or a translation, that fails disables the ring (R363, R469). -/
def execCommandFetch (i : Nat) (fetched : ReadEnd) (entry : Bytes) (s : State) : Res :=
  if !(decide (i < 256) && canFetch s i) then .next s
  else
    let g := s.ring (commandRing i)
    let addr := g.base + 64 * (g.cons.toNat % (max g.size 1))
    match fetched with
    | .ok => .next (takeEntry (translate s addr) i (sub entry 0 64))
    | .poisoned => .next (failRing (noteRead (translate s addr) .poisoned) (commandRing i))
    | .completerAbort => .next (failRing (noteRead (translate s addr) .completerAbort) (commandRing i))
    | .unsupported => .next (failRing (noteRead (translate s addr) .unsupported) (commandRing i))
    | .timeout => .next (failRing (noteRead (translate s addr) .timeout) (commandRing i))
    | .translationError => .next (if s.pcie.atsEn && (cachedPage s addr).isNone then failRing (askPage s addr) (commandRing i) else s)
    | .noTag => .next s

/-! ## Start and judgement (R361, R363) -/

/-- Marks the first command with this ring and entry as started. -/
def markStarted : List Cmd → Nat → Bytes → List Cmd
  | [], _, _ => []
  | c :: l, i, e => if !c.started && c.ring = i && c.entry == e then { c with started := true } :: l else c :: markStarted l i e

/-- Starts the next command where it is one that `p` accepts (R361). -/
def startCmd (s : State) (p : Bytes → Bool) (k : State → Nat × Bytes → State) : Res :=
  match nextStart [] s.rings.cmds with
  | some c =>
    if s.coreClock && p c.entry then
      .next (k { s with rings := { s.rings with cmds := markStarted s.rings.cmds c.ring c.entry } } (c.ring, c.entry))
    else .next s
  | none => .next s

/-- The entry's own form (R360, R363): reserved bits and unused parameter bytes zero, RING_K zero without ON_RING. `used` are the
parameter fields of its opcode, as (offset, bytes). -/
def formOk (e : Bytes) (used : List (Nat × Nat)) : Bool :=
  decide (fld e 1 1 < 4) && (bit (fld e 1 1) 0 || fld e 2 2 = 0) &&
  (List.range 56).all (fun i => used.any (fun u => u.1 ≤ i + 8 && i + 8 < u.1 + u.2) || fld e (i + 8) 1 = 0)

/-- RING_K of an ON_RING command names a declared delivery ring (R363). -/
def onRingOk (s : State) (e : Bytes) : Bool := !bit (fld e 1 1) 0 || (s.cfg.ring? (fld e 2 2)).isSome

/-- The first of the checks of R363 that fails, as a status: form, permission, existence. -/
def judge (s : State) (e : Bytes) (used : List (Nat × Nat)) (form permitted exists_ : Bool) : Option Nat :=
  if !(formOk e used && form) then some 7
  else if !permitted then some 6
  else if !(onRingOk s e && exists_) then some 8
  else none

/-- The HOST quire permits an operation (R484). -/
def State.permits (s : State) (b : Nat) : Bool := bit s.cfg.host.permit b

/-- Completes a command that a check refuses, or goes on. -/
def orRefuse (s : State) (c : Nat × Bytes) (status : Option Nat) (k : State → State) : State :=
  match status with
  | some x => complete s c x 0
  | none => k s

/-! ## NOP and the SEQ_ commands -/

/-- NOP completes OK. -/
def execNop (s : State) : Res :=
  startCmd s (fun e => opOf e = 0x00) (fun s c => orRefuse s c (judge s c.2 [] true true true) (fun s => complete s c 0 0))

/-- A sequencer command waits for the frame whose work window opens next, in RUNNING (R181, R182). -/
def seqStart (act : Nat) (s : State) (c : Nat × Bytes) : State :=
  let q := fld c.2 8 1
  let open_ := match s.cfg.seq? q with
    | some e => e.hostOpen
    | none => true
  orRefuse s c (judge s c.2 [(8, 1)] true (s.permits 0 && open_) (s.cfg.seq? q).isSome) (fun s =>
    { s with seqCmds := s.seqCmds ++ [{ ring := c.1, entry := c.2, act := act, seq := q
                                        m := s.firstRun.map (fun r => max r s.windowAfter) }] })

/-- SEQ_ARM. -/
def execSeqArm (s : State) : Res := startCmd s (fun e => opOf e = 0x01) (seqStart 1)

/-- SEQ_DISARM. -/
def execSeqDisarm (s : State) : Res := startCmd s (fun e => opOf e = 0x02) (seqStart 2)

/-- SEQ_FORCE. -/
def execSeqForce (s : State) : Res := startCmd s (fun e => opOf e = 0x03) (seqStart 3)

/-! ## SPAN_READ (R247) -/

/-- The frames of a span as counts from the first, where every one is held and released. -/
def spanFrames (s : State) (ref first n : Nat) : Option (Nat × Nat) :=
  if 2 ^ 40 ≤ first then none
  else match s.countOfNo first with
    | none => none
    | some a =>
      if a + n ≤ s.released && (tget {} s.hist ref).frames.length ≠ 0 && decide (oldestHeld s ref ≤ (a : Int)) &&
          (heldFrame s ref (a : Int)).isSome && (heldFrame s ref ((a + n - 1 : Nat) : Int)).isSome then some (a, a + n - 1)
      else none

/-- SPAN_READ: the readout takes its place on its ring, or ends at once. -/
def spanStart (s : State) (c : Nat × Bytes) : State :=
  let e := c.2
  let ref := fld e 8 4
  let k := fld e 12 2
  let n := fld e 24 4
  orRefuse s c (judge s e [(8, 4), (12, 2), (16, 8), (24, 4), (28, 4)] true (s.permits 1)
      ((storedStreams s.cfg).contains ref && (s.cfg.ring? k).isSome && decide (fld e 16 8 < 2 ^ 40))) (fun s =>
    if n = 0 then complete s c 1 0
    else match spanFrames s ref (fld e 16 8) n with
      | none => complete s c 8 0
      | some (a, b) => pushReady { s with banks := { s.banks with readouts := s.banks.readouts + 1 } } (deliveryRing k)
          [.readout { cmd := c, stream := ref, next := a, last := b, tag := fld e 28 4, written := 0, serial := s.banks.readouts }])

/-- SPAN_READ. -/
def execSpanRead (s : State) : Res := startCmd s (fun e => opOf e = 0x10) spanStart

/-! ## PLAN_SWITCH (R448 to R450) -/

/-- PLAN_SWITCH: nothing, a switch at t_s, or a deferred switch (Table 14-5). One that finds PLL-S lost is cancelled like one whose PLL-S is lost before
t_s (DEDUCED, log entry 36). -/
def planStart (s : State) (c : Nat × Bytes) : State :=
  let p := fld c.2 8 1
  orRefuse s c (judge s c.2 [(8, 1)] true (s.permits 5) (s.cfg.plan? p).isSome) (fun s =>
    let now := planAt s (s.time.ticks + 1)
    if !bit s.cfg.host.planMask p then complete s c 6 0
    else if p = s.clocks.plan && now = p then complete s c 0 0
    else if ((s.cfg.plan? p).getD {}).conf == s.planNow.conf then
      (if s.clocks.pllS.lock && s.clocks.pllC.lock then
        { s with clocks := { s.clocks with pending := s.clocks.pending ++ [(p, s.time.ticks + 1, c.1, c.2)] } }
      else complete s c 5 0)
    else complete { s with clocks := { s.clocks with deferred := some p } } c 0 1)

/-- PLAN_SWITCH. -/
def execPlanSwitch (s : State) : Res := startCmd s (fun e => opOf e = 0x40) planStart

/-! ## TIME_PREF (R412) -/

/-- TIME_PREF waits for the next frame tick. -/
def prefStart (s : State) (c : Nat × Bytes) : State :=
  let d := fld c.2 8 1
  orRefuse s c (judge s c.2 [(8, 1)] (decide (d ≤ 2)) (s.permits 6) (d = 2 || (s.cfg.dom d).source ≠ 0)) (fun s =>
    { s with time := { s.time with prefCmds := s.time.prefCmds ++ [c] } })

/-- TIME_PREF. -/
def execTimePref (s : State) : Res := startCmd s (fun e => opOf e = 0x41) prefStart

/-! ## BANK_ASSIGN (R330) -/

/-- The host may give bank `b` to `owner` (R330); a fenced bank, or one that the control cluster is zeroing, has left the pool for that
time (R331, R337; DEDUCED). -/
def mayAssign (s : State) (b owner : Nat) : Bool :=
  s.banks.pool.contains b && (owner = 1 || (decide (0x10 ≤ owner) && decide (owner ≤ 0x1F))) && !s.fenced 0x06 b && !s.banks.zeroing

/-- A host write of a bank's owner: it takes effect, or is counted in BK_DENIED (R330). -/
def assignBank (s : State) (b owner : Nat) : State × Bool :=
  if mayAssign s b owner then ({ s with banks := { s.banks with owner := tput s.banks.owner b owner } }, true)
  else ({ s with banks := { s.banks with denied := satAdd 32 s.banks.denied 1 } }, false)

/-- BANK_ASSIGN makes the same write in command order. -/
def bankStart (s : State) (c : Nat × Bytes) : State :=
  let b := fld c.2 8 1
  orRefuse s c (judge s c.2 [(8, 1), (10, 2)] true true (decide (b < 136))) (fun s =>
    let (s, ok) := assignBank s b (fld c.2 10 2)
    complete s c (if ok then 0 else 6) 0)

/-- BANK_ASSIGN. -/
def execBankAssign (s : State) : Res := startCmd s (fun e => opOf e = 0x50) bankStart

/-! ## RING_RESET (R359) -/

/-- The reset of a delivery ring: its staged envelopes are dropped with CAUSE RESET, and the records with a data part on it and no
commit are lost. -/
def resetRing (s : State) (r : Nat) : State :=
  let s := dropStaged s r 5
  s.cfg.records.foldl (fun s q =>
    if q.whole && (recRing s.cfg q).map deliveryRing = some r then
      ((s.recd q.rec_).runs.filter (fun x => x.parts ≠ 0)).foldl (fun s x => loseRun s r q.rec_ x.no x.segment) s
    else s) s

/-- The reset of the dead-letter ring: its reserve is emptied, and what it held is counted in DL_DROPPED. -/
def resetDeadLetter (s : State) : State := dropStaged s dlRing 5

/-- RING_RESET: the RESULT is the number of envelopes discarded. -/
def resetStart (s : State) (c : Nat × Bytes) : State :=
  let r := fld c.2 8 2
  orRefuse s c (judge s c.2 [(8, 2)] true true (r = dlRing || (rkind r = 3 && (s.cfg.ring? (r - 7680)).isSome))) (fun s =>
    let n := (stagedOf (s.ring r).ready).length
    complete (if r = dlRing then resetDeadLetter s else resetRing s r) c 0 n)

/-- RING_RESET. -/
def execRingReset (s : State) : Res := startCmd s (fun e => opOf e = 0x51) resetStart

/-! ## GROUP_POWER (R143 to R145) -/

/-- What GROUP_POWER has in common for both directions; `k` is its effect on a group that has no power command in progress and is not
fenced. -/
def powerStart (s : State) (c : Nat × Bytes) (k : State → Nat → State) : State :=
  let g := fld c.2 8 1
  orRefuse s c (judge s c.2 [(8, 1), (9, 1)] (decide (fld c.2 9 1 ≤ 1)) (s.permits 7) (s.cfg.group? g).isSome) (fun s =>
    let e := s.group g
    if !bit s.cfg.host.groupMask g then complete s c 6 0
    else if e.powerCmd.isSome then complete s c 7 0
    else if s.fenced 0x01 g then complete s c 5 0 (2 ^ g)
    else k s g)

/-- GROUP_POWER_DOWN: the group powers down at the next tick, unless it is down already (R143, R145). -/
def execGroupPowerDown (s : State) : Res :=
  startCmd s (fun e => opOf e = 0x60 && fld e 9 1 ≠ 1) (fun s c => powerStart s c (fun s g =>
    if (s.group g).state == GState.down then complete s c 0 0
    else modGroup s g (fun e => { e with powerCmd := some c, downAt := some s.time.ticks })))

/-- A closed frame still waits for the group's data. -/
def groupOwes (s : State) (g : Nat) : Bool := s.laneUp g && (s.frames.drop 1).any (fun f => s.released < f.count && tget 0 f.need g ≠ 0)

/-- GROUP_POWER_DOWN_APPLY: at t_d the group's data is no longer taken; the island is off within 1 ms, and the command completes (R143).
The module waits until the frames before t_d have crossed the barrier, but not beyond the 1 ms. -/
def execGroupPowerDownApply (g : Nat) (s : State) : Res :=
  match (s.group g).downAt with
  | some d =>
    if d < s.time.ticks && (!groupOwes s g || decide (s.tickOf d + puMs ≤ s.now)) then
      let c := (s.group g).powerCmd
      let s := if s.laneUp g then sendTile s g 0x89 [] else s
      let s := modGroup (islandOff s g .down) g (fun e => { e with powerCmd := none, downAt := none, calibrated := false })
      .next (match c with
        | some c => complete s c 0 0
        | none => s)
    else .next s
  | none => .next s

/-- GROUP_POWER_UP: the island is powered at once, and steps 10 to 15 of Table 03-3 run for the group alone; a step that fails powers it
down again and is a significant fault of the group (R144). A GROUP that the module does not have is judged with any of the row's results (R363). -/
def execGroupPowerUp (r : GroupBoot) (s : State) : Res :=
  startCmd s (fun e => opOf e = 0x60 && fld e 9 1 = 1 && (fld e 8 1 = r.group || decide (16 ≤ fld e 8 1))) (fun s c => powerStart s c (fun s g =>
    if !((s.group g).state == GState.down) then complete s c 0 0
    else match bootFailure s r with
      | some (_, cause) =>
        let s := modGroup (noteFuse s r) g (fun e => { e with powerCmd := none })
        complete (detect s ⟨0x01, g⟩ cause 0 (faultFrameNow s 1)) c 5 0 (2 ^ g)
      | none => joinLater (modGroup (recordUnused (islandReady s r .settling) r) g (fun e => { e with powerCmd := some c })) g))

/-- GROUP_POWER_UP_REJOIN: at t_j the group's data counts again, and the command completes (R144). -/
def execGroupPowerUpRejoin (g : Nat) (s : State) : Res :=
  let e := s.group g
  match e.powerCmd, e.downAt, e.dataFrom with
  | some c, none, some j =>
    match atTick s j with
    | some s => .next (complete (modGroup s g (fun e => { e with powerCmd := none })) c 0 0)
    | none => .next s
  | _, _, _ => .next s

end Sys2Proof.Machine
end

