-- ==== Sys2Proof/Machine/FlashPort.lean ====
section
/-!
DEFINITION. The host's flash accesses (R46, R47, R475, R476): permission, the wait while the loader reads, and the results of Table 15-11.
-/
namespace Sys2Proof.Machine

/-- Bytes of the flash device. -/
def State.flashSize (s : State) : Nat := s.flash.sizeMbit * 131072

/-- Table 02-2: a program or erase of the region that holds address `a` is permitted now. -/
def mayWriteFlash (s : State) (a : Nat) : Bool :=
  !s.pins.sealOpenN ||
  (if a < 0x01000000 then s.boot.boundCopy != some Copy.a
   else if a < 0x02000000 then s.boot.boundCopy != some Copy.b
   else decide (0x03000000 ≤ a))

/-- The first byte and the number of bytes that an operation touches. -/
def FlashOp.span (o : FlashOp) : Nat × Nat :=
  (o.addr, if o.op = 3 then 4096 else if o.op = 4 then 65536 else o.len)

/-- The result with which an operation ends before the flash is asked (Table 15-11): 1 EMPTY, 3 RANGE, 2 DENIED. A LEN above 256 lies
beyond FLASH_DATA (DEDUCED). -/
def flashJudge (s : State) (o : FlashOp) : Option Nat :=
  let (a, n) := o.span
  if (o.op = 1 || o.op = 2) && o.len = 0 then some 1
  else if o.op = 0 || 4 < o.op || 256 < o.len && o.op < 3 || (s.flash.sizeMbit ≠ 0 && s.flashSize < a + n) ||
      (o.op = 2 && 256 < a % 256 + n) || (3 ≤ o.op && a % n ≠ 0) then some 3
  else if o.op ≠ 1 && !mayWriteFlash s a then some 2
  else none

/-- An operation ends (R475, R476): RESULT, DONE and IRQ_STATUS.FLASH, unless an endpoint reset came since it started. -/
def endFlash (s : State) (o : FlashOp) (result : Nat) : State :=
  let s := { s with flashRegs := { s.flashRegs with busy := none } }
  if o.forgotten then s else raiseIrq { s with flashRegs := { s.flashRegs with done := true, result := result } } 1

/-- An operation starts: SEAL_OPEN_N is sampled here (R47). -/
def beginFlash (s : State) (o : FlashOp) : State :=
  match flashJudge s o with
  | some r => endFlash s o r
  | none => { s with flashRegs := { s.flashRegs with busy := some { o with waiting := false } } }

/-- A write of FLASH_CTRL with GO (R475): ignored while an operation is in progress, and held back while the loader reads (R47). -/
def flashGo (s : State) (op len : Nat) : State :=
  let s := { s with flashRegs := { s.flashRegs with op := op, len := len } }
  if s.flashRegs.busy.isSome then s
  else
    let o : FlashOp := { op := op, len := len, addr := s.flashRegs.addr, data := s.flashRegs.data, waiting := true, forgotten := false }
    if s.boot.phase == RebindPhase.reading && !((op = 1 || op = 2) && len = 0) then
      { s with flashRegs := { s.flashRegs with busy := some o } }
    else beginFlash s o

/-- The operation that waited for the loader starts (R47). -/
def resumeFlash (s : State) : State :=
  match s.flashRegs.busy with
  | some o => if o.waiting then beginFlash s o else s
  | none => s

/-- A host program or erase is in progress. -/
def State.flashWriting (s : State) : Bool :=
  match s.flashRegs.busy with
  | some o => !o.waiting && o.op ≠ 1
  | none => false

/-- What an operation that the flash has carried out leaves: the data read, or the bytes written or erased. -/
def flashEffect (s : State) (o : FlashOp) : State :=
  let (a, n) := o.span
  if o.op = 1 then
    { s with flashRegs := { s.flashRegs with data := flashBytes s a n ++ s.flashRegs.data.drop n } }
  else if o.op = 2 then { s with flash := { s.flash with mem := mwrite 0xFF s.flash.mem a (sub o.data 0 n) } }
  else { s with flash := { s.flash with mem := mclear s.flash.mem a (a + n) } }

/-- A program or erase that the flash reports as failed leaves the bytes it would have changed open (R475). -/
def flashFailed (s : State) : State := stopFlash s

/-- The seal level of a REBIND is sampled once no host program or erase runs (R106). -/
def rebindSample (s : State) : State := { s with boot := { s.boot with sealSample := !s.pins.sealOpenN } }

/-- FLASH_READ. The four operations are writes of FLASH_CTRL, memory requests to BAR0 (R463). -/
def execFlashRead (len : Nat) (s : State) : Res := .next (memRequest s (fun s => flashGo s 1 (len % 512)))

/-- FLASH_PROGRAM. -/
def execFlashProgram (len : Nat) (s : State) : Res := .next (memRequest s (fun s => flashGo s 2 (len % 512)))

/-- FLASH_ERASE_4K. -/
def execFlashErase4k (len : Nat) (s : State) : Res := .next (memRequest s (fun s => flashGo s 3 (len % 512)))

/-- FLASH_ERASE_64K. -/
def execFlashErase64k (len : Nat) (s : State) : Res := .next (memRequest s (fun s => flashGo s 4 (len % 512)))

/-- FLASH_OPERATION_COMPLETE: OK, or FLASH_ERROR where the flash fails or does not answer. A REBIND that waited for the write samples the seal
now (R106). -/
def execFlashOperationComplete (ok : Bool) (s : State) : Res :=
  match s.flashRegs.busy with
  | some o =>
    if o.waiting then .next s
    else
      let good := ok && decide (s.flash.sizeMbit ≠ 0)
      let s := endFlash (if good then flashEffect s o else flashFailed s) o (if good then 0 else 4)
      .next (if s.boot.phase == RebindPhase.reading && o.op ≠ 1 then rebindSample s else s)
  | none => .next s

end Sys2Proof.Machine
end

