-- ==== Sys2Proof/Machine/Rebind.lean ====
section
/-!
DEFINITION. REBIND (R104 to R109): by command in RUNNING or ARMING, by REBIND_CTRL in UNBOUND; its decision, the end of the running
configuration, and the bind of the image that was read.
-/
namespace Sys2Proof.Machine

/-- The loader begins to read: the seal is sampled once no host program or erase runs (R106). -/
def beginReading (s : State) (cmd : Option (Nat × Bytes)) : State :=
  let s := { s with boot := { s.boot with phase := .reading, rebindCmd := cmd } }
  if s.flashWriting then s else rebindSample s

/-- REBIND starts once every command fetched before it has completed (R104, R105). -/
def rebindStart (s : State) (c : Nat × Bytes) : State :=
  let refuse (s : State) (status : Nat) : State :=
    complete { s with rings := { s.rings with fetchStop := false } } c status 0
  match judge s c.2 [] true true true with
  | some x => refuse s x
  | none =>
    if (s.boot.state == ModState.running || s.boot.state == ModState.arming) && s.boot.phase == RebindPhase.none then
      beginReading s (some c)
    else refuse s 7

/-- REBIND. -/
def execRebind (s : State) : Res := startCmd s (fun e => opOf e = 0x70) rebindStart

/-- REBIND_CTRL_GO: a write of REBIND_CTRL with GO and its KEY (R104, Table 03-10). -/
def rebindGo (s : State) (key : Nat) : State :=
  if s.boot.state == ModState.unbound && key = 0xB1D && s.boot.phase == RebindPhase.none then beginReading s none else s

/-- REBIND_CTRL_GO. -/
def execRebindCtrlGo (key : Nat) (s : State) : Res := .next (memRequest s (fun s => rebindGo s key))

/-! ## The decision (R107) -/

/-- The reference hash: the bound Folio's, or the last one that the Franking Store records. -/
def referenceHash (s : State) : Option Bytes :=
  if s.boot.folio.isSome then some s.boot.sealedHash
  else match currentPage s.franking.mem with
    | some (_, p) => if p.hashValid then some p.hash else none
    | none => none

/-- A REBIND is decided: REBIND_RESULT, its interrupt, and the completion of a command (R107, Table 15-8). -/
def decideRebind (s : State) (result status detail : Nat) : State :=
  let c := s.boot.rebindCmd
  let s := raiseIrq { s with boot := { s.boot with rebindResult := result, rebindCmd := none } } 2
  match c with
  | some c => complete s c status result 0 detail
  | none => s

/-- A REBIND that is not accepted: the module runs on, fetches again, and serves the flash (R105, R106). -/
def endReading (s : State) : State :=
  resumeFlash { s with boot := { s.boot with phase := .none }, rings := { s.rings with fetchStop := false } }

/-- What the loader's reading of the flash finds for a REBIND: the choice of a copy, or none where the flash itself fails (R60, R71). -/
def rebindChoice (s : State) : Choice :=
  if flashCode s = 0 then chooseCopy s (some s.boot.fwVersion) else { found := none, errA := 0, errB := 0 }

/-- The decision on what has been found: no valid copy, a denial, or the acceptance of the image read (R107). -/
def rebindOn (s : State) (r : Choice) : State :=
  match r.found with
  | none => endReading (decideRebind s 3 4 (r.errA + 65536 * r.errB))
  | some (c, img, f) =>
    if referenceHash s ≠ some f.sealedHash && !s.boot.sealSample then endReading (decideRebind s 2 6 0)
    else
      let s := decideRebind s 1 0 0
      resumeFlash { s with
        boot := { s.boot with phase := .accepted, rebinding := true, held := some (c, img), heldErrs := (r.errA, r.errB), startAt := s.now }
        rings := { s.rings with fetchStop := true } }

/-- REBIND_DECISION (R107). -/
def execRebindDecision (s : State) : Res :=
  if !(s.boot.phase == RebindPhase.reading) || s.flashWriting then .next s else .next (rebindOn s (rebindChoice s))

/-! ## The end of the running configuration (R108) -/

/-- REBIND_TEARDOWN: at the next tick Class T stops, and records that reach beyond the last frame released are cut (R108, R243). An
unbound module has nothing to stop. -/
def execRebindTeardown (s : State) : Res :=
  if !(s.boot.phase == RebindPhase.accepted) then .next s
  else
    let s := if s.ticking then truncateRuns (advanceTo s (s.tickOf s.time.ticks)) else s
    .next { s with boot := { s.boot with phase := .draining, drainUntil := s.now + (if s.ticking then 100 * puMs else 0) } }

/-- LENGTH of what is ready and would still be written. -/
def itemLength (s : State) (i : Item) : Nat :=
  match i with
  | .staged e => e.length
  | .measure _ _ _ e => e.length
  | .completion e => e.length
  | .readout _ => 0
  | .part r no seg chunk idx =>
    match s.cfg.rec? r, (s.recd r).run? no seg with
    | some q, some x => ((partEnvelope s q x chunk idx).map (fun e => e.1.length)).getD 64
    | _, _ => 64
  | .commit r no seg =>
    match s.cfg.rec? r, (s.recd r).run? no seg with
    | some q, some x => (commitEnvelope s q x).length
    | _, _ => 64
  | .stream r no chunk idx =>
    match s.cfg.rec? r, (s.recd r).run? no 0 with
    | some q, some x =>
      let (a, b) := chunkFrames s q x chunk
      let ref := nth q.streams idx
      let fs := (blockFrames s (max a (tget 0 x.next idx : Nat)) b).filterMap (heldFrame s ref)
      roundUp 32 (32 + (streamPayload r q.kind 0 no 0 0 ref idx 0 0 0 (fs.flatMap (fun f => (blockOf s ref x.lo x.hi f).bytes))).length)
    | _, _ => 64

/-- What remains for a delivery ring when the 100 ms end is dropped, and counted with CAUSE REBIND (R108, R243). -/
def dropRemaining (s : State) (r : Nat) : State :=
  let l := (s.ring r).ready
  let s := l.foldl (fun s i => countDrop s r 4 (itemLength s i)) s
  ltrCheck (modRing s r (fun g => { g with ready := [] }))

/-- Envelopes of the dead-letter reserve that the ring still takes, in order (R358). -/
def drainReserve : Nat → State → State
  | 0, s => s
  | k + 1, s =>
    match headItem s dlRing with
    | some (.staged e) =>
      if s.canWriteRing dlRing && (s.ring dlRing).fits e.length then drainReserve k (putEnvelope (popReady s dlRing) dlRing e) else s
    | _ => s

/-- Steps 5 to 7 of R108: what remains is dropped and reported, and process outputs take their safe state. -/
def endConfiguration (s : State) : State :=
  let s := (s.cfg.delivery.rings.map (fun q => deliveryRing q.ring)).foldl dropRemaining s
  let s := (s.cfg.delivery.streams.map (fun q => 0x8000 + q.stream)).foldl (fun s t => dropStaged s t 4) s
  let n := s.released - 1
  let s := stageLoss s (frameNo n) (postmarkOf (s.tickOf n))
  let s := drainReserve (s.ring dlRing).ready.length s
  safeEvts (notify s dlRing)

/-- The end of the drain, at once where everything is delivered and otherwise when the 100 ms have passed: the old configuration
ends, and the module is in BOOT (R108), also from a FAULT_HOLD that began meanwhile (DESIGN CHOICE, log entry 35). -/
def drainOver (s : State) : State :=
  let left := s.rings.rings.any (fun e => !e.2.ready.isEmpty) || s.rings.netReady.any (fun e => !e.2.isEmpty)
  let s := if left then advanceTo s s.boot.drainUntil else s
  let s := if s.boot.folio.isSome then endConfiguration s else s
  setState { s with boot := { s.boot with resume := none, binding := none } } .boot

/-- Steps 6 to 17 on the image held by a REBIND (R108). A module whose firmware change has not been franked stays UNBOUND (R500), and so does
one whose oscillator has failed, for PLL-C and PLL-M have no reference (R78, R453); one whose PLL-C has not relocked binds on the safe clock
(DESIGN CHOICE, log entry 35). -/
def bindHeld (s : State) (old : Option Folio) (c : Copy) (img : Bytes) (env : BootEnv) : State :=
  let s := advanceTo s (s.now + env.took)
  let s := { s with franking := { s.franking with failing := env.storeFails } }
  let s := beginChecks s env s.boot.sealSample s.boot.heldErrs.1 s.boot.heldErrs.2 (some c)
  let s := if s.faults.fwUnfranked then bindRefuse s 0x304 0xFFFF none else if s.clocks.oscFail then bindRefuse s 0x509 3 none
    else afterLoss s env (fun s => match checkCopy img (some s.boot.fwVersion) with
    | .ok f => bindChecks s c img f old env
    | .error _ => bindRefuse s 0x103 0xFFFF none)
  { s with franking := { s.franking with failing := 0 } }

/-- REBIND_DRAIN_END: the old configuration ends, and steps 6 to 17 run on the image held (R108). -/
def execRebindDrainEnd (env : BootEnv) (s : State) : Res :=
  if !(s.boot.phase == RebindPhase.draining) then .next s
  else
    let t := drainOver s
    match t.boot.held with
    | none => .next (bindRefuse t 0x103 0xFFFF none)
    | some (c, img) => .next (bindHeld t s.boot.folio c img env)

end Sys2Proof.Machine
end

