-- ==== Sys2Proof/Machine/Registers.lean ====
section
/-!
DEFINITION. What the registers of BAR0 read (R7, R92, R464, Tables 15-6 and 15-7): one function per block, over the register tables of
chapters 02 to 17, and the configuration space (R460 to R463).
-/
namespace Sys2Proof.Machine

/-- A word from its fields: (lowest bit, value). -/
def word (l : List (Nat × Nat)) : Nat := (l.foldl (fun a e => a + e.2 * 2 ^ e.1) 0) % 2 ^ 32

/-- A field of `n` bits from a signed value. -/
def sfield (n : Nat) (v : Int) : Nat := (v % (2 ^ n : Nat)).toNat

/-- Word `k` of a run of bytes, zero beyond its end. -/
def wordAt (b : Bytes) (o : Nat) : Nat := ofLe ((b.drop o).take 4)

/-! ## Identity block (Tables 02-11 to 02-14, 03-6 to 03-10, 15-7, 15-8, 15-12) -/

def copyCode : Option Copy → Nat
  | none => 0
  | some .a => 1
  | some .b => 2

/-- BIND_ERROR (Table 02-12). -/
def bindErrorReg (s : State) : Nat := word [(16, s.boot.errDetail), (14, copyCode s.boot.errCopy), (0, s.boot.errCode)]

/-- FOLIO_STATUS (Table 02-13). -/
def folioStatusReg (s : State) : Nat :=
  let b := s.boot
  word [(7, b2n b.subsysStale), (6, b2n b.sealAtBind), (5, b2n b.strictEffective), (4, b2n b.sealedChanged), (3, b2n b.bChecked),
    (2, b2n b.bValid), (1, b2n b.aChecked), (0, b2n b.aValid)]

/-- FLASH_STATUS (Table 15-12). -/
def flashStatusReg (s : State) : Nat :=
  let f := s.flashRegs
  word [(31, b2n f.busy.isSome), (30, b2n f.done), (29, b2n (!s.pins.sealOpenN)),
    (28, match f.busy with
      | some o => b2n o.waiting
      | none => 0), (0, f.result)]

/-- The identity block. -/
def identReg (s : State) (o : Nat) : Nat :=
  let b := s.boot
  if o = 0x00 then 0x102400A1
  else if o = 0x10 then modStateReg s
  else if o = 0x14 then word [(12, b.fwErrA), (8, b.fwErrB), (0, copyCode b.fwSlot)]
  else if o = 0x1C then b.startMs
  else if o = 0x20 then bindErrorReg s
  else if o = 0x24 then folioStatusReg s
  else if o = 0x28 then word [(16, b.errB), (0, b.errA)]
  else if o = 0x2C then b.folioSeq
  else if o = 0x30 then b.folioSerial % 2 ^ 32
  else if o = 0x34 then b.folioSerial / 2 ^ 32
  else if o = 0x38 then lidReg s
  else if 0x40 ≤ o && o < 0x60 then wordAt b.sealedHash (o - 0x40)
  else if o = 0x60 then s.pcie.irqStatus
  else if o = 0x64 then s.pcie.irqEnable
  else if o = 0x68 then s.pcie.irqVector
  else if o = 0x100 then word [(28, s.flashRegs.op), (0, s.flashRegs.len)]
  else if o = 0x104 then s.flashRegs.addr
  else if o = 0x108 then flashStatusReg s
  else if 0x200 ≤ o && o < 0x300 then
    let i := (o - 0x200) / 4
    (s.pcie.intx.filter (fun v => v / 32 = i)).foldl (fun a v => setBit a (v % 32) true) 0
  else if 0x400 ≤ o && o < 0x500 then wordAt s.flashRegs.data (o - 0x400)
  else 0

/-! ## TB_ (Tables 13-10 to 13-14) -/

def DomState.code : DomState → Nat
  | .off => 0 | .acquiring => 1 | .traced => 2 | .lost => 3

/-- TB_STATUS (Table 13-12). -/
def tbStatusReg (s : State) : Nat :=
  let t := s.time
  word [(6, match t.pref with
      | none => 0
      | some x => x + 1), (5, b2n (!s.clocks.pllS.lock)), (4, b2n t.slewing), (2, t.active.getD 3),
    (0, match t.tl with
      | .untraced => 0
      | .traced => 1
      | .coasting => 2)]

/-- Bytes 4 to 7 of a clockIdentity whose byte 0 is its highest, as a register holds them: byte 4 in bits [7:0] (R5, R59). -/
def idWord (id : Nat) : Nat := ofLe (le 4 (id % 2 ^ 32)).reverse

/-- The registers of domain `x`. -/
def domReg (s : State) (x o : Nat) : Nat :=
  let d := s.time.dom x
  let q := s.cfg.dom x
  if o = 0x00 then word [(28, d.state.code), (24, q.source), (16, q.ptpDomain), (8, sfield 8 d.logSync)]
  else if o = 0x04 then sfield 32 d.offsetNs
  else if o = 0x08 then (if q.source = 3 then 0 else sfield 32 d.delayNs)
  else if o = 0x0C then sfield 32 d.rate
  else if o = 0x10 then idWord d.gm
  else if o = 0x14 then d.gmHi
  else if o = 0x18 then d.rx
  else if o = 0x1C then d.err
  else 0

/-- TB_ETHp_STATUS.SPEED of a P_MODE (Tables 13-9 and 13-14). -/
def speedCode (mode : Nat) : Nat := if mode = 1 then 2 else if mode = 2 then 1 else 0

/-- The registers of port `p`. -/
def ethReg (s : State) (p o : Nat) : Nat :=
  let e := s.time.eth p
  if o = 0x00 then word [(31, b2n e.link), (29, speedCode (s.cfg.port p).pmode), (28, b2n (e.asked.any (fun a => (tget? e.arp a.1).isNone)))]
  else if o = 0x04 then e.tx
  else if o = 0x08 then e.rx
  else if o = 0x0C then e.rxDrop
  else 0

/-- The TB_ block. -/
def tbReg (s : State) (o : Nat) : Nat :=
  let t := s.time
  if o = 0x00 then s.rawCount % 2 ^ 32
  else if o = 0x04 then t.rawHi
  else if o = 0x08 then t.disSecLo
  else if o = 0x0C then t.disSecHi
  else if o = 0x10 then t.disNs
  else if o = 0x14 then tbStatusReg s
  else if o = 0x18 then sfield 32 ((t.segs.head?.map (·.rho)).getD 0)
  else if o = 0x1C then word [(16, t.stepsBack), (0, t.stepsFwd)]
  else if 0x40 ≤ o && o < 0x80 then domReg s ((o - 0x40) / 0x20) ((o - 0x40) % 0x20)
  else if 0x100 ≤ o && o < 0x120 then ethReg s ((o - 0x100) / 0x10) ((o - 0x100) % 0x10)
  else if 0x200 ≤ o && o < 0x280 then
    let n := tget {} t.streams ((o - 0x200) / 8)
    if o % 8 = 0 then n.dgram.toNat else n.frag
  else 0

/-! ## CK_ (Tables 14-9 to 14-12) -/

/-- CK_STATUS. -/
def ckStatusReg (s : State) : Nat :=
  let c := s.clocks
  let pend := c.pending.getLast?
  word [(27, b2n c.deferred.isSome), (25, c.deferred.getD 0), (24, b2n pend.isSome), (22, (pend.map (·.1)).getD 0), (20, c.plan),
    (8, b2n c.chainSlip), (7, b2n c.syncWait), (6, b2n c.refPresent), (5, b2n c.oscFail), (4, b2n c.safeClock), (3, b2n c.refSel),
    (2, b2n c.pllM.lock), (1, b2n c.pllC.lock), (0, b2n c.pllS.lock)]

/-- The CK_ block. -/
def ckReg (s : State) (o : Nat) : Nat :=
  let c := s.clocks
  let pll (p : Pll) : Nat := word [(16, p.losses), (0, p.band)]
  if o = 0x00 then ckStatusReg s
  else if o = 0x04 then pll c.pllS
  else if o = 0x08 then pll c.pllC
  else if o = 0x0C then pll c.pllM
  else if o = 0x10 then s.field.groups.foldl (fun a e => setBit a e.1 e.2.pllLock) 0
  else if o = 0x14 then word [(16, c.syncEdges), (0, sfield 16 c.markErr)]
  else if o = 0x18 then c.switches
  else if 0x1000 ≤ o && o < 0x1400 then wordAt s.cfg.clocks.body (o - 0x1000)
  else 0

/-! ## FG_ (Tables 04-12 to 04-15, 05-5 to 05-8) -/

def GState.code : GState → Nat
  | .unused => 0 | .powering => 1 | .settling => 2 | .running => 3 | .fenced => 4 | .down => 5 | .permanent => 6

/-- FG_STATUS (Table 04-13). -/
def fgStatusReg (e : Group) : Nat :=
  word [(16, e.limitEvents), (11, b2n e.fuseOpen), (10, b2n e.brownout), (9, b2n e.clamp), (8, b2n e.pllLock),
    (4, ofBits ((e.railLimit.take 4).map (·.isSome))), (0, e.state.code)]

/-- FG_TEMP (Table 04-14). -/
def fgTempReg (s : State) (g : Nat) : Nat := sfield 16 (s.group g).temp

/-- The FG_ block. -/
def fgReg (s : State) (o : Nat) : Nat :=
  if o < 0x1000 then
    let e := s.group (o / 0x100)
    let k := o % 0x100
    if k = 0x00 then fgStatusReg e
    else if k = 0x04 then word [(16, e.crcErr), (0, e.framingErr)]
    else if k = 0x08 then sfield 16 e.temp
    else if 0x10 ≤ k && k < 0x20 then word [(16, nth e.volts ((k - 0x10) / 4)), (0, nth e.currs ((k - 0x10) / 4))]
    else if k = 0x20 then word [(16, sfield 16 e.calTemp), (15, b2n e.stale), (0, e.phase)]
    else if k = 0x24 then e.barrierDelay
    else 0
  else if o < 0x2000 then wordAt s.cfg.fieldBody (o - 0x1000)
  else if o < 0xC000 then wordAt s.cfg.chanBody (o - 0x2000)
  else if o < 0xD000 then
    let t := tget (0, 0) s.field.trims ((o - 0xC000) / 4)
    word [(24, sfield 8 t.2), (0, t.1)]
  else if o < 0xE000 then
    let t := tget (0, 0) s.field.overruns ((o - 0xD000) / 4)
    word [(16, t.1), (0, t.2)]
  else 0

/-! ## SQ_ and AQ_ (Tables 07-8 to 07-10) -/

def SeqState.code : SeqState → Nat
  | .idle => 0 | .armed => 1 | .dead => 2

/-- The SQ_ block over a table of sequencers. -/
def sqReg (q : Folio) (t : Tbl Seq) (o : Nat) : Nat :=
  let i := o / 0x40
  let k := o % 0x40
  match tget? t i with
  | none => if k = 0 && i < 64 then 0x03000000 else 0
  | some e =>
    if (q.seq? i).isNone then (if k = 0 then 0x03000000 else 0)
    else if k = 0x00 then word [(24, e.st.code), (16, e.view.level), (8, e.view.flags), (1, b2n e.disarm), (0, b2n e.view.gate)]
    else if k = 0x04 then e.triggers
    else if k = 0x08 then e.missed
    else if k = 0x0C then e.restarts
    else if k = 0x10 then e.deadPu % 2 ^ 32
    else if k = 0x14 then e.deadHi
    else if k = 0x18 then e.armings % 2 ^ 32
    else 0

/-- The AQ_ block over a table of record definitions. -/
def aqReg (t : Tbl Rec) (o : Nat) : Nat :=
  match tget? t (o / 0x20) with
  | none => 0
  | some e =>
    let k := o % 0x20
    if k = 0x00 then min 4096 e.runs.length
    else if k = 0x04 then e.done
    else if k = 0x08 then e.lost
    else if k = 0x0C then e.invalid
    else if k = 0x10 then e.skipped
    else 0

/-! ## RD_ (Tables 08-13 to 08-17) -/

/-- The RD_ block; `lanes` are the lanes in use. -/
def rdReg (p : Process) (lanes : Tbl Nat) (o : Nat) : Nat :=
  if o < 0x8000 then
    match tget? p.reds (o / 8) with
    | none => 0
    | some e =>
      if o % 8 = 0 then word [(28, e.state), (17, b2n e.asym), (16, b2n e.sat), (0, tget e.lane lanes (o / 8))] else min e.delay (2 ^ 32 - 1)
  else if o < 0x9000 then
    match tget? p.sums ((o - 0x8000) / 8) with
    | none => 0
    | some e => if o % 8 = 0 then sfield 32 e.value else word [(1, b2n e.sat), (0, b2n e.invalid)]
  else if o < 0xA000 then
    match tget? p.lcs ((o - 0x9000) / 4) with
    | none => 0
    | some e => word [(16, e.trueCount), (2, b2n e.unsettled), (1, b2n e.invalid), (0, b2n e.state)]
  else if o = 0xA000 then p.evtState
  else if 0xA040 ≤ o && o < 0xA080 then ((tget? p.evts ((o - 0xA040) / 4)).map (·.dropped)).getD 0
  else 0

/-! ## IM_ (Tables 09-8 to 09-11) -/

/-- The IM_ block; `lane` gives a lane's status code. -/
def imReg (m : Meter) (lane : Nat → Nat) (o : Nat) : Nat :=
  if o < 0x8000 then
    match tget? m.entries (o / 0x20) with
    | none => 0
    | some e =>
      let k := o % 0x20
      if k = 0x00 then word [(28, e.state), (2, b2n e.noStd), (1, b2n e.overrun), (0, b2n e.brk)]
      else if k = 0x04 then min e.blocks (2 ^ 32 - 1)
      else if k = 0x08 then min e.breaks (2 ^ 32 - 1)
      else if k = 0x0C then min e.abandoned (2 ^ 32 - 1)
      else if k = 0x10 then sfield 32 e.mean
      else if k = 0x14 then e.meanHi
      else 0
  else if o < 0x9000 then
    let l := (o - 0x8000) / 8
    if (tget [] m.lanes l).isEmpty then 0
    else if o % 8 = 0 then word [(30, lane l), (0, tget 0 m.rate l)]
    else tget 0 m.coll l
  else if o < 0xA000 then
    let d := tget (0, 0) m.drops ((o - 0x9000) / 4)
    word [(16, d.1), (0, d.2)]
  else 0

/-! ## BK_ and WIN_ (Tables 10-6 to 10-11, 15-10) -/

/-- BK_OWNERb (Table 10-7). GB120 to GB127 are never placed (R323). -/
def ownerReg (s : State) (b : Nat) : Nat :=
  let k := s.banks
  let role := (tget (0, 0) k.role b).1
  let placed := (role ≠ 0 && role ≠ 7 && !k.retired.contains b) || k.moved.any (fun e => e.2 == b)
  let code := if s.fenced 0x06 b then s.unitCode 0x06 b else b2n placed
  word [(28, code), (27, b2n (k.pool.contains b)), (10, tget 0 k.ownerB b), (0, ownerNow s b)]

/-- The granules fenced now. -/
def fencedGranules (s : State) : Nat := (s.faults.fences.filter (fun e => e.1 / 2 ^ 24 = 0x07)).length

/-- A window's registers. -/
def winReg (w : Win) (k : Nat) : Nat :=
  if k = 0x00 then w.shadow.base
  else if k = 0x04 then w.shadow.limit
  else if k = 0x08 then w.shadow.bank
  else if k = 0x0C then word [(5, b2n w.shadow.write), (4, b2n w.shadow.en), (0, w.shadow.rot)]
  else if k = 0x14 then word [(16, w.gen), (1, b2n w.denied), (0, b2n w.active.en)]
  else if k = 0x18 then w.drops
  else 0

/-- The BK_ block. DESIGN CHOICE (assumption 43): with VALID cleared, the other fields of BK_VIOL_LAST and BK_COLL_ADDRd and GRANULE of
BK_DRAM_LAST read 0. -/
def bkReg (s : State) (o : Nat) : Nat :=
  let k := s.banks
  if o < 0x220 then ownerReg s (o / 4)
  else if 0x400 ≤ o && o < 0x620 then
    let e := tget (0, 0) k.ecc ((o - 0x400) / 4)
    word [(16, e.1), (0, e.2)]
  else if o = 0x800 then k.violHost
  else if o = 0x804 then k.violInt
  else if o = 0x808 then k.denied
  else if o = 0x80C then
    match k.violLast with
    | some (w, b, r, ow) => word [(31, 1), (30, b2n w), (22, b), (10, r), (0, ow)]
    | none => 0
  else if 0x900 ≤ o && o < 0x940 then
    let d := (o - 0x900) / 8
    if o % 8 = 0 then tget 0 k.coll d
    else match tget? k.collAddr d with
      | some a => word [(31, 1), (0, a)]
      | none => 0
  else if o = 0xA00 then k.dramCorr
  else if o = 0xA04 then k.dramUncorr
  else if o = 0xA08 then word [(31, b2n k.dramLast.isSome), (19, min 4095 (fencedGranules s)), (0, k.dramLast.getD 0)]
  else if o = 0xA10 then k.schedW
  else if o = 0xA14 then k.schedR
  else if o = 0xA18 then k.freeUsed
  else if 0x8000 ≤ o && o < 0x8200 then winReg (tget {} s.pcie.wins ((o - 0x8000) / 0x20)) (o % 0x20)
  else 0

/-! ## CX_ (Tables 12-5 to 12-8) -/

/-- Split blocks and decompressions that wait for a lane; and the lanes that serve a job. -/
def queuedBlocks (s : State) : Nat := s.jobs.jobs.foldl (fun a j => a + (j.blocks.filter (fun b => b.st == BlockSt.waiting)).length) 0
def busyLanes (s : State) : List Nat :=
  s.jobs.jobs.flatMap (fun j => j.blocks.filterMap (fun b =>
    if b.st == BlockSt.running || b.st == BlockSt.coded then b.lane else none))

/-- The bank that serves lane `i` now. -/
def jobBank (s : State) (i : Nat) : Option Nat := (tget? s.jobs.bank i).map (holderBank s)

/-- The lane is in service (R388, R390): it has a job bank that is not fenced, and has no fence and no fault that waits for one. -/
def laneServing (s : State) (i : Nat) : Bool :=
  match jobBank s i with
  | some b => !s.fenced 0x06 b && !s.fenced 0x09 i && !s.faults.pending.any (fun d => d.unit == ⟨0x09, i⟩)
  | none => false

/-- The CX_ block. -/
def cxReg (s : State) (o : Nat) : Nat :=
  let j := s.jobs
  if o = 0x00 then j.expMax
  else if o = 0x04 then word [(16, min 65535 (queuedBlocks s)), (8, (uniq (busyLanes s)).foldl (fun a i => setBit a i true) 0), (0, b2n j.badWrite)]
  else if 0x10 ≤ o && o < 0x90 then
    let i := (o - 0x10) / 0x10
    let k := o % 0x10
    if k = 0 then
      let bank := (jobBank s i).filter (fun b => !s.fenced 0x06 b)
      word [(30, if s.fenced 0x09 i then s.unitCode 0x09 i else b2n bank.isSome), (0, bank.getD 0xFF)]
    else if k = 4 then tget 0 j.blocks i
    else if k = 8 then tget 0 j.kib i
    else 0
  else if 0x100 ≤ o && o < 0x128 then tget 0 j.fails ((o - 0x100) / 4)
  else 0

/-! ## FT_ (Tables 16-12 to 16-14) -/

/-- Bits [32·i, 32·i + 32) of the fences of a class. -/
def fencedMap (s : State) (cls i : Nat) : Nat := ofBits ((List.range 32).map (fun j => s.fenced cls (32 * i + j)))

/-- The FT_ block. -/
def ftReg (s : State) (o : Nat) : Nat :=
  let f := s.faults
  if o = 0x00 then word [(31, b2n s.storeFenced), (30, b2n f.fwUnfranked), (27, f.lastReset)]
  else if o = 0x04 then f.count
  else if o = 0x08 then word [(16, s.fencedForGood), (0, s.fencedNow)]
  else if o = 0x0C then word [(24, f.lastUnit.cls), (0, f.lastUnit.idx)]
  else if o = 0x10 then word [(24, f.lastEvent), (16, f.lastCause)]
  else if o = 0x14 then s.page.franking
  else if o = 0x18 then s.page.next
  else if o = 0x1C then word [(1, b2n s.page.sealOpen), (0, b2n s.franking.sealOpen)]
  else if 0x100 ≤ o && o < 0x300 then fencedMap s 0x03 ((o - 0x100) / 4)
  else if 0x300 ≤ o && o < 0x324 then fencedMap s 0x04 ((o - 0x300) / 4)
  else 0

/-! ## PW_ (Tables 17-13 to 17-16) -/

/-- Capture memory is fenced for temperature (Table 17-14). -/
def dramFenced (s : State) : Bool :=
  match tget? s.faults.fences (ukey 0x08 0) with
  | some f => f.heat
  | none => false

/-- The PW_ block. -/
def pwReg (s : State) (o : Nat) : Nat :=
  let p := s.power
  if o = 0x00 then
    word [(7, b2n p.shutdown), (6, b2n (dramFenced s)), (5, b2n (s.fenced 0x0F 0)), (4, b2n s.alertLow), (3, b2n s.boot.waveOn),
      (0, ofBits (s.pins.rails.map (fun r => r == RailState.ok)))]
  else if o = 0x04 then
    word [(16, p.alertIsland), (5, b2n p.alertXfer), (4, b2n p.alertDram), (3, b2n p.alertDie), (0, p.alertRail)]
  else if 0x10 ≤ o && o < 0x1C then word [(16, nth p.volts ((o - 0x10) / 4)), (0, nth p.currs ((o - 0x10) / 4))]
  else if o = 0x20 then word [(16, p.total), (0, p.exported)]
  else if o = 0x24 then word [(16, sfield 16 p.die), (0, sfield 16 p.dram)]
  else if 0x100 ≤ o && o < 0x140 then word [(16, nth p.islandIn ((o - 0x100) / 4)), (0, nth p.islandOut ((o - 0x100) / 4))]
  else 0

/-! ## RT_ and doorbells (Table 11-2, R343) -/

/-- The ring has a place: a placed ring of the module's own, a declared delivery ring, or a host ring that every bind has. -/
def ringKind (s : State) (r : Nat) : Nat :=
  match rkind r with
  | 1 => if s.hist.any (fun e => e.2.ring = r) then 1 else 0
  | 2 => if (tget? s.rings.staging r).isSome then 2 else 0
  | 3 => if (s.ring r).declared then 3 else 0
  | 4 => 4
  | 5 => 5
  | 6 => if s.banks.role.isEmpty then 0 else 6
  | 7 => 7
  | _ => 0

/-- Bytes held in staging for a target. -/
def heldFor (s : State) (t : Nat) : Nat := envBytes (stagedFor s t)

/-- The target of a staging ring. -/
def stagingTarget (s : State) (r : Nat) : Nat := ((tget? s.rings.staging r).map (·.1)).getD 0

/-- RT_LINK (Table 11-2). -/
def linkOf (s : State) (r : Nat) : Nat :=
  match ringKind s r with
  | 2 => ((tget? s.rings.staging r).map (·.1)).getD 0xFFFF
  | 3 => (stagingRingOf s r).getD 0xFFFF
  | 4 => r + 256
  | _ => 0xFFFF

/-- The bank address of an offset in the staging area. -/
def stagingAddr (s : State) (off : Nat) : Nat := holderBank s ((stageBanks s).getD (off / 1048576) 0) * 2 ^ 20 + off % 1048576

/-- A module ring's read-only BASE and SIZE (in units of 32 bytes). -/
def moduleRing (s : State) (r : Nat) : Nat × Nat :=
  match ringKind s r with
  | 1 => match s.hist.find? (fun e => e.2.ring = r) with
    | some (_, h) => (((h.runs.head?.map (·.1)).getD 0) * 65536, h.size / 32)
    | none => (0, 0)
  | 2 => match tget? s.rings.staging r with
    | some (_, n, off) => (stagingAddr s off, n / 32)
    | none => (0, 0)
  | _ => (0, 0)

/-- Bank address and size (in units of 32 bytes) of work queue `r`. It stands in the staging area's last 1 MiB, before the dead-letter
reserve (R366); where it stands there and how long it is are free values within that span, since the rules name no more (assumption 41). -/
def workQueueRing (s : State) (r : Nat) : Nat × Nat :=
  let off := (Config.workQueue r 0x08 0).toNat % 240 * 4096
  (stagingAddr s (((stageBanks s).length - 1) * 2 ^ 20 + off), 1 + (Config.workQueue r 0x10 0).toNat % ((983040 - off) / 32))

/-- The ring table entry of ring `r` (R340, R342). A work queue's place within its span, size and indices are free values (assumption 41). -/
def rtReg (s : State) (r k : Nat) : Nat :=
  let g := s.ring r
  let kind := ringKind s r
  let host := isHostRing r && kind ≠ 0
  if k = 0x00 then
    word [(31, if host then b2n g.enable else b2n (kind ≠ 0)), (30, b2n g.error), (29, b2n g.dbBad), (28, b2n g.parity), (24, kind),
      (0, if host then g.vector else 0)]
  else if k = 0x34 then linkOf s r
  else if k = 0x38 then
    (if kind = 3 || kind = 7 then heldFor s r
     else if kind = 2 then heldFor s (stagingTarget s r) else 0) / 32
  else if host then
    if k = 0x04 then word [(31, b2n g.tick), (30, b2n g.mask), (0, g.k)]
    else if k = 0x08 then g.base % 2 ^ 32
    else if k = 0x0C then g.base / 2 ^ 32
    else if k = 0x10 then g.size
    else if k = 0x14 then g.wb % 2 ^ 32
    else if k = 0x18 then g.wb / 2 ^ 32
    else if k = 0x1C then g.prod.toNat
    else if k = 0x20 then g.cons.toNat
    else if k = 0x24 then g.seq.toNat
    else if k = 0x28 then g.dropEnv
    else if k = 0x2C then g.dropUnits
    else if k = 0x30 then g.waiting
    else 0
  else if kind = 2 && (k = 0x1C || k = 0x20) then
    (if k = 0x1C then stageProdOf s (stagingTarget s r) else stageConsOf s (stagingTarget s r)).toNat
  else if kind = 6 && (k = 0x1C || k = 0x20) then (Config.workQueue r k s.now).toNat
  else
    let b := if kind = 6 then workQueueRing s r else moduleRing s r
    if k = 0x08 then b.1 % 2 ^ 32
    else if k = 0x0C then b.1 / 2 ^ 32
    else if k = 0x10 then b.2
    else 0

/-- The doorbell of ring `r` reads the index last accepted (R343). -/
def doorbellReg (s : State) (r o : Nat) : Nat := if isHostRing r && o = 0 then (s.ring r).doorbell.toNat else 0

/-! ## BAR0 (R92, R464) -/

/-- The block that answers before BOUND (R92). -/
def earlyBlock (o : Nat) : Bool :=
  decide (o < 0x010000) || (0x0A0000 ≤ o && o < 0x0C0000) || (0x400000 ≤ o && o < 0x440000)

/-- The word at a BAR0 offset that is a multiple of 4. -/
def bar0Word (s : State) (o : Nat) : Nat :=
  if o < 0x010000 then identReg s o
  else if o < 0x020000 then tbReg s (o - 0x010000)
  else if o < 0x030000 then ckReg s (o - 0x020000)
  else if o < 0x040000 then fgReg s (o - 0x030000)
  else if o < 0x050000 then sqReg s.cfg (s.shown.getD s.seqs) (o - 0x040000)
  else if o < 0x060000 then aqReg ((s.snap.map (·.recs)).getD []) (o - 0x050000)
  else if o < 0x070000 then rdReg s.proc s.rings.redLane (o - 0x060000)
  else if o < 0x080000 then imReg s.meter (s.unitCode 0x02) (o - 0x070000)
  else if o < 0x090000 then bkReg s (o - 0x080000)
  else if o < 0x0A0000 then cxReg s (o - 0x090000)
  else if o < 0x0B0000 then ftReg s (o - 0x0A0000)
  else if o < 0x0C0000 then pwReg s (o - 0x0B0000)
  else if o < 0x100000 then 0
  else if o < 0x200000 then rtReg s ((o - 0x100000) / 64) (o % 64)
  else if o < 0x220000 then doorbellReg s ((o - 0x200000) / 8) (o % 8)
  else if o < 0x300000 then 0
  else if o < 0x400000 then wordAt s.mapBytes (o - 0x300000)
  else if o < 0x440000 then stGet s.franking.mem (o - 0x400000) 4
  else if o < 0x500000 then 0
  else if o < 0x1000000 then wordAt s.boot.image (o - 0x500000)
  else 0

/-- What a read of a BAR0 word returns (R92). -/
def bar0Read (s : State) (o : Nat) : Nat := if s.isBound || earlyBlock o then bar0Word s o else 0


/-! ## Configuration space (R460 to R463) -/

/-- A BAR register after the mask of its size (Table 15-5). -/
def barReg (s : State) (i : Nat) : Nat :=
  let v := nth s.pcie.bars i
  if i = 0 then v / 2 ^ 24 * 2 ^ 24 + 4
  else if i = 2 then v / 2 ^ 27 * 2 ^ 27 + 12
  else if i = 4 then v / 2 ^ 16 * 2 ^ 16 + 4
  else v

/-- Status, bits [31:16] of the word at 0x04: error bits, Capabilities List, Interrupt Status. -/
def statusReg (s : State) : Nat := s.pcie.status % 65536 + 16 + 8 * b2n (!s.pcie.intx.isEmpty)

/-- The word at an offset of configuration space (Tables 15-2 to 15-4). The registers of the link capabilities that the specification
leaves to the standard read zero behind their headers. -/
def cfgRead (s : State) (o : Nat) : Nat :=
  let p := s.pcie
  if o = 0x00 then 0x10241F7C
  else if o = 0x04 then word [(16, statusReg s), (10, b2n p.intxDisable), (8, b2n p.serr), (6, b2n p.perr), (2, b2n p.bme), (1, b2n p.mse)]
  else if o = 0x08 then 0x118000A1
  else if o = 0x0C then p.cacheLine
  else if 0x10 ≤ o && o < 0x28 then barReg s ((o - 0x10) / 4)
  else if o = 0x2C then s.boot.subsysVid + 65536 * s.boot.subsysId
  else if o = 0x34 then 0x40
  else if o = 0x3C then 0x100 + p.intLine
  else if o = 0x40 then 0x00036001
  else if o = 0x44 then word [(3, 1), (0, if p.d3 then 3 else 0)]
  else if o = 0x60 then 0x0002B010
  else if o = 0x64 then 0x10008022
  else if o = 0x68 then word [(16, p.devSts), (0, p.devCtl)]
  else if o = 0x6C then word [(18, 1), (15, 2), (10, 2), (4, 16), (0, 5)]
  else if o = 0x70 then p.linkCtl
  else if o = 0x84 then word [(17, 1), (16, 1), (11, 1), (4, 1), (0, 15)]
  else if o = 0x88 then p.devCtl2
  else if o = 0x8C then 0x0000003E
  else if o = 0xB0 then word [(31, b2n p.msixEn), (30, b2n p.msixFnMask), (16, 0x7FF), (0, 0x0011)]
  else if o = 0xB4 then 0x00000004
  else if o = 0xB8 then 0x00008004
  else if o = 0x100 then 0x14820001
  else if o = 0x104 then p.aerUnc
  else if o = 0x108 then p.aerUncMask
  else if o = 0x10C then p.aerUncSev
  else if o = 0x110 then p.aerCor
  else if o = 0x114 then p.aerCorMask
  else if o = 0x118 then 0xA0 + p.aerCtl + (p.aerFirst.filter (bit p.aerUnc)).getD 0
  else if 0x11C ≤ o && o < 0x12C && o % 4 = 0 then
    (match p.aerLog with
    | some n => (Config.headerLog n ((o - 0x11C) / 4)).toNat
    | none => 0)
  else if o = 0x148 then 0x15810003
  else if o = 0x14C then factorySerial s.franking.mem % 2 ^ 32
  else if o = 0x150 then factorySerial s.franking.mem / 2 ^ 32
  else if o = 0x158 then 0x1681000F
  else if o = 0x15C then word [(31, b2n p.atsEn), (6, 1), (5, 1)]
  else if o = 0x168 then 0x17010018
  else if o = 0x16C then p.ltrMax + 65536 * p.ltrNoSnoop
  else if o = 0x170 then 0x1801001E
  else if o = 0x174 then word [(19, 4), (16, 1), (8, 10), (0, 0x1F)]
  else if o = 0x178 then p.l1Ctl1
  else if o = 0x17C then p.l1Ctl2
  else if o = 0x180 then 0x1B010019
  else if o = 0x1B0 then 0x1E010026
  else if o = 0x1E0 then 0x23010027
  else if o = 0x230 then 0x3001002A
  else if o = 0x300 then 0x0001000B
  else if o = 0x304 then 0x02010001
  else if o = 0x308 then modStateReg s
  else if o = 0x30C then bindErrorReg s
  else if o = 0x310 then lidReg s
  else if o = 0x314 then s.boot.folioSerial % 2 ^ 32
  else if o = 0x318 then s.boot.folioSerial / 2 ^ 32
  else 0

end Sys2Proof.Machine
end

