-- ==== Sys2Proof/Machine/Delivery.lean ====
section
/-!
DEFINITION. Delivery into host rings (R28, R30, R236 to R248, R354, R358), notification (R346), and STATS_READ (Table 11-10).
-/
namespace Sys2Proof.Machine

/-- A write to a host ring, with the end of its address translation: a translation that fails stops the ring, and what is ready waits
(R469, Table 15-9). -/
def onRing (s : State) (r : Nat) (how : ReadEnd) (k : State → State) : State :=
  if how == ReadEnd.translationError then (if s.pcie.atsEn && s.canWriteRing r then failRing s r else s) else k s

/-- The delivery ring of a record definition's envelopes. -/
def recRingNo (s : State) (r : Nat) : Nat := (((s.cfg.rec? r).bind (recRing s.cfg)).map deliveryRing).getD 0

/-- The envelope assembler reads the staged envelope `e` at the head of ring `r` once it fits, and writes it; a double-bit error in it
drops it instead (R28, R30, R336). -/
def assemble (s : State) (r : Nat) (e : Envelope) (bad : Option (Nat × Nat)) : State :=
  match bad with
  | some x =>
    if s.canWriteRing r && (s.ring r).fits e.length && (stagedAt s x.1 x.2 == some (r, e)) then bankError s.released s x else writeHead s r e id
  | none => writeHead s r e id

/-- ENVELOPE_WRITE: the staged envelope at the head of a delivery ring, once it fits (R28, R30, R336). -/
def execEnvelopeWrite (r : Nat) (bad : Option (Nat × Nat)) (how : ReadEnd) (s : State) : Res :=
  .next (match headItem s r with
    | some (.staged e) => if rkind r = 3 then onRing s r how (fun s => ltrCheck (assemble s r e bad)) else s
    | _ => s)

/-- RECORD_PART_WRITE (R236 to R241). -/
def execRecordPartWrite (r : Nat) (bad : Option Nat) (how : ReadEnd) (s : State) : Res :=
  .next (onRing s (recRingNo s r) how (fun s => recordPartWrite s r bad))

/-- STREAM_ENVELOPE_WRITE (R244 to R246). -/
def execStreamEnvelopeWrite (r : Nat) (bad : Option Nat) (how : ReadEnd) (s : State) : Res :=
  .next (onRing s (recRingNo s r) how (fun s => streamWrite s r bad))

/-- MEASURE (R248). -/
def execMeasure (r : Nat) (how : ReadEnd) (s : State) : Res :=
  .next (onRing s (recRingNo s r) how (fun s => measureWrite s r))

/-- SPAN_READOUT_WRITE (R247). -/
def execSpanReadoutWrite (r : Nat) (bad : Option Nat) (how : ReadEnd) (s : State) : Res :=
  .next (if rkind r = 3 then onRing s r how (fun s => readoutWrite s (r - 7680) bad) else s)

/-- COMPLETION: the COMPLETION envelope at the head of a delivery ring (R354); on a completion ring, the entries that wait for it. -/
def execCompletion (r : Nat) (how : ReadEnd) (s : State) : Res :=
  .next (match headItem s r with
    | some (.completion e) => if rkind r = 3 then onRing s r how (fun s => writeHead s r e id) else s
    | _ => if rkind r = 5 then onRing s r how writeCompletions else s)

/-- DEAD_LETTER_DRAIN: the reserve drains into ring 16,383 (R358). -/
def execDeadLetterDrain (how : ReadEnd) (s : State) : Res :=
  .next (match headItem s dlRing with
    | some (.staged e) => onRing s dlRing how (fun s => writeHead s dlRing e id)
    | _ => s)

/-! ## Notification -/

/-- One message for every ring of a vector that is due and not masked, be it enabled or not (R346). -/
def notifyVector (s : State) (v : Nat) : State :=
  let s := signal s v
  { s with rings := { s.rings with rings := tmap s.rings.rings (fun _ g =>
      if g.vector = v && g.isDue && !g.mask then { g with waiting := 0, due := false } else g) } }

/-- The ring notifies (R346). -/
def notifies (r : Nat) : Bool := rkind r = 3 || rkind r = 5 || rkind r = 7

/-- RING_NOTIFICATION. -/
def execRingNotification (r : Nat) (s : State) : Res :=
  let g := s.ring r
  .next (if notifies r && g.isDue && !g.mask then notifyVector s g.vector else s)

/-! ## STATS_READ -/

/-- The word of a statistics block as it stood at the last frame release. -/
def statsWord (s : State) (block o : Nat) : Nat :=
  let p := s.snap.getD s.snapNow
  if block = 4 then sqReg s.cfg p.seqs o
  else if block = 5 then aqReg p.recs o
  else if block = 6 then rdReg p.proc p.lanes o
  else imReg p.meter (tget 1 p.tdc) o

/-- The first `n` bytes of a statistics block. -/
def statsBytes (s : State) (block n : Nat) : Bytes :=
  ((List.range (cdiv n 4)).flatMap (fun i => le 4 (statsWord s block (4 * i)))).take n

/-- STATS_READ copies the block, or fails with its destination (R469). -/
def statsStart (how : ReadEnd) (s : State) (c : Nat × Bytes) : State :=
  let b := fld c.2 8 1
  let n := fld c.2 12 4
  orRefuse s c (judge s c.2 [(8, 1), (12, 4), (16, 8)] (decide (4 ≤ b) && decide (b ≤ 7)) (s.permits 4) (decide (n ≤ 65536))) (fun s =>
    if n = 0 then complete s c 1 0
    else if how == ReadEnd.translationError && s.pcie.atsEn then complete s c 5 0 512
    else complete (hostWrite s (fld c.2 16 8) (statsBytes s b n)) c 0 n)

/-- STATS_READ. -/
def execStatsRead (how : ReadEnd) (s : State) : Res :=
  if s.canIssue then startCmd s (fun e => opOf e = 0x30) (statsStart how) else .next s

end Sys2Proof.Machine
end

