-- ==== Sys2Proof/Machine/Jobs.lean ====
section
/-!
DEFINITION. Compression and decompression jobs (R373 to R395): their commands, host reads (R376, R469), lanes (R390, R391), and how a
job ends (R387 to R389).
-/
namespace Sys2Proof.Machine

/-! ## Host reads (R376, R458) -/

/-- Max_Read_Request_Size, from Device Control bits [14:12]. -/
def State.mrrs (s : State) : Nat := min 4096 (128 * 2 ^ (s.pcie.devCtl / 4096 % 8))

/-- Reads that may be outstanding (Table 15-1): 10-Bit Tag Requester Enable, Extended Tag Field Enable, or neither. -/
def State.tagLimit (s : State) : Nat := if bit s.pcie.devCtl2 12 then 512 else if bit s.pcie.devCtl 8 then 256 else 32

/-- The lowest tag that is free. -/
def freeTag (s : State) : Option Nat :=
  (List.range s.tagLimit).find? (fun t => (tget? s.pcie.reads t).isNone && !s.pcie.retired.contains t)

/-- Input bytes of a job's split block, where the host holds them: the whole source of a decompression. -/
def Job.blockLen (j : Job) (idx : Nat) : Nat := if j.inflate then j.srcLen else min 1048576 (j.srcLen - idx * 1048576)

/-- How far the bytes received reach from offset `lo` of the source without a gap. -/
def reach : Nat → Tbl Bytes → Nat
  | lo, [] => lo
  | lo, (o, b) :: l => if o = lo then reach (lo + b.length) l else reach lo l

/-- Bytes of a split block's input that have arrived from its start without a gap. -/
def Job.arrived (j : Job) (idx : Nat) : Nat := min (j.blockLen idx) (reach (idx * 1048576) j.got - idx * 1048576)

/-- Room in the input buffer of 96 KiB (R391). A compression holds the DEFLATE block that it codes, at most 65,535 bytes, and the 32 KiB before
it; a decompression takes its input as it arrives. -/
def Job.room (j : Job) (b : Block) : Nat :=
  let n := j.blockLen b.idx
  let a := j.arrived b.idx
  let coded := if j.inflate || a = n then a else a / 65535 * 65535
  98304 - (b.asked - (coded - (if j.inflate then 0 else min coded 32768)))

/-- The next read of a running job: job, split block, offset in the source, and length, which stays within one page and fits the input
buffer. -/
def nextRead (s : State) : Option (Job × Block × Nat × Nat) :=
  s.jobs.jobs.findSome? (fun j =>
    if j.kind ≠ 0 || j.readFail.isSome then none
    else j.blocks.findSome? (fun b =>
      let n := j.blockLen b.idx
      if b.st == BlockSt.running && b.asked < n && j.room b ≠ 0 then
        let off := b.idx * 1048576 + b.asked
        some (j, b, off, min (min (min s.mrrs (n - b.asked)) (4096 - (j.srcB + off) % 4096)) (j.room b))
      else none))

def modJob (s : State) (id : Nat) (f : Job → Job) : State :=
  { s with jobs := { s.jobs with jobs := s.jobs.jobs.map (fun j => if j.id = id then f j else j) } }

def modBlock (s : State) (id idx : Nat) (f : Block → Block) : State :=
  modJob s id (fun j => { j with blocks := j.blocks.map (fun b => if b.idx = idx then f b else b) })

/-- Issues reads while tags and running jobs want them. -/
def issueReads : Nat → State → State
  | 0, s => s
  | k + 1, s =>
    if !s.canIssue then s
    else match freeTag s, nextRead s with
      | some t, some (j, b, off, n) =>
        let addr := j.srcB + off
        let s := translate s addr
        let s := emit s (.readReq t (hostAddr s addr) n (reqAttr s))
        let s := { s with pcie := { s.pcie with reads := tput s.pcie.reads t { job := j.id, off := off, len := n, addr := addr, dead := false } } }
        issueReads k (modBlock s j.id b.idx (fun x => { x with asked := x.asked + n }))
      | _, _ => s

/-- Reads are issued as far as the tags reach. -/
def askMore (s : State) : State := issueReads 512 s

/-- The split block's input has all arrived. -/
def inputHere (s : State) (j : Job) (b : Block) : Bool :=
  j.kind ≠ 0 || (decide (j.blockLen b.idx ≤ b.asked) &&
    !s.pcie.reads.any (fun e => e.2.job = j.id && b.idx * 1048576 ≤ e.2.off && e.2.off < b.idx * 1048576 + j.blockLen b.idx))

/-- A read is over: its tag is free, and an Invalidate Request no longer waits for it (R470). -/
def dropRead (s : State) (tag : Nat) : State :=
  { s with pcie := { s.pcie with reads := tdel s.pcie.reads tag
                                 invals := s.pcie.invals.map (fun v => { v with waits := v.waits.filter (· != tag) }) } }

/-- G, the output guard of a decompression (R385). -/
def Job.outputGuard (j : Job) : Nat := min j.dstLen (j.guard * j.srcLen)

/-- A stream produces the output byte at offset `n` before it ends or fails. -/
def producesByte (zlib : Bool) (n : Nat) (b : Bytes) : Bool :=
  match inflatePart true zlib n b with
  | .error .limit => true
  | _ => false

/-- What a decompression meets in the bytes that have arrived: a status, or nothing yet. The first failure in stream order decides; a read
that failed is met where its first byte would stand, and a translation of the destination that fails, at output byte `dst`, as that byte is
produced (R385 to R387). -/
def streamFailure (j : Job) (dst : Option Nat) : Option (Nat × Nat) :=
  let n := reach 0 j.got
  let input := j.got.flatMap (fun e => if e.1 < n then e.2 else [])
  let cut : Option (Nat × Nat) := if j.readFail = some n then some (5, 512) else none
  if dst.any (fun d => decide (d < j.outputGuard) && producesByte j.zlib d input) then some (5, 512)
  else match inflatePart true j.zlib j.outputGuard input with
  | .error .limit => some (3, 0)
  | .error .malformed => some (4, 0)
  | .error .more => if j.srcLen ≤ n then some (4, 0) else cut
  | .ok (_, rest) => if rest.isEmpty then cut else some (4, 0)

/-- Ends a running decompression as soon as its stream fails. -/
def judgeStream (s : State) (id : Nat) (dst : Option Nat) : State :=
  match s.jobs.jobs.find? (fun j => j.id = id && j.inflate) with
  | none => s
  | some j => match streamFailure j dst with
    | some (status, mask) => failJobs s (fun x => x.id = id) status mask
    | none => s

/-- A read of a running job has failed (R386, R469): a compression ends, and a decompression ends where it meets the missing byte. -/
def readFailed (s : State) (r : ReadReq) : State :=
  match s.jobs.jobs.find? (fun j => j.id = r.job) with
  | none => s
  | some j =>
    if j.inflate then
      judgeStream (modJob s r.job (fun j => { j with readFail := some (min r.off (j.readFail.getD r.off)) })) r.job none
    else failJobs s (fun j => j.id = r.job) 5 512

/-- The data of a read has arrived. Only with ATS on can the translation of the destination fail. -/
def readArrived (s : State) (r : ReadReq) (data : Arrival) : State :=
  judgeStream (modJob s r.job (fun j => { j with got := tput j.got r.off (sub data.bytes 0 r.len) })) r.job
    (if s.pcie.atsEn then data.dstFails else none)

/-- The completion or the timeout of a tag of an ended epoch: nothing but the tag's return (R479). -/
def dropRetired (s : State) (tag : Nat) : State :=
  askMore { s with pcie := { s.pcie with retired := s.pcie.retired.filter (· != tag) } }

/-- HOST_READ_COMPLETION: the data is used, discarded (R477), or fails its job (R469); a tag that is not outstanding is unexpected
(Table 15-14), unless an ended epoch has retired it (R479). -/
def execHostReadCompletion (tag : Nat) (how : ReadEnd) (data : Arrival) (s : State) : Res :=
  match tget? s.pcie.reads tag with
  | none => .next (if s.pcie.retired.contains tag then dropRetired s tag else if s.pcie.linkUp then aer s 16 else s)
  | some r =>
    let s := noteRead (dropRead s tag) how
    if r.dead then .next (askMore s)
    else .next (askMore (if how == ReadEnd.ok then readArrived s r data else readFailed s r))

/-- HOST_READ_TIMEOUT (R469); the timeout of a discarded read is not logged (R477). -/
def execHostReadTimeout (tag : Nat) (s : State) : Res :=
  match tget? s.pcie.reads tag with
  | none => .next (if s.pcie.retired.contains tag then dropRetired s tag else s)
  | some r =>
    let s := dropRead s tag
    .next (askMore (if r.dead then s else readFailed (noteRead s .timeout) r))

/-! ## The start of a job (R373 to R379) -/

/-- Job parameters of an entry (Table 12-2), its source not yet taken. -/
def jobOf (s : State) (c : Nat × Bytes) (inflate : Bool) : Job :=
  let e := c.2
  let f := fld e 9 1
  { id := s.jobs.nextId, cmd := c, inflate := inflate, zlib := bit f 0, precode := bit f 1, cmode := bits f 2 2, kind := fld e 8 1
    srcA := fld e 12 4, srcB := fld e 16 8, srcLen := fld e 24 4, dst := fld e 32 8, dstLen := fld e 40 4, guard := s.jobs.expMax
    got := [], plain := [], spans := [], readFail := none, blocks := [], written := 0 }

/-- The form of the job fields (R379). -/
def jobForm (s : State) (j : Job) (e : Bytes) : Bool :=
  let f := fld e 9 1
  decide (j.kind ≤ 2) && decide (f < 16) && j.cmode ≠ 3 &&
  (!j.inflate || (j.kind = 0 && !j.precode && j.cmode = 0)) &&
  (!j.precode || (j.kind = 1 && streamTrans s.cfg j.srcA)) &&
  (j.kind ≠ 0 || j.srcA = 0) && (j.kind ≠ 2 || j.srcB = 0)

/-- The units that a job names exist (R379). -/
def jobRange (s : State) (j : Job) : Bool :=
  (j.kind ≠ 1 || ((storedStreams s.cfg).contains j.srcA && decide (j.srcB < 2 ^ 40))) &&
  (j.kind ≠ 2 || ((tget? s.rings.staging j.srcA).isSome && decide (j.srcLen ≤ 1048576)))

/-- One block of a history source, pre-coded where the job says so (R374, R393). -/
def historyBlock (s : State) (j : Job) (f : HistFrame) : Bytes :=
  let b := (blockOf s j.srcA 0 none f).bytes
  if j.precode && !f.invalid then
    let d := precode f.items
    b.take 16 ++ le 4 d.length ++ (b.drop 20).take 4 ++ padTo 8 d
  else b

/-- Envelopes, oldest first, as long as the next one fits (R375). The SEQ of an envelope that is still staged is not decided (R351): a
free value stands in it. -/
def takeStaged : List Envelope → Nat → State → Bytes × State
  | [], _, s => ([], s)
  | e :: l, room, s =>
    if room < e.length then ([], s)
    else
      let (v, s) := takeFree s
      let (b, s) := takeStaged l (room - e.length) s
      (e.bytes (v.setWidth 32) ++ b, s)

/-- The job begins with its source: its split blocks wait for lanes (R381, R390). -/
def queueJob (s : State) (j : Job) (len : Nat) : State :=
  let n := if j.inflate then 1 else cdiv len 1048576
  let j := { j with blocks := (List.range n).map (fun i => { idx := i, lane := none, st := .waiting, asked := 0, out := [] }) }
  { s with jobs := { s.jobs with jobs := s.jobs.jobs ++ [j], nextId := s.jobs.nextId + 1 } }

/-- A lane is in service. -/
def anyLane (s : State) : Bool := (List.range 8).any (laneServing s)

/-- The blocks of frames one after the other: each frame's count, and where its block begins and ends. -/
def spansOf : Nat → List (Nat × Nat) → List (Nat × Nat × Nat)
  | _, [] => []
  | o, (c, n) :: l => (c, o, o + n) :: spansOf (o + n) l

/-- Counts a job that completes with a status of Table 12-8. -/
def countFail (s : State) (status : Nat) : State :=
  { s with jobs := { s.jobs with fails := tmod 0 s.jobs.fails status (fun n => satAdd 32 n 1) } }

/-- A job ends before it has begun: CX_FAIL counts its status (R395). -/
def failStart (s : State) (c : Nat × Bytes) (status : Nat) : State := complete (countFail s status) c status 0

/-- The effect of a job command that its checks let pass. A staging job for which no whole envelope fits is EMPTY (R375) also while no lane is
in service: R375 and R390 give no order (DESIGN CHOICE, log entry 20). -/
def jobBegin (s : State) (j : Job) : State :=
  if j.srcLen = 0 then complete s j.cmd 1 0
  else if j.kind = 0 then (if anyLane s then queueJob s j j.srcLen else failStart s j.cmd 5)
  else if j.kind = 1 then
    match spanFrames s j.srcA j.srcB j.srcLen with
    | none => failStart s j.cmd 8
    | some (a, b) =>
      if !anyLane s then failStart s j.cmd 5
      else
        let fs := (upFrom a (b + 1 - a)).filterMap (fun (c : Nat) => heldFrame s j.srcA (c : Int))
        let bs := fs.map (historyBlock s j)
        let plain := bs.flatten
        queueJob s { j with plain := plain, spans := spansOf 0 ((upFrom a bs.length).zip (bs.map (·.length))) } plain.length
  else
    let (plain, t) := takeStaged (stagedFor s (((tget? s.rings.staging j.srcA).map (·.1)).getD 0)) j.srcLen s
    if plain.isEmpty then complete s j.cmd 1 0
    else if !anyLane s then failStart s j.cmd 5
    else queueJob t { j with plain := plain } plain.length

/-- The first check of R363 that a job command fails, as a status. -/
def jobJudge (inflate : Bool) (s : State) (c : Nat × Bytes) : Option Nat :=
  let j := jobOf s c inflate
  judge s c.2 [(8, 1), (9, 1), (12, 4), (16, 8), (24, 4), (32, 8), (40, 4)] (jobForm s j c.2) (s.permits (if inflate then 3 else 2))
    (jobRange s j)

/-- COMPRESS and DECOMPRESS in common (R378, R379). A job command that ends with RANGE counts in CX_FAIL (R395). -/
def jobStart (inflate : Bool) (s : State) (c : Nat × Bytes) : State :=
  let j := jobOf s c inflate
  let s := if jobJudge inflate s c = some 8 then countFail s 8 else s
  orRefuse s c (jobJudge inflate s c) (fun s => jobBegin s j)

/-- COMPRESS. -/
def execCompress (s : State) : Res :=
  if s.canIssue then startCmd s (fun e => opOf e = 0x20) (jobStart false) else .next s

/-- DECOMPRESS. -/
def execDecompress (s : State) : Res :=
  if s.canIssue then startCmd s (fun e => opOf e = 0x21) (jobStart true) else .next s

/-! ## Lanes (R390, R391) -/

/-- The lowest-numbered idle lane in service. -/
def idleLane (s : State) : Option Nat := (List.range 8).find? (fun i => laneServing s i && !(busyLanes s).contains i)

/-- The first split block that waits, by job and then by block. -/
def firstWaiting (s : State) : Option (Job × Block) :=
  s.jobs.jobs.findSome? (fun j => (j.blocks.find? (fun b => b.st == BlockSt.waiting)).map (fun b => (j, b)))

/-- SPLIT_BLOCK_DISPATCH (R390): with no lane in service the job fails; while the core die is fenced lanes take no new work. -/
def execSplitBlockDispatch (s : State) : Res :=
  if !s.coreClock || s.fenced 0x0F 0 then .next s
  else match firstWaiting s with
    | none => .next s
    | some (j, b) =>
      if !anyLane s then .next (failJobs s (fun x => x.id = j.id) 5 0)
      else match idleLane s with
        | none => .next s
        | some i => .next (askMore (modBlock s j.id b.idx (fun x => { x with lane := some i, st := .running })))

/-- The plain bytes of a split block. -/
def blockPlain (j : Job) (idx : Nat) : Bytes :=
  if j.kind = 0 then
    let lo := idx * 1048576
    (j.got.filter (fun e => lo ≤ e.1 && e.1 < lo + j.blockLen idx)).flatMap (·.2)
  else (j.plain.drop (idx * 1048576)).take 1048576

/-- The whole plain input. -/
def jobPlain (j : Job) : Bytes := if j.kind = 0 then j.got.flatMap (·.2) else j.plain

/-- The bytes that a split block adds to the destination: its output, with the zlib header before the first and the Adler-32 of the plain
input after the last (R380). -/
def blockOutput (j : Job) (b : Block) : Bytes :=
  let last := b.idx + 1 = j.blocks.length
  (if j.zlib && !j.inflate && b.idx = 0 then [0x78, 0x01] else []) ++ b.out ++
    (if j.zlib && !j.inflate && last then (le 4 (adler32 (jobPlain j))).reverse else [])

/-- A job succeeds: RESULT is what it wrote, and each lane counts its plain KiB (R387, R395). A job that fails counts none of those that it
had processed (DESIGN CHOICE, log entry 20). -/
def jobDone (s : State) (j : Job) : State :=
  let kib := (List.range 8).map (fun i => (i, (j.blocks.filter (fun b => b.lane = some i)).foldl (fun a b =>
    a + (if j.inflate then j.written else (blockPlain j b.idx).length)) 0 / 1024))
  let s := { s with jobs := { s.jobs with kib := (kib.filter (fun e => e.2 ≠ 0)).foldl (fun t e => tmod 0 t e.1 (fun n => satAdd 32 n e.2)) s.jobs.kib } }
  finishJob s j 0 j.written 0

/-- The outputs that are the next to be written go to the destination in order (R389, R391). -/
def writeOutputs : Nat → State → Nat → State
  | 0, s, _ => s
  | k + 1, s, id =>
    match s.jobs.jobs.find? (fun j => j.id = id) with
    | none => s
    | some j =>
      match j.blocks.find? (fun b => !(b.st == BlockSt.written)) with
      | none => jobDone s j
      | some b =>
        if !(b.st == BlockSt.coded) then s
        else
          let o := blockOutput j b
          if j.dstLen < j.written + o.length then finishJob s j 2 0 0
          else
            let s := hostWrite s (j.dst + j.written) o
            let s := modBlock s id b.idx (fun x => { x with st := .written, out := [] })
            writeOutputs k (modJob s id (fun j => { j with written := j.written + o.length })) id

/-- A split block or a decompression has been coded: its output, or how the job fails (R384 to R386). -/
def codeBlock (j : Job) (b : Block) : Except Nat Bytes :=
  if j.inflate then
    match inflatePart true j.zlib j.outputGuard (blockPlain j 0) with
    | .ok (o, rest) => if rest.isEmpty then .ok o else .error 4
    | .error .limit => .error 3
    | .error .malformed => .error 4
    | .error .more => .error 4
  else .ok (deflateSplit j.cmode (b.idx + 1 = j.blocks.length) (blockPlain j b.idx))

/-- A history source still holds every frame whose block the split block reads (R374). -/
def sourceHeld (s : State) (j : Job) (b : Block) : Bool :=
  let lo := b.idx * 1048576
  j.kind ≠ 1 || (j.spans.filter (fun e => decide (e.2.1 < lo + 1048576) && decide (lo < e.2.2))).all (fun e =>
    (heldFrame s j.srcA (e.1 : Int)).isSome && decide (oldestHeld s j.srcA ≤ (e.1 : Int)))

/-- The split block is the lowest one whose output has not been written (R391). -/
def isLowest (j : Job) (b : Block) : Bool := (j.blocks.find? (fun x => !(x.st == BlockSt.written))).map (·.idx) == some b.idx

/-- A lane's output goes to the destination, or fits the job bank and the 4 KiB lane buffer; otherwise the lane stops coding (R391). -/
def outputFits (j : Job) (b : Block) (o : Bytes) : Bool := isLowest j b || decide (o.length ≤ 1048576 + 4096)

/-- A split block has been coded: its lane counts it, and what can be written is (R391, R395). CX_BLOCKS counts it although its job may fail
later, and a decompression only where it decodes well (DESIGN CHOICE, log entry 20). -/
def blockCoded (s : State) (j : Job) (b : Block) (lane : Nat) (o : Bytes) : State :=
  let s := modBlock s j.id b.idx (fun x => { x with st := .coded, out := o })
  let s := { s with jobs := { s.jobs with blocks := tmod 0 s.jobs.blocks lane (fun n => satAdd 32 n 1) } }
  askMore (writeOutputs (j.blocks.length + 1) s j.id)

/-- SPLIT_BLOCK_COMPLETE (R388 to R391): the lane's coding ends, with a lane fault, an uncorrectable error of its source or a translation
error of its destination where one is met. A fault of a serving lane or of its job bank that waits for its fence fails the job (R387). -/
def execSplitBlockComplete (lane : Nat) (fault : Bool) (trouble : BlockTrouble) (s : State) : Res :=
  match s.jobs.jobs.findSome? (fun j => (j.blocks.find? (fun b => b.lane = some lane && b.st == BlockSt.running)).map (fun b => (j, b))) with
  | none => .next s
  | some (j, b) =>
    if fault then .next (detect (failJobs s (fun x => x.id = j.id) 5 (2 ^ lane)) ⟨0x09, lane⟩ 0x0F 0 s.released)
    else if servedBad s j then .next (failJobs s (fun x => x.id = j.id) 5 0)
    else if !(inputHere s j b && s.canIssue && (j.kind ≠ 1 || s.canReadHistory)) then .next s
    else if j.kind = 1 && trouble.bad.isSome then .next (failJobs (readFault s trouble.bad) (fun x => x.id = j.id) 5 256)
    else if trouble.dstFails && s.pcie.atsEn && isLowest j b then .next (failJobs s (fun x => x.id = j.id) 5 512)
    else if !sourceHeld s j b then .next (failJobs s (fun x => x.id = j.id) 8 0)
    else match codeBlock j b with
      | .error st => .next (failJobs s (fun x => x.id = j.id) st 0)
      | .ok o => .next (if outputFits j b o then blockCoded s j b lane o else s)

end Sys2Proof.Machine
end

