-- ==== Sys2Proof/Machine/Endpoint.lean ====
section
/-!
DEFINITION. The endpoint's own events: Bus Master Enable and power states (R477 to R481), the endpoint resets (R331, R479, Table 15-13),
address translation (R468, R470), unmasking (R466), INTA (R467), LTR (R481) and unsupported requests (R482).
-/
namespace Sys2Proof.Machine

/-- Changes the endpoint's registers. -/
def modPcie (s : State) (f : Pcie → Pcie) : State := { s with pcie := f s.pcie }

/-! ## Interrupts (R466, R467) -/

/-- Clears the mask of a vector or of the function. -/
def clearMask (s : State) (t : MaskTarget) : State :=
  match t with
  | .vector v => if v < 2048 then modPcie s (fun p => { p with msix := tmod {} p.msix v (fun e => { e with mask := false }) }) else s
  | .function => modPcie s (fun p => { p with msixFnMask := false })

/-- MSIX_UNMASK: a memory write to the MSI-X table, or a configuration write of the function mask. -/
def execMsixUnmask (t : MaskTarget) (s : State) : Res :=
  match t with
  | .vector _ => .next (memRequest s (fun s => flushPba (clearMask s t)))
  | .function => .next (cfgRequest s (fun s => flushPba (clearMask s t)))

/-- INTA is asserted: a vector is pending, and neither Interrupt Disable nor MSI-X Enable is set (R467). -/
def State.intaOn (s : State) : Bool := !s.pcie.intx.isEmpty && !s.pcie.intxDisable && !s.pcie.msixEn

/-- A write that sets Interrupt Disable or MSI-X Enable ends INTA (R467). -/
def intxOff (s : State) (which : IntxOff) : State :=
  let s := if s.intaOn then emit s .deassertInta else s
  match which with
  | .interruptDisable => modPcie s (fun p => { p with intxDisable := true })
  | .msixEnable => flushPba (modPcie s (fun p => { p with msixEn := true }))

/-- INTERRUPT_DISABLE_SET. -/
def execInterruptDisableSet (which : IntxOff) (s : State) : Res := .next (cfgRequest s (fun s => intxOff s which))

/-- A write of ones to INTX_PENDINGi; INTA ends with the last pending bit (R467). -/
def clearIntx (s : State) (i v : Nat) : State :=
  let left := s.pcie.intx.filter (fun p => !(p / 32 = i && bit v (p % 32)))
  let s := if s.intaOn && left.isEmpty then emit s .deassertInta else s
  modPcie s (fun p => { p with intx := left })

/-! ## Bus Master Enable and power states (R477, R478, R480) -/

/-- Bus Master Enable is cleared: no new request, and the commands that need host memory end (R477, R478). -/
def bmeClear (s : State) : State := if s.pcie.bme then abortHostWork (modPcie s (fun p => { p with bme := false })) else s

/-- Bus Master Enable is set again. -/
def bmeSet (s : State) : State := if s.pcie.bme then s else resumeIssue (modPcie s (fun p => { p with bme := true }))

/-- BUS_MASTER_ENABLE_CLEAR. -/
def execBusMasterEnableClear (s : State) : Res := .next (cfgRequest s bmeClear)

/-- BUS_MASTER_ENABLE_SET. -/
def execBusMasterEnableSet (s : State) : Res := .next (cfgRequest s bmeSet)

/-- D3hot stops requests as a Bus Master Enable clear does (R480). -/
def enterD3 (s : State) : State := if s.pcie.d3 then s else abortHostWork (modPcie s (fun p => { p with d3 := true }))

/-- The return to D0 resets nothing (R480). -/
def leaveD3 (s : State) : State := if s.pcie.d3 then resumeIssue (modPcie s (fun p => { p with d3 := false })) else s

/-- D3HOT_ENTRY. -/
def execD3hotEntry (s : State) : Res := .next (cfgRequest s enterD3)

/-- D0_RETURN. -/
def execD0Return (s : State) : Res := .next (cfgRequest s leaveD3)

/-! ## LTR (R481) -/

/-- LTR Mechanism Enable is set: the module reports 10 µs. -/
def ltrEnable (s : State) : State :=
  if s.ltrOn then s else sendLtr (modPcie s (fun p => { p with devCtl2 := setBit p.devCtl2 10 true })) 10

/-- LTR_MECHANISM_ENABLE. -/
def execLtrMechanismEnable (s : State) : Res := .next (cfgRequest s ltrEnable)

/-! ## The endpoint resets (R331, R479) -/

/-- Commands that need host memory (R478). -/
def needsHost (entry : Bytes) : Bool :=
  let op := opOf entry
  op = 0x10 || op = 0x20 || op = 0x21 || op = 0x30

/-- The ring number of a command whose epoch has ended. -/
def aged (ring : Nat) : Nat := if oldEpoch ring then ring else ring + 256

/-- Every command fetched so far belongs to the old epoch: its completion is discarded, and one that needs host memory is abandoned, a job
as ABORTED (Table 12-3, Table 12-8). The tags of its reads are retired (R479). -/
def endEpoch (s : State) : State :=
  let age (c : Nat × Bytes) : Nat × Bytes := (aged c.1, c.2)
  { s with
    rings := { s.rings with
      done := []
      cmds := (s.rings.cmds.filter (fun c => !needsHost c.entry)).map (fun c => { c with ring := aged c.ring }) }
    seqCmds := s.seqCmds.map (fun c => { c with ring := aged c.ring })
    time := { s.time with prefCmds := s.time.prefCmds.map age }
    clocks := { s.clocks with pending := s.clocks.pending.map (fun e => (e.1, e.2.1, aged e.2.2.1, e.2.2.2)) }
    field := { s.field with groups := tmap s.field.groups (fun _ g => { g with powerCmd := g.powerCmd.map age }) }
    boot := { s.boot with rebindCmd := s.boot.rebindCmd.map age }
    jobs := { s.jobs with jobs := [], fails := s.jobs.jobs.foldl (fun t _ => tmod 0 t 9 (fun n => satAdd 32 n 1)) s.jobs.fails }
    pcie := { s.pcie with reads := [], retired := uniq (s.pcie.retired ++ s.pcie.reads.map (·.1)) } }

/-- A ring after an endpoint reset (Tables 11-2 and 15-13): the host's fields at their reset values, and the module's own counts and ready
envelopes kept, but for those of abandoned commands. -/
def resetHostRing (f : Folio) (r : Nat) (g : Ring) : Ring :=
  let q := if rkind r = 3 then f.ring? (r - 7680) else none
  { parity := g.parity, seq := g.seq, dropEnv := g.dropEnv, dropUnits := g.dropUnits, declared := g.declared, lossNext := g.lossNext
    dropping := g.dropping
    k := (q.map (·.notifyK)).getD 1, tick := (q.map (·.notifyTick)).getD false, size := (q.map (fun x => x.size / 32)).getD 0
    ready := g.ready.filter (fun i => match i with
      | .readout _ => false
      | .completion _ => false
      | _ => true) }

/-- What survives in the endpoint: AER status, severity, log, masks and control beside PERST_N's stronger reset, link control through an FLR,
and the tags that are out of use. -/
def resetPcie (p : Pcie) (sticky linkKept : Bool) : Pcie :=
  { linkUp := p.linkUp, reads := p.reads, retired := p.retired, atsAsked := p.atsAsked
    linkCtl := if linkKept then p.linkCtl else 0
    aerUnc := if sticky then p.aerUnc else 0, aerCor := if sticky then p.aerCor else 0
    aerUncMask := if sticky then p.aerUncMask else ({} : Pcie).aerUncMask
    aerUncSev := if sticky then p.aerUncSev else ({} : Pcie).aerUncSev
    aerCorMask := if sticky then p.aerCorMask else ({} : Pcie).aerCorMask
    aerCtl := if sticky then p.aerCtl else 0
    aerFirst := if sticky then p.aerFirst else none, aerLog := if sticky then p.aerLog else none, aerLogs := p.aerLogs }

/-- A flash operation in progress runs to its end, and its result is not kept (R476). -/
def resetFlashRegs (f : FlashRegs) : FlashRegs := { busy := f.busy.map (fun o => { o with forgotten := true }) }

/-- Every host-pool bank and port returns to the control cluster, which will write zero to it (R331). -/
def poolBack (b : Banks) : Banks :=
  { b with owner := b.pool.foldl (fun t x => tput t x 0) b.owner, zeroing := !b.pool.isEmpty }

/-- The host domain after PERST_N, a hot reset or an FLR (R479, Table 15-13). INTA ends with its last pending bit, which the kept link of an FLR
is told (R467). -/
def resetHost (s : State) (sticky linkKept : Bool) : State :=
  let s := endEpoch (if linkKept && s.intaOn then emit s .deassertInta else s)
  { s with
    pcie := resetPcie s.pcie sticky linkKept
    rings := { s.rings with rings := tmap s.rings.rings (resetHostRing s.cfg) }
    banks := poolBack s.banks
    jobs := { s.jobs with expMax := 0x400, badWrite := false }
    flashRegs := resetFlashRegs s.flashRegs }

/-- PERST_N and a hot reset: the configuration space reports the bound copy's subsystem IDs from now on (R62). -/
def takeSubsys (s : State) : State :=
  match s.boot.folio with
  | some f => { s with boot := { s.boot with subsysVid := f.subsysVid, subsysId := f.subsysId, subsysStale := false } }
  | none => s

/-- PERST_N is asserted: the link is down, and the sticky bits are reset too. -/
def execPerstN (s : State) : Res :=
  if !s.pins.perstN then .next s
  else
    let s := { s with pins := { s.pins with perstN := false } }
    .next (if s.powered then modPcie (takeSubsys (resetHost s false false)) (fun p => { p with linkUp := false }) else s)

/-- HOT_RESET: the link retrains. -/
def execHotReset (s : State) : Res := .next (if s.pcie.linkUp then takeSubsys (resetHost s true false) else s)

/-- FUNCTION_LEVEL_RESET. -/
def execFunctionLevelReset (s : State) : Res := .next (if s.pcie.linkUp then resetHost s true true else s)

/-- PERST_N_RELEASE: the link trains, and the endpoint answers configuration requests (R90). -/
def execPerstNRelease (s : State) : Res :=
  if s.pins.perstN then .next s
  else
    let s := { s with pins := { s.pins with perstN := true } }
    .next (if s.powered then modPcie s (fun p => { p with linkUp := true }) else s)

/-- The host-pool banks with every byte zero, and assigned to the host pool (R331). -/
def zeroPool (s : State) : State :=
  let b := s.banks
  { s with banks := { b with
      zeroing := false
      mem := b.pool.foldl (fun m x => mclear m (x * 2 ^ 20) ((x + 1) * 2 ^ 20)) b.mem
      owner := b.pool.foldl (fun t x => if s.fenced 0x06 x then t else tput t x 1) b.owner } }

/-- HOST_POOL_ZEROED: every byte of the host-pool banks is zero, and they go to the host pool (R331); a fenced one stays with the control
cluster (R337). -/
def execHostPoolZeroed (s : State) : Res := .next (if s.banks.zeroing && s.pcie.linkUp then zeroPool s else s)

/-! ## Address translation (R470) -/

/-- ATS_INVALIDATE_REQUEST: the translations are gone at once; the answer waits for the reads that used them. At most 32 may be
outstanding. -/
def execAtsInvalidateRequest (itag addr size : Nat) (s : State) : Res :=
  if s.pcie.linkUp && s.pcie.atsEn && decide (s.pcie.invals.length < 32) then
    let hit (a n : Nat) : Bool := decide (addr < a + n) && decide (a < addr + size)
    .next (modPcie s (fun p => { p with
      ats := p.ats.filter (fun x => !hit (4096 * x.1) 4096)
      invals := p.invals ++ [{ itag := itag, addr := addr, size := size
                               waits := (p.reads.filter (fun e => hit e.2.addr e.2.len)).map (·.1) }] }))
  else .next s

/-- ATS_INVALIDATE_COMPLETION: the first Invalidate Request that waits for no read any more is answered. -/
def execAtsInvalidateCompletion (s : State) : Res :=
  match s.pcie.invals.find? (fun v => v.waits.isEmpty) with
  | some v => .next (emit (modPcie s (fun p => { p with invals := p.invals.erase v })) (.invalDone v.itag))
  | none => .next s

/-! ## Unsupported requests (R463, R482) -/

/-- UNSUPPORTED_REQUEST: an I/O, atomic or locked request, or a memory request that hits no BAR or that none accepts now (R463). A poisoned write to a BAR is
dropped, and so is a request whose ECRC does not match where ECRC is checked. -/
def execUnsupportedRequest (k : BadRequest) (s : State) : Res :=
  if !s.pcie.linkUp then .next s
  else match k with
    | .memoryRequest => .next (refuseRequest s)
    | .ioRequest => .next (refuseRequest s)
    | .atomicRequest => .next (refuseRequest s)
    | .lockedRequest => .next (refuseRequest s)
    | .poisonedWrite => .next (if s.barOpen then aer s 12 else refuseRequest s)
    | .ecrcMismatch => .next (if bit s.pcie.aerCtl 8 then aer s 19 else s)

end Sys2Proof.Machine
end

