-- ==== Sys2Proof/Machine/Windows.lean ====
section
/-!
DEFINITION. The windows (R335, R471 to R474): translation to bank bytes, refusals and their counts (R329, R472), and commits; and the
host's writes of bank owners (R330).
-/
namespace Sys2Proof.Machine

/-- Window `k`. -/
def State.win (s : State) (k : Nat) : Win := tget {} s.pcie.wins k

def modWin (s : State) (k : Nat) (f : Win → Win) : State := modPcie s (fun p => { p with wins := tmod {} p.wins k f })

/-- The owner code of a window (Table 10-4). -/
def winOwner (k : Nat) : Nat := 0x010 + k

/-- The bank size S of the kind of bank that WIN_BANK names (R471). -/
def winSize (bank : Nat) : Nat := if bank < 128 then 1048576 else 262144

/-- The last bank of that kind. -/
def winLast (bank : Nat) : Nat := if bank < 128 then 127 else 135

/-- The address in the module's bank space, bank b at 2^20·b, of the byte at window offset `x` (R471). -/
def winAddr (w : WinSet) (x : Nat) : Nat :=
  let a := w.base + x + w.rot
  let n := winSize w.bank
  (w.bank + a / n) * 2 ^ 20 + a % n

/-- The banks that a request touches, ascending. -/
def winBanks (w : WinSet) (x len : Nat) : List Nat :=
  let b := winAddr w x / 2 ^ 20
  upFrom b (winAddr w (x + len - 1) / 2 ^ 20 + 1 - b)

/-- What a window answers to a request (R472). -/
inductive WinJudge where
  | accept | refuse | fencedBank
  | notOwner (bank owner : Nat)
  deriving DecidableEq, Repr

/-- The judgement of R472 on a request of at least one byte. -/
def winJudge (s : State) (k x len : Nat) (write : Bool) : WinJudge :=
  let w := (s.win k).active
  if !w.en || (write && !w.write) || w.limit < x + len - 1 || winLast w.bank < winAddr w (x + len - 1) / 2 ^ 20 then .refuse
  else
    let bs := winBanks w x len
    match bs.find? (fun b => !s.fenced 0x06 b && ownerNow s b ≠ winOwner k) with
    | some b => .notOwner b (ownerNow s b)
    | none => if bs.any (s.fenced 0x06) then .fencedBank else .accept

/-- Counts an owner violation of a host access, latching the first (R329). -/
def hostViolation (s : State) (write : Bool) (bank requester owner : Nat) : State :=
  let b := s.banks
  { s with banks := { b with violHost := satAdd 32 b.violHost 1, violLast := b.violLast.orElse (fun _ => some (write, bank, requester, owner)) } }

/-- Counts a request that a window refuses for ownership or a fenced bank (R472). -/
def winDrop (s : State) (k : Nat) : State := modWin s k (fun w => { w with drops := satAdd 32 w.drops 1 })

/-- The effects of a refusal but the answer (R472, R482). -/
def winRefused (s : State) (k : Nat) (write : Bool) (j : WinJudge) : State :=
  match j with
  | .notOwner b o => aer (winDrop (hostViolation s write b (winOwner k) o) k) 15
  | .fencedBank => aer (winDrop s k) 15
  | _ => aer s 15

/-- The bytes that a read returns. -/
def winData (s : State) (k x len : Nat) : Bytes := (List.range len).map (fun i => mget 0 s.banks.mem (winAddr (s.win k).active (x + i)))

/-- A double-bit error met by a window read: Completer Abort for the whole request, and a fault of the bank (R336). -/
def winReadError (s : State) (a : Nat) : State :=
  let b := a / 2 ^ 20
  let s := { s with banks := { s.banks with ecc := tmod (0, 0) s.banks.ecc b (fun e => (e.1, satAdd 16 e.2 1)) } }
  detect (emit (aer s 15) .completerAbort) ⟨0x06, b⟩ 0x02 (a % 2 ^ 20) (faultFrameNow s 0x06)

/-- Stores bytes at consecutive window offsets. -/
def winStore (w : WinSet) (m : Mem) (x : Nat) : Bytes → Mem
  | [] => m
  | b :: l => winStore w (mput 0 m (winAddr w x) b) (x + 1) l

/-- Address `a` of the bank space is a byte of a dual-port bank. -/
def isDual (a : Nat) : Bool := decide (128 ≤ a / 2 ^ 20) && decide (a / 2 ^ 20 < 136) && decide (a % 2 ^ 20 < 262144)

/-- Port B of the dual-port banks stores bytes, by address in the bank space (R332). -/
def putPortB (m : Mem) (portB : List (Nat × Byte)) : Mem := (portB.filter (fun e => isDual e.1)).foldl (fun m e => mput 0 m e.1 e.2) m

/-- WINDOW_READ (R471, R472, R336). What port B writes in the cycles of the read is stored, and port A returns the old bytes (R333). -/
def execWindowRead (k x len : Nat) (cycles : ReadCycles) (s : State) : Res :=
  if 16 ≤ k then .next s
  else .next (memRequest s (fun s =>
    match winJudge s k x len false with
    | .accept =>
      let t := { s with banks := { s.banks with mem := putPortB s.banks.mem cycles.portB } }
      (match cycles.bad with
        | some i => if i < len then winReadError t (winAddr (s.win k).active (x + i)) else emit t (.readData (winData s k x len))
        | none => emit t (.readData (winData s k x len)))
    | j => emit (winRefused s k false j) .completerAbort))

/-- The addresses, ascending, at which a write through port A meets a different value that port B writes (R333). -/
def collisionsOf (w : WinSet) (portB : List (Nat × Byte)) (x : Nat) : Bytes → List Nat
  | [] => []
  | b :: l =>
    let a := winAddr w x
    let rest := collisionsOf w portB (x + 1) l
    if portB.any (fun e => e.1 == a && e.2 != b) then a :: rest else rest

/-- The lowest of the addresses in each 16-byte row: a port reaches one row in one cycle (R334). -/
def rowHeads : List Nat → List Nat
  | [] => []
  | a :: l => a :: (rowHeads l).filter (fun b => b / 16 != a / 16)

/-- Counts a collision, whose lowest byte is `a`, and latches the first one (R333). -/
def countCollision (s : State) (a : Nat) : State :=
  let d := a / 2 ^ 20 - 128
  { s with banks := { s.banks with
      coll := tmod 0 s.banks.coll d (fun n => satAdd 32 n 1)
      collAddr := if (tget? s.banks.collAddr d).isSome then s.banks.collAddr else tput s.banks.collAddr d (a % 2 ^ 20) } }

/-- Until W_0 opens at t_1 + δ, what its conditions will read of the mailbox follows the mailbox (R208). -/
def openingMailbox (s : State) : State :=
  let n := s.banks.served
  if s.ticking && s.released = n && s.time.ticks = n + 2 && decide (s.now < s.tickOf (n + 1) + delta) then latchMailbox s else s

/-- The bank bytes of an accepted write through window `k`. Port B of a dual-port bank writes `portB` in the cycles of the write: at a byte
that both write, port A's value is stored (R333). -/
def winPut (s : State) (k x : Nat) (data : Bytes) (portB : List (Nat × Byte)) : State :=
  let w := (s.win k).active
  let s := { s with banks := { s.banks with mem := winStore w (putPortB s.banks.mem portB) x data } }
  openingMailbox ((rowHeads (collisionsOf w (portB.filter (fun e => isDual e.1)) x data)).foldl countCollision s)

/-- WINDOW_WRITE; `portB` holds the bytes, by address in the bank space, that port B writes in the same cycles. -/
def execWindowWrite (k x : Nat) (data : Bytes) (portB : List (Nat × Byte)) (s : State) : Res :=
  if 16 ≤ k then .next s
  else .next (memRequest s (fun s =>
    match winJudge s k x data.length true with
    | .accept => winPut s k x data portB
    | j => winRefused s k true j))

/-- A commit passes the checks of R473. -/
def commitOk (f : Folio) (k : Nat) (w : WinSet) : Bool :=
  bit f.host.winMask k && !(w.write && bit f.host.winRo k) && decide (w.bank ≤ 135) && decide (w.base < winSize w.bank)

/-- A write of WIN_COMMIT (R473). -/
def winCommit (s : State) (k : Nat) (go : Bool) : State :=
  if !go then s
  else modWin s k (fun w =>
    if commitOk s.cfg k w.shadow then { w with active := w.shadow, gen := (w.gen + 1) % 2 ^ 16 } else { w with denied := true })

/-- A block that answers only from BOUND onward takes a write (R92). -/
def boundWrite (s : State) (k : State → State) : State := memRequest s (fun s => if s.isBound then k s else s)

/-- WIN_COMMIT. -/
def execWinCommit (k : Nat) (go : Bool) (s : State) : Res := if 16 ≤ k then .next s else .next (boundWrite s (fun s => winCommit s k go))

/-- BANK_OWNER_WRITE (R330). -/
def execBankOwnerWrite (bank owner : Nat) (s : State) : Res :=
  if 136 ≤ bank then .next s else .next (boundWrite s (fun s => (assignBank s bank (owner % 1024)).1))

end Sys2Proof.Machine
end

