-- ==== Sys2Proof/Machine/HostWrites.lean ====
section
/-!
DEFINITION. The host's accesses to registers: doorbells (R343, R344), the ring table (R340, R341, R346), the registers of every block that
accept a write (R7, R8), the reads that latch (R257, R310, R433), the MSI-X table and configuration space (R460 to R467).
-/
namespace Sys2Proof.Machine

/-! ## Doorbells -/

/-- A doorbell value that is out of order (R344). -/
def dbBad (r : Nat) (g : Ring) (v : Word32) : Bool :=
  !g.enable ||
  (if rkind r = 4 then decide (indexDiff v g.prod < 0) || decide ((g.size : Int) < indexDiff v g.cons)
   else decide (indexDiff v g.cons < 0) || decide (indexDiff g.prod v < 0))

/-- An index written to a doorbell (R343, R344); that of a delivery ring that is not declared is ignored (DESIGN CHOICE, log entry 41). -/
def ringDoorbell (s : State) (r : Nat) (v : Word32) : State :=
  if !(isHostRing r && ringKind s r ≠ 0) then s
  else if dbBad r (s.ring r) v then modRing s r (fun g => { g with dbBad := true })
  else if rkind r = 4 then modRing s r (fun g => { g with prod := v, doorbell := v })
  else
    let s := modRing s r (fun g => { g with cons := v, doorbell := v })
    if rkind r = 5 then writeCompletions s else s

/-- DOORBELL_WRITE: a write that covers only bytes 4 to 7 is ignored. -/
def execDoorbellWrite (r : Nat) (part : DbPart) (v : Word32) (s : State) : Res :=
  .next (boundWrite s (fun s => match part with
    | .low => ringDoorbell s r v
    | .full => ringDoorbell s r v
    | .high => s))

/-! ## The ring table -/

/-- SIZE is a power of two in the range of Table 11-3. -/
def ringSizeOk (r size : Nat) : Bool :=
  decide (2 ^ Nat.log2 size = size) &&
  (if rkind r = 3 then within 128 33554432 size else if rkind r = 7 then within 2048 524288 size else within 16 4096 size)

/-- The checks of R341 on a ring about to be enabled. -/
def enableOk (r : Nat) (g : Ring) : Bool :=
  g.base % 4096 = 0 && g.wb % 8 = 0 && g.wb ≠ 0 && g.vector < 2048 && ringSizeOk r g.size

/-- A ring enabled (R341). -/
def ringStart (s : State) (r : Nat) : State :=
  if enableOk r (s.ring r) && !s.fenced 0x0A r then
    let s := modRing s r (fun g => { g with enable := true, prod := 0, cons := 0, waiting := 0, due := false })
    if rkind r = 5 then writeCompletions s else s
  else modRing s r (fun g => { g with error := true })

/-- A write of RT_CTRL (Table 11-2). -/
def writeRtCtrl (s : State) (r v : Nat) : State :=
  let was := (s.ring r).enable
  let s := modRing s r (fun g => { g with
    error := g.error && !bit v 30, dbBad := g.dbBad && !bit v 29, vector := v % 2048, enable := was && bit v 31 })
  if bit v 31 && !was then ringStart s r else s

/-- A write of RT_NOTIFY; clearing MASK signals a due ring at once (R346). -/
def writeRtNotify (s : State) (r v : Nat) : State :=
  let was := (s.ring r).mask
  let s := modRing s r (fun g => { g with tick := bit v 31, mask := bit v 30, k := v % 65536 })
  if was && !bit v 30 && notifies r then notify s r else s

/-- A write of a ring field that only a disabled ring takes (R341). -/
def writeRtPlace (s : State) (r k v : Nat) : State :=
  let lo (old : Nat) : Nat := old / 2 ^ 32 * 2 ^ 32 + v
  let hi (old : Nat) : Nat := v * 2 ^ 32 + old % 2 ^ 32
  modRing s r (fun g =>
    if g.enable then g
    else if k = 0x08 then { g with base := lo g.base }
    else if k = 0x0C then { g with base := hi g.base }
    else if k = 0x10 then { g with size := if rkind r = 3 then g.size else v }
    else if k = 0x14 then { g with wb := lo g.wb }
    else if k = 0x18 then { g with wb := hi g.wb }
    else g)

/-- A write of a word of ring `r`'s entry; only a host ring's is writable (R340), and a delivery ring that is not declared is none (DESIGN
CHOICE, log entry 41). -/
def writeRt (s : State) (r k v : Nat) : State :=
  if !(isHostRing r && ringKind s r ≠ 0) then s
  else if k = 0x00 then writeRtCtrl s r v
  else if k = 0x04 then writeRtNotify s r v
  else writeRtPlace s r k v

/-- RING_ENABLE: the write of RT_CTRL that enables a ring. -/
def execRingEnable (r : Nat) (v : Word32) (s : State) : Res := .next (boundWrite s (fun s => writeRt s r 0x00 v.toNat))

/-- RING_DISABLE: the write of RT_CTRL that disables a ring. -/
def execRingDisable (r : Nat) (v : Word32) (s : State) : Res := .next (boundWrite s (fun s => writeRt s r 0x00 v.toNat))

/-- NOTIFY_UNMASK: a write of RT_NOTIFY. -/
def execNotifyUnmask (r : Nat) (v : Word32) (s : State) : Res := .next (boundWrite s (fun s => writeRt s r 0x04 v.toNat))

/-! ## Reads that latch -/

/-- SQ_DEAD_HI as a read of SQ_DEAD_LO latches it. -/
def latchDead (q : Nat) (t : Tbl Seq) : Tbl Seq :=
  tmap t (fun i e => if i = q then { e with deadHi := e.deadPu / 2 ^ 32 % 2 ^ 32 } else e)

/-- The value shown by SQ_DEAD_LO is the one that is latched (R257). -/
def latchSeq (s : State) (q : Nat) : State :=
  match s.shown with
  | some t =>
    let hi := (tget {} t q).deadPu / 2 ^ 32 % 2 ^ 32
    { s with shown := some (latchDead q t), seqs := tmap s.seqs (fun i e => if i = q then { e with deadHi := hi } else e) }
  | none => { s with seqs := latchDead q s.seqs }

/-- IM_MEAN_HI as a read of IM_MEAN_LO latches it (R310). -/
def latchMean (s : State) (e : Nat) : State :=
  { s with meter := { s.meter with entries := tmap s.meter.entries (fun i m =>
      if i = e then { m with meanHi := sfield 64 m.mean / 2 ^ 32 } else m) } }

/-- The high halves that a read of TB_RAW_LO latches (R433): before the first segment the disciplined time reads 0 (R413). -/
def latchTime (s : State) : State :=
  let q := (s.time.discAt s.firmMark).getD 0
  let sec := sfield 48 (fdiv q qSec)
  let rawHi := s.rawCount / 2 ^ 32 % 2 ^ 32
  let hi := sec / 2 ^ 32 + 65536 * sfield 16 q
  let ns := (fdiv q qNs % 1000000000).toNat
  latch (sec % 2 ^ 32) rawHi hi ns s
where
  latch (lo rawHi hi ns : Nat) (s : State) : State :=
    { s with time := { s.time with rawHi := rawHi, disSecLo := lo, disSecHi := hi, disNs := ns } }

/-- TB_DOMx_GM_HI as a read of TB_DOMx_GM_LO latches it (R433). -/
def latchMaster (s : State) (x : Nat) : State := modDom s x (fun d => { d with gmHi := idWord (d.gm / 2 ^ 32) })

/-- What a read of the BAR0 word at an offset latches. -/
def readLatch (s : State) (o : Nat) : State :=
  if !s.isBound then s
  else if o = 0x010000 then latchTime s
  else if o = 0x010050 then latchMaster s 0
  else if o = 0x010070 then latchMaster s 1
  else if 0x040000 ≤ o && o < 0x041000 && o % 0x40 = 0x10 then latchSeq s ((o - 0x040000) / 0x40)
  else if 0x070000 ≤ o && o < 0x078000 && o % 0x20 = 0x10 then latchMean s ((o - 0x070000) / 0x20)
  else s

/-- The words of a read of BAR0, each read once in ascending address, a low half latching its high half before that one is read (R465). -/
def bar0Reads : Nat → State → Nat → Bytes × State
  | 0, s, _ => ([], s)
  | k + 1, s, o =>
    let (b, t) := bar0Reads k (readLatch s o) (o + 4)
    (le 4 (bar0Read s o) ++ b, t)

/-- A read of `len` bytes of BAR0, at most 4,096 (R465). The table has rows for the reads that latch alone. -/
def bar0ReadRequest (s : State) (o len : Nat) : State :=
  memRequest s (fun s =>
    if 4096 < len then emit (aer s 15) .completerAbort
    else
      let (b, t) := bar0Reads ((o % 4 + len + 3) / 4) s (o / 4 * 4)
      emit t (.readData (sub b (o % 4) len)))

/-- SQ_DEAD_LO_READ (R257). -/
def execSqDeadLoRead (q : Nat) (s : State) : Res := .next (bar0ReadRequest s (0x040010 + 0x40 * (q % 64)) 4)

/-- IM_MEAN_LO_READ (R310). -/
def execImMeanLoRead (e : Nat) (s : State) : Res := .next (bar0ReadRequest s (0x070010 + 0x20 * (e % 1024)) 4)

/-- TB_RAW_LO_READ (R433). -/
def execTbRawLoRead (s : State) : Res := .next (bar0ReadRequest s 0x010000 4)

/-- TB_DOM_GM_LO_READ (R433). -/
def execTbDomGmLoRead (x : Nat) (s : State) : Res := .next (bar0ReadRequest s (0x010050 + 0x20 * (x % 2)) 4)

/-! ## Register writes by block -/

/-- CX_CTRL (Table 12-6). -/
def writeExpMax (s : State) (v : Nat) : State :=
  let n := v % 8192
  if n = 0 || 4096 < n then { s with jobs := { s.jobs with badWrite := true } } else { s with jobs := { s.jobs with expMax := n } }

/-- EXPANSION_MAX_WRITE. -/
def execExpansionMaxWrite (v : Word32) (s : State) : Res := .next (boundWrite s (fun s => writeExpMax s v.toNat))

/-- INTX_PENDING_WRITE. -/
def execIntxPendingWrite (i : Nat) (v : Word32) (s : State) : Res := .next (memRequest s (fun s => clearIntx s (i % 64) v.toNat))

/-- IRQ_ENABLE: a bit of IRQ_STATUS & IRQ_ENABLE that becomes 1 signals (R466). -/
def writeIrqEnable (s : State) (v : Nat) : State :=
  let old := s.pcie.irqEnable
  let s := modPcie s (fun p => { p with irqEnable := v % 8 })
  if (List.range 3).any (fun i => bit s.pcie.irqStatus i && bit v i && !bit old i) then signal s s.pcie.irqVector else s

/-- FLASH_CTRL (Table 15-12). -/
def writeFlashCtrl (s : State) (v : Nat) : State :=
  let op := bits v 28 3
  let n := v % 512
  if bit v 31 then flashGo s op n else { s with flashRegs := { s.flashRegs with op := op, len := n } }

/-- Puts a word into a buffer. -/
def putWord (b : Bytes) (o v : Nat) : Bytes := b.take o ++ le 4 v ++ b.drop (o + 4)

/-- The identity block. -/
def writeIdent (s : State) (o v : Nat) : State :=
  if o = 0x18 then (if bit v 0 then rebindGo s (v / 2 ^ 20) else s)
  else if o = 0x60 then modPcie s (fun p => { p with irqStatus := (List.range 3).foldl (fun a i => if bit v i then setBit a i false else a) p.irqStatus })
  else if o = 0x64 then writeIrqEnable s v
  else if o = 0x68 then modPcie s (fun p => { p with irqVector := v % 2048 })
  else if o = 0x100 then writeFlashCtrl s v
  else if o = 0x104 then { s with flashRegs := { s.flashRegs with addr := v } }
  else if o = 0x108 then { s with flashRegs := { s.flashRegs with done := s.flashRegs.done && !bit v 30 } }
  else if 0x200 ≤ o && o < 0x300 then clearIntx s ((o - 0x200) / 4) v
  else if 0x400 ≤ o && o < 0x500 then { s with flashRegs := { s.flashRegs with data := putWord s.flashRegs.data (o - 0x400) v } }
  else s

/-- FG_STATUS.BROWNOUT. -/
def writeFg (s : State) (o v : Nat) : State :=
  if o < 0x1000 && o % 0x100 = 0 && bit v 10 then
    { s with field := { s.field with groups := tmap s.field.groups (fun g e => if g = o / 0x100 then { e with brownout := false } else e) } }
  else s

/-- RD_STAT.SAT and RD_WS_STAT.SAT. -/
def writeRd (s : State) (o v : Nat) : State :=
  if o < 0x8000 && o % 8 = 0 && bit v 16 then
    { s with proc := { s.proc with reds := tmap s.proc.reds (fun r e => if r = o / 8 then { e with sat := false } else e) } }
  else if 0x8000 ≤ o && o < 0x9000 && o % 8 = 4 && bit v 1 then
    { s with proc := { s.proc with sums := tmap s.proc.sums (fun w e => if w = (o - 0x8000) / 8 then { e with sat := false } else e) } }
  else s

/-- IM_STAT.OVERRUN and BREAK. -/
def writeIm (s : State) (o v : Nat) : State :=
  if o < 0x8000 && o % 0x20 = 0 then
    { s with meter := { s.meter with entries := tmap s.meter.entries (fun i e =>
        if i = o / 0x20 then { e with overrun := e.overrun && !bit v 1, brk := e.brk && !bit v 0 } else e) } }
  else s

/-- WINk's shadow, commit and DENIED (Table 15-10). -/
def writeWin (s : State) (k o v : Nat) : State :=
  if o = 0x00 then modWin s k (fun w => { w with shadow := { w.shadow with base := v % 2 ^ 20 } })
  else if o = 0x04 then modWin s k (fun w => { w with shadow := { w.shadow with limit := v % 2 ^ 23 } })
  else if o = 0x08 then modWin s k (fun w => { w with shadow := { w.shadow with bank := v % 256 } })
  else if o = 0x0C then modWin s k (fun w => { w with shadow := { w.shadow with write := bit v 5, en := bit v 4, rot := v % 16 } })
  else if o = 0x10 then winCommit s k (bit v 0)
  else if o = 0x14 && bit v 1 then modWin s k (fun w => { w with denied := false })
  else s

/-- The BK_ block: owners, and the latched addresses. -/
def writeBk (s : State) (o v : Nat) : State :=
  if o < 0x220 then (assignBank s (o / 4) (v % 1024)).1
  else if 0x8000 ≤ o && o < 0x8200 then writeWin s ((o - 0x8000) / 0x20) (o % 0x20) v
  else if !bit v 31 then s
  else if o = 0x80C then { s with banks := { s.banks with violLast := none } }
  else if 0x900 ≤ o && o < 0x940 && o % 8 = 4 then { s with banks := { s.banks with collAddr := tdel s.banks.collAddr ((o - 0x900) / 8) } }
  else if o = 0xA08 then { s with banks := { s.banks with dramLast := none } }
  else s

/-- The PW_ block. -/
def writePw (s : State) (o v : Nat) : State :=
  let p := s.power
  if o = 0x00 then { s with power := { p with shutdown := p.shutdown && !bit v 7 } }
  else if o = 0x04 then { s with power := { p with
    alertIsland := (List.range 16).foldl (fun a i => if bit v (16 + i) then setBit a i false else a) p.alertIsland
    alertXfer := p.alertXfer && !bit v 5, alertDram := p.alertDram && !bit v 4, alertDie := p.alertDie && !bit v 3
    alertRail := (List.range 3).foldl (fun a i => if bit v i then setBit a i false else a) p.alertRail } }
  else s

/-- A write of one BAR0 word (R7, R92, R464). -/
def bar0Write (s : State) (o v : Nat) : State :=
  if !(s.isBound || earlyBlock o) then s
  else if o < 0x010000 then writeIdent s o v
  else if 0x030000 ≤ o && o < 0x040000 then writeFg s (o - 0x030000) v
  else if 0x060000 ≤ o && o < 0x070000 then writeRd s (o - 0x060000) v
  else if 0x070000 ≤ o && o < 0x080000 then writeIm s (o - 0x070000) v
  else if 0x080000 ≤ o && o < 0x090000 then writeBk s (o - 0x080000) v
  else if o = 0x090000 then writeExpMax s v
  else if o = 0x090004 then { s with jobs := { s.jobs with badWrite := s.jobs.badWrite && !bit v 0 } }
  else if 0x0B0000 ≤ o && o < 0x0C0000 then writePw s (o - 0x0B0000) v
  else if 0x100000 ≤ o && o < 0x200000 then writeRt s ((o - 0x100000) / 64) (o % 64) v
  else if 0x200000 ≤ o && o < 0x220000 && o % 8 = 0 then ringDoorbell s ((o - 0x200000) / 8) (BitVec.ofNat 32 v)
  else s

/-- BAR0 takes 4 or 8 bytes, aligned, with every byte enable set; an 8-byte write is two 4-byte writes (R465). -/
def bar0Request (s : State) (o : Nat) (all : Bool) (data : Bytes) : State :=
  let n := data.length
  if !(all && (n = 4 || n = 8) && o % n = 0) then aer s 15
  else
    let s := bar0Write s o (fld data 0 4)
    if n = 8 then bar0Write s (o + 4) (fld data 4 4) else s

/-! ## The MSI-X table (BAR4) -/

/-- The word at an offset of BAR4 (Table 15-5): the MSI-X table of 2,048 vectors, and the PBA from 0x8000. -/
def bar4Word (s : State) (o : Nat) : Nat :=
  let e := tget {} s.pcie.msix (o / 16)
  if 0x8000 ≤ o then
    (if o < 0x8100 then ofBits ((List.range 32).map (fun i => s.pcie.pba.contains ((o - 0x8000) / 4 * 32 + i))) else 0)
  else if o % 16 = 0 then e.addr % 2 ^ 32
  else if o % 16 = 4 then e.addr / 2 ^ 32
  else if o % 16 = 8 then e.data
  else b2n e.mask

/-- A write of one word of the MSI-X table; the PBA is read-only. -/
def bar4Write (s : State) (o v : Nat) : State :=
  let k := o % 16
  let put (f : MsixEntry → MsixEntry) : State := modPcie s (fun p => { p with msix := tmod {} p.msix (o / 16) f })
  if 0x8000 ≤ o then s
  else if k = 0 then put (fun e => { e with addr := e.addr / 2 ^ 32 * 2 ^ 32 + v })
  else if k = 4 then put (fun e => { e with addr := v * 2 ^ 32 + e.addr % 2 ^ 32 })
  else if k = 8 then put (fun e => { e with data := v })
  else flushPba (put (fun e => { e with mask := bit v 0 }))

/-- A write to BAR4 of one or two aligned words. -/
def bar4Request (s : State) (o : Nat) (data : Bytes) : State :=
  let n := data.length
  if !((n = 4 || n = 8) && o % n = 0) then s
  else
    let s := bar4Write s o (fld data 0 4)
    if n = 8 then bar4Write s (o + 4) (fld data 4 4) else s

/-! ## Configuration writes (R460, R461) -/

/-- The Command register, and the error bits of Status, which a 1 clears. -/
def writeCommand (s : State) (v : Nat) : State :=
  let s := modPcie s (fun p => { p with
    mse := bit v 1, perr := bit v 6, serr := bit v 8
    status := [8, 11, 12, 13, 14, 15].foldl (fun a i => if bit v (16 + i) then setBit a i false else a) p.status })
  let s := if bit v 10 then (if s.pcie.intxDisable then s else intxOff s .interruptDisable) else modPcie s (fun p => { p with intxDisable := false })
  if bit v 2 then bmeSet s else bmeClear s

/-- Device Control and Device Status; Initiate Function Level Reset is bit 15. -/
def writeDevCtl (s : State) (v : Nat) : State :=
  if bit v 15 then resetHost s true true
  else modPcie s (fun p => { p with
    devCtl := word [(11, bits v 11 4), (0, v % 512)], devSts := (List.range 4).foldl (fun a i => if bit v (16 + i) then setBit a i false else a) p.devSts })

/-- Device Control 2: Completion Timeout Value and Disable, LTR Mechanism Enable and 10-Bit Tag Requester Enable; the bits of options that are
absent read 0 (R458, R461). -/
def writeDevCtl2 (s : State) (v : Nat) : State :=
  let on := s.ltrOn
  let s := modPcie s (fun p => { p with devCtl2 := word [(12, b2n (bit v 12)), (10, b2n (bit v 10)), (0, v % 32)] })
  if s.ltrOn && !on then sendLtr s 10 else s

/-- MSI-X Message Control. -/
def writeMsixCtl (s : State) (v : Nat) : State :=
  let s := modPcie s (fun p => { p with msixFnMask := bit v 30 })
  if bit v 31 then (if s.pcie.msixEn then flushPba s else intxOff s .msixEnable) else modPcie s (fun p => { p with msixEn := false })

/-- The bits of `old` that a 1 in `v` does not clear. -/
def w1c (old v : Nat) : Nat := ofBits ((List.range 32).map (fun i => bit old i && !bit v i))

/-- The bits of the AER registers and of Link Control that the standard and Table 15-1 give the function; the others read 0 (R8, R458): the
uncorrectable errors 4, 12 to 20 and 22, the correctable errors 0, 6 to 8 and 12 to 15; ASPM Control, Read Completion Boundary, Common Clock,
Extended Synch, Clock Power Management and Hardware Autonomous Width Disable (log entry 22). -/
def aerUncBits : Nat := 0x005FF010
def aerCorBits : Nat := 0x0000F1C1
def linkCtlMask : Nat := 0x03CB

/-- A configuration write of one word, every byte enabled. -/
def cfgWrite (s : State) (o v : Nat) : State :=
  if o = 0x04 then writeCommand s v
  else if o = 0x0C then modPcie s (fun p => { p with cacheLine := v % 256 })
  else if 0x10 ≤ o && o < 0x28 && o % 4 = 0 then modPcie s (fun p => { p with bars := p.bars.set ((o - 0x10) / 4) v })
  else if o = 0x3C then modPcie s (fun p => { p with intLine := v % 256 })
  else if o = 0x44 then (if v % 4 = 3 then enterD3 s else if v % 4 = 0 then leaveD3 s else s)
  else if o = 0x68 then writeDevCtl s v
  else if o = 0x70 then modPcie s (fun p => { p with linkCtl := v &&& linkCtlMask })
  else if o = 0x88 then writeDevCtl2 s v
  else if o = 0xB0 then writeMsixCtl s v
  else if o = 0x104 then modPcie s (fun p => { p with aerUnc := w1c p.aerUnc v })
  else if o = 0x108 then modPcie s (fun p => { p with aerUncMask := v &&& aerUncBits })
  else if o = 0x10C then modPcie s (fun p => { p with aerUncSev := v &&& aerUncBits })
  else if o = 0x110 then modPcie s (fun p => { p with aerCor := w1c p.aerCor v })
  else if o = 0x114 then modPcie s (fun p => { p with aerCorMask := v &&& aerCorBits })
  else if o = 0x118 then modPcie s (fun p => { p with aerCtl := word [(8, b2n (bit v 8)), (6, b2n (bit v 6))] })
  else if o = 0x15C then modPcie s (fun p => { p with atsEn := bit v 31, ats := if bit v 31 then p.ats else [] })
  else if o = 0x16C then modPcie s (fun p => { p with ltrMax := v % 2 ^ 13, ltrNoSnoop := v / 2 ^ 16 % 2 ^ 13 })
  else if o = 0x178 then modPcie s (fun p => { p with l1Ctl1 := word [(29, bits v 29 3), (16, bits v 16 10), (0, v % 16)] })
  else if o = 0x17C then modPcie s (fun p => { p with l1Ctl2 := word [(3, bits v 3 5), (0, v % 4)] })
  else s

/-! ## REGISTER_WRITE -/

/-- REGISTER_WRITE: offsets below 0x100_0000 lie in BAR0, the 64 KiB from 0x100_0000 on in BAR4, and 0x200_0000 begins configuration space. What
lies between is no BAR's (R463). -/
def execRegisterWrite (o : Nat) (all : Bool) (data : Bytes) (s : State) : Res :=
  .next (
    if o < 0x1000000 then memRequest s (fun s => bar0Request s o all data)
    else if o < 0x1010000 then memRequest s (fun s => bar4Request s (o - 0x1000000) data)
    else if o < 0x2000000 then (if s.pcie.linkUp then refuseRequest s else s)
    else cfgRequest s (fun s => if data.length = 4 && all && o % 4 = 0 then cfgWrite s (o - 0x2000000) (fld data 0 4) else s))

end Sys2Proof.Machine
end

