-- ==== Sys2Proof/Machine/FaultRows.lean ====
section
/-!
DEFINITION. The rows of the fault discipline (R487 to R493): a fault of a unit, the end of quarantine, the end of a self-test, and
re-admission.
-/
namespace Sys2Proof.Machine

/-! ## Faults (Table 16-1) -/

/-- The unit exists (Table 16-3); a field group is one that the Folio uses. -/
def unitExists (s : State) (u : FUnit) : Bool :=
  match u.cls with
  | 0x01 => (s.cfg.group? u.idx).isSome
  | 0x02 => decide (u.idx < 128)
  | 0x03 => decide (u.idx < 4096)
  | 0x04 => decide (u.idx < 272)
  | 0x06 => decide (u.idx < 136)
  | 0x07 => decide (u.idx < 524288)
  | 0x09 => decide (u.idx < 8)
  | 0x0A => decide (u.idx < 16384)
  | 0x0D => decide (u.idx < 4)
  | 0x05 | 0x08 | 0x0C | 0x0E | 0x0F => u.idx = 0
  | _ => false

/-- The units that a cause of Table 16-1 names. The faults of clock sources have rows of their own, and a failed self-test comes from the
row that ends it. -/
def causeOf (u : FUnit) (cause : Nat) : Bool :=
  match cause with
  | 0x01 => u.cls = 0x07
  | 0x02 => u.cls = 0x06
  | 0x03 | 0x04 | 0x05 | 0x06 | 0x07 | 0x0B => u.cls = 0x01
  | 0x09 => canBeLate u
  | 0x0A => u.cls = 0x0A
  | 0x0C => u.cls = 0x01 || u.cls = 0x08 || u.cls = 0x0F
  | 0x0D => u.cls = 0x0C
  | 0x0E => u.cls = 0x01 || u.cls = 0x03 || u.cls = 0x04 || u.cls = 0x05 || u.cls = 0x08 || u.cls = 0x09 || u.cls = 0x0C ||
    u.cls = 0x0D
  | 0x0F => u.cls = 0x02 || u.cls = 0x03 || u.cls = 0x04 || u.cls = 0x05 || u.cls = 0x09 || u.cls = 0x0D
  | 0x11 => u.cls = 0x0E
  | _ => false

/-- The owner code with which a unit accesses a bank (Table 10-4). A reduction lane goes by its own code for every access, though the Class T
evaluator serves it in a work window; and the host endpoint stands for the envelope assembler, which is no unit of Table 16-3 (both DESIGN
CHOICE, log entry 31). -/
def requesterOf (u : FUnit) : Nat :=
  match u.cls with
  | 0x01 => 0x020 + u.idx
  | 0x04 => 0x100 + u.idx
  | 0x09 => 0x050 + u.idx
  | 0x0C => 0x040
  | 0x0D => 0x000
  | _ => 0x030

/-- Counts an owner violation of an internal access, latching the first (R329); `portB` is an access at port B of a dual-port bank. -/
def internalViolation (s : State) (write portB : Bool) (bank : Nat) (u : FUnit) : State :=
  let b := s.banks
  let owner := if portB && 128 ≤ bank then tget 0 b.ownerB bank else ownerNow s bank
  { s with banks := { b with
    violInt := satAdd 32 b.violInt 1
    violLast := b.violLast.orElse (fun _ => some (write, bank, requesterOf u, owner)) } }

/-- The unit's work was late in its window (R23): a detection of its deadline waits for the frame boundary. -/
def lateUnit (s : State) (u : FUnit) : Bool := s.faults.pending.any (fun d => d.unit == u && d.cause = 0x09)

/-- A fault of a unit, with what the cause leaves besides. For an owner violation, DETAIL names the bank in bits [7:0], a write in bit [8] and
port B in bit [9]; the FAULT envelope carries 0 there (Table 16-4). A violation after a deadline miss is counted and is no second fault
(R328). -/
def raiseFault (s : State) (u : FUnit) (cause detail : Nat) : State :=
  let at_ := faultFrameNow s u.cls
  match cause with
  | 0x01 => dramError s u.idx detail
  | 0x02 => bankError s.released s (u.idx, detail)
  | 0x03 | 0x04 => detect s u cause (detail % 65536) at_
  | 0x0A => detect (modRing s u.idx (fun g => { g with parity := true })) u cause 0 ((ringHolds s u.idx).getD at_)
  | 0x0C => detect s u cause (detail % 65536) at_
  | 0x0D => detect (aer s 22) u cause 0 at_
  | 0x0E =>
    let t := internalViolation s (bit detail 8) (bit detail 9) (detail % 256 % 136) u
    if lateUnit s u || s.fenced u.cls u.idx then t else detect t u cause 0 at_
  | _ => detect s u cause 0 at_

/-- FENCE: a fault of Table 16-1 on a unit. While no frame ticks run there is no frame boundary, and only a fault that fences at once is
handled (R487). A unit that is fenced already can only be found at an access that it no longer may make (R328). -/
def execFence (u : FUnit) (cause detail : Nat) (s : State) : Res :=
  if s.powered && unitExists s u && causeOf u cause && (s.ticking || atOnce cause) && (!s.fenced u.cls u.idx || cause = 0x0E) then
    .next (raiseFault s u cause detail)
  else .next s

/-! ## Quarantine and self-test (R490, R491, Table 16-2) -/

/-- Changes a unit's fence. -/
def modFence (s : State) (u : FUnit) (f : Fence → Fence) : State :=
  { s with faults := { s.faults with fences := tmap s.faults.fences (fun k e => if k = unitKey u then f e else e) } }

/-- The instant of the next frame tick, where ticks run. -/
def State.nextTick (s : State) : Option Nat := if s.ticking then some (s.tickOf s.time.ticks) else none

/-- A reduction lane's self-test takes a spare bank as its pattern source, the lowest-numbered one (the spec says only a spare bank: DESIGN CHOICE, log
entry 31); at the end of the test the bank returns to the control cluster (R325). -/
def patternBank (s : State) (u : FUnit) : State :=
  if u.cls ≠ 0x04 then s
  else match spareBank s with
    | some b => { s with banks := { s.banks with owner := tput s.banks.owner b (0x100 + u.idx) } }
    | none => s

def patternDone (s : State) (u : FUnit) : State :=
  if u.cls ≠ 0x04 then s
  else { s with banks := { s.banks with owner := tmap s.banks.owner (fun _ v => if v = 0x100 + u.idx then 0 else v) } }

/-- QUARANTINE_END: the self-test starts; a group's is its power-up (R144). A frame tick that comes first is taken first. -/
def execQuarantineEnd (u : FUnit) (s : State) : Res :=
  match tget? s.faults.fences (unitKey u) with
  | some f => match f.quarEnd with
    | some t =>
      if f.testing || f.passed.isSome || (match s.nextTick with
          | some n => decide (n < t)
          | none => false) then .next s
      else
        let s := modFence (advanceTo s t) u (fun f => { f with testing := true })
        .next (if u.cls = 0x01 then islandPower s u.idx .powering else patternBank s u)
    | none => .next s
  | none => .next s

/-- The test passes: with the conditions that Tables 16-2 and 17-5 set for temperature, and the steps of a group's power-up. -/
def testPasses (s : State) (u : FUnit) (pass : Bool) (res : Option GroupBoot) : Bool :=
  pass &&
  (match u.cls with
   | 0x01 => match res with
     | some r => r.group = u.idx && (bootFailure s r).isNone && decide (r.cal.temp ≤ 1760)
     | none => false
   | 0x08 => s.clocks.pllM.lock && !s.power.dramHot
   | 0x0E => !s.franking.noCopy
   | 0x0F => decide (s.power.die ≤ 1600)
   | _ => true)

/-- The reserved test word of the Franking Store (Table 16-5), and the word that the self-test writes there and reads back; which word it is, the
manual leaves open. -/
def testWordAddr : Nat := 0x1A000
def storeTest (s : State) (u : FUnit) : State :=
  if u.cls = 0x0E && !s.franking.noCopy then
    let (v, s) := takeFree s
    (storeWrite s testWordAddr (le 8 v.toNat)).1
  else s

/-- A group whose power-up has passed waits for its re-admission. -/
def testedGroup (s : State) (u : FUnit) (res : Option GroupBoot) : State :=
  match res with
  | some r => if u.cls = 0x01 then recordUnused (islandReady s r .settling) r else s
  | none => s

/-- What a failed self-test of a group has found of its fuse (R123). -/
def failedGroup (s : State) (u : FUnit) (res : Option GroupBoot) : State :=
  match res with
  | some r => if u.cls = 0x01 && r.group = u.idx then noteFuse s r else s
  | none => s

/-- From when a unit that has passed may be re-admitted: a group settles first, as after any power-up (R146, Table 16-2). -/
def readyAt (s : State) (u : FUnit) : Nat :=
  s.now + (if u.cls = 0x01 then (((s.cfg.group? u.idx).map (·.settleMs)).getD 0) * puMs else 0)

/-- SELF_TEST_COMPLETE: a failure is a new fault with cause 0x10, fenced at once (R491). -/
def execSelfTestComplete (u : FUnit) (pass : Bool) (res : Option GroupBoot) (s : State) : Res :=
  match tget? s.faults.fences (unitKey u) with
  | some f =>
    if !f.testing then .next s
    else
    let s := storeTest (patternDone s u) u
    if testPasses s u pass res then .next (modFence (testedGroup s u res) u (fun f => { f with testing := false, passed := some (readyAt s u) }))
    else .next (detect (failedGroup s u res) u 0x10 0 s.released)
  | none => .next s

/-! ## Re-admission (R492) -/

/-- A frame boundary is now: the instant at which a work window closes; and the states in which no window is worked. -/
def atBoundary (s : State) : Bool :=
  !s.ticking || !s.coreClock || s.boot.phase == RebindPhase.draining || s.now = s.tickOf (s.released + 1) + delta

/-- READMIT: a unit whose self-test has passed is re-admitted at a frame boundary; the boundaries of FRAME_RELEASE do the same. -/
def execReadmit (u : FUnit) (s : State) : Res :=
  match tget? s.faults.fences (unitKey u) with
  | some f => .next (if s.mayReturn f && atBoundary s then readmit s u else s)
  | none => .next s

end Sys2Proof.Machine
end

