-- ==== Sys2Proof/Machine/Supervision.lean ====
section
/-!
DEFINITION. Supervision outside the data path: the seal (R499), the measurements of supply and temperature (R516, R531, R532), the
lifetime statistics (R504) and the SMBus (R529 to R531).
-/
namespace Sys2Proof.Machine

/-- The seal pin at a level that has held for 20 ms: a level that differs from the recorded one is franked (R499). -/
def sealNow (s : State) (open_ storeOk : Bool) : State :=
  let s := { s with franking := { s.franking with sealOpen := open_, failing := if storeOk then 0 else 1 } }
  let s := if s.page.sealOpen = open_ then s else frankSeal s open_ false
  { s with franking := { s.franking with failing := 0 } }

/-- SEAL_CHANGE: the pin moves, and once its level has held for 20 ms it is the debounced one (R499). In OFF only the pin moves. -/
def execSealChange (open_ : Bool) (how : SealLevel) (s : State) : Res :=
  let s := { s with pins := { s.pins with sealOpenN := !open_ } }
  .next (if s.powered && how.held then sealNow s open_ how.storeOk else s)

/-- The limits of a rail's tolerance and its brownout threshold, in mV (Table 17-1). -/
def railLow (k : Nat) : Nat := nth [873, 1152, 1710] k
def railHigh (k : Nat) : Nat := nth [927, 1248, 1890] k
def railBrown (k : Nat) : Nat := nth [850, 1120, 1680] k

/-- A rail as a measurement finds it: above its tolerance, in it, between its lower limit and its brownout threshold, or below that (R510,
R531, R532). A brownout has a row of its own, and lasts while the rail is below its threshold. -/
def railMeasured (r : RailState) (k mv : Nat) : RailState :=
  if railHigh k < mv then .high else if railLow k ≤ mv then .ok else if railBrown k ≤ mv then .marginal
  else if r == RailState.brownout then r else .low

/-- The PW_ registers after one measurement (R532). -/
def measured (s : State) (m : PwMeas) : State :=
  let rails := (List.range 3).map (fun k => railMeasured (s.pins.rails.getD k .off) k (nth m.volts k))
  let fell := (List.range 3).filter (fun k => s.pins.rails.getD k .off == RailState.ok && rails.getD k .off != RailState.ok)
  let clip (l : List Nat) (n : Nat) : List Nat := (List.range n).map (fun k => min 65535 (nth l k))
  let p := s.power
  { s with
    pins := { s.pins with rails := rails }
    power := { p with
      volts := clip m.volts 3, currs := clip m.currs 3, total := min 65535 m.total, exported := min 65535 m.exported
      die := satInt 16 m.die, peakDie := peak p.peakDie (satInt 16 m.die), dram := satInt 16 m.dram, dramHot := m.dramHot
      dieWarn := decide (1600 ≤ m.die), dramWarn := decide (1360 ≤ m.dram)
      islandIn := clip m.islandIn 16, islandOut := clip m.islandOut 16, xferNow := (List.range 16).map (fun k => m.xferLimit.getD k false)
      alertXfer := p.alertXfer || m.xferLimit.any id, alertDie := p.alertDie || decide (1600 ≤ m.die)
      alertDram := p.alertDram || decide (1360 ≤ m.dram), alertRail := fell.foldl (fun a k => setBit a k true) p.alertRail } }

/-- The over-temperature faults of Table 17-5 that these sensors raise: the core die at 105 °C, and the DRAM above twice its base refresh
rate. -/
def hotFaults (s : State) : State :=
  let t (v : Int) : Nat := (v % 65536).toNat
  let s := if 1680 ≤ s.power.die && s.ticking then detect s ⟨0x0F, 0⟩ 0x0C (t s.power.die) (faultFrameNow s 0x0F) else s
  if s.power.dramHot && s.ticking then detect s ⟨0x08, 0⟩ 0x0C (t s.power.dram) (faultFrameNow s 0x08) else s

/-- A measurement that finds VDD_AUX in tolerance shows that it is back after its brownout (R529, log entry 34). -/
def auxFound (s : State) (mv : Nat) : State :=
  if s.pins.rails.getD 2 .off == RailState.brownout && railLow 2 ≤ mv && mv ≤ railHigh 2 then
    { s with pins := { s.pins with rails := s.pins.rails.set 2 .ok } }
  else s

/-- PW_MEASUREMENT_UPDATE: from power-good, in every state in which VDD_AUX is there to measure with (R532). -/
def execPwMeasurementUpdate (m : PwMeas) (s : State) : Res :=
  let found := auxFound s (nth m.volts 2)
  if !found.measuring then .next s
  else
    let s := measured found m
    .next (if s.powered then hotFaults s else s)

/-- LIFETIME_STATISTICS_UPDATE: every 60 s (R504). -/
def execLifetimeStatisticsUpdate (seconds : Nat) (s : State) : Res := .next (if s.powered then lifetimeUpdate s seconds else s)

/-! ## SMBus -/

/-- The SMBus answers in every state but while VDD_AUX has browned out and is not back (R529, R510). Before the first power-good no row tells of
VDD_AUX, and a command that comes is one that the interface is there to answer (log entry 34). -/
def smbusUp (s : State) : Bool := s.auxUp

/-- The PEC byte of an SMBus transfer (SMBus 3.1): CRC-8 over all its bytes, addresses included. -/
def smbusPec (b : Bytes) : Byte := crc8 b

/-- The value of a command code (Table 17-12). -/
def smbusValue (s : State) (code : Nat) : Nat :=
  if code = 0x01 then modStateReg s
  else if code = 0x02 then bindErrorReg s
  else if code = 0x03 then lidReg s
  else if code = 0x04 then s.page.franking
  else if code = 0x10 then pwReg s 0x00
  else if code = 0x11 then pwReg s 0x04
  else if 0x12 ≤ code && code ≤ 0x14 then pwReg s (0x10 + 4 * (code - 0x12))
  else if code = 0x15 then pwReg s 0x20
  else if code = 0x16 then pwReg s 0x24
  else if 0x20 ≤ code && code < 0x30 then pwReg s (0x100 + 4 * (code - 0x20))
  else if 0x40 ≤ code && code < 0x50 then fgTempReg s (code - 0x40)
  else 0

/-- SMBUS_BLOCK_READ: a byte count of 4, the value, least significant byte first, and the PEC over the transfer at address 0x3A (R529, R530). -/
def execSmbusBlockRead (code : Nat) (s : State) : Res :=
  let b := 4 :: le 4 (smbusValue s code)
  .next (if smbusUp s then emit s (.smbus b (smbusPec ([0x74, BitVec.ofNat 8 code, 0x75] ++ b))) else s)

/-- SMBUS_ALERT_RESPONSE: the module's address, while ALERT_N is low, with its PEC (R529, R531). -/
def execSmbusAlertResponse (s : State) : Res :=
  .next (if smbusUp s && s.alertLow then emit s (.smbusAddress 0x3A (smbusPec [0x19, 0x74])) else s)

end Sys2Proof.Machine
end

