-- ==== Sys2Proof/Machine/MemoryRound.lean ====
section
/-!
DEFINITION. The schedule of capture memory (R314 to R318): rounds, the write slots of history, the read credit of record definitions, and
free capacity.
-/
namespace Sys2Proof.Machine

/-- Rounds of 500 ns in one frame: 125 for each 62.5 µs (R314). -/
def State.roundsPerFrame (s : State) : Nat := 125 * s.cfg.module_.frame

/-- Slots of a round (Table 10-3), and the bytes of one. -/
def writeSlots : Nat := 1120
def readSlots : Nat := 750
def freeSlots : Nat := 130
def slotBytes : Nat := 32

/-! ## History writes (R314, R315) -/

/-- Slots that `n` bytes from byte `a` of a ring use: a slot writes within one burst of 32 bytes. -/
def slotsFor (a n : Nat) : Nat := if n = 0 then 0 else cdiv (a % slotBytes + n) slotBytes

/-- The frame in its work window, where it carries field data and history is written. -/
def writingFrame (s : State) : Option FrameSet :=
  if !s.canReadHistory then none else (s.frameAt? s.released).filter (·.field)

/-- Write slots of the window in the order of their places (assumption 33): each stream's reserved slots, of which it uses the first that its bytes
need, in ring order; then those of the frame index. Pairs of used and reserved. -/
def windowSlots (s : State) : List (Nat × Nat) :=
  let hs := histRings s
  let used : List Nat := match writingFrame s with
    | some f =>
      let t := (workFrame s f).1
      hs.map (fun h => match (tget {} t.hist h.stream).frames.head? with
        | some e => if e.count = f.count then slotsFor e.start e.len else 0
        | none => 0)
    | none => hs.map (fun _ => 0)
  let index := cdiv hs.length 2
  (hs.zipIdx.map (fun e => (used.getD e.2 0, cdiv e.1.bmax 32 + 1))) ++ [(if (writingFrame s).isSome then index else 0, index)]

/-- How many slots in [a, b) of the window the reserving streams use. -/
def usedIn (a b : Nat) : Nat → List (Nat × Nat) → Nat
  | _, [] => 0
  | o, (u, r) :: l => (min b (o + u) - max a o) + usedIn a b (o + r) l

/-- The round's number in the open work window: the window opens 16 rounds into a frame (R22). -/
def windowRound (s : State) : Nat := (s.banks.rounds + s.roundsPerFrame - 16) % max 1 s.roundsPerFrame

/-- The write slots of a round that no stream uses. -/
def freeWrites (s : State) : Nat :=
  let k := windowRound s
  writeSlots - usedIn (k * writeSlots) ((k + 1) * writeSlots) 0 (windowSlots s)

/-! ## Read credit (R317) -/

/-- Whole bytes of credit that a rate has earned in `k` rounds (R317). -/
def earnedBy (r : Frac) (k : Nat) : Nat := r.1 * k / (2000000 * max 1 r.2)

/-- A definition's credit at the start of a round: what it earns is added, up to one frame's worth. -/
def earnCredit (s : State) (old : Nat) (r : Frac) : Nat :=
  let k := s.banks.rounds
  min (earnedBy r s.roundsPerFrame) (old + (earnedBy r (k + 1) - earnedBy r k))

/-- A reader with something to read: its key, what it reads, the bytes that remain, and the place of its trigger in time. -/
structure Reader where
  key  : Nat
  what : List Nat
  left : Nat
  age  : Nat
  deriving DecidableEq, Repr

/-- What a reader has still to read of `n` bytes. -/
def readLeft (s : State) (key : Nat) (what : List Nat) (n : Nat) : Nat :=
  match s.banks.reading.find? (fun e => e.1 == key && e.2.1 == what) with
  | some e => n - e.2.2
  | none => n

/-- The bytes of history in an item: its LENGTH without the header and the common part of its payload. -/
def readBytesOf (s : State) (i : Item) : Nat := itemLength s i - 64

/-- The place in time of a run's trigger, or of the start of a gate interval, in grid samples (R317). -/
def triggerAge (s : State) (q : RecQ) (x : Option Run) : Nat :=
  match x with
  | some x => if q.kind = 4 then x.lo.toNat else gridOf s x.trigCount + x.sample
  | none => 0

/-- The parts of definition `q` that wait on its ring, in their order. -/
def waitingParts (s : State) (q : RecQ) : List Reader :=
  match recRing s.cfg q with
  | none => []
  | some k =>
    (s.ring (deliveryRing k)).ready.filterMap (fun i =>
      let part (r no seg chunk idx : Nat) : Option Reader :=
        if r = q.rec_ then
          some { key := r, what := [no, seg, chunk, idx], left := readLeft s r [no, seg, chunk, idx] (readBytesOf s i)
                 age := triggerAge s q ((s.recd r).run? no seg) }
        else none
      match i with
      | .part r no seg chunk idx => part r no seg chunk idx
      | .stream r no chunk idx => part r no 0 chunk idx
      | _ => none)

/-- The parts of every definition. -/
def partReaders (s : State) : List Reader := s.cfg.records.flatMap (waitingParts s)

/-- The history bytes that the next envelope of a readout reads. -/
def readoutBytes (s : State) (x : Readout) : Nat :=
  let b := min (x.next + 63) x.last
  ((upFrom x.next (b + 1 - x.next)).filterMap (fun (c : Nat) => heldFrame s x.stream (c : Int))).foldl (fun a f => a + f.len) 0

/-- The best-effort readers of R318: each span readout command, and each compression lane that reads history. -/
def freeReaders (s : State) : List Reader :=
  let outs := if s.fenced 0x0F 0 then [] else (s.rings.rings.flatMap (fun e => readoutsOf e.2.ready)).map (fun x =>
    let key := 0x10000 + x.serial
    { key := key, what := [x.next], left := readLeft s key [x.next] (readoutBytes s x), age := 0 : Reader })
  let lanes := s.jobs.jobs.flatMap (fun j => if j.kind ≠ 1 then [] else j.blocks.filterMap (fun b =>
    match b.lane, b.st with
    | some l, .running =>
      let key := 0x3000 + l
      some { key := key, what := [j.id, b.idx], left := readLeft s key [j.id, b.idx] (j.plain.drop (b.idx * 1048576) |>.take 1048576).length, age := 0 }
    | _, _ => none))
  outs ++ lanes

/-- One slot has been served to a reader. -/
def servedBy (l : List Reader) (x : Reader) : List Reader :=
  l.map (fun r => if r.key = x.key && r.what == x.what then { r with left := r.left - slotBytes } else r)

/-- The part that a read slot serves (R317): the first unread one of the definition with the most credit, the lowest REC among equals; where none holds
32 bytes of credit, the waiting part with the oldest trigger, the lowest REC among equals (the rule gives no tie order there: DESIGN CHOICE, log
entry 33). Answers the reader and whether credit is deducted. -/
def pickReader (credit : Tbl Nat) (l : List Reader) : Option (Reader × Bool) :=
  let w := l.filter (fun r => r.left ≠ 0)
  let rich := w.filter (fun r => slotBytes ≤ tget 0 credit r.key)
  match rich with
  | r :: rs => some (rs.foldl (fun a x =>
      if tget 0 credit a.key < tget 0 credit x.key || (tget 0 credit a.key = tget 0 credit x.key && x.key < a.key) then x else a) r, true)
  | [] => match w with
    | r :: rs => some (rs.foldl (fun a x => if x.age < a.age || (x.age = a.age && x.key < a.key) then x else a) r, false)
    | [] => none

/-- The read slots of a round: what remains of credit and of each reader, and the slots that pass to best-effort reads. -/
def serveReads : Nat → Tbl Nat → List Reader → Tbl Nat × List Reader × Nat
  | 0, credit, l => (credit, l, 0)
  | n + 1, credit, l =>
    match pickReader credit l with
    | some (r, pays) =>
      serveReads n (if pays then tmod 0 credit r.key (fun c => c - slotBytes) else credit) (servedBy l r)
    | none => (credit, l, n + 1)

/-- The next best-effort reader in turn after the one served last (R318). -/
def nextTurn (last : Nat) (l : List Reader) : Option Reader :=
  let w := sortBy (·.key) (l.filter (fun r => r.left ≠ 0))
  (w.find? (fun r => last < r.key)).orElse (fun _ => w.head?)

/-- The slots of free capacity that best-effort reads use: how many, what remains, and the one served last. -/
def serveFree : Nat → Nat → Nat → List Reader → Nat × List Reader × Nat
  | 0, used, last, l => (used, l, last)
  | n + 1, used, last, l =>
    match nextTurn last l with
    | some r => serveFree n (used + 1) r.key (servedBy l r)
    | none => (used, l, last)

/-- What has been read of everything that waits, after a round: `before` and `after` list the readers in the same order. -/
def keepReading (s : State) (before after : List Reader) : List (Nat × List Nat × Nat) :=
  ((before.zip after).map (fun e =>
    let got := ((s.banks.reading.find? (fun x => x.1 == e.1.key && x.2.1 == e.1.what)).map (·.2.2)).getD 0
    (e.1.key, e.1.what, got + (e.1.left - e.2.left)))).filter (fun e => e.2.2 ≠ 0)

/-- The slots that the control cluster takes last (R318), for reads and writes that it still wants: `free` slots of the free block and `passed`
read slots, of which the readers have used `used`, the read slots first; and the write slots that no stream uses. -/
def furtherSlots (free passed used writes wantReads wantWrites : Nat) : Nat :=
  let left := free + passed - used
  let r := min wantReads left
  let w := min wantWrites writes
  r + w + min (wantWrites - w) (min free (left - r))

/-- One round, in which the control cluster wants so many read and write slots: R318 gives it a place in the order and no demand. -/
def round (s : State) (ccReads ccWrites : Nat) : State :=
  let b := s.banks
  let credit := s.cfg.records.foldl (fun t q => match readRate s.cfg q with
    | some r => tput t q.rec_ (earnCredit s (tget 0 b.credit q.rec_) r)
    | none => t) b.credit
  let parts := if s.canReadHistory then partReaders s else []
  let frees := if s.canReadHistory then freeReaders s else []
  let (credit, parts', passed) := serveReads readSlots credit parts
  let first := min 16 (ccReads + ccWrites)
  let (used, frees', last) := serveFree (freeSlots - first + passed) 0 b.lastServed frees
  let cc := first + furtherSlots (freeSlots - first) passed used (freeWrites s) (ccReads - min first ccReads) (ccWrites - (first - min first ccReads))
  { s with banks := { b with
    rounds := b.rounds + 1, credit := credit, freeNow := b.freeNow + used + cc, lastServed := last
    reading := if s.canReadHistory then keepReading s (parts ++ frees) (parts' ++ frees') else b.reading } }

/-- Single-bit link errors corrected on the transfers of a round (R320, R482). -/
def countCorrected (s : State) (n : Nat) : State :=
  aerCorrected { s with banks := { s.banks with dramCorr := satAdd 32 s.banks.dramCorr n } } n

/-- MEMORY_ROUND: the next round of the frame being sampled begins (R314), with what the one before has met (R320) and what the control
cluster wants of it (R318). While the DRAM is in self-refresh there are none (R322, R454). -/
def execMemoryRound (work : RoundWork) (s : State) : Res :=
  if s.ticking && decide (0 < s.time.ticks) && s.clocks.pllM.lock && s.coreClock && decide (s.banks.rounds < s.roundsPerFrame) then
    .next (round (countCorrected (advanceTo s (s.tickOf s.curFrame + 8000 * s.banks.rounds)) work.corrected) work.ccReads work.ccWrites)
  else .next s

end Sys2Proof.Machine
end

