-- ==== Sys2Proof/Machine/TimeRows.lean ====
section
/-!
DEFINITION. The time domains (R406 to R411): PTP messages, Delay_Req, PPS_IN and loss; PPS_OUT (R419); and the links of the Ethernet
ports (R423, R426).
-/
namespace Sys2Proof.Machine

/-- The state at an instant that something scheduled names; none where the next frame tick comes first. -/
def atInstant (s : State) (t : Nat) : Option State :=
  match s.nextTick with
  | some n => if n < t && s.now < t then none else some (advanceTo s t)
  | none => some (advanceTo s t)

/-! ## Frames on the ports -/

/-- A frame arrives on a port that is up (R424, R426); it is counted, and `k` says what it does. -/
def onPort (s : State) (p : Nat) (k : State → State) : State :=
  if p < 2 && (s.time.eth p).link then k (modEth s p (fun e => { e with rx := satAdd 32 e.rx 1 })) else s

/-- A received frame that the module does not take (R424). -/
def dropFrame (s : State) (p : Nat) : State := modEth s p (fun e => { e with rxDrop := satAdd 32 e.rxDrop 1 })

/-- The head of every frame that a port sends (R423, R424, Table 13-9). -/
def ethHead (s : State) (p : Nat) : EthHead :=
  let q := s.cfg.port p
  { src := portMac s.franking.mem p, vlan := if q.vlan = 0 then none else some (q.vlan, q.pcp) }

/-- One frame is sent on a port. -/
def sentFrame (s : State) (p : Nat) (m : NetMsg) : State :=
  emit (modEth s p (fun e => { e with tx := satAdd 32 e.tx 1 })) (.frame p (ethHead s p) m)

/-- FRAME_DISCARD. -/
def execFrameDiscard (p : Nat) (s : State) : Res := .next (onPort s p (fun s => dropFrame s p))

/-- ETH_LINK_UP (R423): a port that is off in the Folio has no link. -/
def execEthLinkUp (p : Nat) (s : State) : Res :=
  .next (if p < 2 && (s.cfg.port p).pmode ≠ 0 then modEth s p (fun e => { e with link := true }) else s)

/-- ETH_LINK_DOWN (R426): its domains hear nothing more, and time out under Table 13-2. -/
def execEthLinkDown (p : Nat) (s : State) : Res := .next (if p < 2 then modEth s p (fun e => { e with link := false }) else s)

/-! ## PTP (R410, R411) -/

/-- The domain takes PTP messages on this port over this transport with this domainNumber (Table 13-3). -/
def ptpDomain (f : Folio) (x p : Nat) (h : PtpHead) : Bool :=
  let q := f.dom x
  q.source = (if h.udp then 1 else 2) && q.port = p && q.ptpDomain = h.domain

/-- The domain for which a PTP message is (R410); both never share a domainNumber on a port (R432). -/
def domainFor (f : Folio) (p : Nat) (h : PtpHead) : Option Nat := [0, 1].find? (fun x => ptpDomain f x p h)

/-- The versions of PTP that the module supports (Table 13-3). -/
def ptpSupported (h : PtpHead) : Bool := h.version = 2 && decide (h.minor ≤ 1)

/-- A PTP message for a domain on its port; any other is discarded. One of another version is ignored as malformed (R410, TB_DOMx_ERR), and
is a frame discarded (R424). -/
def onPtp (s : State) (p : Nat) (h : PtpHead) (k : State → Nat → State) : State :=
  onPort s p (fun s => match domainFor s.cfg p h with
    | some x =>
      let s := modDom s x (fun d => d.heardUntil s.now)
      if ptpSupported h then k s x else dropFrame (modDom s x (fun d => { d with err := satAdd 32 d.err 1 })) p
    | none => dropFrame s p)

/-- One message or pulse is accepted (TB_DOMx_RX). -/
def countRx (d : Domain) : Domain := { d with rx := satAdd 32 d.rx 1 }

/-- The dataset comparison of IEEE 1588-2019: the first of two masters is the better (R410). -/
def betterMaster (a b : AnnounceData) : Bool :=
  let key (m : AnnounceData) : List Nat :=
    if a.gmId = b.gmId then [m.stepsRemoved, m.head.sender] else [m.priority1, m.quality, m.priority2, m.gmId]
  match compare (key a) (key b) with
  | .lt => true
  | _ => false

/-- The best of the masters heard. A master whose Sync interval is not 1/16 s to 16 s is not selected (Table 13-3). -/
def bestMaster (l : List AnnounceData) : Option AnnounceData :=
  match l.filter (fun m => decide (-4 ≤ m.logSync ∧ m.logSync ≤ 4)) with
  | [] => none
  | m :: ms => some (ms.foldl (fun a b => if betterMaster b a then b else a) m)

/-- A domain takes the selection among the masters it has heard at an instant; another master begins its exchanges afresh. With none that
may be selected the silence since the last one still ends in LOST (R408). -/
def selectMaster (now : Nat) (d : Domain) : Domain :=
  match bestMaster d.masters with
  | none => { d with master := none, utc := none }
  | some m =>
    let same := d.master = some m.head.sender
    { d with
      master := some m.head.sender, annLog := m.logAnnounce, annAt := if same then d.annAt else some now
      syncAt := if same then d.syncAt else some now
      gm := m.gmId, logSync := m.logSync, utc := m.utcOffset
      syncRx := if same then d.syncRx else none, syncOrigin := if same then d.syncOrigin else none
      lastSync := if same then d.lastSync else none, reqTx := if same then d.reqTx else none }

/-- An Announce is taken into the masters heard; that of the selected master is the latest heard from it. -/
def hearAnnounce (now : Nat) (a : AnnounceData) (d : Domain) : Domain :=
  selectMaster now { domainHeard (countRx d) with
    masters := a :: d.masters.filter (fun m => m.head.sender ≠ a.head.sender)
    annAt := if d.master = some a.head.sender then some now else d.annAt }

/-- ANNOUNCE. -/
def execAnnounce (p : Nat) (a : AnnounceData) (s : State) : Res :=
  .next (onPtp s p a.head (fun t x => modDom t x (hearAnnounce s.now a)))

/-- A message of the selected master; one of any other sender is ignored. -/
def fromMaster (s : State) (x sender : Nat) (k : Domain → Domain) : State :=
  modDom s x (fun d => if d.master = some sender then k (countRx d) else d)

/-- A Sync of the master: stamped now; a one-step Sync is complete, a two-step one waits for its Follow_Up. -/
def hearSync (s : State) (m : SyncData) (d : Domain) : Domain :=
  let d := { d with syncSeq := m.seqId, syncAt := some s.now }
  if m.twoStep then { d with syncRx := some s.firmMark, syncOrigin := some m.correction }
  else { d with syncRx := none, syncOrigin := none, lastSync := some (s.firmMark, m.origin + m.correction) }

/-- SYNC. -/
def execSync (p : Nat) (m : SyncData) (s : State) : Res :=
  .next (onPtp s p m.head (fun t x => fromMaster t x m.head.sender (hearSync s m)))

/-- FOLLOW_UP: the origin time of the two-step Sync with its sequence number. -/
def execFollowUp (p : Nat) (m : SyncData) (s : State) : Res :=
  .next (onPtp s p m.head (fun s x => fromMaster s x m.head.sender (fun d =>
    match d.syncRx, d.syncOrigin with
    | some rx, some c =>
      if d.syncSeq = m.seqId then { d with syncRx := none, syncOrigin := none, lastSync := some (rx, m.origin + m.correction + c) } else d
    | _, _ => d)))

/-- The interval between Delay_Req messages: the master's, but never shorter than 2^LOG_DELAY_REQ s (Table 13-3). -/
def reqInterval (s : State) (x : Nat) : Nat := secPow (max (s.time.dom x).reqLog (s.cfg.dom x).logDelayReq)

/-- The instant from which a domain may send its next Delay_Req. -/
def reqFrom (s : State) (x : Nat) : Nat :=
  match (s.time.dom x).reqAt with
  | some t => t + reqInterval s x
  | none => s.now

/-- Where a domain's Delay_Req goes: event port 319 of 224.0.1.129, or 01-1B-19-00-00-00 with Ethertype 0x88F7 (Table 13-3). -/
def ptpTo (source : Nat) : PtpTo := if source = 1 then .udp 0xE0000181 319 else .layer2 0x011B19000000 0x88F7

/-- DELAY_REQ: sent to the selected master at its interval, and stamped as its transmission completes (R411). -/
def execDelayReq (x : Nat) (s : State) : Res :=
  let q := s.cfg.dom x
  if x < 2 && (q.source = 1 || q.source = 2) && (s.time.eth q.port).link && (s.time.dom x).master.isSome then
    match atInstant s (reqFrom s x) with
    | some s =>
      let n := ((s.time.dom x).reqSeq + 1) % 65536
      .next (sentFrame (modDom s x (fun d => { d with reqSeq := n, reqTx := some s.firmMark, reqAt := some s.now })) q.port
        (.delayReq (ptpTo q.source) q.ptpDomain n))
    | none => .next s
  else .next s

/-- The mean path delay of a Sync received at `t2` with corrected origin `t1` and a Delay_Req sent at `t3` and received, corrected, at `t4`
(IEEE 1588-2019, end-to-end). -/
def meanDelay (t2 t3 : Postmark) (t1 t4 : Int) : Int := fdiv (postmarkDiff t2 t3 * 4096 + (t4 - t1)) 2

/-- DELAY_RESP: the exchange is complete, and gives one measurement at the Sync's receive stamp, with ASYM_NS (R408, R410). -/
def execDelayResp (p : Nat) (m : DelayData) (s : State) : Res :=
  .next (onPtp s p m.head (fun s x =>
    let d := s.time.dom x
    match d.reqTx with
    | none => s
    | some t3 =>
      if d.master ≠ some m.head.sender || d.reqSeq ≠ m.seqId then s
      else
        let s := modDom s x (fun d => { countRx d with reqTx := none, reqLog := satInt 8 m.logInterval })
        match d.lastSync with
        | none => s
        | some (t2, t1) =>
          let mean := meanDelay t2 t3 t1 (m.received - m.correction)
          let s := modDom s x (fun d => { d with delayNs := fdiv mean qNs })
          takeMeasurement s x t2 (t1 + mean + (s.cfg.dom x).asymNs * qNs)))

/-! ## PPS_IN (R407, R408, R411) -/

/-- The whole second nearest to a time. -/
def nearestSec (q : Int) : Int := fdiv (q + qSec / 2) qSec

/-- The domain time of a pulse placed at `p`: the other domain's time gives the second, until that has been TRACED once; from then on the
domain counts seconds from its last pulse (R407). The cable delay ASYM_NS comes on top. -/
def pulseTime (s : State) (x : Nat) (p : Postmark) : Option Int :=
  let d := s.time.dom x
  let cable := (s.cfg.dom x).asymNs * qNs
  match (s.time.dom (1 - x)).everTraced, d.lastSync with
  | true, some (p0, t0) => some (t0 + nearestSec (postmarkDiff p p0 * 4096) * qSec)
  | _, _ => ((s.time.dom (1 - x)).timeAt p).map (fun t => nearestSec (t - cable) * qSec + cable)

/-- PPS_IN_PULSE: one measurement of each domain whose source is PPS_IN; a pulse that no second can be given to is heard only. -/
def pulseIn (s : State) (p : Postmark) (x : Nat) : State :=
  if (s.cfg.dom x).source ≠ 3 then s
  else
    let t := pulseTime s x p
    let at_ := (s.now + postmarkDiff p s.postmark).toNat
    let s := modDom s x (fun d =>
      { domainHeard (countRx (d.heardUntil at_)) with lastSync := t.map (fun v => (p, v)), pulseAt := some at_ })
    match t with
    | some v => takeMeasurement s x p v
    | none => s

/-- PPS_IN_PULSE. -/
def execPpsInPulse (at_ : Postmark) (s : State) : Res := .next (if s.powered then [0, 1].foldl (fun s x => pulseIn s at_ x) s else s)

/-- DOMAIN_LOST: the source of a domain has been silent for too long (Table 13-2), unless a frame tick comes first. -/
def execDomainLost (x : Nat) (s : State) : Res :=
  match (s.time.dom (x % 2)).lostFrom with
  | some t => .next (((atInstant s t).map (fun s => modDom s (x % 2) domainLose)).getD s)
  | none => .next s

/-! ## PPS_OUT (R419) -/

/-- PPS_OUT pulses now: it is enabled, and the timeline is traced, coasts, or may be UNTRACED. -/
def ppsRuns (s : State) : Bool := s.isBound && s.cfg.time.ppsOutEn && (s.time.tl != TlState.untraced || s.cfg.time.ppsOutUntraced)

/-- The whole second of the next pulse: the first from now that is later than the last that had one. -/
def ppsSecond (s : State) (q : Int) : Int :=
  let up := -(fdiv (-q) qSec)
  match s.time.ppsLast with
  | some l => max up (l + 1)
  | none => up

/-- The postmark, to the nearest bin of 62.5 ps, at which a segment reaches a disciplined time, as pu from its anchor. -/
def Seg.reach (g : Seg) (q : Int) : Int := divUp ((q - g.q) * 2 ^ 28) (2 ^ 40 + g.rho).toNat

/-- PPS_OUT_PULSE: the pin rises at the next whole second, unless a frame tick comes first. -/
def execPpsOutPulse (s : State) : Res :=
  if !ppsRuns s then .next s
  else match segOf s.time.segs s.postmark with
    | none => .next s
    | some g =>
      let sec := ppsSecond s (g.timeAt s.postmark)
      let at_ := (s.now : Int) + (g.reach (sec * qSec) - postmarkDiff s.postmark g.anchor)
      match atInstant s at_.toNat with
      | some s => .next { s with
          pins := { s.pins with ppsOut := .high }
          time := { s.time with ppsLast := some sec, ppsEnd := some (s.now + s.cfg.time.ppsOutWidth * puUs) } }
      | none => .next s

/-- PPS_OUT_PULSE_END: the pulse under way has lasted its width. -/
def execPpsOutPulseEnd (s : State) : Res :=
  match s.time.ppsEnd with
  | some t => match atInstant s t with
    | some s => .next { s with pins := { s.pins with ppsOut := .low }, time := { s.time with ppsEnd := none } }
    | none => .next s
  | none => .next s

end Sys2Proof.Machine
end

