-- ==== Sys2Proof/Machine/NetRows.lean ====
section
/-!
DEFINITION. ARP and ICMP on the Ethernet ports (R424, R425), and the network streams (R427 to R430).
-/
namespace Sys2Proof.Machine

/-! ## Address resolution (R425) -/

/-- A multicast or broadcast destination, whose MAC address needs no ARP, and that address (RFC 1112). -/
def groupMac (ip : Nat) : Option Nat :=
  if ip = 0xFFFFFFFF then some 0xFFFFFFFFFFFF
  else if ip / 2 ^ 28 = 14 then some (0x01005E000000 + ip % 2 ^ 23)
  else none

/-- The address that is resolved for a unicast destination: its own within the prefix, otherwise the gateway's. -/
def nextHop (q : PortQ) (ip : Nat) : Nat :=
  let m := 2 ^ (32 - q.prefixLen)
  if ip / m = q.ipv4 / m then ip else q.gateway

/-- The MAC address for a destination, where it is known. -/
def macFor (s : State) (p ip : Nat) : Option Nat :=
  match groupMac ip with
  | some m => some m
  | none => (tget? (s.time.eth p).arp (nextHop (s.cfg.port p) ip)).map (·.1)

/-- An ARP request goes out. -/
def askArp (s : State) (p ip : Nat) : State := sentFrame s p (.arpAsk ip)

/-- ARP_REQUEST: one for the port's address is answered, and any other discarded (R424). -/
def execArpRequest (p asked : Nat) (s : State) : Res :=
  .next (onPort s p (fun s =>
    if (s.cfg.port p).ipv4 ≠ 0 && asked = (s.cfg.port p).ipv4 then sentFrame s p (.arpAnswer asked) else dropFrame s p))

/-- ARP_REPLY: it resolves an address that was asked for, or refreshes its entry. -/
def execArpReply (p ip mac : Nat) (s : State) : Res :=
  .next (onPort s p (fun s =>
    let e := s.time.eth p
    if (tget? e.asked ip).isSome || (tget? e.arp ip).isSome then
      modEth s p (fun e => { e with asked := tdel e.asked ip, arp := tput e.arp ip (mac % 2 ^ 48, s.now) })
    else dropFrame s p))

/-- ARP_RETRY: an unanswered request is repeated 1 s after the last one. -/
def execArpRetry (p ip : Nat) (s : State) : Res :=
  if p < 2 && (s.time.eth p).link then
    match tget? (s.time.eth p).asked ip with
    | some t => match atInstant s (t + puSec) with
      | some s => .next (askArp (modEth s p (fun e => { e with asked := tput e.asked ip s.now })) p ip)
      | none => .next s
    | none => .next s
  else .next s

/-- ARP_REFRESH: an entry is asked for again 60 s after it was last refreshed; the request is repeated as any other is until it is answered
(R425). -/
def execArpRefresh (p ip : Nat) (s : State) : Res :=
  if p < 2 && (s.time.eth p).link && (tget? (s.time.eth p).asked ip).isNone then
    match tget? (s.time.eth p).arp ip with
    | some (_, t) => match atInstant s (t + 60 * puSec) with
      | some s => .next (askArp (modEth s p (fun e => { e with asked := tput e.asked ip s.now })) p ip)
      | none => .next s
    | none => .next s
  else .next s

/-- ICMP_ECHO_REQUEST: up to 1,472 bytes of data are answered with the same data (R424). -/
def execIcmpEchoRequest (p len : Nat) (data : Bytes) (s : State) : Res :=
  .next (onPort s p (fun s =>
    if (s.cfg.port p).ipv4 ≠ 0 && len ≤ 1472 then sentFrame s p (.icmpAnswer (sub data 0 len)) else dropFrame s p))

/-! ## Streams -/

/-- MTU of a port in bytes, and the data area of its datagrams (R427). -/
def PortQ.mtuBytes (q : PortQ) : Nat := if q.mtu = 1 then 9000 else 1500
def PortQ.area (q : PortQ) : Nat := (q.mtuBytes - 60) / 32 * 32

/-- The stream of the port to be served next that has an address and something to send: in ascending order after the last one (R430). -/
def streamTurn (s : State) (p : Nat) : Option Nat :=
  let l := (s.cfg.delivery.streams.filter (fun q => q.port = p && !(tget [] s.rings.netReady q.stream).isEmpty &&
    (macFor s p q.destIp).isSome)).map (·.stream)
  match (s.time.eth p).lastStream with
  | some k => (l.find? (fun x => k < x)).orElse (fun _ => l.head?)
  | none => l.head?

/-- The token bucket of a port now, in units of 1/128,000 byte: RATE_MBPS fills it up to two maximum datagrams (R430). -/
def bucket (s : State) (p : Nat) : Nat :=
  let q := s.cfg.port p
  let e := s.time.eth p
  min (2 * (32 + q.area + 66) * 128000) (e.tokens + (s.now - e.filledAt) * q.rateMbps)

/-- Envelopes from the head of a list that a data area holds. -/
def packed : List Envelope → Nat → List Envelope
  | [], _ => []
  | e :: l, room => if e.length ≤ room then e :: packed l (room - e.length) else []

/-- A datagram: its payload, and what it leaves of the stream and of its staged envelopes. -/
structure Datagram where
  payload : Bytes
  stream : NetStream
  left : List Envelope

/-- The header of Table 13-6. -/
def dgramHeader (s : State) (k flags : Nat) (n : NetStream) (off count : Nat) : Bytes :=
  le 4 0x534E4B4C ++ le 1 1 ++ le 1 k ++ le 2 flags ++ le 4 n.dgram.toNat ++ le 4 n.seqNext.toNat ++ le 4 off ++ le 4 count ++
    le 4 (lidReg s) ++ zeros 4

/-- The bytes of consecutive envelopes from a SEQ on. -/
def seqBytes : List Envelope → Word32 → Bytes
  | [], _ => []
  | e :: l, q => e.bytes q ++ seqBytes l (q + 1)

/-- The next datagram of stream `k` (R427, R428). -/
def nextDatagram (s : State) (k area : Nat) : Option Datagram :=
  let n := tget {} s.time.streams k
  match tget [] s.rings.netReady k with
  | [] => none
  | e :: l =>
    if area < e.length then
      let len := min area (e.length - n.fragOff)
      let last := n.fragOff + len = e.length
      some { payload := dgramHeader s k (1 + 2 * b2n last) n n.fragOff 0 ++ sub (e.bytes n.seqNext) n.fragOff len
             stream := { n with dgram := n.dgram + 1, frag := satAdd 32 n.frag 1, fragOff := if last then 0 else n.fragOff + len
                                seqNext := if last then n.seqNext + 1 else n.seqNext }
             left := if last then l else e :: l }
    else
      let es := packed (e :: l) area
      some { payload := dgramHeader s k 0 n 0 es.length ++ seqBytes es n.seqNext
             stream := { n with dgram := n.dgram + 1, seqNext := n.seqNext + BitVec.ofNat 32 es.length }
             left := (e :: l).drop es.length }

/-- The sum of 16-bit words, the first byte of each highest, the last padded with 0 (RFC 768). -/
def wordSum : Bytes → Nat
  | [] => 0
  | [a] => 256 * a.toNat
  | a :: b :: l => 256 * a.toNat + b.toNat + wordSum l

/-- The UDP checksum over pseudo header, header and payload (RFC 768): the complement of the one's complement sum, 0 sent as 0xFFFF. -/
def udpSum (src dst srcPort dstPort : Nat) (b : Bytes) : Nat :=
  let n := 8 + b.length
  let t := src / 65536 + src % 65536 + dst / 65536 + dst % 65536 + 17 + n + srcPort + dstPort + n + wordSum b
  65535 - t % 65535

/-- The heads of a stream's datagrams: from its port and SRC_UDP to DEST_IP and DEST_UDP, with its DSCP and the UDP checksum. -/
def udpHead (s : State) (q : StreamQ) (b : Bytes) : UdpHead :=
  let src := (s.cfg.port q.port).ipv4
  { src := src, dst := q.destIp, srcPort := q.srcUdp, dstPort := q.destUdp, dscp := q.dscp
    sum := udpSum src q.destIp q.srcUdp q.destUdp b }

/-- A datagram is handed to the MAC: the bucket pays for its payload and 66 bytes of framing, and its staging space is free. -/
def sendDatagram (s : State) (q : StreamQ) (mac cost : Nat) (d : Datagram) : State :=
  let p := q.port
  let have_ := bucket s p
  let s := modEth s p (fun e => { e with tokens := have_ - cost, filledAt := s.now, lastStream := some q.stream })
  let s := { s with rings := { s.rings with netReady := tput s.rings.netReady q.stream d.left }
                    time := { s.time with streams := tput s.time.streams q.stream d.stream } }
  ltrCheck (sentFrame s p (.datagram mac (udpHead s q d.payload) d.payload))

/-- The address of a stream's destination is asked for, once (R425); a destination without a gateway has none to ask for. -/
def resolveStream (s : State) (q : StreamQ) : State :=
  let ip := nextHop (s.cfg.port q.port) q.destIp
  if (tget? (s.time.eth q.port).asked ip).isSome || ip = 0 then s
  else askArp (modEth s q.port (fun e => { e with asked := tput e.asked ip s.now })) q.port ip

/-- DATAGRAM_SEND: the next datagram of a stream, in its turn and once the bucket holds it; a destination without an address is asked for
first (R425, R428, R430). -/
def execDatagramSend (k : Nat) (s : State) : Res :=
  match s.cfg.stream? k with
  | none => .next s
  | some q =>
    if !((s.time.eth q.port).link && s.coreClock && s.isBound) then .next s
    else match nextDatagram s k (s.cfg.port q.port).area, macFor s q.port q.destIp with
      | none, _ => .next s
      | some _, none => .next (resolveStream s q)
      | some d, some mac =>
        if streamTurn s q.port ≠ some k then .next s
        else
          let cost := (d.payload.length + 66) * 128000
          match atInstant s (s.now + cdiv (cost - bucket s q.port) (max 1 (s.cfg.port q.port).rateMbps)) with
          | some s => .next (sendDatagram s q mac cost d)
          | none => .next s

end Sys2Proof.Machine
end

