-- ==== Sys2Proof/Machine/Dispatch.lean ====
section
/-!
DEFINITION. The dispatch: one arm for each command of the table, each a direct call of its meaning.
-/
namespace Sys2Proof.Machine

/-- The effect of a command on everything but the queue. -/
def exec (i : Instr) (s : State) : Host.Outcome State Fault Refusal :=
  match i with
  | .powerGood env => Sys2Proof.Machine.execPowerGood env s
  | .modResetAssert => Sys2Proof.Machine.execModResetAssert s
  | .modResetRelease env => Sys2Proof.Machine.execModResetRelease env s
  | .railBrownout rail => Sys2Proof.Machine.execRailBrownout rail s
  | .railOutOfTolerance rail => Sys2Proof.Machine.execRailOutOfTolerance rail s
  | .watchdogReset lockstep env => Sys2Proof.Machine.execWatchdogReset lockstep env s
  | .lockstepMismatch env => Sys2Proof.Machine.execLockstepMismatch env s
  | .thermalShutdown => Sys2Proof.Machine.execThermalShutdown s
  | .thermalRestart env => Sys2Proof.Machine.execThermalRestart env s
  | .islandPowerWave k res => Sys2Proof.Machine.execIslandPowerWave k res s
  | .refInPresent pllSLocks => Sys2Proof.Machine.execRefInPresent pllSLocks s
  | .refInLost => Sys2Proof.Machine.execRefInLost s
  | .refWaitExpiry => Sys2Proof.Machine.execRefWaitExpiry s
  | .leaderChoiceTimeout => Sys2Proof.Machine.execLeaderChoiceTimeout s
  | .positionToken p => Sys2Proof.Machine.execPositionToken p s
  | .chainTokenTimeout => Sys2Proof.Machine.execChainTokenTimeout s
  | .alignmentMark => Sys2Proof.Machine.execAlignmentMark s
  | .armingEntry => Sys2Proof.Machine.execArmingEntry s
  | .runningEntry => Sys2Proof.Machine.execRunningEntry s
  | .frameTick => Sys2Proof.Machine.execFrameTick s
  | .frameNumberWrap => Sys2Proof.Machine.execFrameNumberWrap s
  | .timeRawWrap => Sys2Proof.Machine.execTimeRawWrap s
  | .coastingEnd => Sys2Proof.Machine.execCoastingEnd s
  | .memoryRound work => Sys2Proof.Machine.execMemoryRound work s
  | .frameRelease f => Sys2Proof.Machine.execFrameRelease f s
  | .rearm q => Sys2Proof.Machine.execRearm q s
  | .pulseEnd o => Sys2Proof.Machine.execPulseEnd o s
  | .envelopeWrite ring bad how => Sys2Proof.Machine.execEnvelopeWrite ring bad how s
  | .ringNotification ring => Sys2Proof.Machine.execRingNotification ring s
  | .recordPartWrite rec bad how => Sys2Proof.Machine.execRecordPartWrite rec bad how s
  | .streamEnvelopeWrite rec bad how => Sys2Proof.Machine.execStreamEnvelopeWrite rec bad how s
  | .measure rec how => Sys2Proof.Machine.execMeasure rec how s
  | .spanReadoutWrite ring bad how => Sys2Proof.Machine.execSpanReadoutWrite ring bad how s
  | .completion ring how => Sys2Proof.Machine.execCompletion ring how s
  | .deadLetterDrain how => Sys2Proof.Machine.execDeadLetterDrain how s
  | .datagramSend stream => Sys2Proof.Machine.execDatagramSend stream s
  | .doorbellWrite ring part value => Sys2Proof.Machine.execDoorbellWrite ring part value s
  | .commandFetch ring fetched entry => Sys2Proof.Machine.execCommandFetch ring fetched entry s
  | .nop => Sys2Proof.Machine.execNop s
  | .seqArm => Sys2Proof.Machine.execSeqArm s
  | .seqDisarm => Sys2Proof.Machine.execSeqDisarm s
  | .seqForce => Sys2Proof.Machine.execSeqForce s
  | .seqCommandApply => Sys2Proof.Machine.execSeqCommandApply s
  | .spanRead => Sys2Proof.Machine.execSpanRead s
  | .compress => Sys2Proof.Machine.execCompress s
  | .decompress => Sys2Proof.Machine.execDecompress s
  | .splitBlockDispatch => Sys2Proof.Machine.execSplitBlockDispatch s
  | .splitBlockComplete lane fault trouble => Sys2Proof.Machine.execSplitBlockComplete lane fault trouble s
  | .statsRead dest => Sys2Proof.Machine.execStatsRead dest s
  | .planSwitch => Sys2Proof.Machine.execPlanSwitch s
  | .planSwitchApply => Sys2Proof.Machine.execPlanSwitchApply s
  | .timePref => Sys2Proof.Machine.execTimePref s
  | .bankAssign => Sys2Proof.Machine.execBankAssign s
  | .ringReset => Sys2Proof.Machine.execRingReset s
  | .groupPowerDown => Sys2Proof.Machine.execGroupPowerDown s
  | .groupPowerDownApply g => Sys2Proof.Machine.execGroupPowerDownApply g s
  | .groupPowerUp res => Sys2Proof.Machine.execGroupPowerUp res s
  | .groupPowerUpRejoin g => Sys2Proof.Machine.execGroupPowerUpRejoin g s
  | .rebind => Sys2Proof.Machine.execRebind s
  | .rebindCtrlGo key => Sys2Proof.Machine.execRebindCtrlGo key s
  | .rebindDecision => Sys2Proof.Machine.execRebindDecision s
  | .rebindTeardown => Sys2Proof.Machine.execRebindTeardown s
  | .rebindDrainEnd env => Sys2Proof.Machine.execRebindDrainEnd env s
  | .flashRead len => Sys2Proof.Machine.execFlashRead len s
  | .flashProgram len => Sys2Proof.Machine.execFlashProgram len s
  | .flashErase4k len => Sys2Proof.Machine.execFlashErase4k len s
  | .flashErase64k len => Sys2Proof.Machine.execFlashErase64k len s
  | .flashOperationComplete ok => Sys2Proof.Machine.execFlashOperationComplete ok s
  | .winCommit k go => Sys2Proof.Machine.execWinCommit k go s
  | .bankOwnerWrite bank owner => Sys2Proof.Machine.execBankOwnerWrite bank owner s
  | .ringEnable ring value => Sys2Proof.Machine.execRingEnable ring value s
  | .ringDisable ring value => Sys2Proof.Machine.execRingDisable ring value s
  | .notifyUnmask ring value => Sys2Proof.Machine.execNotifyUnmask ring value s
  | .expansionMaxWrite value => Sys2Proof.Machine.execExpansionMaxWrite value s
  | .intxPendingWrite index value => Sys2Proof.Machine.execIntxPendingWrite index value s
  | .msixUnmask target => Sys2Proof.Machine.execMsixUnmask target s
  | .sqDeadLoRead q => Sys2Proof.Machine.execSqDeadLoRead q s
  | .imMeanLoRead e => Sys2Proof.Machine.execImMeanLoRead e s
  | .tbRawLoRead => Sys2Proof.Machine.execTbRawLoRead s
  | .tbDomGmLoRead x => Sys2Proof.Machine.execTbDomGmLoRead x s
  | .registerWrite offset allEnables data => Sys2Proof.Machine.execRegisterWrite offset allEnables data s
  | .windowRead k offset len cycles => Sys2Proof.Machine.execWindowRead k offset len cycles s
  | .windowWrite k offset data portB => Sys2Proof.Machine.execWindowWrite k offset data portB s
  | .perstN => Sys2Proof.Machine.execPerstN s
  | .hotReset => Sys2Proof.Machine.execHotReset s
  | .functionLevelReset => Sys2Proof.Machine.execFunctionLevelReset s
  | .hostPoolZeroed => Sys2Proof.Machine.execHostPoolZeroed s
  | .busMasterEnableClear => Sys2Proof.Machine.execBusMasterEnableClear s
  | .busMasterEnableSet => Sys2Proof.Machine.execBusMasterEnableSet s
  | .d3hotEntry => Sys2Proof.Machine.execD3hotEntry s
  | .d0Return => Sys2Proof.Machine.execD0Return s
  | .atsInvalidateRequest itag addr size => Sys2Proof.Machine.execAtsInvalidateRequest itag addr size s
  | .atsInvalidateCompletion => Sys2Proof.Machine.execAtsInvalidateCompletion s
  | .hostReadCompletion tag how data => Sys2Proof.Machine.execHostReadCompletion tag how data s
  | .hostReadTimeout tag => Sys2Proof.Machine.execHostReadTimeout tag s
  | .samples g m => Sys2Proof.Machine.execSamples g m s
  | .edges g m => Sys2Proof.Machine.execEdges g m s
  | .stamps g m => Sys2Proof.Machine.execStamps g m s
  | .status g m d => Sys2Proof.Machine.execStatus g m d s
  | .echo g m seq crc result => Sys2Proof.Machine.execEcho g m seq crc result s
  | .cal g m d => Sys2Proof.Machine.execCal g m d s
  | .ident g m d => Sys2Proof.Machine.execIdent g m d s
  | .idle g m => Sys2Proof.Machine.execIdle g m s
  | .echoTimeout g => Sys2Proof.Machine.execEchoTimeout g s
  | .laneLockLoss g lane => Sys2Proof.Machine.execLaneLockLoss g lane s
  | .tick g m => Sys2Proof.Machine.execTick g m s
  | .setChannel g m c => Sys2Proof.Machine.execSetChannel g m c s
  | .setRail g m rail on => Sys2Proof.Machine.execSetRail g m rail on s
  | .setMclk g m out div format => Sys2Proof.Machine.execSetMclk g m out div format s
  | .setTrim g m chan trim => Sys2Proof.Machine.execSetTrim g m chan trim s
  | .phaseStep g m => Sys2Proof.Machine.execPhaseStep g m s
  | .calStart g m pulses => Sys2Proof.Machine.execCalStart g m pulses s
  | .selfTest g m => Sys2Proof.Machine.execSelfTest g m s
  | .islandOff g m => Sys2Proof.Machine.execIslandOff g m s
  | .identReq g m => Sys2Proof.Machine.execIdentReq g m s
  | .islandBrownout g => Sys2Proof.Machine.execIslandBrownout g s
  | .railCurrentLimit g rail enter => Sys2Proof.Machine.execRailCurrentLimit g rail enter s
  | .overcurrent g rail => Sys2Proof.Machine.execOvercurrent g rail s
  | .pllSLossOfLock => Sys2Proof.Machine.execPllSLossOfLock s
  | .pllSRelock band => Sys2Proof.Machine.execPllSRelock band s
  | .groupRejoin g res => Sys2Proof.Machine.execGroupRejoin g res s
  | .faultHoldResume => Sys2Proof.Machine.execFaultHoldResume s
  | .pllCLossOfLock => Sys2Proof.Machine.execPllCLossOfLock s
  | .pllCRelock band env => Sys2Proof.Machine.execPllCRelock band env s
  | .pllMLossOfLock => Sys2Proof.Machine.execPllMLossOfLock s
  | .pllMRelock band => Sys2Proof.Machine.execPllMRelock band s
  | .pllFLossOfLock g => Sys2Proof.Machine.execPllFLossOfLock g s
  | .oscillatorFailure => Sys2Proof.Machine.execOscillatorFailure s
  | .syncInEdge offset => Sys2Proof.Machine.execSyncInEdge offset s
  | .ppsInPulse at_ => Sys2Proof.Machine.execPpsInPulse at_ s
  | .ppsOutPulse => Sys2Proof.Machine.execPpsOutPulse s
  | .ppsOutPulseEnd => Sys2Proof.Machine.execPpsOutPulseEnd s
  | .announce port d => Sys2Proof.Machine.execAnnounce port d s
  | .sync port d => Sys2Proof.Machine.execSync port d s
  | .followUp port d => Sys2Proof.Machine.execFollowUp port d s
  | .delayReq x => Sys2Proof.Machine.execDelayReq x s
  | .delayResp port d => Sys2Proof.Machine.execDelayResp port d s
  | .domainLost x => Sys2Proof.Machine.execDomainLost x s
  | .arpRequest port asked => Sys2Proof.Machine.execArpRequest port asked s
  | .arpReply port ip mac => Sys2Proof.Machine.execArpReply port ip mac s
  | .arpRetry port ip => Sys2Proof.Machine.execArpRetry port ip s
  | .arpRefresh port ip => Sys2Proof.Machine.execArpRefresh port ip s
  | .icmpEchoRequest port len data => Sys2Proof.Machine.execIcmpEchoRequest port len data s
  | .frameDiscard port => Sys2Proof.Machine.execFrameDiscard port s
  | .ethLinkDown port => Sys2Proof.Machine.execEthLinkDown port s
  | .ethLinkUp port => Sys2Proof.Machine.execEthLinkUp port s
  | .sealChange open_ storeOk => Sys2Proof.Machine.execSealChange open_ storeOk s
  | .fence u cause detail => Sys2Proof.Machine.execFence u cause detail s
  | .quarantineEnd u => Sys2Proof.Machine.execQuarantineEnd u s
  | .selfTestComplete u pass res => Sys2Proof.Machine.execSelfTestComplete u pass res s
  | .readmit u => Sys2Proof.Machine.execReadmit u s
  | .pwMeasurementUpdate m => Sys2Proof.Machine.execPwMeasurementUpdate m s
  | .lifetimeStatisticsUpdate seconds => Sys2Proof.Machine.execLifetimeStatisticsUpdate seconds s
  | .smbusBlockRead code => Sys2Proof.Machine.execSmbusBlockRead code s
  | .smbusAlertResponse => Sys2Proof.Machine.execSmbusAlertResponse s
  | .trigInEdge input rise offset => Sys2Proof.Machine.execTrigInEdge input rise offset s
  | .zoneChange chan microvolts offset fine => Sys2Proof.Machine.execZoneChange chan microvolts offset fine s
  | .perstNRelease => Sys2Proof.Machine.execPerstNRelease s
  | .interruptDisableSet which => Sys2Proof.Machine.execInterruptDisableSet which s
  | .ltrMechanismEnable => Sys2Proof.Machine.execLtrMechanismEnable s
  | .unsupportedRequest kind => Sys2Proof.Machine.execUnsupportedRequest kind s

end Sys2Proof.Machine
end

