-- ==== Sys2Proof/Safety.lean ====
section
/-!
DEFINITION. The terms that statements use: the canonical form of the byte stores, the commands that take the module to OFF, the
command that starts next and the state in which it takes effect, and a message that its receiver takes.
-/
namespace Sys2Proof.Machine

/-- The three byte stores of the state (the gathering banks with fill 0, the carrier's flash with fill 0xFF, the Franking Store with
fill 0) are in canonical form: equal contents are equal data. -/
def State.memOk (s : State) : Bool := Memory.wf 0 s.banks.mem && Memory.wf 0xFF s.flash.mem && Memory.wf 0 s.franking.mem

/-- The commands that take the module to OFF, where raw time and every register begin again (R75, R510, R517). -/
def takesOff : Instr → Bool
  | .modResetAssert | .railBrownout _ | .watchdogReset _ _ | .lockstepMismatch _ | .thermalShutdown => true
  | _ => false

/-! ## Commands of the command rings -/

/-- The command `c` is the one that starts next, the core runs on its own clock, and its opcode is `op` (R361). -/
abbrev startsNext (s : State) (op : Nat) (c : Cmd) : Prop :=
  nextStart [] s.rings.cmds = some c ∧ s.coreClock = true ∧ opOf c.entry = op

/-- The state in which a command takes effect: it counts as started. -/
def afterStart (s : State) (c : Cmd) : State :=
  { s with rings := { s.rings with cmds := markStarted s.rings.cmds c.ring c.entry } }

/-- A command as the model keeps it once it has started: its ring and its entry. -/
def Cmd.key (c : Cmd) : Nat × Bytes := (c.ring, c.entry)

/-- The first of the general checks of R363 that the command `e` fails, as a status: its form, its permission, what it names. -/
def firstCheck (s : State) (e : Bytes) : Option Nat :=
  let seqOpen : Bool := match s.cfg.seq? (fld e 8 1) with
    | some q => q.hostOpen
    | none => true
  let job : List (Nat × Nat) := [(8, 1), (9, 1), (12, 4), (16, 8), (24, 4), (32, 8), (40, 4)]
  let op := opOf e
  if op = 0x00 then judge s e [] true true true
  else if op = 0x01 || op = 0x02 || op = 0x03 then judge s e [(8, 1)] true (s.permits 0 && seqOpen) (s.cfg.seq? (fld e 8 1)).isSome
  else if op = 0x10 then judge s e [(8, 4), (12, 2), (16, 8), (24, 4), (28, 4)] true (s.permits 1)
    ((storedStreams s.cfg).contains (fld e 8 4) && (s.cfg.ring? (fld e 12 2)).isSome && decide (fld e 16 8 < 2 ^ 40))
  else if op = 0x20 then judge s e job (jobForm s (jobOf s (0, e) false) e) (s.permits 2) (jobRange s (jobOf s (0, e) false))
  else if op = 0x21 then judge s e job (jobForm s (jobOf s (0, e) true) e) (s.permits 3) (jobRange s (jobOf s (0, e) true))
  else if op = 0x30 then judge s e [(8, 1), (12, 4), (16, 8)] (decide (4 ≤ fld e 8 1) && decide (fld e 8 1 ≤ 7)) (s.permits 4)
    (decide (fld e 12 4 ≤ 65536))
  else if op = 0x40 then judge s e [(8, 1)] true (s.permits 5) (s.cfg.plan? (fld e 8 1)).isSome
  else if op = 0x41 then judge s e [(8, 1)] (decide (fld e 8 1 ≤ 2)) (s.permits 6) (fld e 8 1 = 2 || (s.cfg.dom (fld e 8 1)).source ≠ 0)
  else if op = 0x50 then judge s e [(8, 1), (10, 2)] true true (decide (fld e 8 1 < 136))
  else if op = 0x51 then judge s e [(8, 2)] true true
    (fld e 8 2 = dlRing || (rkind (fld e 8 2) = 3 && (s.cfg.ring? (fld e 8 2 - 7680)).isSome))
  else if op = 0x60 then judge s e [(8, 1), (9, 1)] (decide (fld e 9 1 ≤ 1)) (s.permits 7) (s.cfg.group? (fld e 8 1)).isSome
  else judge s e [] true true true

/-- The rows of the command table whose general checks `firstCheck` names, with the opcode, and the operand that a row selects, of each
(Table 11-10). GROUP_POWER has a row for each direction, and a power-up names its group, or one that the module does not have. -/
def commandRow (s : State) (c : Cmd) : Instr → Prop
  | .nop => startsNext s 0x00 c
  | .seqArm => startsNext s 0x01 c
  | .seqDisarm => startsNext s 0x02 c
  | .seqForce => startsNext s 0x03 c
  | .spanRead => startsNext s 0x10 c
  | .compress => startsNext s 0x20 c ∧ s.canIssue = true
  | .decompress => startsNext s 0x21 c ∧ s.canIssue = true
  | .statsRead _ => startsNext s 0x30 c ∧ s.canIssue = true
  | .planSwitch => startsNext s 0x40 c
  | .timePref => startsNext s 0x41 c
  | .bankAssign => startsNext s 0x50 c
  | .ringReset => startsNext s 0x51 c
  | .groupPowerDown => startsNext s 0x60 c ∧ fld c.entry 9 1 ≠ 1
  | .groupPowerUp r => startsNext s 0x60 c ∧ fld c.entry 9 1 = 1 ∧ (fld c.entry 8 1 = r.group ∨ 16 ≤ fld c.entry 8 1)
  | .rebind => startsNext s 0x70 c
  | _ => False

/-! ## Messages of the barrier -/

/-- Group `g`'s lanes are up and the core takes the message as the next one, of the given type (R135, R136). -/
abbrev takenForward (s : State) (g typ : Nat) (m : Msg) : Prop :=
  s.laneUp g = true ∧ judgeMsg forwardType typ (s.group g).fwdSeq m = .good

/-- Group `g`'s lanes are up and the tile takes the message as the next one, of the given type. -/
abbrev takenReverse (s : State) (g typ : Nat) (m : Msg) : Prop :=
  s.laneUp g = true ∧ judgeMsg reverseType typ (s.group g).tileSeq m = .good

/-- The core once it has taken a message: its SEQ is counted. -/
def afterForward (s : State) (g : Nat) : State := modGroup s g (fun e => { e with fwdSeq := e.fwdSeq + 1 })

/-- The tile once it has taken a message: its SEQ is counted, and its ECHO is on its way. -/
def afterReverse (s : State) (g : Nat) (m : Msg) : State :=
  emit (modGroup s g (fun e => { e with tileSeq := e.tileSeq + 1 })) (.fromTile g 0x05 ([m.seq] ++ le 4 m.crc.toNat ++ [0]))

end Sys2Proof.Machine
end

