-- ==== Sys2Proof/Certificates/Slice0/Obligations.lean ====
section
/-!
DEFINITION. The statements for the provers: what each row of the command table does where its own effect takes place, and what holds of
every step. A statement whose next state is written as an update of the state before says with it that everything else is unchanged.
-/

open Sys2Proof Sys2Proof.Machine

/-! ## Every step -/

/-- A step takes the command at the front of the queue and runs it with the queue's rest. -/
def Obligations.StepRunsTheFrontCommand : Prop :=
  ∀ (c : Instr) (rest : List Instr) (s : State), s.pending = c :: rest → step s = exec c { s with pending := rest }

/-- The model's idle step (assumption 3, a design choice; the amounts are those of R397): with nothing waiting TIME_RAW advances by 32 pu
while PLL-S is locked and by 160 pu otherwise, in OFF not at all, and nothing else changes. -/
def Obligations.IdleStepAdvancesRawTime : Prop :=
  ∀ s : State, s.pending = [] →
    ∃ t, step s = .next t ∧ { t with time := { t.time with raw := s.time.raw, wraps := s.time.wraps } } = s ∧
      t.now = if s.powered then s.now + (if s.clocks.pllS.lock then 32 else 160) else s.now

/-- Every command ends in a next state, in every state: none faults and none is refused. That an event which cannot occur in the present state
leaves it as it is, so that no command faults or is refused, is the model's choice (assumption 7). -/
def Obligations.EveryCommandGoesOn : Prop := ∀ (c : Instr) (s : State), ∃ t, exec c s = .next t

/-- No command adds to the queue of waiting commands, takes from it or moves in it. What has left the module is never taken back: a command
only appends to it. -/
def Obligations.QueueKeptAndOutputsOnlyGrow : Prop :=
  (∀ (c : Instr) (s t : State), exec c s = .next t → t.pending = s.pending) ∧
  (∀ (c : Instr) (s t : State), exec c s = .next t → s.out <+: t.out)

/-- Every step keeps the byte stores (gathering banks, flash, Franking Store) in canonical form. -/
def Obligations.EveryStepKeepsStoresCanonical : Prop := ∀ s t : State, s.memOk = true → step s = .next t → t.memOk = true

/-- The state after reset has its byte stores in canonical form. -/
def Obligations.ResetStoresCanonical : Prop := State.reset.memOk = true

/-- TIME_RAW with its wrap count never runs backward in a step (R397), but for the commands that take the module to OFF, where it begins
again. -/
def Obligations.RawTimeNeverRunsBack : Prop :=
  ∀ s t : State, step s = .next t → (∀ c ∈ s.pending.head?, takesOff c = false) → s.now ≤ t.now

/-- The carrier's flash is written by a flash operation alone: no command but FLASH_OPERATION_COMPLETE, and those that stop an operation by
taking the module to OFF, changes a byte of it. -/
def Obligations.FlashWrittenByFlashOperationsAlone : Prop :=
  ∀ (c : Instr) (s t : State), exec c s = .next t → takesOff c = false → (∀ ok, c ≠ .flashOperationComplete ok) →
    t.flash.mem = s.flash.mem

/-! ## Power, reset and supervision -/

/-- MOD_RESET_N_ASSERT, RAIL_BROWNOUT and THERMAL_SHUTDOWN take a powered module to OFF (R76, R510, R517): of what the module itself holds the
Franking Store and, with no host flash operation under way, the flash keep every byte, and everything else that the statement names stands
at its reset value. The rows that start the module (R75, R76, R517): each begins the start-up steps from step 1 with its own LAST_RESET
code, the number given to `startUp`, a watchdog reset and a lockstep mismatch through OFF. That one row runs every start-up step is the
model's (assumption 16); that bank bytes, which Table 16-11 does not name, read 0 after OFF is the model's choice (assumption 13), as is
that REF_IN counts as absent again (assumption 14). -/
def Obligations.ResetAndStartRows : Prop :=
  (∀ (s : State) (c : Instr), s.powered = true →
    (c = .modResetAssert ∧ s.pins.modResetN = true ∨ (∃ k, c = .railBrownout k ∧ k < 3) ∨ c = .thermalShutdown) →
    ∃ t, exec c s = .next t ∧ t.boot = State.reset.boot ∧ t.time = State.reset.time ∧ t.clocks = State.reset.clocks ∧
      t.frames = [] ∧ t.rings = State.reset.rings ∧ t.jobs = State.reset.jobs ∧ t.pcie = { State.reset.pcie with aerLogs := s.pcie.aerLogs } ∧
      t.faults = State.reset.faults ∧ t.banks = State.reset.banks ∧ t.seqs = [] ∧ t.recs = [] ∧ t.proc = State.reset.proc ∧
      t.meter = State.reset.meter ∧ t.franking.mem = s.franking.mem ∧
      (s.flashRegs.busy = none → t.flash = s.flash) ∧ t.pins.sealOpenN = s.pins.sealOpenN) ∧
  (∀ (s : State) (env : BootEnv),
    (s.railsOk = false → s.powered = false → s.pins.modResetN = true → s.power.thermalOff = false →
      exec (.powerGood env) s =
        .next (startUp (powerOn { s with pins := { s.pins with rails := [.ok, .ok, .ok], good := true } }) 0 env)) ∧
    (s.pins.modResetN = false → s.railsOk = true → s.power.thermalOff = false →
      exec (.modResetRelease env) s = .next (startUp { s with pins := { s.pins with modResetN := true } } 1 env)) ∧
    (s.power.thermalOff = true → s.railsOk = true → s.pins.modResetN = true →
      exec (.thermalRestart env) s =
        .next (startUp (powerOn { s with power := { s.power with thermalOff := false, freshPower := true } }) 0 env)) ∧
    (s.powered = true →
      exec (.watchdogReset false env) s = .next (startUp (moduleOff s true) 3 env) ∧
      exec (.watchdogReset true env) s = .next (startUp (moduleOff s true) 2 env) ∧
      exec (.lockstepMismatch env) s = .next (startUp (moduleOff s true) 2 env)))

/-- The supply (R510, R516, R532). A rail out of tolerance is recorded in PW_ALERT, ALERT_N is asserted, and the module runs on. A measurement
is shown in the PW_ registers, 16 bits each, and below the temperatures of Table 17-5 changes nothing outside the pins and the PW_
registers. The brownout of VDD_AUX, in OFF too, ends what the supervision holds: SHUTDOWN is cleared and ALERT_N released.
SMBUS_BLOCK_READ answers a count of 4 and the value, least significant byte first (R530); SMBUS_ALERT_RESPONSE answers the module's
address while ALERT_N is low (R531); a PEC follows each, over the bytes of the whole transfer (R529; its polynomial is that of SMBus,
assumption 34). Neither changes anything else. That the brownout of VDD_AUX is its removal, so that it clears SHUTDOWN and the hold of a
thermal shutdown and releases ALERT_N, is the model's reading (assumption 34), of which R517 says 'removal of VDD_AUX' alone. -/
def Obligations.SupplyAndSmbusRows : Prop :=
  ((∀ (s : State) (k : Nat), s.powered = true → s.auxUp = true → k < 3 → s.pins.rails.length = 3 →
    s.pins.rails.getD k .off ∈ [RailState.ok, .high, .low] →
    ∃ t, exec (.railOutOfTolerance k) s = .next t ∧ t.pins.rails.getD k .off = .marginal ∧ t.alertLow = true ∧
      bit t.power.alertRail k = true ∧ { t with pins := s.pins, power := s.power } = s) ∧
  (∀ (s : State) (m : PwMeas), s.measuring = true → s.powered = true → m.die < 1680 → m.dramHot = false →
    ∃ t, exec (.pwMeasurementUpdate m) s = .next t ∧ { t with pins := s.pins, power := s.power } = s ∧
      t.power.die = satInt 16 m.die ∧ t.power.dram = satInt 16 m.dram ∧ t.power.total = min 65535 m.total ∧
      ∀ k < 3, nth t.power.volts k = min 65535 (nth m.volts k) ∧ nth t.power.currs k = min 65535 (nth m.currs k)) ∧
  (∀ s : State, s.pins.rails.length = 3 →
    ∃ t, exec (.railBrownout 2) s = .next t ∧ t.power.shutdown = false ∧ t.power.thermalOff = false ∧ t.alertLow = false ∧
      t.boot.state = .off)) ∧
  (∀ s : State, smbusUp s = true →
    (∀ code b, b = 4 :: le 4 (smbusValue s code) →
      exec (.smbusBlockRead code) s =
        .next { s with out := s.out ++ [.smbus b (smbusPec ([0x74, BitVec.ofNat 8 code, 0x75] ++ b))] }) ∧
    (s.alertLow = true → exec .smbusAlertResponse s = .next { s with out := s.out ++ [.smbusAddress 0x3A (smbusPec [0x19, 0x74])] }))

/-- SEAL_CHANGE (R499): the pin takes the level; where that holds for 20 ms and the Franking Store has not recorded it, a seal event is
franked; at the recorded level nothing is franked, and a level that does not hold moves the pin alone. LIFETIME_STATISTICS_UPDATE writes
the Franking Store and, with good writes, nothing else but the maxima that it takes up (R504). -/
def Obligations.SealAndLifetimeRows : Prop :=
  (∀ (s : State) (o ok : Bool), s.powered = true → s.page.sealOpen ≠ o →
    exec (.sealChange o ⟨true, ok⟩) s = .next (sealNow { s with pins := { s.pins with sealOpenN := !o } } o ok) ∧
    ∀ v, v = { s with pins := { s.pins with sealOpenN := !o }
                      franking := { s.franking with sealOpen := o, failing := if ok then 0 else 1 } } →
      sealNow { s with pins := { s.pins with sealOpenN := !o } } o ok =
        { frankSeal v o false with franking := { (frankSeal v o false).franking with failing := 0 } }) ∧
  (∀ (s : State) (o ok : Bool), s.powered = true → s.page.sealOpen = o →
    exec (.sealChange o ⟨true, ok⟩) s =
      .next { s with pins := { s.pins with sealOpenN := !o }, franking := { s.franking with sealOpen := o, failing := 0 } }) ∧
  (∀ (s : State) (o ok : Bool),
    exec (.sealChange o ⟨false, ok⟩) s = .next { s with pins := { s.pins with sealOpenN := !o } }) ∧
  (∀ (s : State) (n : Nat), s.powered = true → s.franking.failing = 0 →
    ∃ t, exec (.lifetimeStatisticsUpdate n) s = .next t ∧ t.power = { s.power with peakDie := none, peakIsland := none } ∧
      { t with franking := s.franking, power := s.power } = s ∧
      { t.franking with mem := s.franking.mem } = s.franking)

/-! ## Binding and the way to RUNNING -/

/-- REF_IN (R436, R437). REF_IN_PRESENT marks the reference present at the frequency declared, and a bind that waits for it goes on, or is
refused where it comes after the wait has ended; REF_IN_LOST marks it lost, which PLL-S feels where it runs on it (R439); REF_WAIT_EXPIRY
ends the wait with a refusal, error 0x507. -/
def Obligations.ReferenceRows : Prop :=
  (∀ (s : State) (b : Bool), s.powered = true → s.boot.wait ≠ .refIn →
    exec (.refInPresent b) s = .next { s with clocks := { s.clocks with refPresent := true, refMhz := s.refDeclared } }) ∧
  (∀ (s : State) (b : Bool), s.boot.state = .bound → s.boot.wait = .refIn →
    ((∀ e ∈ s.clocks.refUntil, s.now ≤ e) →
      exec (.refInPresent b) s = .next (tryLockS { s with clocks := { s.clocks with refPresent := true, refMhz := s.refDeclared } } b)) ∧
    (∀ e, s.clocks.refUntil = some e → e < s.now →
      ∃ t, exec (.refInPresent b) s = .next t ∧ t.boot.state = .unbound ∧ t.boot.errCode = 0x507)) ∧
  (∀ s : State, s.powered = true → s.clocks.refPresent = true → s.clocks.refSel = false →
    exec .refInLost s = .next { s with clocks := { s.clocks with refPresent := false } }) ∧
  (∀ s : State, s.powered = true → s.clocks.refPresent = true → s.clocks.refSel = true → s.clocks.pllS.lock = true →
    exec .refInLost s = .next (loseS { s with clocks := { s.clocks with refPresent := false } } 1 true)) ∧
  (∀ (s : State) (e : Nat), s.clocks.refUntil = some e → s.boot.state = .bound → s.boot.wait = .refIn →
    ∃ t, exec .refWaitExpiry s = .next t ∧ t.boot.state = .unbound ∧ t.boot.errCode = 0x507 ∧ t.boot.folio = none ∧ s.now ≤ t.now)

/-- Chain discovery (R97 to R100). The module that hears nothing leads, at position 0, and sends the token; a follower takes the position
after the token's and passes it on, and a position that its Folio does not give refuses the bind with 0x508, as a missing token does, with
DETAIL 0xFFFF. A module whose LEADER is 0 and that has not led is a follower. ALIGNMENT_MARK at a follower whose PLL-S has locked in this
bind (R100, R452): the first one starts its ticks, at the first instant of the mark's grid later than now and than the end of every
CLK_OUT high phase in progress, and the grids of its MCLK outputs with them (R125); a later one only shows its offset from the follower's
own tick. That a mark moves a follower by its offset from the nearest tick of the grid, and which MCLK and CLK_OUT grids start before
frame 0, are the model's readings (assumption 36). -/
def Obligations.ChainRows : Prop :=
  ((∀ s : State, discovering s = true → s.boot.leader = none →
    exec .leaderChoiceTimeout s = .next (becomeLeader s) ∧
    ((s.cfg.install.getD {}).position = 0 →
      ∃ t, exec .leaderChoiceTimeout s = .next t ∧ t.boot.leader = some true ∧ t.boot.position = some 0 ∧ t.out = s.out ++ [.token 0])) ∧
  (∀ (s : State) (p : Nat), discovering s = true → s.boot.leader ≠ some true → (s.cfg.install.getD {}).position = p + 1 →
    p + 1 < (s.cfg.install.getD {}).chainLen →
    ∃ t, exec (.positionToken p) s = .next t ∧ t.boot.leader = some false ∧ t.boot.position = some (p + 1) ∧
      t.out = s.out ++ [.token (p + 1)] ∧ { t with boot := s.boot, out := s.out } = s) ∧
  (∀ (s : State) (p : Nat), discovering s = true → s.boot.leader ≠ some true → (s.cfg.install.getD {}).position ≠ p + 1 →
    ∃ t, exec (.positionToken p) s = .next t ∧ t.boot.state = .unbound ∧ t.boot.errCode = 0x508 ∧ t.boot.errDetail = p + 1) ∧
  (∀ s : State, discovering s = true → s.boot.leader ≠ some true →
    ∃ t, exec .chainTokenTimeout s = .next t ∧ t.boot.state = .unbound ∧ t.boot.errCode = 0x508 ∧ t.boot.errDetail = 0xFFFF)) ∧
  (∀ s : State, s.isBound = true → s.cfg.install.isSome = true → s.boot.leader ≠ some true → s.lockedInBind = true →
    (s.time.tick0 = none → 0 < s.spacing →
      ∃ t n, exec .alignmentMark s = .next t ∧ t.boot.leader = some false ∧ t.time.tick0 = some n ∧ s.clkBusy < n ∧ n ≤ s.clkBusy + s.spacing ∧
        s.now ≤ s.clkBusy ∧ ((∀ k < 4, nth s.clocks.clkDiv k = 0) → s.clkBusy = s.now) ∧ (s.spacing : Int) ∣ (n : Int) - ((s.now : Int) - (s.cfg.install.getD {}).syncDelay) ∧
        t.field = (knownGrids s n).field ∧ { t with boot := s.boot, field := s.field, time := { t.time with tick0 := none } } = s) ∧
    (s.time.tick0 ≠ none →
      exec .alignmentMark s = .next { s with boot := { s.boot with leader := some false }, clocks := { s.clocks with
        markErr := satInt 16 (tickOffset s ((s.now : Int) - (s.cfg.install.getD {}).syncDelay)) } }))

/-- ISLAND_POWER_WAVE for the wave that is next, where every group of it passes (R83 to R87): a wave that is not the last is counted, its
calibrations are kept for the deskew, and every group of it is powered; the first group that fails steps 10 to 14 refuses the bind with
its error. The last wave deskews the groups of every wave: they are calibrated, and discovery and deskew are complete, but for a chain
position or the ticks that are still awaited; the first group whose deskew leaves its range refuses the bind with 0x506. ARMING_ENTRY and
RUNNING_ENTRY (R76, R101, R103): the first tick after discovery and deskew enters ARMING, and the tick that ends the settle time enters
RUNNING, whose first frame it is. That one row carries the steps of a whole wave is the model's (assumption 16). -/
def Obligations.PowerWaveAndEntryRows : Prop :=
  (∀ (s : State) (k : Nat) (res : List GroupBoot), s.boot.state = .bound → s.boot.wait = .waves → k = s.boot.wavesDone →
    waveGroups s.cfg k ≠ [] → res.map (·.group) = waveGroups s.cfg k →
    ((∀ r ∈ res, waveFailure s r = none) → 4 * (k + 1) < s.cfg.groups.length →
      ∃ t, exec (.islandPowerWave k res) s = .next t ∧ t.boot.wavesDone = k + 1 ∧ t.boot.state = .bound ∧
        t.boot.cals = s.boot.cals ++ res.map (fun r => (r.group, r.cal)) ∧ ∀ r ∈ res, (t.group r.group).powered = true) ∧
    ((∀ r ∈ res, waveFailure s r = none) → s.cfg.groups.length ≤ 4 * (k + 1) →
      ∀ l, l = s.boot.cals ++ res.map (fun r => (r.group, r.cal)) →
      ((∀ e ∈ l, calOk s e.1 e.2 = true) →
        ∃ t, exec (.islandPowerWave k res) s = .next t ∧ t.boot.wavesDone = k + 1 ∧ t.boot.waveOn = false ∧ t.boot.state = .bound ∧
          t.boot.cals = [] ∧ t.boot.wait = (if (s.cfg.install = none ∨ s.boot.position.isSome) ∧ s.ticking = true then .arming else .waves) ∧
          (∀ r ∈ res, (t.group r.group).powered = true) ∧ ∀ e ∈ l, (t.group e.1).calibrated = true ∧ (t.group e.1).stale = false) ∧
      (∀ a e b, l = a ++ e :: b → (∀ x ∈ a, calOk s x.1 x.2 = true) → calOk s e.1 e.2 = false →
        ∃ t, exec (.islandPowerWave k res) s = .next t ∧ t.boot.state = .unbound ∧ t.boot.errCode = 0x506 ∧ t.boot.errDetail = e.1)) ∧
    (∀ a r b e, res = a ++ r :: b → (∀ x ∈ a, waveFailure s x = none) → waveFailure s r = some e →
      ∃ t, exec (.islandPowerWave k res) s = .next t ∧ t.boot.state = .unbound ∧ t.boot.errCode = e ∧ t.boot.errDetail = r.group)) ∧
  ((∀ s : State, s.boot.state = .bound → s.boot.wait = .arming → s.ticking = true →
    ∃ t, exec .armingEntry s = .next t ∧ t.boot.state = .arming ∧ t.settleEnd = some (s.tickOf (entryTick s + settleFrames s)) ∧
      t.now = (if s.time.ticks ≠ 0 ∧ s.now = s.time.tickAt then s.now else max s.now (s.tickOf s.time.ticks))) ∧
  (∀ (s : State) (c : Nat), s.boot.state = .arming → s.ticking = true → 0 < s.spacing → s.settleEnd = some (s.tickOf c) →
    c ≤ s.time.ticks → s.curFrame ≤ c →
    ∃ t, exec .runningEntry s = .next t ∧ t.boot.state = .running ∧ t.firstRun = some c ∧ t.settleEnd = none ∧
      t.now = if c < s.time.ticks then s.now else max s.now (s.tickOf c)))

/-! ## Time, frames and the release -/

/-- A postmark (R399): its low 56 bits are TIME_RAW and its high 8 bits the low bits of the wrap count, so that it is the low 64 bits of the
full count; it repeats after 256 wraps. -/
def Obligations.PostmarkHoldsRawTimeAndWraps : Prop :=
  ∀ s : State, s.postmark.extractLsb' 0 56 = s.time.raw ∧ s.postmark.extractLsb' 56 8 = BitVec.ofNat 8 s.time.wraps ∧
    s.postmark = BitVec.ofNat 64 s.now ∧ ∀ n, postmarkOf (n + 256 * 2 ^ 56) = postmarkOf n

/-- TIME_RAW_WRAP, with no frame tick before it (R398): TIME_RAW becomes 0, the wrap count increases by 1, and nothing else changes. -/
def Obligations.RawTimeWraps : Prop :=
  ∀ s : State, s.powered = true → (s.ticking = true → (s.time.wraps + 1) * 2 ^ 56 ≤ s.tickOf s.time.ticks) →
    exec .timeRawWrap s = .next { s with time := { s.time with raw := 0, wraps := s.time.wraps + 1 } }

/-- FRAME_TICK and, where the frame number wraps from 2^40 − 1 to 0, FRAME_NUMBER_WRAP (R13, R17): the next tick is taken, its number is its
count modulo 2^40, and its frame opens in front of the others; no frame is released, where the core does not come back from a loss of
PLL-C at the tick (R454). That the core comes back at a tick while PLL-S still holds FAULT_HOLD is the model's reading (assumption 36). -/
def Obligations.TickRowsOpenTheNextFrame : Prop :=
  ∀ s : State, s.ticking = true → s.powered = true →
    (∀ t, t = frameTick s → s.now ≤ t.now ∧ s.tickOf s.time.ticks ≤ t.now ∧
      ((s.boot.state = .faultHold → s.clocks.pllC.lock = true → s.clocks.safeClock = false) →
        t.time.ticks = s.time.ticks + 1 ∧ t.time.frame = BitVec.ofNat 40 s.time.ticks ∧ t.time.tickAt = s.tickOf s.time.ticks ∧
        t.released = s.released ∧ (t.frames.map (·.count)) = s.time.ticks :: s.frames.map (·.count))) ∧
    ((s.time.ticks = 0 ∨ s.time.frame ≠ BitVec.ofNat 40 (2 ^ 40 - 1)) → exec .frameTick s = .next (frameTick s)) ∧
    (s.time.ticks ≠ 0 → s.time.frame = BitVec.ofNat 40 (2 ^ 40 - 1) → exec .frameNumberWrap s = .next (frameTick s))

/-- COASTING_END, with no frame tick before it (R412): at the end of HOLDOVER_S the timeline is UNTRACED, and PPS_OUT is low unless
PPS_OUT_UNTRACED is set (R419); beside these and raw time nothing changes. MEMORY_ROUND while rounds of the frame remain (R314): one more
round, at its place 500 ns after the one before; the corrected link errors that it reports are counted (R320) and logged (their bits are
those of PCI Express, assumption 22), and outside time and the memory schedule nothing changes. The place of a round within its frame is
the model's reading (assumption 33). -/
def Obligations.CoastingEndAndMemoryRound : Prop :=
  (∀ (s : State) (e : Nat), s.time.coastEnd = some e → s.time.tl = .coasting → (s.ticking = true → e ≤ s.tickOf s.time.ticks) →
    ∃ t, exec .coastingEnd s = .next t ∧ t.time.tl = .untraced ∧ t.time.coastEnd = none ∧ t.time.coastEnded = some e ∧ t.now = max s.now e ∧
      (s.cfg.time.ppsOutUntraced = false → t.pins.ppsOut = .low ∧ t.time.ppsEnd = none) ∧
      (s.cfg.time.ppsOutUntraced = true → t.pins.ppsOut = s.pins.ppsOut ∧ t.time.ppsEnd = s.time.ppsEnd) ∧
      { t with
        pins := { t.pins with ppsOut := s.pins.ppsOut }
        time := { t.time with
          tl := s.time.tl, coastEnd := s.time.coastEnd, coastEnded := s.time.coastEnded, ppsEnd := s.time.ppsEnd, raw := s.time.raw, wraps := s.time.wraps } } = s) ∧
  (∀ (s : State) (n ccReads ccWrites : Nat), s.ticking = true → 0 < s.time.ticks → s.clocks.pllM.lock = true → s.coreClock = true →
    s.banks.rounds < 125 * s.cfg.module_.frame →
    ∃ t, exec (.memoryRound ⟨n, ccReads, ccWrites⟩) s = .next t ∧ t.banks.dramCorr = min (s.banks.dramCorr + n) (2 ^ 32 - 1) ∧
      t.pcie = (if n = 0 then s.pcie else
        { s.pcie with aerCor := setBit s.pcie.aerCor 14 true, devSts := setBit s.pcie.devSts 0 true }) ∧
      t.banks.rounds = s.banks.rounds + 1 ∧
      { t.banks with
        rounds := s.banks.rounds, dramCorr := s.banks.dramCorr, credit := s.banks.credit, freeNow := s.banks.freeNow
        lastServed := s.banks.lastServed, reading := s.banks.reading } = s.banks ∧
      t.now = max s.now (s.tickOf s.curFrame + 8000 * s.banks.rounds) ∧
      { t with banks := s.banks, pcie := s.pcie, time := { t.time with raw := s.time.raw, wraps := s.time.wraps } } = s)

/-- FRAME_RELEASE (R22): at t_{n+2} + δ the oldest frame is released, exactly one frame is, and time does not stand before that instant. The
release of a frame with field data leaves the Class T work of that frame (R24): the sequencers have the commands due and evaluate the
frame over the reductions, sums and meter results of it, the limit checks follow, EVT_OUT commits what the sequencers and the checks give,
and the history streams take the frame; nothing else of the release touches them where it fences and re-admits nothing. That all of a
frame's work is done in the row of its release is the model's (assumption 18). -/
def Obligations.ReleaseReleasesOneFrame : Prop :=
  ∀ (s : State) (w : WindowFaults), s.canRelease = true →
    (∃ t, exec (.frameRelease w) s = .next t ∧ t.released = s.released + 1 ∧ s.tickOf (s.released + 2) + 128000 ≤ t.now ∧ s.now ≤ t.now) ∧
    ∀ (r : State) (f : FrameSet), r = windowFaults (advanceTo s (s.tickOf (s.released + 2) + delta)) s.released w →
      r.frameAt? s.released = some f →
      exec (.frameRelease w) s = .next (releaseFrame r f) ∧
      (f.field = true → r.faults.pending = [] → r.faults.fences = [] →
        (∀ g, r.frameAt? (s.released + 1) = some g → ∀ e ∈ g.need, e.2 = 0) →
        ∀ (i : State × FrameSet) (b : State × Work) (q : State × SeqRun) (l v : State),
          i = indexSamples (countOverruns r f) f →
          b = beginWork { i.1 with seqs := i.1.shown.getD i.1.seqs, shown := none } i.2 →
          q = seqsFrame b.1 i.2 (i.1.shown.getD i.1.seqs) b.2.run →
          l = commitEvts (lcsFrame q.1 i.2) i.2 q.2.pulses →
          v = releaseFrame r f →
          v.seqs = q.1.seqs ∧ v.shown = none ∧ v.pins.evtOut = l.pins.evtOut ∧ v.proc.evts = l.proc.evts ∧ v.proc.lcs = l.proc.lcs ∧
            v.hist = tmap l.hist (fun _ h => histStream l i.2 h))

/-- Sequencer events of a work window. SEQ_COMMAND_APPLY applies the commands due in the open window (R182), REARM re-arms a sequencer at its
re-arm instant (R233), and both leave what the registers show as it was; PULSE_END ends the pulse of an output whose last commit has
passed (R277). That the commands and re-arms of an open window are worked ahead of its release is the model's (assumption 19). -/
def Obligations.WorkWindowRows : Prop :=
  (∀ (s : State) (l : Tbl Seq), s.canRelease = true → aheadSeqs s = some l →
    exec .seqCommandApply s = .next { s with shown := some (s.shown.getD s.seqs), seqs := l }) ∧
  (∀ (s : State) (q : Nat) (e : SeqQ), s.cfg.seq? q = some e → s.ticking = true → (s.seq q).st = .dead → (s.seq q).dead.never = false →
    (s.seq q).dead.rearm ≤ gridOf s s.released →
    exec (.rearm q) s = .next { s with
      shown := some (s.shown.getD s.seqs), seqs := tput s.seqs q (rearmBy e (s.seq q) (gridOf s s.released) {}).1 }) ∧
  (∀ (s : State) (o : Nat), exec (.pulseEnd o) s = .next { s with proc := { s.proc with evts := tmap s.proc.evts (fun k e =>
    if k = o then (match e.pulse with
      | some c => if c ≤ s.released then { e with pulse := none } else e
      | none => e) else e) } })

/-- The edges of the field. TRIG_IN_EDGE keeps an edge with its place in the frame (R206); one less than 2 ns after the edge before it makes a
pulse that is not detected, and takes that edge out again, from the frame that has closed where the tick lies between them (the model's
reading, assumption 12). ZONE_CHANGE moves the input of a channel, and each comparator of that channel follows it (R114, R116, R287): it
goes high above its threshold −8 V + 5 mV · c, stays high down to the hysteresis below it, and a change is kept with its place in the
frame. Nothing else changes but raw time. -/
def Obligations.FieldEdgeRows : Prop :=
  (∀ (s : State) (i : Nat) (rise : Bool) (o : Nat) (u : TrigIn), u = tget {} s.field.trig i → s.powered = true → i < 4 → u.lvl ≠ rise →
    (s.ticking = false →
      exec (.trigInEdge i rise o) s = .next { s with field := { s.field with
        trig := tput s.field.trig i { u with lvl := rise, lvl0 := rise } } }) ∧
    (s.ticking = true → o < s.spacing → (∀ x ∈ u.kept.getLast?, x.1 ≤ o) → (u.kept = [] → ∀ d ∈ u.tail.head?, 32 ≤ o + d) →
      ∃ t, exec (.trigInEdge i rise o) s = .next t ∧ t.now = max s.now (s.time.tickAt + o) ∧
        t.field.trig = tput s.field.trig i { u with
          lvl := rise, kept := if ∀ x ∈ u.kept.getLast?, x.1 + 32 ≤ o then u.kept ++ [(o, rise)] else u.kept.dropLast } ∧
        { t with field := { t.field with trig := s.field.trig }, time := { t.time with raw := s.time.raw, wraps := s.time.wraps } } = s) ∧
    (∀ d l, s.ticking = true → o < s.spacing → u.kept = [] → u.tail = d :: l → o + d < 32 →
      ∃ t, exec (.trigInEdge i rise o) s = .next t ∧ t.now = max s.now (s.time.tickAt + o) ∧
        t.field.trig = tput s.field.trig i { u with lvl := rise, lvl0 := rise, tail := l } ∧
        t.frames = s.frames.map (fun f => if f.count + 1 = s.curFrame then { f with trig := tmod {} f.trig i TrigIn.dropLast } else f) ∧
        { t with field := { t.field with trig := s.field.trig }, frames := s.frames
                 time := { t.time with raw := s.time.raw, wraps := s.time.wraps } } = s)) ∧
  (∀ (s : State) (c : Nat) (v : Int) (hi lo : Bool) (o p f : Nat) (u : TileChan) (q : ChanSet), o = 256 * p + f → u = s.tileChan c → q = s.tileSet c →
    (s.group (c / 64)).powered = true → q.mode ≠ 0 →
    (hi = true ↔ (if u.hi then -8000000 + 5000 * (q.thrHi : Int) - 1000 * q.hyst ≤ v else -8000000 + 5000 * (q.thrHi : Int) < v)) →
    (lo = true ↔ (if u.lo then -8000000 + 5000 * (q.thrLo : Int) - 1000 * q.hyst ≤ v else -8000000 + 5000 * (q.thrLo : Int) < v)) →
    ∀ w, w = { s with field := { s.field with inputs := tput s.field.inputs c v } } →
    (s.ticking = false →
      exec (.zoneChange c v p f) s = .next (modChan w c (fun _ =>
        if (u.hi, u.lo) = (hi, lo) then u else { u with hi := hi, lo := lo, hi0 := hi, lo0 := lo }))) ∧
    (s.ticking = true → o < 256 * s.spacing → (∀ x ∈ u.raw.getLast?, x.1 ≤ o) →
      ∃ t, exec (.zoneChange c v p f) s = .next t ∧ t.now = max s.now (s.time.tickAt + o / 256) ∧
        (t.tileChan c).raw = (if (u.hi, u.lo) = (hi, lo) then u.raw else u.raw ++ [(o, hi, lo)]) ∧
        (∀ d, d ≠ c → t.tileChan d = s.tileChan d) ∧
        { t with time := { t.time with raw := s.time.raw, wraps := s.time.wraps } } = modChan w c (fun _ =>
          { u with hi := hi, lo := lo, raw := if (u.hi, u.lo) = (hi, lo) then u.raw else u.raw ++ [(o, hi, lo)] })))

/-! ## Delivery into host rings -/

/-- An envelope placed into a ring (R342, R345, R351, R352): PROD moves over the PAD that the wrap point asks for and over the envelope, SEQ
counts one, and the PAD, the envelope with that SEQ at its place and PROD at the writeback address are written to the host in this order,
as write requests of at most Max_Payload_Size bytes (R458), one behind the other; no other ring, and outside the rings only the
translations and the outputs, are touched. A write request goes to its address, or, with translation enabled, to the same byte of the page
that its page is translated to, which is the cached one or is asked for first and cached then, and says that its address is translated
(R468). That no request crosses a page, and that a page's translation is a free value, are the model's (assumption 22). -/
def Obligations.EnvelopePlacedWhole : Prop :=
  (∀ (s t : State) (r : Nat) (e : Envelope), t = putEnvelope s r e →
    let g := s.ring r
    let pad := padUnits g e.length
    let at_ := if pad = 0 then g.prod.toNat % max g.size 1 else 0
    (t.ring r).prod = g.prod + BitVec.ofNat 32 (pad + e.length / 32) ∧ (t.ring r).seq = g.seq + 1 ∧
      (t.ring r).waiting = satAdd 16 g.waiting 1 ∧ (t.ring r).ready = g.ready ∧
      (∀ l, l = (if pad = 0 then [] else writeChunks s.mps 32 (g.base + 32 * (g.prod.toNat % max g.size 1)) (padBytes g pad e)) ++
          writeChunks s.mps (e.bytes g.seq).length (g.base + 32 * at_) (e.bytes g.seq) ++
          writeChunks s.mps 8 g.wb (le 4 (t.ring r).prod.toNat ++ zeros 4) →
        t.out = (l.foldl writeRequest s).out ∧ t.pcie = (l.foldl writeRequest s).pcie ∧
        (s.pcie.atsEn = false → t.out = s.out ++ l.map (fun c => .hostWrite c.1 c.2) ∧ t.pcie = s.pcie)) ∧
      (∀ r', r' ≠ r → t.ring r' = s.ring r') ∧
      { t with rings := s.rings, pcie := { t.pcie with ats := s.pcie.ats, atsAsked := s.pcie.atsAsked }, out := s.out } = s) ∧
  (∀ (s t u : State) (c : Nat × Bytes), t = writeRequest s c → u = translate s c.1 →
    (s.pcie.atsEn = false → t = { s with out := s.out ++ [.hostWrite c.1 c.2] }) ∧
    (s.pcie.atsEn = true →
      t = { u with out := u.out ++ [.hostWrite (hostAddr u c.1) c.2 { translated := true }] } ∧
      (∀ p, cachedPage s c.1 = some p → hostAddr u c.1 = p * 4096 + c.1 % 4096 ∧ u.out = s.out ∧ u.pcie.atsAsked = s.pcie.atsAsked) ∧
      (cachedPage s c.1 = none → hostAddr u c.1 = (Config.translation s.pcie.atsAsked (c.1 / 4096)).toNat * 4096 + c.1 % 4096 ∧
        u.out = s.out ++ [.translate (c.1 / 4096)] ∧ u.pcie.atsAsked = s.pcie.atsAsked + 1) ∧
      cachedPage u c.1 = some (hostAddr u c.1 / 4096) ∧
      { u with pcie := { u.pcie with ats := s.pcie.ats, atsAsked := s.pcie.atsAsked }, out := s.out } = s))

/-- The rows that write what is first on a ring (R28, R30): a staged envelope, a COMPLETION envelope, a MEASURE envelope and the dead-letter
reserve go out once the ring is enabled, requests may be issued and the whole envelope fits; COMPLETION on a completion ring writes the
entries that wait. A double-bit error in a word that the staged envelope holds is the bank's fault instead (`bankError`), and drops that
envelope alone, counted under R357 (R336). In each of these rows an envelope that does not fit within the credit, or a ring that may not
be written, leaves everything as it was (R28), ENVELOPE_WRITE but for an LTR message that the fill of the staging rings asks for (R481); a
translation that fails disables the ring, which shows ERROR (R469). Which staged envelope holds a byte of a staging bank is the model's
reading (assumption 9). -/
def Obligations.RingHeadRows : Prop :=
  (∀ (s : State) (r : Nat) (how : ReadEnd) (e : Envelope), how ≠ .translationError →
    (s.canWriteRing r = true → (s.ring r).fits e.length = true →
      (rkind r = 3 → headItem s r = some (.staged e) →
        exec (.envelopeWrite r none how) s = .next (ltrCheck (putEnvelope (popReady s r) r e)) ∧
        ∀ b a, stagedAt s b a = some (r, e) →
          exec (.envelopeWrite r (some (b, a)) how) s = .next (ltrCheck (bankError s.released s (b, a))) ∧
          dropWord s b a = modRing (((stagedFor s r).filter (· == e)).foldl (fun s x => countDrop s r 3 x.length) s) r (fun g => { g with
            lossNext := true, ready := g.ready.filter (fun i => !(i == .staged e)) })) ∧
      (rkind r = 3 → headItem s r = some (.completion e) → exec (.completion r how) s = .next (putEnvelope (popReady s r) r e)) ∧
      (r = dlRing → headItem s r = some (.staged e) → exec (.deadLetterDrain how) s = .next (putEnvelope (popReady s r) r e)) ∧
      (∀ q k rec_ no seg, s.cfg.rec? rec_ = some q → recRing s.cfg q = some k → r = deliveryRing k →
        headItem s r = some (.measure rec_ no seg e) → exec (.measure rec_ how) s = .next (putEnvelope (popReady s r) r e))) ∧
    (rkind r = 5 → headItem s r = none → exec (.completion r how) s = .next (writeCompletions s))) ∧
  (∀ (s : State) (r rec_ : Nat) (e : Envelope) (i : Instr) (how : ReadEnd), how = .ok ∨ how = .translationError →
    ((∃ bad, i = .envelopeWrite r bad how ∧ rkind r = 3 ∧ headItem s r = some (.staged e)) ∨
      (i = .completion r how ∧ rkind r = 3 ∧ headItem s r = some (.completion e)) ∨
      (i = .deadLetterDrain how ∧ r = dlRing ∧ headItem s r = some (.staged e)) ∨
      (i = .measure rec_ how ∧ ∃ q k no seg, s.cfg.rec? rec_ = some q ∧ recRing s.cfg q = some k ∧ r = deliveryRing k ∧
        headItem s r = some (.measure rec_ no seg e))) →
    (how = .ok → (s.ring r).fits e.length = false ∨ s.canWriteRing r = false →
      ((∀ bad, i ≠ .envelopeWrite r bad how) → exec i s = .next s) ∧ (∀ bad, i = .envelopeWrite r bad how → exec i s = .next (ltrCheck s))) ∧
    (s.ltrOn = false → ltrCheck s = s) ∧
    (how = .translationError → s.pcie.atsEn = true → s.canWriteRing r = true →
      exec i s = .next (modRing s r (fun g => { g with enable := false, error := true }))))

/-- The rows that write from history (R237 to R241, R244 to R248), where the ring may be written. RECORD_PART_WRITE writes the next part of a
record, which is lost where history no longer holds a block of it, and the record's commit, which it counts, with the MEASURE envelope
behind it. STREAM_ENVELOPE_WRITE writes the next SPAN or TRANSITIONS envelope, of what history still holds; one with no blocks that is not
the last is left out. SPAN_READOUT_WRITE writes the next envelope of a span readout; after the last one the command completes OK with the
number of envelopes, and with RANGE where history no longer holds a frame of it. A read that meets an uncorrectable error at a byte of
capture memory is that error (R320); that it writes nothing then is the model's reading (assumption 28). -/
def Obligations.HistoryRows : Prop :=
  ∀ (s : State) (k r : Nat) (how : ReadEnd), r = deliveryRing k → how ≠ .translationError → s.canWriteRing r = true →
    (∀ (rec_ : Nat) (q : RecQ), s.cfg.rec? rec_ = some q → recRing s.cfg q = some k →
      (∀ no seg chunk idx x, headItem s r = some (.part rec_ no seg chunk idx) → (s.recd rec_).run? no seg = some x → s.canReadHistory = true →
        (∀ e bl, partEnvelope s q x chunk idx = some (e, bl) → (s.ring r).fits e.length = true →
          exec (.recordPartWrite rec_ none how) s =
            .next (modRun (putEnvelope (popReady s r) r e) rec_ no seg (fun y => takePart (putEnvelope (popReady s r) r e) q y idx bl))) ∧
        (partEnvelope s q x chunk idx = none → exec (.recordPartWrite rec_ none how) s = .next (loseRun s r rec_ no seg)) ∧
        (∀ a, a < dramBytes → exec (.recordPartWrite rec_ (some a) how) s = .next (dramError s (a / 65536) (a % 65536)))) ∧
      (∀ no seg x e u bad, headItem s r = some (.commit rec_ no seg) → (s.recd rec_).run? no seg = some x → e = commitEnvelope s q x →
        (s.ring r).fits e.length = true →
        u = dropRun (modRec (putEnvelope (popReady s r) r e) rec_ (fun d => { d with
          lostSince := 0, done := if x.lost then d.done else satAdd 32 d.done 1, lost := if x.lost then satAdd 32 d.lost 1 else d.lost
          invalid := if x.lost = false ∧ bit e.flags 0 = true then satAdd 32 d.invalid 1 else d.invalid })) rec_ no seg →
        exec (.recordPartWrite rec_ bad how) s = .next (if q.measure = true ∧ x.lost = false
          then modRing (measureEnvelope u q x e).2 r (fun g => { g with ready := .measure rec_ no seg (measureEnvelope u q x e).1 :: g.ready })
          else u)) ∧
      (∀ no chunk idx x y u cut bl, headItem s r = some (.stream rec_ no chunk idx) → (s.recd rec_).run? no 0 = some x →
        s.canReadHistory = true → cut = streamCut s q x chunk idx → y = cutRun x idx cut → u = noteCut s rec_ no y cut →
        bl = streamBlocks u q y idx cut →
        ((bl ≠ [] ∨ streamLast u y cut = true) → (u.ring r).fits (streamEnvelope u q y chunk idx cut bl).length = true →
          exec (.streamEnvelopeWrite rec_ none how) s =
            .next (endStream (modRun (putEnvelope (popReady u r) r (streamEnvelope u q y chunk idx cut bl)) rec_ no 0
              (fun z => { z with parts := z.parts + 1, skipped := tdel z.skipped idx })) r rec_ no x.committed)) ∧
        (bl = [] → streamLast u y cut = false →
          exec (.streamEnvelopeWrite rec_ none how) s = .next (endStream (popReady u r) r rec_ no x.committed)) ∧
        (∀ a, a < dramBytes → exec (.streamEnvelopeWrite rec_ (some a) how) s = .next (dramError s (a / 65536) (a % 65536))))) ∧
    (∀ (y : Readout) (hs : List HistFrame) (e : Envelope), rkind r = 3 → s.fenced 0x0F 0 = false → s.canReadHistory = true →
      headItem s r = some (.readout y) →
      (readoutFrames s y = hs.map some → e = readoutEnvelope s y hs → (s.ring r).fits e.length = true →
        e.frame = frameNo y.next ∧ e.source = 0x310000FF ∧
        exec (.spanReadoutWrite r none how) s = .next (if y.last ≤ y.next + 63
          then complete (putEnvelope (popReady s r) r e) y.cmd 0 (y.written + 1)
          else pushReady (putEnvelope (popReady s r) r e) r [.readout { y with next := y.next + 64, written := y.written + 1 }])) ∧
      (none ∈ readoutFrames s y → exec (.spanReadoutWrite r none how) s = .next (complete (popReady s r) y.cmd 8 y.written)) ∧
      (∀ a, a < dramBytes → exec (.spanReadoutWrite r (some a) how) s = .next (dramError s (a / 65536) (a % 65536))))

/-- RING_NOTIFICATION of a ring that is due and not masked (R346, R466, R467): its vector is signalled once, every ring of that vector that is
due and not masked counts from zero again, and nothing else of any ring changes. -/
def Obligations.NotificationRow : Prop :=
  ∀ (s : State) (r : Nat), notifies r = true → (s.ring r).isDue = true → (s.ring r).mask = false →
    ∃ t, exec (.ringNotification r) s = .next t ∧ (t.ring r).waiting = 0 ∧ (t.ring r).due = false ∧
      (∀ r', t.ring r' = if (s.ring r').vector = (s.ring r).vector ∧ (s.ring r').isDue = true ∧
        (s.ring r').mask = false then { s.ring r' with waiting := 0, due := false } else s.ring r') ∧
      { t.rings with rings := s.rings.rings } = s.rings ∧ t.out = (signal s (s.ring r).vector).out ∧ t.pcie = (signal s (s.ring r).vector).pcie ∧
      { t with rings := s.rings, pcie := s.pcie, out := s.out } = s

/-! ## Commands of the command rings -/

/-- A command that fails one of the general checks of R363 completes with the first failing check's status, with RESULT 0, and what else it
names is left alone. A job command that ends so with RANGE is counted in CX_FAIL (R395), and a REBIND that ends so lets fetching go on
(R105). That a job so refused is counted is the model's reading (assumption 20). -/
def Obligations.RefusedCommandCompletes : Prop :=
  ∀ (s u : State) (c : Cmd) (i : Instr) (x : Nat), commandRow s c i → firstCheck s c.entry = some x → u = afterStart s c →
    exec i s = .next (complete (if x = 8 ∧ (opOf c.entry = 0x20 ∨ opOf c.entry = 0x21) then countFail u 8
      else if opOf c.entry = 0x70 then { u with rings := { u.rings with fetchStop := false } } else u) c.key x 0)

/-- A completion touches the rings, the translations and the outputs alone: no other state depends on a command having completed. A completion
entry (R362, Table 11-11): 32 bytes, with CMD_ID and OPCODE as the command has them, STATUS, RESULT, UNIT_MASK and DETAIL at their places,
least significant byte first, and zeros elsewhere. -/
def Obligations.CompletionTouchesRingsAlone : Prop :=
  (∀ (s t : State) (k : Nat × Bytes) (status result mask detail : Nat), t = complete s k status result mask detail →
    { t with rings := s.rings, pcie := { t.pcie with ats := s.pcie.ats, atsAsked := s.pcie.atsAsked }, out := s.out } = s ∧
      { t.rings with rings := s.rings.rings, cmds := s.rings.cmds, done := s.rings.done } = s.rings) ∧
  (∀ (cmd : Bytes) (status result mask detail : Nat), cmd.length = 64 → status < 2 ^ 8 → result < 2 ^ 64 → mask < 2 ^ 64 →
    detail < 2 ^ 32 →
    let e := complEntry cmd status result mask detail
    e.length = 32 ∧ fld e 0 4 = fld cmd 4 4 ∧ fld e 4 1 = fld cmd 0 1 ∧ fld e 5 1 = status ∧ fld e 6 2 = 0 ∧ fld e 8 8 = result ∧
      fld e 16 8 = mask ∧ fld e 24 4 = detail ∧ fld e 28 4 = 0)

/-- COMMAND_FETCH of a ring from which a command may be fetched (R347, R361). The page of the entry is translated where that is enabled
(R468), and the entry read joins the commands fetched before it; that, the ring's consumer index and its writeback are all that changes,
but that a REBIND stops fetching (R105) and that a command whose opcode Table 11-10 does not list, where it is the one that starts next,
completes with BAD_COMMAND (R363). A read that ends in an error or times out, and a page that is not translated, disable the ring with
ERROR (R363, R469), and change nothing else but the error registers and the translations. The bits of the error registers are those of PCI
Express (assumption 22). -/
def Obligations.CommandFetchRow : Prop :=
  ∀ (s : State) (i : Nat) (e : Bytes) (r addr : Nat) (u : State), i < 256 → canFetch s i = true → r = commandRing i →
    addr = (s.ring r).base + 64 * ((s.ring r).cons.toNat % max (s.ring r).size 1) → u = translate s addr →
    (∃ t, exec (.commandFetch i .ok e) s = .next (match nextStart [] t.rings.cmds with
          | some c => if knownOp (opOf c.entry) then t else complete t c.key 7 0
          | none => t) ∧
        t.ring r = { s.ring r with cons := (s.ring r).cons + 1 } ∧
        (∀ k, k ≠ r → t.ring k = s.ring k) ∧ t.rings.cmds = s.rings.cmds ++ [{ ring := i, entry := sub e 0 64, started := false }] ∧
        t.rings.fetchStop = decide (opOf (sub e 0 64) = 0x70) ∧
        { t.rings with rings := s.rings.rings, cmds := s.rings.cmds, fetchStop := s.rings.fetchStop } = s.rings ∧
        (∀ w, w = hostWrite u (s.ring r).wb (le 4 ((s.ring r).cons + 1).toNat ++ zeros 4) → t.out = w.out ∧ t.pcie = w.pcie) ∧
        (s.pcie.atsEn = false → u = s) ∧
        { t with rings := s.rings, pcie := { t.pcie with ats := s.pcie.ats, atsAsked := s.pcie.atsAsked }, out := s.out } = s) ∧
    (∀ how, how ∈ [ReadEnd.completerAbort, .unsupported, .poisoned, .timeout] →
      exec (.commandFetch i how e) s = .next (modRing (noteRead u how) r (fun g => { g with enable := false, error := true }))) ∧
    (s.pcie.atsEn = true → cachedPage s addr = none →
      exec (.commandFetch i .translationError e) s =
        .next (modRing (askPage s addr) r (fun g => { g with enable := false, error := true })))

/-- NOP completes OK; a SEQ_ command that passes its checks waits, with its ring, entry, action and sequencer, for the frame whose work window
opens next in RUNNING (R181, R182); TIME_PREF waits for the next frame tick (R412). The frame that a SEQ_ command waits for is the model's
reading (assumption 19). -/
def Obligations.WaitingCommandRows : Prop :=
  ∀ (s : State) (c : Cmd), firstCheck s c.entry = none →
    (startsNext s 0x00 c → exec .nop s = .next (complete (afterStart s c) c.key 0 0)) ∧
    (∀ i act, (i, act) ∈ [(Instr.seqArm, 1), (Instr.seqDisarm, 2), (Instr.seqForce, 3)] → startsNext s act c →
      exec i s = .next { afterStart s c with seqCmds := s.seqCmds ++
        [{ ring := c.ring, entry := c.entry, act := act, seq := fld c.entry 8 1, m := s.firstRun.map (fun r => max r s.windowAfter) }] }) ∧
    (startsNext s 0x41 c →
      exec .timePref s = .next { afterStart s c with time := { s.time with prefCmds := s.time.prefCmds ++ [c.key] } })

/-- Who may own a host-pool bank (R330): a host write of an owner, by BANK_OWNER_WRITE or by BANK_ASSIGN, takes effect where the bank is in
the pool, in service and not being zeroed, and the new owner is 0x001 or a window 0x010 to 0x01F, and BANK_ASSIGN completes OK; any other
is counted in BK_DENIED, changes no owner, and BANK_ASSIGN completes DENIED. That a fenced bank, and a pool being zeroed, takes no owner
is the model's reading (assumption 31). -/
def Obligations.BankOwnerRows : Prop :=
  ∀ (s : State) (b o : Nat) (may : Prop),
    (may ↔ b ∈ s.banks.pool ∧ (o = 1 ∨ 0x10 ≤ o ∧ o ≤ 0x1F) ∧ s.fenced 0x06 b = false ∧ s.banks.zeroing = false) →
    (b < 136 → o < 1024 → s.barOpen = true → s.isBound = true →
      (may → exec (.bankOwnerWrite b o) s = .next { s with banks := { s.banks with owner := tput s.banks.owner b o } }) ∧
      (¬may → exec (.bankOwnerWrite b o) s = .next { s with banks := { s.banks with denied := satAdd 32 s.banks.denied 1 } })) ∧
    (∀ (c : Cmd) (u : State), startsNext s 0x50 c → firstCheck s c.entry = none → b = fld c.entry 8 1 → o = fld c.entry 10 2 →
      u = afterStart s c →
      (may → exec .bankAssign s = .next (complete { u with banks := { u.banks with owner := tput u.banks.owner b o } } c.key 0 0)) ∧
      (¬may → exec .bankAssign s =
        .next (complete { u with banks := { u.banks with denied := satAdd 32 u.banks.denied 1 } } c.key 6 0)))

/-- Commands on rings and statistics: RING_RESET discards what is staged and answers how many envelopes that were (R359); SPAN_READ takes its
place on its ring, or ends EMPTY or RANGE (R247); STATS_READ writes the block to the host and answers its length, or ends EMPTY (Table
11-10), or UNIT_FAULT with bit 9 where the translation of its destination fails (R469). -/
def Obligations.RingAndReadCommandRows : Prop :=
  ∀ (s : State) (c : Cmd), firstCheck s c.entry = none →
    (startsNext s 0x51 c → ∀ r, r = fld c.entry 8 2 →
      exec .ringReset s = .next (complete (if r = dlRing then resetDeadLetter (afterStart s c) else resetRing (afterStart s c) r) c.key 0
        (stagedOf (s.ring r).ready).length)) ∧
    (startsNext s 0x10 c →
      (fld c.entry 24 4 = 0 → exec .spanRead s = .next (complete (afterStart s c) c.key 1 0)) ∧
      (fld c.entry 24 4 ≠ 0 → spanFrames s (fld c.entry 8 4) (fld c.entry 16 8) (fld c.entry 24 4) = none →
        exec .spanRead s = .next (complete (afterStart s c) c.key 8 0)) ∧
      (∀ a b, fld c.entry 24 4 ≠ 0 → spanFrames s (fld c.entry 8 4) (fld c.entry 16 8) (fld c.entry 24 4) = some (a, b) →
        exec .spanRead s = .next (pushReady { afterStart s c with banks := { s.banks with readouts := s.banks.readouts + 1 } }
          (deliveryRing (fld c.entry 12 2)) [.readout { cmd := c.key, stream := fld c.entry 8 4, next := a, last := b
                                                        tag := fld c.entry 28 4, written := 0, serial := s.banks.readouts }]))) ∧
    (startsNext s 0x30 c → s.canIssue = true →
      (∀ how, fld c.entry 12 4 = 0 → exec (.statsRead how) s = .next (complete (afterStart s c) c.key 1 0)) ∧
      (∀ how, fld c.entry 12 4 ≠ 0 → how ≠ .translationError →
        exec (.statsRead how) s = .next (complete (hostWrite (afterStart s c) (fld c.entry 16 8)
          (statsBytes s (fld c.entry 8 1) (fld c.entry 12 4))) c.key 0 (fld c.entry 12 4))) ∧
      (fld c.entry 12 4 ≠ 0 → s.pcie.atsEn = true →
        exec (.statsRead .translationError) s = .next (complete (afterStart s c) c.key 5 0 512)))

/-- PLAN_SWITCH (R448 to R450), where the tick after the next, t_s = t_{a+1}, is the one at which a switch takes effect: to the plan in force,
which no switch that waits for that tick changes, it completes OK; to a plan of the same reference and synthesiser settings it waits for
that tick, behind the switches that wait for it; to any other it is deferred to the next bind, with RESULT 1; a plan outside PLAN_MASK is
DENIED. With PLL-S or PLL-C lost a switch ends UNIT_FAULT (that it does so at once is the model's reading, assumption 36).
PLAN_SWITCH_APPLY at the tick named brings the last of its switches into force, counts one where that changes the plan, and no switch of
that tick waits any more. That a switch back to the plan in force while another waits becomes a waiting switch of its own is the model's
reading (assumption 35). -/
def Obligations.PlanSwitchRows : Prop :=
  (∀ (s : State) (c : Cmd) (p : Nat) (q : PlanQ), startsNext s 0x40 c → firstCheck s c.entry = none → p = fld c.entry 8 1 →
    s.cfg.plan? p = some q →
    (bit s.cfg.host.planMask p = false → exec .planSwitch s = .next (complete (afterStart s c) c.key 6 0)) ∧
    (bit s.cfg.host.planMask p = true →
      (p = s.clocks.plan → planAt s (s.time.ticks + 1) = p → exec .planSwitch s = .next (complete (afterStart s c) c.key 0 0)) ∧
      ((p ≠ s.clocks.plan ∨ planAt s (s.time.ticks + 1) ≠ p) → q.conf = s.planNow.conf →
        (s.clocks.pllS.lock && s.clocks.pllC.lock) = false → exec .planSwitch s = .next (complete (afterStart s c) c.key 5 0)) ∧
      ((p ≠ s.clocks.plan ∨ planAt s (s.time.ticks + 1) ≠ p) → q.conf = s.planNow.conf → s.clocks.pllS.lock = true →
        s.clocks.pllC.lock = true →
        exec .planSwitch s = .next { afterStart s c with clocks := { s.clocks with
          pending := s.clocks.pending ++ [(p, s.time.ticks + 1, c.ring, c.entry)] } }) ∧
      ((p ≠ s.clocks.plan ∨ planAt s (s.time.ticks + 1) ≠ p) → q.conf ≠ s.planNow.conf →
        exec .planSwitch s =
          .next (complete { afterStart s c with clocks := { s.clocks with deferred := some p } } c.key 0 1)))) ∧
  (∀ (s : State) (p c k : Nat) (e : Bytes) (l : List (Nat × Nat × Nat × Bytes)), s.ticking = true → s.clocks.pending = (p, c, k, e) :: l →
    c ≤ s.time.ticks →
    ∃ t, exec .planSwitchApply s = .next t ∧ t.clocks.plan = planAt s c ∧ t.clocks.pending = s.clocks.pending.filter (fun e => e.2.1 ≠ c) ∧
      (planAt s c ≠ s.clocks.plan → t.clocks.switches = satAdd 32 s.clocks.switches 1) ∧
      (planAt s c = s.clocks.plan → t.clocks.switches = s.clocks.switches) ∧ s.now ≤ t.now)

/-- GROUP_POWER (R143 to R145). A group outside GROUP_MASK is DENIED, one with a power command in progress gives BAD_COMMAND, a fenced one
UNIT_FAULT with its bit; one that is as asked completes OK. A power-down waits for the next tick; a power-up that meets no failure brings
the island up, to settle, and one that meets a failure is a fault of the group and completes UNIT_FAULT with its bit. At their ends the
group is down, or its data counts again, and the command is over. The instant at which a powering group settles and rejoins is the model's
reading (assumption 36). -/
def Obligations.GroupPowerRows : Prop :=
  (∀ (s : State) (c : Cmd) (g : Nat) (i : Instr) (r : GroupBoot), firstCheck s c.entry = none → startsNext s 0x60 c →
    g = fld c.entry 8 1 →
    (i = .groupPowerDown ∧ fld c.entry 9 1 = 0 ∨ i = .groupPowerUp r ∧ fld c.entry 9 1 = 1 ∧ g = r.group) →
    (bit s.cfg.host.groupMask g = false → exec i s = .next (complete (afterStart s c) c.key 6 0)) ∧
    (bit s.cfg.host.groupMask g = true → (s.group g).powerCmd.isSome = true → exec i s = .next (complete (afterStart s c) c.key 7 0)) ∧
    (bit s.cfg.host.groupMask g = true → (s.group g).powerCmd = none →
      (s.fenced 0x01 g = true → exec i s = .next (complete (afterStart s c) c.key 5 0 (2 ^ g))) ∧
      (s.fenced 0x01 g = false →
        (i = .groupPowerDown → (s.group g).state = .down → exec i s = .next (complete (afterStart s c) c.key 0 0)) ∧
        (i = .groupPowerDown → (s.group g).state ≠ .down →
          exec i s = .next (modGroup (afterStart s c) g (fun e => { e with powerCmd := some c.key, downAt := some s.time.ticks }))) ∧
        (i = .groupPowerUp r → (s.group g).state ≠ .down → exec i s = .next (complete (afterStart s c) c.key 0 0)) ∧
        (i = .groupPowerUp r → (s.group g).state = .down → bootFailure s r = none →
          exec i s = .next (joinLater (modGroup (recordUnused (islandReady (afterStart s c) r .settling) r) g
            (fun e => { e with powerCmd := some c.key })) g)) ∧
        (∀ code cause, i = .groupPowerUp r → (s.group g).state = .down → bootFailure s r = some (code, cause) →
          exec i s = .next (complete (detect (modGroup (noteFuse (afterStart s c) r) g (fun e => { e with powerCmd := none })) ⟨0x01, g⟩ cause 0
            (faultFrameNow s 1)) c.key 5 0 (2 ^ g)))))) ∧
  (∀ (s : State) (g d : Nat), (s.group g).downAt = some d → d < s.time.ticks →
    (groupOwes s g = false ∨ s.tickOf d + 16000000 ≤ s.now) →
    ∃ t, exec (.groupPowerDownApply g) s = .next t ∧ (t.group g).state = .down ∧ (t.group g).powered = false ∧
      (t.group g).railsOn = false ∧ (t.group g).mclkFrom = none ∧ (t.group g).powerCmd = none ∧ (t.group g).downAt = none) ∧
  (∀ (s : State) (g j : Nat) (c : Nat × Bytes), (s.group g).powerCmd = some c → (s.group g).downAt = none →
    (s.group g).dataFrom = some j → s.ticking = true → j ≤ s.time.ticks →
    ∃ t, exec (.groupPowerUpRejoin g) s = .next t ∧ (t.group g).powerCmd = none ∧ (t.group g).state = (s.group g).state ∧ s.now ≤ t.now)

/-- COMPRESS and DECOMPRESS that pass their checks (R373 to R379). A source of no bytes is EMPTY, and so are staged envelopes of which none
fits; a history source of which a frame is not held is RANGE; with no lane in service a job is a UNIT_FAULT; and otherwise the job, with
what history or the staging ring holds of its source, is queued behind the others with its split blocks waiting. The lanes and the host
reads of a job (R374, R376, R384 to R391, R469). A waiting split block takes the lowest idle lane. A lane that faults fails its job with
its bit and is itself a fault, and a serving lane or job bank whose fault waits for the boundary fails it too, with the bits of those
lanes; a history source that meets an uncorrectable error fails it with bit 8, a destination whose translation fails with bit 9, a frame
no longer held with RANGE, and a stream that does not decode with its status; otherwise the coded block is counted for its lane and
written in its turn. A read's data is taken, its tag becomes free, and a read that fails or times out fails a compression with UNIT_FAULT
and bit 9; a decompression is judged as far as its bytes have come. A tag that is not outstanding is an Unexpected Completion, unless an
ended epoch has retired it (R479, R482; the AER bits are those of PCI Express, assumption 22). That a fault which waits for the boundary
counts from its detection on is the model's reading (assumption 30). -/
def Obligations.JobRows : Prop :=
  (∀ (s u : State) (c : Cmd) (i : Instr) (inf : Bool) (j : Job) (n : Nat), (i, inf) ∈ [(Instr.compress, false), (Instr.decompress, true)] →
    startsNext s (if inf then 0x21 else 0x20) c → s.canIssue = true → firstCheck s c.entry = none → u = afterStart s c →
    j = jobOf u c.key inf → n = fld c.entry 24 4 →
    (n = 0 → exec i s = .next (complete u c.key 1 0)) ∧
    (n ≠ 0 → fld c.entry 8 1 = 0 →
      (anyLane s = false → exec i s = .next (complete (countFail u 5) c.key 5 0)) ∧
      (anyLane s = true → exec i s = .next (queueJob u j n))) ∧
    (n ≠ 0 → fld c.entry 8 1 = 1 →
      (spanFrames u j.srcA j.srcB n = none → exec i s = .next (complete (countFail u 8) c.key 8 0)) ∧
      (∀ a b bs, spanFrames u j.srcA j.srcB n = some (a, b) →
        bs = ((upFrom a (b + 1 - a)).filterMap (fun (m : Nat) => heldFrame u j.srcA (m : Int))).map (historyBlock u j) →
        (anyLane s = false → exec i s = .next (complete (countFail u 5) c.key 5 0)) ∧
        (anyLane s = true → exec i s = .next (queueJob u { j with
          plain := bs.flatten, spans := spansOf 0 ((upFrom a bs.length).zip (bs.map (·.length))) } bs.flatten.length)))) ∧
    (n ≠ 0 → fld c.entry 8 1 = 2 → ∀ ring k h l p t, tget? s.rings.staging j.srcA = some (ring, k, h) → l = stagedFor u ring →
      takeStaged l n u = (p, t) →
      (p = [] → exec i s = .next (complete u c.key 1 0)) ∧
      (p ≠ [] → anyLane s = false → exec i s = .next (complete (countFail u 5) c.key 5 0)) ∧
      (p ≠ [] → anyLane s = true → exec i s = .next (queueJob t { j with plain := p } p.length)))) ∧
  ((∀ (s : State) (j : Job) (b : Block) (i : Nat), s.coreClock = true → s.fenced 0x0F 0 = false → firstWaiting s = some (j, b) →
    anyLane s = true → idleLane s = some i →
    exec .splitBlockDispatch s = .next (askMore (modBlock s j.id b.idx (fun x => { x with lane := some i, st := .running })))) ∧
  (∀ (s : State) (lane : Nat) (j : Job) (b : Block),
    s.jobs.jobs.findSome? (fun j => (j.blocks.find? (fun b => b.lane = some lane && b.st == BlockSt.running)).map (fun b => (j, b))) =
      some (j, b) →
    (∀ bad dst, exec (.splitBlockComplete lane true ⟨bad, dst⟩) s =
      .next (detect (failJobs s (fun x => x.id = j.id) 5 (2 ^ lane)) ⟨0x09, lane⟩ 0x0F 0 s.released)) ∧
    (servedBad s j = true → ∀ x, exec (.splitBlockComplete lane false x) s = .next (failJobs s (fun x => x.id = j.id) 5 0)) ∧
    (servedBad s j = false → inputHere s j b = true → s.canIssue = true → (j.kind ≠ 1 ∨ s.canReadHistory = true) →
      (∀ a dst, j.kind = 1 → a < dramBytes → exec (.splitBlockComplete lane false ⟨some a, dst⟩) s =
        .next (failJobs (dramError s (a / 65536) (a % 65536)) (fun x => x.id = j.id) 5 256)) ∧
      (s.pcie.atsEn = true → isLowest j b = true →
        exec (.splitBlockComplete lane false ⟨none, true⟩) s = .next (failJobs s (fun x => x.id = j.id) 5 512)) ∧
      (sourceHeld s j b = false → exec (.splitBlockComplete lane false ⟨none, false⟩) s = .next (failJobs s (fun x => x.id = j.id) 8 0)) ∧
      (sourceHeld s j b = true →
        (∀ st, codeBlock j b = .error st →
          exec (.splitBlockComplete lane false ⟨none, false⟩) s = .next (failJobs s (fun x => x.id = j.id) st 0)) ∧
        (∀ o u, codeBlock j b = .ok o → outputFits j b o = true →
          u = modBlock s j.id b.idx (fun x => { x with st := .coded, out := o }) →
          exec (.splitBlockComplete lane false ⟨none, false⟩) s = .next (askMore (writeOutputs (j.blocks.length + 1)
            { u with jobs := { u.jobs with blocks := tmod 0 u.jobs.blocks lane (fun n => satAdd 32 n 1) } } j.id)))))) ∧
  (∀ (s : State) (tag : Nat) (r : ReadReq) (data : Arrival), tget? s.pcie.reads tag = some r → r.dead = false →
    exec (.hostReadCompletion tag .ok data) s =
      .next (askMore (judgeStream (modJob (dropRead s tag) r.job (fun j => { j with got := tput j.got r.off (sub data.bytes 0 r.len) })) r.job
        (if s.pcie.atsEn then data.dstFails else none))) ∧
    (∀ j how, s.jobs.jobs.find? (fun j => j.id = r.job) = some j → how ∈ [ReadEnd.completerAbort, .unsupported, .poisoned] →
      (j.inflate = false →
        exec (.hostReadCompletion tag how data) s =
          .next (askMore (failJobs (noteRead (dropRead s tag) how) (fun j => j.id = r.job) 5 512)) ∧
        exec (.hostReadTimeout tag) s = .next (askMore (failJobs (aer (dropRead s tag) 14) (fun j => j.id = r.job) 5 512))) ∧
      (j.inflate = true →
        exec (.hostReadCompletion tag how data) s = .next (askMore (judgeStream (modJob (noteRead (dropRead s tag) how) r.job (fun j => { j with
          readFail := some (min r.off (j.readFail.getD r.off)) })) r.job none)) ∧
        exec (.hostReadTimeout tag) s = .next (askMore (judgeStream (modJob (aer (dropRead s tag) 14) r.job (fun j => { j with
          readFail := some (min r.off (j.readFail.getD r.off)) })) r.job none))))) ∧
  (∀ (s : State) (tag : Nat) (how : ReadEnd) (data : Arrival), tget? s.pcie.reads tag = none →
    (tag ∉ s.pcie.retired → s.pcie.linkUp = true → exec (.hostReadCompletion tag how data) s = .next (aer s 16)) ∧
    (tag ∈ s.pcie.retired → exec (.hostReadCompletion tag how data) s =
      .next (askMore { s with pcie := { s.pcie with retired := s.pcie.retired.filter (· != tag) } }))))

/-! ## REBIND and the flash -/

/-- REBIND (R104, R105, R107). By command in RUNNING or ARMING, and by REBIND_CTRL with its key in UNBOUND, the loader begins to read; in any
other state the command completes with BAD_COMMAND. The decision: no valid copy is MALFORMED and result 3, another sealed hash with the
seal closed is DENIED and result 2, and otherwise it is accepted with result 1, and no command is fetched any more. The end of the running
configuration (R108): at the next tick Class T stops and 100 ms of draining begin; after them the old configuration ends, and steps 6 to
17 run on the image held. That the decision reads the flash as it stands, and that the drain is one row, are the model's readings
(assumption 35). -/
def Obligations.RebindRows : Prop :=
  ((∀ (s : State) (c : Cmd), startsNext s 0x70 c → judge s c.entry [] true true true = none →
    ((s.boot.state = .running ∨ s.boot.state = .arming) → s.boot.phase = .none →
      exec .rebind s = .next (beginReading (afterStart s c) (some c.key)) ∧
      (beginReading (afterStart s c) (some c.key)).boot.phase = .reading) ∧
    (s.boot.state ≠ .running → s.boot.state ≠ .arming → ∀ u, u = afterStart s c →
      exec .rebind s = .next (complete { u with rings := { u.rings with fetchStop := false } } c.key 7 0))) ∧
  (∀ s : State, s.barOpen = true → s.boot.state = .unbound → s.boot.phase = .none → exec (.rebindCtrlGo 0xB1D) s = .next (beginReading s none)) ∧
  (∀ s : State, s.boot.phase = .reading → s.flashWriting = false → exec .rebindDecision s = .next (rebindOn s (rebindChoice s))) ∧
  (∀ (s t : State) (r : Choice), t = rebindOn s r →
    (r.found = none → t = endReading (decideRebind s 3 4 (r.errA + 65536 * r.errB)) ∧ t.boot.rebindResult = 3 ∧ t.boot.phase = .none ∧ t.rings.fetchStop = false) ∧
    (∀ k img f, r.found = some (k, img, f) →
      (referenceHash s ≠ some f.sealedHash → s.boot.sealSample = false →
        t = endReading (decideRebind s 2 6 0) ∧ t.boot.rebindResult = 2 ∧ t.boot.phase = .none ∧ t.rings.fetchStop = false) ∧
      ((referenceHash s = some f.sealedHash ∨ s.boot.sealSample = true) →
        t.boot.rebindResult = 1 ∧ t.boot.phase = .accepted ∧ t.boot.held = some (k, img) ∧ t.rings.fetchStop = true)))) ∧
  ((∀ s : State, s.boot.phase = .accepted → s.ticking = true →
    ∃ t, exec .rebindTeardown s = .next t ∧ t.boot.phase = .draining ∧ t.now = max s.now (s.tickOf s.time.ticks) ∧
      t.boot.drainUntil = t.now + 100 * 16000000 ∧ t.released = s.released) ∧
  (∀ (s : State) (env : BootEnv) (k : Copy) (img : Bytes), s.boot.phase = .draining → s.boot.held = some (k, img) →
    exec (.rebindDrainEnd env) s = .next (bindHeld (drainOver s) s.boot.folio k img env) ∧ (drainOver s).boot.state = .boot ∧
      s.now ≤ (drainOver s).now))

/-- The four flash operations at their GO (R46, R47, R475): what Table 15-11 or Table 02-2 turns away ends at once with its RESULT (for DENIED
and RANGE 'at once' is the model's reading, assumption 32); what passes is in progress, with the address and the data of the registers. A
GO while an operation is in progress starts nothing. -/
def Obligations.FlashGoRows : Prop :=
  ∀ (s : State) (i : Instr) (op len : Nat) (o : FlashOp),
    (i, op) ∈ [(Instr.flashRead len, 1), (Instr.flashProgram len, 2), (Instr.flashErase4k len, 3), (Instr.flashErase64k len, 4)] →
    len < 512 → s.barOpen = true →
    o = { op := op, len := len, addr := s.flashRegs.addr, data := s.flashRegs.data, waiting := false, forgotten := false } →
    (s.flashRegs.busy = none → s.boot.phase ≠ .reading → flashJudge s o = none →
      exec i s = .next { s with flashRegs := { s.flashRegs with op := op, len := len, busy := some o } }) ∧
    (∀ r, s.flashRegs.busy = none → s.boot.phase ≠ .reading →
      flashJudge s { o with waiting := true } = some r →
      exec i s = .next (raiseIrq { s with flashRegs := { s.flashRegs with op := op, len := len, done := true, result := r } } 1)) ∧
    (s.flashRegs.busy.isSome = true → exec i s = .next { s with flashRegs := { s.flashRegs with op := op, len := len } })

/-- FLASH_OPERATION_COMPLETE (R475): RESULT and DONE, with IRQ_STATUS.FLASH; a good READ puts the flash's bytes into FLASH_DATA and changes no
byte of the flash; a good PROGRAM writes FLASH_DATA to its span, and a good erase sets its span to 0xFF, and neither changes a byte
outside; a failed one, RESULT FLASH_ERROR, changes no byte outside its span. -/
def Obligations.FlashOperationEnds : Prop :=
  ∀ (s : State) (o : FlashOp) (ok : Bool), s.memOk = true → s.flashRegs.busy = some o → o.waiting = false → o.forgotten = false →
    s.flash.sizeMbit ≠ 0 → s.boot.phase ≠ .reading → (o.op = 1 ∨ o.op = 2 ∨ o.op = 3 ∨ o.op = 4) → (3 ≤ o.op → o.addr % o.span.2 = 0) →
    ∃ t, exec (.flashOperationComplete ok) s = .next t ∧ t.flashRegs.done = true ∧ t.flashRegs.result = (if ok then 0 else 4) ∧
      t.flashRegs.busy = none ∧ bit t.pcie.irqStatus 1 = true ∧
      (∀ a, (a < o.span.1 ∨ o.span.1 + o.span.2 ≤ a ∨ o.op = 1) → mget 0xFF t.flash.mem a = mget 0xFF s.flash.mem a) ∧
      (ok = true →
        (o.op = 1 → t.flashRegs.data = flashBytes s o.addr o.len ++ s.flashRegs.data.drop o.len) ∧
        (o.op = 2 → ∀ k < o.len, mget 0xFF t.flash.mem (o.addr + k) = (sub o.data 0 o.len).getD k 0) ∧
        (3 ≤ o.op → ∀ a, o.span.1 ≤ a → a < o.span.1 + o.span.2 → mget 0xFF t.flash.mem a = 0xFF))

/-! ## The host's accesses -/

/-- DOORBELL_WRITE of a host ring (R343, R344), from BOUND onward. A write that covers only bytes 4 to 7 is ignored. A write to a disabled
ring, and one whose signed 32-bit differences are out of order, only sets DB_BAD; any other sets PROD of a command ring and CONS of
another, and is the index that a read returns. A ring that is not a host ring reads 0 and ignores writes. That a delivery ring which the
Folio does not declare ignores its doorbell is the model's choice (assumption 41). -/
def Obligations.DoorbellRow : Prop :=
  ∀ (s : State) (r : Nat) (v : Word32) (g : Ring), s.barOpen = true → s.isBound = true → r < 16384 → g = s.ring r →
    bar0Read s (0x200000 + 8 * r) = (if isHostRing r = true then g.doorbell.toNat else 0) ∧
    ((isHostRing r = false ∨ ringKind s r = 0) → ∀ part, exec (.doorbellWrite r part v) s = .next s) ∧
    (isHostRing r = true → ringKind s r ≠ 0 →
    (exec (.doorbellWrite r .high v) s = .next s) ∧
    (∀ part, part ≠ .high →
      ((g.enable = false ∨ (rkind r = 4 ∧ ((v - g.prod).toInt < 0 ∨ (g.size : Int) < (v - g.cons).toInt)) ∨
          (rkind r ≠ 4 ∧ ((v - g.cons).toInt < 0 ∨ (g.prod - v).toInt < 0))) →
        exec (.doorbellWrite r part v) s = .next (modRing s r (fun g => { g with dbBad := true }))) ∧
      (g.enable = true → rkind r = 4 → 0 ≤ (v - g.prod).toInt → (v - g.cons).toInt ≤ g.size →
        exec (.doorbellWrite r part v) s = .next (modRing s r (fun g => { g with prod := v, doorbell := v }))) ∧
      (g.enable = true → rkind r ≠ 4 → 0 ≤ (v - g.cons).toInt → 0 ≤ (g.prod - v).toInt →
        exec (.doorbellWrite r part v) s = .next (if rkind r = 5 then writeCompletions (modRing s r (fun g => { g with cons := v, doorbell := v }))
          else modRing s r (fun g => { g with cons := v, doorbell := v })))))

/-- RING_ENABLE, RING_DISABLE and NOTIFY_UNMASK, the writes of RT_CTRL and RT_NOTIFY (R341, R346, R347). Enabling a ring whose BASE, WB,
VECTOR and SIZE are as they must be, and which is in service (R487, Table 16-1, Ring), sets PROD, CONS and WAITING to 0 and ENABLE;
otherwise ENABLE stays 0 and ERROR is set; entries that wait for a completion ring are written once it is enabled. Disabling clears ENABLE
and changes no index. Clearing MASK on a due ring signals it at once. -/
def Obligations.RingControlRows : Prop :=
  ∀ (s : State) (r : Nat) (v : Word32) (g : Ring), s.barOpen = true → s.isBound = true → isHostRing r = true → ringKind s r ≠ 0 →
    g = s.ring r →
    (g.enable = false → bit v.toNat 31 = true →
      (g.base % 4096 = 0 → g.wb % 8 = 0 → g.wb ≠ 0 → ringSizeOk r g.size = true → s.fenced 0x0A r = false →
        ∃ u, (u.ring r).enable = true ∧ (u.ring r).prod = 0 ∧ (u.ring r).cons = 0 ∧
          (u.ring r).waiting = 0 ∧ (u.ring r).vector = v.toNat % 2048 ∧ (∀ r', r' ≠ r → u.ring r' = s.ring r') ∧
          { u with rings := s.rings } = s ∧ exec (.ringEnable r v) s = .next (if rkind r = 5 then writeCompletions u else u)) ∧
      ((g.base % 4096 ≠ 0 ∨ g.wb % 8 ≠ 0 ∨ g.wb = 0 ∨ ringSizeOk r g.size = false ∨ s.fenced 0x0A r = true) →
        ∃ t, exec (.ringEnable r v) s = .next t ∧ (t.ring r).enable = false ∧ (t.ring r).error = true ∧
          (∀ r', r' ≠ r → t.ring r' = s.ring r') ∧ { t with rings := s.rings } = s)) ∧
    (bit v.toNat 31 = false →
      exec (.ringDisable r v) s = .next (modRing s r (fun g => { g with
        error := g.error && !bit v.toNat 30, dbBad := g.dbBad && !bit v.toNat 29, vector := v.toNat % 2048, enable := false }))) ∧
    (∀ u, u = modRing s r (fun g => { g with tick := bit v.toNat 31, mask := bit v.toNat 30, k := v.toNat % 65536 }) →
      exec (.notifyUnmask r v) s =
        .next (if g.mask = true ∧ bit v.toNat 30 = false ∧ notifies r = true then notify u r else u))

/-- Writes of single registers. EXPANSION_MAX_WRITE takes bits 12 to 0 where they are 1 to 4,096, and sets BAD_WRITE on any other value (Table
12-6); INTX_PENDING_WRITE clears the bits written, and INTA ends with the last of them (R467); REGISTER_WRITE of a BAR0 word is the write
of Table 00-5 on that word, and one that is not of 4 or 8 aligned bytes with every byte enable is dropped and logged as Completer Abort
(R465); of a BAR4 word it is the write of that word, and of a configuration word, which asks for the link alone, that of its register; an
offset that lies in no BAR completes with Unsupported Request (R463). What a register holds after a write is what a read of it returns:
FLASH_CTRL without GO, FLASH_ADDR, IRQ_ENABLE and IRQ_VECTOR (Table 15-7) in every state; CX_CTRL, the shadow of each window (Table
15-10), RT_NOTIFY and the place of a disabled host ring (R340, R341) of a bound module; each word of the MSI-X table, whose PBA ignores
writes (R463, R466). A window's write leaves what is active and the other windows alone, one of the MSI-X table its other words, and an
enabled ring keeps its place (R341). So do Cache Line Size, Interrupt Line, the masks of the error registers and the LTR latencies of the
configuration space read back, whose registers of Tables 15-2 to 15-4 that are read-only ignore writes (R460 to R462). The reads that
latch (R257, R310, R433), of a bound module: each answers the word read, and latches the high halves that belong to the value read: of the
full count in whole cycles for TB_RAW (R397), of the identity with its lowest byte first for TB_DOMx_GM (R5). While the commands of an
open work window have been applied ahead of their release, SQ_DEAD is the one shown. AER bits 15 and 20, Completer Abort and Unsupported
Request, and the bits of the error masks, are those of PCI Express (assumption 22), the lengths that BAR4 takes are the model's
(assumption 31), and that SQ_DEAD is the one shown is the model's reading (assumption 19). -/
def Obligations.RegisterAccessRows : Prop :=
  (∀ s : State, s.barOpen = true →
    (∀ v : Word32, s.isBound = true →
      exec (.expansionMaxWrite v) s = .next (if 1 ≤ v.toNat % 8192 ∧ v.toNat % 8192 ≤ 4096 then
          { s with jobs := { s.jobs with expMax := v.toNat % 8192 } }
        else { s with jobs := { s.jobs with badWrite := true } })) ∧
    (∀ (i : Nat) (v : Word32), i < 64 →
      ∃ t, exec (.intxPendingWrite i v) s = .next t ∧ (∀ p, p ∈ t.pcie.intx ↔ p ∈ s.pcie.intx ∧ ¬(p / 32 = i ∧ bit v.toNat (p % 32) = true)) ∧
        t.out = (if s.intaOn = true ∧ t.pcie.intx = [] then s.out ++ [.deassertInta] else s.out) ∧
        { t with pcie := { t.pcie with intx := s.pcie.intx }, out := s.out } = s) ∧
    (∀ (o : Nat) (d : Bytes), o < 0x1000000 →
      (d.length = 4 → o % 4 = 0 → exec (.registerWrite o true d) s = .next (bar0Write s o (fld d 0 4))) ∧
      (d.length = 8 → o % 8 = 0 →
        exec (.registerWrite o true d) s = .next (bar0Write (bar0Write s o (fld d 0 4)) (o + 4) (fld d 4 4))) ∧
      (¬(d.length = 4 ∧ o % 4 = 0) → ¬(d.length = 8 ∧ o % 8 = 0) → exec (.registerWrite o true d) s = .next (aer s 15)) ∧
      exec (.registerWrite o false d) s = .next (aer s 15)) ∧
    (∀ (o : Nat) (all : Bool) (d : Bytes), o < 0x10000 →
      (d.length = 4 → o % 4 = 0 → exec (.registerWrite (0x1000000 + o) all d) s = .next (bar4Write s o (fld d 0 4))) ∧
      (d.length = 8 → o % 8 = 0 →
        exec (.registerWrite (0x1000000 + o) all d) s = .next (bar4Write (bar4Write s o (fld d 0 4)) (o + 4) (fld d 4 4))) ∧
      (¬(d.length = 4 ∧ o % 4 = 0) → ¬(d.length = 8 ∧ o % 8 = 0) → exec (.registerWrite (0x1000000 + o) all d) s = .next s)) ∧
    (∀ (u : State) (o : Nat) (all : Bool) (d : Bytes), u.pcie.linkUp = true →
      exec (.registerWrite (0x2000000 + o) all d) u =
        .next (if d.length = 4 ∧ all = true ∧ o % 4 = 0 then cfgWrite u o (fld d 0 4) else u)) ∧
    (∀ (o : Nat) (all : Bool) (d : Bytes), 0x1010000 ≤ o → o < 0x2000000 →
      exec (.registerWrite o all d) s = .next { s with pcie := aerLatch s.pcie 20, out := s.out ++ [.unsupported] }) ∧
    (∀ v : Word32, (∃ t, bar0Write s 0x60 v.toNat = t ∧
      (∀ i < 3, bit t.pcie.irqStatus i = (bit s.pcie.irqStatus i && !bit v.toNat i)) ∧
      { t with pcie := { t.pcie with irqStatus := s.pcie.irqStatus } } = s))) ∧
  (∀ (s : State) (w : Word32) (v : Nat), v = w.toNat →
    (bit v 31 = false → bar0Read (bar0Write s 0x100 v) 0x100 = v / 2 ^ 28 % 8 * 2 ^ 28 + v % 512) ∧
    bar0Read (bar0Write s 0x104 v) 0x104 = v ∧ bar0Read (bar0Write s 0x64 v) 0x64 = v % 8 ∧
    bar0Read (bar0Write s 0x68 v) 0x68 = v % 2048 ∧
    (s.isBound = true →
      (1 ≤ v % 8192 → v % 8192 ≤ 4096 → bar0Read (bar0Write s 0x090000 v) 0x090000 = v % 8192) ∧
      (∀ k o, k < 16 → o = 0x088000 + 0x20 * k →
        bar0Read (bar0Write s o v) o = v % 2 ^ 20 ∧ bar0Read (bar0Write s (o + 4) v) (o + 4) = v % 2 ^ 23 ∧
        bar0Read (bar0Write s (o + 8) v) (o + 8) = v % 256 ∧
        bar0Read (bar0Write s (o + 12) v) (o + 12) = v / 2 ^ 4 % 4 * 2 ^ 4 + v % 16 ∧
        (∀ i, i ∈ [0, 4, 8, 12] → ((bar0Write s (o + i) v).win k).active = (s.win k).active ∧
          ∀ k', k' ≠ k → (bar0Write s (o + i) v).win k' = s.win k')) ∧
      (∀ r o, isHostRing r = true → ringKind s r ≠ 0 → o = 0x100000 + 64 * r →
        bar0Read (bar0Write s (o + 4) v) (o + 4) = v / 2 ^ 30 % 4 * 2 ^ 30 + v % 2 ^ 16 ∧
        ((s.ring r).enable = false →
          (∀ i, i ∈ [8, 12, 20, 24] ∨ (i = 16 ∧ rkind r ≠ 3) → bar0Read (bar0Write s (o + i) v) (o + i) = v) ∧
          (rkind r = 3 → bar0Read (bar0Write s (o + 16) v) (o + 16) = bar0Read s (o + 16))) ∧
        ((s.ring r).enable = true → ∀ i, i ∈ [8, 12, 16, 20, 24] → ∀ r', (bar0Write s (o + i) v).ring r' = s.ring r'))) ∧
    (∀ o, o < 0x8000 → o % 4 = 0 →
      bar4Word (bar4Write s o v) o = (if o % 16 = 12 then v % 2 else v) ∧
      ∀ o', o' < 0x8000 → o' % 4 = 0 → o' ≠ o → bar4Word (bar4Write s o v) o' = bar4Word s o') ∧
    (∀ o, 0x8000 ≤ o → bar4Write s o v = s) ∧
    cfgRead (cfgWrite s 0x0C v) 0x0C = v % 256 ∧ cfgRead (cfgWrite s 0x3C v) 0x3C = 0x100 + v % 256 ∧
    cfgRead (cfgWrite s 0x108 v) 0x108 = v &&& aerUncBits ∧ cfgRead (cfgWrite s 0x10C v) 0x10C = v &&& aerUncBits ∧
    cfgRead (cfgWrite s 0x114 v) 0x114 = v &&& aerCorBits ∧
    cfgRead (cfgWrite s 0x16C v) 0x16C = v / 2 ^ 16 % 2 ^ 13 * 2 ^ 16 + v % 2 ^ 13 ∧
    (∀ o, o ∈ [0x00, 0x08, 0x2C, 0x30, 0x34, 0x40, 0x60, 0x64, 0x6C, 0x84, 0x8C, 0xB4, 0xB8, 0x100, 0x148, 0x14C, 0x150, 0x158, 0x168, 0x170, 0x174,
      0x180, 0x1B0, 0x1E0, 0x230, 0x300, 0x304, 0x308, 0x30C, 0x310, 0x314, 0x318] → cfgWrite s o v = s)) ∧
  (∀ s : State, s.barOpen = true → s.isBound = true →
    (∀ q, q < 64 → s.shown = none → exec (.sqDeadLoRead q) s = .next { s with
      out := s.out ++ [.readData (le 4 (bar0Read s (0x040010 + 0x40 * q)))]
      seqs := tmap s.seqs (fun i e => if i = q then { e with deadHi := e.deadPu / 2 ^ 32 % 2 ^ 32 } else e) }) ∧
    (∀ q l, q < 64 → s.shown = some l → exec (.sqDeadLoRead q) s = .next { s with
      out := s.out ++ [.readData (le 4 (bar0Read s (0x040010 + 0x40 * q)))]
      shown := some (tmap l (fun i e => if i = q then { e with deadHi := e.deadPu / 2 ^ 32 % 2 ^ 32 } else e))
      seqs := tmap s.seqs (fun i e => if i = q then { e with deadHi := (tget {} l q : Seq).deadPu / 2 ^ 32 % 2 ^ 32 } else e) }) ∧
    (∀ e, e < 1024 → exec (.imMeanLoRead e) s = .next { s with
      out := s.out ++ [.readData (le 4 (bar0Read s (0x070010 + 0x20 * e)))]
      meter := { s.meter with entries := tmap s.meter.entries (fun i m =>
        if i = e then { m with meanHi := sfield 64 m.mean / 2 ^ 32 } else m) } }) ∧
    (∃ t, exec .tbRawLoRead s = .next t ∧ t.out = s.out ++ [.readData (le 4 (bar0Read s 0x010000))] ∧
      t.time.rawHi = s.rawCount / 2 ^ 32 % 2 ^ 32 ∧
      { t with out := s.out, time := { t.time with rawHi := s.time.rawHi, disSecLo := s.time.disSecLo, disSecHi := s.time.disSecHi, disNs := s.time.disNs } } = s) ∧
    (∀ x, x < 2 → exec (.tbDomGmLoRead x) s = .next (modDom
      { s with out := s.out ++ [.readData (le 4 (bar0Read s (0x010050 + 0x20 * x)))] } x (fun d => { d with gmHi := idWord (d.gm / 2 ^ 32) }))))

/-- Where a window's byte lies (R471): with A = WIN_BASE + x + ROT and S the size of the named kind of bank, in bank WIN_BANK + ⌊A / S⌋ at
byte A mod S. -/
def Obligations.WindowAddressing : Prop :=
  ∀ (w : WinSet) (x : Nat),
    let a := w.base + x + w.rot
    let size := if w.bank < 128 then 1048576 else 262144
    winAddr w x / 2 ^ 20 = w.bank + a / size ∧ winAddr w x % 2 ^ 20 = a % size

/-- WINDOW_READ and WINDOW_WRITE of a request that the window takes (R471, R472): a read answers the bytes at the places of `winAddr`, and is
the bank's fault (R336) where one of them has a double-bit error; a write stores each byte at its place, and every other byte of the banks
is as before. Port B of a dual-port bank may write in the same cycles (R333): a read answers the old bytes, and port B's are stored; a
write of the window wins over port B's at the same byte; a byte with another value counts a collision and latches its address, and none
that differs counts none. All other state is as before, but the mailbox words of a first work window that has not opened, which follow the
mailbox (R208). -/
def Obligations.WindowAccessRows : Prop :=
  ∀ (s : State) (k x : Nat), k < 16 → s.barOpen = true → s.memOk = true →
    (∀ n, winJudge s k x n false = .accept →
      (∀ pb, ∃ t, exec (.windowRead k x n ⟨none, pb⟩) s = .next t ∧
        t.out = s.out ++ [.readData ((List.range n).map (fun i => mget 0 s.banks.mem (winAddr (s.win k).active (x + i))))] ∧
        { t with out := s.out, banks := { t.banks with mem := s.banks.mem } } = s ∧ (pb = [] → t.banks.mem = s.banks.mem) ∧
        (∀ a, (∀ e ∈ pb, e.1 = a → isDual a = false) → mget 0 t.banks.mem a = mget 0 s.banks.mem a) ∧
        (∀ a v, pb = [(a, v)] → isDual a = true → mget 0 t.banks.mem a = v)) ∧
      (∀ i, i < n → exec (.windowRead k x n ⟨some i, []⟩) s = .next (winReadError s (winAddr (s.win k).active (x + i))))) ∧
    (∀ (d : Bytes) pb, winJudge s k x d.length true = .accept →
      ∃ t, exec (.windowWrite k x d pb) s = .next t ∧
        { t with banks := { t.banks with
          mem := s.banks.mem, coll := s.banks.coll, collAddr := s.banks.collAddr, mailbox := s.banks.mailbox } } = s ∧
        (¬(s.ticking = true ∧ s.released = 0 ∧ s.time.ticks = 2 ∧ s.now < s.tickOf 1 + 128000) → t.banks.mailbox = s.banks.mailbox) ∧
        (∀ i < d.length, mget 0 t.banks.mem (winAddr (s.win k).active (x + i)) = d.getD i 0) ∧
        (∀ a, (∀ i < d.length, a ≠ winAddr (s.win k).active (x + i)) → (∀ e ∈ pb, e.1 = a → isDual a = false) →
          mget 0 t.banks.mem a = mget 0 s.banks.mem a) ∧
        ((∀ e ∈ pb, ∀ i < d.length, e.1 = winAddr (s.win k).active (x + i) → e.2 = d.getD i 0) →
          t.banks.coll = s.banks.coll ∧ t.banks.collAddr = s.banks.collAddr)) ∧
    (∀ (b v : Byte) a, a = winAddr (s.win k).active x → winJudge s k x 1 true = .accept → isDual a = true → v ≠ b →
      ∃ t, exec (.windowWrite k x [b] [(a, v)]) s = .next t ∧ mget 0 t.banks.mem a = b ∧
        tget 0 t.banks.coll (a / 2 ^ 20 - 128) = satAdd 32 (tget 0 s.banks.coll (a / 2 ^ 20 - 128)) 1 ∧
        tget? t.banks.collAddr (a / 2 ^ 20 - 128) = some ((tget? s.banks.collAddr (a / 2 ^ 20 - 128)).getD (a % 2 ^ 20)))

/-- What a window refuses (R472): an access through a disabled window, a write without WRITE, a byte above WIN_LIMIT or beyond the kind of
bank, a bank that is fenced or that the window does not own. A refused read completes with Completer Abort and no data, a refused write is
dropped, both are logged (the bit is that of PCI Express, assumption 22), and no byte of a bank changes. A refusal for ownership, of a
read or of a write, is counted in BK_VIOL_HOST and WIN_DROPS, one for a fence in WIN_DROPS, any other in neither. -/
def Obligations.WindowRefusals : Prop :=
  ∀ (s : State) (k x : Nat), k < 16 → s.barOpen = true →
    (∀ n wr, ((s.win k).active.en = false ∨ (wr = true ∧ (s.win k).active.write = false) ∨ (s.win k).active.limit < x + n - 1) →
      winJudge s k x n wr = .refuse) ∧
    (∀ n wr, (if (s.win k).active.bank < 128 then 127 else 135) < winAddr (s.win k).active (x + n - 1) / 2 ^ 20 →
      winJudge s k x n wr = .refuse) ∧
    (∀ n wr b, b ∈ winBanks (s.win k).active x n → s.fenced 0x06 b = true ∨ tget 0 s.banks.owner b ≠ 0x010 + k →
      winJudge s k x n wr ≠ .accept) ∧
    (∀ n bad pb j, winJudge s k x n false = j → j ≠ .accept →
      ∃ t, exec (.windowRead k x n ⟨bad, pb⟩) s = .next t ∧ t.out = s.out ++ [.completerAbort] ∧ t.banks.mem = s.banks.mem ∧
        bit t.pcie.aerUnc 15 = true ∧
        t.banks.violHost = (match j with
          | .notOwner _ _ => satAdd 32 s.banks.violHost 1
          | _ => s.banks.violHost) ∧
        (t.win k).drops = (if j = .refuse then (s.win k).drops else satAdd 32 (s.win k).drops 1)) ∧
    (∀ (d : Bytes) pb j, winJudge s k x d.length true = j → j ≠ .accept →
      ∃ t, exec (.windowWrite k x d pb) s = .next t ∧ t.out = s.out ∧ t.banks.mem = s.banks.mem ∧ bit t.pcie.aerUnc 15 = true ∧
        t.banks.violHost = (match j with
          | .notOwner _ _ => satAdd 32 s.banks.violHost 1
          | _ => s.banks.violHost) ∧
        (t.win k).drops = (if j = .refuse then (s.win k).drops else satAdd 32 (s.win k).drops 1) ∧
        (t.win k).active = (s.win k).active)

/-- WIN_COMMIT with GO of a bound module (R473): a shadow that passes becomes active in one step and GEN counts it; one of a window outside
WIN_MASK, with WRITE on a window in WIN_RO, with a bank above 135 or a base beyond the bank size is refused, DENIED is set and the active
settings stand. No other window changes. -/
def Obligations.WindowCommitRow : Prop :=
  ∀ (s : State) (k : Nat) (w : Win), k < 16 → s.barOpen = true → s.isBound = true → w = s.win k →
    ∃ t, exec (.winCommit k true) s = .next t ∧ (∀ k', k' ≠ k → t.win k' = s.win k') ∧ { t with pcie := s.pcie } = s ∧
      ((bit s.cfg.host.winMask k = false ∨ (w.shadow.write = true ∧ bit s.cfg.host.winRo k = true) ∨ 135 < w.shadow.bank ∨
          (if w.shadow.bank < 128 then 1048576 else 262144) ≤ w.shadow.base) → t.win k = { w with denied := true }) ∧
      (bit s.cfg.host.winMask k = true → (w.shadow.write = true → bit s.cfg.host.winRo k = false) → w.shadow.bank ≤ 135 →
          w.shadow.base < (if w.shadow.bank < 128 then 1048576 else 262144) →
        t.win k = { w with active := w.shadow, gen := (w.gen + 1) % 2 ^ 16 })

/-! ## The endpoint -/

/-- PERST_N, HOT_RESET and FUNCTION_LEVEL_RESET (R62, R331, R479, Table 15-13): no completion decided and no job is left, and each job is
counted in CX_FAIL as ABORTED; the windows, the MSI-X table and the rings' host fields are at their reset values, every host-pool bank is
back with the control cluster, and everything outside the host domain is kept: time, frames, the field, the clocks, the sequencers, the
records, the Franking Store, every byte of the banks and of the flash; of what waits for a command of the old epoch only that command's
ring is marked, for its completion is discarded. After PERST_N and a hot reset the configuration space reports the subsystem IDs of the
bound copy; an FLR leaves them as they were, and ends an INTA that is asserted with its message (R467). The mark of an old epoch's
command, and the bits of the configuration space, are the model's (assumptions 20 and 22). -/
def Obligations.EndpointResetRows : Prop :=
  ∀ (s : State) (c : Instr), s.powered = true →
    (c = .perstN ∧ s.pins.perstN = true ∨ (c = .hotReset ∨ c = .functionLevelReset) ∧ s.pcie.linkUp = true) →
    ∃ t, exec c s = .next t ∧ t.rings.done = [] ∧ t.jobs.jobs = [] ∧ t.jobs.expMax = 0x400 ∧ t.pcie.wins = [] ∧ t.pcie.msix = [] ∧
      t.pcie.pba = [] ∧ t.pcie.intx = [] ∧ t.pcie.ats = [] ∧ t.pcie.bme = false ∧ t.pcie.linkUp = !decide (c = .perstN) ∧
      t.pcie.aerUnc = (if c = .perstN then 0 else s.pcie.aerUnc) ∧
      (∀ r g u, tget? s.rings.rings r = some g → u = t.ring r →
        u.enable = false ∧ u.error = false ∧ u.dbBad = false ∧ u.vector = 0 ∧ u.mask = false ∧ u.base = 0 ∧ u.wb = 0 ∧ u.prod = 0 ∧ u.cons = 0 ∧
        u.waiting = 0 ∧ u.due = false ∧ u.doorbell = 0 ∧
        (∀ q, rkind r = 3 → s.cfg.ring? (r - 7680) = some q → u.k = q.notifyK ∧ u.tick = q.notifyTick ∧ u.size = q.size / 32) ∧
        ((rkind r = 3 → s.cfg.ring? (r - 7680) = none) → u.k = 1 ∧ u.tick = false ∧ u.size = 0) ∧
        u.seq = g.seq ∧ u.dropEnv = g.dropEnv ∧ u.dropUnits = g.dropUnits ∧ u.parity = g.parity ∧ stagedOf u.ready = stagedOf g.ready) ∧
      tget 0 t.jobs.fails 9 = (if s.jobs.jobs = [] then tget 0 s.jobs.fails 9 else satAdd 32 (tget 0 s.jobs.fails 9) s.jobs.jobs.length) ∧
      (∀ x, x ≠ 9 → tget 0 t.jobs.fails x = tget 0 s.jobs.fails x) ∧
      (∀ b ∈ s.banks.pool, tget 0 t.banks.owner b = 0) ∧ t.banks.mem = s.banks.mem ∧ t.flash = s.flash ∧ t.franking = s.franking ∧
      t.frames = s.frames ∧ t.released = s.released ∧ t.seqs = s.seqs ∧ t.recs = s.recs ∧ t.hist = s.hist ∧ t.proc = s.proc ∧
      t.meter = s.meter ∧ t.faults = s.faults ∧ t.power = s.power ∧ t.now = s.now ∧
      t.out = (if c = .functionLevelReset ∧ s.intaOn = true then s.out ++ [.deassertInta] else s.out) ∧
      (∀ g, { t.group g with powerCmd := none } = { s.group g with powerCmd := none } ∧
        ((t.group g).powerCmd.isSome = (s.group g).powerCmd.isSome)) ∧
      t.clocks.pending.map (fun e => (e.1, e.2.1, e.2.2.2)) = s.clocks.pending.map (fun e => (e.1, e.2.1, e.2.2.2)) ∧
      t.seqCmds.map (fun c => { c with ring := 0 }) = s.seqCmds.map (fun c => { c with ring := 0 }) ∧
      t.time.prefCmds.map (·.2) = s.time.prefCmds.map (·.2) ∧ t.boot.rebindCmd.map (·.2) = s.boot.rebindCmd.map (·.2) ∧
      { t with
        rings := s.rings, jobs := s.jobs, pcie := s.pcie, flashRegs := s.flashRegs, seqCmds := s.seqCmds
        pins := { t.pins with perstN := s.pins.perstN }
        boot := { t.boot with
          subsysVid := s.boot.subsysVid, subsysId := s.boot.subsysId, subsysStale := s.boot.subsysStale, rebindCmd := s.boot.rebindCmd }
        banks := { t.banks with owner := s.banks.owner, zeroing := s.banks.zeroing }
        time := { t.time with prefCmds := s.time.prefCmds }
        clocks := { t.clocks with pending := s.clocks.pending }
        field := { t.field with groups := s.field.groups }
        out := s.out } = s ∧
      (c = .functionLevelReset → t.boot.subsysVid = s.boot.subsysVid ∧ t.boot.subsysId = s.boot.subsysId ∧
        t.boot.subsysStale = s.boot.subsysStale) ∧
      (c ≠ .functionLevelReset → ∀ f, s.boot.folio = some f →
        t.boot.subsysVid = f.subsysVid ∧ t.boot.subsysId = f.subsysId ∧ t.boot.subsysStale = false)

/-- The host domain after the reset: PERST_N_RELEASE trains the link again (R90), and HOST_POOL_ZEROED leaves no byte of the last epoch in a
host-pool bank and gives every bank in service to the host pool (R331). -/
def Obligations.HostEpochRows : Prop :=
  (∀ s : State, s.powered = true → s.pins.perstN = false →
    exec .perstNRelease s = .next { s with pins := { s.pins with perstN := true }, pcie := { s.pcie with linkUp := true } }) ∧
  (∀ s : State, s.memOk = true → s.banks.zeroing = true → s.pcie.linkUp = true →
    ∃ t, exec .hostPoolZeroed s = .next t ∧ t.banks.zeroing = false ∧
      (∀ b ∈ s.banks.pool, (∀ a, b * 2 ^ 20 ≤ a → a < (b + 1) * 2 ^ 20 → mget 0 t.banks.mem a = 0) ∧
        (s.fenced 0x06 b = false → tget 0 t.banks.owner b = 1)) ∧
      (∀ a, a / 2 ^ 20 ∉ s.banks.pool → mget 0 t.banks.mem a = mget 0 s.banks.mem a) ∧
      { t with banks := { t.banks with mem := s.banks.mem, owner := s.banks.owner, zeroing := true } } = s)

/-- Bus Master Enable and the power states (R477, R478, R480): clearing Bus Master Enable and entering D3hot end the work that needs host
memory, and their returns send what waited; each is a configuration write, and one that changes nothing leaves everything as it was. -/
def Obligations.MasterAndPowerStateRows : Prop :=
  ∀ s : State, s.pcie.linkUp = true →
    (s.pcie.bme = true → exec .busMasterEnableClear s = .next (abortHostWork { s with pcie := { s.pcie with bme := false } }) ∧
      (abortHostWork { s with pcie := { s.pcie with bme := false } }).jobs.jobs = [] ∧ exec .busMasterEnableSet s = .next s) ∧
    (s.pcie.bme = false → exec .busMasterEnableClear s = .next s ∧
      exec .busMasterEnableSet s = .next (writeCompletions (flushPba { s with pcie := { s.pcie with bme := true } }))) ∧
    (s.pcie.d3 = false → exec .d3hotEntry s = .next (abortHostWork { s with pcie := { s.pcie with d3 := true } }) ∧
      exec .d0Return s = .next s) ∧
    (s.pcie.d3 = true → exec .d3hotEntry s = .next s ∧
      exec .d0Return s = .next (writeCompletions (flushPba { s with pcie := { s.pcie with d3 := false } })))

/-- Interrupts and messages of the endpoint (R463, R466, R467, R481, R482). Unmasking a vector sends its message where the PBA holds it;
setting Interrupt Disable or MSI-X Enable ends INTA, and MSI-X Enable sends what the PBA holds and nothing masks; enabling LTR reports 10
µs; a request that nothing accepts completes with Unsupported Request and is logged, and a poisoned write to a BAR, or a request whose
ECRC is found wrong, is dropped and logged. The kinds of UNSUPPORTED_REQUEST are the model's choice, and AER bits 12, 19 and 20 and LTR
Mechanism Enable in bit 10 are those of PCI Express (assumption 22). Address translation (R470): an Invalidate Request ends the
translations of its range at once and waits for the reads that used them; its completion goes out once none of them is outstanding. -/
def Obligations.EndpointMessageRows : Prop :=
  (∀ s : State, s.pcie.linkUp = true →
    (∀ v, s.barOpen = true → v < 2048 → exec (.msixUnmask (.vector v)) s =
      .next (flushPba { s with pcie := { s.pcie with msix := tmod {} s.pcie.msix v (fun e => { e with mask := false }) } })) ∧
    (∀ v, s.barOpen = true → v < 2048 → s.pcie.msixEn = true → s.pcie.msixFnMask = false → s.canSignal = true → s.pcie.pba = [v] →
      ∃ t, exec (.msixUnmask (.vector v)) s = .next t ∧ t.pcie.pba = [] ∧ (tget {} t.pcie.msix v).mask = false ∧
        t.out = s.out ++ [.msi v (tget {} s.pcie.msix v).addr (tget {} s.pcie.msix v).data]) ∧
    (exec (.msixUnmask .function) s = .next (flushPba { s with pcie := { s.pcie with msixFnMask := false } })) ∧
    (∃ t, exec (.interruptDisableSet .interruptDisable) s = .next t ∧ t.pcie.intxDisable = true ∧
      t.out = (if s.intaOn = true then s.out ++ [.deassertInta] else s.out) ∧
      { t with pcie := { t.pcie with intxDisable := s.pcie.intxDisable }, out := s.out } = s) ∧
    (∀ u, u = { s with pcie := { s.pcie with msixEn := true }, out := if s.intaOn = true then s.out ++ [.deassertInta] else s.out } →
      exec (.interruptDisableSet .msixEnable) s = .next (flushPba u) ∧
      (flushPba u).intaOn = false ∧ ((s.pcie.pba = [] ∨ s.pcie.msixFnMask = true ∨ s.canSignal = false) → flushPba u = u)) ∧
    (s.ltrOn = false → exec .ltrMechanismEnable s =
      .next (sendLtr { s with pcie := { s.pcie with devCtl2 := setBit s.pcie.devCtl2 10 true } } 10)) ∧
    (∀ k, (k = .poisonedWrite → s.barOpen = false) → k ≠ .ecrcMismatch →
      exec (.unsupportedRequest k) s = .next { s with pcie := aerLatch s.pcie 20, out := s.out ++ [.unsupported] }) ∧
    (s.barOpen = true → exec (.unsupportedRequest .poisonedWrite) s = .next { s with pcie := aerLatch s.pcie 12 }) ∧
    (bit s.pcie.aerCtl 8 = true → exec (.unsupportedRequest .ecrcMismatch) s = .next { s with pcie := aerLatch s.pcie 19 }) ∧
    (∀ p : Pcie, ∀ b, (aerLatch p b).aerUnc = setBit p.aerUnc b true ∧ (aerLatch p b).bme = p.bme ∧ (aerLatch p b).linkUp = p.linkUp)) ∧
  ((∀ (s : State) (itag addr size : Nat), s.pcie.linkUp = true → s.pcie.atsEn = true → s.pcie.invals.length < 32 →
    ∃ t v, exec (.atsInvalidateRequest itag addr size) s = .next t ∧ t.pcie.invals = s.pcie.invals ++ [v] ∧ v.itag = itag ∧
      (∀ p, p ∈ t.pcie.ats ↔ p ∈ s.pcie.ats ∧ ¬(addr < 4096 * p + 4096 ∧ 4096 * p < addr + size)) ∧
      (∀ tag, tag ∈ v.waits ↔ ∃ r, (tag, r) ∈ s.pcie.reads ∧ addr < r.addr + r.len ∧ r.addr < addr + size) ∧
      { t with pcie := { t.pcie with ats := s.pcie.ats, invals := s.pcie.invals } } = s) ∧
  (∀ (s : State) (v : Inval) (l : List Inval), s.pcie.invals = v :: l → v.waits = [] →
    exec .atsInvalidateCompletion s = .next { s with pcie := { s.pcie with invals := l }, out := s.out ++ [.invalDone v.itag] }))

/-! ## The barrier -/

/-- The forward messages that the core takes (R134, R136): SAMPLES, EDGES and STAMPS land (what they carry is the frame that the model's tile
has closed, assumption 17), STATUS is taken up, ECHO with result 0 acknowledges, CAL takes the calibration that a CAL_START has begun
through its phases (R168 to R173): the correction, the trims, and their judgement, but not while the group is RUNNING (R167); IDENT is
matched with the factory page, and with a self-test that is under way judged with it (R86); IDLE fills. Each counts one SEQ. A forward
message that arrives damaged (R136), of any of the eight rows: a CRC mismatch, and a LEN above 4,096, an unknown TYPE or a break in SEQ,
is counted, has no effect of its own, and is a barrier fault of the group with its cause. That only a result code of 0 acknowledges, and
that LEN is judged before the CRC, are the model's readings (assumption 37). -/
def Obligations.BarrierMessageRows : Prop :=
  (∀ (s : State) (g : Nat) (m : Msg),
    (takenForward s g 0x01 m → exec (.samples g m) s = .next (landKind (afterForward s g) g 0)) ∧
    (takenForward s g 0x02 m → exec (.edges g m) s = .next (landKind (afterForward s g) g 1)) ∧
    (takenForward s g 0x03 m → exec (.stamps g m) s = .next (landKind (afterForward s g) g 2)) ∧
    (∀ d, takenForward s g 0x04 m → exec (.status g m d) s = .next (statusTaken (afterForward s g) g d)) ∧
    (∀ q x, takenForward s g 0x05 m → exec (.echo g m q x 0) s =
      .next (modGroup s g (fun e => { e with fwdSeq := e.fwdSeq + 1, unechoed := dropEcho e.unechoed q x }))) ∧
    (∀ q x n, takenForward s g 0x05 m → n ≠ 0 → exec (.echo g m q x n) s = .next (afterForward s g)) ∧
    (∀ d u, takenForward s g 0x06 m → u = afterForward s g → calAllowed u g = false → exec (.cal g m d) s = .next u) ∧
    (∀ d u, takenForward s g 0x06 m → u = afterForward s g → calAllowed u g = true →
      ((s.group g).calPhase = 1 → exec (.cal g m d) s = .next (alignByMessages u g d)) ∧
      ((s.group g).calPhase = 3 → exec (.cal g m d) s = .next (trimByMessages u g d)) ∧
      ((s.group g).calPhase = 5 → exec (.cal g m d) s =
        .next (if calOk u g d = true then recordCal u g (s.group g).calTrim d else calFails u g)) ∧
      ((s.group g).calPhase ∉ [1, 3, 5] → exec (.cal g m d) s = .next u)) ∧
    (∀ d u, takenForward s g 0x07 m → d.group = g →
      u = (if (s.group g).testBusy = true then noteFuse (modGroup (afterForward s g) g (fun e => { e with testBusy := false })) d
        else modGroup (afterForward s g) g (fun e => { e with testBusy := false })) →
      (identOk u d = false → exec (.ident g m d) s = .next (tileFailure u g 0x502)) ∧
      (identOk u d = true → (s.group g).testBusy = true → selfTestOk u d = false → exec (.ident g m d) s = .next (tileFailure u g 0x503)) ∧
      (identOk u d = true → ((s.group g).testBusy = true → selfTestOk u d = true) → exec (.ident g m d) s = .next u)) ∧
    (takenForward s g 0x08 m → exec (.idle g m) s = .next (afterForward s g))) ∧
  (∀ (s : State) (g : Nat) (m : Msg), s.laneUp g = true →
    (∀ (d : StatusData) (q : Byte) (x : BitVec 32) (n : Nat) (c : CalData) (b : GroupBoot) (i : Instr) (typ : Nat),
      (i, typ) ∈ [(Instr.samples g m, 1), (.edges g m, 2), (.stamps g m, 3), (.status g m d, 4), (.echo g m q x n, 5), (.cal g m c, 6),
        (.ident g m b, 7), (.idle g m, 8)] →
      (judgeMsg forwardType typ (s.group g).fwdSeq m = .crc →
        exec i s = .next (detect (modGroup s g (fun e => { e with fwdSeq := e.fwdSeq + 1, crcErr := satAdd 16 e.crcErr 1 })) ⟨0x01, g⟩ 0x03
          (m.typ.toNat + 256 * m.seq.toNat) (faultFrameNow s 1))) ∧
      (judgeMsg forwardType typ (s.group g).fwdSeq m = .framing →
        exec i s = .next (detect (modGroup s g (fun e => { e with fwdSeq := m.seq + 1, framingErr := satAdd 16 e.framingErr 1 })) ⟨0x01, g⟩
          0x04 (m.typ.toNat + 256 * m.seq.toNat) (faultFrameNow s 1)))) ∧
    (∀ typ seq, judgeMsg forwardType typ seq m = .good →
      m.len ≤ 4096 ∧ m.len = m.payload.length ∧ m.crc = msgCrc m.typ m.seq m.payload ∧ m.seq = seq ∧ m.typ.toNat = typ))

/-- The reverse messages that a tile takes (R137): TICK applies what has been received since the last, the SET_ messages are kept until it,
and PHASE_STEP, CAL_START, SELF_TEST, ISLAND_OFF and IDENT_REQ act on receipt. Each is echoed. While a group is RUNNING its trims and its
phase do not change and no calibration begins (R167). That what these messages carry is the row's operand where the spec gives no layout
is the model's choice (assumption 17). -/
def Obligations.ReverseMessageRows : Prop :=
  ∀ (s : State) (g : Nat) (m : Msg), ∀ u, u = afterReverse s g m →
    (takenReverse s g 0x81 m → ∃ t, exec (.tick g m) s = .next t ∧
      t = applySettings (modGroup u g (fun e => { e with tickLow := fld m.payload 0 2 })) g ∧
      (t.group g).applied = (s.group g).applied.merge (s.group g).received ∧ (t.group g).received = {} ∧
      (t.group g).tickLow = fld m.payload 0 2 ∧ (t.group g).railsOn = ((s.group g).applied.merge (s.group g).received).rails.any (·.2)) ∧
    (∀ c, takenReverse s g 0x82 m → c.chan < 64 → exec (.setChannel g m c) s = .next (modGroup u g (fun e => { e with
      received := { e.received with chans := tput e.received.chans c.chan c } }))) ∧
    (∀ k on, takenReverse s g 0x83 m → k < 4 → exec (.setRail g m k on) s = .next (modGroup u g (fun e => { e with
      received := { e.received with rails := tput e.received.rails k on } }))) ∧
    (∀ k d f, takenReverse s g 0x84 m → k < 4 → exec (.setMclk g m k d f) s = .next (modGroup u g (fun e => { e with
      received := { e.received with mclk := tput e.received.mclk k (d, f) } }))) ∧
    ((s.group g).state ≠ .running →
      (takenReverse s g 0x85 m → exec (.phaseStep g m) s = .next (modGroup u g (fun e => { e with steps := min 2047 (e.steps + 1) }))) ∧
      (∀ c t, takenReverse s g 0x86 m → c < 64 → exec (.setTrim g m c t) s = .next (modGroup u g (fun e => { e with
        received := { e.received with trims := tput e.received.trims c t } }))) ∧
      (takenReverse s g 0x87 m →
        exec (.calStart g m false) s = .next (modGroup u g (fun e => { e with calPhase := 1 })) ∧
        exec (.calStart g m true) s = .next (modGroup u g (fun e => { e with
          calPhase := if e.calPhase = 2 then 3 else if e.calPhase = 4 then 5 else e.calPhase })))) ∧
    ((s.group g).state = .running →
      (takenReverse s g 0x85 m → exec (.phaseStep g m) s = .next u) ∧
      (∀ c t, takenReverse s g 0x86 m → exec (.setTrim g m c t) s = .next u) ∧
      (∀ b, takenReverse s g 0x87 m → exec (.calStart g m b) s = .next u)) ∧
    (takenReverse s g 0x88 m → exec (.selfTest g m) s = .next (modGroup u g (fun e => { e with testBusy := true }))) ∧
    (takenReverse s g 0x89 m → exec (.islandOff g m) s = .next (islandOff u g .down)) ∧
    (takenReverse s g 0x8A m → exec (.identReq g m) s = .next (emit u (.fromTile g 0x07
      (tileIdentity s.franking.mem g ++ leInt 4 (tileAsymmetry s.franking.mem g) ++ leInt 4 (tileDelay s.franking.mem g)))))

/-- Faults and limits of a group (R122, R136, R146): an ECHO that does not come, a lane that loses lock, and an island whose supply falls are
counted and are faults with causes 0x04, 0x05 and 0x05. A rail enters current limit at an instant; where it stays in it for 100 µs that is
an overcurrent, a fault with cause 0x0B in the frame of the onset, once; where it leaves it before, the event is only counted. The frame
of an overcurrent is the model's reading (assumption 30). -/
def Obligations.GroupFaultRows : Prop :=
  ∀ (s : State) (g : Nat),
    (∀ typ q x l, s.laneUp g = true → (s.group g).unechoed = (typ, q, x) :: l →
      exec (.echoTimeout g) s = .next (detect (modGroup (modGroup s g (fun e => { e with unechoed := l })) g (fun e => { e with
        framingErr := satAdd 16 e.framingErr 1 })) ⟨0x01, g⟩ 0x04 (typ.toNat + 256 * q.toNat)
        (faultFrameNow (modGroup s g (fun e => { e with unechoed := l })) 1))) ∧
    (∀ lane, s.laneUp g = true → lane < 6 →
      exec (.laneLockLoss g lane) s = .next (detect (modGroup s g (fun e => { e with framingErr := satAdd 16 e.framingErr 1 })) ⟨0x01, g⟩ 0x05 0
        (faultFrameNow s 1))) ∧
    ((s.group g).powered = true →
      exec (.islandBrownout g) s = .next (detect (modGroup s g (fun e => { e with brownout := true, framingErr := satAdd 16 e.framingErr 1 }))
        ⟨0x01, g⟩ 0x05 0 (faultFrameNow s 1))) ∧
    (∀ rail, (s.group g).railsOn = true → rail < 5 → (s.group g).railLimit.getD rail none = none →
      exec (.railCurrentLimit g rail true) s = .next (modGroup s g (fun e => { e with railLimit := e.railLimit.set rail (some (s.now, false)) }))) ∧
    (∀ rail a f, (s.group g).railLimit.getD rail none = some (a, f) →
      (s.now - a < 1600000 → exec (.railCurrentLimit g rail false) s =
        .next (modGroup (modGroup s g (fun e => { e with limitEvents := satAdd 16 e.limitEvents 1 })) g (fun e => { e with
          railLimit := e.railLimit.set rail none }))) ∧
      (1600000 ≤ s.now - a → f = true →
        exec (.railCurrentLimit g rail false) s = .next (modGroup s g (fun e => { e with railLimit := e.railLimit.set rail none }))) ∧
      (∀ frame, frame = max s.released (min (if s.ticking then (a - s.time.tick0.getD 0) / max 1 s.spacing else 0) s.curFrame) → f = false →
        (1600000 ≤ s.now - a → exec (.railCurrentLimit g rail false) s =
          .next (modGroup (detect (modGroup s g (fun e => { e with railLimit := e.railLimit.set rail (some (a, true)) })) ⟨0x01, g⟩ 0x0B 0 frame) g
            (fun e => { e with railLimit := e.railLimit.set rail none }))) ∧
        ((s.group g).railsOn = true → (s.ticking = true → a + 1600000 ≤ s.tickOf s.time.ticks) →
          exec (.overcurrent g rail) s = .next (detect (modGroup (advanceTo s (a + 1600000)) g (fun e => { e with
            railLimit := e.railLimit.set rail (some (a, true)) })) ⟨0x01, g⟩ 0x0B 0 frame))))

/-! ## Clocks -/

/-- Losses of lock (R76, R322, R439, R451, R453, R454). The synthesiser shows the loss and counts it. In ARMING and RUNNING a loss of PLL-S or
PLL-C, and the failure of the oscillator that PLL-C runs on, takes the module to FAULT_HOLD; a loss of PLL-M stops history; a field PLL
that loses lock on its own gates its MCLK outputs and is a fault of its group. A failed oscillator takes PLL-C and PLL-M, and a PLL-S that
runs on it, out of lock. -/
def Obligations.LockLossRows : Prop :=
  (∀ s : State, s.powered = true → s.clocks.pllS.lock = true →
    exec .pllSLossOfLock s = .next (loseS s 0 true) ∧ (loseS s 0 true).clocks.pllS = s.clocks.pllS.lose ∧
      ((s.boot.state = .running ∨ s.boot.state = .arming) →
        (loseS s 0 true).boot.state = .faultHold ∧ (loseS s 0 true).boot.resume = some s.boot.state)) ∧
  (∀ s : State, s.powered = true → s.clocks.pllC.lock = true →
    exec .pllCLossOfLock s = .next (loseC s true) ∧ (loseC s true).clocks.pllC = s.clocks.pllC.lose ∧ (loseC s true).clocks.safeClock = true ∧
      ((s.boot.state = .running ∨ s.boot.state = .arming) →
        (loseC s true).boot.state = .faultHold ∧ (loseC s true).boot.resume = some s.boot.state)) ∧
  (∀ s : State, s.powered = true → s.clocks.pllM.lock = true →
    exec .pllMLossOfLock s = .next (loseM s true) ∧ (loseM s true).clocks.pllM = s.clocks.pllM.lose ∧ (loseM s true).canReadHistory = false) ∧
  (∀ (s : State) (g : Nat), (s.group g).powered = true → (s.group g).pllLock = true → s.clocks.pllS.lock = true →
    exec (.pllFLossOfLock g) s =
      .next (detect (modGroup s g (fun e => { e with
        pllLock := false, mclkFrom := none, mclkTail := (e.mclkFrom.map (fun a => (a, s.now))).orElse (fun _ => e.mclkTail) })) ⟨0x01, g⟩ 0x07 0 (faultFrameNow s 1))) ∧
  (∀ s : State, s.powered = true → s.clocks.oscFail = false →
    ∃ t, exec .oscillatorFailure s = .next t ∧ t.clocks.oscFail = true ∧ t.clocks.pllC.lock = false ∧ t.clocks.pllM.lock = false ∧
      (s.clocks.refSel = false → t.clocks.pllS.lock = false) ∧
      ((s.boot.state = .running ∨ s.boot.state = .arming) → s.clocks.pllC.lock = true →
        t.boot.state = .faultHold ∧ t.boot.resume = some s.boot.state))

/-- Relocks (R77, R78, R322, R438, R451, R454): the synthesiser shows its lock and its new band. PLL-S relocks in FAULT_HOLD and, with the
settings of an earlier lock, in UNBOUND, where CLK_OUT stays gated; a bind, also one that waits for the lock, takes it in step 8 and not
from this row, and without its reference there is no lock. PLL-M gives history back at once while no frames are worked, and otherwise not
before the frame boundary; PLL-C, outside FAULT_HOLD, takes the core off the safe clock, and what the endpoint held back goes on, or,
where the boot had halted in step 5, that step is made again. That the core leaves its safe clock at the relock itself outside FAULT_HOLD,
and that PLL-S relocks in UNBOUND but not in a bind, are the model's readings (assumption 36). -/
def Obligations.RelockRows : Prop :=
  (∀ (s : State) (b : Nat), s.boot.state = .faultHold ∨ s.boot.state = .unbound ∧ s.clocks.sConf ≠ [] → s.clocks.pllS.lock = false →
    (if s.clocks.refSel then s.clocks.refPresent = true else s.clocks.oscFail = false) →
    ∃ t, exec (.pllSRelock b) s = .next t ∧ t.clocks.pllS = { s.clocks.pllS with lock := true, band := b % 64 } ∧
      t.clocks.clkDiv = s.clocks.clkDiv ∧ { t with clocks := s.clocks } = s) ∧
  (∀ (s : State) (b : Nat), s.boot.state ∉ [ModState.faultHold, .unbound] ∨ s.boot.state = .unbound ∧ s.clocks.sConf = [] ∨
      s.clocks.pllS.lock = true ∨ (if s.clocks.refSel then s.clocks.refPresent = false else s.clocks.oscFail = true) →
    exec (.pllSRelock b) s = .next s) ∧
  (∀ (s : State) (b : Nat) (env : BootEnv), s.powered = true → s.clocks.pllC.lock = false → s.clocks.oscFail = false →
    (s.boot.state = .faultHold → exec (.pllCRelock b env) s = .next { s with clocks := { s.clocks with pllC := s.clocks.pllC.relock b } }) ∧
    (s.boot.state ≠ .faultHold → ¬(s.boot.state = .boot ∧ s.boot.step = 5 ∧ s.boot.phase = .none) → exec (.pllCRelock b env) s =
      .next (resumeIssue { s with clocks := { s.clocks with pllC := s.clocks.pllC.relock b, safeClock := false } })) ∧
    (s.boot.state = .boot → s.boot.step = 5 → s.boot.phase = .none → exec (.pllCRelock b env) s =
      .next (step5 { s with clocks := { s.clocks with pllC := s.clocks.pllC.relock b, safeClock := false } } env))) ∧
  (∀ (s : State) (b : Nat), s.powered = true → s.clocks.pllM.lock = false → s.clocks.oscFail = false →
    ∃ t, exec (.pllMRelock b) s = .next t ∧ t.clocks.pllM = { s.clocks.pllM with lock := true, band := b % 64 } ∧
      (s.past = false → t.banks.dramOff = false) ∧ (s.past = true → t.banks = s.banks))

/-- The way back (R77, R101, R144, R452). A group that has retrained, locked and realigned settles, and its data counts from the first tick on
that is at or after the end of its SETTLE_MS. FAULT_HOLD ends at the first tick after the lost clocks have come back, the next one where
none is at this instant, and the module is RUNNING again, or in ARMING for its full length from that tick on. SYNC_IN_EDGE in pulse mode,
with PLL-S locked in this bind (R443): the first edge that finds the SYNC_EN outputs low starts them with a rising edge at the contact
24.00 ns later, to within 0.25 ns, on the VCO grid of 4 pu, and moves no other output; while one of them still runs on the divider of the
bind before, which it keeps up to frame 0 (R442), an edge does nothing; a later one is counted with `syncOffset`, its distance from a
rising edge of a SYNC_EN output, at most half a period. The tick from which a group counts again, and the 19 pu from an edge to its
contact, are the model's (assumption 36). -/
def Obligations.RejoinAndSyncInRows : Prop :=
  ((∀ (s : State) (g : Nat) (r : GroupBoot), (s.group g).powered = true → (s.group g).pllLock = false → (s.group g).state = .powering →
    s.clocks.pllS.lock = true → s.past = true → s.fenced 0x01 g = false → 0 < s.spacing → (r.firstTrain = true ∨ r.againTrain = true) → r.pllLocks = true →
    ∃ t, exec (.groupRejoin g r) s = .next t ∧ (t.group g).state = .settling ∧ (t.group g).pllLock = true ∧ (t.group g).railsOn = true ∧
      (t.group g).mclkFrom = some s.now ∧ t.now = s.now ∧ t.time = s.time ∧
      ∃ j e, (t.group g).dataFrom = some j ∧ e = s.now + ((s.cfg.group? g).map (·.settleMs)).getD 0 * 16000000 ∧
        s.time.ticks ≤ j ∧ e ≤ s.tickOf j ∧ ∀ i, s.time.ticks ≤ i → e ≤ s.tickOf i → j ≤ i) ∧
  (∀ s : State, holdOver s = true → s.boot.resume = some .running ∨ s.boot.resume = some .arming →
    ∃ t, exec .faultHoldResume s = .next t ∧ t.boot.resume = none ∧ t.clocks.holds = [] ∧ t.clocks.safeClock = false ∧
      t.now = (if s.time.ticks ≠ 0 ∧ s.now = s.time.tickAt then s.now else max s.now (s.tickOf s.time.ticks)) ∧
      (s.boot.resume = some .running → t.boot.state = .running) ∧
      (s.boot.resume = some .arming → t.boot.state = .arming ∧ t.settleEnd = some (s.tickOf (entryTick s + settleFrames t)))) ∧
  (∀ s : State, 0 < s.spacing → 1 ≤ settleFrames s ∧
    (∀ q ∈ s.cfg.field, (s.group q.group).powered = true → q.settleMs * 16000000 ≤ settleFrames s * s.spacing) ∧
    (settleFrames s = 1 ∨ ∃ q ∈ s.cfg.field, (s.group q.group).powered = true ∧ (settleFrames s - 1) * s.spacing < q.settleMs * 16000000))) ∧
  (∀ (s : State) (d : Nat), s.isBound = true → s.cfg.pulseMode = true → s.lockedInBind = true →
    (s.clocks.syncStart = none → (∃ k < 4, (s.cfg.clkOut s.clocks.plan k).syncEn = true ∧ nth s.clocks.clkDiv k ≠ 0) →
      exec (.syncInEdge d) s = .next s) ∧
    (s.clocks.syncStart = none → (∀ k < 4, (s.cfg.clkOut s.clocks.plan k).syncEn = true → nth s.clocks.clkDiv k = 0) →
      ∃ t, exec (.syncInEdge d) s = .next t ∧ t.clocks.syncStart = some (s.now + d) ∧ t.clocks.syncWait = false ∧
        (∀ k < 4, (s.cfg.clkOut s.clocks.plan k).syncEn = true →
          nth t.clocks.clkDiv k = (s.cfg.clkOut s.clocks.plan k).div ∧ nth t.clocks.clkFrom k % 4 = 0 ∧
          s.now + d + 384 ≤ nth t.clocks.clkFrom k + 19 + 4 ∧ nth t.clocks.clkFrom k + 19 ≤ s.now + d + 384 + 4) ∧
        (∀ k < 4, (s.cfg.clkOut s.clocks.plan k).syncEn = false →
          nth t.clocks.clkDiv k = nth s.clocks.clkDiv k ∧ nth t.clocks.clkFrom k = nth s.clocks.clkFrom k ∧
          nth t.clocks.clkFormat k = nth s.clocks.clkFormat k) ∧
        t.clocks.clkOld = s.clocks.clkOld ∧ { t with clocks := s.clocks } = s) ∧
    (s.clocks.syncStart ≠ none →
      exec (.syncInEdge d) s = .next { s with clocks := { s.clocks with
        syncEdges := satAdd 16 s.clocks.syncEdges 1
        markErr := ((syncOffset s (s.now + d)).map (satInt 16)).getD s.clocks.markErr } } ∧
      (∀ r, syncOffset s (s.now + d) = some r → ∃ (k : Nat) (i : Int), k < 4 ∧ (s.cfg.clkOut s.clocks.plan k).syncEn = true ∧
        nth s.clocks.clkDiv k ≠ 0 ∧ 2 * r.natAbs ≤ 4 * nth s.clocks.clkDiv k ∧
        ((s.now + d : Nat) : Int) = (nth s.clocks.clkFrom k + 19 : Nat) + 4 * nth s.clocks.clkDiv k * i + r)))

/-! ## Time domains and the network ports -/

/-- PTP messages on a port that is up (R410, R411), after a domain that has heard nothing for too long has been lost (R408). ANNOUNCE of
version 2.0 or 2.1 enters the selection of masters; SYNC and FOLLOW_UP of the selected master give the pair of receive stamp and origin;
DELAY_RESP of the request under way gives one measurement; any of these three that is of another sender, and a DELAY_RESP of no request
under way, is ignored. Each frame received is counted; a message of any of the four types that is for no domain, by its transport, port
and number, is counted as dropped, and one of another version is counted malformed and as dropped. DELAY_REQ of a domain with a selected
master, with no frame tick before it (R411): at its interval, the request is numbered, stamped as it leaves and counted. DOMAIN_LOST, with
no frame tick before it, loses a domain once its source has been silent for the time of Table 13-2 (R408). The mean delay and its use are
those of IEEE 1588 (assumption 23), as is that a message of another version counts in TB_DOMx_ERR and the announce timeout of the
standard. -/
def Obligations.PtpRows : Prop :=
  (∀ (s u : State) (p x : Nat), p < 2 → x < 2 → (s.time.eth p).link = true →
    u = modDom (modEth s p (fun e => { e with rx := satAdd 32 e.rx 1 })) x (fun d => d.heardUntil s.now) →
    (∀ a : AnnounceData, domainFor s.cfg p a.head = some x →
      (a.head.version = 2 → a.head.minor ≤ 1 → exec (.announce p a) s = .next (modDom u x (fun d => selectMaster s.now { domainHeard (countRx d) with
        masters := a :: d.masters.filter (fun m => m.head.sender ≠ a.head.sender)
        annAt := if d.master = some a.head.sender then some s.now else d.annAt })))) ∧
    (∀ (i : Instr) (h : PtpHead), ((∃ a : AnnounceData, i = .announce p a ∧ h = a.head) ∨
        (∃ m : SyncData, (i = .sync p m ∨ i = .followUp p m) ∧ h = m.head) ∨ ∃ m : DelayData, i = .delayResp p m ∧ h = m.head) →
      (domainFor s.cfg p h = none →
        exec i s = .next (modEth s p (fun e => { e with rx := satAdd 32 e.rx 1, rxDrop := satAdd 32 e.rxDrop 1 }))) ∧
      (domainFor s.cfg p h = some x → ¬(h.version = 2 ∧ h.minor ≤ 1) →
        exec i s = .next (modEth (modDom u x (fun d => { d with err := satAdd 32 d.err 1 })) p
          (fun e => { e with rxDrop := satAdd 32 e.rxDrop 1 })))) ∧
    (∀ m : SyncData, domainFor s.cfg p m.head = some x → m.head.version = 2 → m.head.minor ≤ 1 →
      (u.time.dom x).master ≠ some m.head.sender → exec (.sync p m) s = .next u ∧ exec (.followUp p m) s = .next u) ∧
    (∀ m : DelayData, domainFor s.cfg p m.head = some x → m.head.version = 2 → m.head.minor ≤ 1 →
      ((u.time.dom x).master ≠ some m.head.sender ∨ (u.time.dom x).reqTx = none ∨ (u.time.dom x).reqSeq ≠ m.seqId) →
      exec (.delayResp p m) s = .next u) ∧
    (∀ m : SyncData, domainFor s.cfg p m.head = some x → m.head.version = 2 → m.head.minor ≤ 1 → (u.time.dom x).master = some m.head.sender →
      (m.twoStep = false → exec (.sync p m) s = .next (modDom u x (fun d => { countRx d with
        syncSeq := m.seqId, syncAt := some s.now, syncRx := none, syncOrigin := none, lastSync := some (s.firmMark, m.origin + m.correction) }))) ∧
      (m.twoStep = true → exec (.sync p m) s = .next (modDom u x (fun d => { countRx d with
        syncSeq := m.seqId, syncAt := some s.now, syncRx := some s.firmMark, syncOrigin := some m.correction }))) ∧
      (∀ rx c, (u.time.dom x).syncRx = some rx → (u.time.dom x).syncOrigin = some c → (u.time.dom x).syncSeq = m.seqId →
        exec (.followUp p m) s = .next (modDom u x (fun d => { countRx d with
          syncRx := none, syncOrigin := none, lastSync := some (rx, m.origin + m.correction + c) })))) ∧
    (∀ (m : DelayData) (t2 t3 : Postmark) (t1 : Int), domainFor s.cfg p m.head = some x → m.head.version = 2 → m.head.minor ≤ 1 →
      (u.time.dom x).master = some m.head.sender → (u.time.dom x).reqTx = some t3 → (u.time.dom x).reqSeq = m.seqId →
      (u.time.dom x).lastSync = some (t2, t1) →
      exec (.delayResp p m) s = .next (takeMeasurement (modDom u x (fun d => { countRx d with
          reqTx := none, reqLog := satInt 8 m.logInterval, delayNs := fdiv (meanDelay t2 t3 t1 (m.received - m.correction)) qNs })) x t2
        (t1 + meanDelay t2 t3 t1 (m.received - m.correction) + (s.cfg.dom x).asymNs * qNs)))) ∧
  ((∀ (s : State) (x : Nat), x < 2 → ((s.cfg.dom x).source = 1 ∨ (s.cfg.dom x).source = 2) → (s.time.eth (s.cfg.dom x).port).link = true →
    (s.time.dom x).master.isSome = true → (∀ n ∈ s.nextTick, reqFrom s x ≤ n) →
    ∃ t, exec (.delayReq x) s = .next t ∧ t.now = max s.now (reqFrom s x) ∧ (t.time.dom x).reqSeq = ((s.time.dom x).reqSeq + 1) % 65536 ∧
      (t.time.dom x).reqTx = some t.firmMark ∧ (t.time.dom x).reqAt = some t.now ∧
      (t.time.eth (s.cfg.dom x).port).tx = satAdd 32 (s.time.eth (s.cfg.dom x).port).tx 1 ∧
      t.out = s.out ++ [.frame (s.cfg.dom x).port (ethHead s (s.cfg.dom x).port)
        (.delayReq (ptpTo (s.cfg.dom x).source) (s.cfg.dom x).ptpDomain (((s.time.dom x).reqSeq + 1) % 65536))] ∧
      { t with time := s.time, out := s.out } = s) ∧
  (∀ (s : State) (x l : Nat), x < 2 → (s.time.dom x).lostFrom = some l → (∀ n ∈ s.nextTick, l ≤ n) →
    ∃ t, exec (.domainLost x) s = .next t ∧ (t.time.dom x).state = .lost ∧ (t.time.dom x).master = none ∧ t.now = max s.now l ∧
      t.time.dom (1 - x) = s.time.dom (1 - x) ∧ { t with time := s.time } = s))

/-- The pulses, with no frame tick before them. PPS_IN_PULSE is one measurement of each domain on PPS_IN (R407). PPS_OUT rises at the first
whole second of the disciplined timeline, from now on, that is later than the last that had a pulse, at the 62.5 ps bin nearest to the
instant at which the segment in force reaches that second; it stays high for its width, and falls (R419). The instant of PPS_OUT is the
model's (assumption 23). -/
def Obligations.PpsRows : Prop :=
  (∀ (s : State) (p : Postmark), s.powered = true → exec (.ppsInPulse p) s = .next (pulseIn (pulseIn s p 0) p 1)) ∧
  (∀ (s : State) (p : Postmark) (x a : Nat), ((s.cfg.dom x).source ≠ 3 → pulseIn s p x = s) ∧
    (∀ v, (s.cfg.dom x).source = 3 → pulseTime s x p = some v → a = ((s.now : Int) + postmarkDiff p s.postmark).toNat →
      pulseIn s p x = takeMeasurement (modDom s x (fun d => { domainHeard (countRx (d.heardUntil a)) with
        lastSync := some (p, v), pulseAt := some a })) x p v)) ∧
  (∀ (s : State) (g : Seg), ppsRuns s = true → segOf s.time.segs s.postmark = some g →
    ∀ (n k : Int) (a : Nat), n = ppsSecond s (g.timeAt s.postmark) → k = g.reach (n * qSec) →
    a = ((s.now : Int) + (k - postmarkDiff s.postmark g.anchor)).toNat → (∀ c ∈ s.nextTick, a ≤ c) →
    (∃ t, exec .ppsOutPulse s = .next t ∧ t.pins = { s.pins with ppsOut := .high } ∧ t.now = max s.now a ∧
      t.time = { s.time with
        raw := t.time.raw, wraps := t.time.wraps, ppsLast := some n, ppsEnd := some (t.now + s.cfg.time.ppsOutWidth * 16000) } ∧
      { t with pins := s.pins, time := s.time } = s) ∧
    (∀ l, s.time.ppsLast = some l → l < n) ∧ g.timeAt s.postmark ≤ n * qSec ∧
    (∀ m : Int, g.timeAt s.postmark ≤ m * qSec → (∀ l, s.time.ppsLast = some l → l < m) → n ≤ m) ∧
    (0 < 2 ^ 40 + g.rho → (2 * k - 1) * (2 ^ 40 + g.rho) ≤ 2 * ((n * qSec - g.q) * 2 ^ 28) ∧
      2 * ((n * qSec - g.q) * 2 ^ 28) < (2 * k + 1) * (2 ^ 40 + g.rho))) ∧
  (∀ (s : State) (e : Nat), s.time.ppsEnd = some e → (∀ n ∈ s.nextTick, e ≤ n) →
    ∃ t, exec .ppsOutPulseEnd s = .next t ∧ t.pins = { s.pins with ppsOut := .low } ∧ t.now = max s.now e ∧
      t.time = { s.time with raw := t.time.raw, wraps := t.time.wraps, ppsEnd := none } ∧ { t with pins := s.pins, time := s.time } = s)

/-- ARP and ICMP on a port that is up and has an address (R424, R425): a request for the port's address and an echo of up to 1,472 bytes are
answered; a reply that was asked for is entered with its instant; an unanswered request is repeated after 1 s and an entry is asked for
again after 60 s, as any other until the answer comes. Any other frame is counted as dropped. The links (R423, R426): a port that the
Folio uses comes up, and a link that goes down changes only itself. DATAGRAM_SEND (R425, R428, R430): a stream in its turn whose
destination is resolved and whose bucket holds the datagram sends it, and one whose destination is not resolved asks for it. When an
address is asked for or asked for again, and what the token bucket starts with, are the model's readings (assumption 24). -/
def Obligations.NetworkRows : Prop :=
  (∀ (s u : State) (p : Nat), p < 2 → (s.time.eth p).link = true → u = modEth s p (fun e => { e with rx := satAdd 32 e.rx 1 }) →
    ((s.cfg.port p).ipv4 ≠ 0 → exec (.arpRequest p (s.cfg.port p).ipv4) s = .next (sentFrame u p (.arpAnswer (s.cfg.port p).ipv4))) ∧
    (∀ a, a ≠ (s.cfg.port p).ipv4 → exec (.arpRequest p a) s = .next (modEth u p (fun e => { e with rxDrop := satAdd 32 e.rxDrop 1 }))) ∧
    (∀ ip mac, (tget? (s.time.eth p).asked ip).isSome = true → exec (.arpReply p ip mac) s =
      .next (modEth u p (fun e => { e with asked := tdel e.asked ip, arp := tput e.arp ip (mac % 2 ^ 48, s.now) }))) ∧
    (∀ n (d : Bytes), (s.cfg.port p).ipv4 ≠ 0 → n ≤ 1472 → exec (.icmpEchoRequest p n d) s = .next (sentFrame u p (.icmpAnswer (sub d 0 n)))) ∧
    exec (.frameDiscard p) s = .next (modEth u p (fun e => { e with rxDrop := satAdd 32 e.rxDrop 1 })) ∧
    (∀ ip a, tget? (s.time.eth p).asked ip = some a → (∀ n ∈ s.nextTick, a + 16000000000 ≤ n) →
      ∃ t, exec (.arpRetry p ip) s = .next t ∧ t.now = max s.now (a + 16000000000) ∧ t.out = s.out ++ [.frame p (ethHead s p) (.arpAsk ip)] ∧
        tget? (t.time.eth p).asked ip = some t.now ∧ { t with time := s.time, out := s.out } = s) ∧
    (∀ ip mac a, tget? (s.time.eth p).arp ip = some (mac, a) → tget? (s.time.eth p).asked ip = none → (∀ n ∈ s.nextTick, a + 60 * 16000000000 ≤ n) →
      ∃ t, exec (.arpRefresh p ip) s = .next t ∧ t.now = max s.now (a + 60 * 16000000000) ∧ t.out = s.out ++ [.frame p (ethHead s p) (.arpAsk ip)] ∧
        tget? (t.time.eth p).asked ip = some t.now ∧ (t.time.eth p).arp = (s.time.eth p).arp ∧ { t with time := s.time, out := s.out } = s)) ∧
  ((∀ (s : State) (p : Nat), p < 2 →
    ((s.cfg.port p).pmode ≠ 0 → exec (.ethLinkUp p) s = .next (modEth s p (fun e => { e with link := true }))) ∧
    exec (.ethLinkDown p) s = .next (modEth s p (fun e => { e with link := false }))) ∧
  (∀ (s : State) (k : Nat) (q : StreamQ) (d : Datagram), s.cfg.stream? k = some q → (s.time.eth q.port).link = true → s.coreClock = true →
    s.isBound = true → nextDatagram s k (s.cfg.port q.port).area = some d →
    (macFor s q.port q.destIp = none → exec (.datagramSend k) s = .next (resolveStream s q)) ∧
    (∀ mac, macFor s q.port q.destIp = some mac → streamTurn s q.port = some k → (d.payload.length + 66) * 128000 ≤ bucket s q.port →
      exec (.datagramSend k) s = .next (sendDatagram s q mac ((d.payload.length + 66) * 128000) d))))

/-! ## Frame values -/

/-- The arithmetic of frame values. The sinc output is the shifted value rounded to the nearest integer, ties toward +∞, saturated to s32,
with SATURATED exactly where saturation changed it (R263), and a weigh sum is its Q2.22 accumulator narrowed the same way by 22 bits
(R272). The accumulator of a block, fed the results x, then xs, from its start, holds their count, the first as its reference, their least
and greatest, the exact sum of their differences from the first and, while SQ has not saturated, the exact sum of the squares of those
differences; once SQ saturates it stays so in that block, and the block it closes has STD all ones and NO_STD set (R304). -/
def Obligations.FrameValueArithmetic : Prop :=
  (∀ (y e : Int) (k : Nat), 2 ^ k * (2 * e) ≤ 2 * y + 2 ^ k → 2 * y + 2 ^ k < 2 ^ k * (2 * e + 2) →
    (sincScale y k).1 = max (-2 ^ 31) (min (2 ^ 31 - 1) e) ∧ ((sincScale y k).2 = true ↔ e < -2 ^ 31 ∨ 2 ^ 31 - 1 < e)) ∧
  (∀ acc : Int, q22 acc = sincScale acc 22) ∧
  (∀ (m : Meas) (x : Int) (xs : List Int), m.k = 0 →
    let r := (x :: xs).foldl accAdd m
    r.k = xs.length + 1 ∧ r.x0 = x ∧ r.sum = (xs.map (· - x)).sum ∧
    (r.mn ∈ x :: xs ∧ ∀ z ∈ x :: xs, r.mn ≤ z) ∧ (r.mx ∈ x :: xs ∧ ∀ z ∈ x :: xs, z ≤ r.mx) ∧
    (r.sqsat = false → (r.sq : Int) = (xs.map fun z => (z - x) * (z - x)).sum) ∧
    (r.sqsat = false ↔ (xs.map fun z => (z - x) * (z - x)).sum ≤ 2 ^ 80 - 1)) ∧
  (∀ (m : Meas) (n : Nat) (at_ cable : Int), m.sqsat = true →
    ∃ b, (accClose n m at_ cable).blks = m.blks ++ [b] ∧ b.noStd = true ∧ b.std = 2 ^ 64 - 1)

/-! ## Faults -/

/-- The rows of the fault discipline (R487 to R492). FENCE detects the fault; QUARANTINE_END, with no frame tick before it, starts the
self-test; SELF_TEST_COMPLETE passes the unit, a group for re-admission once it has settled, or is a new fault with cause 0x10; The test
of the Franking Store writes its test word and reads it back, and a lane's gives back the spare bank it used. READMIT at a frame boundary
ends the fence of a unit that has passed; capture memory stays fenced while PLL-M is not locked (R322). Which causes FENCE takes for which
units is the model's reading (assumption 30), and the test word of the Franking Store is a free value (assumption 2). -/
def Obligations.FaultDisciplineRows : Prop :=
  (∀ (s : State) (u : FUnit) (cause detail : Nat), s.powered = true → unitExists s u = true → causeOf u cause = true →
    (s.ticking = true ∨ atOnce cause = true) → (s.fenced u.cls u.idx = false ∨ cause = 0x0E) →
    exec (.fence u cause detail) s = .next (raiseFault s u cause detail)) ∧
  (∀ (s : State) (u : FUnit) (f : Fence) (e : Nat), tget? s.faults.fences (unitKey u) = some f → f.quarEnd = some e → f.testing = false →
    f.passed = none → (∀ n ∈ s.nextTick, e ≤ n) →
    ∃ t, exec (.quarantineEnd u) s = .next t ∧ t.now = max s.now e ∧
      tget? t.faults.fences (unitKey u) = some { f with testing := true } ∧
      (u.cls ≠ 0x01 → { t with faults := s.faults, time := s.time, banks := { t.banks with owner := s.banks.owner } } = s) ∧
      (u.cls ≠ 0x04 → t.banks = s.banks)) ∧
  (∀ (s : State) (u : FUnit) (f : Fence) (b : Bool) (r : Option GroupBoot), tget? s.faults.fences (unitKey u) = some f → f.testing = true →
    ∃ v, v = storeTest (patternDone s u) u ∧ (u.cls ≠ 0x04 → u.cls ≠ 0x0E → v = s) ∧
    (u.cls = 0x04 → v = { s with banks := { s.banks with
      owner := tmap s.banks.owner (fun _ o => if o = 0x100 + u.idx then 0 else o) } }) ∧
    (u.cls = 0x0E → s.franking.noCopy = false → s.franking.failing = 0 →
      v = { s with free := s.free + 1, franking := { s.franking with
        mem := mwrite 0 s.franking.mem testWordAddr (le 8 (Config.freeValue s.free).toNat) } }) ∧
    (u.cls = 0x0E → s.franking.noCopy = true → v = s) ∧
    (testPasses v u b r = true →
      exec (.selfTestComplete u b r) s =
        .next (modFence (testedGroup v u r) u (fun f => { f with testing := false, passed := some (readyAt v u) })) ∧
      tget? (modFence (testedGroup v u r) u (fun f => { f with testing := false, passed := some (readyAt v u) })).faults.fences (unitKey u) =
        some { f with testing := false, passed := some (readyAt v u) } ∧
      readyAt v u = s.now + (if u.cls = 0x01 then ((s.cfg.group? u.idx).map (·.settleMs)).getD 0 * 16000000 else 0) ∧
      (u.cls ≠ 0x01 → testedGroup v u r = v)) ∧
    (testPasses v u b r = false →
      exec (.selfTestComplete u b r) s = .next (detect (failedGroup v u r) u 0x10 0 v.released))) ∧
  (∀ (s : State) (u : FUnit) (f : Fence), tget? s.faults.fences (unitKey u) = some f → s.mayReturn f = true →
    atBoundary s = true → exec (.readmit u) s = .next (readmit s u) ∧
      ((u.cls = 0x08 → s.clocks.pllM.lock = true) → tget? (readmit s u).faults.fences (unitKey u) = none))

/-- The faults that fence at once (R487, Table 16-1): the unit is fenced, its earlier detections are answered by that fence, FT_FAULTS counts
one, and the last fault shown is this one. Any other fault waits for the frame boundary, and changes nothing else until then (R489). -/
def Obligations.DetectionFencesOrWaits : Prop :=
  ∀ (s t : State) (u : FUnit) (cause detail n : Nat), s.fenced u.cls u.idx = false → t = detect s u cause detail n →
    (atOnce cause = true → t.fenced u.cls u.idx = true ∧ (∀ d ∈ t.faults.pending, d.unit ≠ u) ∧
      t.faults.count = satAdd 32 s.faults.count 1 ∧ t.faults.lastUnit = u) ∧
    (atOnce cause = false → (∃ d ∈ t.faults.pending, d.unit = u) ∧
      { t with faults := { t.faults with pending := s.faults.pending } } = s)
end

