-- ==== Sys2Proof/Laws/Mem.lean ====
section
/-!
SUPPORT. Byte stores: what each operation of Machine/Tbl.lean does to one byte, and that each keeps the canonical form.
-/
namespace Sys2Proof.Machine

/-- A store whose addresses start at `lo` also starts at anything below. -/
theorem wfFrom_mono {fill : Byte} {lo lo' : Nat} (h : lo' ≤ lo) :
    ∀ {m : Mem}, Memory.wfFrom fill lo m = true → Memory.wfFrom fill lo' m = true
  | [], _ => rfl
  | (a, v) :: m, hm => by
    simp only [Memory.wfFrom, Bool.and_eq_true, decide_eq_true_eq] at hm ⊢
    exact ⟨⟨le_trans h hm.1.1, hm.1.2⟩, hm.2⟩

/-- Writing a byte keeps the form. -/
theorem mput_wfFrom {fill : Byte} (v : Byte) :
    ∀ {m : Mem} {lo a : Nat}, lo ≤ a → Memory.wfFrom fill lo m = true → Memory.wfFrom fill lo (mput fill m a v) = true
  | [], lo, a, h, _ => by
    by_cases hv : v = fill <;> simp [mput, hv, Memory.wfFrom, h]
  | (a', v') :: m, lo, a, h, hm => by
    simp only [Memory.wfFrom, Bool.and_eq_true, decide_eq_true_eq] at hm
    obtain ⟨⟨h1, h2⟩, h3⟩ := hm
    unfold mput
    split
    · rename_i e; subst e
      split
      · exact wfFrom_mono (by omega) h3
      · rename_i hv; simp [Memory.wfFrom, h1, hv, h3]
    · split
      · rename_i e hlt
        split
        · simp [Memory.wfFrom, h1, h2, h3]
        · rename_i hv
          have : a + 1 ≤ a' := hlt
          simp [Memory.wfFrom, h, hv, h2, h3, this]
      · rename_i e hlt
        have : a' + 1 ≤ a := by omega
        simp [Memory.wfFrom, h1, h2, mput_wfFrom v this h3]

theorem mput_wf {fill : Byte} {m : Mem} (a : Nat) (v : Byte) (h : Memory.wf fill m = true) :
    Memory.wf fill (mput fill m a v) = true := mput_wfFrom v (Nat.zero_le a) h

theorem mwrite_wf {fill : Byte} : ∀ (b : Bytes) (m : Mem) (a : Nat), Memory.wf fill m = true → Memory.wf fill (mwrite fill m a b) = true
  | [], _, _, h => h
  | x :: b, m, a, h => mwrite_wf b (mput fill m a x) (a + 1) (mput_wf a x h)

theorem mclear_wfFrom {fill : Byte} (lo hi : Nat) :
    ∀ {m : Mem} {k : Nat}, Memory.wfFrom fill k m = true → Memory.wfFrom fill k (mclear m lo hi) = true
  | [], _, _ => rfl
  | (a, v) :: m, k, h => by
    simp only [Memory.wfFrom, Bool.and_eq_true, decide_eq_true_eq] at h
    obtain ⟨⟨h1, h2⟩, h3⟩ := h
    have ih := mclear_wfFrom lo hi h3
    unfold mclear at ih ⊢
    rw [List.filter_cons]
    split
    · simp [Memory.wfFrom, h1, h2, ih]
    · exact wfFrom_mono (by omega) ih

theorem mclear_wf {fill : Byte} {m : Mem} (lo hi : Nat) (h : Memory.wf fill m = true) : Memory.wf fill (mclear m lo hi) = true :=
  mclear_wfFrom lo hi h

/-- Below its first address a store reads as its fill byte. -/
theorem mget_below {fill : Byte} : ∀ {m : Mem} {lo x : Nat}, Memory.wfFrom fill lo m = true → x < lo → mget fill m x = fill
  | [], _, _, _, _ => rfl
  | (a, v) :: m, lo, x, h, hx => by
    simp only [Memory.wfFrom, Bool.and_eq_true, decide_eq_true_eq] at h
    have : ¬ a = x := by omega
    simp [mget, this, mget_below h.2 (by omega : x < a + 1)]

/-- A byte after one byte has been written. -/
theorem mget_mput {fill : Byte} (v : Byte) :
    ∀ {m : Mem} {lo a : Nat} (b : Nat), Memory.wfFrom fill lo m = true →
      mget fill (mput fill m a v) b = if b = a then v else mget fill m b
  | [], lo, a, b, _ => by
    by_cases hv : v = fill
    · simp [mput, hv, mget]
    · by_cases e : b = a
      · simp [mput, hv, mget, e]
      · have : ¬ a = b := fun h => e h.symm
        simp [mput, hv, mget, e, this]
  | (a', v') :: m, lo, a, b, hm => by
    simp only [Memory.wfFrom, Bool.and_eq_true, decide_eq_true_eq] at hm
    obtain ⟨⟨h1, h2⟩, h3⟩ := hm
    have low : ∀ (x : Nat), x < a' + 1 → mget fill m x = fill := fun x hx => mget_below h3 hx
    unfold mput
    split
    · rename_i e; subst e
      split
      · rename_i hv; subst hv
        by_cases e : b = a'
        · simp [e, low a' (by omega)]
        · have : ¬ a' = b := fun h => e h.symm
          simp [e, mget, this]
      · by_cases e : b = a'
        · simp [mget, e]
        · have : ¬ a' = b := fun h => e h.symm
          simp [mget, e, this]
    · rename_i hne
      split
      · rename_i hlt
        split
        · rename_i hv; subst hv
          by_cases e : b = a
          · subst e
            have h1 : ¬ a' = b := hne
            simp [mget, h1, low b (by omega)]
          · simp [e]
        · by_cases e : b = a
          · simp [mget, e]
          · have : ¬ a = b := fun h => e h.symm
            simp [mget, e, this]
      · by_cases e' : a' = b
        · have : ¬ b = a := fun h => hne (e'.trans h)
          simp [mget, e', this]
        · simp [mget, e', mget_mput v b h3]

/-- A byte outside the bytes written reads as before; inside, it reads the byte written. -/
theorem mget_mwrite {fill : Byte} : ∀ (w : Bytes) (m : Mem) (a b : Nat), Memory.wf fill m = true →
    mget fill (mwrite fill m a w) b = if a ≤ b ∧ b < a + w.length then w.getD (b - a) 0 else mget fill m b
  | [], m, a, b, _ => by
    have : ¬ (a ≤ b ∧ b < a + 0) := by omega
    simp [mwrite, this]
  | x :: w, m, a, b, h => by
    rw [mwrite, mget_mwrite w _ (a + 1) b (mput_wf a x h), mget_mput x b h]
    simp only [List.length_cons]
    by_cases e : b = a
    · subst e
      simp
    · by_cases hin : a + 1 ≤ b ∧ b < a + 1 + w.length
      · have h2 : a ≤ b ∧ b < a + (w.length + 1) := by omega
        obtain ⟨k, rfl⟩ : ∃ k, b = a + 1 + k := ⟨b - (a + 1), by omega⟩
        have e1 : a + 1 + k - (a + 1) = k := by omega
        have e2 : a + 1 + k - a = k + 1 := by omega
        simp only [hin, and_self, if_true, h2, e1, e2]
        rfl
      · have h2 : ¬ (a ≤ b ∧ b < a + (w.length + 1)) := by omega
        rw [if_neg hin, if_neg h2, if_neg e]

/-- A byte after a range has been set back to the fill byte. -/
theorem mget_mclear {fill : Byte} (lo hi : Nat) :
    ∀ (m : Mem) (b : Nat), mget fill (mclear m lo hi) b = if lo ≤ b ∧ b < hi then fill else mget fill m b
  | [], b => by simp [mclear, mget]
  | (a, v) :: m, b => by
    have ih := mget_mclear (fill := fill) lo hi m b
    unfold mclear at ih ⊢
    rw [List.filter_cons]
    by_cases e : a = b
    · subst e
      by_cases c : lo ≤ a ∧ a < hi
      · have h1 : decide (a < lo) = false := by simp; omega
        have h2 : decide (hi ≤ a) = false := by simp; omega
        rw [if_pos c] at ih ⊢
        simpa [h1, h2] using ih
      · have : (decide (a < lo) || decide (hi ≤ a)) = true := by simp; omega
        rw [if_pos this, if_neg c]
        simp [mget]
    · split
      · simp [mget, e, ih]
      · simp only [ih, mget, e, if_false]

end Sys2Proof.Machine
end

