-- ==== Sys2Proof/Laws/Keeps.lean ====
section
/-!
SUPPORT. What nearly every operation of the module keeps: the queue of commands that wait, the outputs so far, the canonical form of
the byte stores, the contents of the carrier's flash, and the direction of time. One lemma per operation says so (`<operation>_keeps`
in the files Keeps*.lean); a command's lemma follows from those of the operations that it calls.
-/
namespace Sys2Proof.Machine

/-- The parts of a state that `Keeps` speaks of, measured against an earlier state. -/
structure Kept (a : State) (pending : List Instr) (out : List Output) (banks flash store : Mem) (raw : RawTime) (wraps : Nat) :
    Prop where
  /-- No command is added to the queue, taken from it or moved in it. -/
  pending : pending = a.pending
  /-- What has left the module stays as it was; more may follow. -/
  out : a.out <+: out
  /-- The byte stores stay in canonical form. -/
  mem : a.memOk = true → Memory.wf 0 banks = true ∧ Memory.wf 0xFF flash = true ∧ Memory.wf 0 store = true
  /-- The carrier's flash is not written. -/
  flash : flash = a.flash.mem
  /-- Time does not run backward. -/
  now : a.now ≤ wraps * rawPeriod + raw.toNat

/-- State `t` keeps what state `a` has, as an operation leaves it that neither writes the flash nor takes the module to OFF. -/
def Keeps (a t : State) : Prop := Kept a t.pending t.out t.banks.mem t.flash.mem t.franking.mem t.time.raw t.time.wraps

theorem memOk_parts {s : State} (h : s.memOk = true) :
    Memory.wf 0 s.banks.mem = true ∧ Memory.wf 0xFF s.flash.mem = true ∧ Memory.wf 0 s.franking.mem = true := by
  simpa [State.memOk, and_assoc] using h

theorem Keeps.refl (a : State) : Keeps a a :=
  ⟨rfl, List.prefix_refl _, memOk_parts, rfl, Nat.le_refl _⟩

theorem Keeps.memOk {a t : State} (h : Keeps a t) (m : a.memOk = true) : t.memOk = true := by
  simpa [State.memOk, and_assoc] using h.mem m

theorem Keeps.trans {a b c : State} (h : Keeps a b) (k : Keeps b c) : Keeps a c :=
  ⟨k.pending.trans h.pending, h.out.trans k.out, fun m => k.mem (h.memOk m), k.flash.trans h.flash,
   Nat.le_trans h.now k.now⟩

/-- From the parts back to the state. -/
theorem Keeps.unmk {a s : State} (h : Keeps a s) :
    Kept a s.pending s.out s.banks.mem s.flash.mem s.franking.mem s.time.raw s.time.wraps := h

theorem Keeps.foldl {α : Type} {a : State} {f : State → α → State} (hf : ∀ t x, Keeps a t → Keeps a (f t x)) :
    ∀ (l : List α) {s : State}, Keeps a s → Keeps a (l.foldl f s)
  | [], _, h => h
  | x :: l, s, h => Keeps.foldl hf l (hf s x h)

/-- A fold that carries something beside the state. -/
theorem Keeps.foldl_fst {α β : Type} {a : State} {f : State × β → α → State × β} (hf : ∀ p x, Keeps a p.1 → Keeps a (f p x).1) :
    ∀ (l : List α) {p : State × β}, Keeps a p.1 → Keeps a (l.foldl f p).1
  | [], _, h => h
  | x :: l, p, h => Keeps.foldl_fst hf l (hf p x h)

theorem Keeps.ite {a s t : State} {c : Prop} [Decidable c] (h : Keeps a s) (k : Keeps a t) : Keeps a (if c then s else t) := by
  split
  · exact h
  · exact k

theorem Keeps.id {a t : State} (h : Keeps a t) : Keeps a (id t) := h

/-- An outcome keeps what `a` has: every next state does. -/
def KeptBy (a : State) (r : Res) : Prop := ∀ t, r = .next t → Keeps a t

theorem KeptBy.next {a t : State} (h : Keeps a t) : KeptBy a (.next t) := by
  intro t' e
  cases e
  exact h

theorem KeptBy.ite {a : State} {r r' : Res} {c : Prop} [Decidable c] (h : KeptBy a r) (k : KeptBy a r') :
    KeptBy a (if c then r else r') := by
  split
  · exact h
  · exact k

end Sys2Proof.Machine
end

