-- ==== Sys2Proof/Laws/KeepsOps.lean ====
section
/-!
SUPPORT. What the shared operations keep (Machine/Ops, TimeBase, Franking, Rings, Faults): see Laws/Keeps.lean.
-/
namespace Sys2Proof.Machine

theorem advanceTo_keeps {z s : State} (pu : Nat) (h : Keeps z s) : Keeps z (advanceTo s pu) := by
  unfold advanceTo
  split
  · rename_i hlt
    refine ⟨h.pending, h.out, h.mem, h.flash, ?_⟩
    have e : (BitVec.ofNat 56 (pu % rawPeriod)).toNat = pu % rawPeriod := by
      rw [BitVec.toNat_ofNat]
      exact Nat.mod_eq_of_lt (Nat.mod_lt _ (by decide))
    have k : z.now ≤ s.now := h.now
    have d := Nat.div_add_mod pu rawPeriod
    show z.now ≤ pu / rawPeriod * rawPeriod + (BitVec.ofNat 56 (pu % rawPeriod)).toNat
    rw [e, Nat.mul_comm]
    omega
  · exact h

theorem Keeps.choose {z a b : State} {p : Prop} [Decidable p] (ha : Keeps z a) (hb : Keeps z b) : Keeps z (if p then a else b) := by
  split
  · exact ha
  · exact hb

theorem countFrom_keeps {z s : State} (n : Nat) (h : Keeps z s) : Keeps z { s with time := { s.time with countFrom := n } } :=
  ⟨h.pending, h.out, h.mem, h.flash, h.now⟩

theorem holdCount_keeps {z s : State} (h : Keeps z s) : Keeps z (holdCount s) :=
  countFrom_keeps s.rawCount h

theorem emit_keeps {z s : State} (o : Output) (h : Keeps z s) : Keeps z (emit s o) :=
  ⟨h.pending, h.out.trans (List.prefix_append _ _), h.mem, h.flash, h.now⟩

theorem emits_keeps {z s : State} (os : List Output) (h : Keeps z s) : Keeps z (emits s os) :=
  ⟨h.pending, h.out.trans (List.prefix_append _ _), h.mem, h.flash, h.now⟩

theorem takeFree_keeps {z s : State} (h : Keeps z s) : Keeps z (takeFree s).2 := by
  unfold takeFree
  repeat' (first
    | with_reducible assumption
    | (unfold Keeps; dsimp only; with_reducible refine Keeps.unmk ?_))

theorem askPage_keeps {z s : State} (addr : Nat) (h : Keeps z s) : Keeps z (askPage s addr) := by
  unfold askPage
  repeat' (first
    | with_reducible assumption
    | with_reducible apply emit_keeps
    | with_reducible apply translate_keeps
    | (unfold Keeps; dsimp only; with_reducible refine Keeps.unmk ?_)
    | with_reducible apply Keeps.ite)

theorem translate_keeps {z s : State} (addr : Nat) (h : Keeps z s) : Keeps z (translate s addr) := by
  unfold translate
  repeat' (first
    | with_reducible assumption
    | with_reducible apply askPage_keeps
    | (unfold Keeps; dsimp only; with_reducible refine Keeps.unmk ?_)
    | with_reducible apply Keeps.ite)

theorem writeRequest_keeps {z s : State} (c : Nat × Bytes) (h : Keeps z s) : Keeps z (writeRequest s c) := by
  unfold writeRequest
  repeat' (first
    | with_reducible assumption
    | with_reducible apply translate_keeps
    | with_reducible apply emit_keeps)

theorem hostWrite_keeps {z s : State} (addr : Nat) (b : Bytes) (h : Keeps z s) : Keeps z (hostWrite s addr b) := by
  unfold hostWrite
  repeat' (first
    | with_reducible assumption
    | with_reducible apply writeRequest_keeps
    | with_reducible apply Keeps.foldl)

theorem signal_keeps {z s : State} (v : Nat) (h : Keeps z s) : Keeps z (signal s v) := by
  unfold signal
  repeat' (first
    | with_reducible assumption
    | with_reducible apply emit_keeps
    | (unfold Keeps; dsimp only; with_reducible refine Keeps.unmk ?_)
    | split)

theorem flushPba_keeps {z s : State} (h : Keeps z s) : Keeps z (flushPba s) := by
  unfold flushPba
  repeat' (first
    | with_reducible assumption
    | with_reducible apply emit_keeps
    | with_reducible apply modPcie_keeps
    | with_reducible apply Keeps.foldl
    | with_reducible apply Keeps.foldl_fst
    | (intro t x ht)
    | (unfold Keeps; dsimp only; with_reducible refine Keeps.unmk ?_)
    | split)

theorem raiseIrq_keeps {z s : State} (i : Nat) (h : Keeps z s) : Keeps z (raiseIrq s i) := by
  unfold raiseIrq
  repeat' (first
    | with_reducible assumption
    | with_reducible apply signal_keeps
    | (unfold Keeps; dsimp only; with_reducible refine Keeps.unmk ?_)
    | split)

theorem setState_keeps {z s : State} (m : ModState) (h : Keeps z s) : Keeps z (setState s m) := by
  unfold setState
  repeat' (first
    | with_reducible assumption
    | with_reducible apply raiseIrq_keeps
    | (unfold Keeps; dsimp only; with_reducible refine Keeps.unmk ?_)
    | split)

theorem aer_keeps {z s : State} (b : Nat) (h : Keeps z s) : Keeps z (aer s b) := by
  unfold aer
  repeat' (first
    | with_reducible assumption
    | (unfold Keeps; dsimp only; with_reducible refine Keeps.unmk ?_))

theorem noteRead_keeps {z s : State} (how : ReadEnd) (h : Keeps z s) : Keeps z (noteRead s how) := by
  unfold noteRead
  repeat' (first
    | with_reducible assumption
    | with_reducible apply aer_keeps
    | (unfold Keeps; dsimp only; with_reducible refine Keeps.unmk ?_)
    | with_reducible apply Keeps.ite
    | split)

theorem aerCorrected_keeps {z s : State} (n : Nat) (h : Keeps z s) : Keeps z (aerCorrected s n) := by
  unfold aerCorrected
  split
  · exact h
  · exact h

theorem refuseRequest_keeps {z s : State} (h : Keeps z s) : Keeps z (refuseRequest s) := by
  unfold refuseRequest
  repeat' (first
    | with_reducible assumption
    | with_reducible apply emit_keeps
    | with_reducible apply aer_keeps)

theorem memRequest_keeps {z s : State} (k : State → State) (hk : ∀ t, Keeps z t → Keeps z (k t)) (h : Keeps z s) : Keeps z (memRequest s k) := by
  unfold memRequest
  repeat' (first
    | with_reducible assumption
    | with_reducible apply refuseRequest_keeps
    | with_reducible apply hk
    | split)

theorem cfgRequest_keeps {z s : State} (k : State → State) (hk : ∀ t, Keeps z t → Keeps z (k t)) (h : Keeps z s) : Keeps z (cfgRequest s k) := by
  unfold cfgRequest
  repeat' (first
    | with_reducible assumption
    | with_reducible apply hk
    | split)

theorem modGroup_keeps {z s : State} (g : Nat) (f : Group → Group) (h : Keeps z s) : Keeps z (modGroup s g f) := by
  unfold modGroup
  repeat' (first
    | with_reducible assumption
    | (unfold Keeps; dsimp only; with_reducible refine Keeps.unmk ?_))

theorem modChan_keeps {z s : State} (c : Nat) (f : TileChan → TileChan) (h : Keeps z s) : Keeps z (modChan s c f) := by
  unfold modChan
  repeat' (first
    | with_reducible assumption
    | with_reducible apply modGroup_keeps)

theorem idle_keeps {z s : State} (h : Keeps z s) : Keeps z (idle s) := by
  unfold idle
  repeat' (first
    | with_reducible assumption
    | with_reducible apply advanceTo_keeps
    | split)

theorem setDom_now (t : Time) (x : Nat) (d : Domain) : (t.setDom x d).raw = t.raw ∧ (t.setDom x d).wraps = t.wraps := by
  unfold Time.setDom
  split <;> exact ⟨rfl, rfl⟩

theorem modDom_keeps {z s : State} (x : Nat) (f : Domain → Domain) (h : Keeps z s) : Keeps z (modDom s x f) := by
  obtain ⟨e1, e2⟩ := setDom_now s.time x (f (s.time.dom x))
  refine ⟨h.pending, h.out, h.mem, h.flash, ?_⟩
  show z.now ≤ (s.time.setDom x (f (s.time.dom x))).wraps * rawPeriod + (s.time.setDom x (f (s.time.dom x))).raw.toNat
  rw [e1, e2]
  exact h.now

theorem modEth_keeps {z s : State} (p : Nat) (f : EthPort → EthPort) (h : Keeps z s) : Keeps z (modEth s p f) := by
  unfold modEth
  repeat' (first
    | with_reducible assumption
    | (unfold Keeps; dsimp only; with_reducible refine Keeps.unmk ?_)
    | split)

theorem takeMeasurement_keeps {z s : State} (x : Nat) (p : Postmark) (t : Int) (h : Keeps z s) : Keeps z (takeMeasurement s x p t) := by
  unfold takeMeasurement
  repeat' (first
    | with_reducible assumption
    | with_reducible apply modDom_keeps)

theorem Keeps.store {z s : State} (a : Nat) (b : Bytes) (h : Keeps z s) :
    Keeps z { s with franking := { s.franking with mem := mwrite 0 s.franking.mem a b } } :=
  ⟨h.pending, h.out, fun m => ⟨(h.mem m).1, (h.mem m).2.1, mwrite_wf b _ a (h.mem m).2.2⟩, h.flash, h.now⟩

theorem storeWrite_keeps {z s : State} (a : Nat) (b : Bytes) (h : Keeps z s) : Keeps z (storeWrite s a b).1 := by
  unfold storeWrite
  dsimp only
  split
  · exact h.store a b
  · have k : Keeps z { (takeFree s).2 with franking := { (takeFree s).2.franking with
        failing := (takeFree s).2.franking.failing - 1 } } := h
    split
    · exact k.store a b
    · exact k

theorem writePage_keeps {z s : State} (p : Page) (h : Keeps z s) : Keeps z (writePage s p).1 := by
  unfold writePage
  repeat' (first
    | with_reducible assumption
    | with_reducible apply storeWrite_keeps
    | split)

theorem noteEvent_keeps {z s : State} (n : Nat) (h : Keeps z s) : Keeps z (noteEvent s n) := by
  unfold noteEvent
  repeat' (first
    | with_reducible assumption
    | (unfold Keeps; dsimp only; with_reducible refine Keeps.unmk ?_)
    | split)

theorem frankWrite_keeps {z s : State} (code : Nat) (strict offline : Bool) (data : Bytes) (serial : Nat) (c : PageChange) (h : Keeps z s) : Keeps z (frankWrite s code strict offline data serial c).1 := by
  unfold frankWrite
  repeat' (first
    | with_reducible assumption
    | with_reducible apply storeWrite_keeps
    | with_reducible apply writePage_keeps
    | with_reducible apply noteEvent_keeps
    | (unfold Keeps; dsimp only; with_reducible refine Keeps.unmk ?_)
    | split)

theorem rollForward_keeps {z : State} : ∀ (k : Nat) {s : State}, Keeps z s → Keeps z (rollForward k s)
  | 0, _, h => h
  | k + 1, s, h => by
    unfold rollForward
    try dsimp only
    repeat' (first
      | with_reducible assumption
      | with_reducible apply rollForward_keeps
      | with_reducible apply writePage_keeps
      | with_reducible apply noteEvent_keeps
      | (unfold Keeps; dsimp only; with_reducible refine Keeps.unmk ?_)
      | split
      | dsimp only)

theorem storeAdd_keeps {z s : State} (a n : Nat) (h : Keeps z s) : Keeps z (storeAdd s a n) := by
  unfold storeAdd
  repeat' (first
    | with_reducible assumption
    | with_reducible apply storeWrite_keeps)

theorem lifetimeUpdate_keeps {z s : State} (seconds : Nat) (h : Keeps z s) : Keeps z (lifetimeUpdate s seconds) := by
  unfold lifetimeUpdate
  repeat' (first
    | with_reducible assumption
    | with_reducible apply storeWrite_keeps
    | (unfold Keeps; dsimp only; with_reducible refine Keeps.unmk ?_))

theorem modRing_keeps {z s : State} (r : Nat) (f : Ring → Ring) (h : Keeps z s) : Keeps z (modRing s r f) := by
  unfold modRing
  repeat' (first
    | with_reducible assumption
    | (unfold Keeps; dsimp only; with_reducible refine Keeps.unmk ?_))

theorem countDrop_keeps {z s : State} (t cause len : Nat) (h : Keeps z s) : Keeps z (countDrop s t cause len) := by
  unfold countDrop
  repeat' (first
    | with_reducible assumption
    | with_reducible apply modRing_keeps
    | (unfold Keeps; dsimp only; with_reducible refine Keeps.unmk ?_)
    | split)

theorem stageTake_keeps {z s : State} (t len : Nat) (h : Keeps z s) : Keeps z (stageTake s t len) := h

theorem offerAt_keeps {z s : State} (r : Nat) (e : Envelope) (h : Keeps z s) : Keeps z (offerAt s r e).1 := by
  unfold offerAt
  dsimp only
  split
  · exact modRing_keeps _ _ (countDrop_keeps _ _ _ h)
  · exact modRing_keeps _ _ (stageTake_keeps _ _ h)

theorem offerRing_keeps {z s : State} (k : Nat) (e : Envelope) (h : Keeps z s) : Keeps z (offerRing s k e) := offerAt_keeps _ _ h

theorem cutFragment_keeps {z s : State} (k : Nat) (h : Keeps z s) : Keeps z (cutFragment s k) := by
  unfold cutFragment
  repeat' (first
    | with_reducible assumption
    | (unfold Keeps; dsimp only; with_reducible refine Keeps.unmk ?_))

theorem offerStream_keeps {z s : State} (k : Nat) (e : Envelope) (h : Keeps z s) : Keeps z (offerStream s k e) := by
  unfold offerStream
  dsimp only
  split
  · exact countDrop_keeps (z := z) _ _ _ h
  · exact h

theorem offerDeadLetter_keeps {z s : State} (e : Envelope) (h : Keeps z s) : Keeps z (offerDeadLetter s e).1 := offerAt_keeps _ _ h

theorem sendLtr_keeps {z s : State} (us : Nat) (h : Keeps z s) : Keeps z (sendLtr s us) := by
  unfold sendLtr
  repeat' (first
    | with_reducible assumption
    | with_reducible apply emit_keeps
    | (unfold Keeps; dsimp only; with_reducible refine Keeps.unmk ?_))

theorem ltrCheck_keeps {z s : State} (h : Keeps z s) : Keeps z (ltrCheck s) := by
  unfold ltrCheck
  repeat' (first
    | with_reducible assumption
    | with_reducible apply sendLtr_keeps
    | (unfold Keeps; dsimp only; with_reducible refine Keeps.unmk ?_)
    | split)

theorem dropHeld_keeps {z s : State} (t cause : Nat) (p : Envelope → Bool) (h : Keeps z s) : Keeps z (dropHeld s t cause p) := by
  unfold dropHeld
  repeat' (first
    | with_reducible assumption
    | with_reducible apply countDrop_keeps
    | with_reducible apply ltrCheck_keeps
    | with_reducible apply modRing_keeps
    | with_reducible apply cutFragment_keeps
    | with_reducible apply Keeps.foldl
    | with_reducible apply Keeps.foldl_fst
    | with_reducible refine fun _ => ?_
    | with_reducible refine fun _ => ?_
    | (unfold Keeps; dsimp only; with_reducible refine Keeps.unmk ?_)
    | with_reducible apply Keeps.ite)

theorem dropStaged_keeps {z s : State} (t cause : Nat) (h : Keeps z s) : Keeps z (dropStaged s t cause) := dropHeld_keeps _ _ _ h

theorem offer_keeps (e : Envelope) {z s : State} (t : Nat) (h : Keeps z s) : Keeps z (offer e s t) := by
  unfold offer
  repeat' (first
    | with_reducible assumption
    | with_reducible apply offerRing_keeps
    | with_reducible apply offerStream_keeps
    | split)

theorem stage_keeps {z s : State} (e : Envelope) (h : Keeps z s) : Keeps z (stage s e) := by
  unfold stage
  repeat' (first
    | with_reducible assumption
    | with_reducible apply offer_keeps
    | with_reducible apply offerDeadLetter_keeps
    | with_reducible apply Keeps.foldl
    | with_reducible apply Keeps.foldl_fst
    | (intro t x ht)
    | (unfold Keeps; dsimp only; with_reducible refine Keeps.unmk ?_)
    | split)

theorem stageLoss_keeps {z s : State} (n : FrameNo) (p : Postmark) (h : Keeps z s) : Keeps z (stageLoss s n p) := by
  unfold stageLoss
  repeat' (first
    | with_reducible assumption
    | with_reducible apply offerDeadLetter_keeps
    | with_reducible apply offer_keeps
    | with_reducible apply Keeps.foldl
    | with_reducible apply Keeps.foldl_fst
    | (intro t x ht)
    | (unfold Keeps; dsimp only; with_reducible refine Keeps.unmk ?_)
    | split)

theorem writeback_keeps {z s : State} (r : Nat) (i : Word32) (h : Keeps z s) : Keeps z (writeback s r i) := by
  unfold writeback
  repeat' (first
    | with_reducible assumption
    | with_reducible apply hostWrite_keeps)

theorem putEnvelope_keeps {z s : State} (r : Nat) (e : Envelope) (h : Keeps z s) : Keeps z (putEnvelope s r e) := by
  unfold putEnvelope
  repeat' (first
    | with_reducible assumption
    | with_reducible apply hostWrite_keeps
    | with_reducible apply modRing_keeps
    | with_reducible apply writeback_keeps
    | split)

theorem notify_keeps {z s : State} (r : Nat) (h : Keeps z s) : Keeps z (notify s r) := by
  unfold notify
  repeat' (first
    | with_reducible assumption
    | with_reducible apply modRing_keeps
    | with_reducible apply signal_keeps
    | (unfold Keeps; dsimp only; with_reducible refine Keeps.unmk ?_)
    | split)

theorem flushDone_keeps {z : State} : ∀ (k : Nat) {s : State} (l : List (Nat × Bytes × Bytes)), Keeps z s → Keeps z (flushDone k s l)
  | 0, _, _, h => h
  | _ + 1, _, [], h => h
  | k + 1, s, x :: l, h => by
    unfold flushDone
    try dsimp only
    repeat' (first
      | with_reducible assumption
      | with_reducible apply flushDone_keeps
      | with_reducible apply hostWrite_keeps
      | with_reducible apply modRing_keeps
      | with_reducible apply writeback_keeps
      | with_reducible apply notify_keeps
      | (unfold Keeps; dsimp only; with_reducible refine Keeps.unmk ?_)
      | split
      | dsimp only)

theorem writeCompletions_keeps {z s : State} (h : Keeps z s) : Keeps z (writeCompletions s) := by
  unfold writeCompletions
  repeat' (first
    | with_reducible assumption
    | with_reducible apply flushDone_keeps
    | (unfold Keeps; dsimp only; with_reducible refine Keeps.unmk ?_))

theorem resumeIssue_keeps {z s : State} (h : Keeps z s) : Keeps z (resumeIssue s) := by
  unfold resumeIssue
  repeat' (first
    | with_reducible assumption
    | with_reducible apply writeCompletions_keeps
    | with_reducible apply flushPba_keeps)

theorem completeOne_keeps {z s : State} (cmd : Nat × Bytes) (status result mask detail : Nat) (h : Keeps z s) : Keeps z (completeOne s cmd status result mask detail) := by
  unfold completeOne
  repeat' (first
    | with_reducible assumption
    | with_reducible apply writeCompletions_keeps
    | (unfold Keeps; dsimp only; with_reducible refine Keeps.unmk ?_))

theorem sweepBad_keeps {z : State} : ∀ (k : Nat) {s : State}, Keeps z s → Keeps z (sweepBad k s)
  | 0, _, h => h
  | k + 1, s, h => by
    unfold sweepBad
    split
    · split
      · exact h
      · exact sweepBad_keeps k (completeOne_keeps _ _ _ _ _ h)
    · exact h

theorem complete_keeps {z s : State} (cmd : Nat × Bytes) (status result : Nat) (mask : Nat := 0) (detail : Nat := 0) (h : Keeps z s) : Keeps z (complete s cmd status result mask detail) := by
  unfold complete
  repeat' (first
    | with_reducible assumption
    | with_reducible apply completeOne_keeps
    | with_reducible apply sweepBad_keeps)

theorem finishJob_keeps {z s : State} (j : Job) (status result mask : Nat) (h : Keeps z s) : Keeps z (finishJob s j status result mask) := by
  unfold finishJob
  repeat' (first
    | with_reducible assumption
    | with_reducible apply complete_keeps
    | (unfold Keeps; dsimp only; with_reducible refine Keeps.unmk ?_))

theorem failJobs_keeps {z s : State} (p : Job → Bool) (status mask : Nat) (h : Keeps z s) : Keeps z (failJobs s p status mask) := by
  unfold failJobs
  repeat' (first
    | with_reducible assumption
    | with_reducible apply finishJob_keeps
    | with_reducible apply Keeps.foldl
    | with_reducible apply Keeps.foldl_fst
    | (intro t x ht))

theorem endReadouts_keeps {z s : State} (status : Nat) (r : Nat) (h : Keeps z s) : Keeps z (endReadouts s status r) := by
  unfold endReadouts
  repeat' (first
    | with_reducible assumption
    | with_reducible apply modRing_keeps
    | with_reducible apply complete_keeps
    | with_reducible apply Keeps.foldl
    | with_reducible apply Keeps.foldl_fst
    | (intro t x ht))

theorem abortHostWork_keeps {z s : State} (h : Keeps z s) : Keeps z (abortHostWork s) := by
  unfold abortHostWork
  repeat' (first
    | with_reducible assumption
    | with_reducible apply failJobs_keeps
    | with_reducible apply endReadouts_keeps
    | with_reducible apply Keeps.foldl
    | with_reducible apply Keeps.foldl_fst
    | (intro t x ht)
    | (unfold Keeps; dsimp only; with_reducible refine Keeps.unmk ?_))

theorem bumpGen_keeps {z s : State} (h : Keeps z s) : Keeps z (bumpGen s) := by
  unfold bumpGen
  repeat' (first
    | with_reducible assumption
    | (unfold Keeps; dsimp only; with_reducible refine Keeps.unmk ?_))

theorem restartConds_keeps {z s : State} (p : Nat → Bool) (h : Keeps z s) : Keeps z (restartConds s p) := by
  unfold restartConds
  repeat' (first
    | with_reducible assumption
    | (unfold Keeps; dsimp only; with_reducible refine Keeps.unmk ?_))

theorem restartReds_keeps {z s : State} (p : Nat → Bool) (h : Keeps z s) : Keeps z (restartReds s p) := by
  unfold restartReds
  repeat' (first
    | with_reducible assumption
    | (unfold Keeps; dsimp only; with_reducible refine Keeps.unmk ?_))

theorem moveOut_keeps {z s : State} (cls idx : Nat) (h : Keeps z s) : Keeps z (moveOut s cls idx).1 := by
  unfold moveOut
  repeat' (first
    | with_reducible assumption
    | with_reducible apply bumpGen_keeps
    | with_reducible apply restartConds_keeps
    | with_reducible apply restartReds_keeps
    | (unfold Keeps; dsimp only; with_reducible refine Keeps.unmk ?_)
    | split)

theorem moveStranded_keeps {z s : State} (h : Keeps z s) : Keeps z (moveStranded s) := by
  unfold moveStranded
  refine Keeps.foldl (fun s u h => ?_) _ h
  split
  · exact moveOut_keeps _ _ h
  · exact h

theorem moveBack_keeps {z s : State} (cls idx : Nat) (h : Keeps z s) : Keeps z (moveBack s cls idx) := by
  unfold moveBack
  repeat' (first
    | with_reducible assumption
    | with_reducible apply moveStranded_keeps
    | with_reducible apply bumpGen_keeps
    | with_reducible apply restartConds_keeps
    | with_reducible apply restartReds_keeps
    | (unfold Keeps; dsimp only; with_reducible refine Keeps.unmk ?_)
    | split)

theorem holdEnvelope_keeps {z s : State} (e : Envelope) (h : Keeps z s) : Keeps z (holdEnvelope s e) := by
  unfold holdEnvelope
  repeat' (first
    | with_reducible assumption
    | (unfold Keeps; dsimp only; with_reducible refine Keeps.unmk ?_))

theorem spoilHeld_keeps {z s : State} (p : Hist → HistFrame → Bool) (h : Keeps z s) : Keeps z (spoilHeld s p) := by
  unfold spoilHeld
  repeat' (first
    | with_reducible assumption
    | (unfold Keeps; dsimp only; with_reducible refine Keeps.unmk ?_))

theorem invalidateGranule_keeps {z s : State} (gr : Nat) (h : Keeps z s) : Keeps z (invalidateGranule s gr) := spoilHeld_keeps _ h

theorem fenceEffect_keeps {z s : State} (u : FUnit) (perm : Bool) (h : Keeps z s) : Keeps z (fenceEffect s u perm) := by
  unfold fenceEffect
  repeat' (first
    | with_reducible assumption
    | with_reducible apply modGroup_keeps
    | with_reducible apply complete_keeps
    | with_reducible apply stage_keeps
    | with_reducible apply dropStaged_keeps
    | with_reducible apply dropHeld_keeps
    | with_reducible apply failJobs_keeps
    | with_reducible apply invalidateGranule_keeps
    | with_reducible apply spoilHeld_keeps
    | with_reducible apply modRing_keeps
    | with_reducible apply abortHostWork_keeps
    | with_reducible apply Keeps.foldl
    | with_reducible apply Keeps.foldl_fst
    | (intro t x ht)
    | (unfold Keeps; dsimp only; with_reducible refine Keeps.unmk ?_)
    | split)

theorem fenceUnit_keeps {z s : State} (d : Detection) (fenceCount : Nat) (h : Keeps z s) : Keeps z (fenceUnit s d fenceCount) := by
  unfold fenceUnit
  repeat' (first
    | with_reducible assumption
    | with_reducible apply storeAdd_keeps
    | with_reducible apply fenceEffect_keeps
    | with_reducible apply moveOut_keeps
    | with_reducible apply holdEnvelope_keeps
    | (unfold Keeps; dsimp only; with_reducible refine Keeps.unmk ?_)
    | split)

theorem detect_keeps {z s : State} (u : FUnit) (cause detail faultCount : Nat) (h : Keeps z s) : Keeps z (detect s u cause detail faultCount) := by
  unfold detect
  repeat' (first
    | with_reducible assumption
    | with_reducible apply fenceUnit_keeps
    | (unfold Keeps; dsimp only; with_reducible refine Keeps.unmk ?_)
    | split)

theorem fencePending_keeps {z s : State} (fenceCount : Nat) (h : Keeps z s) : Keeps z (fencePending s fenceCount) := by
  unfold fencePending
  repeat' (first
    | with_reducible assumption
    | with_reducible apply fenceUnit_keeps
    | with_reducible apply Keeps.foldl
    | with_reducible apply Keeps.foldl_fst
    | (intro t x ht))

theorem Keeps.banks {z s : State} {m : Mem} (h : Keeps z s) (b : Banks) (e : b.mem = m)
    (k : Memory.wf 0 s.banks.mem = true → Memory.wf 0 m = true) : Keeps z { s with banks := b } :=
  ⟨h.pending, h.out, fun x => ⟨e ▸ k (h.mem x).1, (h.mem x).2⟩, h.flash, h.now⟩

theorem readmitUnit_keeps {z s : State} (u : FUnit) (h : Keeps z s) : Keeps z (readmitUnit s u) := by
  unfold readmitUnit
  dsimp only
  split
  · exact h
  · apply holdEnvelope_keeps
    have k : ∀ f : Fence, Keeps z (moveBack { s with faults := { s.faults with
        fences := tdel s.faults.fences (unitKey u), lastUnit := u, lastEvent := 3, lastCause := f.cause } } u.cls u.idx) :=
      fun f => moveBack_keeps _ _ h
    split
    · exact modGroup_keeps _ _ (k _)
    · exact k _
    · refine (k _).banks _ rfl ?_
      intro w
      split
      · exact mclear_wf _ _ w
      · exact w
    · exact k _
    · exact resumeIssue_keeps (k _)
    · exact k _

theorem storeFault_keeps {z s : State} (h : Keeps z s) : Keeps z (storeFault s) := by
  unfold storeFault
  repeat' (first
    | with_reducible assumption
    | with_reducible apply detect_keeps)

theorem frank_keeps {z s : State} (code : Nat) (strict offline : Bool) (data : Bytes) (serial : Nat) (c : PageChange) (h : Keeps z s) : Keeps z (frank s code strict offline data serial c).1 := by
  unfold frank
  repeat' (first
    | with_reducible assumption
    | with_reducible apply frankWrite_keeps
    | with_reducible apply storeFault_keeps
    | (unfold Keeps; dsimp only; with_reducible refine Keeps.unmk ?_)
    | split)

theorem frankSeal_keeps {z s : State} (open_ offline : Bool) (h : Keeps z s) : Keeps z (frankSeal s open_ offline) := by
  unfold frankSeal
  repeat' (first
    | with_reducible assumption
    | with_reducible apply frank_keeps)

end Sys2Proof.Machine
end

