-- ==== Sys2Proof/Laws/KeepsEval.lean ====
section
/-!
SUPPORT. What the evaluation of a frame and its release keep (Machine/Views to Machine/Release): see Laws/Keeps.lean.
-/
namespace Sys2Proof.Machine

theorem indexSamples_keeps {z s : State} (f : FrameSet) (h : Keeps z s) : Keeps z (indexSamples s f).1 := by
  unfold indexSamples
  refine Keeps.foldl_fst (fun p x hp => ?_) _ h
  dsimp only
  split
  · exact hp
  · exact hp

theorem redsFrame_keeps {z s : State} (f : FrameSet) (h : Keeps z s) : Keeps z (redsFrame s f) := by
  unfold redsFrame
  repeat' (first
    | with_reducible assumption
    | with_reducible apply Keeps.foldl
    | with_reducible apply Keeps.foldl_fst
    | (intro t x ht)
    | (unfold Keeps; dsimp only; with_reducible refine Keeps.unmk ?_))

theorem sumsFrame_keeps {z s : State} (f : FrameSet) (h : Keeps z s) : Keeps z (sumsFrame s f) := by
  unfold sumsFrame
  repeat' (first
    | with_reducible assumption
    | with_reducible apply Keeps.foldl
    | with_reducible apply Keeps.foldl_fst
    | (intro t x ht)
    | (unfold Keeps; dsimp only; with_reducible refine Keeps.unmk ?_))

theorem keepOutputs_keeps {z s : State} (h : Keeps z s) : Keeps z (keepOutputs s) := by
  unfold keepOutputs
  repeat' (first
    | with_reducible assumption
    | (unfold Keeps; dsimp only; with_reducible refine Keeps.unmk ?_))

theorem meterFrame_keeps {z s : State} (f : FrameSet) (h : Keeps z s) : Keeps z (meterFrame s f) := by
  unfold meterFrame
  repeat' (first
    | with_reducible assumption
    | with_reducible apply Keeps.foldl
    | with_reducible apply Keeps.foldl_fst
    | (intro t x ht)
    | (unfold Keeps; dsimp only; with_reducible refine Keeps.unmk ?_))

theorem keepResults_keeps {z s : State} (h : Keeps z s) : Keeps z (keepResults s) := by
  unfold keepResults
  repeat' (first
    | with_reducible assumption
    | (unfold Keeps; dsimp only; with_reducible refine Keeps.unmk ?_))

theorem setSeq_keeps {z s : State} (q : Nat) (e : Seq) (h : Keeps z s) : Keeps z (setSeq s q e) := by
  unfold setSeq
  repeat' (first
    | with_reducible assumption
    | (unfold Keeps; dsimp only; with_reducible refine Keeps.unmk ?_))

theorem seqsFrame_keeps {z s : State} (f : FrameSet) (p0 : Tbl Seq) (r : SeqRun) (h : Keeps z s) : Keeps z (seqsFrame s f p0 r).1 := by
  unfold seqsFrame
  repeat' (first
    | with_reducible assumption
    | with_reducible apply Keeps.foldl
    | with_reducible apply Keeps.foldl_fst
    | (intro t x ht)
    | (unfold Keeps; dsimp only; with_reducible refine Keeps.unmk ?_))

theorem beginSeqs_keeps {z s : State} (f : FrameSet) (h : Keeps z s) : Keeps z (beginSeqs s f).1 := by
  unfold beginSeqs
  repeat' (first
    | with_reducible assumption
    | with_reducible apply setSeq_keeps
    | with_reducible apply Keeps.foldl
    | with_reducible apply Keeps.foldl_fst
    | (intro t x ht))

theorem lcsFrame_keeps {z s : State} (f : FrameSet) (h : Keeps z s) : Keeps z (lcsFrame s f) := by
  unfold lcsFrame
  repeat' (first
    | with_reducible assumption
    | with_reducible apply Keeps.foldl
    | with_reducible apply Keeps.foldl_fst
    | (intro t x ht)
    | (unfold Keeps; dsimp only; with_reducible refine Keeps.unmk ?_))

theorem commitEvts_keeps {z s : State} (f : FrameSet) (pulses : List (Nat × Nat)) (h : Keeps z s) : Keeps z (commitEvts s f pulses) := by
  unfold commitEvts
  repeat' (first
    | with_reducible assumption
    | with_reducible apply Keeps.foldl
    | with_reducible apply Keeps.foldl_fst
    | (intro t x ht)
    | (unfold Keeps; dsimp only; with_reducible refine Keeps.unmk ?_))

theorem safeEvts_keeps {z s : State} (h : Keeps z s) : Keeps z (safeEvts s) := by
  unfold safeEvts
  repeat' (first
    | with_reducible assumption
    | with_reducible apply Keeps.foldl
    | with_reducible apply Keeps.foldl_fst
    | (intro t x ht)
    | (unfold Keeps; dsimp only; with_reducible refine Keeps.unmk ?_))

theorem histFrame_keeps {z s : State} (f : FrameSet) (h : Keeps z s) : Keeps z (histFrame s f) := by
  unfold histFrame
  repeat' (first
    | with_reducible assumption
    | (unfold Keeps; dsimp only; with_reducible refine Keeps.unmk ?_))

theorem modRec_keeps {z s : State} (r : Nat) (f : Rec → Rec) (h : Keeps z s) : Keeps z (modRec s r f) := by
  unfold modRec
  repeat' (first
    | with_reducible assumption
    | (unfold Keeps; dsimp only; with_reducible refine Keeps.unmk ?_))

theorem modRun_keeps {z s : State} (r no seg : Nat) (f : Run → Run) (h : Keeps z s) : Keeps z (modRun s r no seg f) := by
  unfold modRun
  repeat' (first
    | with_reducible assumption
    | with_reducible apply modRec_keeps)

theorem dropRun_keeps {z s : State} (r no seg : Nat) (h : Keeps z s) : Keeps z (dropRun s r no seg) := by
  unfold dropRun
  repeat' (first
    | with_reducible assumption
    | with_reducible apply modRec_keeps)

theorem beginRun_keeps {z s : State} (q : RecQ) (t : TrigEvt) (c : Nat) (h : Keeps z s) : Keeps z (beginRun s q t c) := by
  unfold beginRun
  repeat' (first
    | with_reducible assumption
    | (unfold Keeps; dsimp only; with_reducible refine Keeps.unmk ?_)
    | split)

theorem beginFirst_keeps {z s : State} (c : Nat) (h : Keeps z s) : Keeps z (beginFirst s c) := by
  unfold beginFirst
  repeat' (first
    | with_reducible assumption
    | with_reducible apply Keeps.foldl
    | with_reducible apply Keeps.foldl_fst
    | (intro t x ht)
    | (unfold Keeps; dsimp only; with_reducible refine Keeps.unmk ?_)
    | split)

theorem takeTrigs_keeps {z s : State} (c : Nat) (l : List TrigEvt) (h : Keeps z s) : Keeps z (takeTrigs s c l) := by
  unfold takeTrigs
  repeat' (first
    | with_reducible assumption
    | with_reducible apply beginRun_keeps
    | with_reducible apply Keeps.foldl
    | with_reducible apply Keeps.foldl_fst
    | (intro t x ht)
    | split)

theorem endRuns_keeps {z s : State} (r g : Nat) (h : Keeps z s) : Keeps z (endRuns s r g) := by
  unfold endRuns
  repeat' (first
    | with_reducible assumption
    | with_reducible apply modRec_keeps)

theorem takeGates_keeps {z s : State} (c : Nat) (l : List (Nat × Nat × Bool)) (h : Keeps z s) : Keeps z (takeGates s c l) := by
  unfold takeGates
  repeat' (first
    | with_reducible assumption
    | with_reducible apply endRuns_keeps
    | with_reducible apply Keeps.foldl
    | with_reducible apply Keeps.foldl_fst
    | (intro t x ht)
    | (unfold Keeps; dsimp only; with_reducible refine Keeps.unmk ?_)
    | split)

theorem pushReady_keeps {z s : State} (ring : Nat) (l : List Item) (h : Keeps z s) : Keeps z (pushReady s ring l) := by
  unfold pushReady
  repeat' (first
    | with_reducible assumption
    | with_reducible apply modRing_keeps)

theorem closeStream_keeps {z s : State} (ring : Nat) (q : RecQ) (x : Run) (h : Keeps z s) : Keeps z (closeStream s ring q x) := by
  unfold closeStream
  exact pushReady_keeps _ _ h

theorem queueRun_keeps {z : State} (q : RecQ) (ring c : Nat) :
    ∀ (n : Nat) {s : State} (x : Run), Keeps z s → Keeps z (queueRun q ring c n s x)
  | 0, _, _, h => h
  | n + 1, s, x, h => by
    unfold queueRun
    repeat' (first
      | with_reducible assumption
      | with_reducible apply queueRun_keeps
      | with_reducible apply modRun_keeps
      | with_reducible apply pushReady_keeps
      | with_reducible apply closeStream_keeps
      | split
      | dsimp only)

theorem queueParts_keeps {z s : State} (c : Nat) (h : Keeps z s) : Keeps z (queueParts s c) := by
  unfold queueParts
  repeat' (first
    | with_reducible assumption
    | with_reducible apply queueRun_keeps
    | with_reducible apply Keeps.foldl
    | with_reducible apply Keeps.foldl_fst
    | (intro t x ht)
    | split)

theorem valueMeasure_keeps {z s : State} (ref : Nat) (invalid budget : Bool) (items : List (Nat × Nat)) (h : Keeps z s) : Keeps z (valueMeasure s ref invalid budget items).2 := by
  unfold valueMeasure
  repeat' (first
    | with_reducible assumption
    | with_reducible apply takeFree_keeps
    | with_reducible apply Keeps.foldl
    | with_reducible apply Keeps.foldl_fst
    | (intro t x ht)
    | (unfold Keeps; dsimp only; with_reducible refine Keeps.unmk ?_)
    | split)

theorem Keeps.foldl_snd {α β : Type} {a : State} {f : β × State → α → β × State} (hf : ∀ p x, Keeps a p.2 → Keeps a (f p x).2) :
    ∀ (l : List α) {p : β × State}, Keeps a p.2 → Keeps a (l.foldl f p).2
  | [], _, h => h
  | x :: l, p, h => Keeps.foldl_snd hf l (hf p x h)

theorem measureEnvelope_keeps {z s : State} (q : RecQ) (x : Run) (c : Envelope) (h : Keeps z s) :
    Keeps z (measureEnvelope s q x c).2 := by
  unfold measureEnvelope
  apply Keeps.foldl_snd _ _ h
  intro p i hp
  dsimp only
  split
  · exact hp
  · exact valueMeasure_keeps _ _ _ _ hp

theorem popReady_keeps {z s : State} (ring : Nat) (h : Keeps z s) : Keeps z (popReady s ring) := by
  unfold popReady
  repeat' (first
    | with_reducible assumption
    | with_reducible apply modRing_keeps)

theorem writeHead_keeps {z s : State} (ring : Nat) (e : Envelope) (k : State → State) (hk : ∀ t, Keeps z t → Keeps z (k t)) (h : Keeps z s) : Keeps z (writeHead s ring e k) := by
  unfold writeHead
  repeat' (first
    | with_reducible assumption
    | with_reducible apply putEnvelope_keeps
    | with_reducible apply popReady_keeps
    | with_reducible apply hk
    | split)

theorem loseRun_keeps {z s : State} (ring rec_ no seg : Nat) (h : Keeps z s) : Keeps z (loseRun s ring rec_ no seg) := by
  unfold loseRun
  repeat' (first
    | with_reducible assumption
    | with_reducible apply modRing_keeps
    | with_reducible apply modRun_keeps)

theorem dramError_keeps {z s : State} (gr addr : Nat) (h : Keeps z s) : Keeps z (dramError s gr addr) := by
  unfold dramError
  dsimp only
  repeat' (first
    | with_reducible assumption
    | split
    | with_reducible apply detect_keeps
    | (unfold Keeps; dsimp only; with_reducible refine Keeps.unmk ?_))

theorem readFault_keeps {z s : State} (bad : Option Nat) (h : Keeps z s) : Keeps z (readFault s bad) := by
  unfold readFault
  repeat' (first
    | with_reducible assumption
    | with_reducible apply dramError_keeps
    | split)

theorem recordPartWrite_keeps {z s : State} (r : Nat) (bad : Option Nat) (h : Keeps z s) : Keeps z (recordPartWrite s r bad) := by
  unfold recordPartWrite
  repeat' (first
    | with_reducible assumption
    | with_reducible apply readFault_keeps
    | with_reducible apply popReady_keeps
    | with_reducible apply loseRun_keeps
    | with_reducible apply writeHead_keeps
    | with_reducible apply modRun_keeps
    | with_reducible apply modRec_keeps
    | with_reducible apply dropRun_keeps
    | with_reducible apply measureEnvelope_keeps
    | with_reducible apply modRing_keeps
    | (intro t ht)
    | (unfold Keeps; dsimp only; with_reducible refine Keeps.unmk ?_)
    | split)

theorem measureWrite_keeps {z s : State} (r : Nat) (h : Keeps z s) : Keeps z (measureWrite s r) := by
  unfold measureWrite
  repeat' (first
    | with_reducible assumption
    | with_reducible apply writeHead_keeps
    | (intro t ht; exact ht)
    | split
    | dsimp only)

theorem noteCut_keeps {z s : State} (r no : Nat) (x : Run) (cut : Int × Int × Nat × Bool) (h : Keeps z s) :
    Keeps z (noteCut s r no x cut) := by
  unfold noteCut
  repeat' (first
    | with_reducible assumption
    | with_reducible apply modRec_keeps
    | with_reducible apply modRun_keeps
    | split)

theorem endStream_keeps {z s : State} (ring r no : Nat) (committed : Bool) (h : Keeps z s) :
    Keeps z (endStream s ring r no committed) := by
  unfold endStream
  repeat' (first
    | with_reducible assumption
    | with_reducible apply dropRun_keeps
    | split)

theorem streamWrite_keeps {z s : State} (r : Nat) (bad : Option Nat) (h : Keeps z s) : Keeps z (streamWrite s r bad) := by
  unfold streamWrite
  repeat' (first
    | with_reducible assumption
    | with_reducible apply readFault_keeps
    | with_reducible apply popReady_keeps
    | with_reducible apply modRun_keeps
    | with_reducible apply writeHead_keeps
    | with_reducible apply noteCut_keeps
    | with_reducible apply endStream_keeps
    | split
    | extract_lets
    | intro t ht)

theorem readoutWrite_keeps {z s : State} (k : Nat) (bad : Option Nat) (h : Keeps z s) : Keeps z (readoutWrite s k bad) := by
  unfold readoutWrite
  repeat' (first
    | with_reducible assumption
    | with_reducible apply readFault_keeps
    | with_reducible apply complete_keeps
    | with_reducible apply popReady_keeps
    | with_reducible apply writeHead_keeps
    | with_reducible apply pushReady_keeps
    | (intro t ht)
    | (unfold Keeps; dsimp only; with_reducible refine Keeps.unmk ?_)
    | split)

theorem truncateRuns_keeps {z s : State} (h : Keeps z s) : Keeps z (truncateRuns s) := by
  unfold truncateRuns
  repeat' (first
    | with_reducible assumption
    | with_reducible apply modRec_keeps
    | with_reducible apply queueRun_keeps
    | with_reducible apply Keeps.foldl
    | with_reducible apply Keeps.foldl_fst
    | (intro t x ht)
    | (unfold Keeps; dsimp only; with_reducible refine Keeps.unmk ?_)
    | split)

theorem applyCmd_keeps {z : State} (f : FrameSet) (acc : State × Work) (k : SeqCmd) (h : Keeps z acc.1) :
    Keeps z (applyCmd f acc k).1 := by
  unfold applyCmd
  repeat' (first
    | with_reducible assumption
    | with_reducible apply setSeq_keeps
    | with_reducible apply endRuns_keeps
    | with_reducible apply Keeps.foldl
    | intro t x ht
    | split
    | dsimp only)

theorem beginWork_keeps {z s : State} (f : FrameSet) (h : Keeps z s) : Keeps z (beginWork s f).1 := by
  unfold beginWork
  repeat' (first
    | with_reducible assumption
    | with_reducible apply meterFrame_keeps
    | with_reducible apply sumsFrame_keeps
    | with_reducible apply redsFrame_keeps
    | with_reducible apply beginSeqs_keeps
    | with_reducible apply applyCmd_keeps
    | with_reducible apply Keeps.foldl
    | with_reducible apply Keeps.foldl_fst)

theorem workFrame_keeps {z s : State} (f : FrameSet) (h : Keeps z s) : Keeps z (workFrame s f).1 := by
  unfold workFrame
  repeat' (first
    | with_reducible assumption
    | with_reducible apply beginWork_keeps
    | with_reducible apply indexSamples_keeps
    | with_reducible apply seqsFrame_keeps
    | with_reducible apply lcsFrame_keeps
    | with_reducible apply commitEvts_keeps
    | with_reducible apply histFrame_keeps
    | with_reducible apply beginFirst_keeps
    | with_reducible apply takeTrigs_keeps
    | with_reducible apply takeGates_keeps
    | (unfold Keeps; dsimp only; with_reducible refine Keeps.unmk ?_)
    | split)

theorem clearAbandoned_keeps {z s : State} (h : Keeps z s) : Keeps z (clearAbandoned s) := by
  unfold clearAbandoned
  repeat' (first
    | with_reducible assumption
    | (unfold Keeps; dsimp only; with_reducible refine Keeps.unmk ?_))

theorem dropWord_keeps {z s : State} (b a : Nat) (h : Keeps z s) : Keeps z (dropWord s b a) := by
  unfold dropWord
  split
  · exact dropHeld_keeps _ _ _ h
  · exact h

theorem bankError_keeps (c : Nat) {z s : State} (e : Nat × Nat) (h : Keeps z s) : Keeps z (bankError c s e) := by
  unfold bankError
  repeat' (first
    | with_reducible assumption
    | with_reducible apply dropWord_keeps
    | with_reducible apply detect_keeps
    | (unfold Keeps; dsimp only; with_reducible refine Keeps.unmk ?_))

theorem bankCorrected_keeps {z s : State} (e : Nat × Nat) (h : Keeps z s) : Keeps z (bankCorrected s e) := by
  unfold bankCorrected
  repeat' (first
    | with_reducible assumption
    | with_reducible apply aerCorrected_keeps
    | (unfold Keeps; dsimp only; with_reducible refine Keeps.unmk ?_))

theorem windowFaults_keeps {z s : State} (c : Nat) (w : WindowFaults) (h : Keeps z s) : Keeps z (windowFaults s c w) := by
  unfold windowFaults
  repeat' (first
    | with_reducible assumption
    | with_reducible apply detect_keeps
    | with_reducible apply bankError_keeps
    | with_reducible apply bankCorrected_keeps
    | with_reducible apply dramError_keeps
    | with_reducible apply Keeps.foldl
    | with_reducible apply Keeps.foldl_fst
    | (intro t x ht))

theorem returnBanks_keeps {z s : State} (k : Nat) (h : Keeps z s) : Keeps z (returnBanks s k) := by
  unfold returnBanks
  refine Keeps.foldl (fun t b ht => bumpGen_keeps ?_) _ h
  exact ht

theorem spoilBank_keeps {z s : State} (b : Nat) (h : Keeps z s) : Keeps z (spoilBank s b) := by
  unfold spoilBank
  repeat' (first
    | with_reducible assumption
    | (unfold Keeps; dsimp only; with_reducible refine Keeps.unmk ?_)
    | with_reducible apply Keeps.ite)

theorem handover_keeps {z s : State} (n : Nat) (h : Keeps z s) : Keeps z (handover s n) := by
  unfold handover
  repeat' (first
    | with_reducible assumption
    | with_reducible apply returnBanks_keeps
    | with_reducible apply Keeps.foldl
    | with_reducible apply Keeps.foldl_fst
    | (intro t x ht)
    | (unfold Keeps; dsimp only; with_reducible refine Keeps.unmk ?_))

theorem latchMailbox_keeps {z s : State} (h : Keeps z s) : Keeps z (latchMailbox s) := by
  unfold latchMailbox
  repeat' (first
    | with_reducible assumption
    | (unfold Keeps; dsimp only; with_reducible refine Keeps.unmk ?_))

theorem readmit_keeps {z s : State} (u : FUnit) (h : Keeps z s) : Keeps z (readmit s u) := by
  unfold readmit
  repeat' (first
    | with_reducible assumption
    | with_reducible apply readmitUnit_keeps
    | with_reducible apply spoilBank_keeps
    | with_reducible apply Keeps.ite)

theorem readmitPassed_keeps {z s : State} (h : Keeps z s) : Keeps z (readmitPassed s) := by
  unfold readmitPassed
  repeat' (first
    | with_reducible assumption
    | with_reducible apply readmit_keeps
    | with_reducible apply Keeps.foldl
    | with_reducible apply Keeps.foldl_fst
    | with_reducible refine fun _ => ?_)

theorem boundary_keeps {z s : State} (n : Nat) (h : Keeps z s) : Keeps z (boundary s n) := by
  unfold boundary
  repeat' (first
    | with_reducible assumption
    | with_reducible apply spoilBank_keeps
    | with_reducible apply fencePending_keeps
    | with_reducible apply readmitPassed_keeps
    | with_reducible apply latchMailbox_keeps
    | with_reducible apply handover_keeps
    | with_reducible apply Keeps.foldl
    | with_reducible apply Keeps.foldl_fst
    | with_reducible refine fun _ => ?_)

theorem lateGroups_keeps {z s : State} (c : Nat) (h : Keeps z s) : Keeps z (lateGroups s c) := by
  unfold lateGroups
  repeat' (first
    | with_reducible assumption
    | with_reducible apply detect_keeps
    | with_reducible apply Keeps.foldl
    | with_reducible apply Keeps.foldl_fst
    | (intro t x ht)
    | split)

theorem countOverruns_keeps {z s : State} (f : FrameSet) (h : Keeps z s) : Keeps z (countOverruns s f) := by
  unfold countOverruns
  repeat' (first
    | with_reducible assumption
    | with_reducible apply Keeps.foldl
    | with_reducible apply Keeps.foldl_fst
    | (intro t x ht)
    | (unfold Keeps; dsimp only; with_reducible refine Keeps.unmk ?_))

theorem releaseFrame_keeps {z s : State} (f : FrameSet) (h : Keeps z s) : Keeps z (releaseFrame s f) := by
  unfold releaseFrame
  repeat' (first
    | with_reducible assumption
    | with_reducible apply workFrame_keeps
    | with_reducible apply countOverruns_keeps
    | with_reducible apply stage_keeps
    | with_reducible apply stageLoss_keeps
    | with_reducible apply queueParts_keeps
    | with_reducible apply clearAbandoned_keeps
    | with_reducible apply keepResults_keeps
    | with_reducible apply keepOutputs_keeps
    | with_reducible apply complete_keeps
    | with_reducible apply ltrCheck_keeps
    | with_reducible apply boundary_keeps
    | with_reducible apply lateGroups_keeps
    | with_reducible apply Keeps.foldl
    | with_reducible apply Keeps.foldl_fst
    | (intro t x ht)
    | (unfold Keeps; dsimp only; with_reducible refine Keeps.unmk ?_)
    | split)

theorem execFrameRelease_keeps (w : WindowFaults) {z s : State} (h : Keeps z s) : KeptBy z (execFrameRelease w s) := by
  unfold execFrameRelease
  repeat' (first
    | with_reducible assumption
    | with_reducible refine KeptBy.next ?_
    | with_reducible apply windowFaults_keeps
    | with_reducible apply advanceTo_keeps
    | with_reducible apply releaseFrame_keeps
    | split
    | dsimp only)

theorem execSeqCommandApply_keeps {z s : State} (h : Keeps z s) : KeptBy z (execSeqCommandApply s) := by
  unfold execSeqCommandApply
  repeat' (first
    | with_reducible assumption
    | with_reducible refine KeptBy.next ?_
    | (unfold Keeps; dsimp only; with_reducible refine Keeps.unmk ?_)
    | split)

theorem execRearm_keeps (q : Nat) {z s : State} (h : Keeps z s) : KeptBy z (execRearm q s) := by
  unfold execRearm
  repeat' (first
    | with_reducible assumption
    | with_reducible refine KeptBy.next ?_
    | (unfold Keeps; dsimp only; with_reducible refine Keeps.unmk ?_)
    | split
    | dsimp only)

theorem execPulseEnd_keeps (o : Nat) {z s : State} (h : Keeps z s) : KeptBy z (execPulseEnd o s) := by
  unfold execPulseEnd
  repeat' (first
    | with_reducible assumption
    | with_reducible refine KeptBy.next ?_
    | (unfold Keeps; dsimp only; with_reducible refine Keeps.unmk ?_))

end Sys2Proof.Machine
end

