-- ==== Sys2Proof/Laws/KeepsField.lean ====
section
/-!
SUPPORT. What the field, the barrier, the frame ticks, the start-up and the clocks keep: see Laws/Keeps.lean.
-/
namespace Sys2Proof.Machine

theorem nextFrame_keeps {z s : State} (f : FrameSet) (h : Keeps z s) : Keeps z (nextFrame s f) := by
  unfold nextFrame
  repeat' (first
    | with_reducible assumption
    | (unfold Keeps; dsimp only; with_reducible refine Keeps.unmk ?_))

theorem closeFrame_keeps {z s : State} (h : Keeps z s) : Keeps z (closeFrame s) := by
  unfold closeFrame
  repeat' (first
    | with_reducible assumption
    | with_reducible apply nextFrame_keeps
    | (unfold Keeps; dsimp only; with_reducible refine Keeps.unmk ?_)
    | split)

theorem landZones_keeps {z s : State} (f : FrameSet) (g : Nat) (h : Keeps z s) : Keeps z (landZones s f g) := by
  unfold landZones
  repeat' (first
    | with_reducible assumption
    | with_reducible apply modChan_keeps
    | with_reducible apply Keeps.foldl
    | with_reducible apply Keeps.foldl_fst
    | with_reducible refine fun _ => ?_
    | with_reducible refine fun _ => ?_
    | with_reducible apply Keeps.ite
    | split)

theorem landKind_keeps {z s : State} (g k : Nat) (h : Keeps z s) : Keeps z (landKind s g k) := by
  unfold landKind
  repeat' (first
    | with_reducible assumption
    | with_reducible apply landZones_keeps
    | (unfold Keeps; dsimp only; with_reducible refine Keeps.unmk ?_)
    | with_reducible apply Keeps.ite
    | split)

theorem trigEdge_keeps {z s : State} (i : Nat) (rise : Bool) (offset : Nat) (h : Keeps z s) : Keeps z (trigEdge s i rise offset) := by
  unfold trigEdge
  dsimp only
  repeat' (first
    | with_reducible assumption
    | exact h
    | split)

theorem execTrigInEdge_keeps {z s : State} (i : Nat) (rise : Bool) (offset : Nat) (h : Keeps z s) :
    KeptBy z (execTrigInEdge i rise offset s) := by
  unfold execTrigInEdge
  dsimp only
  split
  · exact .next h
  · split
    · exact .next h
    · split
      · exact .next h
      · exact .next (trigEdge_keeps _ _ _ (advanceTo_keeps _ h))

theorem followInput_keeps {z s : State} (c offset : Nat) (h : Keeps z s) : Keeps z (followInput s c offset) := by
  unfold followInput
  exact modChan_keeps _ _ h

theorem execZoneChange_keeps (c : Nat) (v : Int) (pu fine : Nat) {z s : State} (h : Keeps z s) : KeptBy z (execZoneChange c v pu fine s) := by
  unfold execZoneChange
  dsimp only
  have k : Keeps z { s with field := { s.field with inputs := tput s.field.inputs c v } } := h
  split
  · exact .next (followInput_keeps _ _ k)
  · split
    · exact .next h
    · exact .next (followInput_keeps _ _ (advanceTo_keeps _ k))

theorem followAll_keeps {z s : State} (g : Nat) (h : Keeps z s) : Keeps z (followAll s g) := by
  unfold followAll
  exact Keeps.foldl (fun _ _ h => followInput_keeps _ _ h) _ h

theorem applySettings_keeps {z s : State} (g : Nat) (h : Keeps z s) : Keeps z (applySettings s g) := by
  unfold applySettings
  exact followAll_keeps _ (modGroup_keeps _ _ h)

theorem exchange_keeps {z s : State} (g : Nat) (l : List (Nat × Bytes)) (h : Keeps z s) : Keeps z (exchange s g l) := by
  unfold exchange
  exact emits_keeps _ (modGroup_keeps _ _ h)

theorem sendSettings_keeps {z s : State} (g : Nat) (h : Keeps z s) : Keeps z (sendSettings s g) := by
  unfold sendSettings
  exact applySettings_keeps _ (modGroup_keeps _ _ (exchange_keeps _ _ h))

theorem findAlign_keeps {z s : State} (g : Nat) (d : CalData) (h : Keeps z s) : Keeps z (findAlign s g d) := by
  unfold findAlign
  repeat' (first
    | with_reducible assumption
    | with_reducible apply modGroup_keeps)

theorem applyAlign_keeps {z s : State} (g : Nat) (d : CalData) (h : Keeps z s) : Keeps z (applyAlign s g d) := by
  unfold applyAlign
  repeat' (first
    | with_reducible assumption
    | with_reducible apply exchange_keeps
    | with_reducible apply modGroup_keeps
    | with_reducible apply findAlign_keeps)

theorem realign_keeps {z s : State} (g : Nat) (d : CalData) (h : Keeps z s) : Keeps z (realign s g d) := by
  unfold realign
  repeat' (first
    | with_reducible assumption
    | with_reducible apply modGroup_keeps
    | with_reducible apply applyAlign_keeps)

theorem setTrims_keeps {z s : State} (g : Nat) (t : List (Nat × Nat)) (h : Keeps z s) : Keeps z (setTrims s g t) := by
  unfold setTrims
  repeat' (first
    | with_reducible assumption
    | with_reducible apply exchange_keeps
    | with_reducible apply applySettings_keeps
    | with_reducible apply modGroup_keeps)

theorem islandTemp_keeps {z s : State} (g : Nat) (t : Int) (h : Keeps z s) : Keeps z (islandTemp s g t) := by
  unfold islandTemp
  repeat' (first
    | with_reducible assumption
    | with_reducible apply modGroup_keeps
    | with_reducible apply detect_keeps
    | (unfold Keeps; dsimp only; with_reducible refine Keeps.unmk ?_)
    | split)

theorem recordCal_keeps {z s : State} (g : Nat) (l : List (Nat × Nat)) (d : CalData) (h : Keeps z s) : Keeps z (recordCal s g l d) := by
  unfold recordCal
  exact islandTemp_keeps _ _ (modGroup_keeps (z := z) _ _ h)

theorem applyCal_keeps {z s : State} (g : Nat) (d : CalData) (h : Keeps z s) : Keeps z (applyCal s g d) := by
  unfold applyCal
  repeat' (first
    | with_reducible assumption
    | with_reducible apply setTrims_keeps
    | with_reducible apply exchange_keeps
    | with_reducible apply applyAlign_keeps
    | with_reducible apply recordCal_keeps)

theorem islandPower_keeps {z s : State} (g : Nat) (st : GState) (h : Keeps z s) : Keeps z (islandPower s g st) := by
  unfold islandPower
  repeat' (first
    | with_reducible assumption
    | with_reducible apply modGroup_keeps)

theorem noteFuse_keeps {z s : State} (r : GroupBoot) (h : Keeps z s) : Keeps z (noteFuse s r) := by
  unfold noteFuse
  split
  · exact modGroup_keeps _ _ h
  · exact h

theorem islandUp_keeps {z s : State} (g : Nat) (st : GState) (h : Keeps z s) : Keeps z (islandUp s g st) := by
  unfold islandUp
  exact modGroup_keeps _ _ (sendSettings_keeps _ (exchange_keeps _ _ (islandPower_keeps _ _ h)))

theorem islandReady_keeps {z s : State} (r : GroupBoot) (st : GState) (h : Keeps z s) : Keeps z (islandReady s r st) := by
  unfold islandReady
  repeat' (first
    | with_reducible assumption
    | with_reducible apply applyCal_keeps
    | with_reducible apply islandUp_keeps
    | with_reducible apply modGroup_keeps)

theorem recordUnused_keeps {z s : State} (r : GroupBoot) (h : Keeps z s) : Keeps z (recordUnused s r) := by
  unfold recordUnused
  repeat' (first
    | with_reducible assumption
    | (unfold Keeps; dsimp only; with_reducible refine Keeps.unmk ?_))

theorem islandOff_keeps {z s : State} (g : Nat) (st : GState) (h : Keeps z s) : Keeps z (islandOff s g st) := by
  unfold islandOff
  repeat' (first
    | with_reducible assumption
    | with_reducible apply modGroup_keeps)

theorem islandsOff_keeps {z s : State} (h : Keeps z s) : Keeps z (islandsOff s) := by
  unfold islandsOff
  repeat' (first
    | with_reducible assumption
    | with_reducible apply islandOff_keeps
    | with_reducible apply Keeps.foldl
    | with_reducible apply Keeps.foldl_fst
    | (intro t x ht))

/-- Clearing whole banks keeps the form. -/
theorem clearPool_wf : ∀ (l : List Nat) {m : Mem}, Memory.wf 0 m = true →
    Memory.wf 0 (l.foldl (fun m x => mclear m (x * 2 ^ 20) ((x + 1) * 2 ^ 20)) m) = true
  | [], _, h => h
  | _ :: l, _, h => clearPool_wf l (mclear_wf _ _ h)

theorem clearBind_keeps {z s : State} (h : Keeps z s) : Keeps z (clearBind s) := by
  refine ⟨h.pending, h.out, fun m => ⟨?_, (h.mem m).2⟩, h.flash, h.now⟩
  show Memory.wf 0 (if s.banks.zeroing then
    s.banks.pool.foldl (fun m x => mclear m (x * 2 ^ 20) ((x + 1) * 2 ^ 20)) s.banks.mem else s.banks.mem) = true
  split
  · exact clearPool_wf _ (h.mem m).1
  · exact (h.mem m).1

theorem clearFaults_keeps {z s : State} (h : Keeps z s) : Keeps z (clearFaults s) := by
  unfold clearFaults
  repeat' (first
    | with_reducible assumption
    | (unfold Keeps; dsimp only; with_reducible refine Keeps.unmk ?_))

theorem rebindEnded_keeps {z s : State} (h : Keeps z s) : Keeps z (rebindEnded s) := by
  unfold rebindEnded
  repeat' (first
    | with_reducible assumption
    | with_reducible apply raiseIrq_keeps
    | (unfold Keeps; dsimp only; with_reducible refine Keeps.unmk ?_)
    | split)

theorem bindRefuse_keeps {z s : State} (code detail : Nat) (copy : Option Copy) (h : Keeps z s) : Keeps z (bindRefuse s code detail copy) := by
  unfold bindRefuse
  repeat' (first
    | with_reducible assumption
    | with_reducible apply clearBind_keeps
    | with_reducible apply islandsOff_keeps
    | with_reducible apply rebindEnded_keeps
    | with_reducible apply setState_keeps
    | (unfold Keeps; dsimp only; with_reducible refine Keeps.unmk ?_))

theorem refuseBound_keeps {z s : State} (code detail : Nat) (h : Keeps z s) : Keeps z (refuseBound s code detail) := by
  unfold refuseBound
  repeat' (first
    | with_reducible assumption
    | with_reducible apply bindRefuse_keeps)

theorem crcFault_keeps {z s : State} (g : Nat) (typ seq : Byte) (h : Keeps z s) : Keeps z (crcFault s g typ seq) := by
  unfold crcFault
  repeat' (first
    | with_reducible assumption
    | with_reducible apply detect_keeps
    | with_reducible apply modGroup_keeps)

theorem framingFault_keeps {z s : State} (g : Nat) (typ seq : Byte) (h : Keeps z s) : Keeps z (framingFault s g typ seq) := by
  unfold framingFault
  repeat' (first
    | with_reducible assumption
    | with_reducible apply detect_keeps
    | with_reducible apply modGroup_keeps)

theorem takeForward_keeps {z s : State} (g typ : Nat) (m : Msg) (h : Keeps z s) : Keeps z (takeForward s g typ m).1 := by
  unfold takeForward
  repeat' (first
    | with_reducible assumption
    | with_reducible apply modGroup_keeps
    | with_reducible apply crcFault_keeps
    | with_reducible apply framingFault_keeps
    | split)

theorem takeReverse_keeps {z s : State} (g typ : Nat) (m : Msg) (h : Keeps z s) : Keeps z (takeReverse s g typ m).1 := by
  unfold takeReverse
  repeat' (first
    | with_reducible assumption
    | with_reducible apply emit_keeps
    | with_reducible apply modGroup_keeps
    | with_reducible apply crcFault_keeps
    | with_reducible apply framingFault_keeps
    | split)

theorem sendTile_keeps {z s : State} (g typ : Nat) (payload : Bytes) (h : Keeps z s) : Keeps z (sendTile s g typ payload) := by
  unfold sendTile
  repeat' (first
    | with_reducible assumption
    | with_reducible apply emit_keeps
    | with_reducible apply modGroup_keeps
    | (unfold Keeps; dsimp only; with_reducible refine Keeps.unmk ?_)
    | split)

theorem onForward_keeps {z s : State} (g typ : Nat) (m : Msg) (k : State → State) (hk : ∀ t, Keeps z t → Keeps z (k t)) (h : Keeps z s) : KeptBy z (onForward s g typ m k) := by
  unfold onForward
  repeat' (first
    | with_reducible assumption
    | with_reducible refine KeptBy.next ?_
    | with_reducible apply takeForward_keeps
    | with_reducible apply hk
    | split)

theorem onReverse_keeps {z s : State} (g typ : Nat) (m : Msg) (k : State → State) (hk : ∀ t, Keeps z t → Keeps z (k t)) (h : Keeps z s) : KeptBy z (onReverse s g typ m k) := by
  unfold onReverse
  repeat' (first
    | with_reducible assumption
    | with_reducible refine KeptBy.next ?_
    | with_reducible apply takeReverse_keeps
    | with_reducible apply hk
    | split)

theorem execSamples_keeps (g : Nat) (m : Msg) {z s : State} (h : Keeps z s) : KeptBy z (execSamples g m s) := by
  unfold execSamples
  repeat' (first
    | with_reducible assumption
    | with_reducible refine KeptBy.next ?_
    | with_reducible apply onForward_keeps
    | with_reducible apply landKind_keeps
    | (intro t ht))

theorem execEdges_keeps (g : Nat) (m : Msg) {z s : State} (h : Keeps z s) : KeptBy z (execEdges g m s) := by
  unfold execEdges
  repeat' (first
    | with_reducible assumption
    | with_reducible refine KeptBy.next ?_
    | with_reducible apply onForward_keeps
    | with_reducible apply landKind_keeps
    | (intro t ht))

theorem execStamps_keeps (g : Nat) (m : Msg) {z s : State} (h : Keeps z s) : KeptBy z (execStamps g m s) := by
  unfold execStamps
  repeat' (first
    | with_reducible assumption
    | with_reducible refine KeptBy.next ?_
    | with_reducible apply onForward_keeps
    | with_reducible apply landKind_keeps
    | (intro t ht))

theorem statusTaken_keeps {z s : State} (g : Nat) (d : StatusData) (h : Keeps z s) : Keeps z (statusTaken s g d) := by
  unfold statusTaken
  repeat' (first
    | with_reducible assumption
    | with_reducible apply modGroup_keeps
    | with_reducible apply islandTemp_keeps
    | with_reducible apply detect_keeps
    | (unfold Keeps; dsimp only; with_reducible refine Keeps.unmk ?_)
    | split)

theorem execStatus_keeps (g : Nat) (m : Msg) (d : StatusData) {z s : State} (h : Keeps z s) : KeptBy z (execStatus g m d s) := by
  unfold execStatus
  repeat' (first
    | with_reducible assumption
    | with_reducible refine KeptBy.next ?_
    | with_reducible apply onForward_keeps
    | with_reducible apply statusTaken_keeps
    | (intro t ht))

theorem execEcho_keeps (g : Nat) (m : Msg) (seq : Byte) (crc : BitVec 32) (result : Nat) {z s : State} (h : Keeps z s) : KeptBy z (execEcho g m seq crc result s) := by
  unfold execEcho
  repeat' (first
    | with_reducible assumption
    | with_reducible refine KeptBy.next ?_
    | with_reducible apply onForward_keeps
    | with_reducible apply modGroup_keeps
    | (intro t ht)
    | split)

theorem execEchoTimeout_keeps (g : Nat) {z s : State} (h : Keeps z s) : KeptBy z (execEchoTimeout g s) := by
  unfold execEchoTimeout
  repeat' (first
    | with_reducible assumption
    | with_reducible refine KeptBy.next ?_
    | with_reducible apply framingFault_keeps
    | with_reducible apply modGroup_keeps
    | split)

theorem tileFailure_keeps {z s : State} (g code : Nat) (h : Keeps z s) : Keeps z (tileFailure s g code) := by
  unfold tileFailure
  repeat' (first
    | with_reducible assumption
    | with_reducible apply refuseBound_keeps
    | with_reducible apply detect_keeps
    | split)

theorem toPhase_keeps {z s : State} (g k : Nat) (h : Keeps z s) : Keeps z (toPhase s g k) := modGroup_keeps _ _ h

theorem calFails_keeps {z s : State} (g : Nat) (h : Keeps z s) : Keeps z (calFails s g) := tileFailure_keeps _ _ (modGroup_keeps _ _ h)

theorem alignByMessages_keeps {z s : State} (g : Nat) (d : CalData) (h : Keeps z s) : Keeps z (alignByMessages s g d) := by
  unfold alignByMessages
  repeat' (first
    | with_reducible assumption
    | with_reducible apply toPhase_keeps
    | with_reducible apply sendTile_keeps
    | with_reducible apply findAlign_keeps
    | with_reducible apply Keeps.foldl
    | with_reducible apply Keeps.foldl_fst
    | with_reducible refine fun _ => ?_)

theorem trimByMessages_keeps {z s : State} (g : Nat) (d : CalData) (h : Keeps z s) : Keeps z (trimByMessages s g d) := by
  unfold trimByMessages
  repeat' (first
    | with_reducible assumption
    | with_reducible apply sendTile_keeps
    | with_reducible apply toPhase_keeps
    | with_reducible apply modGroup_keeps
    | with_reducible apply calFails_keeps
    | with_reducible apply Keeps.foldl
    | with_reducible apply Keeps.foldl_fst
    | with_reducible refine fun _ => ?_
    | with_reducible refine fun _ => ?_
    | (unfold Keeps; dsimp only; with_reducible refine Keeps.unmk ?_)
    | with_reducible apply Keeps.ite)

theorem calTaken_keeps {z s : State} (g : Nat) (d : CalData) (h : Keeps z s) : Keeps z (calTaken s g d) := by
  unfold calTaken
  repeat' (first
    | with_reducible assumption
    | with_reducible apply alignByMessages_keeps
    | with_reducible apply trimByMessages_keeps
    | with_reducible apply recordCal_keeps
    | with_reducible apply calFails_keeps
    | with_reducible apply Keeps.ite
    | split)

theorem execCal_keeps (g : Nat) (m : Msg) (d : CalData) {z s : State} (h : Keeps z s) : KeptBy z (execCal g m d s) :=
  onForward_keeps g _ m _ (fun _ k => calTaken_keeps _ _ k) h

theorem execIdent_keeps (g : Nat) (m : Msg) (d : GroupBoot) {z s : State} (h : Keeps z s) : KeptBy z (execIdent g m d s) := by
  unfold execIdent
  repeat' (first
    | with_reducible assumption
    | with_reducible refine KeptBy.next ?_
    | with_reducible apply onForward_keeps
    | with_reducible apply modGroup_keeps
    | with_reducible apply noteFuse_keeps
    | with_reducible apply tileFailure_keeps
    | (intro t ht)
    | (unfold Keeps; dsimp only; with_reducible refine Keeps.unmk ?_)
    | split)

theorem execIdle_keeps {z s : State} (g : Nat) (m : Msg) (h : Keeps z s) : KeptBy z (execIdle g m s) :=
  onForward_keeps g _ m _ (fun _ k => k) h

theorem execLaneLockLoss_keeps (g lane : Nat) {z s : State} (h : Keeps z s) : KeptBy z (execLaneLockLoss g lane s) := by
  unfold execLaneLockLoss
  repeat' (first
    | with_reducible assumption
    | with_reducible refine KeptBy.next ?_
    | with_reducible apply detect_keeps
    | with_reducible apply modGroup_keeps
    | split)

theorem execTick_keeps (g : Nat) (m : Msg) {z s : State} (h : Keeps z s) : KeptBy z (execTick g m s) :=
  onReverse_keeps g _ m _ (fun _ k => applySettings_keeps _ (modGroup_keeps _ _ k)) h

theorem execSetChannel_keeps (g : Nat) (m : Msg) (c : ChanSet) {z s : State} (h : Keeps z s) : KeptBy z (execSetChannel g m c s) := by
  unfold execSetChannel
  repeat' (first
    | with_reducible assumption
    | with_reducible refine KeptBy.next ?_
    | with_reducible apply onReverse_keeps
    | with_reducible apply modGroup_keeps
    | (intro t ht)
    | (unfold Keeps; dsimp only; with_reducible refine Keeps.unmk ?_)
    | split)

theorem execSetRail_keeps (g : Nat) (m : Msg) (rail : Nat) (on : Bool) {z s : State} (h : Keeps z s) : KeptBy z (execSetRail g m rail on s) := by
  unfold execSetRail
  repeat' (first
    | with_reducible assumption
    | with_reducible refine KeptBy.next ?_
    | with_reducible apply onReverse_keeps
    | with_reducible apply modGroup_keeps
    | (intro t ht)
    | (unfold Keeps; dsimp only; with_reducible refine Keeps.unmk ?_)
    | split)

theorem execSetMclk_keeps (g : Nat) (m : Msg) (out div format : Nat) {z s : State} (h : Keeps z s) : KeptBy z (execSetMclk g m out div format s) := by
  unfold execSetMclk
  repeat' (first
    | with_reducible assumption
    | with_reducible refine KeptBy.next ?_
    | with_reducible apply onReverse_keeps
    | with_reducible apply modGroup_keeps
    | (intro t ht)
    | (unfold Keeps; dsimp only; with_reducible refine Keeps.unmk ?_)
    | split)

theorem execSetTrim_keeps (g : Nat) (m : Msg) (chan trim : Nat) {z s : State} (h : Keeps z s) : KeptBy z (execSetTrim g m chan trim s) := by
  unfold execSetTrim
  repeat' (first
    | with_reducible assumption
    | with_reducible refine KeptBy.next ?_
    | with_reducible apply onReverse_keeps
    | with_reducible apply modGroup_keeps
    | (intro t ht)
    | (unfold Keeps; dsimp only; with_reducible refine Keeps.unmk ?_)
    | split)

theorem execPhaseStep_keeps (g : Nat) (m : Msg) {z s : State} (h : Keeps z s) : KeptBy z (execPhaseStep g m s) := by
  unfold execPhaseStep
  repeat' (first
    | with_reducible assumption
    | with_reducible refine KeptBy.next ?_
    | with_reducible apply onReverse_keeps
    | with_reducible apply modGroup_keeps
    | split
    | (intro t ht))

theorem execCalStart_keeps (g : Nat) (m : Msg) (_pulses : Bool) {z s : State} (h : Keeps z s) : KeptBy z (execCalStart g m _pulses s) := by
  unfold execCalStart
  repeat' (first
    | with_reducible assumption
    | with_reducible refine KeptBy.next ?_
    | with_reducible apply onReverse_keeps
    | with_reducible apply modGroup_keeps
    | split
    | (intro t ht))

theorem execSelfTest_keeps (g : Nat) (m : Msg) {z s : State} (h : Keeps z s) : KeptBy z (execSelfTest g m s) := by
  unfold execSelfTest
  repeat' (first
    | with_reducible assumption
    | with_reducible refine KeptBy.next ?_
    | with_reducible apply onReverse_keeps
    | with_reducible apply modGroup_keeps
    | (intro t ht))

theorem execIslandOff_keeps (g : Nat) (m : Msg) {z s : State} (h : Keeps z s) : KeptBy z (execIslandOff g m s) := by
  unfold execIslandOff
  repeat' (first
    | with_reducible assumption
    | with_reducible refine KeptBy.next ?_
    | with_reducible apply onReverse_keeps
    | with_reducible apply islandOff_keeps
    | (intro t ht))

theorem execIdentReq_keeps (g : Nat) (m : Msg) {z s : State} (h : Keeps z s) : KeptBy z (execIdentReq g m s) := by
  unfold execIdentReq
  repeat' (first
    | with_reducible assumption
    | with_reducible refine KeptBy.next ?_
    | with_reducible apply onReverse_keeps
    | with_reducible apply emit_keeps
    | (intro t ht))

theorem execIslandBrownout_keeps (g : Nat) {z s : State} (h : Keeps z s) : KeptBy z (execIslandBrownout g s) := by
  unfold execIslandBrownout
  repeat' (first
    | with_reducible assumption
    | with_reducible refine KeptBy.next ?_
    | with_reducible apply detect_keeps
    | with_reducible apply modGroup_keeps
    | split)

theorem overcurrentSince_keeps {z s : State} (g rail from_ : Nat) (h : Keeps z s) : Keeps z (overcurrentSince s g rail from_) := by
  unfold overcurrentSince
  exact detect_keeps _ _ _ _ (modGroup_keeps _ _ h)

theorem leaveLimit_keeps {z s : State} (g rail : Nat) (l : Nat × Bool) (h : Keeps z s) : Keeps z (leaveLimit s g rail l) := by
  unfold leaveLimit
  dsimp only
  apply modGroup_keeps
  split
  · split
    · exact h
    · exact overcurrentSince_keeps _ _ _ h
  · exact modGroup_keeps _ _ h

theorem execRailCurrentLimit_keeps (g rail : Nat) (enter : Bool) {z s : State} (h : Keeps z s) : KeptBy z (execRailCurrentLimit g rail enter s) := by
  unfold execRailCurrentLimit
  repeat' (first
    | with_reducible assumption
    | with_reducible refine KeptBy.next ?_
    | with_reducible apply leaveLimit_keeps
    | with_reducible apply modGroup_keeps
    | split
    | dsimp only)

theorem execOvercurrent_keeps (g rail : Nat) {z s : State} (h : Keeps z s) : KeptBy z (execOvercurrent g rail s) := by
  unfold execOvercurrent
  repeat' (first
    | with_reducible assumption
    | with_reducible refine KeptBy.next ?_
    | with_reducible apply overcurrentSince_keeps
    | with_reducible apply advanceTo_keeps
    | split)

theorem atTick_keeps {z s t : State} {c : Nat} (e : atTick s c = some t) (h : Keeps z s) : Keeps z t := by
  unfold atTick at e
  split at e
  · cases e
  · split at e
    · cases e
      exact h
    · split at e
      · cases e
        exact advanceTo_keeps _ h
      · cases e

theorem noteSync_keeps {z s : State} (h : Keeps z s) : Keeps z (noteSync s) := by
  unfold noteSync
  repeat' (first
    | with_reducible assumption
    | (unfold Keeps; dsimp only; with_reducible refine Keeps.unmk ?_))

theorem noteFormats_keeps {z s : State} (h : Keeps z s) : Keeps z (noteFormats s) := by
  unfold noteFormats
  repeat' (first
    | with_reducible assumption
    | (unfold Keeps; dsimp only; with_reducible refine Keeps.unmk ?_))

theorem startOutputs_keeps {z s : State} (t : Nat) (h : Keeps z s) : Keeps z (startOutputs s t) := by
  unfold startOutputs
  repeat' (first
    | with_reducible assumption
    | split
    | with_reducible apply noteSync_keeps
    | (unfold Keeps; dsimp only; with_reducible refine Keeps.unmk ?_))

theorem gateOutputs_keeps {z s : State} (h : Keeps z s) : Keeps z (gateOutputs s) := by
  unfold gateOutputs
  repeat' (first
    | with_reducible assumption
    | (unfold Keeps; dsimp only; with_reducible refine Keeps.unmk ?_))

theorem startGrids_keeps {z s : State} (t : Nat) (h : Keeps z s) : Keeps z (startGrids s t) := by
  unfold startGrids
  repeat' (first
    | with_reducible assumption
    | (unfold Keeps; dsimp only; with_reducible refine Keeps.unmk ?_))

theorem knownGrids_keeps {z s : State} (t : Nat) (h : Keeps z s) : Keeps z (knownGrids s t) := h

theorem applyPrefs_keeps {z s : State} (h : Keeps z s) : Keeps z (applyPrefs s) := by
  unfold applyPrefs
  repeat' (first
    | with_reducible assumption
    | with_reducible apply complete_keeps
    | with_reducible apply Keeps.foldl
    | with_reducible apply Keeps.foldl_fst
    | (intro t x ht)
    | (unfold Keeps; dsimp only; with_reducible refine Keeps.unmk ?_))

theorem sendMclk_keeps {z s : State} (n : Nat) (h : Keeps z s) : Keeps z (sendMclk s n) := by
  unfold sendMclk
  repeat' (first
    | with_reducible assumption
    | with_reducible apply sendTile_keeps
    | with_reducible apply Keeps.foldl
    | with_reducible apply Keeps.foldl_fst
    | (intro t x ht)
    | split)

theorem joinGroups_keeps {z s : State} (n : Nat) (h : Keeps z s) : Keeps z (joinGroups s n) := by
  unfold joinGroups
  repeat' (first
    | with_reducible assumption
    | (unfold Keeps; dsimp only; with_reducible refine Keeps.unmk ?_))

theorem dueRings_keeps {z s : State} (h : Keeps z s) : Keeps z (dueRings s) := by
  unfold dueRings
  repeat' (first
    | with_reducible assumption
    | (unfold Keeps; dsimp only; with_reducible refine Keeps.unmk ?_))

theorem closeRounds_keeps {z s : State} (h : Keeps z s) : Keeps z (closeRounds s) := by
  unfold closeRounds
  repeat' (first
    | with_reducible assumption
    | (unfold Keeps; dsimp only; with_reducible refine Keeps.unmk ?_))

/-- The timeline of a tick leaves TIME_RAW and its wrap count alone. -/
theorem anchorSeg_now (t : Time) (p : Postmark) (q rho : Int) (d : Option Nat) :
    (anchorSeg t p q rho d).raw = t.raw ∧ (anchorSeg t p q rho d).wraps = t.wraps := by
  unfold anchorSeg
  repeat' (first
    | split
    | exact ⟨rfl, rfl⟩)

theorem stepSeg_now (t : Time) (p : Postmark) (n : FrameNo) (a b r : Int) (x : Nat) :
    (stepSeg t p n a b r x).raw = t.raw ∧ (stepSeg t p n a b r x).wraps = t.wraps := by
  unfold stepSeg
  repeat' (first
    | split
    | exact ⟨rfl, rfl⟩)

theorem traceTick_now (f : Folio) (p : Postmark) (n : FrameNo) (now : Int) (was : Option Nat) (x : Nat) (t : Time) :
    (traceTick f p n now was x t).raw = t.raw ∧ (traceTick f p n now was x t).wraps = t.wraps := by
  unfold traceTick
  dsimp only
  split
  · exact stepSeg_now _ _ _ _ _ _ _
  · exact anchorSeg_now _ _ _ _ _

theorem coastTick_now (f : Folio) (tick : Nat) (active : Option Nat) (t : Time) :
    (coastTick f tick active t).raw = t.raw ∧ (coastTick f tick active t).wraps = t.wraps := by
  unfold coastTick
  repeat' (first
    | split
    | exact ⟨rfl, rfl⟩)

theorem noteUntraced_now (n : FrameNo) (t : Time) :
    (noteUntraced n t).raw = t.raw ∧ (noteUntraced n t).wraps = t.wraps := by
  unfold noteUntraced
  split <;> exact ⟨rfl, rfl⟩

theorem keepPref_now (f : Folio) (t : Time) : (keepPref f t).raw = t.raw ∧ (keepPref f t).wraps = t.wraps := by
  unfold keepPref
  repeat' (first
    | split
    | exact ⟨rfl, rfl⟩)

theorem phasesTaken_now (t : Time) : (phasesTaken t).raw = t.raw ∧ (phasesTaken t).wraps = t.wraps := ⟨rfl, rfl⟩

theorem tickTimeline_now (f : Folio) (tick : Nat) (n : FrameNo) (t : Time) :
    (tickTimeline f tick n t).raw = t.raw ∧ (tickTimeline f tick n t).wraps = t.wraps := by
  have a : ∀ (u v w : Time), u.raw = v.raw ∧ u.wraps = v.wraps → v.raw = w.raw ∧ v.wraps = w.wraps →
      u.raw = w.raw ∧ u.wraps = w.wraps := fun u v w h k => ⟨h.1.trans k.1, h.2.trans k.2⟩
  have k := keepPref_now f { t with domA := t.domA.heardUntil tick, domB := t.domB.heardUntil tick }
  unfold tickTimeline
  dsimp only
  split
  · exact ⟨rfl, rfl⟩
  · refine a _ _ _ (phasesTaken_now _) ?_
    repeat' (first
      | exact a _ _ _ (traceTick_now _ _ _ _ _ _ _) k
      | exact (a _ _ _ (noteUntraced_now _ _) (a _ _ _ (anchorSeg_now _ _ _ _ _) (a _ _ _ (coastTick_now f tick _ _) k)))
      | split)

theorem quietPps_keeps {z s : State} (h : Keeps z s) : Keeps z (quietPps s) := by
  unfold quietPps
  split
  · exact h
  · exact h

theorem stampTick_keeps {z s : State} (n t : Nat) (h : Keeps z s) : Keeps z (stampTick s n t) := by
  refine quietPps_keeps ⟨h.pending, h.out, h.mem, h.flash, ?_⟩
  have k := tickTimeline_now s.cfg t (frameNo n) (forgetFrame (frameNo n) s.time)
  show z.now ≤ (tickTimeline s.cfg t (frameNo n) (forgetFrame (frameNo n) s.time)).wraps * rawPeriod +
    (tickTimeline s.cfg t (frameNo n) (forgetFrame (frameNo n) s.time)).raw.toNat
  rw [k.1, k.2]
  exact h.now

theorem announceTick_keeps {z s : State} (n : Nat) (h : Keeps z s) : Keeps z (announceTick s n) := by
  unfold announceTick
  repeat' (first
    | with_reducible assumption
    | with_reducible apply sendTile_keeps
    | with_reducible apply emit_keeps
    | with_reducible apply dueRings_keeps
    | with_reducible apply closeRounds_keeps
    | with_reducible apply sendMclk_keeps
    | with_reducible apply Keeps.foldl
    | with_reducible apply Keeps.foldl_fst
    | (intro t x ht)
    | split)

theorem beginFrame_keeps {z s : State} (n t : Nat) (h : Keeps z s) : Keeps z (beginFrame s n t) := by
  unfold beginFrame
  repeat' (first
    | with_reducible assumption
    | with_reducible apply joinGroups_keeps
    | (unfold Keeps; dsimp only; with_reducible refine Keeps.unmk ?_))

theorem execTimeRawWrap_keeps {z s : State} (h : Keeps z s) : KeptBy z (execTimeRawWrap s) := by
  unfold execTimeRawWrap
  repeat' (first
    | with_reducible assumption
    | with_reducible refine KeptBy.next ?_
    | with_reducible apply advanceTo_keeps
    | split
    | dsimp only)

theorem execCoastingEnd_keeps {z s : State} (h : Keeps z s) : KeptBy z (execCoastingEnd s) := by
  unfold execCoastingEnd
  split
  · rename_i e _
    have k := advanceTo_keeps e h
    split
    · obtain ⟨u, hu⟩ : ∃ u, u = advanceTo s e := ⟨_, rfl⟩
      rw [← hu] at k ⊢
      exact .next (quietPps_keeps k)
    · exact .next h
  · exact .next h

theorem beginArming_keeps {z s : State} (c : Nat) (h : Keeps z s) : Keeps z (beginArming s c) := by
  unfold beginArming
  repeat' (first
    | with_reducible assumption
    | with_reducible apply setState_keeps
    | (unfold Keeps; dsimp only; with_reducible refine Keeps.unmk ?_))

theorem execArmingEntry_keeps {z s : State} (h : Keeps z s) : KeptBy z (execArmingEntry s) := by
  unfold execArmingEntry
  repeat' (first
    | with_reducible assumption
    | with_reducible refine KeptBy.next ?_
    | with_reducible apply beginArming_keeps
    | with_reducible refine atTick_keeps (by assumption) ?_
    | split
    | dsimp only)

theorem beginRunning_keeps {z s : State} (c : Nat) (h : Keeps z s) : Keeps z (beginRunning s c) := by
  unfold beginRunning
  repeat' (first
    | with_reducible assumption
    | with_reducible apply setState_keeps
    | (unfold Keeps; dsimp only; with_reducible refine Keeps.unmk ?_))

theorem execRunningEntry_keeps {z s : State} (h : Keeps z s) : KeptBy z (execRunningEntry s) := by
  unfold execRunningEntry
  repeat' (first
    | with_reducible assumption
    | with_reducible refine KeptBy.next ?_
    | with_reducible apply beginRunning_keeps
    | with_reducible refine atTick_keeps (by assumption) ?_
    | split
    | dsimp only)

theorem installPlacement_keeps {z s : State} (f : Folio) (p : Placed) (h : Keeps z s) : Keeps z (installPlacement s f p) := by
  unfold installPlacement
  repeat' (first
    | with_reducible assumption
    | with_reducible apply Keeps.foldl
    | with_reducible apply Keeps.foldl_fst
    | (intro t x ht)
    | (unfold Keeps; dsimp only; with_reducible refine Keeps.unmk ?_))

theorem noteStore_keeps (before : State) {z s : State} (h : Keeps z s) : Keeps z (noteStore before s) := by
  unfold noteStore
  repeat' (first
    | with_reducible assumption
    | with_reducible apply storeFault_keeps
    | split)

theorem storeCheck_keeps {z s : State} (h : Keeps z s) : Keeps z (storeCheck s) := by
  unfold storeCheck
  repeat' (first
    | with_reducible assumption
    | with_reducible apply noteStore_keeps
    | with_reducible apply rollForward_keeps
    | with_reducible apply storeFault_keeps
    | (unfold Keeps; dsimp only; with_reducible refine Keeps.unmk ?_)
    | split)

theorem countStart_keeps {z s : State} (code : Nat) (h : Keeps z s) : Keeps z (countStart s code) := by
  unfold countStart
  repeat' (first
    | with_reducible assumption
    | with_reducible apply storeAdd_keeps
    | with_reducible apply noteStore_keeps
    | (unfold Keeps; dsimp only; with_reducible refine Keeps.unmk ?_)
    | split)

theorem frankFirmware_change_keeps {z s : State} (version : Nat) (hash : Bytes) (h : Keeps z s) :
    Keeps z (frankFirmware.change s version hash).1 := by
  have fin : ∀ {u : State}, Keeps z u → Keeps z { u with franking := { u.franking with fwPartial := none } } := fun hu => hu
  unfold frankFirmware.change
  exact fin (frank_keeps 5 s.strictNow false (hash.take 8) 0 { fw := some (version, hash) } h)

theorem frankFirmware_keeps {z s : State} (version : Nat) (hash : Bytes) (h : Keeps z s) :
    Keeps z (frankFirmware s version hash).1 := by
  have fin : ∀ {u : State} (d : Option Bytes), Keeps z u → Keeps z { u with franking := { u.franking with fwPartial := d } } :=
    fun _ hu => hu
  unfold frankFirmware
  split
  · exact h
  · dsimp only
    split
    · exact fin _ (noteStore_keeps _ (writePage_keeps _ h))
    · exact frankFirmware_change_keeps _ _ h
  · split
    · exact h
    · exact frankFirmware_change_keeps _ _ h

theorem bindEvts_keeps {z s : State} (h : Keeps z s) : Keeps z (bindEvts s) := by
  unfold bindEvts
  repeat' (first
    | with_reducible assumption
    | with_reducible apply safeEvts_keeps
    | (unfold Keeps; dsimp only; with_reducible refine Keeps.unmk ?_))

theorem bindTime_keeps {z s : State} (old : Option Folio) (f : Folio) (h : Keeps z s) : Keeps z (bindTime s old f) := by
  unfold bindTime
  repeat' (first
    | with_reducible assumption
    | (unfold Keeps; dsimp only; with_reducible refine Keeps.unmk ?_))

theorem clockRefusal_keeps {z s : State} (idx code detail : Nat) (h : Keeps z s) : Keeps z (clockRefusal s idx code detail) := by
  unfold clockRefusal
  repeat' (first
    | with_reducible assumption
    | with_reducible apply noteStore_keeps
    | with_reducible apply storeAdd_keeps
    | with_reducible apply refuseBound_keeps
    | with_reducible refine fun _ => ?_
    | (unfold Keeps; dsimp only; with_reducible refine Keeps.unmk ?_))

theorem dropS_keeps {z s : State} (h : Keeps z s) : Keeps z (dropS s) := by
  have k : ∀ u : State, Keeps z u → Keeps z { u with clocks := { u.clocks with pllS := u.clocks.pllS.lose } } := fun _ h => h
  exact noteSync_keeps (k _ (gateOutputs_keeps (holdCount_keeps h)))

theorem dropC_keeps {z s : State} (h : Keeps z s) : Keeps z (dropC s) := h

theorem dropM_keeps {z s : State} (h : Keeps z s) : Keeps z (dropM s) := h

theorem oscLost_keeps {z s : State} (h : Keeps z s) : Keeps z (oscLost s) := by
  unfold oscLost
  have a : Keeps z (if (s.clocks.pllS.lock && !s.clocks.refSel) = true then dropS s else s) := Keeps.choose (dropS_keeps h) h
  generalize (if (s.clocks.pllS.lock && !s.clocks.refSel) = true then dropS s else s) = u at a
  exact a

theorem loseBinding_keeps {z s : State} (k : Nat) (h : Keeps z s) : Keeps z (loseBinding s k) := by
  unfold loseBinding
  refine clockRefusal_keeps _ _ _ ?_
  have a : Keeps z (if k = 3 then oscLost s else s) := Keeps.choose (oscLost_keeps h) h
  generalize (if k = 3 then oscLost s else s) = u at a
  have b : Keeps z (if (decide (k ≠ 2) && u.clocks.pllC.lock) = true then dropC u else u) := Keeps.choose a a
  generalize (if (decide (k ≠ 2) && u.clocks.pllC.lock) = true then dropC u else u) = v at b
  exact Keeps.choose b b

theorem beginTicks_keeps {z s : State} (h : Keeps z s) : Keeps z (beginTicks s) := by
  unfold beginTicks
  dsimp only
  repeat' (first
    | with_reducible assumption
    | with_reducible apply knownGrids_keeps
    | (unfold Keeps; dsimp only; with_reducible refine Keeps.unmk ?_))

theorem discoveryDone_keeps {z s : State} (h : Keeps z s) : Keeps z (discoveryDone s) := by
  unfold discoveryDone
  repeat' (first
    | with_reducible assumption
    | (unfold Keeps; dsimp only; with_reducible refine Keeps.unmk ?_)
    | split)

theorem becomeLeader_keeps {z s : State} (h : Keeps z s) : Keeps z (becomeLeader s) := by
  unfold becomeLeader
  repeat' (first
    | with_reducible assumption
    | with_reducible apply emit_keeps
    | with_reducible apply beginTicks_keeps
    | with_reducible apply discoveryDone_keeps
    | with_reducible apply refuseBound_keeps
    | (unfold Keeps; dsimp only; with_reducible refine Keeps.unmk ?_)
    | split)

theorem afterLock_keeps {z s : State} (h : Keeps z s) : Keeps z (afterLock s) := by
  unfold afterLock
  repeat' (first
    | with_reducible assumption
    | with_reducible apply noteFormats_keeps
    | with_reducible apply beginTicks_keeps
    | with_reducible apply becomeLeader_keeps
    | with_reducible apply refuseBound_keeps
    | (unfold Keeps; dsimp only; with_reducible refine Keeps.unmk ?_)
    | split)

theorem lockS_keeps {z s : State} (h : Keeps z s) : Keeps z (lockS s) := by
  unfold lockS
  repeat' (first
    | with_reducible assumption
    | with_reducible apply noteSync_keeps
    | with_reducible apply takeFree_keeps
    | (unfold Keeps; dsimp only; with_reducible refine Keeps.unmk ?_))

theorem lockC_keeps {z s : State} (h : Keeps z s) : Keeps z (lockC s) := by
  unfold lockC
  repeat' (first
    | with_reducible assumption
    | with_reducible apply takeFree_keeps
    | (unfold Keeps; dsimp only; with_reducible refine Keeps.unmk ?_))

theorem lockM_keeps {z s : State} (h : Keeps z s) : Keeps z (lockM s) := by
  unfold lockM
  repeat' (first
    | with_reducible assumption
    | with_reducible apply takeFree_keeps
    | (unfold Keeps; dsimp only; with_reducible refine Keeps.unmk ?_))

theorem tryLockS_keeps {z s : State} (locks : Bool) (h : Keeps z s) : Keeps z (tryLockS s locks) := by
  unfold tryLockS
  repeat' (first
    | with_reducible assumption
    | with_reducible apply gateOutputs_keeps
    | with_reducible apply holdCount_keeps
    | with_reducible apply afterLock_keeps
    | with_reducible apply lockS_keeps
    | with_reducible apply refuseBound_keeps
    | (unfold Keeps; dsimp only; with_reducible refine Keeps.unmk ?_)
    | split)

theorem judgeRef_keeps {z s : State} (h : Keeps z s) : Keeps z (judgeRef s) := by
  unfold judgeRef
  repeat' (first
    | with_reducible assumption
    | (unfold Keeps; dsimp only; with_reducible refine Keeps.unmk ?_))

theorem step8_keeps {z s : State} (locks : Bool) (h : Keeps z s) : Keeps z (step8 s locks) := by
  unfold step8
  repeat' (first
    | with_reducible assumption
    | with_reducible apply noteFormats_keeps
    | with_reducible apply afterLock_keeps
    | with_reducible apply noteSync_keeps
    | with_reducible apply tryLockS_keeps
    | (unfold Keeps; dsimp only; with_reducible refine Keeps.unmk ?_)
    | with_reducible apply Keeps.ite)

theorem enterBound_keeps {z s : State} (c : Copy) (img : Bytes) (f : Folio) (pl : Placed) (old : Option Folio) (env : BootEnv) (h : Keeps z s) : Keeps z (enterBound s c img f pl old env) := by
  unfold enterBound
  repeat' (first
    | with_reducible assumption
    | with_reducible apply noteStore_keeps
    | with_reducible apply storeAdd_keeps
    | with_reducible apply bindTime_keeps
    | with_reducible apply bindEvts_keeps
    | with_reducible apply installPlacement_keeps
    | with_reducible apply judgeRef_keeps
    | with_reducible apply step8_keeps
    | with_reducible apply rebindEnded_keeps
    | with_reducible apply setState_keeps
    | (unfold Keeps; dsimp only; with_reducible refine Keeps.unmk ?_))

theorem afterLoss_keeps {z s : State} (env : BootEnv) (k : State → State) (hk : ∀ t, Keeps z t → Keeps z (k t)) (h : Keeps z s) :
    Keeps z (afterLoss s env k) := by
  unfold afterLoss
  split
  · exact loseBinding_keeps _ h
  · exact hk _ h

theorem bindChecks_keeps {z s : State} (c : Copy) (img : Bytes) (f : Folio) (old : Option Folio) (env : BootEnv) (h : Keeps z s) : Keeps z (bindChecks s c img f old env) := by
  unfold bindChecks
  repeat' (first
    | with_reducible assumption
    | with_reducible apply bindRefuse_keeps
    | with_reducible apply frank_keeps
    | with_reducible apply enterBound_keeps
    | with_reducible apply loseBinding_keeps
    | (unfold Keeps; dsimp only; with_reducible refine Keeps.unmk ?_)
    | split)

theorem beginChecks_keeps {z s : State} (env : BootEnv) (sealLow : Bool) (errA errB : Nat) (found : Option Copy) (h : Keeps z s) : Keeps z (beginChecks s env sealLow errA errB found) := by
  unfold beginChecks
  repeat' (first
    | with_reducible assumption
    | with_reducible apply flushPba_keeps
    | with_reducible apply clearFaults_keeps
    | with_reducible apply clearBind_keeps
    | with_reducible apply islandsOff_keeps
    | with_reducible apply lockM_keeps
    | (unfold Keeps; dsimp only; with_reducible refine Keeps.unmk ?_)
    | split)

theorem bindFromFlash_keeps {z s : State} (env : BootEnv) (h : Keeps z s) : Keeps z (bindFromFlash s env) := by
  unfold bindFromFlash
  repeat' (first
    | with_reducible assumption
    | with_reducible apply bindRefuse_keeps
    | with_reducible apply beginChecks_keeps
    | with_reducible apply bindChecks_keeps
    | with_reducible apply afterLoss_keeps
    | (intro t ht)
    | (unfold Keeps; dsimp only; with_reducible refine Keeps.unmk ?_)
    | split)

theorem offlineSeal_keeps {z s : State} (h : Keeps z s) : Keeps z (offlineSeal s) := by
  have fin : ∀ {u : State} (b : Bool), Keeps z u → Keeps z { u with franking := { u.franking with sealOpen := b } } := fun _ hu => hu
  unfold offlineSeal
  dsimp only
  split
  · exact fin _ h
  · exact frankSeal_keeps _ _ (fin _ h)

theorem firmwareOn_keeps {z s : State} (v : Nat) (b : Bytes) (env : BootEnv) (h : Keeps z s) : Keeps z (firmwareOn s v b env) := by
  have k := offlineSeal_keeps (frankFirmware_keeps v b h)
  have fin : ∀ {u : State}, Keeps z u → Keeps z { u with faults := { u.faults with fwUnfranked := true } } := fun hu => hu
  unfold firmwareOn
  dsimp only
  split
  · exact bindFromFlash_keeps env k
  · exact bindRefuse_keeps _ _ _ (fin k)

theorem step5_keeps {z s : State} (env : BootEnv) (h : Keeps z s) : Keeps z (step5 s env) := by
  unfold step5
  dsimp only
  split
  · exact h
  · exact firmwareOn_keeps _ _ env h

theorem startUp_keeps {z s : State} (code : Nat) (env : BootEnv) (h : Keeps z s) : Keeps z (startUp s code env) := by
  have fin : ∀ {u : State}, Keeps z u → Keeps z { u with franking := { u.franking with failing := 0 } } := fun hu => hu
  unfold startUp
  exact fin (step5_keeps env (advanceTo_keeps _ (lockC_keeps (countStart_keeps _ (storeCheck_keeps h)))))

theorem powerOn_keeps {z s : State} (h : Keeps z s) : Keeps z (powerOn s) := h

theorem execPowerGood_keeps (env : BootEnv) {z s : State} (h : Keeps z s) : KeptBy z (execPowerGood env s) := by
  unfold execPowerGood
  repeat' (first
    | with_reducible assumption
    | with_reducible refine KeptBy.next ?_
    | with_reducible apply startUp_keeps
    | with_reducible apply powerOn_keeps
    | with_reducible refine fun _ => ?_
    | (unfold Keeps; dsimp only; with_reducible refine Keeps.unmk ?_)
    | with_reducible apply KeptBy.ite)

theorem execModResetRelease_keeps (env : BootEnv) {z s : State} (h : Keeps z s) : KeptBy z (execModResetRelease env s) := by
  unfold execModResetRelease
  repeat' (first
    | with_reducible assumption
    | with_reducible refine KeptBy.next ?_
    | with_reducible apply startUp_keeps
    | (unfold Keeps; dsimp only; with_reducible refine Keeps.unmk ?_)
    | split)

theorem execRailOutOfTolerance_keeps (rail : Nat) {z s : State} (h : Keeps z s) : KeptBy z (execRailOutOfTolerance rail s) := by
  unfold execRailOutOfTolerance
  dsimp only
  repeat' (first
    | with_reducible assumption
    | with_reducible refine KeptBy.next ?_
    | (unfold Keeps; dsimp only; with_reducible refine Keeps.unmk ?_)
    | split)

theorem execThermalRestart_keeps (env : BootEnv) {z s : State} (h : Keeps z s) : KeptBy z (execThermalRestart env s) := by
  unfold execThermalRestart
  dsimp only
  repeat' (first
    | with_reducible assumption
    | with_reducible refine KeptBy.next ?_
    | with_reducible apply startUp_keeps
    | with_reducible apply powerOn_keeps
    | (unfold Keeps; dsimp only; with_reducible refine Keeps.unmk ?_)
    | split)

theorem refWaitOver_keeps {z s : State} (h : Keeps z s) : Keeps z (refWaitOver s) := by
  unfold refWaitOver
  repeat' (first
    | with_reducible assumption
    | with_reducible apply refuseBound_keeps
    | (unfold Keeps; dsimp only; with_reducible refine Keeps.unmk ?_))

theorem execRefInPresent_keeps (locks : Bool) {z s : State} (h : Keeps z s) : KeptBy z (execRefInPresent locks s) := by
  unfold execRefInPresent
  repeat' (first
    | with_reducible assumption
    | with_reducible refine KeptBy.next ?_
    | with_reducible apply refWaitOver_keeps
    | with_reducible apply tryLockS_keeps
    | with_reducible refine fun _ => ?_
    | (unfold Keeps; dsimp only; with_reducible refine Keeps.unmk ?_)
    | with_reducible apply KeptBy.ite
    | with_reducible apply Keeps.ite)

theorem execRefWaitExpiry_keeps {z s : State} (h : Keeps z s) : KeptBy z (execRefWaitExpiry s) := by
  unfold execRefWaitExpiry
  split
  · rename_i t _
    have k := advanceTo_keeps t h
    split
    · dsimp only
      obtain ⟨u, hu⟩ : ∃ u, u = advanceTo s t := ⟨_, rfl⟩
      rw [← hu] at k ⊢
      exact .next (refuseBound_keeps _ _ k)
    · exact .next h
  · exact .next h

theorem waveUp_keeps {z s : State} (r : GroupBoot) (h : Keeps z s) : Keeps z (waveUp s r) := by
  unfold waveUp
  repeat' (first
    | with_reducible assumption
    | with_reducible apply islandUp_keeps
    | with_reducible apply recordUnused_keeps)

theorem deskewAll_keeps {z : State} : ∀ {s : State} (l : List (Nat × CalData)), Keeps z s → Keeps z (deskewAll s l).1
  | _, [], h => h
  | s, (g, d) :: l, h => by
    unfold deskewAll
    split
    · exact deskewAll_keeps l (applyCal_keeps g d h)
    · exact h

theorem execIslandPowerWave_keeps {z s : State} (k : Nat) (res : List GroupBoot) (h : Keeps z s) :
    KeptBy z (execIslandPowerWave k res s) := by
  have w : Keeps z (res.foldl waveUp s) := Keeps.foldl (fun t x ht => waveUp_keeps x ht) res h
  unfold execIslandPowerWave
  dsimp only
  split
  · exact .next h
  · split
    · exact .next (refuseBound_keeps _ _ (Keeps.foldl (fun _ x ht => noteFuse_keeps x ht) res h))
    · generalize res.foldl waveUp s = u at w ⊢
      split
      · exact .next w
      · generalize he : deskewAll _ _ = p
        have d : Keeps z p.1 := he ▸ deskewAll_keeps _ w
        split
        · exact .next (refuseBound_keeps _ _ d)
        · exact .next (discoveryDone_keeps d)

theorem execLeaderChoiceTimeout_keeps {z s : State} (h : Keeps z s) : KeptBy z (execLeaderChoiceTimeout s) := by
  unfold execLeaderChoiceTimeout
  repeat' (first
    | with_reducible assumption
    | with_reducible refine KeptBy.next ?_
    | with_reducible apply becomeLeader_keeps
    | split)

theorem execPositionToken_keeps (p : Nat) {z s : State} (h : Keeps z s) : KeptBy z (execPositionToken p s) := by
  unfold execPositionToken
  repeat' (first
    | with_reducible assumption
    | with_reducible refine KeptBy.next ?_
    | with_reducible apply emit_keeps
    | with_reducible apply refuseBound_keeps
    | with_reducible apply discoveryDone_keeps
    | (unfold Keeps; dsimp only; with_reducible refine Keeps.unmk ?_)
    | split)

theorem execChainTokenTimeout_keeps {z s : State} (h : Keeps z s) : KeptBy z (execChainTokenTimeout s) := by
  unfold execChainTokenTimeout
  repeat' (first
    | with_reducible assumption
    | with_reducible refine KeptBy.next ?_
    | with_reducible apply refuseBound_keeps
    | split)

theorem cancelSwitches_keeps {z s : State} (h : Keeps z s) : Keeps z (cancelSwitches s) := by
  unfold cancelSwitches
  repeat' (first
    | with_reducible assumption
    | with_reducible apply complete_keeps
    | with_reducible apply Keeps.foldl
    | with_reducible apply Keeps.foldl_fst
    | (intro t x ht)
    | (unfold Keeps; dsimp only; with_reducible refine Keeps.unmk ?_))

theorem enterHold_keeps {z s : State} (src from_ : Nat) (h : Keeps z s) : Keeps z (enterHold s src from_) := by
  unfold enterHold
  repeat' (first
    | with_reducible assumption
    | with_reducible apply safeEvts_keeps
    | with_reducible apply setState_keeps
    | (unfold Keeps; dsimp only; with_reducible refine Keeps.unmk ?_))

theorem spoilFrames_keeps {z s : State} (c : Nat) (h : Keeps z s) : Keeps z (spoilFrames s c) := by
  unfold spoilFrames
  repeat' (first
    | with_reducible assumption
    | (unfold Keeps; dsimp only; with_reducible refine Keeps.unmk ?_))

theorem groupsLose_keeps {z s : State} (h : Keeps z s) : Keeps z (groupsLose s) := by
  unfold groupsLose
  repeat' (first
    | with_reducible assumption
    | (unfold Keeps; dsimp only; with_reducible refine Keeps.unmk ?_))

theorem clockFault_keeps {z s : State} (idx detail more : Nat) (h : Keeps z s) : Keeps z (clockFault s idx detail more) := by
  unfold clockFault
  repeat' (first
    | with_reducible assumption
    | with_reducible apply fenceUnit_keeps
    | (intro t ht)
    | split)

theorem loseS_keeps {z s : State} (detail : Nat) (own : Bool) (h : Keeps z s) : Keeps z (loseS s detail own) := by
  unfold loseS
  repeat' (first
    | with_reducible assumption
    | with_reducible apply groupsLose_keeps
    | with_reducible apply cancelSwitches_keeps
    | with_reducible apply gateOutputs_keeps
    | with_reducible apply enterHold_keeps
    | with_reducible apply spoilFrames_keeps
    | with_reducible apply clockFault_keeps
    | with_reducible apply clockRefusal_keeps
    | with_reducible apply dropS_keeps
    | split
    | dsimp only)

theorem loseC_keeps {z s : State} (own : Bool) (h : Keeps z s) : Keeps z (loseC s own) := by
  unfold loseC
  repeat' (first
    | with_reducible assumption
    | with_reducible apply cancelSwitches_keeps
    | with_reducible apply spoilFrames_keeps
    | with_reducible apply enterHold_keeps
    | with_reducible apply clockFault_keeps
    | with_reducible apply clockRefusal_keeps
    | with_reducible apply dropC_keeps
    | split
    | dsimp only)

theorem notPassed_keeps {z s : State} (u : FUnit) (h : Keeps z s) : Keeps z (notPassed s u) := h

theorem loseM_keeps {z s : State} (own : Bool) (h : Keeps z s) : Keeps z (loseM s own) := by
  unfold loseM
  repeat' (first
    | with_reducible assumption
    | with_reducible apply detect_keeps
    | with_reducible apply clockFault_keeps
    | with_reducible apply clockRefusal_keeps
    | with_reducible apply dropM_keeps
    | with_reducible apply notPassed_keeps
    | split
    | dsimp only)

theorem execPllSLossOfLock_keeps {z s : State} (h : Keeps z s) : KeptBy z (execPllSLossOfLock s) := by
  unfold execPllSLossOfLock
  repeat' (first
    | with_reducible assumption
    | with_reducible refine KeptBy.next ?_
    | with_reducible apply loseS_keeps
    | split)

theorem execRefInLost_keeps {z s : State} (h : Keeps z s) : KeptBy z (execRefInLost s) := by
  unfold execRefInLost
  repeat' (first
    | with_reducible assumption
    | with_reducible refine KeptBy.next ?_
    | with_reducible apply loseS_keeps
    | (unfold Keeps; dsimp only; with_reducible refine Keeps.unmk ?_)
    | split)

theorem execPllCLossOfLock_keeps {z s : State} (h : Keeps z s) : KeptBy z (execPllCLossOfLock s) := by
  unfold execPllCLossOfLock
  repeat' (first
    | with_reducible assumption
    | with_reducible refine KeptBy.next ?_
    | with_reducible apply loseC_keeps
    | split)

theorem execPllMLossOfLock_keeps {z s : State} (h : Keeps z s) : KeptBy z (execPllMLossOfLock s) := by
  unfold execPllMLossOfLock
  repeat' (first
    | with_reducible assumption
    | with_reducible refine KeptBy.next ?_
    | with_reducible apply loseM_keeps
    | split)

theorem execPllFLossOfLock_keeps (g : Nat) {z s : State} (h : Keeps z s) : KeptBy z (execPllFLossOfLock g s) := by
  unfold execPllFLossOfLock
  repeat' (first
    | with_reducible assumption
    | with_reducible refine KeptBy.next ?_
    | with_reducible apply detect_keeps
    | with_reducible apply modGroup_keeps
    | split)

theorem execOscillatorFailure_keeps {z s : State} (h : Keeps z s) : KeptBy z (execOscillatorFailure s) := by
  unfold execOscillatorFailure
  repeat' (first
    | with_reducible assumption
    | with_reducible refine KeptBy.next ?_
    | with_reducible apply loseS_keeps
    | with_reducible apply loseC_keeps
    | with_reducible apply loseM_keeps
    | with_reducible apply clockFault_keeps
    | with_reducible apply clockRefusal_keeps
    | (unfold Keeps; dsimp only; with_reducible refine Keeps.unmk ?_)
    | split)

theorem execPllSRelock_keeps (band : Nat) {z s : State} (h : Keeps z s) : KeptBy z (execPllSRelock band s) := by
  unfold execPllSRelock
  repeat' (first
    | with_reducible assumption
    | with_reducible refine KeptBy.next ?_
    | with_reducible apply noteSync_keeps
    | with_reducible refine fun _ => ?_
    | (unfold Keeps; dsimp only; with_reducible refine Keeps.unmk ?_)
    | with_reducible apply KeptBy.ite)

theorem execPllCRelock_keeps (band : Nat) (env : BootEnv) {z s : State} (h : Keeps z s) : KeptBy z (execPllCRelock band env s) := by
  unfold execPllCRelock
  repeat' (first
    | with_reducible assumption
    | with_reducible refine KeptBy.next ?_
    | with_reducible apply step5_keeps
    | with_reducible apply resumeIssue_keeps
    | with_reducible refine fun _ => ?_
    | (unfold Keeps; dsimp only; with_reducible refine Keeps.unmk ?_)
    | with_reducible apply KeptBy.ite
    | with_reducible apply Keeps.ite)

theorem passClock_keeps {z s : State} (u : FUnit) (h : Keeps z s) : Keeps z (passClock s u) := by
  unfold passClock
  repeat' (first
    | with_reducible assumption
    | (unfold Keeps; dsimp only; with_reducible refine Keeps.unmk ?_))

theorem execPllMRelock_keeps (band : Nat) {z s : State} (h : Keeps z s) : KeptBy z (execPllMRelock band s) := by
  unfold execPllMRelock
  repeat' (first
    | with_reducible assumption
    | with_reducible refine KeptBy.next ?_
    | with_reducible apply passClock_keeps
    | (unfold Keeps; dsimp only; with_reducible refine Keeps.unmk ?_)
    | split)

theorem lostFrame_keeps {z s : State} (f : FrameSet) (h : Keeps z s) : Keeps z (lostFrame s f) := by
  unfold lostFrame
  dsimp only
  repeat' (first
    | with_reducible assumption
    | with_reducible apply beginSeqs_keeps
    | with_reducible apply keepOutputs_keeps
    | with_reducible apply histFrame_keeps
    | with_reducible apply sumsFrame_keeps
    | with_reducible apply redsFrame_keeps
    | with_reducible apply beginFirst_keeps
    | with_reducible apply queueParts_keeps
    | (unfold Keeps; dsimp only; with_reducible refine Keeps.unmk ?_)
    | with_reducible apply Keeps.ite)

theorem landersBack_keeps {z s : State} (r : Nat) (h : Keeps z s) : Keeps z (landersBack s r) := by
  unfold landersBack
  repeat' (first
    | with_reducible assumption
    | with_reducible apply Keeps.foldl
    | with_reducible apply Keeps.foldl_fst
    | with_reducible refine fun _ => ?_
    | (unfold Keeps; dsimp only; with_reducible refine Keeps.unmk ?_))

theorem closeLost_keeps {z s : State} (r : Nat) (h : Keeps z s) : Keeps z (closeLost s r) := by
  unfold closeLost
  repeat' (first
    | with_reducible assumption
    | with_reducible apply lostFrame_keeps
    | with_reducible apply queueParts_keeps
    | with_reducible apply workFrame_keeps
    | with_reducible apply landersBack_keeps
    | with_reducible apply keepResults_keeps
    | with_reducible apply keepOutputs_keeps
    | with_reducible apply complete_keeps
    | with_reducible apply Keeps.foldl
    | with_reducible apply Keeps.foldl_fst
    | with_reducible refine fun _ => ?_
    | with_reducible refine fun _ => ?_
    | (unfold Keeps; dsimp only; with_reducible refine Keeps.unmk ?_)
    | with_reducible apply Keeps.ite
    | split)

theorem holdEnd_keeps (r : Nat) {z s : State} (src : Nat) (h : Keeps z s) : Keeps z (holdEnd r s src) := by
  unfold holdEnd
  repeat' (first
    | with_reducible assumption
    | with_reducible apply holdEnvelope_keeps
    | (unfold Keeps; dsimp only; with_reducible refine Keeps.unmk ?_))

theorem coreBack_keeps {z s : State} (c : Nat) (h : Keeps z s) : Keeps z (coreBack s c) := by
  unfold coreBack
  repeat' (first
    | with_reducible assumption
    | with_reducible apply closeLost_keeps
    | with_reducible apply resumeIssue_keeps
    | (unfold Keeps; dsimp only; with_reducible refine Keeps.unmk ?_)
    | with_reducible apply Keeps.ite)

theorem resumeAt_keeps {z s : State} (c : Nat) (h : Keeps z s) : Keeps z (resumeAt s c) := by
  unfold resumeAt
  repeat' (first
    | with_reducible assumption
    | with_reducible apply startOutputs_keeps
    | with_reducible apply coreBack_keeps
    | with_reducible apply holdEnd_keeps
    | with_reducible apply beginArming_keeps
    | with_reducible apply setState_keeps
    | with_reducible apply Keeps.foldl
    | with_reducible apply Keeps.foldl_fst
    | with_reducible refine fun _ => ?_
    | (unfold Keeps; dsimp only; with_reducible refine Keeps.unmk ?_)
    | with_reducible apply Keeps.ite)

theorem execFaultHoldResume_keeps {z s : State} (h : Keeps z s) : KeptBy z (execFaultHoldResume s) := by
  unfold execFaultHoldResume
  repeat' (first
    | with_reducible assumption
    | with_reducible refine KeptBy.next ?_
    | with_reducible apply resumeAt_keeps
    | with_reducible refine atTick_keeps (by assumption) ?_
    | split
    | dsimp only)

theorem frameTick_keeps {z s : State} (h : Keeps z s) : Keeps z (frameTick s) := by
  unfold frameTick
  repeat' (first
    | with_reducible assumption
    | with_reducible apply closeFrame_keeps
    | with_reducible apply advanceTo_keeps
    | with_reducible apply startGrids_keeps
    | with_reducible apply startOutputs_keeps
    | with_reducible apply announceTick_keeps
    | with_reducible apply beginFrame_keeps
    | with_reducible apply stampTick_keeps
    | with_reducible apply applyPrefs_keeps
    | with_reducible apply coreBack_keeps
    | with_reducible apply latchMailbox_keeps
    | (unfold Keeps; dsimp only; with_reducible refine Keeps.unmk ?_)
    | with_reducible apply Keeps.ite)

theorem execFrameTick_keeps {z s : State} (h : Keeps z s) : KeptBy z (execFrameTick s) := by
  unfold execFrameTick
  repeat' (first
    | with_reducible assumption
    | with_reducible refine KeptBy.next ?_
    | with_reducible apply frameTick_keeps
    | split)

theorem execFrameNumberWrap_keeps {z s : State} (h : Keeps z s) : KeptBy z (execFrameNumberWrap s) := by
  unfold execFrameNumberWrap
  repeat' (first
    | with_reducible assumption
    | with_reducible refine KeptBy.next ?_
    | with_reducible apply frameTick_keeps
    | split)

theorem joinLater_keeps {z s : State} (g : Nat) (h : Keeps z s) : Keeps z (joinLater s g) := by
  unfold joinLater
  repeat' (first
    | with_reducible assumption
    | with_reducible apply modGroup_keeps)

theorem execGroupRejoin_keeps (g : Nat) (r : GroupBoot) {z s : State} (h : Keeps z s) : KeptBy z (execGroupRejoin g r s) := by
  unfold execGroupRejoin
  repeat' (first
    | with_reducible assumption
    | with_reducible refine KeptBy.next ?_
    | with_reducible apply detect_keeps
    | with_reducible apply sendSettings_keeps
    | with_reducible apply realign_keeps
    | with_reducible apply joinLater_keeps
    | with_reducible apply modGroup_keeps
    | with_reducible refine fun _ => ?_
    | with_reducible apply KeptBy.ite)

theorem syncOutputs_keeps {z s : State} (a : Nat) (h : Keeps z s) : Keeps z (syncOutputs s a) := by
  unfold syncOutputs
  repeat' (first
    | with_reducible assumption
    | with_reducible apply startOutputs_keeps
    | (unfold Keeps; dsimp only; with_reducible refine Keeps.unmk ?_))

theorem execSyncInEdge_keeps (offset : Nat) {z s : State} (h : Keeps z s) : KeptBy z (execSyncInEdge offset s) := by
  unfold execSyncInEdge
  repeat' (first
    | with_reducible assumption
    | with_reducible refine KeptBy.next ?_
    | with_reducible apply syncOutputs_keeps
    | (unfold Keeps; dsimp only; with_reducible refine Keeps.unmk ?_)
    | split)

theorem execAlignmentMark_keeps {z s : State} (h : Keeps z s) : KeptBy z (execAlignmentMark s) := by
  unfold execAlignmentMark
  dsimp only
  split
  · exact .next h
  · split
    · exact .next h
    · exact .next (discoveryDone_keeps (knownGrids_keeps (z := z) _ h))

theorem applyPlan_keeps {z s : State} (plan ts : Nat) (h : Keeps z s) : Keeps z (applyPlan s plan ts) := by
  unfold applyPlan
  repeat' (first
    | with_reducible assumption
    | with_reducible apply startOutputs_keeps
    | with_reducible apply sendSettings_keeps
    | with_reducible apply Keeps.foldl
    | with_reducible apply Keeps.foldl_fst
    | with_reducible refine fun _ => ?_
    | with_reducible refine fun _ => ?_
    | (unfold Keeps; dsimp only; with_reducible refine Keeps.unmk ?_)
    | with_reducible apply Keeps.ite)

theorem execPlanSwitchApply_keeps {z s : State} (h : Keeps z s) : KeptBy z (execPlanSwitchApply s) := by
  unfold execPlanSwitchApply
  split
  · exact .next h
  · split
    · exact .next h
    · rename_i u e
      have k : Keeps z u := atTick_keeps e h
      dsimp only
      refine .next (Keeps.foldl (fun t x ht => complete_keeps _ _ _ _ _ ht) _ ?_)
      split
      · exact k
      · exact applyPlan_keeps _ _ k

end Sys2Proof.Machine
end

