-- ==== Sys2Proof/Laws/KeepsHost.lean ====
section
/-!
SUPPORT. What commands, delivery, jobs and register accesses keep: see Laws/Keeps.lean.
-/
namespace Sys2Proof.Machine

theorem failRing_keeps {z s : State} (r : Nat) (h : Keeps z s) : Keeps z (failRing s r) := by
  unfold failRing
  repeat' (first
    | with_reducible assumption
    | with_reducible apply modRing_keeps)

theorem takeEntry_keeps {z s : State} (i : Nat) (entry : Bytes) (h : Keeps z s) : Keeps z (takeEntry s i entry) := by
  unfold takeEntry
  repeat' (first
    | with_reducible assumption
    | with_reducible apply writeback_keeps
    | with_reducible apply modRing_keeps
    | with_reducible apply sweepBad_keeps
    | (unfold Keeps; dsimp only; with_reducible refine Keeps.unmk ?_))

theorem execCommandFetch_keeps (i : Nat) (fetched : ReadEnd) (entry : Bytes) {z s : State} (h : Keeps z s) : KeptBy z (execCommandFetch i fetched entry s) := by
  unfold execCommandFetch
  repeat' (first
    | with_reducible assumption
    | with_reducible refine KeptBy.next ?_
    | with_reducible apply takeEntry_keeps
    | with_reducible apply translate_keeps
    | with_reducible apply failRing_keeps
    | with_reducible apply noteRead_keeps
    | with_reducible apply askPage_keeps
    | with_reducible refine fun _ => ?_
    | with_reducible apply KeptBy.ite
    | with_reducible apply Keeps.ite
    | split)

theorem startCmd_keeps {z s : State} (p : Bytes → Bool) (k : State → Nat × Bytes → State) (hk : ∀ t x, Keeps z t → Keeps z (k t x)) (h : Keeps z s) : KeptBy z (startCmd s p k) := by
  unfold startCmd
  repeat' (first
    | with_reducible assumption
    | with_reducible refine KeptBy.next ?_
    | with_reducible apply hk
    | (unfold Keeps; dsimp only; with_reducible refine Keeps.unmk ?_)
    | with_reducible apply KeptBy.ite
    | with_reducible apply Keeps.ite
    | split)

theorem orRefuse_keeps {z s : State} (c : Nat × Bytes) (status : Option Nat) (k : State → State) (hk : ∀ t, Keeps z t → Keeps z (k t)) (h : Keeps z s) : Keeps z (orRefuse s c status k) := by
  unfold orRefuse
  repeat' (first
    | with_reducible assumption
    | with_reducible apply complete_keeps
    | with_reducible apply hk
    | split)

theorem execNop_keeps {z s : State} (h : Keeps z s) : KeptBy z (execNop s) := by
  unfold execNop
  repeat' (first
    | with_reducible assumption
    | with_reducible refine KeptBy.next ?_
    | with_reducible apply startCmd_keeps
    | with_reducible apply orRefuse_keeps
    | with_reducible apply complete_keeps
    | with_reducible refine fun _ => ?_)

theorem seqStart_keeps (act : Nat) {z s : State} (c : Nat × Bytes) (h : Keeps z s) : Keeps z (seqStart act s c) := by
  unfold seqStart
  repeat' (first
    | with_reducible assumption
    | with_reducible apply orRefuse_keeps
    | (intro t ht)
    | (unfold Keeps; dsimp only; with_reducible refine Keeps.unmk ?_))

theorem execSeqArm_keeps {z s : State} (h : Keeps z s) : KeptBy z (execSeqArm s) := by
  unfold execSeqArm
  repeat' (first
    | with_reducible assumption
    | with_reducible refine KeptBy.next ?_
    | with_reducible apply startCmd_keeps
    | with_reducible apply seqStart_keeps)

theorem execSeqDisarm_keeps {z s : State} (h : Keeps z s) : KeptBy z (execSeqDisarm s) := by
  unfold execSeqDisarm
  repeat' (first
    | with_reducible assumption
    | with_reducible refine KeptBy.next ?_
    | with_reducible apply startCmd_keeps
    | with_reducible apply seqStart_keeps)

theorem execSeqForce_keeps {z s : State} (h : Keeps z s) : KeptBy z (execSeqForce s) := by
  unfold execSeqForce
  repeat' (first
    | with_reducible assumption
    | with_reducible refine KeptBy.next ?_
    | with_reducible apply startCmd_keeps
    | with_reducible apply seqStart_keeps)

theorem spanStart_keeps {z s : State} (c : Nat × Bytes) (h : Keeps z s) : Keeps z (spanStart s c) := by
  unfold spanStart
  repeat' (first
    | with_reducible assumption
    | with_reducible apply orRefuse_keeps
    | with_reducible apply complete_keeps
    | with_reducible apply pushReady_keeps
    | with_reducible refine fun _ => ?_
    | (unfold Keeps; dsimp only; with_reducible refine Keeps.unmk ?_)
    | with_reducible apply Keeps.ite
    | split)

theorem execSpanRead_keeps {z s : State} (h : Keeps z s) : KeptBy z (execSpanRead s) := by
  unfold execSpanRead
  repeat' (first
    | with_reducible assumption
    | with_reducible refine KeptBy.next ?_
    | with_reducible apply startCmd_keeps
    | with_reducible apply spanStart_keeps)

theorem planStart_keeps {z s : State} (c : Nat × Bytes) (h : Keeps z s) : Keeps z (planStart s c) := by
  unfold planStart
  repeat' (first
    | with_reducible assumption
    | with_reducible apply orRefuse_keeps
    | with_reducible apply complete_keeps
    | (intro t ht)
    | (unfold Keeps; dsimp only; with_reducible refine Keeps.unmk ?_)
    | split)

theorem execPlanSwitch_keeps {z s : State} (h : Keeps z s) : KeptBy z (execPlanSwitch s) := by
  unfold execPlanSwitch
  repeat' (first
    | with_reducible assumption
    | with_reducible refine KeptBy.next ?_
    | with_reducible apply startCmd_keeps
    | with_reducible apply planStart_keeps)

theorem prefStart_keeps {z s : State} (c : Nat × Bytes) (h : Keeps z s) : Keeps z (prefStart s c) := by
  unfold prefStart
  repeat' (first
    | with_reducible assumption
    | with_reducible apply orRefuse_keeps
    | (intro t ht)
    | (unfold Keeps; dsimp only; with_reducible refine Keeps.unmk ?_))

theorem execTimePref_keeps {z s : State} (h : Keeps z s) : KeptBy z (execTimePref s) := by
  unfold execTimePref
  repeat' (first
    | with_reducible assumption
    | with_reducible refine KeptBy.next ?_
    | with_reducible apply startCmd_keeps
    | with_reducible apply prefStart_keeps)

theorem assignBank_keeps {z s : State} (b owner : Nat) (h : Keeps z s) : Keeps z (assignBank s b owner).1 := by
  unfold assignBank
  repeat' (first
    | with_reducible assumption
    | (unfold Keeps; dsimp only; with_reducible refine Keeps.unmk ?_)
    | split)

theorem bankStart_keeps {z s : State} (c : Nat × Bytes) (h : Keeps z s) : Keeps z (bankStart s c) := by
  unfold bankStart
  repeat' (first
    | with_reducible assumption
    | with_reducible apply orRefuse_keeps
    | with_reducible apply assignBank_keeps
    | with_reducible apply complete_keeps
    | (intro t ht))

theorem execBankAssign_keeps {z s : State} (h : Keeps z s) : KeptBy z (execBankAssign s) := by
  unfold execBankAssign
  repeat' (first
    | with_reducible assumption
    | with_reducible refine KeptBy.next ?_
    | with_reducible apply startCmd_keeps
    | with_reducible apply bankStart_keeps)

theorem resetRing_keeps {z s : State} (r : Nat) (h : Keeps z s) : Keeps z (resetRing s r) := by
  unfold resetRing
  repeat' (first
    | with_reducible assumption
    | with_reducible apply dropStaged_keeps
    | with_reducible apply loseRun_keeps
    | with_reducible apply Keeps.foldl
    | with_reducible apply Keeps.foldl_fst
    | (intro t x ht)
    | split)

theorem resetDeadLetter_keeps {z s : State} (h : Keeps z s) : Keeps z (resetDeadLetter s) := dropStaged_keeps _ _ h

theorem resetStart_keeps {z s : State} (c : Nat × Bytes) (h : Keeps z s) : Keeps z (resetStart s c) := by
  unfold resetStart
  repeat' (first
    | with_reducible assumption
    | with_reducible apply orRefuse_keeps
    | with_reducible apply complete_keeps
    | with_reducible apply resetDeadLetter_keeps
    | with_reducible apply resetRing_keeps
    | (intro t ht)
    | split)

theorem execRingReset_keeps {z s : State} (h : Keeps z s) : KeptBy z (execRingReset s) := by
  unfold execRingReset
  repeat' (first
    | with_reducible assumption
    | with_reducible refine KeptBy.next ?_
    | with_reducible apply startCmd_keeps
    | with_reducible apply resetStart_keeps)

theorem powerStart_keeps {z s : State} (c : Nat × Bytes) (k : State → Nat → State) (hk : ∀ t x, Keeps z t → Keeps z (k t x)) (h : Keeps z s) : Keeps z (powerStart s c k) := by
  unfold powerStart
  repeat' (first
    | with_reducible assumption
    | with_reducible apply orRefuse_keeps
    | with_reducible apply complete_keeps
    | with_reducible refine fun t ht => ?_
    | with_reducible refine fun t x ht => ?_
    | with_reducible apply hk
    | (unfold Keeps; dsimp only; with_reducible refine Keeps.unmk ?_)
    | with_reducible apply Keeps.ite)

theorem execGroupPowerDown_keeps {z s : State} (h : Keeps z s) : KeptBy z (execGroupPowerDown s) := by
  unfold execGroupPowerDown
  repeat' (first
    | with_reducible assumption
    | with_reducible refine KeptBy.next ?_
    | with_reducible apply startCmd_keeps
    | with_reducible apply powerStart_keeps
    | with_reducible apply complete_keeps
    | with_reducible apply modGroup_keeps
    | with_reducible refine fun _ => ?_
    | with_reducible apply KeptBy.ite
    | with_reducible apply Keeps.ite)

theorem execGroupPowerDownApply_keeps (g : Nat) {z s : State} (h : Keeps z s) : KeptBy z (execGroupPowerDownApply g s) := by
  unfold execGroupPowerDownApply
  repeat' (first
    | with_reducible assumption
    | with_reducible refine KeptBy.next ?_
    | with_reducible apply sendTile_keeps
    | with_reducible apply modGroup_keeps
    | with_reducible apply islandOff_keeps
    | with_reducible apply complete_keeps
    | split)

theorem execGroupPowerUp_keeps (r : GroupBoot) {z s : State} (h : Keeps z s) : KeptBy z (execGroupPowerUp r s) := by
  unfold execGroupPowerUp
  repeat' (first
    | with_reducible assumption
    | with_reducible refine KeptBy.next ?_
    | with_reducible apply startCmd_keeps
    | with_reducible apply powerStart_keeps
    | with_reducible apply complete_keeps
    | with_reducible apply modGroup_keeps
    | with_reducible apply detect_keeps
    | with_reducible apply joinLater_keeps
    | with_reducible apply recordUnused_keeps
    | with_reducible apply islandReady_keeps
    | with_reducible apply noteFuse_keeps
    | with_reducible refine fun _ => ?_
    | (unfold Keeps; dsimp only; with_reducible refine Keeps.unmk ?_)
    | with_reducible apply KeptBy.ite
    | with_reducible apply Keeps.ite
    | split)

theorem execGroupPowerUpRejoin_keeps (g : Nat) {z s : State} (h : Keeps z s) : KeptBy z (execGroupPowerUpRejoin g s) := by
  unfold execGroupPowerUpRejoin
  repeat' (first
    | with_reducible assumption
    | with_reducible refine KeptBy.next ?_
    | with_reducible apply complete_keeps
    | with_reducible apply modGroup_keeps
    | with_reducible refine atTick_keeps (by assumption) ?_
    | with_reducible apply KeptBy.ite
    | with_reducible apply Keeps.ite
    | split
    | dsimp only)

theorem endFlash_keeps {z s : State} (o : FlashOp) (result : Nat) (h : Keeps z s) : Keeps z (endFlash s o result) := by
  unfold endFlash
  repeat' (first
    | with_reducible assumption
    | with_reducible apply raiseIrq_keeps
    | (unfold Keeps; dsimp only; with_reducible refine Keeps.unmk ?_)
    | split)

theorem beginFlash_keeps {z s : State} (o : FlashOp) (h : Keeps z s) : Keeps z (beginFlash s o) := by
  unfold beginFlash
  repeat' (first
    | with_reducible assumption
    | with_reducible apply endFlash_keeps
    | (unfold Keeps; dsimp only; with_reducible refine Keeps.unmk ?_)
    | split)

theorem flashGo_keeps {z s : State} (op len : Nat) (h : Keeps z s) : Keeps z (flashGo s op len) := by
  unfold flashGo
  repeat' (first
    | with_reducible assumption
    | with_reducible apply beginFlash_keeps
    | (unfold Keeps; dsimp only; with_reducible refine Keeps.unmk ?_)
    | split)

theorem resumeFlash_keeps {z s : State} (h : Keeps z s) : Keeps z (resumeFlash s) := by
  unfold resumeFlash
  repeat' (first
    | with_reducible assumption
    | with_reducible apply beginFlash_keeps
    | split)

theorem rebindSample_keeps {z s : State} (h : Keeps z s) : Keeps z (rebindSample s) := by
  unfold rebindSample
  repeat' (first
    | with_reducible assumption
    | (unfold Keeps; dsimp only; with_reducible refine Keeps.unmk ?_))

theorem execFlashRead_keeps (len : Nat) {z s : State} (h : Keeps z s) : KeptBy z (execFlashRead len s) := by
  unfold execFlashRead
  repeat' (first
    | with_reducible assumption
    | with_reducible refine KeptBy.next ?_
    | with_reducible apply memRequest_keeps
    | with_reducible apply flashGo_keeps
    | with_reducible refine fun _ => ?_)

theorem execFlashProgram_keeps (len : Nat) {z s : State} (h : Keeps z s) : KeptBy z (execFlashProgram len s) := by
  unfold execFlashProgram
  repeat' (first
    | with_reducible assumption
    | with_reducible refine KeptBy.next ?_
    | with_reducible apply memRequest_keeps
    | with_reducible apply flashGo_keeps
    | with_reducible refine fun _ => ?_)

theorem execFlashErase4k_keeps (len : Nat) {z s : State} (h : Keeps z s) : KeptBy z (execFlashErase4k len s) := by
  unfold execFlashErase4k
  repeat' (first
    | with_reducible assumption
    | with_reducible refine KeptBy.next ?_
    | with_reducible apply memRequest_keeps
    | with_reducible apply flashGo_keeps
    | with_reducible refine fun _ => ?_)

theorem execFlashErase64k_keeps (len : Nat) {z s : State} (h : Keeps z s) : KeptBy z (execFlashErase64k len s) := by
  unfold execFlashErase64k
  repeat' (first
    | with_reducible assumption
    | with_reducible refine KeptBy.next ?_
    | with_reducible apply memRequest_keeps
    | with_reducible apply flashGo_keeps
    | with_reducible refine fun _ => ?_)

theorem beginReading_keeps {z s : State} (cmd : Option (Nat × Bytes)) (h : Keeps z s) : Keeps z (beginReading s cmd) := by
  unfold beginReading
  repeat' (first
    | with_reducible assumption
    | with_reducible apply rebindSample_keeps
    | (unfold Keeps; dsimp only; with_reducible refine Keeps.unmk ?_)
    | split)

theorem rebindStart_keeps {z s : State} (c : Nat × Bytes) (h : Keeps z s) : Keeps z (rebindStart s c) := by
  unfold rebindStart
  repeat' (first
    | with_reducible assumption
    | with_reducible apply complete_keeps
    | with_reducible apply beginReading_keeps
    | (unfold Keeps; dsimp only; with_reducible refine Keeps.unmk ?_)
    | split)

theorem execRebind_keeps {z s : State} (h : Keeps z s) : KeptBy z (execRebind s) := by
  unfold execRebind
  repeat' (first
    | with_reducible assumption
    | with_reducible refine KeptBy.next ?_
    | with_reducible apply startCmd_keeps
    | with_reducible apply rebindStart_keeps)

theorem rebindGo_keeps {z s : State} (key : Nat) (h : Keeps z s) : Keeps z (rebindGo s key) := by
  unfold rebindGo
  repeat' (first
    | with_reducible assumption
    | with_reducible apply beginReading_keeps
    | split)

theorem execRebindCtrlGo_keeps (key : Nat) {z s : State} (h : Keeps z s) : KeptBy z (execRebindCtrlGo key s) := by
  unfold execRebindCtrlGo
  repeat' (first
    | with_reducible assumption
    | with_reducible refine KeptBy.next ?_
    | with_reducible apply memRequest_keeps
    | with_reducible apply rebindGo_keeps
    | with_reducible refine fun _ => ?_)

theorem decideRebind_keeps {z s : State} (result status detail : Nat) (h : Keeps z s) : Keeps z (decideRebind s result status detail) := by
  unfold decideRebind
  repeat' (first
    | with_reducible assumption
    | with_reducible apply raiseIrq_keeps
    | with_reducible apply complete_keeps
    | (unfold Keeps; dsimp only; with_reducible refine Keeps.unmk ?_)
    | split)

theorem endReading_keeps {z s : State} (h : Keeps z s) : Keeps z (endReading s) := by
  unfold endReading
  repeat' (first
    | with_reducible assumption
    | with_reducible apply resumeFlash_keeps
    | (unfold Keeps; dsimp only; with_reducible refine Keeps.unmk ?_))

theorem rebindOn_keeps {z s : State} (r : Choice) (h : Keeps z s) : Keeps z (rebindOn s r) := by
  unfold rebindOn
  repeat' (first
    | with_reducible assumption
    | with_reducible apply endReading_keeps
    | with_reducible apply decideRebind_keeps
    | with_reducible apply resumeFlash_keeps
    | (unfold Keeps; dsimp only; with_reducible refine Keeps.unmk ?_)
    | split)

theorem execRebindDecision_keeps {z s : State} (h : Keeps z s) : KeptBy z (execRebindDecision s) := by
  unfold execRebindDecision
  split
  · exact KeptBy.next h
  · exact KeptBy.next (rebindOn_keeps _ h)

theorem execRebindTeardown_keeps {z s : State} (h : Keeps z s) : KeptBy z (execRebindTeardown s) := by
  unfold execRebindTeardown
  repeat' (first
    | with_reducible assumption
    | with_reducible refine KeptBy.next ?_
    | with_reducible apply truncateRuns_keeps
    | with_reducible apply advanceTo_keeps
    | (unfold Keeps; dsimp only; with_reducible refine Keeps.unmk ?_)
    | split)

theorem dropRemaining_keeps {z s : State} (r : Nat) (h : Keeps z s) : Keeps z (dropRemaining s r) := by
  unfold dropRemaining
  repeat' (first
    | with_reducible assumption
    | with_reducible apply countDrop_keeps
    | with_reducible apply ltrCheck_keeps
    | with_reducible apply modRing_keeps
    | with_reducible apply Keeps.foldl
    | with_reducible apply Keeps.foldl_fst
    | with_reducible refine fun _ => ?_)

theorem drainReserve_keeps {z : State} : ∀ (k : Nat) {s : State}, Keeps z s → Keeps z (drainReserve k s)
  | 0, _, h => h
  | k + 1, s, h => by
    unfold drainReserve
    split
    · split
      · exact drainReserve_keeps k (putEnvelope_keeps _ _ (popReady_keeps _ h))
      · exact h
    · exact h

theorem endConfiguration_keeps {z s : State} (h : Keeps z s) : Keeps z (endConfiguration s) := by
  unfold endConfiguration
  repeat' (first
    | with_reducible assumption
    | with_reducible apply dropRemaining_keeps
    | with_reducible apply dropStaged_keeps
    | with_reducible apply stageLoss_keeps
    | with_reducible apply drainReserve_keeps
    | with_reducible apply safeEvts_keeps
    | with_reducible apply notify_keeps
    | with_reducible apply Keeps.foldl
    | with_reducible apply Keeps.foldl_fst
    | with_reducible refine fun t x ht => ?_)

theorem drainOver_keeps {z s : State} (h : Keeps z s) : Keeps z (drainOver s) := by
  have boot : ∀ {u : State}, Keeps z u → Keeps z { u with boot := { u.boot with resume := none, binding := none } } := fun hu => hu
  unfold drainOver
  dsimp only
  have a : Keeps z (if (s.rings.rings.any (fun e => !e.2.ready.isEmpty) || s.rings.netReady.any (fun e => !e.2.isEmpty)) = true then
      advanceTo s s.boot.drainUntil else s) := Keeps.ite (advanceTo_keeps _ h) h
  exact setState_keeps .boot (boot (Keeps.ite (endConfiguration_keeps a) a))

theorem bindHeld_keeps {z s : State} (old : Option Folio) (c : Copy) (img : Bytes) (env : BootEnv) (h : Keeps z s) :
    Keeps z (bindHeld s old c img env) := by
  have fails : ∀ {u : State} (n : Nat), Keeps z u → Keeps z { u with franking := { u.franking with failing := n } } :=
    fun _ hu => hu
  have checked : ∀ {u : State}, Keeps z u → Keeps z (match checkCopy img (some u.boot.fwVersion) with
      | .ok f => bindChecks u c img f old env
      | .error _ => bindRefuse u 0x103 0xFFFF none) := by
    intro u hu
    split
    · exact bindChecks_keeps _ _ _ _ _ hu
    · exact bindRefuse_keeps _ _ _ hu
  have b {u : State} (hu : Keeps z u) : Keeps z (beginChecks u env u.boot.sealSample u.boot.heldErrs.1 u.boot.heldErrs.2 (some c)) :=
    beginChecks_keeps env _ _ _ _ hu
  unfold bindHeld
  refine fails 0 (Keeps.ite (bindRefuse_keeps _ _ _ ?_) (Keeps.ite (bindRefuse_keeps _ _ _ ?_) (afterLoss_keeps _ _ (fun _ k => checked k) ?_)))
  all_goals exact b (fails _ (advanceTo_keeps _ h))

theorem execRebindDrainEnd_keeps {z s : State} (env : BootEnv) (h : Keeps z s) : KeptBy z (execRebindDrainEnd env s) := by
  have k := drainOver_keeps h
  unfold execRebindDrainEnd
  refine KeptBy.ite (.next h) ?_
  dsimp only
  split
  · exact .next (bindRefuse_keeps _ _ _ k)
  · exact .next (bindHeld_keeps _ _ _ env k)

theorem onRing_keeps {z s : State} (r : Nat) (how : ReadEnd) (k : State → State) (hk : ∀ t, Keeps z t → Keeps z (k t)) (h : Keeps z s) : Keeps z (onRing s r how k) := by
  unfold onRing
  repeat' (first
    | with_reducible assumption
    | with_reducible apply failRing_keeps
    | with_reducible apply hk
    | split)

theorem assemble_keeps (r : Nat) (e : Envelope) (bad : Option (Nat × Nat)) {z s : State} (h : Keeps z s) :
    Keeps z (assemble s r e bad) := by
  unfold assemble
  repeat' (first
    | with_reducible assumption
    | with_reducible apply bankError_keeps
    | with_reducible apply writeHead_keeps
    | with_reducible refine fun t x ht => ?_
    | with_reducible refine fun t ht => ?_
    | with_reducible apply Keeps.id
    | split)

theorem execEnvelopeWrite_keeps (r : Nat) (bad : Option (Nat × Nat)) (how : ReadEnd) {z s : State} (h : Keeps z s) :
    KeptBy z (execEnvelopeWrite r bad how s) := by
  unfold execEnvelopeWrite
  repeat' (first
    | with_reducible assumption
    | with_reducible refine KeptBy.next ?_
    | with_reducible apply onRing_keeps
    | with_reducible apply ltrCheck_keeps
    | with_reducible apply assemble_keeps
    | with_reducible refine fun t ht => ?_
    | with_reducible refine fun t x ht => ?_
    | with_reducible apply Keeps.id
    | with_reducible apply KeptBy.ite
    | with_reducible apply Keeps.ite
    | split)

theorem execRecordPartWrite_keeps (r : Nat) (bad : Option Nat) (how : ReadEnd) {z s : State} (h : Keeps z s) : KeptBy z (execRecordPartWrite r bad how s) := by
  unfold execRecordPartWrite
  repeat' (first
    | with_reducible assumption
    | with_reducible refine KeptBy.next ?_
    | with_reducible apply onRing_keeps
    | with_reducible apply recordPartWrite_keeps
    | (intro t ht))

theorem execStreamEnvelopeWrite_keeps (r : Nat) (bad : Option Nat) (how : ReadEnd) {z s : State} (h : Keeps z s) : KeptBy z (execStreamEnvelopeWrite r bad how s) := by
  unfold execStreamEnvelopeWrite
  repeat' (first
    | with_reducible assumption
    | with_reducible refine KeptBy.next ?_
    | with_reducible apply onRing_keeps
    | with_reducible apply streamWrite_keeps
    | (intro t ht))

theorem execMeasure_keeps (r : Nat) (how : ReadEnd) {z s : State} (h : Keeps z s) : KeptBy z (execMeasure r how s) := by
  unfold execMeasure
  repeat' (first
    | with_reducible assumption
    | with_reducible refine KeptBy.next ?_
    | with_reducible apply onRing_keeps
    | with_reducible apply measureWrite_keeps
    | (intro t ht))

theorem execSpanReadoutWrite_keeps (r : Nat) (bad : Option Nat) (how : ReadEnd) {z s : State} (h : Keeps z s) : KeptBy z (execSpanReadoutWrite r bad how s) := by
  unfold execSpanReadoutWrite
  repeat' (first
    | with_reducible assumption
    | with_reducible refine KeptBy.next ?_
    | with_reducible apply onRing_keeps
    | with_reducible apply readoutWrite_keeps
    | (intro t ht)
    | split)

theorem execCompletion_keeps (r : Nat) (how : ReadEnd) {z s : State} (h : Keeps z s) : KeptBy z (execCompletion r how s) := by
  unfold execCompletion
  repeat' (first
    | with_reducible assumption
    | with_reducible refine KeptBy.next ?_
    | with_reducible apply onRing_keeps
    | with_reducible apply writeHead_keeps
    | with_reducible apply writeCompletions_keeps
    | with_reducible refine fun t ht => ?_
    | with_reducible refine fun t x ht => ?_
    | with_reducible apply Keeps.id
    | with_reducible apply KeptBy.ite
    | with_reducible apply Keeps.ite
    | split)

theorem execDeadLetterDrain_keeps (how : ReadEnd) {z s : State} (h : Keeps z s) : KeptBy z (execDeadLetterDrain how s) := by
  unfold execDeadLetterDrain
  repeat' (first
    | with_reducible assumption
    | with_reducible refine KeptBy.next ?_
    | with_reducible apply onRing_keeps
    | with_reducible apply writeHead_keeps
    | with_reducible refine fun t ht => ?_
    | with_reducible refine fun t x ht => ?_
    | with_reducible apply Keeps.id
    | with_reducible apply KeptBy.ite
    | with_reducible apply Keeps.ite
    | split)

theorem notifyVector_keeps {z s : State} (v : Nat) (h : Keeps z s) : Keeps z (notifyVector s v) := by
  unfold notifyVector
  repeat' (first
    | with_reducible assumption
    | with_reducible apply signal_keeps
    | (unfold Keeps; dsimp only; with_reducible refine Keeps.unmk ?_))

theorem execRingNotification_keeps (r : Nat) {z s : State} (h : Keeps z s) : KeptBy z (execRingNotification r s) := by
  unfold execRingNotification
  repeat' (first
    | with_reducible assumption
    | with_reducible refine KeptBy.next ?_
    | with_reducible apply notifyVector_keeps
    | split)

theorem statsStart_keeps (how : ReadEnd) {z s : State} (c : Nat × Bytes) (h : Keeps z s) : Keeps z (statsStart how s c) := by
  unfold statsStart
  repeat' (first
    | with_reducible assumption
    | with_reducible apply orRefuse_keeps
    | with_reducible apply complete_keeps
    | with_reducible apply hostWrite_keeps
    | (intro t ht)
    | split)

theorem execStatsRead_keeps (how : ReadEnd) {z s : State} (h : Keeps z s) : KeptBy z (execStatsRead how s) := by
  unfold execStatsRead
  repeat' (first
    | with_reducible assumption
    | with_reducible refine KeptBy.next ?_
    | with_reducible apply startCmd_keeps
    | with_reducible apply statsStart_keeps
    | split)

theorem modJob_keeps {z s : State} (id : Nat) (f : Job → Job) (h : Keeps z s) : Keeps z (modJob s id f) := by
  unfold modJob
  repeat' (first
    | with_reducible assumption
    | (intro t ht)
    | (unfold Keeps; dsimp only; with_reducible refine Keeps.unmk ?_))

theorem modBlock_keeps {z s : State} (id idx : Nat) (f : Block → Block) (h : Keeps z s) : Keeps z (modBlock s id idx f) := by
  unfold modBlock
  repeat' (first
    | with_reducible assumption
    | with_reducible apply modJob_keeps)

theorem issueReads_keeps {z : State} : ∀ (k : Nat) {s : State}, Keeps z s → Keeps z (issueReads k s)
  | 0, _, h => h
  | k + 1, s, h => by
    unfold issueReads
    split
    · exact h
    · split
      · have u : ∀ {v : State} (p : Pcie), Keeps z v → Keeps z { v with pcie := p } := fun _ hv => hv
        exact issueReads_keeps k (modBlock_keeps _ _ _ (u _ (emit_keeps _ (translate_keeps _ h))))
      · exact h

theorem askMore_keeps {z s : State} (h : Keeps z s) : Keeps z (askMore s) := by
  unfold askMore
  repeat' (first
    | with_reducible assumption
    | with_reducible apply issueReads_keeps)

theorem dropRead_keeps {z s : State} (tag : Nat) (h : Keeps z s) : Keeps z (dropRead s tag) := by
  unfold dropRead
  repeat' (first
    | with_reducible assumption
    | (unfold Keeps; dsimp only; with_reducible refine Keeps.unmk ?_))

theorem judgeStream_keeps {z s : State} (id : Nat) (dst : Option Nat) (h : Keeps z s) : Keeps z (judgeStream s id dst) := by
  unfold judgeStream
  split
  · exact h
  · split
    · exact failJobs_keeps _ _ _ h
    · exact h

theorem readFailed_keeps {z s : State} (r : ReadReq) (h : Keeps z s) : Keeps z (readFailed s r) := by
  unfold readFailed
  split
  · exact h
  · split
    · exact judgeStream_keeps _ _ (modJob_keeps _ _ h)
    · exact failJobs_keeps _ _ _ h

theorem readArrived_keeps {z s : State} (r : ReadReq) (data : Arrival) (h : Keeps z s) : Keeps z (readArrived s r data) := by
  unfold readArrived
  exact judgeStream_keeps _ _ (modJob_keeps _ _ h)

theorem dropRetired_keeps {z s : State} (tag : Nat) (h : Keeps z s) : Keeps z (dropRetired s tag) := by
  unfold dropRetired
  repeat' (first
    | with_reducible assumption
    | with_reducible apply askMore_keeps
    | (unfold Keeps; dsimp only; with_reducible refine Keeps.unmk ?_))

theorem execHostReadCompletion_keeps (tag : Nat) (how : ReadEnd) (data : Arrival) {z s : State} (h : Keeps z s) :
    KeptBy z (execHostReadCompletion tag how data s) := by
  unfold execHostReadCompletion
  repeat' (first
    | with_reducible assumption
    | with_reducible refine KeptBy.next ?_
    | with_reducible apply dropRetired_keeps
    | with_reducible apply aer_keeps
    | with_reducible apply noteRead_keeps
    | with_reducible apply dropRead_keeps
    | with_reducible apply askMore_keeps
    | with_reducible apply readArrived_keeps
    | with_reducible apply readFailed_keeps
    | with_reducible refine fun _ => ?_
    | with_reducible apply KeptBy.ite
    | with_reducible apply Keeps.ite
    | split)

theorem execHostReadTimeout_keeps (tag : Nat) {z s : State} (h : Keeps z s) : KeptBy z (execHostReadTimeout tag s) := by
  unfold execHostReadTimeout
  repeat' (first
    | with_reducible assumption
    | with_reducible refine KeptBy.next ?_
    | with_reducible apply dropRetired_keeps
    | with_reducible apply dropRead_keeps
    | with_reducible apply askMore_keeps
    | with_reducible apply readFailed_keeps
    | with_reducible apply noteRead_keeps
    | with_reducible refine fun _ => ?_
    | with_reducible apply KeptBy.ite
    | with_reducible apply Keeps.ite
    | split)

theorem takeStaged_keeps {z : State} : ∀ (l : List Envelope) (room : Nat) {s : State}, Keeps z s → Keeps z (takeStaged l room s).2
  | [], _, _, h => h
  | e :: l, room, s, h => by
    unfold takeStaged
    split
    · exact h
    · exact takeStaged_keeps l _ (takeFree_keeps h)

theorem queueJob_keeps {z s : State} (j : Job) (len : Nat) (h : Keeps z s) : Keeps z (queueJob s j len) := by
  unfold queueJob
  repeat' (first
    | with_reducible assumption
    | (intro t ht)
    | (unfold Keeps; dsimp only; with_reducible refine Keeps.unmk ?_))

theorem countFail_keeps {z s : State} (status : Nat) (h : Keeps z s) : Keeps z (countFail s status) := h

theorem failStart_keeps {z s : State} (c : Nat × Bytes) (status : Nat) (h : Keeps z s) : Keeps z (failStart s c status) := by
  unfold failStart
  exact complete_keeps _ _ _ _ _ (countFail_keeps _ h)

theorem jobBegin_keeps {z s : State} (j : Job) (h : Keeps z s) : Keeps z (jobBegin s j) := by
  unfold jobBegin
  repeat' (first
    | with_reducible assumption
    | with_reducible apply failStart_keeps
    | with_reducible apply countFail_keeps
    | with_reducible apply Keeps.ite
    | with_reducible apply complete_keeps
    | with_reducible apply queueJob_keeps
    | with_reducible apply takeStaged_keeps
    | (unfold Keeps; dsimp only; with_reducible refine Keeps.unmk ?_)
    | with_reducible apply Keeps.ite
    | split)

theorem jobStart_keeps (inflate : Bool) {z s : State} (c : Nat × Bytes) (h : Keeps z s) : Keeps z (jobStart inflate s c) := by
  unfold jobStart
  repeat' (first
    | with_reducible assumption
    | with_reducible apply failStart_keeps
    | with_reducible apply countFail_keeps
    | with_reducible apply Keeps.ite
    | with_reducible apply orRefuse_keeps
    | with_reducible apply jobBegin_keeps
    | (intro t ht))

theorem execCompress_keeps {z s : State} (h : Keeps z s) : KeptBy z (execCompress s) := by
  unfold execCompress
  repeat' (first
    | with_reducible assumption
    | with_reducible refine KeptBy.next ?_
    | with_reducible apply startCmd_keeps
    | with_reducible apply jobStart_keeps
    | split)

theorem execDecompress_keeps {z s : State} (h : Keeps z s) : KeptBy z (execDecompress s) := by
  unfold execDecompress
  repeat' (first
    | with_reducible assumption
    | with_reducible refine KeptBy.next ?_
    | with_reducible apply startCmd_keeps
    | with_reducible apply jobStart_keeps
    | split)

theorem execSplitBlockDispatch_keeps {z s : State} (h : Keeps z s) : KeptBy z (execSplitBlockDispatch s) := by
  unfold execSplitBlockDispatch
  repeat' (first
    | with_reducible assumption
    | with_reducible refine KeptBy.next ?_
    | with_reducible apply failJobs_keeps
    | with_reducible apply askMore_keeps
    | with_reducible apply modBlock_keeps
    | with_reducible refine fun t ht => ?_
    | with_reducible refine fun t x ht => ?_
    | with_reducible apply Keeps.id
    | with_reducible apply KeptBy.ite
    | with_reducible apply Keeps.ite
    | split)

theorem jobDone_keeps {z s : State} (j : Job) (h : Keeps z s) : Keeps z (jobDone s j) := by
  unfold jobDone
  repeat' (first
    | with_reducible assumption
    | with_reducible apply finishJob_keeps
    | with_reducible apply Keeps.foldl
    | with_reducible apply Keeps.foldl_fst
    | (intro t x ht)
    | (unfold Keeps; dsimp only; with_reducible refine Keeps.unmk ?_))

theorem writeOutputs_keeps {z : State} : ∀ (k : Nat) {s : State} (id : Nat), Keeps z s → Keeps z (writeOutputs k s id)
  | 0, _, _, h => h
  | k + 1, s, id, h => by
    unfold writeOutputs
    split
    · exact h
    · split
      · exact jobDone_keeps _ h
      · dsimp only
        split
        · exact h
        · split
          · exact finishJob_keeps _ _ _ _ h
          · exact writeOutputs_keeps k id (modJob_keeps _ _ (modBlock_keeps _ _ _ (hostWrite_keeps _ _ h)))

theorem blockCoded_keeps {z s : State} (j : Job) (b : Block) (lane : Nat) (o : Bytes) (h : Keeps z s) : Keeps z (blockCoded s j b lane o) := by
  unfold blockCoded
  have k : ∀ u : State, Keeps z u → Keeps z { u with jobs := { u.jobs with blocks := tmod 0 u.jobs.blocks lane (fun n => satAdd 32 n 1) } } :=
    fun _ h => h
  exact askMore_keeps (writeOutputs_keeps _ _ (k _ (modBlock_keeps _ _ _ h)))

theorem execSplitBlockComplete_keeps (lane : Nat) (fault : Bool) (trouble : BlockTrouble) {z s : State} (h : Keeps z s) :
    KeptBy z (execSplitBlockComplete lane fault trouble s) := by
  unfold execSplitBlockComplete
  repeat' (first
    | with_reducible assumption
    | with_reducible refine KeptBy.next ?_
    | with_reducible apply detect_keeps
    | with_reducible apply failJobs_keeps
    | with_reducible apply readFault_keeps
    | with_reducible apply modBlock_keeps
    | with_reducible apply askMore_keeps
    | with_reducible apply blockCoded_keeps
    | with_reducible apply KeptBy.ite
    | with_reducible apply Keeps.ite
    | split)

theorem modPcie_keeps {z s : State} (f : Pcie → Pcie) (h : Keeps z s) : Keeps z (modPcie s f) := by
  unfold modPcie
  repeat' (first
    | with_reducible assumption
    | (unfold Keeps; dsimp only; with_reducible refine Keeps.unmk ?_))

theorem clearMask_keeps {z s : State} (t : MaskTarget) (h : Keeps z s) : Keeps z (clearMask s t) := by
  unfold clearMask
  repeat' (first
    | with_reducible assumption
    | with_reducible apply modPcie_keeps
    | split)

theorem execMsixUnmask_keeps (t : MaskTarget) {z s : State} (h : Keeps z s) : KeptBy z (execMsixUnmask t s) := by
  unfold execMsixUnmask
  repeat' (first
    | with_reducible assumption
    | with_reducible refine KeptBy.next ?_
    | with_reducible apply memRequest_keeps
    | with_reducible apply flushPba_keeps
    | with_reducible apply clearMask_keeps
    | with_reducible apply cfgRequest_keeps
    | with_reducible refine fun t ht => ?_
    | with_reducible refine fun t x ht => ?_
    | with_reducible apply KeptBy.ite
    | with_reducible apply Keeps.ite
    | split)

theorem intxOff_keeps {z s : State} (which : IntxOff) (h : Keeps z s) : Keeps z (intxOff s which) := by
  unfold intxOff
  repeat' (first
    | with_reducible assumption
    | with_reducible apply emit_keeps
    | with_reducible apply modPcie_keeps
    | with_reducible apply flushPba_keeps
    | (unfold Keeps; dsimp only; with_reducible refine Keeps.unmk ?_)
    | split)

theorem execInterruptDisableSet_keeps (which : IntxOff) {z s : State} (h : Keeps z s) : KeptBy z (execInterruptDisableSet which s) := by
  unfold execInterruptDisableSet
  repeat' (first
    | with_reducible assumption
    | with_reducible refine KeptBy.next ?_
    | with_reducible apply cfgRequest_keeps
    | with_reducible apply intxOff_keeps
    | (intro t ht))

theorem clearIntx_keeps {z s : State} (i v : Nat) (h : Keeps z s) : Keeps z (clearIntx s i v) := by
  unfold clearIntx
  repeat' (first
    | with_reducible assumption
    | with_reducible apply emit_keeps
    | with_reducible apply modPcie_keeps
    | split)

theorem bmeClear_keeps {z s : State} (h : Keeps z s) : Keeps z (bmeClear s) := by
  unfold bmeClear
  repeat' (first
    | with_reducible assumption
    | with_reducible apply abortHostWork_keeps
    | with_reducible apply modPcie_keeps
    | split)

theorem bmeSet_keeps {z s : State} (h : Keeps z s) : Keeps z (bmeSet s) := by
  unfold bmeSet
  repeat' (first
    | with_reducible assumption
    | with_reducible apply resumeIssue_keeps
    | with_reducible apply modPcie_keeps
    | split)

theorem execBusMasterEnableClear_keeps {z s : State} (h : Keeps z s) : KeptBy z (execBusMasterEnableClear s) := by
  unfold execBusMasterEnableClear
  repeat' (first
    | with_reducible assumption
    | with_reducible refine KeptBy.next ?_
    | with_reducible apply cfgRequest_keeps
    | with_reducible apply bmeClear_keeps)

theorem execBusMasterEnableSet_keeps {z s : State} (h : Keeps z s) : KeptBy z (execBusMasterEnableSet s) := by
  unfold execBusMasterEnableSet
  repeat' (first
    | with_reducible assumption
    | with_reducible refine KeptBy.next ?_
    | with_reducible apply cfgRequest_keeps
    | with_reducible apply bmeSet_keeps)

theorem enterD3_keeps {z s : State} (h : Keeps z s) : Keeps z (enterD3 s) := by
  unfold enterD3
  repeat' (first
    | with_reducible assumption
    | with_reducible apply abortHostWork_keeps
    | with_reducible apply modPcie_keeps
    | split)

theorem leaveD3_keeps {z s : State} (h : Keeps z s) : Keeps z (leaveD3 s) := by
  unfold leaveD3
  repeat' (first
    | with_reducible assumption
    | with_reducible apply resumeIssue_keeps
    | with_reducible apply modPcie_keeps
    | split)

theorem execD3hotEntry_keeps {z s : State} (h : Keeps z s) : KeptBy z (execD3hotEntry s) := by
  unfold execD3hotEntry
  repeat' (first
    | with_reducible assumption
    | with_reducible refine KeptBy.next ?_
    | with_reducible apply cfgRequest_keeps
    | with_reducible apply enterD3_keeps)

theorem execD0Return_keeps {z s : State} (h : Keeps z s) : KeptBy z (execD0Return s) := by
  unfold execD0Return
  repeat' (first
    | with_reducible assumption
    | with_reducible refine KeptBy.next ?_
    | with_reducible apply cfgRequest_keeps
    | with_reducible apply leaveD3_keeps)

theorem ltrEnable_keeps {z s : State} (h : Keeps z s) : Keeps z (ltrEnable s) := by
  unfold ltrEnable
  repeat' (first
    | with_reducible assumption
    | with_reducible apply sendLtr_keeps
    | with_reducible apply modPcie_keeps
    | split)

theorem execLtrMechanismEnable_keeps {z s : State} (h : Keeps z s) : KeptBy z (execLtrMechanismEnable s) := by
  unfold execLtrMechanismEnable
  repeat' (first
    | with_reducible assumption
    | with_reducible refine KeptBy.next ?_
    | with_reducible apply cfgRequest_keeps
    | with_reducible apply ltrEnable_keeps)

theorem endEpoch_keeps {z s : State} (h : Keeps z s) : Keeps z (endEpoch s) := by
  unfold endEpoch
  repeat' (first
    | with_reducible assumption
    | (unfold Keeps; dsimp only; with_reducible refine Keeps.unmk ?_))

theorem resetHost_keeps {z s : State} (sticky linkKept : Bool) (h : Keeps z s) : Keeps z (resetHost s sticky linkKept) := by
  have parts : ∀ {u : State} (p : Pcie) (r : Rings) (j : Jobs) (f : FlashRegs), Keeps z u →
      Keeps z { u with pcie := p, rings := r, banks := poolBack u.banks, jobs := j, flashRegs := f } := fun _ _ _ _ hu => hu
  unfold resetHost
  exact parts _ _ _ _ (endEpoch_keeps (Keeps.ite (emit_keeps _ h) h))

theorem takeSubsys_keeps {z s : State} (h : Keeps z s) : Keeps z (takeSubsys s) := by
  unfold takeSubsys
  split
  · exact h
  · exact h

theorem execPerstN_keeps {z s : State} (h : Keeps z s) : KeptBy z (execPerstN s) := by
  unfold execPerstN
  repeat' (first
    | with_reducible assumption
    | with_reducible refine KeptBy.next ?_
    | with_reducible apply modPcie_keeps
    | with_reducible apply takeSubsys_keeps
    | with_reducible apply resetHost_keeps
    | (unfold Keeps; dsimp only; with_reducible refine Keeps.unmk ?_)
    | split)

theorem execHotReset_keeps {z s : State} (h : Keeps z s) : KeptBy z (execHotReset s) := by
  unfold execHotReset
  repeat' (first
    | with_reducible assumption
    | with_reducible refine KeptBy.next ?_
    | with_reducible apply takeSubsys_keeps
    | with_reducible apply resetHost_keeps
    | split)

theorem execFunctionLevelReset_keeps {z s : State} (h : Keeps z s) : KeptBy z (execFunctionLevelReset s) := by
  unfold execFunctionLevelReset
  repeat' (first
    | with_reducible assumption
    | with_reducible refine KeptBy.next ?_
    | with_reducible apply resetHost_keeps
    | split)

theorem execPerstNRelease_keeps {z s : State} (h : Keeps z s) : KeptBy z (execPerstNRelease s) := by
  unfold execPerstNRelease
  repeat' (first
    | with_reducible assumption
    | with_reducible refine KeptBy.next ?_
    | with_reducible apply modPcie_keeps
    | (unfold Keeps; dsimp only; with_reducible refine Keeps.unmk ?_)
    | split)

theorem zeroPool_keeps {z s : State} (h : Keeps z s) : Keeps z (zeroPool s) :=
  ⟨h.pending, h.out, fun m => ⟨clearPool_wf _ (h.mem m).1, (h.mem m).2⟩, h.flash, h.now⟩

theorem execHostPoolZeroed_keeps {z s : State} (h : Keeps z s) : KeptBy z (execHostPoolZeroed s) := by
  unfold execHostPoolZeroed
  repeat' (first
    | with_reducible assumption
    | with_reducible refine KeptBy.next ?_
    | with_reducible apply zeroPool_keeps
    | with_reducible refine fun t ht => ?_
    | with_reducible refine fun t x ht => ?_
    | with_reducible apply KeptBy.ite
    | with_reducible apply Keeps.ite)

theorem execAtsInvalidateRequest_keeps (itag addr size : Nat) {z s : State} (h : Keeps z s) : KeptBy z (execAtsInvalidateRequest itag addr size s) := by
  unfold execAtsInvalidateRequest
  repeat' (first
    | with_reducible assumption
    | with_reducible refine KeptBy.next ?_
    | with_reducible apply modPcie_keeps
    | split)

theorem execAtsInvalidateCompletion_keeps {z s : State} (h : Keeps z s) : KeptBy z (execAtsInvalidateCompletion s) := by
  unfold execAtsInvalidateCompletion
  repeat' (first
    | with_reducible assumption
    | with_reducible refine KeptBy.next ?_
    | with_reducible apply emit_keeps
    | with_reducible apply modPcie_keeps
    | split)

theorem execUnsupportedRequest_keeps (k : BadRequest) {z s : State} (h : Keeps z s) : KeptBy z (execUnsupportedRequest k s) := by
  unfold execUnsupportedRequest
  repeat' (first
    | with_reducible assumption
    | with_reducible refine KeptBy.next ?_
    | with_reducible apply aer_keeps
    | with_reducible apply refuseRequest_keeps
    | split)

theorem modWin_keeps {z s : State} (k : Nat) (f : Win → Win) (h : Keeps z s) : Keeps z (modWin s k f) := by
  unfold modWin
  repeat' (first
    | with_reducible assumption
    | with_reducible apply modPcie_keeps)

theorem hostViolation_keeps {z s : State} (write : Bool) (bank requester owner : Nat) (h : Keeps z s) : Keeps z (hostViolation s write bank requester owner) := by
  unfold hostViolation
  repeat' (first
    | with_reducible assumption
    | (unfold Keeps; dsimp only; with_reducible refine Keeps.unmk ?_))

theorem winDrop_keeps {z s : State} (k : Nat) (h : Keeps z s) : Keeps z (winDrop s k) := by
  unfold winDrop
  repeat' (first
    | with_reducible assumption
    | with_reducible apply modWin_keeps)

theorem winRefused_keeps {z s : State} (k : Nat) (write : Bool) (j : WinJudge) (h : Keeps z s) : Keeps z (winRefused s k write j) := by
  unfold winRefused
  repeat' (first
    | with_reducible assumption
    | with_reducible apply aer_keeps
    | with_reducible apply winDrop_keeps
    | with_reducible apply hostViolation_keeps
    | split)

theorem winReadError_keeps {z s : State} (a : Nat) (h : Keeps z s) : Keeps z (winReadError s a) := by
  unfold winReadError
  repeat' (first
    | with_reducible assumption
    | with_reducible apply detect_keeps
    | with_reducible apply emit_keeps
    | with_reducible apply aer_keeps
    | (unfold Keeps; dsimp only; with_reducible refine Keeps.unmk ?_))

/-- Writes of single bytes keep the form. -/
theorem mputs_wf : ∀ (l : List (Nat × Byte)) (m : Mem), Memory.wf 0 m = true →
    Memory.wf 0 (l.foldl (fun m e => mput 0 m e.1 e.2) m) = true
  | [], _, h => h
  | e :: l, m, h => mputs_wf l (mput 0 m e.1 e.2) (mput_wf _ e.2 h)

theorem putPortB_keeps {z s : State} (portB : List (Nat × Byte)) (h : Keeps z s) :
    Keeps z { s with banks := { s.banks with mem := putPortB s.banks.mem portB } } :=
  ⟨h.pending, h.out, fun m => ⟨mputs_wf _ _ (h.mem m).1, (h.mem m).2⟩, h.flash, h.now⟩

theorem execWindowRead_keeps (k x len : Nat) (cycles : ReadCycles) {z s : State} (h : Keeps z s) : KeptBy z (execWindowRead k x len cycles s) := by
  unfold execWindowRead
  repeat' (first
    | with_reducible assumption
    | with_reducible refine KeptBy.next ?_
    | with_reducible apply memRequest_keeps
    | with_reducible apply winReadError_keeps
    | with_reducible apply emit_keeps
    | with_reducible apply winRefused_keeps
    | with_reducible apply putPortB_keeps
    | with_reducible refine fun t ht => ?_
    | with_reducible refine fun t x ht => ?_
    | with_reducible apply KeptBy.ite
    | with_reducible apply Keeps.ite
    | split)

theorem countCollision_keeps {z s : State} (a : Nat) (h : Keeps z s) : Keeps z (countCollision s a) := by
  unfold countCollision
  repeat' (first
    | with_reducible assumption
    | (unfold Keeps; dsimp only; with_reducible refine Keeps.unmk ?_))

theorem openingMailbox_keeps {z s : State} (h : Keeps z s) : Keeps z (openingMailbox s) := by
  unfold openingMailbox
  exact Keeps.ite (latchMailbox_keeps h) h

/-- A write through a window keeps the form. -/
theorem winStore_wf (w : WinSet) : ∀ (l : Bytes) (m : Mem) (x : Nat), Memory.wf 0 m = true → Memory.wf 0 (winStore w m x l) = true
  | [], _, _, h => h
  | b :: l, m, x, h => winStore_wf w l (mput 0 m (winAddr w x) b) (x + 1) (mput_wf _ b h)

theorem winPut_keeps {z s : State} (k x : Nat) (data : Bytes) (portB : List (Nat × Byte)) (h : Keeps z s) :
    Keeps z (winPut s k x data portB) := by
  unfold winPut
  apply openingMailbox_keeps
  exact Keeps.foldl (fun _ _ ht => countCollision_keeps _ ht) _
    ⟨h.pending, h.out, fun m => ⟨winStore_wf _ data _ x (mputs_wf _ _ (h.mem m).1), (h.mem m).2⟩, h.flash, h.now⟩

theorem execWindowWrite_keeps (k x : Nat) (data : Bytes) (portB : List (Nat × Byte)) {z s : State} (h : Keeps z s) : KeptBy z (execWindowWrite k x data portB s) := by
  unfold execWindowWrite
  repeat' (first
    | with_reducible assumption
    | with_reducible refine KeptBy.next ?_
    | with_reducible apply memRequest_keeps
    | with_reducible apply winPut_keeps
    | with_reducible apply winRefused_keeps
    | with_reducible refine fun t ht => ?_
    | with_reducible refine fun t x ht => ?_
    | with_reducible apply KeptBy.ite
    | with_reducible apply Keeps.ite
    | split)

theorem winCommit_keeps {z s : State} (k : Nat) (go : Bool) (h : Keeps z s) : Keeps z (winCommit s k go) := by
  unfold winCommit
  repeat' (first
    | with_reducible assumption
    | with_reducible apply modWin_keeps
    | split)

theorem boundWrite_keeps {z s : State} (k : State → State) (hk : ∀ t, Keeps z t → Keeps z (k t)) (h : Keeps z s) : Keeps z (boundWrite s k) := by
  unfold boundWrite
  repeat' (first
    | with_reducible assumption
    | with_reducible apply memRequest_keeps
    | (intro t ht)
    | with_reducible apply hk
    | split)

theorem execWinCommit_keeps (k : Nat) (go : Bool) {z s : State} (h : Keeps z s) : KeptBy z (execWinCommit k go s) := by
  unfold execWinCommit
  repeat' (first
    | with_reducible assumption
    | with_reducible refine KeptBy.next ?_
    | with_reducible apply boundWrite_keeps
    | with_reducible apply winCommit_keeps
    | with_reducible refine fun t ht => ?_
    | with_reducible refine fun t x ht => ?_
    | with_reducible apply KeptBy.ite)

theorem execBankOwnerWrite_keeps (bank owner : Nat) {z s : State} (h : Keeps z s) : KeptBy z (execBankOwnerWrite bank owner s) := by
  unfold execBankOwnerWrite
  repeat' (first
    | with_reducible assumption
    | with_reducible refine KeptBy.next ?_
    | with_reducible apply boundWrite_keeps
    | with_reducible apply assignBank_keeps
    | with_reducible refine fun t ht => ?_
    | with_reducible refine fun t x ht => ?_
    | with_reducible apply KeptBy.ite)

theorem ringDoorbell_keeps {z s : State} (r : Nat) (v : Word32) (h : Keeps z s) : Keeps z (ringDoorbell s r v) := by
  unfold ringDoorbell
  repeat' (first
    | with_reducible assumption
    | with_reducible apply modRing_keeps
    | with_reducible apply writeCompletions_keeps
    | (unfold Keeps; dsimp only; with_reducible refine Keeps.unmk ?_)
    | split)

theorem execDoorbellWrite_keeps (r : Nat) (part : DbPart) (v : Word32) {z s : State} (h : Keeps z s) : KeptBy z (execDoorbellWrite r part v s) := by
  unfold execDoorbellWrite
  repeat' (first
    | with_reducible assumption
    | with_reducible refine KeptBy.next ?_
    | with_reducible apply boundWrite_keeps
    | with_reducible apply ringDoorbell_keeps
    | (intro t ht)
    | split)

theorem ringStart_keeps {z s : State} (r : Nat) (h : Keeps z s) : Keeps z (ringStart s r) := by
  unfold ringStart
  repeat' (first
    | with_reducible assumption
    | with_reducible apply modRing_keeps
    | with_reducible apply writeCompletions_keeps
    | (unfold Keeps; dsimp only; with_reducible refine Keeps.unmk ?_)
    | split)

theorem writeRtCtrl_keeps {z s : State} (r v : Nat) (h : Keeps z s) : Keeps z (writeRtCtrl s r v) := by
  unfold writeRtCtrl
  repeat' (first
    | with_reducible assumption
    | with_reducible apply modRing_keeps
    | with_reducible apply ringStart_keeps
    | (unfold Keeps; dsimp only; with_reducible refine Keeps.unmk ?_)
    | split)

theorem writeRtNotify_keeps {z s : State} (r v : Nat) (h : Keeps z s) : Keeps z (writeRtNotify s r v) := by
  unfold writeRtNotify
  repeat' (first
    | with_reducible assumption
    | with_reducible apply modRing_keeps
    | with_reducible apply notify_keeps
    | (unfold Keeps; dsimp only; with_reducible refine Keeps.unmk ?_)
    | split)

theorem writeRtPlace_keeps {z s : State} (r k v : Nat) (h : Keeps z s) : Keeps z (writeRtPlace s r k v) := by
  unfold writeRtPlace
  repeat' (first
    | with_reducible assumption
    | with_reducible apply modRing_keeps)

theorem writeRt_keeps {z s : State} (r k v : Nat) (h : Keeps z s) : Keeps z (writeRt s r k v) := by
  unfold writeRt
  repeat' (first
    | with_reducible assumption
    | with_reducible apply writeRtCtrl_keeps
    | with_reducible apply writeRtNotify_keeps
    | with_reducible apply writeRtPlace_keeps
    | split)

theorem execRingEnable_keeps (r : Nat) (v : Word32) {z s : State} (h : Keeps z s) : KeptBy z (execRingEnable r v s) := by
  unfold execRingEnable
  repeat' (first
    | with_reducible assumption
    | with_reducible refine KeptBy.next ?_
    | with_reducible apply boundWrite_keeps
    | with_reducible apply writeRt_keeps
    | (intro t ht))

theorem execRingDisable_keeps (r : Nat) (v : Word32) {z s : State} (h : Keeps z s) : KeptBy z (execRingDisable r v s) := by
  unfold execRingDisable
  repeat' (first
    | with_reducible assumption
    | with_reducible refine KeptBy.next ?_
    | with_reducible apply boundWrite_keeps
    | with_reducible apply writeRt_keeps
    | (intro t ht))

theorem execNotifyUnmask_keeps (r : Nat) (v : Word32) {z s : State} (h : Keeps z s) : KeptBy z (execNotifyUnmask r v s) := by
  unfold execNotifyUnmask
  repeat' (first
    | with_reducible assumption
    | with_reducible refine KeptBy.next ?_
    | with_reducible apply boundWrite_keeps
    | with_reducible apply writeRt_keeps
    | (intro t ht))

theorem latchSeq_keeps {z s : State} (q : Nat) (h : Keeps z s) : Keeps z (latchSeq s q) := by
  unfold latchSeq
  repeat' (first
    | with_reducible assumption
    | (unfold Keeps; dsimp only; with_reducible refine Keeps.unmk ?_)
    | with_reducible apply Keeps.ite
    | split)

theorem latchMean_keeps {z s : State} (e : Nat) (h : Keeps z s) : Keeps z (latchMean s e) := by
  unfold latchMean
  repeat' (first
    | with_reducible assumption
    | (unfold Keeps; dsimp only; with_reducible refine Keeps.unmk ?_))

theorem latchTime_latch_keeps {z s : State} (lo rawHi hi ns : Nat) (h : Keeps z s) : Keeps z (latchTime.latch lo rawHi hi ns s) :=
  ⟨h.pending, h.out, h.mem, h.flash, h.now⟩

theorem latchTime_keeps {z s : State} (h : Keeps z s) : Keeps z (latchTime s) := by
  unfold latchTime
  exact latchTime_latch_keeps _ _ _ _ h

theorem latchMaster_keeps {z s : State} (x : Nat) (h : Keeps z s) : Keeps z (latchMaster s x) := by
  unfold latchMaster
  repeat' (first
    | with_reducible assumption
    | with_reducible apply modDom_keeps)

theorem readLatch_keeps {z s : State} (o : Nat) (h : Keeps z s) : Keeps z (readLatch s o) := by
  unfold readLatch
  repeat' (first
    | with_reducible assumption
    | with_reducible apply latchTime_keeps
    | with_reducible apply latchMaster_keeps
    | with_reducible apply latchSeq_keeps
    | with_reducible apply latchMean_keeps
    | with_reducible apply Keeps.ite)

theorem bar0Reads_keeps {z : State} : ∀ (k : Nat) {s : State} (o : Nat), Keeps z s → Keeps z (bar0Reads k s o).2
  | 0, _, _, h => h
  | k + 1, _, o, h => bar0Reads_keeps k (o + 4) (readLatch_keeps o h)

theorem bar0ReadRequest_keeps {z s : State} (o len : Nat) (h : Keeps z s) : Keeps z (bar0ReadRequest s o len) := by
  unfold bar0ReadRequest
  repeat' (first
    | with_reducible assumption
    | with_reducible apply memRequest_keeps
    | with_reducible apply bar0Reads_keeps
    | with_reducible apply emit_keeps
    | with_reducible apply aer_keeps
    | with_reducible apply bar0Reads_keeps
    | with_reducible refine fun _ => ?_
    | (unfold Keeps; dsimp only; with_reducible refine Keeps.unmk ?_)
    | with_reducible apply Keeps.ite)

theorem execSqDeadLoRead_keeps (q : Nat) {z s : State} (h : Keeps z s) : KeptBy z (execSqDeadLoRead q s) := by
  unfold execSqDeadLoRead
  repeat' (first
    | with_reducible assumption
    | with_reducible refine KeptBy.next ?_
    | with_reducible apply bar0ReadRequest_keeps)

theorem execImMeanLoRead_keeps (e : Nat) {z s : State} (h : Keeps z s) : KeptBy z (execImMeanLoRead e s) := by
  unfold execImMeanLoRead
  repeat' (first
    | with_reducible assumption
    | with_reducible refine KeptBy.next ?_
    | with_reducible apply bar0ReadRequest_keeps)

theorem execTbRawLoRead_keeps {z s : State} (h : Keeps z s) : KeptBy z (execTbRawLoRead s) := by
  unfold execTbRawLoRead
  repeat' (first
    | with_reducible assumption
    | with_reducible refine KeptBy.next ?_
    | with_reducible apply bar0ReadRequest_keeps)

theorem execTbDomGmLoRead_keeps (x : Nat) {z s : State} (h : Keeps z s) : KeptBy z (execTbDomGmLoRead x s) := by
  unfold execTbDomGmLoRead
  repeat' (first
    | with_reducible assumption
    | with_reducible refine KeptBy.next ?_
    | with_reducible apply bar0ReadRequest_keeps)

theorem writeExpMax_keeps {z s : State} (v : Nat) (h : Keeps z s) : Keeps z (writeExpMax s v) := by
  unfold writeExpMax
  repeat' (first
    | with_reducible assumption
    | (unfold Keeps; dsimp only; with_reducible refine Keeps.unmk ?_)
    | split)

theorem execExpansionMaxWrite_keeps (v : Word32) {z s : State} (h : Keeps z s) : KeptBy z (execExpansionMaxWrite v s) := by
  unfold execExpansionMaxWrite
  repeat' (first
    | with_reducible assumption
    | with_reducible refine KeptBy.next ?_
    | with_reducible apply boundWrite_keeps
    | with_reducible apply writeExpMax_keeps
    | (intro t ht))

theorem execIntxPendingWrite_keeps (i : Nat) (v : Word32) {z s : State} (h : Keeps z s) : KeptBy z (execIntxPendingWrite i v s) := by
  unfold execIntxPendingWrite
  repeat' (first
    | with_reducible assumption
    | with_reducible refine KeptBy.next ?_
    | with_reducible apply memRequest_keeps
    | with_reducible apply clearIntx_keeps
    | (intro t ht))

theorem writeIrqEnable_keeps {z s : State} (v : Nat) (h : Keeps z s) : Keeps z (writeIrqEnable s v) := by
  unfold writeIrqEnable
  repeat' (first
    | with_reducible assumption
    | with_reducible apply modPcie_keeps
    | with_reducible apply signal_keeps
    | (unfold Keeps; dsimp only; with_reducible refine Keeps.unmk ?_)
    | split)

theorem writeFlashCtrl_keeps {z s : State} (v : Nat) (h : Keeps z s) : Keeps z (writeFlashCtrl s v) := by
  unfold writeFlashCtrl
  repeat' (first
    | with_reducible assumption
    | with_reducible apply flashGo_keeps
    | (unfold Keeps; dsimp only; with_reducible refine Keeps.unmk ?_)
    | split)

theorem writeIdent_keeps {z s : State} (o v : Nat) (h : Keeps z s) : Keeps z (writeIdent s o v) := by
  unfold writeIdent
  repeat' (first
    | with_reducible assumption
    | with_reducible apply rebindGo_keeps
    | with_reducible apply modPcie_keeps
    | with_reducible apply writeIrqEnable_keeps
    | with_reducible apply writeFlashCtrl_keeps
    | with_reducible apply clearIntx_keeps
    | with_reducible apply Keeps.foldl
    | with_reducible apply Keeps.foldl_fst
    | (intro t x ht)
    | (unfold Keeps; dsimp only; with_reducible refine Keeps.unmk ?_)
    | split)

theorem writeFg_keeps {z s : State} (o v : Nat) (h : Keeps z s) : Keeps z (writeFg s o v) := by
  unfold writeFg
  repeat' (first
    | with_reducible assumption
    | (unfold Keeps; dsimp only; with_reducible refine Keeps.unmk ?_)
    | split)

theorem writeRd_keeps {z s : State} (o v : Nat) (h : Keeps z s) : Keeps z (writeRd s o v) := by
  unfold writeRd
  repeat' (first
    | with_reducible assumption
    | (unfold Keeps; dsimp only; with_reducible refine Keeps.unmk ?_)
    | split)

theorem writeIm_keeps {z s : State} (o v : Nat) (h : Keeps z s) : Keeps z (writeIm s o v) := by
  unfold writeIm
  repeat' (first
    | with_reducible assumption
    | (unfold Keeps; dsimp only; with_reducible refine Keeps.unmk ?_)
    | split)

theorem writeWin_keeps {z s : State} (k o v : Nat) (h : Keeps z s) : Keeps z (writeWin s k o v) := by
  unfold writeWin
  repeat' (first
    | with_reducible assumption
    | with_reducible apply modWin_keeps
    | with_reducible apply winCommit_keeps
    | (unfold Keeps; dsimp only; with_reducible refine Keeps.unmk ?_)
    | split)

theorem writeBk_keeps {z s : State} (o v : Nat) (h : Keeps z s) : Keeps z (writeBk s o v) := by
  unfold writeBk
  repeat' (first
    | with_reducible assumption
    | with_reducible apply assignBank_keeps
    | with_reducible apply writeWin_keeps
    | (unfold Keeps; dsimp only; with_reducible refine Keeps.unmk ?_)
    | split)

theorem writePw_keeps {z s : State} (o v : Nat) (h : Keeps z s) : Keeps z (writePw s o v) := by
  unfold writePw
  repeat' (first
    | with_reducible assumption
    | with_reducible apply Keeps.foldl
    | with_reducible apply Keeps.foldl_fst
    | (intro t x ht)
    | (unfold Keeps; dsimp only; with_reducible refine Keeps.unmk ?_)
    | split)

theorem bar0Write_keeps {z s : State} (o v : Nat) (h : Keeps z s) : Keeps z (bar0Write s o v) := by
  unfold bar0Write
  repeat' (first
    | with_reducible assumption
    | with_reducible apply writeIdent_keeps
    | with_reducible apply writeFg_keeps
    | with_reducible apply writeRd_keeps
    | with_reducible apply writeIm_keeps
    | with_reducible apply writeBk_keeps
    | with_reducible apply writeExpMax_keeps
    | with_reducible apply writePw_keeps
    | with_reducible apply writeRt_keeps
    | with_reducible apply ringDoorbell_keeps
    | (unfold Keeps; dsimp only; with_reducible refine Keeps.unmk ?_)
    | with_reducible apply Keeps.ite)

theorem bar0Request_keeps {z s : State} (o : Nat) (all : Bool) (data : Bytes) (h : Keeps z s) : Keeps z (bar0Request s o all data) := by
  unfold bar0Request
  repeat' (first
    | with_reducible assumption
    | with_reducible apply aer_keeps
    | with_reducible apply bar0Write_keeps
    | (unfold Keeps; dsimp only; with_reducible refine Keeps.unmk ?_)
    | split)

theorem bar4Write_keeps {z s : State} (o v : Nat) (h : Keeps z s) : Keeps z (bar4Write s o v) := by
  unfold bar4Write
  repeat' (first
    | with_reducible assumption
    | with_reducible apply modPcie_keeps
    | with_reducible apply flushPba_keeps
    | (unfold Keeps; dsimp only; with_reducible refine Keeps.unmk ?_)
    | split)

theorem bar4Request_keeps {z s : State} (o : Nat) (data : Bytes) (h : Keeps z s) : Keeps z (bar4Request s o data) := by
  unfold bar4Request
  repeat' (first
    | with_reducible assumption
    | with_reducible apply bar4Write_keeps
    | (unfold Keeps; dsimp only; with_reducible refine Keeps.unmk ?_)
    | split)

theorem writeCommand_keeps {z s : State} (v : Nat) (h : Keeps z s) : Keeps z (writeCommand s v) := by
  unfold writeCommand
  repeat' (first
    | with_reducible assumption
    | with_reducible apply modPcie_keeps
    | with_reducible apply intxOff_keeps
    | with_reducible apply bmeSet_keeps
    | with_reducible apply bmeClear_keeps
    | with_reducible apply Keeps.foldl
    | with_reducible apply Keeps.foldl_fst
    | (intro t x ht)
    | (unfold Keeps; dsimp only; with_reducible refine Keeps.unmk ?_)
    | split)

theorem writeDevCtl_keeps {z s : State} (v : Nat) (h : Keeps z s) : Keeps z (writeDevCtl s v) := by
  unfold writeDevCtl
  repeat' (first
    | with_reducible assumption
    | with_reducible apply resetHost_keeps
    | with_reducible apply modPcie_keeps
    | with_reducible apply Keeps.foldl
    | with_reducible apply Keeps.foldl_fst
    | (intro t x ht)
    | split)

theorem writeDevCtl2_keeps {z s : State} (v : Nat) (h : Keeps z s) : Keeps z (writeDevCtl2 s v) := by
  unfold writeDevCtl2
  repeat' (first
    | with_reducible assumption
    | with_reducible apply modPcie_keeps
    | with_reducible apply sendLtr_keeps
    | (unfold Keeps; dsimp only; with_reducible refine Keeps.unmk ?_)
    | split)

theorem writeMsixCtl_keeps {z s : State} (v : Nat) (h : Keeps z s) : Keeps z (writeMsixCtl s v) := by
  unfold writeMsixCtl
  repeat' (first
    | with_reducible assumption
    | with_reducible apply modPcie_keeps
    | with_reducible apply flushPba_keeps
    | with_reducible apply intxOff_keeps
    | (unfold Keeps; dsimp only; with_reducible refine Keeps.unmk ?_)
    | split)

theorem cfgWrite_keeps {z s : State} (o v : Nat) (h : Keeps z s) : Keeps z (cfgWrite s o v) := by
  unfold cfgWrite
  repeat' (first
    | with_reducible assumption
    | with_reducible apply writeCommand_keeps
    | with_reducible apply modPcie_keeps
    | with_reducible apply enterD3_keeps
    | with_reducible apply leaveD3_keeps
    | with_reducible apply writeDevCtl_keeps
    | with_reducible apply writeDevCtl2_keeps
    | with_reducible apply writeMsixCtl_keeps
    | with_reducible apply Keeps.ite)

theorem execRegisterWrite_keeps (o : Nat) (all : Bool) (data : Bytes) {z s : State} (h : Keeps z s) : KeptBy z (execRegisterWrite o all data s) := by
  unfold execRegisterWrite
  repeat' (first
    | with_reducible assumption
    | with_reducible refine KeptBy.next ?_
    | with_reducible apply memRequest_keeps
    | with_reducible apply bar0Request_keeps
    | with_reducible apply bar4Request_keeps
    | with_reducible apply refuseRequest_keeps
    | with_reducible apply cfgRequest_keeps
    | with_reducible apply cfgWrite_keeps
    | (intro t ht)
    | split)

theorem internalViolation_keeps {z s : State} (write portB : Bool) (bank : Nat) (u : FUnit) (h : Keeps z s) :
    Keeps z (internalViolation s write portB bank u) := h

theorem raiseFault_keeps {z s : State} (u : FUnit) (cause detail : Nat) (h : Keeps z s) : Keeps z (raiseFault s u cause detail) := by
  unfold raiseFault
  repeat' (first
    | with_reducible assumption
    | with_reducible apply dramError_keeps
    | with_reducible apply bankError_keeps
    | with_reducible apply detect_keeps
    | with_reducible apply modRing_keeps
    | with_reducible apply aer_keeps
    | with_reducible apply internalViolation_keeps
    | (unfold Keeps; dsimp only; with_reducible refine Keeps.unmk ?_)
    | split)

theorem execFence_keeps (u : FUnit) (cause detail : Nat) {z s : State} (h : Keeps z s) : KeptBy z (execFence u cause detail s) := by
  unfold execFence
  repeat' (first
    | with_reducible assumption
    | with_reducible refine KeptBy.next ?_
    | with_reducible apply raiseFault_keeps
    | split)

theorem modFence_keeps {z s : State} (u : FUnit) (f : Fence → Fence) (h : Keeps z s) : Keeps z (modFence s u f) := by
  unfold modFence
  repeat' (first
    | with_reducible assumption
    | (unfold Keeps; dsimp only; with_reducible refine Keeps.unmk ?_))

theorem patternBank_keeps {z s : State} (u : FUnit) (h : Keeps z s) : Keeps z (patternBank s u) := by
  unfold patternBank
  refine Keeps.ite h ?_
  split
  · exact h
  · exact h

theorem patternDone_keeps {z s : State} (u : FUnit) (h : Keeps z s) : Keeps z (patternDone s u) := by
  unfold patternDone
  exact Keeps.ite h h

theorem execQuarantineEnd_keeps (u : FUnit) {z s : State} (h : Keeps z s) : KeptBy z (execQuarantineEnd u s) := by
  unfold execQuarantineEnd
  repeat' (first
    | with_reducible assumption
    | with_reducible refine KeptBy.next ?_
    | with_reducible apply modFence_keeps
    | with_reducible apply advanceTo_keeps
    | with_reducible apply islandPower_keeps
    | with_reducible apply patternBank_keeps
    | with_reducible apply Keeps.ite
    | split)

theorem storeTest_keeps {z s : State} (u : FUnit) (h : Keeps z s) : Keeps z (storeTest s u) := by
  unfold storeTest
  repeat' (first
    | with_reducible assumption
    | with_reducible apply takeFree_keeps
    | with_reducible apply storeWrite_keeps
    | (unfold Keeps; dsimp only; with_reducible refine Keeps.unmk ?_)
    | with_reducible apply Keeps.ite)

theorem testedGroup_keeps {z s : State} (u : FUnit) (res : Option GroupBoot) (h : Keeps z s) : Keeps z (testedGroup s u res) := by
  unfold testedGroup
  repeat' (first
    | with_reducible assumption
    | with_reducible apply recordUnused_keeps
    | with_reducible apply islandReady_keeps
    | split)

theorem failedGroup_keeps {z s : State} (u : FUnit) (res : Option GroupBoot) (h : Keeps z s) : Keeps z (failedGroup s u res) := by
  unfold failedGroup
  split
  · exact Keeps.ite (noteFuse_keeps _ h) h
  · exact h

theorem execSelfTestComplete_keeps (u : FUnit) (pass : Bool) (res : Option GroupBoot) {z s : State} (h : Keeps z s) : KeptBy z (execSelfTestComplete u pass res s) := by
  unfold execSelfTestComplete
  repeat' (first
    | with_reducible assumption
    | with_reducible refine KeptBy.next ?_
    | with_reducible apply storeTest_keeps
    | with_reducible apply patternDone_keeps
    | with_reducible apply modFence_keeps
    | with_reducible apply testedGroup_keeps
    | with_reducible apply detect_keeps
    | with_reducible apply failedGroup_keeps
    | with_reducible refine fun _ => ?_
    | with_reducible apply KeptBy.ite
    | with_reducible apply Keeps.ite
    | split)

theorem execReadmit_keeps (u : FUnit) {z s : State} (h : Keeps z s) : KeptBy z (execReadmit u s) := by
  unfold execReadmit
  repeat' (first
    | with_reducible assumption
    | with_reducible refine KeptBy.next ?_
    | with_reducible apply readmit_keeps
    | with_reducible refine fun _ => ?_
    | with_reducible apply KeptBy.ite
    | with_reducible apply Keeps.ite
    | split)

theorem sealNow_keeps {z s : State} (open_ storeOk : Bool) (h : Keeps z s) : Keeps z (sealNow s open_ storeOk) := by
  unfold sealNow
  repeat' (first
    | with_reducible assumption
    | with_reducible apply frankSeal_keeps
    | (unfold Keeps; dsimp only; with_reducible refine Keeps.unmk ?_)
    | split)

theorem execSealChange_keeps (open_ : Bool) (how : SealLevel) {z s : State} (h : Keeps z s) : KeptBy z (execSealChange open_ how s) := by
  unfold execSealChange
  repeat' (first
    | with_reducible assumption
    | with_reducible refine KeptBy.next ?_
    | with_reducible apply sealNow_keeps
    | with_reducible refine fun _ => ?_
    | (unfold Keeps; dsimp only; with_reducible refine Keeps.unmk ?_)
    | with_reducible apply KeptBy.ite
    | with_reducible apply Keeps.ite)

theorem measured_keeps {z s : State} (m : PwMeas) (h : Keeps z s) : Keeps z (measured s m) := by
  unfold measured
  repeat' (first
    | with_reducible assumption
    | with_reducible apply Keeps.foldl
    | with_reducible apply Keeps.foldl_fst
    | (intro t x ht)
    | (unfold Keeps; dsimp only; with_reducible refine Keeps.unmk ?_))

theorem hotFaults_keeps {z s : State} (h : Keeps z s) : Keeps z (hotFaults s) := by
  unfold hotFaults
  repeat' (first
    | with_reducible assumption
    | with_reducible apply detect_keeps
    | (unfold Keeps; dsimp only; with_reducible refine Keeps.unmk ?_)
    | split)

theorem auxFound_keeps {z s : State} (mv : Nat) (h : Keeps z s) : Keeps z (auxFound s mv) := by
  unfold auxFound
  split
  · exact h
  · exact h

theorem execPwMeasurementUpdate_keeps (m : PwMeas) {z s : State} (h : Keeps z s) : KeptBy z (execPwMeasurementUpdate m s) := by
  have h := auxFound_keeps (nth m.volts 2) h
  unfold execPwMeasurementUpdate
  dsimp only
  repeat' (first
    | with_reducible assumption
    | with_reducible refine KeptBy.next ?_
    | with_reducible apply measured_keeps
    | with_reducible apply hotFaults_keeps
    | split)

theorem execLifetimeStatisticsUpdate_keeps (seconds : Nat) {z s : State} (h : Keeps z s) : KeptBy z (execLifetimeStatisticsUpdate seconds s) := by
  unfold execLifetimeStatisticsUpdate
  repeat' (first
    | with_reducible assumption
    | with_reducible refine KeptBy.next ?_
    | with_reducible apply lifetimeUpdate_keeps
    | split)

theorem execSmbusBlockRead_keeps (code : Nat) {z s : State} (h : Keeps z s) : KeptBy z (execSmbusBlockRead code s) := by
  unfold execSmbusBlockRead
  repeat' (first
    | with_reducible assumption
    | with_reducible refine KeptBy.next ?_
    | with_reducible apply emit_keeps
    | split)

theorem execSmbusAlertResponse_keeps {z s : State} (h : Keeps z s) : KeptBy z (execSmbusAlertResponse s) := by
  unfold execSmbusAlertResponse
  repeat' (first
    | with_reducible assumption
    | with_reducible refine KeptBy.next ?_
    | with_reducible apply emit_keeps
    | split)

theorem round_keeps {z s : State} (ccReads ccWrites : Nat) (h : Keeps z s) : Keeps z (round s ccReads ccWrites) := h

theorem countCorrected_keeps {z s : State} (n : Nat) (h : Keeps z s) : Keeps z (countCorrected s n) := by
  unfold countCorrected
  repeat' (first
    | with_reducible assumption
    | with_reducible apply aerCorrected_keeps
    | (unfold Keeps; dsimp only; with_reducible refine Keeps.unmk ?_))

theorem execMemoryRound_keeps (work : RoundWork) {z s : State} (h : Keeps z s) : KeptBy z (execMemoryRound work s) := by
  unfold execMemoryRound
  repeat' (first
    | with_reducible assumption
    | with_reducible refine KeptBy.next ?_
    | with_reducible apply round_keeps
    | with_reducible apply countCorrected_keeps
    | with_reducible apply advanceTo_keeps
    | split)

theorem atInstant_keeps {z s t : State} {x : Nat} (e : atInstant s x = some t) (h : Keeps z s) : Keeps z t := by
  unfold atInstant at e
  split at e
  · split at e
    · cases e
    · cases e
      exact advanceTo_keeps _ h
  · cases e
    exact advanceTo_keeps _ h

theorem onPort_keeps {z s : State} (p : Nat) (k : State → State) (hk : ∀ t, Keeps z t → Keeps z (k t)) (h : Keeps z s) : Keeps z (onPort s p k) := by
  unfold onPort
  repeat' (first
    | with_reducible assumption
    | with_reducible apply modEth_keeps
    | with_reducible apply hk
    | split)

theorem dropFrame_keeps {z s : State} (p : Nat) (h : Keeps z s) : Keeps z (dropFrame s p) := by
  unfold dropFrame
  repeat' (first
    | with_reducible assumption
    | with_reducible apply modEth_keeps)

theorem sentFrame_keeps {z s : State} (p : Nat) (o : NetMsg) (h : Keeps z s) : Keeps z (sentFrame s p o) := by
  unfold sentFrame
  repeat' (first
    | with_reducible assumption
    | with_reducible apply emit_keeps
    | with_reducible apply modEth_keeps)

theorem execFrameDiscard_keeps (p : Nat) {z s : State} (h : Keeps z s) : KeptBy z (execFrameDiscard p s) := by
  unfold execFrameDiscard
  repeat' (first
    | with_reducible assumption
    | with_reducible refine KeptBy.next ?_
    | with_reducible apply onPort_keeps
    | with_reducible apply dropFrame_keeps
    | (intro t ht))

theorem execEthLinkUp_keeps (p : Nat) {z s : State} (h : Keeps z s) : KeptBy z (execEthLinkUp p s) := by
  unfold execEthLinkUp
  repeat' (first
    | with_reducible assumption
    | with_reducible refine KeptBy.next ?_
    | with_reducible apply modEth_keeps
    | split)

theorem execEthLinkDown_keeps (p : Nat) {z s : State} (h : Keeps z s) : KeptBy z (execEthLinkDown p s) := by
  unfold execEthLinkDown
  repeat' (first
    | with_reducible assumption
    | with_reducible refine KeptBy.next ?_
    | with_reducible apply modEth_keeps
    | split)

theorem onPtp_keeps {z s : State} (p : Nat) (d : PtpHead) (k : State → Nat → State) (hk : ∀ t x, Keeps z t → Keeps z (k t x)) (h : Keeps z s) : Keeps z (onPtp s p d k) := by
  unfold onPtp
  repeat' (first
    | with_reducible assumption
    | with_reducible apply onPort_keeps
    | with_reducible apply dropFrame_keeps
    | with_reducible apply modDom_keeps
    | with_reducible refine fun t ht => ?_
    | with_reducible refine fun t x ht => ?_
    | with_reducible apply hk
    | with_reducible apply Keeps.ite
    | split)

theorem execAnnounce_keeps (p : Nat) (a : AnnounceData) {z s : State} (h : Keeps z s) : KeptBy z (execAnnounce p a s) := by
  unfold execAnnounce
  repeat' (first
    | with_reducible assumption
    | with_reducible refine KeptBy.next ?_
    | with_reducible apply onPtp_keeps
    | with_reducible apply modDom_keeps
    | with_reducible refine fun _ => ?_)

theorem fromMaster_keeps {z s : State} (x sender : Nat) (k : Domain → Domain) (h : Keeps z s) : Keeps z (fromMaster s x sender k) := by
  unfold fromMaster
  repeat' (first
    | with_reducible assumption
    | with_reducible apply modDom_keeps)

theorem execSync_keeps (p : Nat) (m : SyncData) {z s : State} (h : Keeps z s) : KeptBy z (execSync p m s) := by
  unfold execSync
  repeat' (first
    | with_reducible assumption
    | with_reducible refine KeptBy.next ?_
    | with_reducible apply onPtp_keeps
    | with_reducible apply fromMaster_keeps
    | with_reducible refine fun _ => ?_)

theorem execFollowUp_keeps (p : Nat) (m : SyncData) {z s : State} (h : Keeps z s) : KeptBy z (execFollowUp p m s) := by
  unfold execFollowUp
  repeat' (first
    | with_reducible assumption
    | with_reducible refine KeptBy.next ?_
    | with_reducible apply onPtp_keeps
    | with_reducible apply fromMaster_keeps
    | with_reducible refine fun _ => ?_)

theorem execDelayReq_keeps (x : Nat) {z s : State} (h : Keeps z s) : KeptBy z (execDelayReq x s) := by
  unfold execDelayReq
  repeat' (first
    | with_reducible assumption
    | with_reducible refine KeptBy.next ?_
    | with_reducible apply sentFrame_keeps
    | with_reducible apply modDom_keeps
    | with_reducible refine atInstant_keeps (by assumption) ?_
    | with_reducible apply KeptBy.ite
    | with_reducible apply Keeps.ite
    | split)

theorem execDelayResp_keeps (p : Nat) (m : DelayData) {z s : State} (h : Keeps z s) : KeptBy z (execDelayResp p m s) := by
  unfold execDelayResp
  repeat' (first
    | with_reducible assumption
    | with_reducible refine KeptBy.next ?_
    | with_reducible apply onPtp_keeps
    | with_reducible apply modDom_keeps
    | with_reducible apply takeMeasurement_keeps
    | with_reducible refine fun _ => ?_
    | (unfold Keeps; dsimp only; with_reducible refine Keeps.unmk ?_)
    | with_reducible apply KeptBy.ite
    | with_reducible apply Keeps.ite
    | split)

theorem pulseIn_keeps {z s : State} (p : Postmark) (x : Nat) (h : Keeps z s) : Keeps z (pulseIn s p x) := by
  unfold pulseIn
  repeat' (first
    | with_reducible assumption
    | with_reducible apply modDom_keeps
    | with_reducible apply takeMeasurement_keeps
    | (unfold Keeps; dsimp only; with_reducible refine Keeps.unmk ?_)
    | split)

theorem execPpsInPulse_keeps (at_ : Postmark) {z s : State} (h : Keeps z s) : KeptBy z (execPpsInPulse at_ s) := by
  unfold execPpsInPulse
  repeat' (first
    | with_reducible assumption
    | with_reducible refine KeptBy.next ?_
    | with_reducible apply pulseIn_keeps
    | with_reducible apply Keeps.foldl
    | with_reducible apply Keeps.foldl_fst
    | (intro t x ht)
    | split)

theorem execDomainLost_keeps (x : Nat) {z s : State} (h : Keeps z s) : KeptBy z (execDomainLost x s) := by
  unfold execDomainLost
  split
  · rename_i t _
    cases e : atInstant s t with
    | none => exact .next h
    | some u => exact .next (modDom_keeps _ _ (atInstant_keeps e h))
  · exact .next h

theorem execPpsOutPulse_keeps {z s : State} (h : Keeps z s) : KeptBy z (execPpsOutPulse s) := by
  unfold execPpsOutPulse
  repeat' (first
    | with_reducible assumption
    | with_reducible refine KeptBy.next ?_
    | (unfold Keeps; dsimp only; with_reducible refine Keeps.unmk ?_)
    | with_reducible refine atInstant_keeps (by assumption) ?_
    | with_reducible apply KeptBy.ite
    | with_reducible apply Keeps.ite
    | split
    | dsimp only)

theorem execPpsOutPulseEnd_keeps {z s : State} (h : Keeps z s) : KeptBy z (execPpsOutPulseEnd s) := by
  unfold execPpsOutPulseEnd
  repeat' (first
    | with_reducible assumption
    | with_reducible refine KeptBy.next ?_
    | (unfold Keeps; dsimp only; with_reducible refine Keeps.unmk ?_)
    | with_reducible refine atInstant_keeps (by assumption) ?_
    | with_reducible apply KeptBy.ite
    | with_reducible apply Keeps.ite
    | split)

theorem askArp_keeps {z s : State} (p ip : Nat) (h : Keeps z s) : Keeps z (askArp s p ip) := by
  unfold askArp
  repeat' (first
    | with_reducible assumption
    | with_reducible apply sentFrame_keeps)

theorem execArpRequest_keeps (p asked : Nat) {z s : State} (h : Keeps z s) : KeptBy z (execArpRequest p asked s) := by
  unfold execArpRequest
  repeat' (first
    | with_reducible assumption
    | with_reducible refine KeptBy.next ?_
    | with_reducible apply onPort_keeps
    | with_reducible apply sentFrame_keeps
    | with_reducible apply dropFrame_keeps
    | (intro t ht)
    | split)

theorem execArpReply_keeps (p ip mac : Nat) {z s : State} (h : Keeps z s) : KeptBy z (execArpReply p ip mac s) := by
  unfold execArpReply
  repeat' (first
    | with_reducible assumption
    | with_reducible refine KeptBy.next ?_
    | with_reducible apply onPort_keeps
    | with_reducible apply modEth_keeps
    | with_reducible apply dropFrame_keeps
    | (intro t ht)
    | (unfold Keeps; dsimp only; with_reducible refine Keeps.unmk ?_)
    | split)

theorem execArpRetry_keeps (p ip : Nat) {z s : State} (h : Keeps z s) : KeptBy z (execArpRetry p ip s) := by
  unfold execArpRetry
  repeat' (first
    | with_reducible assumption
    | with_reducible refine KeptBy.next ?_
    | with_reducible apply askArp_keeps
    | with_reducible apply modEth_keeps
    | with_reducible refine atInstant_keeps (by assumption) ?_
    | with_reducible apply KeptBy.ite
    | with_reducible apply Keeps.ite
    | split)

theorem execArpRefresh_keeps (p ip : Nat) {z s : State} (h : Keeps z s) : KeptBy z (execArpRefresh p ip s) := by
  unfold execArpRefresh
  repeat' (first
    | with_reducible assumption
    | with_reducible refine KeptBy.next ?_
    | with_reducible apply askArp_keeps
    | with_reducible apply modEth_keeps
    | with_reducible refine atInstant_keeps (by assumption) ?_
    | with_reducible apply KeptBy.ite
    | with_reducible apply Keeps.ite
    | split)

theorem execIcmpEchoRequest_keeps (p len : Nat) (data : Bytes) {z s : State} (h : Keeps z s) : KeptBy z (execIcmpEchoRequest p len data s) := by
  unfold execIcmpEchoRequest
  repeat' (first
    | with_reducible assumption
    | with_reducible refine KeptBy.next ?_
    | with_reducible apply onPort_keeps
    | with_reducible apply sentFrame_keeps
    | with_reducible apply dropFrame_keeps
    | (intro t ht)
    | split)

theorem sendDatagram_keeps {z s : State} (q : StreamQ) (mac cost : Nat) (d : Datagram) (h : Keeps z s) : Keeps z (sendDatagram s q mac cost d) := by
  unfold sendDatagram
  repeat' (first
    | with_reducible assumption
    | with_reducible apply modEth_keeps
    | with_reducible apply ltrCheck_keeps
    | with_reducible apply sentFrame_keeps
    | (unfold Keeps; dsimp only; with_reducible refine Keeps.unmk ?_))

theorem resolveStream_keeps {z s : State} (q : StreamQ) (h : Keeps z s) : Keeps z (resolveStream s q) := by
  unfold resolveStream
  repeat' (first
    | with_reducible assumption
    | with_reducible apply askArp_keeps
    | with_reducible apply modEth_keeps
    | (unfold Keeps; dsimp only; with_reducible refine Keeps.unmk ?_)
    | split)

theorem execDatagramSend_keeps (k : Nat) {z s : State} (h : Keeps z s) : KeptBy z (execDatagramSend k s) := by
  unfold execDatagramSend
  repeat' (first
    | with_reducible assumption
    | with_reducible refine KeptBy.next ?_
    | with_reducible apply resolveStream_keeps
    | with_reducible apply sendDatagram_keeps
    | with_reducible refine atInstant_keeps (by assumption) ?_
    | with_reducible apply KeptBy.ite
    | with_reducible apply Keeps.ite
    | split
    | dsimp only)

end Sys2Proof.Machine
end

