-- ==== Sys2Proof/Laws/KeepsOff.lean ====
section
/-!
SUPPORT. The commands that write the carrier's flash or take the module to OFF: they keep less than `Keeps` says, namely the queue, the
outputs so far and the canonical form of the byte stores (`Holds`). Every other command keeps all of `Keeps`; `exec_holds` joins the
two, and `exec_keeps` lists the six commands that it leaves out.
-/
namespace Sys2Proof.Machine

/-- State `t` keeps the queue, the outputs and the form of the byte stores of state `a`. -/
structure Holds (a t : State) : Prop where
  pending : t.pending = a.pending
  out : a.out <+: t.out
  mem : a.memOk = true → t.memOk = true

theorem Keeps.holds {a t : State} (h : Keeps a t) : Holds a t := ⟨h.pending, h.out, h.memOk⟩

theorem Holds.trans {a b c : State} (h : Holds a b) (k : Holds b c) : Holds a c :=
  ⟨k.pending.trans h.pending, h.out.trans k.out, fun m => k.mem (h.mem m)⟩

theorem Holds.keeps {a b c : State} (h : Holds a b) (k : Keeps b c) : Holds a c := h.trans k.holds

/-- A state that differs in its flash alone. -/
theorem holds_flash {s t : State} (hp : t.pending = s.pending) (ho : t.out = s.out) (hb : t.banks.mem = s.banks.mem)
    (hf : t.franking.mem = s.franking.mem) (hm : Memory.wf 0xFF s.flash.mem = true → Memory.wf 0xFF t.flash.mem = true) :
    Holds s t := by
  refine ⟨hp, ho ▸ List.prefix_refl _, fun m => ?_⟩
  obtain ⟨h1, h2, h3⟩ := memOk_parts m
  have k := hm h2
  unfold State.memOk
  rw [hb, hf, h1, h3, k]
  rfl

theorem stopFlash_holds (s : State) : Holds s (stopFlash s) := by
  unfold stopFlash
  split
  · exact (Keeps.refl s).holds
  · split
    · exact (Keeps.refl s).holds
    · exact holds_flash rfl rfl rfl rfl fun h => mwrite_wf _ _ _ h

theorem moduleOff_holds (s : State) (keepUp : Bool) : Holds s (moduleOff s keepUp) := by
  obtain ⟨hp, ho, hm⟩ := stopFlash_holds s
  unfold moduleOff
  obtain ⟨u, hu⟩ : ∃ u, u = stopFlash s := ⟨_, rfl⟩
  rw [← hu] at hp ho hm
  rw [← hu]
  refine ⟨hp, ho, fun m => ?_⟩
  obtain ⟨_, h2, h3⟩ := memOk_parts (hm m)
  unfold State.memOk
  dsimp only
  rw [h2, h3]
  rfl

/-- A state whose pins and power registers alone differ. -/
theorem holds_pins (s : State) (p : Pins) (w : Power) : Holds s { s with pins := p, power := w } :=
  ⟨rfl, List.prefix_refl _, fun m => m⟩

theorem flashEffect_holds (s : State) (o : FlashOp) : Holds s (flashEffect s o) := by
  unfold flashEffect
  dsimp only
  split
  · exact ⟨rfl, List.prefix_refl _, fun m => m⟩
  · split
    · exact holds_flash rfl rfl rfl rfl fun h => mwrite_wf _ _ _ h
    · exact holds_flash rfl rfl rfl rfl fun h => mclear_wf _ _ h

/-- An outcome that keeps what `Holds` says: every next state does. -/
def HeldBy (a : State) (r : Res) : Prop := ∀ t, r = .next t → Holds a t

theorem HeldBy.next {a t : State} (h : Holds a t) : HeldBy a (.next t) := by
  intro t' e
  cases e
  exact h

theorem KeptBy.held {a : State} {r : Res} (h : KeptBy a r) : HeldBy a r := fun t e => (h t e).holds

theorem execModResetAssert_holds (s : State) : HeldBy s (execModResetAssert s) := by
  unfold execModResetAssert
  split
  · exact .next (Keeps.refl s).holds
  · dsimp only
    refine .next ?_
    have h := holds_pins s { s.pins with modResetN := false } s.power
    split
    · exact h.trans (moduleOff_holds _ _)
    · exact holds_pins s _ _

theorem execRailBrownout_holds (rail : Nat) (s : State) : HeldBy s (execRailBrownout rail s) := by
  unfold execRailBrownout
  split
  · exact .next (Keeps.refl s).holds
  · dsimp only
    refine .next ?_
    have h (w : Power) :=
      holds_pins s { s.pins with rails := s.pins.rails.set rail .brownout, good := false } w
    split
    · exact (h s.power).trans (moduleOff_holds _ _)
    · split
      · exact h s.power
      · exact h _

theorem watchdogReset_holds (code : Nat) (env : BootEnv) (s : State) : Holds s (watchdogReset s code env) :=
  (moduleOff_holds s true).keeps (startUp_keeps code env (Keeps.refl _))

theorem execWatchdogReset_holds (lockstep : Bool) (env : BootEnv) (s : State) : HeldBy s (execWatchdogReset lockstep env s) := by
  refine .next ?_
  split
  · exact watchdogReset_holds _ env s
  · exact (Keeps.refl s).holds

theorem execLockstepMismatch_holds (env : BootEnv) (s : State) : HeldBy s (execLockstepMismatch env s) := by
  refine .next ?_
  split
  · exact watchdogReset_holds 2 env s
  · exact (Keeps.refl s).holds

theorem execThermalShutdown_holds (s : State) : HeldBy s (execThermalShutdown s) := by
  have h := holds_pins s s.pins { s.power with shutdown := true, thermalOff := true }
  unfold execThermalShutdown
  refine .next ?_
  split
  · exact h.trans (moduleOff_holds _ _)
  · split
    · exact h
    · exact (Keeps.refl s).holds

theorem execFlashOperationComplete_holds (ok : Bool) (s : State) : HeldBy s (execFlashOperationComplete ok s) := by
  unfold execFlashOperationComplete
  split
  · rename_i o _
    split
    · exact .next (Keeps.refl s).holds
    · dsimp only
      refine .next ?_
      have h : Holds s (if (ok && decide (s.flash.sizeMbit ≠ 0)) = true then flashEffect s o else flashFailed s) := by
        split
        · exact flashEffect_holds s o
        · exact stopFlash_holds s
      have k := h.keeps (endFlash_keeps o (if (ok && decide (s.flash.sizeMbit ≠ 0)) = true then 0 else 4) (Keeps.refl _))
      exact k.keeps (Keeps.ite (rebindSample_keeps (Keeps.refl _)) (Keeps.refl _))
  · exact .next (Keeps.refl s).holds

/-- Every other command but FLASH_OPERATION_COMPLETE keeps all that `Keeps` names. -/
theorem exec_keeps (c : Instr) (s : State) (off : takesOff c = false) (fl : ∀ ok, c ≠ .flashOperationComplete ok) :
    KeptBy s (exec c s) := by
  cases c with
  | powerGood env => exact execPowerGood_keeps env (.refl s)
  | modResetAssert => cases off
  | modResetRelease env => exact execModResetRelease_keeps env (.refl s)
  | railBrownout _ => cases off
  | railOutOfTolerance rail => exact execRailOutOfTolerance_keeps rail (.refl s)
  | watchdogReset _ _ => cases off
  | lockstepMismatch _ => cases off
  | thermalShutdown => cases off
  | thermalRestart env => exact execThermalRestart_keeps env (.refl s)
  | islandPowerWave k res => exact execIslandPowerWave_keeps k res (.refl s)
  | refInPresent pllSLocks => exact execRefInPresent_keeps pllSLocks (.refl s)
  | refInLost => exact execRefInLost_keeps (.refl s)
  | refWaitExpiry => exact execRefWaitExpiry_keeps (.refl s)
  | leaderChoiceTimeout => exact execLeaderChoiceTimeout_keeps (.refl s)
  | positionToken p => exact execPositionToken_keeps p (.refl s)
  | chainTokenTimeout => exact execChainTokenTimeout_keeps (.refl s)
  | alignmentMark => exact execAlignmentMark_keeps (.refl s)
  | armingEntry => exact execArmingEntry_keeps (.refl s)
  | runningEntry => exact execRunningEntry_keeps (.refl s)
  | frameTick => exact execFrameTick_keeps (.refl s)
  | frameNumberWrap => exact execFrameNumberWrap_keeps (.refl s)
  | timeRawWrap => exact execTimeRawWrap_keeps (.refl s)
  | coastingEnd => exact execCoastingEnd_keeps (.refl s)
  | memoryRound work => exact execMemoryRound_keeps work (.refl s)
  | frameRelease f => exact execFrameRelease_keeps f (.refl s)
  | rearm q => exact execRearm_keeps q (.refl s)
  | pulseEnd o => exact execPulseEnd_keeps o (.refl s)
  | envelopeWrite ring bad how => exact execEnvelopeWrite_keeps ring bad how (.refl s)
  | ringNotification ring => exact execRingNotification_keeps ring (.refl s)
  | recordPartWrite rec bad how => exact execRecordPartWrite_keeps rec bad how (.refl s)
  | streamEnvelopeWrite rec bad how => exact execStreamEnvelopeWrite_keeps rec bad how (.refl s)
  | measure rec how => exact execMeasure_keeps rec how (.refl s)
  | spanReadoutWrite ring bad how => exact execSpanReadoutWrite_keeps ring bad how (.refl s)
  | completion ring how => exact execCompletion_keeps ring how (.refl s)
  | deadLetterDrain how => exact execDeadLetterDrain_keeps how (.refl s)
  | datagramSend stream => exact execDatagramSend_keeps stream (.refl s)
  | doorbellWrite ring part value => exact execDoorbellWrite_keeps ring part value (.refl s)
  | commandFetch ring fetched entry => exact execCommandFetch_keeps ring fetched entry (.refl s)
  | nop => exact execNop_keeps (.refl s)
  | seqArm => exact execSeqArm_keeps (.refl s)
  | seqDisarm => exact execSeqDisarm_keeps (.refl s)
  | seqForce => exact execSeqForce_keeps (.refl s)
  | seqCommandApply => exact execSeqCommandApply_keeps (.refl s)
  | spanRead => exact execSpanRead_keeps (.refl s)
  | compress => exact execCompress_keeps (.refl s)
  | decompress => exact execDecompress_keeps (.refl s)
  | splitBlockDispatch => exact execSplitBlockDispatch_keeps (.refl s)
  | splitBlockComplete lane fault trouble => exact execSplitBlockComplete_keeps lane fault trouble (.refl s)
  | statsRead dest => exact execStatsRead_keeps dest (.refl s)
  | planSwitch => exact execPlanSwitch_keeps (.refl s)
  | planSwitchApply => exact execPlanSwitchApply_keeps (.refl s)
  | timePref => exact execTimePref_keeps (.refl s)
  | bankAssign => exact execBankAssign_keeps (.refl s)
  | ringReset => exact execRingReset_keeps (.refl s)
  | groupPowerDown => exact execGroupPowerDown_keeps (.refl s)
  | groupPowerDownApply g => exact execGroupPowerDownApply_keeps g (.refl s)
  | groupPowerUp res => exact execGroupPowerUp_keeps res (.refl s)
  | groupPowerUpRejoin g => exact execGroupPowerUpRejoin_keeps g (.refl s)
  | rebind => exact execRebind_keeps (.refl s)
  | rebindCtrlGo key => exact execRebindCtrlGo_keeps key (.refl s)
  | rebindDecision => exact execRebindDecision_keeps (.refl s)
  | rebindTeardown => exact execRebindTeardown_keeps (.refl s)
  | rebindDrainEnd env => exact execRebindDrainEnd_keeps env (.refl s)
  | flashRead len => exact execFlashRead_keeps len (.refl s)
  | flashProgram len => exact execFlashProgram_keeps len (.refl s)
  | flashErase4k len => exact execFlashErase4k_keeps len (.refl s)
  | flashErase64k len => exact execFlashErase64k_keeps len (.refl s)
  | flashOperationComplete ok => exact absurd rfl (fl ok)
  | winCommit k go => exact execWinCommit_keeps k go (.refl s)
  | bankOwnerWrite bank owner => exact execBankOwnerWrite_keeps bank owner (.refl s)
  | ringEnable ring value => exact execRingEnable_keeps ring value (.refl s)
  | ringDisable ring value => exact execRingDisable_keeps ring value (.refl s)
  | notifyUnmask ring value => exact execNotifyUnmask_keeps ring value (.refl s)
  | expansionMaxWrite value => exact execExpansionMaxWrite_keeps value (.refl s)
  | intxPendingWrite index value => exact execIntxPendingWrite_keeps index value (.refl s)
  | msixUnmask target => exact execMsixUnmask_keeps target (.refl s)
  | sqDeadLoRead q => exact execSqDeadLoRead_keeps q (.refl s)
  | imMeanLoRead e => exact execImMeanLoRead_keeps e (.refl s)
  | tbRawLoRead => exact execTbRawLoRead_keeps (.refl s)
  | tbDomGmLoRead x => exact execTbDomGmLoRead_keeps x (.refl s)
  | registerWrite offset allEnables data => exact execRegisterWrite_keeps offset allEnables data (.refl s)
  | windowRead k offset len cycles => exact execWindowRead_keeps k offset len cycles (.refl s)
  | windowWrite k offset data portB => exact execWindowWrite_keeps k offset data portB (.refl s)
  | perstN => exact execPerstN_keeps (.refl s)
  | hotReset => exact execHotReset_keeps (.refl s)
  | functionLevelReset => exact execFunctionLevelReset_keeps (.refl s)
  | hostPoolZeroed => exact execHostPoolZeroed_keeps (.refl s)
  | busMasterEnableClear => exact execBusMasterEnableClear_keeps (.refl s)
  | busMasterEnableSet => exact execBusMasterEnableSet_keeps (.refl s)
  | d3hotEntry => exact execD3hotEntry_keeps (.refl s)
  | d0Return => exact execD0Return_keeps (.refl s)
  | atsInvalidateRequest itag addr size => exact execAtsInvalidateRequest_keeps itag addr size (.refl s)
  | atsInvalidateCompletion => exact execAtsInvalidateCompletion_keeps (.refl s)
  | hostReadCompletion tag how data => exact execHostReadCompletion_keeps tag how data (.refl s)
  | hostReadTimeout tag => exact execHostReadTimeout_keeps tag (.refl s)
  | samples g m => exact execSamples_keeps g m (.refl s)
  | edges g m => exact execEdges_keeps g m (.refl s)
  | stamps g m => exact execStamps_keeps g m (.refl s)
  | status g m d => exact execStatus_keeps g m d (.refl s)
  | echo g m seq crc result => exact execEcho_keeps g m seq crc result (.refl s)
  | cal g m d => exact execCal_keeps g m d (.refl s)
  | ident g m d => exact execIdent_keeps g m d (.refl s)
  | idle g m => exact execIdle_keeps g m (.refl s)
  | echoTimeout g => exact execEchoTimeout_keeps g (.refl s)
  | laneLockLoss g lane => exact execLaneLockLoss_keeps g lane (.refl s)
  | tick g m => exact execTick_keeps g m (.refl s)
  | setChannel g m c => exact execSetChannel_keeps g m c (.refl s)
  | setRail g m rail on => exact execSetRail_keeps g m rail on (.refl s)
  | setMclk g m out div format => exact execSetMclk_keeps g m out div format (.refl s)
  | setTrim g m chan trim => exact execSetTrim_keeps g m chan trim (.refl s)
  | phaseStep g m => exact execPhaseStep_keeps g m (.refl s)
  | calStart g m pulses => exact execCalStart_keeps g m pulses (.refl s)
  | selfTest g m => exact execSelfTest_keeps g m (.refl s)
  | islandOff g m => exact execIslandOff_keeps g m (.refl s)
  | identReq g m => exact execIdentReq_keeps g m (.refl s)
  | islandBrownout g => exact execIslandBrownout_keeps g (.refl s)
  | railCurrentLimit g rail enter => exact execRailCurrentLimit_keeps g rail enter (.refl s)
  | overcurrent g rail => exact execOvercurrent_keeps g rail (.refl s)
  | pllSLossOfLock => exact execPllSLossOfLock_keeps (.refl s)
  | pllSRelock band => exact execPllSRelock_keeps band (.refl s)
  | groupRejoin g res => exact execGroupRejoin_keeps g res (.refl s)
  | faultHoldResume => exact execFaultHoldResume_keeps (.refl s)
  | pllCLossOfLock => exact execPllCLossOfLock_keeps (.refl s)
  | pllCRelock band env => exact execPllCRelock_keeps band env (.refl s)
  | pllMLossOfLock => exact execPllMLossOfLock_keeps (.refl s)
  | pllMRelock band => exact execPllMRelock_keeps band (.refl s)
  | pllFLossOfLock g => exact execPllFLossOfLock_keeps g (.refl s)
  | oscillatorFailure => exact execOscillatorFailure_keeps (.refl s)
  | syncInEdge nearest => exact execSyncInEdge_keeps nearest (.refl s)
  | ppsInPulse at_ => exact execPpsInPulse_keeps at_ (.refl s)
  | ppsOutPulse => exact execPpsOutPulse_keeps (.refl s)
  | ppsOutPulseEnd => exact execPpsOutPulseEnd_keeps (.refl s)
  | announce port d => exact execAnnounce_keeps port d (.refl s)
  | sync port d => exact execSync_keeps port d (.refl s)
  | followUp port d => exact execFollowUp_keeps port d (.refl s)
  | delayReq x => exact execDelayReq_keeps x (.refl s)
  | delayResp port d => exact execDelayResp_keeps port d (.refl s)
  | domainLost x => exact execDomainLost_keeps x (.refl s)
  | arpRequest port asked => exact execArpRequest_keeps port asked (.refl s)
  | arpReply port ip mac => exact execArpReply_keeps port ip mac (.refl s)
  | arpRetry port ip => exact execArpRetry_keeps port ip (.refl s)
  | arpRefresh port ip => exact execArpRefresh_keeps port ip (.refl s)
  | icmpEchoRequest port len data => exact execIcmpEchoRequest_keeps port len data (.refl s)
  | frameDiscard port => exact execFrameDiscard_keeps port (.refl s)
  | ethLinkDown port => exact execEthLinkDown_keeps port (.refl s)
  | ethLinkUp port => exact execEthLinkUp_keeps port (.refl s)
  | sealChange open_ storeOk => exact execSealChange_keeps open_ storeOk (.refl s)
  | fence u cause detail => exact execFence_keeps u cause detail (.refl s)
  | quarantineEnd u => exact execQuarantineEnd_keeps u (.refl s)
  | selfTestComplete u pass res => exact execSelfTestComplete_keeps u pass res (.refl s)
  | readmit u => exact execReadmit_keeps u (.refl s)
  | pwMeasurementUpdate m => exact execPwMeasurementUpdate_keeps m (.refl s)
  | lifetimeStatisticsUpdate seconds => exact execLifetimeStatisticsUpdate_keeps seconds (.refl s)
  | smbusBlockRead code => exact execSmbusBlockRead_keeps code (.refl s)
  | smbusAlertResponse => exact execSmbusAlertResponse_keeps (.refl s)
  | trigInEdge input rise offset => exact execTrigInEdge_keeps input rise offset (.refl s)
  | zoneChange chan v offset fine => exact execZoneChange_keeps chan v offset fine (.refl s)
  | perstNRelease => exact execPerstNRelease_keeps (.refl s)
  | interruptDisableSet which => exact execInterruptDisableSet_keeps which (.refl s)
  | ltrMechanismEnable => exact execLtrMechanismEnable_keeps (.refl s)
  | unsupportedRequest kind => exact execUnsupportedRequest_keeps kind (.refl s)

theorem exec_holds (c : Instr) (s : State) : HeldBy s (exec c s) := by
  by_cases off : takesOff c = true
  · cases c <;> cases off
    · exact execModResetAssert_holds s
    · exact execRailBrownout_holds _ s
    · exact execWatchdogReset_holds _ _ s
    · exact execLockstepMismatch_holds _ s
    · exact execThermalShutdown_holds s
  · by_cases fl : ∃ ok, c = .flashOperationComplete ok
    · obtain ⟨ok, rfl⟩ := fl
      exact execFlashOperationComplete_holds ok s
    · exact (exec_keeps c s (by simpa using off) fun ok e => fl ⟨ok, e⟩).held

end Sys2Proof.Machine
end

