-- ==== Sys2Proof/Laws/Tbl.lean ====
section
/-!
SUPPORT. Sparse tables: what a write of one entry does to every entry, that two writes of one entry are the last, and what changing every
entry does.
-/
namespace Sys2Proof.Machine

@[simp] theorem tget?_tput_self {α : Type} (k : Nat) (v : α) : ∀ t : Tbl α, tget? (tput t k v) k = some v
  | [] => by simp [tput, tget?]
  | (k', v') :: t => by
    unfold tput
    split
    · simp [tget?]
    · split
      · simp [tget?]
      · rename_i h _
        simp [tget?, h, tget?_tput_self k v t]

theorem tget?_tput_ne {α : Type} {k j : Nat} (v : α) (h : j ≠ k) : ∀ t : Tbl α, tget? (tput t k v) j = tget? t j
  | [] => by simp [tput, tget?, Ne.symm h]
  | (k', v') :: t => by
    unfold tput
    split
    · rename_i e
      simp [tget?, Ne.symm h, e]
    · split
      · simp [tget?, Ne.symm h]
      · by_cases e : k' = j
        · simp [tget?, e]
        · simp [tget?, e, tget?_tput_ne v h t]

@[simp] theorem tget_tput_self {α : Type} (d : α) (t : Tbl α) (k : Nat) (v : α) : tget d (tput t k v) k = v := by simp [tget]

theorem tget_tput_ne {α : Type} (d : α) (t : Tbl α) {k j : Nat} (v : α) (h : j ≠ k) : tget d (tput t k v) j = tget d t j := by
  simp [tget, tget?_tput_ne v h]

@[simp] theorem tput_tput {α : Type} (k : Nat) (v w : α) : ∀ t : Tbl α, tput (tput t k v) k w = tput t k w
  | [] => by simp [tput]
  | (k', v') :: t => by
    by_cases e : k' = k
    · simp [tput, e]
    · by_cases l : k < k'
      · simp [tput, e, l]
      · simp [tput, e, l, tput_tput k v w t]

@[simp] theorem tget_tmod_self {α : Type} (d : α) (t : Tbl α) (k : Nat) (f : α → α) : tget d (tmod d t k f) k = f (tget d t k) := by
  simp [tmod]

theorem tget_tmod_ne {α : Type} (d : α) (t : Tbl α) {k j : Nat} (f : α → α) (h : j ≠ k) : tget d (tmod d t k f) j = tget d t j := by
  simp [tmod, tget_tput_ne _ _ _ h]

@[simp] theorem tmod_tmod {α : Type} (d : α) (t : Tbl α) (k : Nat) (f g : α → α) :
    tmod d (tmod d t k f) k g = tmod d t k (fun x => g (f x)) := by
  simp [tmod]

@[simp] theorem tget?_tmap {α : Type} (f : Nat → α → α) (k : Nat) : ∀ t : Tbl α, tget? (tmap t f) k = (tget? t k).map (f k)
  | [] => rfl
  | (k', v) :: t => by
    by_cases e : k' = k
    · subst e; simp [tmap, tget?]
    · have := tget?_tmap f k t
      simp only [tmap] at this
      simp [tmap, tget?, e, this]

end Sys2Proof.Machine
end

