-- ==== Sys2Proof/Laws/State.lean ====
section
/-!
SUPPORT. The fields of the state under the operations that change one part of it, one lemma a field and operation, true by rfl; and what
those operations do to the part itself.
-/
namespace Sys2Proof.Machine

variable (s : State)

@[simp] theorem emit_pins (o : Output) : (emit s o).pins = s.pins := rfl
@[simp] theorem emit_power (o : Output) : (emit s o).power = s.power := rfl
@[simp] theorem emit_boot (o : Output) : (emit s o).boot = s.boot := rfl
@[simp] theorem emit_flash (o : Output) : (emit s o).flash = s.flash := rfl
@[simp] theorem emit_flashRegs (o : Output) : (emit s o).flashRegs = s.flashRegs := rfl
@[simp] theorem emit_time (o : Output) : (emit s o).time = s.time := rfl
@[simp] theorem emit_clocks (o : Output) : (emit s o).clocks = s.clocks := rfl
@[simp] theorem emit_field (o : Output) : (emit s o).field = s.field := rfl
@[simp] theorem emit_frames (o : Output) : (emit s o).frames = s.frames := rfl
@[simp] theorem emit_released (o : Output) : (emit s o).released = s.released := rfl
@[simp] theorem emit_firstRun (o : Output) : (emit s o).firstRun = s.firstRun := rfl
@[simp] theorem emit_settleEnd (o : Output) : (emit s o).settleEnd = s.settleEnd := rfl
@[simp] theorem emit_seqs (o : Output) : (emit s o).seqs = s.seqs := rfl
@[simp] theorem emit_seqCmds (o : Output) : (emit s o).seqCmds = s.seqCmds := rfl
@[simp] theorem emit_shown (o : Output) : (emit s o).shown = s.shown := rfl
@[simp] theorem emit_recs (o : Output) : (emit s o).recs = s.recs := rfl
@[simp] theorem emit_hist (o : Output) : (emit s o).hist = s.hist := rfl
@[simp] theorem emit_proc (o : Output) : (emit s o).proc = s.proc := rfl
@[simp] theorem emit_meter (o : Output) : (emit s o).meter = s.meter := rfl
@[simp] theorem emit_snap (o : Output) : (emit s o).snap = s.snap := rfl
@[simp] theorem emit_banks (o : Output) : (emit s o).banks = s.banks := rfl
@[simp] theorem emit_rings (o : Output) : (emit s o).rings = s.rings := rfl
@[simp] theorem emit_jobs (o : Output) : (emit s o).jobs = s.jobs := rfl
@[simp] theorem emit_pcie (o : Output) : (emit s o).pcie = s.pcie := rfl
@[simp] theorem emit_faults (o : Output) : (emit s o).faults = s.faults := rfl
@[simp] theorem emit_franking (o : Output) : (emit s o).franking = s.franking := rfl
@[simp] theorem emit_free (o : Output) : (emit s o).free = s.free := rfl
@[simp] theorem emit_pending (o : Output) : (emit s o).pending = s.pending := rfl

@[simp] theorem emits_pins (o : List Output) : (emits s o).pins = s.pins := rfl
@[simp] theorem emits_power (o : List Output) : (emits s o).power = s.power := rfl
@[simp] theorem emits_boot (o : List Output) : (emits s o).boot = s.boot := rfl
@[simp] theorem emits_flash (o : List Output) : (emits s o).flash = s.flash := rfl
@[simp] theorem emits_flashRegs (o : List Output) : (emits s o).flashRegs = s.flashRegs := rfl
@[simp] theorem emits_time (o : List Output) : (emits s o).time = s.time := rfl
@[simp] theorem emits_clocks (o : List Output) : (emits s o).clocks = s.clocks := rfl
@[simp] theorem emits_field (o : List Output) : (emits s o).field = s.field := rfl
@[simp] theorem emits_frames (o : List Output) : (emits s o).frames = s.frames := rfl
@[simp] theorem emits_released (o : List Output) : (emits s o).released = s.released := rfl
@[simp] theorem emits_firstRun (o : List Output) : (emits s o).firstRun = s.firstRun := rfl
@[simp] theorem emits_settleEnd (o : List Output) : (emits s o).settleEnd = s.settleEnd := rfl
@[simp] theorem emits_seqs (o : List Output) : (emits s o).seqs = s.seqs := rfl
@[simp] theorem emits_seqCmds (o : List Output) : (emits s o).seqCmds = s.seqCmds := rfl
@[simp] theorem emits_shown (o : List Output) : (emits s o).shown = s.shown := rfl
@[simp] theorem emits_recs (o : List Output) : (emits s o).recs = s.recs := rfl
@[simp] theorem emits_hist (o : List Output) : (emits s o).hist = s.hist := rfl
@[simp] theorem emits_proc (o : List Output) : (emits s o).proc = s.proc := rfl
@[simp] theorem emits_meter (o : List Output) : (emits s o).meter = s.meter := rfl
@[simp] theorem emits_snap (o : List Output) : (emits s o).snap = s.snap := rfl
@[simp] theorem emits_banks (o : List Output) : (emits s o).banks = s.banks := rfl
@[simp] theorem emits_rings (o : List Output) : (emits s o).rings = s.rings := rfl
@[simp] theorem emits_jobs (o : List Output) : (emits s o).jobs = s.jobs := rfl
@[simp] theorem emits_pcie (o : List Output) : (emits s o).pcie = s.pcie := rfl
@[simp] theorem emits_faults (o : List Output) : (emits s o).faults = s.faults := rfl
@[simp] theorem emits_franking (o : List Output) : (emits s o).franking = s.franking := rfl
@[simp] theorem emits_free (o : List Output) : (emits s o).free = s.free := rfl
@[simp] theorem emits_pending (o : List Output) : (emits s o).pending = s.pending := rfl

@[simp] theorem aer_pins (b : Nat) : (aer s b).pins = s.pins := rfl
@[simp] theorem aer_power (b : Nat) : (aer s b).power = s.power := rfl
@[simp] theorem aer_boot (b : Nat) : (aer s b).boot = s.boot := rfl
@[simp] theorem aer_flash (b : Nat) : (aer s b).flash = s.flash := rfl
@[simp] theorem aer_flashRegs (b : Nat) : (aer s b).flashRegs = s.flashRegs := rfl
@[simp] theorem aer_time (b : Nat) : (aer s b).time = s.time := rfl
@[simp] theorem aer_clocks (b : Nat) : (aer s b).clocks = s.clocks := rfl
@[simp] theorem aer_field (b : Nat) : (aer s b).field = s.field := rfl
@[simp] theorem aer_frames (b : Nat) : (aer s b).frames = s.frames := rfl
@[simp] theorem aer_released (b : Nat) : (aer s b).released = s.released := rfl
@[simp] theorem aer_firstRun (b : Nat) : (aer s b).firstRun = s.firstRun := rfl
@[simp] theorem aer_settleEnd (b : Nat) : (aer s b).settleEnd = s.settleEnd := rfl
@[simp] theorem aer_seqs (b : Nat) : (aer s b).seqs = s.seqs := rfl
@[simp] theorem aer_seqCmds (b : Nat) : (aer s b).seqCmds = s.seqCmds := rfl
@[simp] theorem aer_shown (b : Nat) : (aer s b).shown = s.shown := rfl
@[simp] theorem aer_recs (b : Nat) : (aer s b).recs = s.recs := rfl
@[simp] theorem aer_hist (b : Nat) : (aer s b).hist = s.hist := rfl
@[simp] theorem aer_proc (b : Nat) : (aer s b).proc = s.proc := rfl
@[simp] theorem aer_meter (b : Nat) : (aer s b).meter = s.meter := rfl
@[simp] theorem aer_snap (b : Nat) : (aer s b).snap = s.snap := rfl
@[simp] theorem aer_banks (b : Nat) : (aer s b).banks = s.banks := rfl
@[simp] theorem aer_rings (b : Nat) : (aer s b).rings = s.rings := rfl
@[simp] theorem aer_jobs (b : Nat) : (aer s b).jobs = s.jobs := rfl
@[simp] theorem aer_faults (b : Nat) : (aer s b).faults = s.faults := rfl
@[simp] theorem aer_franking (b : Nat) : (aer s b).franking = s.franking := rfl
@[simp] theorem aer_free (b : Nat) : (aer s b).free = s.free := rfl
@[simp] theorem aer_out (b : Nat) : (aer s b).out = s.out := rfl
@[simp] theorem aer_pending (b : Nat) : (aer s b).pending = s.pending := rfl

@[simp] theorem modGroup_pins (g : Nat) (f : Group → Group) : (modGroup s g f).pins = s.pins := rfl
@[simp] theorem modGroup_power (g : Nat) (f : Group → Group) : (modGroup s g f).power = s.power := rfl
@[simp] theorem modGroup_boot (g : Nat) (f : Group → Group) : (modGroup s g f).boot = s.boot := rfl
@[simp] theorem modGroup_flash (g : Nat) (f : Group → Group) : (modGroup s g f).flash = s.flash := rfl
@[simp] theorem modGroup_flashRegs (g : Nat) (f : Group → Group) : (modGroup s g f).flashRegs = s.flashRegs := rfl
@[simp] theorem modGroup_time (g : Nat) (f : Group → Group) : (modGroup s g f).time = s.time := rfl
@[simp] theorem modGroup_clocks (g : Nat) (f : Group → Group) : (modGroup s g f).clocks = s.clocks := rfl
@[simp] theorem modGroup_frames (g : Nat) (f : Group → Group) : (modGroup s g f).frames = s.frames := rfl
@[simp] theorem modGroup_released (g : Nat) (f : Group → Group) : (modGroup s g f).released = s.released := rfl
@[simp] theorem modGroup_firstRun (g : Nat) (f : Group → Group) : (modGroup s g f).firstRun = s.firstRun := rfl
@[simp] theorem modGroup_settleEnd (g : Nat) (f : Group → Group) : (modGroup s g f).settleEnd = s.settleEnd := rfl
@[simp] theorem modGroup_seqs (g : Nat) (f : Group → Group) : (modGroup s g f).seqs = s.seqs := rfl
@[simp] theorem modGroup_seqCmds (g : Nat) (f : Group → Group) : (modGroup s g f).seqCmds = s.seqCmds := rfl
@[simp] theorem modGroup_shown (g : Nat) (f : Group → Group) : (modGroup s g f).shown = s.shown := rfl
@[simp] theorem modGroup_recs (g : Nat) (f : Group → Group) : (modGroup s g f).recs = s.recs := rfl
@[simp] theorem modGroup_hist (g : Nat) (f : Group → Group) : (modGroup s g f).hist = s.hist := rfl
@[simp] theorem modGroup_proc (g : Nat) (f : Group → Group) : (modGroup s g f).proc = s.proc := rfl
@[simp] theorem modGroup_meter (g : Nat) (f : Group → Group) : (modGroup s g f).meter = s.meter := rfl
@[simp] theorem modGroup_snap (g : Nat) (f : Group → Group) : (modGroup s g f).snap = s.snap := rfl
@[simp] theorem modGroup_banks (g : Nat) (f : Group → Group) : (modGroup s g f).banks = s.banks := rfl
@[simp] theorem modGroup_rings (g : Nat) (f : Group → Group) : (modGroup s g f).rings = s.rings := rfl
@[simp] theorem modGroup_jobs (g : Nat) (f : Group → Group) : (modGroup s g f).jobs = s.jobs := rfl
@[simp] theorem modGroup_pcie (g : Nat) (f : Group → Group) : (modGroup s g f).pcie = s.pcie := rfl
@[simp] theorem modGroup_faults (g : Nat) (f : Group → Group) : (modGroup s g f).faults = s.faults := rfl
@[simp] theorem modGroup_franking (g : Nat) (f : Group → Group) : (modGroup s g f).franking = s.franking := rfl
@[simp] theorem modGroup_free (g : Nat) (f : Group → Group) : (modGroup s g f).free = s.free := rfl
@[simp] theorem modGroup_out (g : Nat) (f : Group → Group) : (modGroup s g f).out = s.out := rfl
@[simp] theorem modGroup_pending (g : Nat) (f : Group → Group) : (modGroup s g f).pending = s.pending := rfl

@[simp] theorem modRing_pins (r : Nat) (f : Ring → Ring) : (modRing s r f).pins = s.pins := rfl
@[simp] theorem modRing_power (r : Nat) (f : Ring → Ring) : (modRing s r f).power = s.power := rfl
@[simp] theorem modRing_boot (r : Nat) (f : Ring → Ring) : (modRing s r f).boot = s.boot := rfl
@[simp] theorem modRing_flash (r : Nat) (f : Ring → Ring) : (modRing s r f).flash = s.flash := rfl
@[simp] theorem modRing_flashRegs (r : Nat) (f : Ring → Ring) : (modRing s r f).flashRegs = s.flashRegs := rfl
@[simp] theorem modRing_time (r : Nat) (f : Ring → Ring) : (modRing s r f).time = s.time := rfl
@[simp] theorem modRing_clocks (r : Nat) (f : Ring → Ring) : (modRing s r f).clocks = s.clocks := rfl
@[simp] theorem modRing_field (r : Nat) (f : Ring → Ring) : (modRing s r f).field = s.field := rfl
@[simp] theorem modRing_frames (r : Nat) (f : Ring → Ring) : (modRing s r f).frames = s.frames := rfl
@[simp] theorem modRing_released (r : Nat) (f : Ring → Ring) : (modRing s r f).released = s.released := rfl
@[simp] theorem modRing_firstRun (r : Nat) (f : Ring → Ring) : (modRing s r f).firstRun = s.firstRun := rfl
@[simp] theorem modRing_settleEnd (r : Nat) (f : Ring → Ring) : (modRing s r f).settleEnd = s.settleEnd := rfl
@[simp] theorem modRing_seqs (r : Nat) (f : Ring → Ring) : (modRing s r f).seqs = s.seqs := rfl
@[simp] theorem modRing_seqCmds (r : Nat) (f : Ring → Ring) : (modRing s r f).seqCmds = s.seqCmds := rfl
@[simp] theorem modRing_shown (r : Nat) (f : Ring → Ring) : (modRing s r f).shown = s.shown := rfl
@[simp] theorem modRing_recs (r : Nat) (f : Ring → Ring) : (modRing s r f).recs = s.recs := rfl
@[simp] theorem modRing_hist (r : Nat) (f : Ring → Ring) : (modRing s r f).hist = s.hist := rfl
@[simp] theorem modRing_proc (r : Nat) (f : Ring → Ring) : (modRing s r f).proc = s.proc := rfl
@[simp] theorem modRing_meter (r : Nat) (f : Ring → Ring) : (modRing s r f).meter = s.meter := rfl
@[simp] theorem modRing_snap (r : Nat) (f : Ring → Ring) : (modRing s r f).snap = s.snap := rfl
@[simp] theorem modRing_banks (r : Nat) (f : Ring → Ring) : (modRing s r f).banks = s.banks := rfl
@[simp] theorem modRing_jobs (r : Nat) (f : Ring → Ring) : (modRing s r f).jobs = s.jobs := rfl
@[simp] theorem modRing_pcie (r : Nat) (f : Ring → Ring) : (modRing s r f).pcie = s.pcie := rfl
@[simp] theorem modRing_faults (r : Nat) (f : Ring → Ring) : (modRing s r f).faults = s.faults := rfl
@[simp] theorem modRing_franking (r : Nat) (f : Ring → Ring) : (modRing s r f).franking = s.franking := rfl
@[simp] theorem modRing_free (r : Nat) (f : Ring → Ring) : (modRing s r f).free = s.free := rfl
@[simp] theorem modRing_out (r : Nat) (f : Ring → Ring) : (modRing s r f).out = s.out := rfl
@[simp] theorem modRing_pending (r : Nat) (f : Ring → Ring) : (modRing s r f).pending = s.pending := rfl

@[simp] theorem modPcie_pins (f : Pcie → Pcie) : (modPcie s f).pins = s.pins := rfl
@[simp] theorem modPcie_power (f : Pcie → Pcie) : (modPcie s f).power = s.power := rfl
@[simp] theorem modPcie_boot (f : Pcie → Pcie) : (modPcie s f).boot = s.boot := rfl
@[simp] theorem modPcie_flash (f : Pcie → Pcie) : (modPcie s f).flash = s.flash := rfl
@[simp] theorem modPcie_flashRegs (f : Pcie → Pcie) : (modPcie s f).flashRegs = s.flashRegs := rfl
@[simp] theorem modPcie_time (f : Pcie → Pcie) : (modPcie s f).time = s.time := rfl
@[simp] theorem modPcie_clocks (f : Pcie → Pcie) : (modPcie s f).clocks = s.clocks := rfl
@[simp] theorem modPcie_field (f : Pcie → Pcie) : (modPcie s f).field = s.field := rfl
@[simp] theorem modPcie_frames (f : Pcie → Pcie) : (modPcie s f).frames = s.frames := rfl
@[simp] theorem modPcie_released (f : Pcie → Pcie) : (modPcie s f).released = s.released := rfl
@[simp] theorem modPcie_firstRun (f : Pcie → Pcie) : (modPcie s f).firstRun = s.firstRun := rfl
@[simp] theorem modPcie_settleEnd (f : Pcie → Pcie) : (modPcie s f).settleEnd = s.settleEnd := rfl
@[simp] theorem modPcie_seqs (f : Pcie → Pcie) : (modPcie s f).seqs = s.seqs := rfl
@[simp] theorem modPcie_seqCmds (f : Pcie → Pcie) : (modPcie s f).seqCmds = s.seqCmds := rfl
@[simp] theorem modPcie_shown (f : Pcie → Pcie) : (modPcie s f).shown = s.shown := rfl
@[simp] theorem modPcie_recs (f : Pcie → Pcie) : (modPcie s f).recs = s.recs := rfl
@[simp] theorem modPcie_hist (f : Pcie → Pcie) : (modPcie s f).hist = s.hist := rfl
@[simp] theorem modPcie_proc (f : Pcie → Pcie) : (modPcie s f).proc = s.proc := rfl
@[simp] theorem modPcie_meter (f : Pcie → Pcie) : (modPcie s f).meter = s.meter := rfl
@[simp] theorem modPcie_snap (f : Pcie → Pcie) : (modPcie s f).snap = s.snap := rfl
@[simp] theorem modPcie_banks (f : Pcie → Pcie) : (modPcie s f).banks = s.banks := rfl
@[simp] theorem modPcie_rings (f : Pcie → Pcie) : (modPcie s f).rings = s.rings := rfl
@[simp] theorem modPcie_jobs (f : Pcie → Pcie) : (modPcie s f).jobs = s.jobs := rfl
@[simp] theorem modPcie_faults (f : Pcie → Pcie) : (modPcie s f).faults = s.faults := rfl
@[simp] theorem modPcie_franking (f : Pcie → Pcie) : (modPcie s f).franking = s.franking := rfl
@[simp] theorem modPcie_free (f : Pcie → Pcie) : (modPcie s f).free = s.free := rfl
@[simp] theorem modPcie_out (f : Pcie → Pcie) : (modPcie s f).out = s.out := rfl
@[simp] theorem modPcie_pending (f : Pcie → Pcie) : (modPcie s f).pending = s.pending := rfl

@[simp] theorem modDom_pins (x : Nat) (f : Domain → Domain) : (modDom s x f).pins = s.pins := rfl
@[simp] theorem modDom_power (x : Nat) (f : Domain → Domain) : (modDom s x f).power = s.power := rfl
@[simp] theorem modDom_boot (x : Nat) (f : Domain → Domain) : (modDom s x f).boot = s.boot := rfl
@[simp] theorem modDom_flash (x : Nat) (f : Domain → Domain) : (modDom s x f).flash = s.flash := rfl
@[simp] theorem modDom_flashRegs (x : Nat) (f : Domain → Domain) : (modDom s x f).flashRegs = s.flashRegs := rfl
@[simp] theorem modDom_clocks (x : Nat) (f : Domain → Domain) : (modDom s x f).clocks = s.clocks := rfl
@[simp] theorem modDom_field (x : Nat) (f : Domain → Domain) : (modDom s x f).field = s.field := rfl
@[simp] theorem modDom_frames (x : Nat) (f : Domain → Domain) : (modDom s x f).frames = s.frames := rfl
@[simp] theorem modDom_released (x : Nat) (f : Domain → Domain) : (modDom s x f).released = s.released := rfl
@[simp] theorem modDom_firstRun (x : Nat) (f : Domain → Domain) : (modDom s x f).firstRun = s.firstRun := rfl
@[simp] theorem modDom_settleEnd (x : Nat) (f : Domain → Domain) : (modDom s x f).settleEnd = s.settleEnd := rfl
@[simp] theorem modDom_seqs (x : Nat) (f : Domain → Domain) : (modDom s x f).seqs = s.seqs := rfl
@[simp] theorem modDom_seqCmds (x : Nat) (f : Domain → Domain) : (modDom s x f).seqCmds = s.seqCmds := rfl
@[simp] theorem modDom_shown (x : Nat) (f : Domain → Domain) : (modDom s x f).shown = s.shown := rfl
@[simp] theorem modDom_recs (x : Nat) (f : Domain → Domain) : (modDom s x f).recs = s.recs := rfl
@[simp] theorem modDom_hist (x : Nat) (f : Domain → Domain) : (modDom s x f).hist = s.hist := rfl
@[simp] theorem modDom_proc (x : Nat) (f : Domain → Domain) : (modDom s x f).proc = s.proc := rfl
@[simp] theorem modDom_meter (x : Nat) (f : Domain → Domain) : (modDom s x f).meter = s.meter := rfl
@[simp] theorem modDom_snap (x : Nat) (f : Domain → Domain) : (modDom s x f).snap = s.snap := rfl
@[simp] theorem modDom_banks (x : Nat) (f : Domain → Domain) : (modDom s x f).banks = s.banks := rfl
@[simp] theorem modDom_rings (x : Nat) (f : Domain → Domain) : (modDom s x f).rings = s.rings := rfl
@[simp] theorem modDom_jobs (x : Nat) (f : Domain → Domain) : (modDom s x f).jobs = s.jobs := rfl
@[simp] theorem modDom_pcie (x : Nat) (f : Domain → Domain) : (modDom s x f).pcie = s.pcie := rfl
@[simp] theorem modDom_faults (x : Nat) (f : Domain → Domain) : (modDom s x f).faults = s.faults := rfl
@[simp] theorem modDom_franking (x : Nat) (f : Domain → Domain) : (modDom s x f).franking = s.franking := rfl
@[simp] theorem modDom_free (x : Nat) (f : Domain → Domain) : (modDom s x f).free = s.free := rfl
@[simp] theorem modDom_out (x : Nat) (f : Domain → Domain) : (modDom s x f).out = s.out := rfl
@[simp] theorem modDom_pending (x : Nat) (f : Domain → Domain) : (modDom s x f).pending = s.pending := rfl

@[simp] theorem modEth_pins (p : Nat) (f : EthPort → EthPort) : (modEth s p f).pins = s.pins := rfl
@[simp] theorem modEth_power (p : Nat) (f : EthPort → EthPort) : (modEth s p f).power = s.power := rfl
@[simp] theorem modEth_boot (p : Nat) (f : EthPort → EthPort) : (modEth s p f).boot = s.boot := rfl
@[simp] theorem modEth_flash (p : Nat) (f : EthPort → EthPort) : (modEth s p f).flash = s.flash := rfl
@[simp] theorem modEth_flashRegs (p : Nat) (f : EthPort → EthPort) : (modEth s p f).flashRegs = s.flashRegs := rfl
@[simp] theorem modEth_clocks (p : Nat) (f : EthPort → EthPort) : (modEth s p f).clocks = s.clocks := rfl
@[simp] theorem modEth_field (p : Nat) (f : EthPort → EthPort) : (modEth s p f).field = s.field := rfl
@[simp] theorem modEth_frames (p : Nat) (f : EthPort → EthPort) : (modEth s p f).frames = s.frames := rfl
@[simp] theorem modEth_released (p : Nat) (f : EthPort → EthPort) : (modEth s p f).released = s.released := rfl
@[simp] theorem modEth_firstRun (p : Nat) (f : EthPort → EthPort) : (modEth s p f).firstRun = s.firstRun := rfl
@[simp] theorem modEth_settleEnd (p : Nat) (f : EthPort → EthPort) : (modEth s p f).settleEnd = s.settleEnd := rfl
@[simp] theorem modEth_seqs (p : Nat) (f : EthPort → EthPort) : (modEth s p f).seqs = s.seqs := rfl
@[simp] theorem modEth_seqCmds (p : Nat) (f : EthPort → EthPort) : (modEth s p f).seqCmds = s.seqCmds := rfl
@[simp] theorem modEth_shown (p : Nat) (f : EthPort → EthPort) : (modEth s p f).shown = s.shown := rfl
@[simp] theorem modEth_recs (p : Nat) (f : EthPort → EthPort) : (modEth s p f).recs = s.recs := rfl
@[simp] theorem modEth_hist (p : Nat) (f : EthPort → EthPort) : (modEth s p f).hist = s.hist := rfl
@[simp] theorem modEth_proc (p : Nat) (f : EthPort → EthPort) : (modEth s p f).proc = s.proc := rfl
@[simp] theorem modEth_meter (p : Nat) (f : EthPort → EthPort) : (modEth s p f).meter = s.meter := rfl
@[simp] theorem modEth_snap (p : Nat) (f : EthPort → EthPort) : (modEth s p f).snap = s.snap := rfl
@[simp] theorem modEth_banks (p : Nat) (f : EthPort → EthPort) : (modEth s p f).banks = s.banks := rfl
@[simp] theorem modEth_rings (p : Nat) (f : EthPort → EthPort) : (modEth s p f).rings = s.rings := rfl
@[simp] theorem modEth_jobs (p : Nat) (f : EthPort → EthPort) : (modEth s p f).jobs = s.jobs := rfl
@[simp] theorem modEth_pcie (p : Nat) (f : EthPort → EthPort) : (modEth s p f).pcie = s.pcie := rfl
@[simp] theorem modEth_faults (p : Nat) (f : EthPort → EthPort) : (modEth s p f).faults = s.faults := rfl
@[simp] theorem modEth_franking (p : Nat) (f : EthPort → EthPort) : (modEth s p f).franking = s.franking := rfl
@[simp] theorem modEth_free (p : Nat) (f : EthPort → EthPort) : (modEth s p f).free = s.free := rfl
@[simp] theorem modEth_out (p : Nat) (f : EthPort → EthPort) : (modEth s p f).out = s.out := rfl
@[simp] theorem modEth_pending (p : Nat) (f : EthPort → EthPort) : (modEth s p f).pending = s.pending := rfl

@[simp] theorem modRec_pins (r : Nat) (f : Rec → Rec) : (modRec s r f).pins = s.pins := rfl
@[simp] theorem modRec_power (r : Nat) (f : Rec → Rec) : (modRec s r f).power = s.power := rfl
@[simp] theorem modRec_boot (r : Nat) (f : Rec → Rec) : (modRec s r f).boot = s.boot := rfl
@[simp] theorem modRec_flash (r : Nat) (f : Rec → Rec) : (modRec s r f).flash = s.flash := rfl
@[simp] theorem modRec_flashRegs (r : Nat) (f : Rec → Rec) : (modRec s r f).flashRegs = s.flashRegs := rfl
@[simp] theorem modRec_time (r : Nat) (f : Rec → Rec) : (modRec s r f).time = s.time := rfl
@[simp] theorem modRec_clocks (r : Nat) (f : Rec → Rec) : (modRec s r f).clocks = s.clocks := rfl
@[simp] theorem modRec_field (r : Nat) (f : Rec → Rec) : (modRec s r f).field = s.field := rfl
@[simp] theorem modRec_frames (r : Nat) (f : Rec → Rec) : (modRec s r f).frames = s.frames := rfl
@[simp] theorem modRec_released (r : Nat) (f : Rec → Rec) : (modRec s r f).released = s.released := rfl
@[simp] theorem modRec_firstRun (r : Nat) (f : Rec → Rec) : (modRec s r f).firstRun = s.firstRun := rfl
@[simp] theorem modRec_settleEnd (r : Nat) (f : Rec → Rec) : (modRec s r f).settleEnd = s.settleEnd := rfl
@[simp] theorem modRec_seqs (r : Nat) (f : Rec → Rec) : (modRec s r f).seqs = s.seqs := rfl
@[simp] theorem modRec_seqCmds (r : Nat) (f : Rec → Rec) : (modRec s r f).seqCmds = s.seqCmds := rfl
@[simp] theorem modRec_shown (r : Nat) (f : Rec → Rec) : (modRec s r f).shown = s.shown := rfl
@[simp] theorem modRec_hist (r : Nat) (f : Rec → Rec) : (modRec s r f).hist = s.hist := rfl
@[simp] theorem modRec_proc (r : Nat) (f : Rec → Rec) : (modRec s r f).proc = s.proc := rfl
@[simp] theorem modRec_meter (r : Nat) (f : Rec → Rec) : (modRec s r f).meter = s.meter := rfl
@[simp] theorem modRec_snap (r : Nat) (f : Rec → Rec) : (modRec s r f).snap = s.snap := rfl
@[simp] theorem modRec_banks (r : Nat) (f : Rec → Rec) : (modRec s r f).banks = s.banks := rfl
@[simp] theorem modRec_rings (r : Nat) (f : Rec → Rec) : (modRec s r f).rings = s.rings := rfl
@[simp] theorem modRec_jobs (r : Nat) (f : Rec → Rec) : (modRec s r f).jobs = s.jobs := rfl
@[simp] theorem modRec_pcie (r : Nat) (f : Rec → Rec) : (modRec s r f).pcie = s.pcie := rfl
@[simp] theorem modRec_faults (r : Nat) (f : Rec → Rec) : (modRec s r f).faults = s.faults := rfl
@[simp] theorem modRec_franking (r : Nat) (f : Rec → Rec) : (modRec s r f).franking = s.franking := rfl
@[simp] theorem modRec_free (r : Nat) (f : Rec → Rec) : (modRec s r f).free = s.free := rfl
@[simp] theorem modRec_out (r : Nat) (f : Rec → Rec) : (modRec s r f).out = s.out := rfl
@[simp] theorem modRec_pending (r : Nat) (f : Rec → Rec) : (modRec s r f).pending = s.pending := rfl

@[simp] theorem modJob_pins (i : Nat) (f : Job → Job) : (modJob s i f).pins = s.pins := rfl
@[simp] theorem modJob_power (i : Nat) (f : Job → Job) : (modJob s i f).power = s.power := rfl
@[simp] theorem modJob_boot (i : Nat) (f : Job → Job) : (modJob s i f).boot = s.boot := rfl
@[simp] theorem modJob_flash (i : Nat) (f : Job → Job) : (modJob s i f).flash = s.flash := rfl
@[simp] theorem modJob_flashRegs (i : Nat) (f : Job → Job) : (modJob s i f).flashRegs = s.flashRegs := rfl
@[simp] theorem modJob_time (i : Nat) (f : Job → Job) : (modJob s i f).time = s.time := rfl
@[simp] theorem modJob_clocks (i : Nat) (f : Job → Job) : (modJob s i f).clocks = s.clocks := rfl
@[simp] theorem modJob_field (i : Nat) (f : Job → Job) : (modJob s i f).field = s.field := rfl
@[simp] theorem modJob_frames (i : Nat) (f : Job → Job) : (modJob s i f).frames = s.frames := rfl
@[simp] theorem modJob_released (i : Nat) (f : Job → Job) : (modJob s i f).released = s.released := rfl
@[simp] theorem modJob_firstRun (i : Nat) (f : Job → Job) : (modJob s i f).firstRun = s.firstRun := rfl
@[simp] theorem modJob_settleEnd (i : Nat) (f : Job → Job) : (modJob s i f).settleEnd = s.settleEnd := rfl
@[simp] theorem modJob_seqs (i : Nat) (f : Job → Job) : (modJob s i f).seqs = s.seqs := rfl
@[simp] theorem modJob_seqCmds (i : Nat) (f : Job → Job) : (modJob s i f).seqCmds = s.seqCmds := rfl
@[simp] theorem modJob_shown (i : Nat) (f : Job → Job) : (modJob s i f).shown = s.shown := rfl
@[simp] theorem modJob_recs (i : Nat) (f : Job → Job) : (modJob s i f).recs = s.recs := rfl
@[simp] theorem modJob_hist (i : Nat) (f : Job → Job) : (modJob s i f).hist = s.hist := rfl
@[simp] theorem modJob_proc (i : Nat) (f : Job → Job) : (modJob s i f).proc = s.proc := rfl
@[simp] theorem modJob_meter (i : Nat) (f : Job → Job) : (modJob s i f).meter = s.meter := rfl
@[simp] theorem modJob_snap (i : Nat) (f : Job → Job) : (modJob s i f).snap = s.snap := rfl
@[simp] theorem modJob_banks (i : Nat) (f : Job → Job) : (modJob s i f).banks = s.banks := rfl
@[simp] theorem modJob_rings (i : Nat) (f : Job → Job) : (modJob s i f).rings = s.rings := rfl
@[simp] theorem modJob_pcie (i : Nat) (f : Job → Job) : (modJob s i f).pcie = s.pcie := rfl
@[simp] theorem modJob_faults (i : Nat) (f : Job → Job) : (modJob s i f).faults = s.faults := rfl
@[simp] theorem modJob_franking (i : Nat) (f : Job → Job) : (modJob s i f).franking = s.franking := rfl
@[simp] theorem modJob_free (i : Nat) (f : Job → Job) : (modJob s i f).free = s.free := rfl
@[simp] theorem modJob_out (i : Nat) (f : Job → Job) : (modJob s i f).out = s.out := rfl
@[simp] theorem modJob_pending (i : Nat) (f : Job → Job) : (modJob s i f).pending = s.pending := rfl

@[simp] theorem modWin_pins (k : Nat) (f : Win → Win) : (modWin s k f).pins = s.pins := rfl
@[simp] theorem modWin_power (k : Nat) (f : Win → Win) : (modWin s k f).power = s.power := rfl
@[simp] theorem modWin_boot (k : Nat) (f : Win → Win) : (modWin s k f).boot = s.boot := rfl
@[simp] theorem modWin_flash (k : Nat) (f : Win → Win) : (modWin s k f).flash = s.flash := rfl
@[simp] theorem modWin_flashRegs (k : Nat) (f : Win → Win) : (modWin s k f).flashRegs = s.flashRegs := rfl
@[simp] theorem modWin_time (k : Nat) (f : Win → Win) : (modWin s k f).time = s.time := rfl
@[simp] theorem modWin_clocks (k : Nat) (f : Win → Win) : (modWin s k f).clocks = s.clocks := rfl
@[simp] theorem modWin_field (k : Nat) (f : Win → Win) : (modWin s k f).field = s.field := rfl
@[simp] theorem modWin_frames (k : Nat) (f : Win → Win) : (modWin s k f).frames = s.frames := rfl
@[simp] theorem modWin_released (k : Nat) (f : Win → Win) : (modWin s k f).released = s.released := rfl
@[simp] theorem modWin_firstRun (k : Nat) (f : Win → Win) : (modWin s k f).firstRun = s.firstRun := rfl
@[simp] theorem modWin_settleEnd (k : Nat) (f : Win → Win) : (modWin s k f).settleEnd = s.settleEnd := rfl
@[simp] theorem modWin_seqs (k : Nat) (f : Win → Win) : (modWin s k f).seqs = s.seqs := rfl
@[simp] theorem modWin_seqCmds (k : Nat) (f : Win → Win) : (modWin s k f).seqCmds = s.seqCmds := rfl
@[simp] theorem modWin_shown (k : Nat) (f : Win → Win) : (modWin s k f).shown = s.shown := rfl
@[simp] theorem modWin_recs (k : Nat) (f : Win → Win) : (modWin s k f).recs = s.recs := rfl
@[simp] theorem modWin_hist (k : Nat) (f : Win → Win) : (modWin s k f).hist = s.hist := rfl
@[simp] theorem modWin_proc (k : Nat) (f : Win → Win) : (modWin s k f).proc = s.proc := rfl
@[simp] theorem modWin_meter (k : Nat) (f : Win → Win) : (modWin s k f).meter = s.meter := rfl
@[simp] theorem modWin_snap (k : Nat) (f : Win → Win) : (modWin s k f).snap = s.snap := rfl
@[simp] theorem modWin_banks (k : Nat) (f : Win → Win) : (modWin s k f).banks = s.banks := rfl
@[simp] theorem modWin_rings (k : Nat) (f : Win → Win) : (modWin s k f).rings = s.rings := rfl
@[simp] theorem modWin_jobs (k : Nat) (f : Win → Win) : (modWin s k f).jobs = s.jobs := rfl
@[simp] theorem modWin_faults (k : Nat) (f : Win → Win) : (modWin s k f).faults = s.faults := rfl
@[simp] theorem modWin_franking (k : Nat) (f : Win → Win) : (modWin s k f).franking = s.franking := rfl
@[simp] theorem modWin_free (k : Nat) (f : Win → Win) : (modWin s k f).free = s.free := rfl
@[simp] theorem modWin_out (k : Nat) (f : Win → Win) : (modWin s k f).out = s.out := rfl
@[simp] theorem modWin_pending (k : Nat) (f : Win → Win) : (modWin s k f).pending = s.pending := rfl

@[simp] theorem modFence_pins (u : FUnit) (f : Fence → Fence) : (modFence s u f).pins = s.pins := rfl
@[simp] theorem modFence_power (u : FUnit) (f : Fence → Fence) : (modFence s u f).power = s.power := rfl
@[simp] theorem modFence_boot (u : FUnit) (f : Fence → Fence) : (modFence s u f).boot = s.boot := rfl
@[simp] theorem modFence_flash (u : FUnit) (f : Fence → Fence) : (modFence s u f).flash = s.flash := rfl
@[simp] theorem modFence_flashRegs (u : FUnit) (f : Fence → Fence) : (modFence s u f).flashRegs = s.flashRegs := rfl
@[simp] theorem modFence_time (u : FUnit) (f : Fence → Fence) : (modFence s u f).time = s.time := rfl
@[simp] theorem modFence_clocks (u : FUnit) (f : Fence → Fence) : (modFence s u f).clocks = s.clocks := rfl
@[simp] theorem modFence_field (u : FUnit) (f : Fence → Fence) : (modFence s u f).field = s.field := rfl
@[simp] theorem modFence_frames (u : FUnit) (f : Fence → Fence) : (modFence s u f).frames = s.frames := rfl
@[simp] theorem modFence_released (u : FUnit) (f : Fence → Fence) : (modFence s u f).released = s.released := rfl
@[simp] theorem modFence_firstRun (u : FUnit) (f : Fence → Fence) : (modFence s u f).firstRun = s.firstRun := rfl
@[simp] theorem modFence_settleEnd (u : FUnit) (f : Fence → Fence) : (modFence s u f).settleEnd = s.settleEnd := rfl
@[simp] theorem modFence_seqs (u : FUnit) (f : Fence → Fence) : (modFence s u f).seqs = s.seqs := rfl
@[simp] theorem modFence_seqCmds (u : FUnit) (f : Fence → Fence) : (modFence s u f).seqCmds = s.seqCmds := rfl
@[simp] theorem modFence_shown (u : FUnit) (f : Fence → Fence) : (modFence s u f).shown = s.shown := rfl
@[simp] theorem modFence_recs (u : FUnit) (f : Fence → Fence) : (modFence s u f).recs = s.recs := rfl
@[simp] theorem modFence_hist (u : FUnit) (f : Fence → Fence) : (modFence s u f).hist = s.hist := rfl
@[simp] theorem modFence_proc (u : FUnit) (f : Fence → Fence) : (modFence s u f).proc = s.proc := rfl
@[simp] theorem modFence_meter (u : FUnit) (f : Fence → Fence) : (modFence s u f).meter = s.meter := rfl
@[simp] theorem modFence_snap (u : FUnit) (f : Fence → Fence) : (modFence s u f).snap = s.snap := rfl
@[simp] theorem modFence_banks (u : FUnit) (f : Fence → Fence) : (modFence s u f).banks = s.banks := rfl
@[simp] theorem modFence_rings (u : FUnit) (f : Fence → Fence) : (modFence s u f).rings = s.rings := rfl
@[simp] theorem modFence_jobs (u : FUnit) (f : Fence → Fence) : (modFence s u f).jobs = s.jobs := rfl
@[simp] theorem modFence_pcie (u : FUnit) (f : Fence → Fence) : (modFence s u f).pcie = s.pcie := rfl
@[simp] theorem modFence_franking (u : FUnit) (f : Fence → Fence) : (modFence s u f).franking = s.franking := rfl
@[simp] theorem modFence_free (u : FUnit) (f : Fence → Fence) : (modFence s u f).free = s.free := rfl
@[simp] theorem modFence_out (u : FUnit) (f : Fence → Fence) : (modFence s u f).out = s.out := rfl
@[simp] theorem modFence_pending (u : FUnit) (f : Fence → Fence) : (modFence s u f).pending = s.pending := rfl

@[simp] theorem popReady_pins (r : Nat) : (popReady s r).pins = s.pins := rfl
@[simp] theorem popReady_power (r : Nat) : (popReady s r).power = s.power := rfl
@[simp] theorem popReady_boot (r : Nat) : (popReady s r).boot = s.boot := rfl
@[simp] theorem popReady_flash (r : Nat) : (popReady s r).flash = s.flash := rfl
@[simp] theorem popReady_flashRegs (r : Nat) : (popReady s r).flashRegs = s.flashRegs := rfl
@[simp] theorem popReady_time (r : Nat) : (popReady s r).time = s.time := rfl
@[simp] theorem popReady_clocks (r : Nat) : (popReady s r).clocks = s.clocks := rfl
@[simp] theorem popReady_field (r : Nat) : (popReady s r).field = s.field := rfl
@[simp] theorem popReady_frames (r : Nat) : (popReady s r).frames = s.frames := rfl
@[simp] theorem popReady_released (r : Nat) : (popReady s r).released = s.released := rfl
@[simp] theorem popReady_firstRun (r : Nat) : (popReady s r).firstRun = s.firstRun := rfl
@[simp] theorem popReady_settleEnd (r : Nat) : (popReady s r).settleEnd = s.settleEnd := rfl
@[simp] theorem popReady_seqs (r : Nat) : (popReady s r).seqs = s.seqs := rfl
@[simp] theorem popReady_seqCmds (r : Nat) : (popReady s r).seqCmds = s.seqCmds := rfl
@[simp] theorem popReady_shown (r : Nat) : (popReady s r).shown = s.shown := rfl
@[simp] theorem popReady_recs (r : Nat) : (popReady s r).recs = s.recs := rfl
@[simp] theorem popReady_hist (r : Nat) : (popReady s r).hist = s.hist := rfl
@[simp] theorem popReady_proc (r : Nat) : (popReady s r).proc = s.proc := rfl
@[simp] theorem popReady_meter (r : Nat) : (popReady s r).meter = s.meter := rfl
@[simp] theorem popReady_snap (r : Nat) : (popReady s r).snap = s.snap := rfl
@[simp] theorem popReady_banks (r : Nat) : (popReady s r).banks = s.banks := rfl
@[simp] theorem popReady_jobs (r : Nat) : (popReady s r).jobs = s.jobs := rfl
@[simp] theorem popReady_pcie (r : Nat) : (popReady s r).pcie = s.pcie := rfl
@[simp] theorem popReady_faults (r : Nat) : (popReady s r).faults = s.faults := rfl
@[simp] theorem popReady_franking (r : Nat) : (popReady s r).franking = s.franking := rfl
@[simp] theorem popReady_free (r : Nat) : (popReady s r).free = s.free := rfl
@[simp] theorem popReady_out (r : Nat) : (popReady s r).out = s.out := rfl
@[simp] theorem popReady_pending (r : Nat) : (popReady s r).pending = s.pending := rfl

@[simp] theorem pushReady_pins (r : Nat) (l : List Item) : (pushReady s r l).pins = s.pins := rfl
@[simp] theorem pushReady_power (r : Nat) (l : List Item) : (pushReady s r l).power = s.power := rfl
@[simp] theorem pushReady_boot (r : Nat) (l : List Item) : (pushReady s r l).boot = s.boot := rfl
@[simp] theorem pushReady_flash (r : Nat) (l : List Item) : (pushReady s r l).flash = s.flash := rfl
@[simp] theorem pushReady_flashRegs (r : Nat) (l : List Item) : (pushReady s r l).flashRegs = s.flashRegs := rfl
@[simp] theorem pushReady_time (r : Nat) (l : List Item) : (pushReady s r l).time = s.time := rfl
@[simp] theorem pushReady_clocks (r : Nat) (l : List Item) : (pushReady s r l).clocks = s.clocks := rfl
@[simp] theorem pushReady_field (r : Nat) (l : List Item) : (pushReady s r l).field = s.field := rfl
@[simp] theorem pushReady_frames (r : Nat) (l : List Item) : (pushReady s r l).frames = s.frames := rfl
@[simp] theorem pushReady_released (r : Nat) (l : List Item) : (pushReady s r l).released = s.released := rfl
@[simp] theorem pushReady_firstRun (r : Nat) (l : List Item) : (pushReady s r l).firstRun = s.firstRun := rfl
@[simp] theorem pushReady_settleEnd (r : Nat) (l : List Item) : (pushReady s r l).settleEnd = s.settleEnd := rfl
@[simp] theorem pushReady_seqs (r : Nat) (l : List Item) : (pushReady s r l).seqs = s.seqs := rfl
@[simp] theorem pushReady_seqCmds (r : Nat) (l : List Item) : (pushReady s r l).seqCmds = s.seqCmds := rfl
@[simp] theorem pushReady_shown (r : Nat) (l : List Item) : (pushReady s r l).shown = s.shown := rfl
@[simp] theorem pushReady_recs (r : Nat) (l : List Item) : (pushReady s r l).recs = s.recs := rfl
@[simp] theorem pushReady_hist (r : Nat) (l : List Item) : (pushReady s r l).hist = s.hist := rfl
@[simp] theorem pushReady_proc (r : Nat) (l : List Item) : (pushReady s r l).proc = s.proc := rfl
@[simp] theorem pushReady_meter (r : Nat) (l : List Item) : (pushReady s r l).meter = s.meter := rfl
@[simp] theorem pushReady_snap (r : Nat) (l : List Item) : (pushReady s r l).snap = s.snap := rfl
@[simp] theorem pushReady_banks (r : Nat) (l : List Item) : (pushReady s r l).banks = s.banks := rfl
@[simp] theorem pushReady_jobs (r : Nat) (l : List Item) : (pushReady s r l).jobs = s.jobs := rfl
@[simp] theorem pushReady_pcie (r : Nat) (l : List Item) : (pushReady s r l).pcie = s.pcie := rfl
@[simp] theorem pushReady_faults (r : Nat) (l : List Item) : (pushReady s r l).faults = s.faults := rfl
@[simp] theorem pushReady_franking (r : Nat) (l : List Item) : (pushReady s r l).franking = s.franking := rfl
@[simp] theorem pushReady_free (r : Nat) (l : List Item) : (pushReady s r l).free = s.free := rfl
@[simp] theorem pushReady_out (r : Nat) (l : List Item) : (pushReady s r l).out = s.out := rfl
@[simp] theorem pushReady_pending (r : Nat) (l : List Item) : (pushReady s r l).pending = s.pending := rfl

@[simp] theorem bumpGen_pins : (bumpGen s).pins = s.pins := rfl
@[simp] theorem bumpGen_power : (bumpGen s).power = s.power := rfl
@[simp] theorem bumpGen_boot : (bumpGen s).boot = s.boot := rfl
@[simp] theorem bumpGen_flash : (bumpGen s).flash = s.flash := rfl
@[simp] theorem bumpGen_flashRegs : (bumpGen s).flashRegs = s.flashRegs := rfl
@[simp] theorem bumpGen_time : (bumpGen s).time = s.time := rfl
@[simp] theorem bumpGen_clocks : (bumpGen s).clocks = s.clocks := rfl
@[simp] theorem bumpGen_field : (bumpGen s).field = s.field := rfl
@[simp] theorem bumpGen_frames : (bumpGen s).frames = s.frames := rfl
@[simp] theorem bumpGen_released : (bumpGen s).released = s.released := rfl
@[simp] theorem bumpGen_firstRun : (bumpGen s).firstRun = s.firstRun := rfl
@[simp] theorem bumpGen_settleEnd : (bumpGen s).settleEnd = s.settleEnd := rfl
@[simp] theorem bumpGen_seqs : (bumpGen s).seqs = s.seqs := rfl
@[simp] theorem bumpGen_seqCmds : (bumpGen s).seqCmds = s.seqCmds := rfl
@[simp] theorem bumpGen_shown : (bumpGen s).shown = s.shown := rfl
@[simp] theorem bumpGen_recs : (bumpGen s).recs = s.recs := rfl
@[simp] theorem bumpGen_hist : (bumpGen s).hist = s.hist := rfl
@[simp] theorem bumpGen_proc : (bumpGen s).proc = s.proc := rfl
@[simp] theorem bumpGen_meter : (bumpGen s).meter = s.meter := rfl
@[simp] theorem bumpGen_snap : (bumpGen s).snap = s.snap := rfl
@[simp] theorem bumpGen_banks : (bumpGen s).banks = s.banks := rfl
@[simp] theorem bumpGen_jobs : (bumpGen s).jobs = s.jobs := rfl
@[simp] theorem bumpGen_pcie : (bumpGen s).pcie = s.pcie := rfl
@[simp] theorem bumpGen_faults : (bumpGen s).faults = s.faults := rfl
@[simp] theorem bumpGen_franking : (bumpGen s).franking = s.franking := rfl
@[simp] theorem bumpGen_free : (bumpGen s).free = s.free := rfl
@[simp] theorem bumpGen_out : (bumpGen s).out = s.out := rfl
@[simp] theorem bumpGen_pending : (bumpGen s).pending = s.pending := rfl

@[simp] theorem holdEnvelope_pins (e : Envelope) : (holdEnvelope s e).pins = s.pins := rfl
@[simp] theorem holdEnvelope_power (e : Envelope) : (holdEnvelope s e).power = s.power := rfl
@[simp] theorem holdEnvelope_boot (e : Envelope) : (holdEnvelope s e).boot = s.boot := rfl
@[simp] theorem holdEnvelope_flash (e : Envelope) : (holdEnvelope s e).flash = s.flash := rfl
@[simp] theorem holdEnvelope_flashRegs (e : Envelope) : (holdEnvelope s e).flashRegs = s.flashRegs := rfl
@[simp] theorem holdEnvelope_time (e : Envelope) : (holdEnvelope s e).time = s.time := rfl
@[simp] theorem holdEnvelope_clocks (e : Envelope) : (holdEnvelope s e).clocks = s.clocks := rfl
@[simp] theorem holdEnvelope_field (e : Envelope) : (holdEnvelope s e).field = s.field := rfl
@[simp] theorem holdEnvelope_frames (e : Envelope) : (holdEnvelope s e).frames = s.frames := rfl
@[simp] theorem holdEnvelope_released (e : Envelope) : (holdEnvelope s e).released = s.released := rfl
@[simp] theorem holdEnvelope_firstRun (e : Envelope) : (holdEnvelope s e).firstRun = s.firstRun := rfl
@[simp] theorem holdEnvelope_settleEnd (e : Envelope) : (holdEnvelope s e).settleEnd = s.settleEnd := rfl
@[simp] theorem holdEnvelope_seqs (e : Envelope) : (holdEnvelope s e).seqs = s.seqs := rfl
@[simp] theorem holdEnvelope_seqCmds (e : Envelope) : (holdEnvelope s e).seqCmds = s.seqCmds := rfl
@[simp] theorem holdEnvelope_shown (e : Envelope) : (holdEnvelope s e).shown = s.shown := rfl
@[simp] theorem holdEnvelope_recs (e : Envelope) : (holdEnvelope s e).recs = s.recs := rfl
@[simp] theorem holdEnvelope_hist (e : Envelope) : (holdEnvelope s e).hist = s.hist := rfl
@[simp] theorem holdEnvelope_proc (e : Envelope) : (holdEnvelope s e).proc = s.proc := rfl
@[simp] theorem holdEnvelope_meter (e : Envelope) : (holdEnvelope s e).meter = s.meter := rfl
@[simp] theorem holdEnvelope_snap (e : Envelope) : (holdEnvelope s e).snap = s.snap := rfl
@[simp] theorem holdEnvelope_banks (e : Envelope) : (holdEnvelope s e).banks = s.banks := rfl
@[simp] theorem holdEnvelope_jobs (e : Envelope) : (holdEnvelope s e).jobs = s.jobs := rfl
@[simp] theorem holdEnvelope_pcie (e : Envelope) : (holdEnvelope s e).pcie = s.pcie := rfl
@[simp] theorem holdEnvelope_faults (e : Envelope) : (holdEnvelope s e).faults = s.faults := rfl
@[simp] theorem holdEnvelope_franking (e : Envelope) : (holdEnvelope s e).franking = s.franking := rfl
@[simp] theorem holdEnvelope_free (e : Envelope) : (holdEnvelope s e).free = s.free := rfl
@[simp] theorem holdEnvelope_out (e : Envelope) : (holdEnvelope s e).out = s.out := rfl
@[simp] theorem holdEnvelope_pending (e : Envelope) : (holdEnvelope s e).pending = s.pending := rfl


@[simp] theorem dropRead_pins (tag : Nat) : (dropRead s tag).pins = s.pins := rfl
@[simp] theorem dropRead_power (tag : Nat) : (dropRead s tag).power = s.power := rfl
@[simp] theorem dropRead_boot (tag : Nat) : (dropRead s tag).boot = s.boot := rfl
@[simp] theorem dropRead_flash (tag : Nat) : (dropRead s tag).flash = s.flash := rfl
@[simp] theorem dropRead_flashRegs (tag : Nat) : (dropRead s tag).flashRegs = s.flashRegs := rfl
@[simp] theorem dropRead_time (tag : Nat) : (dropRead s tag).time = s.time := rfl
@[simp] theorem dropRead_clocks (tag : Nat) : (dropRead s tag).clocks = s.clocks := rfl
@[simp] theorem dropRead_field (tag : Nat) : (dropRead s tag).field = s.field := rfl
@[simp] theorem dropRead_frames (tag : Nat) : (dropRead s tag).frames = s.frames := rfl
@[simp] theorem dropRead_released (tag : Nat) : (dropRead s tag).released = s.released := rfl
@[simp] theorem dropRead_firstRun (tag : Nat) : (dropRead s tag).firstRun = s.firstRun := rfl
@[simp] theorem dropRead_settleEnd (tag : Nat) : (dropRead s tag).settleEnd = s.settleEnd := rfl
@[simp] theorem dropRead_seqs (tag : Nat) : (dropRead s tag).seqs = s.seqs := rfl
@[simp] theorem dropRead_seqCmds (tag : Nat) : (dropRead s tag).seqCmds = s.seqCmds := rfl
@[simp] theorem dropRead_shown (tag : Nat) : (dropRead s tag).shown = s.shown := rfl
@[simp] theorem dropRead_recs (tag : Nat) : (dropRead s tag).recs = s.recs := rfl
@[simp] theorem dropRead_hist (tag : Nat) : (dropRead s tag).hist = s.hist := rfl
@[simp] theorem dropRead_proc (tag : Nat) : (dropRead s tag).proc = s.proc := rfl
@[simp] theorem dropRead_meter (tag : Nat) : (dropRead s tag).meter = s.meter := rfl
@[simp] theorem dropRead_snap (tag : Nat) : (dropRead s tag).snap = s.snap := rfl
@[simp] theorem dropRead_banks (tag : Nat) : (dropRead s tag).banks = s.banks := rfl
@[simp] theorem dropRead_rings (tag : Nat) : (dropRead s tag).rings = s.rings := rfl
@[simp] theorem dropRead_jobs (tag : Nat) : (dropRead s tag).jobs = s.jobs := rfl
@[simp] theorem dropRead_faults (tag : Nat) : (dropRead s tag).faults = s.faults := rfl
@[simp] theorem dropRead_franking (tag : Nat) : (dropRead s tag).franking = s.franking := rfl
@[simp] theorem dropRead_free (tag : Nat) : (dropRead s tag).free = s.free := rfl
@[simp] theorem dropRead_out (tag : Nat) : (dropRead s tag).out = s.out := rfl
@[simp] theorem dropRead_pending (tag : Nat) : (dropRead s tag).pending = s.pending := rfl

@[simp] theorem afterStart_pins (c : Cmd) : (afterStart s c).pins = s.pins := rfl
@[simp] theorem afterStart_power (c : Cmd) : (afterStart s c).power = s.power := rfl
@[simp] theorem afterStart_boot (c : Cmd) : (afterStart s c).boot = s.boot := rfl
@[simp] theorem afterStart_flash (c : Cmd) : (afterStart s c).flash = s.flash := rfl
@[simp] theorem afterStart_flashRegs (c : Cmd) : (afterStart s c).flashRegs = s.flashRegs := rfl
@[simp] theorem afterStart_time (c : Cmd) : (afterStart s c).time = s.time := rfl
@[simp] theorem afterStart_clocks (c : Cmd) : (afterStart s c).clocks = s.clocks := rfl
@[simp] theorem afterStart_field (c : Cmd) : (afterStart s c).field = s.field := rfl
@[simp] theorem afterStart_frames (c : Cmd) : (afterStart s c).frames = s.frames := rfl
@[simp] theorem afterStart_released (c : Cmd) : (afterStart s c).released = s.released := rfl
@[simp] theorem afterStart_firstRun (c : Cmd) : (afterStart s c).firstRun = s.firstRun := rfl
@[simp] theorem afterStart_settleEnd (c : Cmd) : (afterStart s c).settleEnd = s.settleEnd := rfl
@[simp] theorem afterStart_seqs (c : Cmd) : (afterStart s c).seqs = s.seqs := rfl
@[simp] theorem afterStart_seqCmds (c : Cmd) : (afterStart s c).seqCmds = s.seqCmds := rfl
@[simp] theorem afterStart_shown (c : Cmd) : (afterStart s c).shown = s.shown := rfl
@[simp] theorem afterStart_recs (c : Cmd) : (afterStart s c).recs = s.recs := rfl
@[simp] theorem afterStart_hist (c : Cmd) : (afterStart s c).hist = s.hist := rfl
@[simp] theorem afterStart_proc (c : Cmd) : (afterStart s c).proc = s.proc := rfl
@[simp] theorem afterStart_meter (c : Cmd) : (afterStart s c).meter = s.meter := rfl
@[simp] theorem afterStart_snap (c : Cmd) : (afterStart s c).snap = s.snap := rfl
@[simp] theorem afterStart_banks (c : Cmd) : (afterStart s c).banks = s.banks := rfl
@[simp] theorem afterStart_jobs (c : Cmd) : (afterStart s c).jobs = s.jobs := rfl
@[simp] theorem afterStart_pcie (c : Cmd) : (afterStart s c).pcie = s.pcie := rfl
@[simp] theorem afterStart_faults (c : Cmd) : (afterStart s c).faults = s.faults := rfl
@[simp] theorem afterStart_franking (c : Cmd) : (afterStart s c).franking = s.franking := rfl
@[simp] theorem afterStart_free (c : Cmd) : (afterStart s c).free = s.free := rfl
@[simp] theorem afterStart_out (c : Cmd) : (afterStart s c).out = s.out := rfl
@[simp] theorem afterStart_pending (c : Cmd) : (afterStart s c).pending = s.pending := rfl

/-! ## The part itself -/

@[simp] theorem emit_out (o : Output) : (emit s o).out = s.out ++ [o] := rfl

@[simp] theorem group_modGroup_self (g : Nat) (f : Group → Group) : (modGroup s g f).group g = f (s.group g) :=
  tget_tmod_self _ _ _ _

theorem group_modGroup_ne {g j : Nat} (f : Group → Group) (h : j ≠ g) : (modGroup s g f).group j = s.group j :=
  tget_tmod_ne _ _ _ h

@[simp] theorem modGroup_modGroup (g : Nat) (f h : Group → Group) : modGroup (modGroup s g f) g h = modGroup s g (fun e => h (f e)) := by
  simp [modGroup]

@[simp] theorem ring_modRing_self (r : Nat) (f : Ring → Ring) : (modRing s r f).ring r = f (s.ring r) := tget_tmod_self _ _ _ _

theorem ring_modRing_ne {r j : Nat} (f : Ring → Ring) (h : j ≠ r) : (modRing s r f).ring j = s.ring j := tget_tmod_ne _ _ _ h

@[simp] theorem modRing_modRing (r : Nat) (f h : Ring → Ring) : modRing (modRing s r f) r h = modRing s r (fun e => h (f e)) := by
  simp [modRing]

@[simp] theorem win_modWin_self (k : Nat) (f : Win → Win) : (modWin s k f).win k = f (s.win k) := tget_tmod_self _ _ _ _

theorem win_modWin_ne {k j : Nat} (f : Win → Win) (h : j ≠ k) : (modWin s k f).win j = s.win j := tget_tmod_ne _ _ _ h

@[simp] theorem dom_modDom_self {x : Nat} (f : Domain → Domain) (h : x < 2) : (modDom s x f).time.dom x = f (s.time.dom x) := by
  unfold modDom Time.setDom Time.dom
  split <;> rfl

@[simp] theorem modDom_modDom (x : Nat) (f h : Domain → Domain) : modDom (modDom s x f) x h = modDom s x (fun d => h (f d)) := by
  unfold modDom Time.setDom Time.dom
  dsimp only
  split <;> rfl

/-! ## Time -/

/-- Time advances to an instant that is not over, and otherwise stands. -/
theorem advanceTo_now (n : Nat) : (advanceTo s n).now = max s.now n := by
  unfold advanceTo
  split
  · rename_i h
    simp only [State.now, Time.now, BitVec.toNat_ofNat, rawPeriod] at h ⊢
    have := Nat.div_add_mod n (2 ^ 56)
    rw [Nat.mod_mod_of_dvd _ (dvd_refl _)]
    omega
  · omega

/-- Nothing but raw time and its wrap count changes as time advances. -/
theorem advanceTo_frame (n : Nat) :
    { advanceTo s n with time := { (advanceTo s n).time with raw := s.time.raw, wraps := s.time.wraps } } = s := by
  unfold advanceTo
  split <;> rfl

end Sys2Proof.Machine
end

