-- ==== Sys2Proof/WellFormed.lean ====
section
/-!
DEFINITION. Which operands a command or event can carry: the number of groups, rings, lanes and windows that the module has, and
the widths of the fields that a row takes from outside. A term outside these ranges names nothing that the module has; every
meaning of Machine/ is total all the same.
-/
namespace Sys2Proof

/-- A field group, 0 to 15 (R112). -/
def groupOk (g : Nat) : Bool := decide (g < 16)

/-- A ring number: 14 bits (Table 16-3). -/
def ringOk (r : Nat) : Bool := decide (r < 16384)

/-- A unit of Table 16-3, or an unused channel that failed its tile test (class 0x100 of the model's health map, R86). -/
def FUnit.ok (u : FUnit) : Bool :=
  match u.cls with
  | 0x01 => decide (u.idx < 16)
  | 0x02 => decide (u.idx < 128)
  | 0x03 => decide (u.idx < 4096)
  | 0x04 => decide (u.idx < 272)
  | 0x06 => decide (u.idx < 136)
  | 0x07 => decide (u.idx < 524288)
  | 0x09 => decide (u.idx < 8)
  | 0x0A => decide (u.idx < 16384)
  | 0x0B => decide (u.idx < 4)
  | 0x0D => decide (u.idx < 4)
  | 0x100 => decide (u.idx < 1024)
  | c => decide ((c = 0x05 || c = 0x08 || c = 0x0C || c = 0x0E || c = 0x0F || c = 0x10) ∧ u.idx = 0)

/-- The outcomes of a start-up: units of Table 16-3 only, and a lost clock of R78. -/
def BootEnv.ok (e : BootEnv) : Bool := e.failed.all FUnit.ok && e.lost.all (fun l => decide (1 ≤ l.1 ∧ l.1 ≤ 3))

/-- A 48-bit Ethernet address and a 32-bit Internet address. -/
def macOk (m : Nat) : Bool := decide (m < 2 ^ 48)
def ipOk (a : Nat) : Bool := decide (a < 2 ^ 32)

/-- What a group answers while it is brought up: a group of the module, 16 identity bytes at least, channels below 64 and lanes
below 8 (R86). -/
def GroupBoot.ok (r : GroupBoot) : Bool :=
  groupOk r.group && decide (16 ≤ r.identity.length) && r.failChans.all (fun c => decide (c < 64)) &&
    r.failLanes.all (fun c => decide (c < 8))

/-- A barrier message: LEN is a 16-bit field (Table 04-8). -/
def Msg.ok (m : Msg) : Bool := decide (m.len < 2 ^ 16)

/-- One Ethernet port of two (R422). -/
def portOk (p : Nat) : Bool := decide (p < 2)

/-- A record definition, 0 to 255 (chapter 07). -/
def recOk (r : Nat) : Bool := decide (r < 256)

/-- The units that a frame's work window can find late, and the words with uncorrectable errors. -/
def WindowFaults.ok (w : WindowFaults) : Bool :=
  w.late.all FUnit.ok && w.bankErrs.all (fun e => decide (e.1 < 136 ∧ e.2 < 2 ^ 20)) &&
    w.dramErrs.all (fun e => decide (e.1 < 524288)) && w.corrected.all (fun e => decide (e.1 < 136))

/-- A command or event whose operands the module can meet. -/
def Instr.wf : Instr → Bool
  | .powerGood env => env.ok
  | .modResetAssert => true
  | .modResetRelease env => env.ok
  | .railBrownout rail => decide (rail < 3)
  | .railOutOfTolerance rail => decide (rail < 3)
  | .watchdogReset _ env => env.ok
  | .lockstepMismatch env => env.ok
  | .thermalShutdown => true
  | .thermalRestart env => env.ok
  | .islandPowerWave k res => decide (k < 4 ∧ res.length ≤ 4) && res.all GroupBoot.ok
  | .refInPresent _ => true
  | .refInLost => true
  | .refWaitExpiry => true
  | .leaderChoiceTimeout => true
  | .positionToken p => decide (p < 64)
  | .chainTokenTimeout => true
  | .alignmentMark => true
  | .armingEntry => true
  | .runningEntry => true
  | .frameTick => true
  | .frameNumberWrap => true
  | .timeRawWrap => true
  | .coastingEnd => true
  | .memoryRound w => decide (w.ccReads ≤ 2000) && decide (w.ccWrites ≤ 2000)
  | .frameRelease f => f.ok
  | .rearm q => decide (q < 64)
  | .pulseEnd o => decide (o < 16)
  | .envelopeWrite ring bad _ => ringOk ring && bad.all (fun e => decide (e.1 < 136) && decide (e.2 < 2 ^ 20))
  | .ringNotification ring => ringOk ring
  | .recordPartWrite rec_ _ _ => recOk rec_
  | .streamEnvelopeWrite rec_ _ _ => recOk rec_
  | .measure rec_ _ => recOk rec_
  | .spanReadoutWrite ring _ _ => ringOk ring
  | .completion ring _ => ringOk ring
  | .deadLetterDrain _ => true
  | .datagramSend stream => decide (stream < 2 ^ 15)
  | .doorbellWrite ring _ _ => ringOk ring
  | .commandFetch ring _ entry => decide (ring < 256 ∧ entry.length = 64)
  | .nop => true
  | .seqArm => true
  | .seqDisarm => true
  | .seqForce => true
  | .seqCommandApply => true
  | .spanRead => true
  | .compress => true
  | .decompress => true
  | .splitBlockDispatch => true
  | .splitBlockComplete lane _ _ => decide (lane < 8)
  | .statsRead _ => true
  | .planSwitch => true
  | .planSwitchApply => true
  | .timePref => true
  | .bankAssign => true
  | .ringReset => true
  | .groupPowerDown => true
  | .groupPowerDownApply g => groupOk g
  | .groupPowerUp res => res.ok
  | .groupPowerUpRejoin g => groupOk g
  | .rebind => true
  | .rebindCtrlGo key => decide (key < 2 ^ 32)
  | .rebindDecision => true
  | .rebindTeardown => true
  | .rebindDrainEnd env => env.ok
  | .flashRead len => decide (len < 2 ^ 32)
  | .flashProgram len => decide (len < 2 ^ 32)
  | .flashErase4k len => decide (len < 2 ^ 32)
  | .flashErase64k len => decide (len < 2 ^ 32)
  | .flashOperationComplete _ => true
  | .winCommit k _ => decide (k < 16)
  | .bankOwnerWrite bank owner => decide (bank < 136 ∧ owner < 2 ^ 32)
  | .ringEnable ring _ => ringOk ring
  | .ringDisable ring _ => ringOk ring
  | .notifyUnmask ring _ => ringOk ring
  | .expansionMaxWrite _ => true
  | .intxPendingWrite i _ => decide (i < 64)
  | .msixUnmask t => (match t with
    | .vector v => decide (v < 2048)
    | .function => true)
  | .sqDeadLoRead q => decide (q < 64)
  | .imMeanLoRead e => decide (e < 1024)
  | .tbRawLoRead => true
  | .tbDomGmLoRead x => decide (x < 2)
  | .registerWrite offset _ data => decide (offset < 2 ^ 26) && decide (data.length ≤ 256)
  | .windowRead k offset len cycles =>
    decide (k < 16 ∧ offset < 2 ^ 32 ∧ len ≤ 4096) && decide ((cycles.portB.map (·.1)).Nodup) && cycles.portB.all (fun e => decide (e.1 < 136 * 2 ^ 20))
  | .windowWrite k offset data portB =>
    decide (k < 16 ∧ offset < 2 ^ 32 ∧ data.length ≤ 4096) && decide ((portB.map (·.1)).Nodup) && portB.all (fun e => decide (e.1 < 136 * 2 ^ 20))
  | .perstN => true
  | .hotReset => true
  | .functionLevelReset => true
  | .hostPoolZeroed => true
  | .busMasterEnableClear => true
  | .busMasterEnableSet => true
  | .d3hotEntry => true
  | .d0Return => true
  | .atsInvalidateRequest itag addr size => decide (itag < 32 ∧ addr < 2 ^ 64 ∧ size ≤ 2 ^ 64)
  | .atsInvalidateCompletion => true
  | .hostReadCompletion tag _ data => decide (tag < 1024 ∧ data.bytes.length ≤ 4096 ∧ ∀ n ∈ data.dstFails, n < 2 ^ 32)
  | .hostReadTimeout tag => decide (tag < 1024)
  | .samples g m => groupOk g && m.ok
  | .edges g m => groupOk g && m.ok
  | .stamps g m => groupOk g && m.ok
  | .status g m d => groupOk g && m.ok && decide (d.volts.length = 4 ∧ d.currs.length = 4)
  | .echo g m _ _ result => groupOk g && m.ok && decide (result < 256)
  | .cal g m _ => groupOk g && m.ok
  | .ident g m d => groupOk g && m.ok && d.ok
  | .idle g m => groupOk g && m.ok
  | .echoTimeout g => groupOk g
  | .laneLockLoss g lane => groupOk g && decide (lane < 6)
  | .tick g m => groupOk g && m.ok
  | .setChannel g m c => groupOk g && m.ok && decide (c.chan < 64)
  | .setRail g m rail _ => groupOk g && m.ok && decide (rail < 4)
  | .setMclk g m out _ _ => groupOk g && m.ok && decide (out < 4)
  | .setTrim g m chan _ => groupOk g && m.ok && decide (chan < 64)
  | .phaseStep g m => groupOk g && m.ok
  | .calStart g m _ => groupOk g && m.ok
  | .selfTest g m => groupOk g && m.ok
  | .islandOff g m => groupOk g && m.ok
  | .identReq g m => groupOk g && m.ok
  | .islandBrownout g => groupOk g
  | .railCurrentLimit g rail _ => groupOk g && decide (rail < 5)
  | .overcurrent g rail => groupOk g && decide (rail < 5)
  | .pllSLossOfLock => true
  | .pllSRelock band => decide (band < 64)
  | .groupRejoin g res => groupOk g && res.ok && decide (res.group = g)
  | .faultHoldResume => true
  | .pllCLossOfLock => true
  | .pllCRelock band env => decide (band < 64) && env.ok
  | .pllMLossOfLock => true
  | .pllMRelock band => decide (band < 64)
  | .pllFLossOfLock g => groupOk g
  | .oscillatorFailure => true
  | .syncInEdge offset => decide (offset < 160)
  | .ppsInPulse _ => true
  | .ppsOutPulse => true
  | .ppsOutPulseEnd => true
  | .announce port _ => portOk port
  | .sync port _ => portOk port
  | .followUp port _ => portOk port
  | .delayReq x => decide (x < 2)
  | .delayResp port _ => portOk port
  | .domainLost x => decide (x < 2)
  | .arpRequest port asked => portOk port && ipOk asked
  | .arpReply port ip mac => portOk port && ipOk ip && macOk mac
  | .arpRetry port ip => portOk port && ipOk ip
  | .arpRefresh port ip => portOk port && ipOk ip
  | .icmpEchoRequest port len data => portOk port && decide (len < 2 ^ 16 ∧ data.length < 2 ^ 16)
  | .frameDiscard port => portOk port
  | .ethLinkDown port => portOk port
  | .ethLinkUp port => portOk port
  | .sealChange _ _ => true
  | .fence u cause _ => u.ok && decide (cause < 0x12)
  | .quarantineEnd u => u.ok
  | .selfTestComplete u _ res => u.ok && (match res with
    | some r => r.ok
    | none => true)
  | .readmit u => u.ok
  | .pwMeasurementUpdate m => decide (m.volts.length = 3 ∧ m.currs.length = 3 ∧ m.islandIn.length = 16 ∧ m.islandOut.length = 16)
  | .lifetimeStatisticsUpdate _ => true
  | .smbusBlockRead code => decide (code < 256)
  | .smbusAlertResponse => true
  | .trigInEdge i _ _ => decide (i < 4)
  | .zoneChange chan _ _ fine => decide (chan < 1024 ∧ fine < 256)
  | .perstNRelease => true
  | .interruptDisableSet _ => true
  | .ltrMechanismEnable => true
  | .unsupportedRequest _ => true

end Sys2Proof
end

