-- ==== Sys2Proof/Tests/Slice0.lean ====
section
/-!
SUPPORT. Tests: terms that WellFormed refuses, worked examples and tables of the specification, and for every statement with hypotheses
a state and operands that meet them (`witness_<statement>`, one part for each clause).
-/
namespace Sys2Proof.Tests
open Sys2Proof.Machine

set_option Elab.async false

/-! ## Well-formedness -/

/-- Outcomes of a start-up with one failed unit. -/
def envOf (u : FUnit) : BootEnv := ⟨[u], true, 0, 0, none⟩

def okEnv : BootEnv := ⟨[], true, 0, 0, none⟩

def okCal : CalData := ⟨0, [], [], 0, 0⟩

/-- A group's answers that meet no failure on an empty factory page. -/
def okBoot (g : Nat) : GroupBoot := ⟨g, true, false, zeros 16, 0, 0, [], [], true, true, false, okCal⟩

def okMsg : Msg := ⟨0x01, 0, 0, [], 0⟩

/-- The head of a PTP 2.1 message over layer 2 for domain 0, from sender 7. -/
def okHead : PtpHead := ⟨false, 0, 2, 1, 7⟩

def longMsg : Msg := ⟨0x01, 0, 2 ^ 16, [], 0⟩

/-- One unit beyond the last of each class of Table 16-3, and a class that the table does not have. -/
theorem test_wf_refuses_units :
    [⟨0x01, 16⟩, ⟨0x02, 128⟩, ⟨0x03, 4096⟩, ⟨0x04, 272⟩, ⟨0x05, 1⟩, ⟨0x06, 136⟩, ⟨0x07, 524288⟩, ⟨0x08, 1⟩, ⟨0x09, 8⟩, ⟨0x0A, 16384⟩,
      ⟨0x0B, 4⟩, ⟨0x0C, 1⟩, ⟨0x0D, 4⟩, ⟨0x0E, 1⟩, ⟨0x0F, 1⟩, ⟨0x10, 1⟩, ⟨0x100, 1024⟩, ⟨0x11, 0⟩].all (fun u =>
        !(Instr.powerGood (envOf u)).wf && !(Instr.modResetRelease (envOf u)).wf && !(Instr.watchdogReset false (envOf u)).wf &&
        !(Instr.lockstepMismatch (envOf u)).wf && !(Instr.thermalRestart (envOf u)).wf && !(Instr.rebindDrainEnd (envOf u)).wf &&
        !(Instr.pllCRelock 0 (envOf u)).wf && !(Instr.fence u 1 0).wf && !(Instr.quarantineEnd u).wf && !(Instr.readmit u).wf &&
        !(Instr.selfTestComplete u true none).wf && !(Instr.frameRelease ⟨[u], [], [], []⟩).wf) = true := by decide +kernel

/-- One number beyond each range. -/
theorem test_wf_refuses_numbers :
    [Instr.railBrownout 3, .railOutOfTolerance 3, .islandPowerWave 4 [], .islandPowerWave 0 [okBoot 16], .positionToken 64, .rearm 64,
      .pulseEnd 16, .envelopeWrite 16384 none .ok, .envelopeWrite 7680 (some (136, 0)) .ok, .envelopeWrite 7680 (some (0, 2 ^ 20)) .ok,
      .ringNotification 16384, .recordPartWrite 256 none .ok, .streamEnvelopeWrite 256 none .ok,
      .measure 256 .ok, .spanReadoutWrite 16384 none .ok, .completion 16384 .ok, .datagramSend (2 ^ 15), .doorbellWrite 16384 .low 0,
      .commandFetch 256 .ok (zeros 64), .commandFetch 0 .ok (zeros 63), .splitBlockComplete 8 false {}, .memoryRound ⟨0, 2001, 0⟩, .powerGood { okEnv with lost := some (0, true) }, .groupPowerDownApply 16,
      .groupPowerUp (okBoot 16), .groupPowerUp { okBoot 0 with identity := [] }, .groupPowerUp { okBoot 0 with failChans := [64] },
      .groupPowerUp { okBoot 0 with failLanes := [8] }, .groupPowerUpRejoin 16, .rebindCtrlGo (2 ^ 32), .flashRead (2 ^ 32),
      .flashProgram (2 ^ 32), .flashErase4k (2 ^ 32), .flashErase64k (2 ^ 32), .winCommit 16 true, .bankOwnerWrite 136 1,
      .bankOwnerWrite 0 (2 ^ 32), .ringEnable 16384 0, .ringDisable 16384 0, .notifyUnmask 16384 0, .intxPendingWrite 64 0,
      .msixUnmask (.vector 2048), .sqDeadLoRead 64, .imMeanLoRead 1024, .tbDomGmLoRead 2, .registerWrite (2 ^ 26) true [],
      .registerWrite 0 true (zeros 257), .windowRead 16 0 4 {}, .windowRead 0 (2 ^ 32) 4 {}, .windowRead 0 0 4097 {},
      .windowRead 0 0 1 ⟨none, [(0, 0), (0, 1)]⟩,
      .windowWrite 16 0 [] [], .windowWrite 0 (2 ^ 32) [] [], .windowWrite 0 0 [1] [(136 * 2 ^ 20, 0)], .windowWrite 0 0 [1] [(0, 0), (0, 1)]].all (fun i => !i.wf) = true := by decide +kernel

theorem test_wf_refuses_more_numbers :
    [Instr.atsInvalidateRequest 32 0 0, .atsInvalidateRequest 0 (2 ^ 64) 0, .atsInvalidateRequest 0 0 (2 ^ 64 + 1),
      .hostReadCompletion 1024 .ok ⟨[], none⟩, .hostReadCompletion 0 .ok ⟨[], some (2 ^ 32)⟩, .hostReadTimeout 1024, .status 0 okMsg ⟨[], [], 0, false, false, 0⟩, .echo 0 okMsg 0 0 256,
      .ident 0 okMsg (okBoot 16), .echoTimeout 16, .laneLockLoss 16 0, .laneLockLoss 0 6, .setChannel 0 okMsg ⟨64, 1, 0, 0, 0, 0⟩,
      .setRail 0 okMsg 4 true, .setMclk 0 okMsg 4 0 0, .setTrim 0 okMsg 64 0, .islandBrownout 16, .railCurrentLimit 16 0 true,
      .railCurrentLimit 0 5 true, .overcurrent 16 0, .overcurrent 0 5, .pllSRelock 64, .groupRejoin 1 (okBoot 0), .groupRejoin 16 (okBoot 16),
      .pllCRelock 64 okEnv, .pllMRelock 64, .pllFLossOfLock 16, .announce 2 ⟨okHead, 0, 0, 0, 0, 0, 0, 0, none⟩, .sync 2 ⟨okHead, 0, false, 0, 0⟩,
      .followUp 2 ⟨okHead, 0, false, 0, 0⟩, .delayReq 2, .delayResp 2 ⟨okHead, 0, 0, 0, 0⟩, .domainLost 2, .arpRequest 2 0, .arpRequest 0 (2 ^ 32),
      .arpReply 0 (2 ^ 32) 0, .arpReply 0 0 (2 ^ 48), .arpReply 2 0 0, .arpRetry 2 0, .arpRetry 0 (2 ^ 32), .arpRefresh 2 0,
      .arpRefresh 0 (2 ^ 32), .icmpEchoRequest 2 0 [], .icmpEchoRequest 0 (2 ^ 16) [], .frameDiscard 2, .ethLinkDown 2, .ethLinkUp 2,
      .fence ⟨0x01, 0⟩ 0x12 0, .selfTestComplete ⟨0x01, 0⟩ true (some (okBoot 16)), .pwMeasurementUpdate ⟨[], [], 0, 0, 0, 0, false, [], [], []⟩,
      .smbusBlockRead 256, .trigInEdge 4 true 0, .zoneChange 1024 0 0 0, .zoneChange 0 0 0 256,
      .frameRelease ⟨[], [(136, 0)], [], []⟩, .frameRelease ⟨[], [(0, 2 ^ 20)], [], []⟩, .frameRelease ⟨[], [], [(524288, 0)], []⟩].all
        (fun i => !i.wf) = true := by decide +kernel

/-- A group beyond the last and a LEN of more than 16 bits, on every barrier message. -/
theorem test_wf_refuses_messages :
    [(16, okMsg), (0, longMsg)].all (fun x =>
      [Instr.samples x.1 x.2, .edges x.1 x.2, .stamps x.1 x.2, .status x.1 x.2 ⟨[0, 0, 0, 0], [0, 0, 0, 0], 0, false, false, 0⟩, .echo x.1 x.2 0 0 0,
        .cal x.1 x.2 okCal, .ident x.1 x.2 (okBoot 0), .idle x.1 x.2, .tick x.1 x.2, .setChannel x.1 x.2 ⟨0, 1, 0, 0, 0, 0⟩,
        .setRail x.1 x.2 0 true, .setMclk x.1 x.2 0 0 0, .setTrim x.1 x.2 0 0, .phaseStep x.1 x.2, .calStart x.1 x.2 true, .selfTest x.1 x.2,
        .islandOff x.1 x.2, .identReq x.1 x.2].all (fun i => !i.wf)) = true := by decide +kernel

theorem test_wf_accepts :
    [Instr.powerGood okEnv, .railBrownout 2, .groupPowerUp (okBoot 15), .fence ⟨0x0A, 16383⟩ 0x0A 0, .doorbellWrite 16383 .full 0,
      .positionToken 63, .zoneChange 1023 0 0 255, .windowRead 15 0 4096 {}].all Instr.wf = true := by decide +kernel

/-! ## Worked examples and tables of the specification -/

/-- CRC-32C of the digits 1 to 9, the check value of the polynomial that R135 and R225 name. -/
theorem test_crc32c_check_value : crc32c [0x31, 0x32, 0x33, 0x34, 0x35, 0x36, 0x37, 0x38, 0x39] = 0xE3069283#32 := by decide +kernel

/-- A ring as in the worked example of R359: 2,048 units, PROD 10,238, CONS 8,300. -/
def stalled : Ring := { enable := true, size := 2048, prod := 10238, cons := 8300, base := 0x10000, wb := 0x8000 }

/-- Worked example of R359: the credit is 110 units, a 96-byte envelope takes a PAD of 2 units and itself, PROD becomes 10,243. -/
theorem test_stalled_host_pad : stalled.credit = 110 ∧ padUnits stalled 96 = 2 ∧ stalled.fits 96 = true ∧
    stalled.prod + BitVec.ofNat 32 (padUnits stalled 96 + 96 / 32) = 10243 := by decide +kernel

/-- R17: the frame number wraps from 2^40 − 1 to 0. -/
theorem test_frame_number_wraps : frameNo (2 ^ 40 - 1) = BitVec.ofNat 40 (2 ^ 40 - 1) ∧ frameNo (2 ^ 40) = 0 := by decide +kernel

/-- R399: one pu before the wrap of TIME_RAW with a wrap count of 258, the postmark is 0x02FF_FFFF_FFFF_FFFF. -/
theorem test_postmark_fields : postmarkOf (258 * 2 ^ 56 + (2 ^ 56 - 1)) = 0x02FFFFFFFFFFFFFF := by decide +kernel

/-- R471: a window on GB5 with BASE at the last byte reaches byte 0 of GB6 at offset 1; on DB0, of 256 KiB, DB1. -/
theorem test_window_crosses_banks : winAddr { base := 1048575, bank := 5 } 1 = 6 * 2 ^ 20 ∧
    winAddr { base := 262143, bank := 128 } 1 = 129 * 2 ^ 20 := by decide +kernel

/-- Table 11-2: the kinds at the first and last ring number of each. -/
theorem test_ring_kinds : [0, 5631, 5632, 7679, 7680, 11775, 11776, 12031, 12032, 12287, 16383].map rkind =
    [1, 1, 2, 2, 3, 3, 4, 4, 5, 5, 7] := by decide +kernel

/-- No row of the table gives a bit, so no word spells a command. -/
theorem test_no_word_spells_a_command : decodeTableWord 0 0 = none ∧ decodeTableWord 512 0xFFFF = none := by decide +kernel

/-! ## States that meet the hypotheses of the statements -/

def folio : Folio :=
  { clocks := { plans := [{}, { plan := 1 }, { plan := 2, q := 2, n := 80 }] }
    time := { domains := [{ source := 2 }, {}], ports := [{ pmode := 1, ipv4 := 0x0A000001, prefixLen := 24, rateMbps := 1000 }, {}] }
    field := [{}]
    channels := [{ mode := 1, storage := 1, historyUs := 1000 }]
    seqs := [{ hostOpen := true }]
    records := [{ kind := 1, streams := [0] }, { rec_ := 1, kind := 3, streams := [0] }]
    delivery := { rings := [{ staging := 4096 }], streams := [{ destIp := 0x0A000002, srcUdp := 5, destUdp := 6 }]
                  subs := [{ source := 0x31000000, mask := 0xFF000000, types := 6, target := 0 }] }
    host := { permit := 0xFF, planMask := 7, groupMask := 1, winMask := 1 } }

/-- Group 0 at work: powered, with its lanes up and its rails on. -/
def fg0 : Group :=
  { state := .running, powered := true, pllLock := true, railsOn := true, mclkFrom := some 0
    applied := { chans := [(0, ⟨0, 1, 1800, 1700, 0, 0⟩)] } }

def frameSet (n : Nat) : FrameSet := ⟨n, BitVec.ofNat 40 n, n * 2000000, [], [], 0, [], [], [], [], [], .untraced, false, false, none, false, true⟩

/-- A module in RUNNING, 1 ms into frame 2 of 125 µs frames, with frame 0 ready for its release. -/
def run : State :=
  { State.reset with
    pins := { rails := [.ok, .ok, .ok], good := true, perstN := true }
    boot := { state := .running, folio := some folio }
    time := { raw := 5000000, tick0 := some 0, ticks := 3, frame := 2, tickAt := 4000000 }
    clocks := { pllS := { lock := true }, pllC := { lock := true }, pllM := { lock := true }, refPresent := true }
    field := { groups := [(0, fg0)] }
    frames := [frameSet 2, frameSet 1, frameSet 0]
    firstRun := some 0
    pcie := { linkUp := true, mse := true, bme := true }
    franking := {} }

/-- The same module in another state of Table 03-1. -/
def inState (m : ModState) : State := { run with boot := { run.boot with state := m } }

/-- A command entry: OPCODE, and the parameter bytes from offset 8. -/
def entry (op : Nat) (params : Bytes) : Bytes := padTo 64 (le 1 op ++ zeros 7 ++ params)

/-- A fetched command of ring 0 that has not started. -/
def cmdOf (e : Bytes) : Cmd := ⟨0, e, false⟩

/-- The module with one fetched command. -/
def fetched (e : Bytes) : State := { run with rings := { run.rings with cmds := [cmdOf e] } }

/-- An envelope of 32 bytes. -/
def env32 : Envelope := ⟨0x0B, 0, 0, 0, 0, [], 0⟩

/-- Delivery ring 0, enabled, with room for 64 units, and an item ready for it. -/
def ringWith (i : List Item) : Ring := { enable := true, declared := true, base := 0x10000, wb := 0x8000, size := 64, ready := i }

def delivering (i : List Item) : State := { run with rings := { run.rings with rings := [(7680, ringWith i)] } }

/-! ### Every step -/

theorem witness_StepRunsTheFrontCommand : ({ run with pending := [.nop] } : State).pending = .nop :: [] := by decide +kernel

theorem witness_IdleStepAdvancesRawTime : run.pending = [] ∧ State.reset.pending = [] := by decide +kernel

theorem witness_QueueKeptAndOutputsOnlyGrow : ∃ t, exec .nop run = .next t := ⟨_, rfl⟩

theorem witness_EveryStepKeepsStoresCanonical : run.memOk = true ∧ ∃ t, step run = .next t := ⟨by decide +kernel, _, rfl⟩

theorem witness_RawTimeNeverRunsBack : (∃ t, step run = .next t) ∧ ∀ c ∈ run.pending.head?, takesOff c = false :=
  ⟨⟨_, rfl⟩, fun c h => by rw [show run.pending.head? = none from rfl] at h; cases h⟩

theorem witness_FlashWrittenByFlashOperationsAlone : (∃ t, exec .nop run = .next t) ∧ takesOff .nop = false ∧
    ∀ ok, Instr.nop ≠ .flashOperationComplete ok := ⟨⟨_, rfl⟩, rfl, by intro ok h; cases h⟩

/-! ### Power, reset and supervision -/

theorem witness_ResetAndStartRows :
    (run.powered = true ∧ run.pins.modResetN = true) ∧
    ((inState .off).powered = false ∧ { (inState .off) with pins := {} }.railsOk = false ∧ (inState .off).power.thermalOff = false) ∧
    ({ (inState .off) with pins := { run.pins with modResetN := false } }.railsOk = true) ∧
    ({ (inState .off) with power := { thermalOff := true } }.railsOk = true) := by decide +kernel

theorem witness_SupplyAndSmbusRows :
    (run.powered = true ∧ run.auxUp = true ∧ 2 < 3 ∧ run.pins.rails.length = 3 ∧ run.pins.rails.getD 2 .off ∈ [RailState.ok, .high, .low]) ∧
    (run.measuring = true ∧ (1679 : Int) < 1680) ∧ smbusUp run = true ∧
    ({ run with power := { run.power with dieWarn := true } } : State).alertLow = true := by decide +kernel

theorem witness_SealAndLifetimeRows : run.powered = true ∧ run.page.sealOpen ≠ true ∧ run.page.sealOpen = false ∧
    run.franking.failing = 0 := by decide +kernel

/-! ### Binding and the way to RUNNING -/

/-- A bind that waits for REF_IN. -/
def waiting : State :=
  { (inState .bound) with boot := { state := .bound, wait := .refIn, folio := some folio }, clocks := { refUntil := some 100 } }

theorem witness_ReferenceRows :
    (run.powered = true ∧ run.boot.wait ≠ .refIn) ∧ (waiting.boot.state = .bound ∧ waiting.boot.wait = .refIn) ∧
    (run.clocks.refPresent = true ∧ run.clocks.refSel = false) ∧
    ({ run with clocks := { run.clocks with refSel := true } }.clocks.pllS.lock = true) ∧ waiting.clocks.refUntil = some 100 ∧ 100 < waiting.now ∧
    ({ waiting with clocks := {} } : State).clocks.refUntil = none := by
  decide +kernel

/-- A module of a chain of three that has not yet found its place. -/
def inChain (l : Option Bool) (pos : Nat) : State :=
  { (inState .bound) with
    boot := { state := .bound, wait := .arming, leader := l, folio := some { folio with install := some ⟨pos, 3, 0, 0⟩ } } }

/-- A follower whose ticks run, or have not begun. -/
def follower (t : Option Nat) : State := { (inChain (some false) 1) with time := { run.time with tick0 := t } }

theorem witness_ChainRows :
    (discovering (inChain none 0) = true ∧ (inChain none 0).boot.leader = none ∧ ((inChain none 0).cfg.install.getD {}).position = 0) ∧
    (discovering (inChain none 2) = true ∧ (inChain none 2).boot.leader ≠ some true ∧
      ((inChain none 2).cfg.install.getD {}).position = 1 + 1 ∧ 1 + 1 < ((inChain none 2).cfg.install.getD {}).chainLen) ∧
    (((inChain none 2).cfg.install.getD {}).position ≠ 0 + 1) ∧
    (discovering (inChain (some false) 1) = true ∧ (inChain (some false) 1).boot.leader ≠ some true) ∧
    ((follower none).isBound = true ∧ (follower none).cfg.install.isSome = true ∧ (follower none).boot.leader ≠ some true ∧
      (follower none).lockedInBind = true ∧ (follower none).time.tick0 = none ∧ 0 < (follower none).spacing) ∧
    (follower (some 0)).time.tick0 ≠ none := by decide +kernel

/-- A bind that waits for its power waves, with five groups. -/
def waves : State :=
  { (inState .bound) with
    boot := { state := .bound, wait := .waves, folio := some { folio with field := (List.range 5).map (fun g => { group := g }) } } }

/-- The same before its second and last wave. -/
def lastWave : State :=
  { waves with boot := { waves.boot with wavesDone := 1, cals := [0, 1, 2, 3].map (fun g => (g, (okBoot g).cal)) } }

/-- A module in ARMING whose settle time ends at tick 3. -/
def settled : State := { (inState .arming) with settleEnd := some 6000000 }

theorem witness_PowerWaveAndEntryRows :
    (waves.boot.state = .bound ∧ waves.boot.wait = .waves ∧ 0 = waves.boot.wavesDone ∧ waveGroups waves.cfg 0 ≠ [] ∧
      ([0, 1, 2, 3].map okBoot).map (·.group) = waveGroups waves.cfg 0 ∧ (∀ r ∈ [0, 1, 2, 3].map okBoot, waveFailure waves r = none) ∧
      4 * (0 + 1) < waves.cfg.groups.length) ∧
    (([({ okBoot 0 with firstTrain := false }), okBoot 1, okBoot 2, okBoot 3].map (·.group) = waveGroups waves.cfg 0) ∧
      waveFailure waves { okBoot 0 with firstTrain := false } = some 0x501) ∧
    (([okBoot 0] ++ { okBoot 1 with pllLocks := false } :: [okBoot 2, okBoot 3]).map (·.group) = waveGroups waves.cfg 0 ∧
      (∀ x ∈ [okBoot 0], waveFailure waves x = none) ∧ waveFailure waves { okBoot 1 with pllLocks := false } = some 0x504) ∧
    (lastWave.boot.state = .bound ∧ lastWave.boot.wait = .waves ∧ 1 = lastWave.boot.wavesDone ∧
      [okBoot 4].map (·.group) = waveGroups lastWave.cfg 1 ∧ (∀ r ∈ [okBoot 4], waveFailure lastWave r = none) ∧
      lastWave.cfg.groups.length ≤ 4 * (1 + 1) ∧
      (∀ e ∈ lastWave.boot.cals ++ [okBoot 4].map (fun r => (r.group, r.cal)), calOk lastWave e.1 e.2 = true)) ∧
    (waveFailure lastWave { okBoot 4 with cal := { (okBoot 4).cal with groupMean := 204801 } } = none ∧
      calOk lastWave 4 { (okBoot 4).cal with groupMean := 204801 } = false) ∧
    ((inChain (some true) 0).boot.state = .bound ∧ (inChain (some true) 0).boot.wait = .arming ∧ (inChain (some true) 0).ticking = true) ∧
    (settled.boot.state = .arming ∧ settled.ticking = true ∧ 0 < settled.spacing ∧ settled.settleEnd = some (settled.tickOf 3) ∧
      3 ≤ settled.time.ticks ∧ settled.curFrame ≤ 3) := by decide +kernel

/-! ### Time, frames and the release -/

theorem witness_RawTimeWraps : run.powered = true ∧
    ({ run with time := { tick0 := some (2 ^ 56) } } : State).ticking = true ∧
    (0 + 1) * 2 ^ 56 ≤ ({ run with time := { tick0 := some (2 ^ 56) } } : State).tickOf 0 := by decide +kernel

theorem witness_TickRowsOpenTheNextFrame : run.ticking = true ∧ run.powered = true ∧ run.time.frame ≠ BitVec.ofNat 40 (2 ^ 40 - 1) ∧
    ({ run with time := { run.time with frame := BitVec.ofNat 40 (2 ^ 40 - 1) } } : State).time.ticks ≠ 0 := by decide +kernel

theorem witness_CoastingEndAndMemoryRound :
    (({ run with time := { run.time with coastEnd := some 6000000, tl := .coasting } } : State).time.tl = .coasting ∧
      6000000 ≤ run.tickOf run.time.ticks) ∧
    (run.ticking = true ∧ 0 < run.time.ticks ∧ run.clocks.pllM.lock = true ∧ run.coreClock = true ∧ run.banks.rounds < 125 * run.cfg.module_.frame) := by
  decide +kernel

/-- The same module as its window closes with nothing found wrong. -/
def closing : State := windowFaults (advanceTo run (run.tickOf (run.released + 2) + delta)) run.released ⟨[], [], [], []⟩

theorem witness_ReleaseReleasesOneFrame : run.canRelease = true ∧ closing.frameAt? run.released = some (frameSet 0) ∧ (frameSet 0).field = true ∧
    closing.faults.pending = [] ∧ closing.faults.fences = [] ∧ closing.frameAt? (run.released + 1) = some (frameSet 1) ∧
    (frameSet 1).need = [] := by decide +kernel

/-- A SEQ_ARM command waits for frame 0, and sequencer 1 is in dead time until grid sample 0. -/
def window : State :=
  { run with
    boot := { run.boot with folio := some { folio with seqs := [{}, { seq := 1 }] } }
    seqCmds := [⟨0, entry 1 [], 1, 0, some 0⟩]
    seqs := [(1, { st := .dead })] }

theorem witness_WorkWindowRows : (window.canRelease = true ∧ (aheadSeqs window).isSome = true) ∧
    ((window.cfg.seq? 1).isSome = true ∧ window.ticking = true ∧ (window.seq 1).st = .dead ∧ (window.seq 1).dead.never = false ∧
      (window.seq 1).dead.rearm ≤ gridOf window window.released) := by decide +kernel

/-- TRIG_IN3 rose 20 pu before the end of frame 1. -/
def lateEdge : State := { run with field := { run.field with trig := [(3, { lvl := true, tail := [20] })] } }

theorem witness_FieldEdgeRows :
    (run.powered = true ∧ 3 < 4 ∧ (tget {} run.field.trig 3 : TrigIn).lvl ≠ true ∧ run.ticking = true ∧ 1999999 < run.spacing ∧
      (tget {} run.field.trig 3 : TrigIn).kept.getLast? = none ∧ (tget {} run.field.trig 3 : TrigIn).tail = []) ∧
    ((tget {} lateEdge.field.trig 3 : TrigIn).lvl ≠ false ∧ (tget {} lateEdge.field.trig 3 : TrigIn).tail = [20] ∧ 11 + 20 < 32) ∧
    (waiting.time.tick0 = some 0 ∧ ({ waiting with time := {} } : State).ticking = false) ∧
    ((run.group (0 / 64)).powered = true ∧ (run.tileSet 0).mode ≠ 0 ∧ (run.tileSet 0).thrHi = 1800 ∧ (run.tileChan 0).hi = false ∧
      -8000000 + 5000 * (1800 : Int) < 1000001 ∧ 511999999 < 256 * run.spacing ∧ (run.tileChan 0).raw.getLast? = none) := by decide +kernel

/-! ### Delivery into host rings -/

/-- A MEASURE envelope of record definition 0 is first on its ring. -/
def measuring : State := delivering [.measure 0 1 0 env32]

/-- What is staged for ring 7680 stands in the first 4 KiB of bank 12, whose first word is read with an error. -/
def staging : State :=
  let s := delivering [.staged env32]
  { s with
    boot := { run.boot with folio := some { folio with delivery := { folio.delivery with rings := [{ staging := 4096 }] } } }
    banks := { s.banks with role := [(12, (4, 0))] }, rings := { s.rings with staging := [(0, (7680, 4096, 0))] } }

theorem witness_EnvelopePlacedWhole : run.pcie.atsEn = false ∧
    ({ run with pcie := { run.pcie with atsEn := true } } : State).pcie.atsEn = true ∧
    cachedPage { run with pcie := { run.pcie with atsEn := true } } 0x1000 = none ∧
    cachedPage { run with pcie := { run.pcie with atsEn := true, ats := [(1, 7)] } } 0x1000 = some 7 := by decide +kernel

/-- A ring that may not be written, for Bus Master Enable is clear. -/
def masterOff (i : Item) : State := { (delivering [i]) with pcie := { run.pcie with bme := false } }

theorem witness_RingHeadRows :
    (ReadEnd.ok ≠ .translationError ∧ (delivering [.staged env32]).canWriteRing 7680 = true ∧
      ((delivering [.staged env32]).ring 7680).fits env32.length = true ∧ rkind 7680 = 3 ∧
      headItem (delivering [.staged env32]) 7680 = some (.staged env32)) ∧
    headItem (delivering [.completion env32]) 7680 = some (.completion env32) ∧
    (∃ s : State, headItem s dlRing = some (.staged env32) ∧ s.canWriteRing dlRing = true ∧ (s.ring dlRing).fits env32.length = true) ∧
    (∃ q, measuring.cfg.rec? 0 = some q ∧ recRing measuring.cfg q = some 0 ∧ 7680 = deliveryRing 0 ∧
      headItem measuring 7680 = some (.measure 0 1 0 env32)) ∧
    (rkind 12032 = 5 ∧ headItem run 12032 = none) ∧
    ((({ ringWith [] with size := 0 } : Ring).fits env32.length = false) ∧ run.ltrOn = false) ∧
    ((masterOff (.staged env32)).canWriteRing 7680 = false ∧ headItem (masterOff (.staged env32)) 7680 = some (.staged env32) ∧
      headItem (masterOff (.completion env32)) 7680 = some (.completion env32) ∧
      headItem (masterOff (.measure 0 1 0 env32)) 7680 = some (.measure 0 1 0 env32)) ∧
    ({ (delivering [.staged env32]) with pcie := { run.pcie with atsEn := true } } : State).canWriteRing 7680 = true ∧
    (stagedAt staging 12 8 = some (7680, env32) ∧ staging.canWriteRing 7680 = true ∧ headItem staging 7680 = some (.staged env32)) := by
  refine ⟨by decide +kernel, by decide +kernel, ⟨{ run with rings := { rings := [(16383, ringWith [.staged env32])] } }, by decide +kernel⟩,
    ⟨{ kind := 1, streams := [0] }, by decide +kernel⟩, by decide +kernel, by decide +kernel, by decide +kernel, by decide +kernel, by decide +kernel⟩

/-- History of channel 0 for frame 0. -/
def heldFrame0 : HistFrame := ⟨0, 0, 0, [0, 1], [0, 32], 0, 1, 0, false, 0, false, false⟩

/-- Run 1 of both record definitions over frame 0, with what is ready on their ring. -/
def recording (i : Item) : State :=
  { (delivering [i]) with
    released := 1
    recs := [(0, { no := 1, runs := [{ no := 1, lo := 0, hi := some 62500 }] }), (1, { no := 1, runs := [{ no := 1, lo := 0, hi := none }] })]
    hist := [(0, { stream := 0, size := 65536, bmax := 1, written := 1, frames := [heldFrame0] })] }

def rec0 : RecQ := { kind := 1, streams := [0] }

def rec1 : RecQ := { rec_ := 1, kind := 3, streams := [0] }

def run1 : Run := { no := 1, lo := 0, hi := some 62500 }

def span1 : Run := { no := 1, lo := 0, hi := none }

def readout0 : Readout := ⟨(0, entry 0x10 []), 0, 0, 0, 0, 0, 0⟩

/-- A QUALIFIED run of the TRANSITIONS kind has no block for a frame without entries. -/
def rec4 : RecQ := { rec_ := 1, kind := 4, streams := [1] }

theorem witness_HistoryRows :
    ((recording (.part 0 1 0 0 0)).canReadHistory = true ∧ (recording (.part 0 1 0 0 0)).canWriteRing (deliveryRing 0) = true ∧
      folio.rec? 0 = some rec0 ∧ recRing folio rec0 = some 0 ∧ folio.rec? 1 = some rec1 ∧ recRing folio rec1 = some 0 ∧
      ((recording (.part 0 1 0 0 0)).recd 0).run? 1 0 = some run1 ∧
      ((partEnvelope (recording (.part 0 1 0 0 0)) rec0 run1 0 0).map (fun e =>
        ((recording (.part 0 1 0 0 0)).ring (deliveryRing 0)).fits e.1.length)) = some true ∧
      partEnvelope { (recording (.part 0 1 0 0 0)) with hist := [] } rec0 run1 0 0 = none) ∧
    (run1.lost = false ∧ rec0.measure = false ∧
      ((recording (.commit 0 1 0)).ring (deliveryRing 0)).fits (commitEnvelope (recording (.commit 0 1 0)) rec0 run1).length = true) ∧
    (((recording (.stream 1 1 0 0)).recd 1).run? 1 0 = some span1 ∧
      (streamCut (recording (.stream 1 1 0 0)) rec1 span1 0 0).2.2.2 = false ∧
      streamBlocks (recording (.stream 1 1 0 0)) rec1 span1 0 (streamCut (recording (.stream 1 1 0 0)) rec1 span1 0 0) ≠ [] ∧
      ((recording (.stream 1 1 0 0)).ring (deliveryRing 0)).fits (streamEnvelope (recording (.stream 1 1 0 0)) rec1 span1 0 0
        (streamCut (recording (.stream 1 1 0 0)) rec1 span1 0 0) (streamBlocks (recording (.stream 1 1 0 0)) rec1 span1 0
          (streamCut (recording (.stream 1 1 0 0)) rec1 span1 0 0))).length = true) ∧
    (streamBlocks (recording (.stream 1 1 0 0)) rec4 span1 0 (0, 0, 0, false) = [] ∧
      streamLast (recording (.stream 1 1 0 0)) span1 (0, 0, 0, false) = false) ∧
    (headItem (recording (.readout readout0)) (deliveryRing 0) = some (.readout readout0) ∧ rkind (deliveryRing 0) = 3 ∧
      readout0.last ≤ readout0.next + 63 ∧ (recording (.readout readout0)).fenced 0x0F 0 = false ∧
      readoutFrames (recording (.readout readout0)) readout0 = [heldFrame0].map some ∧
      ((recording (.readout readout0)).ring (deliveryRing 0)).fits (readoutEnvelope (recording (.readout readout0)) readout0 [heldFrame0]).length = true ∧
      none ∈ readoutFrames (recording (.readout readout0)) { readout0 with last := 1 }) ∧ 34359738367 < dramBytes := by decide +kernel

theorem witness_NotificationRow :
    ∃ s : State, notifies 7680 = true ∧ (s.ring 7680).enable = false ∧ (s.ring 7680).isDue = true ∧ (s.ring 7680).mask = false :=
  ⟨{ run with rings := { rings := [(7680, { ringWith [] with enable := false, waiting := 1 })] } }, by decide +kernel⟩

/-! ### Commands of the command rings -/

theorem witness_RefusedCommandCompletes :
    commandRow (fetched (entry 0 [1])) (cmdOf (entry 0 [1])) .nop ∧ firstCheck (fetched (entry 0 [1])) (entry 0 [1]) = some 7 ∧
    commandRow (fetched (entry 1 [1])) (cmdOf (entry 1 [1])) .seqArm ∧ firstCheck (fetched (entry 1 [1])) (entry 1 [1]) = some 8 ∧
    commandRow (fetched (entry 0x70 [1])) (cmdOf (entry 0x70 [1])) .rebind ∧
    firstCheck (fetched (entry 0x70 [1])) (entry 0x70 [1]) = some 7 := by
  refine ⟨?_, by decide +kernel, ?_, by decide +kernel, ?_, by decide +kernel⟩ <;> (unfold commandRow startsNext; decide +kernel)

theorem witness_CompletionTouchesRingsAlone : (entry 0 []).length = 64 := by decide +kernel

/-- Command ring 0 holds one entry, and its completion ring is enabled. -/
def fetching : State :=
  { run with rings := { rings := [(11776, { enable := true, base := 0x10000, wb := 0x8000, size := 16, prod := 1 }),
    (12032, { enable := true, base := 0x20000, wb := 0x9000, size := 16 })] } }

theorem witness_CommandFetchRow : canFetch fetching 0 = true ∧ fetching.pcie.atsEn = false ∧
    knownOp (opOf (entry 0x70 [])) = true ∧ knownOp (opOf (entry 0x05 [])) = false ∧
    nextStart [] [cmdOf (entry 0x05 []), cmdOf (entry 0 [])] = some (cmdOf (entry 0x05 [])) ∧
    canFetch { fetching with rings := { fetching.rings with cmds := [cmdOf (entry 0 [])] } } 0 = true ∧ canFetch { fetching with pcie := { run.pcie with atsEn := true } } 0 = true ∧
    cachedPage { fetching with pcie := { run.pcie with atsEn := true } } 0x10000 = none := by decide +kernel

theorem witness_WaitingCommandRows :
    (startsNext (fetched (entry 0 [])) 0x00 (cmdOf (entry 0 [])) ∧ firstCheck (fetched (entry 0 [])) (entry 0 []) = none) ∧
    (startsNext (fetched (entry 3 [])) 0x03 (cmdOf (entry 3 [])) ∧ firstCheck (fetched (entry 3 [])) (entry 3 []) = none) ∧
    (startsNext (fetched (entry 0x41 [2])) 0x41 (cmdOf (entry 0x41 [2])) ∧
      firstCheck (fetched (entry 0x41 [2])) (entry 0x41 [2]) = none) := by unfold startsNext; decide +kernel

/-- Bank 10 is in the host pool. -/
def pooled : State := { (fetched (entry 0x50 [10, 0, 0x1F, 0])) with banks := { pool := [10] } }

theorem witness_BankOwnerRows :
    (pooled.barOpen = true ∧ pooled.isBound = true ∧ pooled.banks.pool.contains 10 = true ∧ pooled.fenced 0x06 10 = false ∧
      pooled.banks.zeroing = false) ∧ pooled.banks.pool.contains 11 = false ∧ ¬(0x20 = 1 ∨ 0x10 ≤ 0x20 ∧ 0x20 ≤ 0x1F) ∧
    (startsNext pooled 0x50 (cmdOf (entry 0x50 [10, 0, 0x1F, 0])) ∧ firstCheck pooled (entry 0x50 [10, 0, 0x1F, 0]) = none ∧
      fld (entry 0x50 [10, 0, 0x1F, 0]) 8 1 = 10 ∧ fld (entry 0x50 [10, 0, 0x1F, 0]) 10 2 = 0x1F) := by unfold startsNext; decide +kernel

/-- SPAN_READ of `n` frames of channel 0 from frame 0 into ring 0. -/
def spanEntry (n : Nat) : Bytes := entry 0x10 (zeros 16 ++ le 4 n)

/-- The same module with one frame of history. -/
def spanning (n : Nat) : State :=
  { (recording (.staged env32)) with rings := { (recording (.staged env32)).rings with cmds := [cmdOf (spanEntry n)] } }

theorem witness_RingAndReadCommandRows :
    (startsNext (fetched (entry 0x51 (le 2 7680))) 0x51 (cmdOf (entry 0x51 (le 2 7680))) ∧
      firstCheck (fetched (entry 0x51 (le 2 7680))) (entry 0x51 (le 2 7680)) = none) ∧
    (startsNext (spanning 0) 0x10 (cmdOf (spanEntry 0)) ∧ firstCheck (spanning 0) (spanEntry 0) = none) ∧
    (startsNext (spanning 2) 0x10 (cmdOf (spanEntry 2)) ∧ firstCheck (spanning 2) (spanEntry 2) = none ∧ spanFrames (spanning 2) 0 0 2 = none) ∧
    (firstCheck (spanning 1) (spanEntry 1) = none ∧ spanFrames (spanning 1) 0 0 1 = some (0, 0)) ∧
    (startsNext (fetched (entry 0x30 [7])) 0x30 (cmdOf (entry 0x30 [7])) ∧ firstCheck (fetched (entry 0x30 [7])) (entry 0x30 [7]) = none ∧
      (fetched (entry 0x30 [7])).canIssue = true) ∧
    (firstCheck (fetched (entry 0x30 ([4] ++ zeros 3 ++ le 4 65536))) (entry 0x30 ([4] ++ zeros 3 ++ le 4 65536)) = none) := by
  unfold startsNext; decide +kernel

/-- PLAN_SWITCH to plan `p` under a PLAN_MASK. -/
def switching (p : Byte) (mask : Nat) : State :=
  { (fetched (entry 0x40 [p])) with boot := { run.boot with folio := some { folio with host := { folio.host with planMask := mask } } } }

/-- The same to plan 0, which is in force, while a switch to plan 1 waits for the tick after the next. -/
def switchingBack : State :=
  let s := switching 0 7
  { s with clocks := { s.clocks with pending := [(1, s.time.ticks + 1, 0, entry 0x40 [1])] } }

theorem witness_PlanSwitchRows :
    (startsNext (switching 1 1) 0x40 (cmdOf (entry 0x40 [1])) ∧ firstCheck (switching 1 1) (entry 0x40 [1]) = none ∧
      ((switching 1 1).cfg.plan? 1).isSome = true ∧ bit (switching 1 1).cfg.host.planMask 1 = false) ∧
    (bit (switching 0 7).cfg.host.planMask 0 = true ∧ planAt (switching 0 7) ((switching 0 7).time.ticks + 1) = 0 ∧ 0 = (switching 0 7).clocks.plan) ∧
    (startsNext switchingBack 0x40 (cmdOf (entry 0x40 [0])) ∧ firstCheck switchingBack (entry 0x40 [0]) = none ∧
      0 = switchingBack.clocks.plan ∧ planAt switchingBack (switchingBack.time.ticks + 1) ≠ 0 ∧
      (switchingBack.cfg.plan? 0).map (·.conf) = some switchingBack.planNow.conf ∧ switchingBack.clocks.pllS.lock = true ∧
      switchingBack.clocks.pllC.lock = true) ∧
    (firstCheck (switching 1 7) (entry 0x40 [1]) = none ∧ ((switching 1 7).cfg.plan? 1).map (·.conf) = some (switching 1 7).planNow.conf) ∧
    (firstCheck (switching 2 7) (entry 0x40 [2]) = none ∧ ((switching 2 7).cfg.plan? 2).map (·.conf) ≠ some (switching 2 7).planNow.conf) ∧
    (({ run.clocks.pllS with lock := false } : Pll).lock && run.clocks.pllC.lock) = false ∧
    (({ run with clocks := { run.clocks with pending := [(1, 3, 0, entry 0x40 [1])] } } : State).ticking = true ∧ 3 ≤ run.time.ticks) := by
  unfold startsNext; decide +kernel

/-- GROUP_POWER of group 0 with ON at `on`, the group being as given. -/
def powering (on : Byte) (g : Group) : State :=
  { (fetched (entry 0x60 [0, on])) with field := { groups := [(0, g)] } }

theorem witness_GroupPowerRows :
    (startsNext (powering 0 fg0) 0x60 (cmdOf (entry 0x60 [0, 0])) ∧ firstCheck (powering 0 fg0) (entry 0x60 [0, 0]) = none ∧
      fld (entry 0x60 [0, 0]) 9 1 = 0 ∧ bit (powering 0 fg0).cfg.host.groupMask 0 = true ∧ ((powering 0 fg0).group 0).powerCmd = none ∧
      (powering 0 fg0).fenced 0x01 0 = false ∧ ((powering 0 fg0).group 0).state ≠ .down) ∧
    (firstCheck { (powering 0 fg0) with boot := { run.boot with folio := some { folio with host := { permit := 0xFF } } } }
        (entry 0x60 [0, 0]) = none) ∧
    ((({ fg0 with powerCmd := some (0, []) } : Group).powerCmd).isSome = true) ∧
    (({ run with faults := { fences := [(0x01000000, {})] } } : State).fenced 0x01 0 = true) ∧
    (firstCheck (powering 1 {}) (entry 0x60 [0, 1]) = none ∧ fld (entry 0x60 [0, 1]) 9 1 = 1 ∧ 0 = (okBoot 0).group ∧
      bootFailure (powering 1 { state := .down }) (okBoot 0) = none ∧
      bootFailure (powering 1 { state := .down }) { okBoot 0 with pllLocks := false } = some (0x504, 0x07)) ∧
    (∃ s : State, (s.group 0).downAt = some 2 ∧ 2 < s.time.ticks ∧ groupOwes s 0 = false) ∧
    (∃ s : State, (s.group 0).powerCmd = some (0, []) ∧ (s.group 0).downAt = none ∧ (s.group 0).dataFrom = some 3 ∧ s.ticking = true ∧
      3 ≤ s.time.ticks) := by
  refine ⟨by unfold startsNext; decide +kernel, by decide +kernel, by decide +kernel, by decide +kernel, by decide +kernel,
    ⟨{ run with field := { groups := [(0, { fg0 with downAt := some 2 })] } }, by decide +kernel⟩,
    ⟨{ run with field := { groups := [(0, { fg0 with powerCmd := some (0, []), dataFrom := some 3 })] } }, by decide +kernel⟩⟩

/-- A job command of `n` bytes, frames or envelope bytes of a source, and the module with or without lane 0 in service. -/
def jobEntry (op n : Nat) (kind : Byte := 0) : Bytes := entry op ([kind] ++ zeros 7 ++ zeros 8 ++ le 4 n)

def jobState (op n : Nat) (b : Tbl Nat) (kind : Byte := 0) : State :=
  { (recording (.staged env32)) with
    jobs := { bank := b }
    rings := { rings := [(7680, ringWith [.staged env32])], cmds := [cmdOf (jobEntry op n kind)], staging := [(0, (7680, 4096, 0))] } }

/-- A job of one host byte whose block is as given. -/
def job0 (b : Block) : Job := ⟨0, (0, entry 0x20 []), false, false, false, 0, 0, 0, 0, 1, 0, 65536, 0x400, [(0, [7])], [], [], none, [b], 0⟩

def blockAt (st : BlockSt) (l : Option Nat) : Block := ⟨0, l, st, 1, []⟩

def working (b : Block) : State := { run with jobs := { bank := [(0, 20)], jobs := [job0 b] } }

/-- A job whose history source is gone. -/
def oldJob : Job := { job0 (blockAt .running (some 0)) with kind := 1, spans := [(0, 0, 24)] }

theorem witness_JobRows :
    (startsNext (jobState 0x20 0 []) 0x20 (cmdOf (jobEntry 0x20 0)) ∧ (jobState 0x20 0 []).canIssue = true ∧
      firstCheck (jobState 0x20 0 []) (jobEntry 0x20 0) = none ∧ fld (jobEntry 0x20 0) 8 1 = 0 ∧ fld (jobEntry 0x20 0) 24 4 = 0) ∧
    (firstCheck (jobState 0x21 1 []) (jobEntry 0x21 1) = none ∧ fld (jobEntry 0x21 1) 24 4 ≠ 0 ∧ anyLane (jobState 0x21 1 []) = false) ∧
    anyLane (jobState 0x21 1 [(0, 20)]) = true ∧
    (firstCheck (jobState 0x20 1 [] 1) (jobEntry 0x20 1 1) = none ∧ fld (jobEntry 0x20 1 1) 8 1 = 1 ∧
      spanFrames (jobState 0x20 1 [] 1) 0 0 1 = some (0, 0) ∧ spanFrames (jobState 0x20 2 [] 1) 0 0 2 = none) ∧
    (firstCheck (jobState 0x20 64 [] 2) (jobEntry 0x20 64 2) = none ∧ fld (jobEntry 0x20 64 2) 8 1 = 2 ∧
      tget? (jobState 0x20 64 [] 2).rings.staging 0 = some (7680, 4096, 0) ∧
      (takeStaged (stagedFor (jobState 0x20 64 [] 2) 7680) 31 (jobState 0x20 64 [] 2)).1 = []) ∧
    (run.coreClock = true ∧ run.fenced 0x0F 0 = false ∧ anyLane (working (blockAt .waiting none)) = true ∧
      firstWaiting (working (blockAt .waiting none)) = some (job0 (blockAt .waiting none), blockAt .waiting none) ∧
      idleLane (working (blockAt .waiting none)) = some 0) ∧
    ((working (blockAt .running (some 0))).jobs.jobs.findSome? (fun j =>
        (j.blocks.find? (fun b => b.lane = some 0 && b.st == BlockSt.running)).map (fun b => (j, b))) =
        some (job0 (blockAt .running (some 0)), blockAt .running (some 0)) ∧
      inputHere (working (blockAt .running (some 0))) (job0 (blockAt .running (some 0))) (blockAt .running (some 0)) = true ∧
      isLowest (job0 (blockAt .running (some 0))) (blockAt .running (some 0)) = true ∧
      sourceHeld (working (blockAt .running (some 0))) (job0 (blockAt .running (some 0))) (blockAt .running (some 0)) = true ∧
      servedBad (working (blockAt .running (some 0))) (job0 (blockAt .running (some 0))) = false ∧
      (working (blockAt .running (some 0))).canIssue = true ∧ (job0 (blockAt .running (some 0))).kind ≠ 1 ∧
      servedBad { (working (blockAt .running (some 0))) with faults := { pending := [⟨⟨0x09, 0⟩, 0x0F, 0, 0, 0, 0⟩] } } (job0 (blockAt .running (some 0))) = true) ∧
    (sourceHeld run oldJob (blockAt .running (some 0)) = false ∧ run.canReadHistory = true) ∧
    (∃ o, codeBlock (job0 (blockAt .running (some 0))) (blockAt .running (some 0)) = .ok o) ∧
    (∃ st, codeBlock { job0 (blockAt .running (some 0)) with inflate := true } (blockAt .running (some 0)) = .error st) ∧
    (∃ r, tget? ({ run with pcie := { run.pcie with reads := [(5, ⟨0, 0, 1, 0, false⟩)] } } : State).pcie.reads 5 = some r ∧ r.dead = false) ∧
    (tget? run.pcie.reads 5 = none ∧ 5 ∉ run.pcie.retired ∧ run.pcie.linkUp = true ∧ 5 ∈ ({ run.pcie with retired := [5] } : Pcie).retired) := by
  refine ⟨by unfold startsNext; decide +kernel, by decide +kernel, by decide +kernel, by decide +kernel, by decide +kernel, by decide +kernel,
    by decide +kernel, by decide +kernel, ⟨_, rfl⟩, ⟨4, rfl⟩, ⟨⟨0, 0, 1, 0, false⟩, by decide +kernel⟩, by decide +kernel⟩

/-! ### REBIND and the flash -/

/-- What a REBIND finds: a copy with the sealed hash given. -/
def choiceOf (h : Bytes) : Choice := { found := some (.a, [], { sealedHash := h }), errA := 0, errB := 0 }

theorem witness_RebindRows :
    (startsNext (fetched (entry 0x70 [])) 0x70 (cmdOf (entry 0x70 [])) ∧ judge run (entry 0x70 []) [] true true true = none ∧
      (fetched (entry 0x70 [])).boot.state = .running ∧ (fetched (entry 0x70 [])).boot.phase = .none) ∧
    ((inState .unbound).boot.state ≠ .running ∧ (inState .unbound).boot.state ≠ .arming) ∧
    ((inState .unbound).barOpen = true ∧ (inState .unbound).boot.state = .unbound ∧ (inState .unbound).boot.phase = .none) ∧
    (({ run with boot := { run.boot with phase := .reading } } : State).boot.phase = .reading ∧ run.flashWriting = false) ∧
    (choiceOf [1]).found.isSome = true ∧ referenceHash run ≠ some [1] ∧ run.boot.sealSample = false ∧ referenceHash run = some [] ∧
    (({ run with boot := { run.boot with phase := .accepted } } : State).boot.phase = .accepted ∧ run.ticking = true) ∧
    (({ run with boot := { run.boot with phase := .draining, held := some (.a, []) } } : State).boot.held = some (.a, [])) := by
  unfold startsNext; decide +kernel

/-- The flash registers with an operation in progress. -/
def flashing (op addr : Nat) : State :=
  { run with flashRegs := { busy := some ⟨op, 16, addr, zeros 256, false, false⟩ } }

theorem witness_FlashGoRows :
    (511 < 512 ∧ run.barOpen = true ∧ run.flashRegs.busy = none ∧ run.boot.phase ≠ .reading) ∧
    (flashJudge run ⟨1, 16, 0, run.flashRegs.data, false, false⟩ = none) ∧
    (flashJudge run ⟨1, 511, 0, run.flashRegs.data, true, false⟩).isSome = true ∧ (flashing 1 0).flashRegs.busy.isSome = true := by decide +kernel

theorem witness_FlashOperationEnds : run.memOk = true ∧ run.flash.sizeMbit ≠ 0 ∧ run.boot.phase ≠ .reading ∧
    (FlashOp.mk 3 16 4096 (zeros 256) false false).addr % (FlashOp.mk 3 16 4096 (zeros 256) false false).span.2 = 0 ∧
    (flashing 3 4096).flashRegs.busy = some ⟨3, 16, 4096, zeros 256, false, false⟩ := by decide +kernel

/-! ### The host's accesses -/

/-- Delivery ring 0 between two indices. -/
def between (c p : Word32) : Ring := { ringWith [] with cons := c, prod := p }

theorem witness_DoorbellRow :
    ((delivering []).barOpen = true ∧ (delivering []).isBound = true ∧ isHostRing 7680 = true ∧ ringKind (delivering []) 7680 ≠ 0 ∧
      ringKind run 11776 ≠ 0 ∧ rkind 11776 = 4 ∧ rkind 7680 ≠ 4 ∧ isHostRing 7679 = false ∧ isHostRing 16383 = true ∧
      isHostRing 7681 = true ∧ ringKind (delivering []) 7681 = 0) ∧
    (((6 : Word32) - (between 5 9).cons).toInt ≥ 0 ∧ ((between 5 9).prod - (9 : Word32)).toInt ≥ 0 ∧
      ((between 5 9).prod - (10 : Word32)).toInt < 0 ∧ ((4 : Word32) - (between 5 9).cons).toInt < 0) ∧
    (((between 0 0).size : Int) < ((65 : Word32) - (between 0 0).cons).toInt ∧ ((64 : Word32) - (between 0 0).cons).toInt ≤ 64) := by
  decide +kernel

/-- Delivery ring 0 before it is enabled. -/
def disabled (size : Nat) : Ring := { ringWith [] with enable := false, size := size }

theorem witness_RingControlRows :
    ((disabled 128).enable = false ∧ bit (BitVec.ofNat 32 (2 ^ 31)).toNat 31 = true ∧ rkind 7680 ≠ 5 ∧ (disabled 128).base % 4096 = 0 ∧
      (disabled 128).wb % 8 = 0 ∧ (disabled 128).wb ≠ 0 ∧ ringSizeOk 7680 (disabled 128).size = true ∧ run.fenced 0x0A 7680 = false) ∧
    ringSizeOk 7680 (disabled 127).size = false ∧ rkind 12032 = 5 ∧ bit (0 : Word32).toNat 31 = false := by decide +kernel

theorem witness_RegisterAccessRows : run.barOpen = true ∧ run.isBound = true ∧ 8193 % 8192 = 1 ∧ 63 < 64 ∧ run.pcie.linkUp = true ∧
    bit 0x70000000 31 = false ∧ isHostRing 16383 = true ∧ ringKind run 16383 ≠ 0 ∧ (run.ring 16383).enable = false ∧ rkind 16383 ≠ 3 ∧
    (delivering []).isBound = true ∧ ringKind (delivering []) 7680 ≠ 0 ∧ rkind 7680 = 3 ∧ ((delivering []).ring 7680).enable = true ∧
    (zeros 4).length = 4 ∧ 0xFFFFFC % 4 = 0 ∧ 0xFFFFFC < 0x1000000 ∧ (zeros 8).length = 8 ∧ run.shown = none ∧
    ({ run with shown := some [] } : State).shown = some [] := by decide +kernel

/-- Window 0 over GB127, which it owns or not. -/
def windowed (en write : Bool) (o : Nat) : State :=
  { run with
    banks := { owner := [(127, o)] }
    pcie := { run.pcie with wins := [(0, { active := { limit := 255, bank := 127, write := write, en := en } })] } }

/-- Window 0 over the last byte of dual-port bank 128, whose port A it owns. -/
def dualWindow : State :=
  { run with
    banks := { owner := [(128, 0x10)] }
    pcie := { run.pcie with wins := [(0, { active := { limit := 255, bank := 128, base := 262143, write := true, en := true } })] } }

theorem witness_WindowAccessRows : (windowed true true 0x10).barOpen = true ∧ (windowed true true 0x10).memOk = true ∧
    winJudge (windowed true true 0x10) 0 248 8 false = .accept ∧ winJudge (windowed true true 0x10) 0 0 (zeros 256).length true = .accept ∧
    (dualWindow.barOpen = true ∧ dualWindow.memOk = true ∧ 128 * 2 ^ 20 + 262143 = winAddr (dualWindow.win 0).active 0 ∧
      winJudge dualWindow 0 0 1 true = .accept ∧ isDual (128 * 2 ^ 20 + 262143) = true ∧ (1 : Byte) ≠ 0) := by
  decide +kernel

/-- A write that meets another value at two bytes of one 16-byte row and one of the next: two collisions, the first byte latched (R333, R334). -/
theorem test_collisions_by_cycle :
    let s := modWin dualWindow 0 (fun w => { w with active := { w.active with base := 14 } })
    let t := winPut s 0 0 [1, 1, 1] [(128 * 2 ^ 20 + 14, 0), (128 * 2 ^ 20 + 15, 0), (128 * 2 ^ 20 + 16, 7)]
    tget 0 t.banks.coll 0 = 2 ∧ tget? t.banks.collAddr 0 = some 14 ∧ mget 0 t.banks.mem (128 * 2 ^ 20 + 16) = 1 := by decide +kernel

theorem witness_WindowRefusals :
    ((windowed false true 0x10).win 0).active.en = false ∧ ((windowed true false 0x10).win 0).active.write = false ∧
    ((windowed true true 0x10).win 0).active.limit < 249 + 8 - 1 ∧
    (127 ∈ winBanks ((windowed true true 1).win 0).active 0 4 ∧ tget 0 (windowed true true 1).banks.owner 127 ≠ 0x010 + 0) ∧
    (127 < winAddr { bank := 127, base := 1048575 } 1 / 2 ^ 20 ∧ 135 < winAddr { bank := 135, base := 262143 } 1 / 2 ^ 20) ∧
    winJudge (windowed true true 1) 0 0 4 true ≠ .accept ∧ winJudge (windowed true true 1) 0 0 4 false ≠ .accept ∧ winJudge (windowed true false 0x10) 0 0 (zeros 4).length true ≠ .accept := by
  decide +kernel

/-- Window 0 with the shadow given. -/
def shadowed (w : WinSet) : State := { run with pcie := { run.pcie with wins := [(0, { shadow := w })] } }

theorem witness_WindowCommitRow :
    (bit run.cfg.host.winMask 15 = false) ∧
    (bit (shadowed { bank := 135, base := 262143 }).cfg.host.winMask 0 = true ∧
      ((shadowed { bank := 135, base := 262143 }).win 0).shadow.bank ≤ 135 ∧
      ((shadowed { bank := 135, base := 262143 }).win 0).shadow.base < 262144) ∧
    135 < ((shadowed { bank := 136 }).win 0).shadow.bank ∧ 1048576 ≤ ((shadowed { base := 1048576 }).win 0).shadow.base := by decide +kernel

/-! ### The endpoint -/

theorem witness_EndpointResetRows : run.powered = true ∧ run.pins.perstN = true ∧ run.pcie.linkUp = true ∧
    run.boot.folio = some folio ∧ (tget? (delivering [.staged env32]).rings.rings 7680).isSome = true ∧ rkind 7680 = 3 ∧
    (run.cfg.ring? (7680 - 7680)).isSome = true ∧ rkind 11776 ≠ 3 ∧ (working (blockAt .waiting none)).jobs.jobs ≠ [] ∧
    ({ run with pcie := { run.pcie with intx := [5] } } : State).intaOn = true := by decide +kernel

theorem witness_HostEpochRows : ({ run with pins := { run.pins with perstN := false } } : State).powered = true ∧ run.memOk = true ∧
    ({ run with banks := { pool := [10], zeroing := true } } : State).banks.zeroing = true ∧ run.pcie.linkUp = true := by decide +kernel

theorem witness_MasterAndPowerStateRows : run.pcie.linkUp = true ∧ run.pcie.bme = true ∧ run.pcie.d3 = false ∧
    ({ run with pcie := { linkUp := true, d3 := true } } : State).pcie.bme = false ∧
    ({ run with pcie := { linkUp := true, d3 := true } } : State).pcie.d3 = true := by decide +kernel

/-- MSI-X is on and vector 2,047 waits in the PBA; address translation is on, with one Invalidate Request served. -/
def messaging : State :=
  { run with pcie := { run.pcie with msixEn := true, pba := [2047], atsEn := true, invals := [⟨0, 0, 4096, []⟩] } }

theorem witness_EndpointMessageRows : messaging.barOpen = true ∧ 2047 < 2048 ∧ messaging.pcie.msixEn = true ∧
    messaging.pcie.msixFnMask = false ∧ messaging.canSignal = true ∧ messaging.pcie.pba = [2047] ∧ messaging.ltrOn = false ∧
    ({ run with pcie := { linkUp := true } } : State).barOpen = false ∧ messaging.pcie.atsEn = true ∧ messaging.pcie.invals.length < 32 ∧
    messaging.pcie.invals = ⟨0, 0, 4096, []⟩ :: [] ∧ bit ({ run.pcie with aerCtl := 0x100 } : Pcie).aerCtl 8 = true ∧
    ({ run with pcie := { run.pcie with intx := [5] } } : State).intaOn = true ∧ run.pcie.pba = [] ∧
    (masterOff (.staged env32)).canSignal = false := by decide +kernel

/-! ### The barrier -/

/-- Group 0 on its way back. -/
def rejoining : State := { run with field := { groups := [(0, { fg0 with pllLock := false, state := .powering })] } }

/-- A message with its CRC as sent. -/
def msgOf (t q : Byte) (p : Bytes) : Msg := ⟨t, q, p.length, p, msgCrc t q p⟩

/-- Group 0 with a calibration in a phase, or a self-test, under way. -/
def calibrating (k : Nat) : State := { run with field := { groups := [(0, { fg0 with state := .settling, calPhase := k, testBusy := true })] } }

theorem witness_BarrierMessageRows :
    (takenForward run 0 0x01 (msgOf 0x01 0 []) ∧ takenForward run 0 0x02 (msgOf 0x02 0 []) ∧ takenForward run 0 0x03 (msgOf 0x03 0 []) ∧
      takenForward run 0 0x04 (msgOf 0x04 0 []) ∧ takenForward run 0 0x05 (msgOf 0x05 0 []) ∧ takenForward run 0 0x08 (msgOf 0x08 0 [])) ∧
    (takenForward (calibrating 5) 0 0x06 (msgOf 0x06 0 []) ∧ ((calibrating 1).group 0).calPhase = 1 ∧ ((calibrating 3).group 0).calPhase = 3 ∧
      ((calibrating 5).group 0).calPhase = 5 ∧ (run.group 0).calPhase ∉ [1, 3, 5] ∧ calAllowed (afterForward (calibrating 5) 0) 0 = true ∧
      takenForward run 0 0x06 (msgOf 0x06 0 []) ∧ calAllowed (afterForward run 0) 0 = false) ∧
    (takenForward run 0 0x07 (msgOf 0x07 0 []) ∧ (okBoot 0).group = 0 ∧ identOk run (okBoot 0) = true ∧ (run.group 0).testBusy = false ∧
      identOk run { okBoot 0 with identity := [1] } = false ∧ ((calibrating 0).group 0).testBusy = true ∧
      selfTestOk (calibrating 0) { okBoot 0 with fuseOpen := true } = false) ∧
    (run.laneUp 0 = true ∧ (∀ n ∈ [1, 2, 3, 4, 5, 6, 7, 8],
        judgeMsg forwardType n (run.group 0).fwdSeq { msgOf (BitVec.ofNat 8 n) 0 [] with crc := 0 } = .crc ∧
        judgeMsg forwardType n (run.group 0).fwdSeq (msgOf (BitVec.ofNat 8 n) 1 []) = .framing) ∧
      judgeMsg forwardType 0x08 (run.group 0).fwdSeq (msgOf 0x09 0 []) = .framing ∧
      judgeMsg forwardType 0x08 (run.group 0).fwdSeq { msgOf 0x08 0 [] with len := 4097 } = .framing) := by
  unfold takenForward; decide +kernel

theorem witness_ReverseMessageRows :
    (List.range 10).all (fun k => run.laneUp 0 &&
      judgeMsg reverseType (0x81 + k) (run.group 0).tileSeq (msgOf (BitVec.ofNat 8 (0x81 + k)) 0 []) == .good) = true ∧ 63 < 64 ∧ 3 < 4 ∧
    (run.group 0).state = .running ∧ (rejoining.group 0).state ≠ .running := by
  decide +kernel

/-- Group 0 with a message unechoed and rail 4, the group as a whole, in current limit since an instant. -/
def limited (a : Nat) (f : Bool) : State :=
  { run with field := { groups := [(0, { fg0 with unechoed := [(0x81, 0, 0)], railLimit := [none, none, none, none, some (a, f)] })] } }

theorem witness_GroupFaultRows : (limited 0 false).laneUp 0 = true ∧ ((limited 0 false).group 0).unechoed = (0x81, 0, 0) :: [] ∧
    ((limited 0 false).group 0).powered = true ∧ ((limited 0 false).group 0).railsOn = true ∧
    ((limited 0 false).group 0).railLimit.getD 0 none = none ∧
    (((limited 3400001 false).group 0).railLimit.getD 4 none = some (3400001, false) ∧ (limited 3400001 false).now - 3400001 < 1600000) ∧
    (((limited 3400000 true).group 0).railLimit.getD 4 none = some (3400000, true) ∧ 1600000 ≤ (limited 3400000 true).now - 3400000) ∧
    ((limited 4400000 false).ticking = true ∧ 4400000 + 1600000 ≤ (limited 4400000 false).tickOf (limited 4400000 false).time.ticks) := by
  decide +kernel

/-! ### Clocks -/

theorem witness_LockLossRows : run.powered = true ∧ run.clocks.pllS.lock = true ∧ run.clocks.pllC.lock = true ∧ run.clocks.pllM.lock = true ∧
    run.boot.state = .running ∧ (run.group 0).powered = true ∧ (run.group 0).pllLock = true ∧ run.clocks.oscFail = false ∧ run.clocks.refSel = false := by decide +kernel

/-- FAULT_HOLD with no synthesiser locked. -/
def held : State := { (inState .faultHold) with clocks := { refPresent := true } }

/-- FAULT_HOLD whose clocks have come back. -/
def relocked (m : ModState) : State :=
  { (inState .faultHold) with boot := { run.boot with state := .faultHold, resume := some m } }

theorem witness_RelockRows :
    (held.boot.state = .faultHold ∧ held.clocks.pllS.lock = false ∧
      (if held.clocks.refSel then held.clocks.refPresent = true else held.clocks.oscFail = false)) ∧
    ((inState .unbound).boot.state = .unbound ∧ { held with clocks := { sConf := [1] } }.clocks.sConf ≠ [] ∧
      { held with clocks := { sConf := [1] } }.clocks.oscFail = false) ∧
    (run.boot.state ∉ [ModState.faultHold, .unbound] ∧ run.clocks.pllS.lock = true ∧ State.reset.clocks.sConf = []) ∧
    (held.powered = true ∧ held.clocks.pllC.lock = false) ∧
    (({ run with clocks := {} } : State).boot.state ≠ .faultHold ∧ ({ run with clocks := {} } : State).boot.state ≠ .boot ∧
      (({ run with boot := { state := .boot, step := 5 } } : State).boot.phase = .none)) ∧
    (held.clocks.pllM.lock = false ∧ (inState .bound).past = false ∧ held.past = true) := by decide +kernel

/-- A module in pulse mode, before and after its first SYNC_IN edge. -/

def pulsed (t : Option Nat) : State :=
  { run with
    boot := { run.boot with folio := some { folio with clocks := { plans := [{ outs := [{ div := 16, syncEn := true }] }], syncPulse := true } } }
    clocks := { run.clocks with syncStart := t } }

theorem witness_RejoinAndSyncInRows :
    ((rejoining.group 0).powered = true ∧ (rejoining.group 0).pllLock = false ∧ (rejoining.group 0).state = .powering ∧
      rejoining.clocks.pllS.lock = true ∧ rejoining.past = true ∧ rejoining.fenced 0x01 0 = false ∧ 0 < rejoining.spacing ∧ (okBoot 0).firstTrain = true ∧
      (okBoot 0).pllLocks = true) ∧
    (holdOver (relocked .running) = true ∧ (relocked .running).boot.resume = some .running) ∧
    (holdOver (relocked .arming) = true ∧ (relocked .arming).boot.resume = some .arming) ∧
    ((pulsed none).isBound = true ∧ (pulsed none).cfg.pulseMode = true ∧ (pulsed none).lockedInBind = true ∧
      (pulsed none).clocks.syncStart = none ∧ (∀ k < 4, nth (pulsed none).clocks.clkDiv k = 0) ∧
      ((pulsed none).cfg.clkOut (pulsed none).clocks.plan 0).syncEn = true ∧
      nth { (pulsed none) with clocks := { run.clocks with clkDiv := [8, 0, 0, 0] } }.clocks.clkDiv 0 ≠ 0 ∧ (pulsed (some 0)).clocks.syncStart ≠ none) := by decide +kernel

/-! ### Time domains and the network ports -/

/-- Port 0 is up, and DOM_A follows master 7 with a Sync and a Delay_Req under way. -/
def networked : State :=
  { run with time := { run.time with
      eth0 := { link := true, asked := [(0x0A000003, 0)], arp := [(0x0A000002, 1, 0)] }
      domA := { state := .traced, master := some 7, syncRx := some 0, syncOrigin := some 0, syncSeq := 3, reqTx := some 0, reqSeq := 4
                lastSync := some (0, 0), annAt := some 0, syncAt := some 0 } } }

/-- The same once nothing has been heard for four Sync intervals of 2^-10 s. -/
def silent : State :=
  { networked with time := { networked.time with tick0 := none, domA := { networked.time.domA with logSync := -10 } } }

theorem witness_PtpRows :
    (networked.time.eth 0).link = true ∧ domainFor networked.cfg 0 okHead = some 0 ∧ domainFor networked.cfg 0 { okHead with udp := true } = none ∧
    okHead.version = 2 ∧ okHead.minor ≤ 1 ∧
    (domainFor networked.cfg 0 { okHead with version := 1 } = some 0 ∧ ¬(({ okHead with version := 1 } : PtpHead).version = 2)) ∧
    (domainFor networked.cfg 0 { okHead with sender := 8 } = some 0 ∧
      (networked.time.domA.heardUntil networked.now).master ≠ some ({ okHead with sender := 8 } : PtpHead).sender) ∧
    (networked.time.domA.heardUntil networked.now).master = some okHead.sender ∧
    ((networked.time.domA.heardUntil networked.now).syncRx = some 0 ∧ (networked.time.domA.heardUntil networked.now).syncOrigin = some 0 ∧
      (networked.time.domA.heardUntil networked.now).syncSeq = 3) ∧
    ((networked.time.domA.heardUntil networked.now).reqTx = some 0 ∧ (networked.time.domA.heardUntil networked.now).reqSeq = 4 ∧
      (networked.time.domA.heardUntil networked.now).lastSync = some (0, 0)) ∧
    ((networked.cfg.dom 0).source = 2 ∧ (networked.cfg.dom 0).port = 0 ∧ (networked.time.dom 0).master.isSome = true ∧
      ∀ n ∈ networked.nextTick, reqFrom networked 0 ≤ n) ∧
    ((silent.time.dom 0).lostFrom = some 62500000 ∧ silent.nextTick = none) := by decide +kernel

def seg0 : Seg := ⟨0, 0, 0, none, false, false, false, 0⟩

/-- PPS_OUT enabled with the timeline traced from instant 0, its pulse under way or not. -/
def pulsing (e : Option Nat) : State :=
  { run with
    boot := { run.boot with folio := some { folio with time := { folio.time with ppsOutEn := true, ppsOutWidth := 100 } } }
    time := { segs := [seg0], tl := .traced, ppsEnd := e } }

/-- DOM_A counts the seconds of PPS_IN from its last pulse. -/
def onPps : State :=
  { run with
    boot := { run.boot with folio := some { folio with time := { folio.time with domains := [{ source := 3 }, {}] } } }
    time := { run.time with domA := { state := .traced, lastSync := some (0, 0) }, domB := { everTraced := true } } }

theorem witness_PpsRows : run.powered = true ∧ (run.cfg.dom 0).source ≠ 3 ∧ (onPps.cfg.dom 0).source = 3 ∧ (pulseTime onPps 0 0).isSome = true ∧
    (ppsRuns (pulsing none) = true ∧ segOf (pulsing none).time.segs (pulsing none).postmark = some seg0 ∧
      ∀ n ∈ (pulsing none).nextTick, (((pulsing none).now : Int) +
        (seg0.reach (ppsSecond (pulsing none) (seg0.timeAt (pulsing none).postmark) * qSec) -
          postmarkDiff (pulsing none).postmark seg0.anchor)).toNat ≤ n) ∧ 0 < 2 ^ 40 + seg0.rho ∧
    ((pulsing (some 5)).time.ppsEnd = some 5 ∧ ∀ n ∈ (pulsing (some 5)).nextTick, 5 ≤ n) := by decide +kernel

/-- An envelope is staged for stream 0, whose destination is resolved, asked for, or neither, and the bucket is full. -/
def sending (t : Tbl (Nat × Nat)) : State :=
  { run with
    rings := { run.rings with netReady := [(0, [env32])] }
    time := { run.time with eth0 := { link := true, tokens := 10 ^ 12, arp := t } } }

theorem witness_NetworkRows :
    ((networked.time.eth 0).link = true ∧ (networked.cfg.port 0).ipv4 ≠ 0 ∧ 0x0A000002 ≠ (networked.cfg.port 0).ipv4 ∧
      (tget? (networked.time.eth 0).asked 0x0A000003).isSome = true ∧ 1472 ≤ 1472) ∧
    (tget? (networked.time.eth 0).asked 0x0A000003 = some 0 ∧ tget? (networked.time.eth 0).arp 0x0A000002 = some (1, 0) ∧
      tget? (networked.time.eth 0).asked 0x0A000002 = none ∧
      ∀ n ∈ ({ networked with time := { networked.time with tick0 := none } } : State).nextTick, 0 + 60 * 16000000000 ≤ n) ∧
    (run.cfg.port 0).pmode ≠ 0 ∧
    ((sending []).cfg.stream? 0 = some { destIp := 0x0A000002, srcUdp := 5, destUdp := 6 } ∧ ((sending []).time.eth 0).link = true ∧
      (sending []).coreClock = true ∧ (sending []).isBound = true ∧
      (nextDatagram (sending []) 0 ((sending []).cfg.port 0).area).isSome = true ∧ macFor (sending []) 0 0x0A000002 = none) ∧
    (macFor (sending [(0x0A000002, 1, 0)]) 0 0x0A000002 = some 1 ∧ streamTurn (sending [(0x0A000002, 1, 0)]) 0 = some 0 ∧
      ((nextDatagram (sending [(0x0A000002, 1, 0)]) 0 ((sending []).cfg.port 0).area).map (fun d =>
        decide ((d.payload.length + 66) * 128000 ≤ bucket (sending [(0x0A000002, 1, 0)]) 0))) = some true) := by decide +kernel

/-! ### Frame values -/

theorem witness_FrameValueArithmetic :
    ((2 : Int) ^ 1 * (2 * 2) ≤ 2 * 3 + 2 ^ 1 ∧ (2 : Int) * 3 + 2 ^ 1 < 2 ^ 1 * (2 * 2 + 2)) ∧ ({} : Meas).k = 0 ∧
    ({ sqsat := true } : Meas).sqsat = true := by decide +kernel

/-! ### Faults -/

/-- Reduction lane 0 fenced, as given; at a frame boundary. -/
def fencedAs (f : Fence) : State :=
  { run with faults := { fences := [(0x04000000, f)] }, time := { run.time with raw := BitVec.ofNat 56 2128000 } }

/-- The Franking Store under test. -/
def storeFenced : State := { run with faults := { fences := [(0x0E000000, { testing := true })] } }

theorem witness_FaultDisciplineRows :
    (run.powered = true ∧ unitExists run ⟨0x04, 0⟩ = true ∧ causeOf ⟨0x04, 0⟩ 0x09 = true ∧ run.ticking = true ∧
      run.fenced 0x04 0 = false) ∧
    (tget? (fencedAs { quarEnd := some 4000000 }).faults.fences (unitKey ⟨0x04, 0⟩) = some { quarEnd := some 4000000 } ∧
      ∀ n ∈ (fencedAs { quarEnd := some 4000000 }).nextTick, 4000000 ≤ n) ∧
    (testPasses (fencedAs { testing := true }) ⟨0x04, 0⟩ true none = true ∧ testPasses (fencedAs { testing := true }) ⟨0x04, 0⟩ false none = false ∧
      storeTest (patternDone (fencedAs { testing := true }) ⟨0x04, 0⟩) ⟨0x04, 0⟩ = fencedAs { testing := true }) ∧
    (tget? storeFenced.faults.fences (unitKey ⟨0x0E, 0⟩) = some { testing := true } ∧ storeFenced.franking.noCopy = false ∧
      storeFenced.franking.failing = 0 ∧ ({ noCopy := true } : Franking).noCopy = true) ∧
    testPasses run ⟨0x01, 0⟩ true (some (okBoot 0)) = true ∧
    (tget? (fencedAs { passed := some 5 }).faults.fences (unitKey ⟨0x04, 0⟩) = some { passed := some 5 } ∧
      (fencedAs { passed := some 5 }).mayReturn { passed := some 5 } = true ∧ atBoundary (fencedAs { passed := some 5 }) = true) := by decide +kernel

theorem witness_DetectionFencesOrWaits : run.fenced 0x01 0 = false ∧ atOnce 0x05 = true ∧ atOnce 0x09 = false := by decide +kernel

end Sys2Proof.Tests
end

