-- ==== Sys2Proof/Proofs/Doorbells.lean ====
section
/-!
PROOFS. Host accesses through BAR0 that a bound module serves, and the doorbells of the host rings (R343, R344).
-/
namespace Sys2Proof.Machine

/-! ## Accesses that are served -/

/-- A BAR takes requests only while the link is up. -/
theorem linkUp_of_barOpen {s : State} (h : s.barOpen = true) : s.pcie.linkUp = true := by
  simp only [State.barOpen, Bool.and_eq_true] at h
  exact h.1.1

theorem memRequest_of_barOpen {s : State} (h : s.barOpen = true) (k : State → State) : memRequest s k = k s := by
  simp [memRequest, h, linkUp_of_barOpen h]

theorem boundWrite_of_isBound {s : State} (hopen : s.barOpen = true) (hbound : s.isBound = true) (k : State → State) :
    boundWrite s k = k s := by
  simp [boundWrite, memRequest_of_barOpen hopen, hbound]

theorem bar0Read_of_isBound {s : State} (h : s.isBound = true) (o : Nat) : bar0Read s o = bar0Word s o := by
  simp [bar0Read, h]

/-! ## The doorbell that a read returns -/

/-- The block of BAR0 that holds the doorbells (R92, R343). -/
theorem bar0Word_doorbells (s : State) {o : Nat} (hlo : 0x200000 ≤ o) (hhi : o < 0x220000) :
    bar0Word s o = doorbellReg s ((o - 0x200000) / 8) (o % 8) := by
  simp (disch := omega) only [bar0Word, if_neg, if_pos]

/-- The low word of doorbell `r`. -/
theorem bar0Word_doorbell (s : State) {r : Nat} (h : r < 16384) :
    bar0Word s (0x200000 + 8 * r) = if isHostRing r = true then (s.ring r).doorbell.toNat else 0 := by
  have hring : (0x200000 + 8 * r - 0x200000) / 8 = r := by omega
  have hword : (0x200000 + 8 * r) % 8 = 0 := by omega
  rw [bar0Word_doorbells s (by omega) (by omega), hring, hword]
  simp [doorbellReg]

/-! ## The index that a write gives -/

/-- R344: a disabled ring, or an index that steps back or passes the one it may not pass. -/
theorem dbBad_iff (r : Nat) (g : Ring) (v : Word32) : dbBad r g v = true ↔
    g.enable = false ∨ (rkind r = 4 ∧ ((v - g.prod).toInt < 0 ∨ (g.size : Int) < (v - g.cons).toInt)) ∨
      (rkind r ≠ 4 ∧ ((v - g.cons).toInt < 0 ∨ (g.prod - v).toInt < 0)) := by
  by_cases hk : rkind r = 4 <;> simp [dbBad, indexDiff, hk]

/-- A producer index in order, for a command ring. -/
theorem dbBad_eq_false_of_command {r : Nat} {g : Ring} {v : Word32} (hen : g.enable = true) (hk : rkind r = 4)
    (hprod : 0 ≤ (v - g.prod).toInt) (hcons : (v - g.cons).toInt ≤ g.size) : dbBad r g v = false := by
  rw [← Bool.not_eq_true, dbBad_iff]
  rintro (hdis | ⟨-, hback | hover⟩ | ⟨hne, -⟩)
  · simp [hen] at hdis
  · omega
  · omega
  · exact hne hk

/-- A consumer index in order, for a ring of another kind. -/
theorem dbBad_eq_false_of_consumer {r : Nat} {g : Ring} {v : Word32} (hen : g.enable = true) (hk : rkind r ≠ 4)
    (hcons : 0 ≤ (v - g.cons).toInt) (hprod : 0 ≤ (g.prod - v).toInt) : dbBad r g v = false := by
  rw [← Bool.not_eq_true, dbBad_iff]
  rintro (hdis | ⟨heq, -⟩ | ⟨-, hback | hover⟩)
  · simp [hen] at hdis
  · exact hk heq
  · omega
  · omega

section
variable {s : State} {r : Nat} {v : Word32}

/-- A ring without a doorbell of its own ignores the index. -/
theorem ringDoorbell_of_no_doorbell (h : isHostRing r = false ∨ ringKind s r = 0) : ringDoorbell s r v = s := by
  rcases h with h | h <;> simp [ringDoorbell, h]

theorem ringDoorbell_of_bad (hhost : isHostRing r = true) (hkind : ringKind s r ≠ 0) (hbad : dbBad r (s.ring r) v = true) :
    ringDoorbell s r v = modRing s r (fun g => { g with dbBad := true }) := by
  simp [ringDoorbell, hhost, hkind, hbad]

theorem ringDoorbell_of_command (hhost : isHostRing r = true) (hkind : ringKind s r ≠ 0) (hgood : dbBad r (s.ring r) v = false)
    (hk : rkind r = 4) : ringDoorbell s r v = modRing s r (fun g => { g with prod := v, doorbell := v }) := by
  simp [ringDoorbell, hhost, hkind, hgood, hk]

/-- A consumer index; that of a completion ring makes room for the completions that wait. -/
theorem ringDoorbell_of_consumer (hhost : isHostRing r = true) (hkind : ringKind s r ≠ 0) (hgood : dbBad r (s.ring r) v = false)
    (hk : rkind r ≠ 4) : ringDoorbell s r v =
      (if rkind r = 5 then writeCompletions (modRing s r (fun g => { g with cons := v, doorbell := v }))
        else modRing s r (fun g => { g with cons := v, doorbell := v })) := by
  simp [ringDoorbell, hhost, hkind, hgood, hk]

end

/-! ## DOORBELL_WRITE -/

/-- The command is the write of its index, unless it covers bytes 4 to 7 alone. -/
theorem exec_doorbellWrite {s : State} (hopen : s.barOpen = true) (hbound : s.isBound = true) (r : Nat) (part : DbPart) (v : Word32) :
    exec (.doorbellWrite r part v) s = .next (if part = .high then s else ringDoorbell s r v) := by
  change execDoorbellWrite r part v s = _
  rw [execDoorbellWrite, boundWrite_of_isBound hopen hbound]
  cases part <;> rfl

/-- Settles O38: a write that is served is `ringDoorbell`, whose four cases are those of R343 and R344. -/
theorem doorbellRow : Obligations.DoorbellRow := by
  rintro s r v _ hopen hbound hr rfl
  have hexec := exec_doorbellWrite hopen hbound r
  refine ⟨?read, ?ignored, fun hhost hkind => ⟨?high, fun part hpart => ⟨?bad, ?command, ?consumer⟩⟩⟩
  case read => rw [bar0Read_of_isBound hbound, bar0Word_doorbell s hr]
  case ignored =>
    intro hnone part
    rw [hexec, ringDoorbell_of_no_doorbell hnone, ite_self]
  case high => rw [hexec, if_pos rfl]
  case bad =>
    intro hbad
    rw [hexec, if_neg hpart, ringDoorbell_of_bad hhost hkind ((dbBad_iff ..).mpr hbad)]
  case command =>
    intro hen hk hprod hcons
    rw [hexec, if_neg hpart, ringDoorbell_of_command hhost hkind (dbBad_eq_false_of_command hen hk hprod hcons) hk]
  case consumer =>
    intro hen hk hcons hprod
    rw [hexec, if_neg hpart, ringDoorbell_of_consumer hhost hkind (dbBad_eq_false_of_consumer hen hk hcons hprod) hk]

end Sys2Proof.Machine
end

