-- ==== Sys2Proof/Proofs/RawTime.lean ====
section
/-!
PROOFS. Raw time and the postmark: how a postmark holds them, and the wrap of TIME_RAW (R396 to R399).
-/
namespace Sys2Proof.Machine

/-! ## The postmark -/

/-- The full count holds TIME_RAW below its wrap count, in 64 bits as well. -/
theorem postmarkOf_now (t : Time) : postmarkOf t.now = BitVec.ofNat 8 t.wraps ++ t.raw := by
  apply BitVec.eq_of_toNat_eq
  have hraw : t.raw.toNat < 2 ^ 56 := t.raw.isLt
  rw [BitVec.toNat_append, ← Nat.shiftLeft_add_eq_or_of_lt hraw, Nat.shiftLeft_eq]
  simp only [postmarkOf, Time.now, rawPeriod, BitVec.toNat_ofNat]
  omega

theorem postmarkOf_add_period (n : Nat) : postmarkOf (n + 256 * 2 ^ 56) = postmarkOf n := by
  apply BitVec.eq_of_toNat_eq
  simp only [postmarkOf, BitVec.toNat_ofNat]
  omega

/-- Settles O15: a postmark is the low 8 bits of the wrap count followed by TIME_RAW. -/
theorem postmarkHoldsRawTimeAndWraps : Obligations.PostmarkHoldsRawTimeAndWraps := by
  intro s
  have happend : s.postmark = BitVec.ofNat 8 s.time.wraps ++ s.time.raw := postmarkOf_now s.time
  refine ⟨?raw, ?wraps, rfl, postmarkOf_add_period⟩
  case raw => rw [happend, BitVec.extractLsb'_append_eq_right]
  case wraps => rw [happend, BitVec.extractLsb'_append_eq_left]

/-! ## TIME_RAW_WRAP -/

/-- The count of the next wrap has not been reached. -/
theorem now_lt_nextWrap (s : State) : s.now < (s.time.wraps + 1) * rawPeriod := by
  have hraw : s.time.raw.toNat < rawPeriod := s.time.raw.isLt
  rw [State.now, Time.now, Nat.add_one_mul]
  omega

theorem advanceTo_nextWrap (s : State) :
    advanceTo s ((s.time.wraps + 1) * rawPeriod) = { s with time := { s.time with raw := 0, wraps := s.time.wraps + 1 } } := by
  have hraw : (s.time.wraps + 1) * rawPeriod % rawPeriod = 0 := Nat.mul_mod_left ..
  have hwraps : (s.time.wraps + 1) * rawPeriod / rawPeriod = s.time.wraps + 1 := Nat.mul_div_cancel _ (by decide)
  rw [advanceTo, if_pos (now_lt_nextWrap s), hraw, hwraps]
  rfl

/-- A powered module reaches the next wrap unless a frame tick comes before it. -/
theorem exec_timeRawWrap {s : State} (hpow : s.powered = true)
    (hfirst : s.ticking = true → (s.time.wraps + 1) * rawPeriod ≤ s.tickOf s.time.ticks) :
    exec .timeRawWrap s = .next (advanceTo s ((s.time.wraps + 1) * rawPeriod)) := by
  have hdue : (!s.powered || (s.ticking && s.tickOf s.time.ticks < (s.time.wraps + 1) * rawPeriod)) = false := by
    simpa [hpow] using hfirst
  change execTimeRawWrap s = _
  simp [execTimeRawWrap, hdue]

/-- Settles O16: the command advances the full count to the next multiple of the period of TIME_RAW. -/
theorem rawTimeWraps : Obligations.RawTimeWraps := by
  intro s hpow hfirst
  rw [exec_timeRawWrap hpow hfirst, advanceTo_nextWrap]

end Sys2Proof.Machine
end

