-- ==== Sys2Proof/Proofs/EveryStep.lean ====
section
/-!
PROOFS. What holds of every step: it goes on, it keeps the queue's rest and what has left the module, the byte stores stay in canonical
form, and raw time does not run backward (R397). Each follows from what every command keeps (`exec_keeps`, `exec_holds`).
-/
namespace Sys2Proof.Machine

/-! ## The two forms of a step -/

theorem step_of_pending {s : State} {c : Instr} {rest : List Instr} (h : s.pending = c :: rest) :
    step s = exec c { s with pending := rest } := by
  simp [step, h]

theorem step_of_nothing_pending {s : State} (h : s.pending = []) : step s = .next (idle s) := by
  simp [step, h]

/-- Settles O1: a queue that is not empty picks the first branch of `step`. -/
theorem stepRunsTheFrontCommand : Obligations.StepRunsTheFrontCommand :=
  fun _ _ _ h => step_of_pending h

/-- Raw time as an idle step leaves it. -/
theorem idle_now (s : State) :
    (idle s).now = if s.powered then s.now + (if s.clocks.pllS.lock then 32 else 160) else s.now := by
  unfold idle
  split
  · rw [advanceTo_now, State.countStep]
    omega
  · rfl

theorem idle_frame (s : State) :
    { idle s with time := { (idle s).time with raw := s.time.raw, wraps := s.time.wraps } } = s := by
  unfold idle
  split
  · exact advanceTo_frame s _
  · rfl

/-- Settles O2: `idle` is an advance of raw time by one count, or nothing in OFF. -/
theorem idleStepAdvancesRawTime : Obligations.IdleStepAdvancesRawTime := fun s h =>
  ⟨idle s, step_of_nothing_pending h, idle_frame s, idle_now s⟩

/-! ## Every command keeps the queue, the outputs and the form of the byte stores -/

/-- Settles O4: both are fields of what `exec_holds` gives for every command. -/
theorem queueKeptAndOutputsOnlyGrow : Obligations.QueueKeptAndOutputsOnlyGrow :=
  ⟨fun c s t h => (exec_holds c s t h).pending, fun c s t h => (exec_holds c s t h).out⟩

/-- Settles O5: the invariant holds of the front command's effect and of the idle step. -/
theorem everyStepKeepsStoresCanonical : Obligations.EveryStepKeepsStoresCanonical := by
  intro s t hmem hstep
  cases hpend : s.pending with
  | nil =>
    rw [step_of_nothing_pending hpend] at hstep
    cases hstep
    exact (idle_keeps (.refl s)).memOk hmem
  | cons c rest =>
    rw [step_of_pending hpend] at hstep
    exact (exec_holds c _ t hstep).mem hmem

theorem manufactured_wf : Memory.wf 0 manufactured = true :=
  mwrite_wf _ _ _ (mwrite_wf _ _ _ (mwrite_wf _ _ _ (mwrite_wf _ _ _ rfl)))

/-- Settles O6: the manufactured store is written with `mwrite`, which keeps the form, and the other stores are empty. -/
theorem resetStoresCanonical : Obligations.ResetStoresCanonical := by
  change State.reset.memOk = true
  simp only [State.memOk, State.reset, manufactured_wf]
  rfl

/-! ## Raw time and the carrier's flash -/

theorem flashEffect_time (s : State) (o : FlashOp) : (flashEffect s o).time = s.time := by
  simp only [flashEffect, apply_ite State.time, ite_self]

theorem stopFlash_time (s : State) : (stopFlash s).time = s.time := by
  unfold stopFlash
  split
  · rfl
  · simp only [apply_ite State.time, ite_self]

/-- The one command outside OFF that `exec_keeps` leaves out moves no instant: it writes the flash and ends the operation. -/
theorem flashOperationComplete_now {ok : Bool} {s t : State} (h : exec (.flashOperationComplete ok) s = .next t) :
    s.now ≤ t.now := by
  change execFlashOperationComplete ok s = .next t at h
  simp only [execFlashOperationComplete] at h
  split at h
  · rename_i o hbusy
    split at h
    · cases h
      exact Nat.le_refl _
    · generalize (ok && decide (s.flash.sizeMbit ≠ 0)) = good at h
      obtain ⟨u, hu⟩ : ∃ u, u = if good = true then flashEffect s o else flashFailed s := ⟨_, rfl⟩
      have htime : u.time = s.time := by
        rw [hu]
        split
        · exact flashEffect_time s o
        · exact stopFlash_time s
      rw [← hu] at h
      cases h
      have hend := endFlash_keeps o (if good = true then 0 else 4) (.refl u)
      calc s.now = u.now := by rw [State.now, State.now, htime]
        _ ≤ _ := (Keeps.ite (rebindSample_keeps hend) hend).now
  · cases h
    exact Nat.le_refl _

theorem exec_now {c : Instr} {s t : State} (hoff : takesOff c = false) (h : exec c s = .next t) : s.now ≤ t.now := by
  by_cases hop : ∃ ok, c = .flashOperationComplete ok
  · obtain ⟨ok, rfl⟩ := hop
    exact flashOperationComplete_now h
  · exact (exec_keeps c s hoff (fun ok e => hop ⟨ok, e⟩) t h).now

/-- Settles O7: `exec_keeps` gives it for every command but the end of a flash operation, whose count is followed by itself. -/
theorem rawTimeNeverRunsBack : Obligations.RawTimeNeverRunsBack := by
  intro s t hstep hoff
  cases hpend : s.pending with
  | nil =>
    rw [step_of_nothing_pending hpend] at hstep
    cases hstep
    exact (idle_keeps (.refl s)).now
  | cons c rest =>
    rw [step_of_pending hpend] at hstep
    have hc : takesOff c = false := hoff c (by simp [hpend])
    have hnow := exec_now hc hstep
    exact hnow

/-- Settles O8: the flash is a field of what `exec_keeps` gives for every other command. -/
theorem flashWrittenByFlashOperationsAlone : Obligations.FlashWrittenByFlashOperationsAlone :=
  fun c s t h hoff hop => (exec_keeps c s hoff hop t h).flash

/-! ## Every command goes on -/

/-- An outcome that is a next state. -/
def GoesOn (r : Res) : Prop := ∃ t, r = .next t

theorem GoesOn.next (t : State) : GoesOn (.next t) := ⟨t, rfl⟩

theorem startCmd_goesOn (s : State) (p : Bytes → Bool) (k : State → Nat × Bytes → State) : GoesOn (startCmd s p k) := by
  unfold startCmd
  split
  · split <;> exact .next _
  · exact .next s

theorem exec_goesOn (c : Instr) (s : State) : GoesOn (exec c s) := by
  cases c with
  | nop | seqArm | seqDisarm | seqForce | spanRead | planSwitch | timePref | bankAssign | ringReset | groupPowerDown | groupPowerUp | rebind =>
    simp only [exec, execNop, execSeqArm, execSeqDisarm, execSeqForce, execSpanRead, execPlanSwitch, execTimePref, execBankAssign,
      execRingReset, execGroupPowerDown, execGroupPowerUp, execRebind]
    exact startCmd_goesOn ..
  | compress | decompress | statsRead =>
    simp only [exec, execCompress, execDecompress, execStatsRead]
    split
    · exact startCmd_goesOn ..
    · exact .next s
  | powerGood | modResetAssert | modResetRelease | railBrownout | railOutOfTolerance | thermalRestart | islandPowerWave | refInPresent
  | refInLost | refWaitExpiry | positionToken | alignmentMark | armingEntry | runningEntry | frameTick | frameNumberWrap | timeRawWrap
  | coastingEnd | memoryRound | frameRelease | rearm | datagramSend | commandFetch | seqCommandApply | splitBlockDispatch
  | splitBlockComplete | planSwitchApply | groupPowerDownApply | groupPowerUpRejoin | rebindDecision | rebindTeardown | rebindDrainEnd
  | flashOperationComplete | winCommit | bankOwnerWrite | msixUnmask | windowRead | windowWrite | perstN | atsInvalidateRequest
  | atsInvalidateCompletion | hostReadCompletion | hostReadTimeout | echoTimeout | laneLockLoss | islandBrownout | railCurrentLimit
  | overcurrent | pllSRelock | groupRejoin | faultHoldResume | pllCRelock | pllMRelock | pllFLossOfLock | oscillatorFailure | syncInEdge
  | ppsOutPulse | ppsOutPulseEnd | delayReq | domainLost | arpRetry | arpRefresh | fence | quarantineEnd | selfTestComplete | readmit
  | pwMeasurementUpdate | trigInEdge | zoneChange | perstNRelease | unsupportedRequest =>
    simp only [exec, execPowerGood, execModResetAssert, execModResetRelease, execRailBrownout, execRailOutOfTolerance, execThermalRestart,
      execIslandPowerWave, execRefInPresent, execRefInLost, execRefWaitExpiry, execPositionToken, execAlignmentMark, execArmingEntry,
      execRunningEntry, execFrameTick, execFrameNumberWrap, execTimeRawWrap, execCoastingEnd, execMemoryRound, execFrameRelease, execRearm,
      execDatagramSend, execCommandFetch, execSeqCommandApply, execSplitBlockDispatch, execSplitBlockComplete, execPlanSwitchApply,
      execGroupPowerDownApply, execGroupPowerUpRejoin, execRebindDecision, execRebindTeardown, execRebindDrainEnd,
      execFlashOperationComplete, execWinCommit, execBankOwnerWrite, execMsixUnmask, execWindowRead, execWindowWrite, execPerstN,
      execAtsInvalidateRequest, execAtsInvalidateCompletion, execHostReadCompletion, execHostReadTimeout, execEchoTimeout, execLaneLockLoss,
      execIslandBrownout, execRailCurrentLimit, execOvercurrent, execPllSRelock, execGroupRejoin, execFaultHoldResume, execPllCRelock,
      execPllMRelock, execPllFLossOfLock, execOscillatorFailure, execSyncInEdge, execPpsOutPulse, execPpsOutPulseEnd, execDelayReq,
      execDomainLost, execArpRetry, execArpRefresh, execFence, execQuarantineEnd, execSelfTestComplete, execReadmit,
      execPwMeasurementUpdate, execTrigInEdge, execZoneChange, execPerstNRelease, execUnsupportedRequest]
    repeat' (first | exact .next _ | split)
  | _ => exact .next _

/-- Settles O3: every branch of every command is a `.next` (`exec_goesOn`). -/
theorem everyCommandGoesOn : Obligations.EveryCommandGoesOn := exec_goesOn

end Sys2Proof.Machine
end

