-- ==== Sys2Proof/Proofs/Basics.lean ====
section
/-!
PROOFS. Facts about bits, lists of register values and instants that the proofs of several chapters use.
-/
namespace Sys2Proof.Machine

/-! ## Bits -/

@[simp] theorem bit_setBit_self (v i : Nat) (b : Bool) : bit (setBit v i b) i = b := by
  unfold setBit
  split
  · assumption
  · rename_i hne
    cases b
    · have hset : v.testBit i = true := by simpa [bit] using hne
      have hle : 2 ^ i ≤ v := Nat.ge_two_pow_of_testBit hset
      have h := Nat.testBit_two_pow_add_eq (v - 2 ^ i) i
      rw [Nat.add_sub_cancel' hle, hset] at h
      simpa [bit] using h.symm
    · have hclear : v.testBit i = false := by simpa [bit] using hne
      simp [bit, Nat.add_comm v, Nat.testBit_two_pow_add_eq, hclear]

/-! ## Time under what keeps it -/

theorem Keeps.now_le {a t : State} (h : Keeps a t) : a.now ≤ t.now := h.now

theorem advanceTo_eq (s : State) (n : Nat) :
    ∃ r w, advanceTo s n = { s with time := { s.time with raw := r, wraps := w } } := by
  unfold advanceTo
  split
  · exact ⟨_, _, rfl⟩
  · exact ⟨s.time.raw, s.time.wraps, rfl⟩

/-! ## Interrupts and module states -/

/-- A signal is a message, a pending bit, or nothing (R466, R467). -/
theorem signal_frame (s : State) (v : Nat) : { signal s v with pcie := s.pcie, out := s.out } = s := by
  simp only [signal]
  split
  · split <;> rfl
  · split
    · rfl
    · split <;> rfl

theorem raiseIrq_frame (s : State) (i : Nat) : { raiseIrq s i with pcie := s.pcie, out := s.out } = s := by
  simp only [raiseIrq]
  split
  · rfl
  · split
    · exact (congrArg (fun t : State => { t with pcie := s.pcie }) (signal_frame _ _) :)
    · rfl

theorem setState_frame (s : State) (m : ModState) :
    { setState s m with pcie := s.pcie, out := s.out } = { s with boot := { s.boot with state := m } } := by
  unfold setState
  split
  · rename_i h
    rw [← h]
  · exact raiseIrq_frame _ _

@[simp] theorem raiseIrq_boot (s : State) (i : Nat) : (raiseIrq s i).boot = s.boot := (congrArg State.boot (raiseIrq_frame s i) :)

@[simp] theorem setState_boot (s : State) (m : ModState) : (setState s m).boot = { s.boot with state := m } :=
  (congrArg State.boot (setState_frame s m) :)

@[simp] theorem setState_time (s : State) (m : ModState) : (setState s m).time = s.time := (congrArg State.time (setState_frame s m) :)

@[simp] theorem setState_firstRun (s : State) (m : ModState) : (setState s m).firstRun = s.firstRun :=
  (congrArg State.firstRun (setState_frame s m) :)

@[simp] theorem setState_settleEnd (s : State) (m : ModState) : (setState s m).settleEnd = s.settleEnd :=
  (congrArg State.settleEnd (setState_frame s m) :)

@[simp] theorem setState_now (s : State) (m : ModState) : (setState s m).now = s.now := congrArg Time.now (setState_time s m)

end Sys2Proof.Machine
end

