-- ==== Sys2Proof/Proofs/Supervision.lean ====
section
/-!
PROOFS. The rows that end in OFF or start the module (R75, R76, R510, R517), and the supervision: rails, measurements, seal, lifetime
statistics and the SMBus (R499, R504, R516, R529 to R532).
-/
namespace Sys2Proof.Machine

/-! ## OFF -/

theorem stopFlash_of_not_busy {s : State} (h : s.flashRegs.busy = none) : stopFlash s = s := by
  simp [stopFlash, h]

/-- What a stopped flash operation leaves: the bytes of the flash and the counter of free values alone may differ. -/
theorem stopFlash_frame (s : State) : { stopFlash s with flash := s.flash, free := s.free } = s := by
  unfold stopFlash
  split
  · rfl
  · split <;> rfl

theorem stopFlash_pins (s : State) : (stopFlash s).pins = s.pins := (congrArg State.pins (stopFlash_frame s) :)
theorem stopFlash_pcie (s : State) : (stopFlash s).pcie = s.pcie := (congrArg State.pcie (stopFlash_frame s) :)
theorem stopFlash_franking (s : State) : (stopFlash s).franking = s.franking := (congrArg State.franking (stopFlash_frame s) :)

/-- OFF as R76 has it, whatever the pins and the supervision hold: all is reset but the Franking Store, an idle flash and the pins. -/
theorem moduleOff_resets (u : State) (k : Bool) :
    ∃ t, moduleOff u k = t ∧ t.boot = State.reset.boot ∧ t.time = State.reset.time ∧ t.clocks = State.reset.clocks ∧
      t.frames = [] ∧ t.rings = State.reset.rings ∧ t.jobs = State.reset.jobs ∧
      t.pcie = { State.reset.pcie with aerLogs := u.pcie.aerLogs } ∧
      t.faults = State.reset.faults ∧ t.banks = State.reset.banks ∧ t.seqs = [] ∧ t.recs = [] ∧ t.proc = State.reset.proc ∧
      t.meter = State.reset.meter ∧ t.franking.mem = u.franking.mem ∧
      (u.flashRegs.busy = none → t.flash = u.flash) ∧ t.pins.sealOpenN = u.pins.sealOpenN :=
  ⟨_, rfl, rfl, rfl, rfl, rfl, rfl, rfl,
    congrArg (fun p : Pcie => { State.reset.pcie with aerLogs := p.aerLogs }) (stopFlash_pcie u),
    rfl, rfl, rfl, rfl, rfl, rfl, (congrArg Franking.mem (stopFlash_franking u) :),
    fun h => (congrArg State.flash (stopFlash_of_not_busy h) :), (congrArg Pins.sealOpenN (stopFlash_pins u) :)⟩

/-- Settles O9: the rows into OFF are `moduleOff` (`moduleOff_resets`), those that start the module are `startUp`. -/
theorem resetAndStartRows : Obligations.ResetAndStartRows := by
  refine ⟨?off, fun s env => ⟨?good, ?release, ?restart, ?watchdog⟩⟩
  case off =>
    rintro s c hpow (⟨rfl, hup⟩ | ⟨k, rfl, hk⟩ | rfl)
    · obtain ⟨t, ht, hreset⟩ := moduleOff_resets { s with pins := { s.pins with modResetN := false } } true
      refine ⟨t, ?_, hreset⟩
      change execModResetAssert s = _
      rw [execModResetAssert, hup, ← ht]
      exact congrArg Host.Outcome.next (if_pos hpow)
    · obtain ⟨t, ht, hreset⟩ :=
        moduleOff_resets { s with pins := { s.pins with rails := s.pins.rails.set k .brownout, good := false } } false
      refine ⟨t, ?_, hreset⟩
      change execRailBrownout k s = _
      rw [execRailBrownout, if_neg (by omega), ← ht]
      exact congrArg Host.Outcome.next (if_pos hpow)
    · obtain ⟨t, ht, hreset⟩ := moduleOff_resets { s with power := { s.power with shutdown := true, thermalOff := true } } false
      refine ⟨t, ?_, hreset⟩
      change execThermalShutdown s = _
      rw [execThermalShutdown, ← ht]
      exact congrArg Host.Outcome.next (if_pos hpow)
  case good =>
    intro hrails hpow hreset hheld
    have hgo : (s.pins.modResetN && !s.power.thermalOff) = true := by simp [hreset, hheld]
    change execPowerGood env s = _
    rw [execPowerGood, if_neg (by simp [hrails, hpow])]
    exact if_pos hgo
  case release =>
    intro hreset hrails hheld
    change execModResetRelease env s = _
    have hrails' : State.railsOk { s with pins := { s.pins with modResetN := true } } = true := hrails
    simp [execModResetRelease, hreset, hrails', hheld]
  case restart =>
    intro hheld hrails hreset
    change execThermalRestart env s = _
    have hrails' : State.railsOk { s with power := { s.power with thermalOff := false, freshPower := true } } = true := hrails
    simp [execThermalRestart, hheld, hrails', hreset]
  case watchdog =>
    intro hpow
    refine ⟨?_, ?_, ?_⟩
    · change execWatchdogReset false env s = _
      simp [execWatchdogReset, hpow, watchdogReset]
    · change execWatchdogReset true env s = _
      simp [execWatchdogReset, hpow, watchdogReset]
    · change execLockstepMismatch env s = _
      simp [execLockstepMismatch, hpow, watchdogReset]

/-! ## Rails and measurements -/

theorem getD_set_self {l : List RailState} {k : Nat} (h : k < l.length) (r d : RailState) : (l.set k r).getD k d = r := by
  simp [List.getD_eq_getElem?_getD, List.getElem?_set_self h]

/-- A rail between its tolerance and its threshold leaves VDD_AUX up. -/
theorem auxUp_marginal {s : State} {k : Nat} (hlen : s.pins.rails.length = 3) (hup : s.auxUp = true) :
    State.auxUp { s with pins := { s.pins with rails := s.pins.rails.set k .marginal } } = true := by
  by_cases hk : k = 2
  · subst hk
    simp [State.auxUp, List.getD_eq_getElem?_getD, List.getElem?_set_self (by omega : 2 < s.pins.rails.length)]
  · simpa [State.auxUp, List.getD_eq_getElem?_getD, List.getElem?_set_ne hk] using hup

theorem alertLow_of_marginal {s : State} {k : Nat} (hup : s.auxUp = true) (hk : k < s.pins.rails.length)
    (hrail : s.pins.rails.getD k .off = .marginal) : s.alertLow = true := by
  have hmem : RailState.marginal ∈ s.pins.rails := by
    rw [← hrail, List.getD_eq_getElem _ _ hk]
    exact List.getElem_mem hk
  have hany : s.pins.rails.any (fun r => r == RailState.marginal) = true := List.any_eq_true.mpr ⟨_, hmem, rfl⟩
  simp [State.alertLow, hup, hany]

theorem exec_railOutOfTolerance {s : State} {k : Nat} (hk : k < 3) (hrail : s.pins.rails.getD k .off ∈ [RailState.ok, .high, .low]) :
    exec (.railOutOfTolerance k) s = .next { s with
      pins := { s.pins with rails := s.pins.rails.set k .marginal }
      power := { s.power with alertRail := setBit s.power.alertRail k true } } := by
  change execRailOutOfTolerance k s = _
  refine if_pos ?_
  simp only [List.getD_eq_getElem?_getD, List.mem_cons, List.not_mem_nil, or_false] at hrail
  rcases hrail with h | h | h <;> simp [hk, h]

theorem auxFound_of_auxUp {s : State} (h : s.auxUp = true) (mv : Nat) : auxFound s mv = s := by
  have hrail : (s.pins.rails.getD 2 .off == RailState.brownout) = false := by simpa [State.auxUp] using h
  simp only [auxFound, hrail, Bool.false_and, Bool.false_eq_true, if_false]

/-- Below the temperatures of Table 17-5 a measurement raises no fault. -/
theorem hotFaults_of_cool {s : State} (hdie : s.power.die < 1680) (hdram : s.power.dramHot = false) : hotFaults s = s := by
  have hcool : ¬1680 ≤ s.power.die := by omega
  simp [hotFaults, hcool, hdram]

theorem satInt_lt {v b : Int} (hb : -32768 < b) (h : v < b) : satInt 16 v < b := by
  simp only [satInt]
  omega

theorem exec_pwMeasurementUpdate {s : State} {m : PwMeas} (hmeas : s.measuring = true) (hpow : s.powered = true)
    (hdie : m.die < 1680) (hdram : m.dramHot = false) : exec (.pwMeasurementUpdate m) s = .next (measured s m) := by
  have hup : s.auxUp = true := by
    simp only [State.measuring, Bool.and_eq_true] at hmeas
    exact hmeas.1
  have hpow' : (measured s m).powered = true := hpow
  have hcool : hotFaults (measured s m) = measured s m := hotFaults_of_cool (satInt_lt (by decide) hdie) hdram
  change execPwMeasurementUpdate m s = _
  simp only [execPwMeasurementUpdate, auxFound_of_auxUp hup, hmeas, Bool.not_true, Bool.false_eq_true, if_false, hpow', if_true, hcool]

theorem nth_map_range {f : Nat → Nat} {n k : Nat} (h : k < n) : nth ((List.range n).map f) k = f k := by
  simp [nth, List.getD_eq_getElem?_getD, h]

/-! ## VDD_AUX -/

theorem not_auxUp_of_brownout {s : State} (hlen : s.pins.rails.length = 3) :
    State.auxUp { s with pins := { s.pins with rails := s.pins.rails.set 2 .brownout, good := false } } = false := by
  simp [State.auxUp, List.getD_eq_getElem?_getD, List.getElem?_set_self (by omega : 2 < s.pins.rails.length)]

theorem offPower_of_not_auxUp {s : State} (h : s.auxUp = false) : (offPower s).shutdown = false ∧ (offPower s).thermalOff = false := by
  simp [offPower, h]

theorem alertLow_of_not_auxUp {s : State} (h : s.auxUp = false) : s.alertLow = false := by
  simp [State.alertLow, h]

/-- OFF without VDD_AUX: the supervision holds nothing. -/
theorem moduleOff_of_not_auxUp {s : State} (h : s.auxUp = false) (k : Bool) :
    (moduleOff s k).power.shutdown = false ∧ (moduleOff s k).power.thermalOff = false ∧ (moduleOff s k).alertLow = false ∧
      (moduleOff s k).boot.state = .off := by
  have hup : (stopFlash s).auxUp = false := by rw [State.auxUp, stopFlash_pins]; exact h
  obtain ⟨hshut, hheld⟩ := offPower_of_not_auxUp hup
  exact ⟨hshut, hheld, alertLow_of_not_auxUp hup, rfl⟩

theorem exec_railBrownout_aux {s : State} (hlen : s.pins.rails.length = 3) :
    ∃ t, exec (.railBrownout 2) s = .next t ∧ t.power.shutdown = false ∧ t.power.thermalOff = false ∧ t.alertLow = false ∧
      t.boot.state = .off := by
  obtain ⟨u, hu⟩ : ∃ u : State, u = { s with pins := { s.pins with rails := s.pins.rails.set 2 .brownout, good := false } } := ⟨_, rfl⟩
  have hup : u.auxUp = false := hu ▸ not_auxUp_of_brownout hlen
  have hexec : exec (.railBrownout 2) s =
      .next (if u.powered then moduleOff u false else if u.auxUp then u else { u with power := offPower u }) := by
    rw [hu]
    rfl
  refine ⟨_, hexec, ?_⟩
  by_cases hpow : u.powered = true
  · rw [if_pos hpow]
    exact moduleOff_of_not_auxUp hup false
  · have hoff : u.boot.state = .off := by simpa [State.powered] using hpow
    obtain ⟨hshut, hheld⟩ := offPower_of_not_auxUp hup
    rw [if_neg hpow, hup, if_neg Bool.false_ne_true]
    exact ⟨hshut, hheld, alertLow_of_not_auxUp hup, hoff⟩

/-- Settles O10: a rail out of tolerance and a measurement move pins and PW_ registers; both answers are outputs. -/
theorem supplyAndSmbusRows : Obligations.SupplyAndSmbusRows := by
  refine ⟨⟨?tolerance, ?measurement, fun s => exec_railBrownout_aux⟩, fun s hup => ⟨?block, ?alert⟩⟩
  case tolerance =>
    intro s k _ hup hk hlen hrail
    have hset := getD_set_self (by omega : k < s.pins.rails.length) .marginal .off
    refine ⟨_, exec_railOutOfTolerance hk hrail, hset, ?_, bit_setBit_self .., rfl⟩
    exact alertLow_of_marginal (auxUp_marginal hlen hup) (by simp [hlen, hk]) hset
  case measurement =>
    intro s m hmeas hpow hdie hdram
    exact ⟨_, exec_pwMeasurementUpdate hmeas hpow hdie hdram, rfl, rfl, rfl, rfl,
      fun k hk => ⟨nth_map_range hk, nth_map_range hk⟩⟩
  case block =>
    rintro code b rfl
    change execSmbusBlockRead code s = _
    rw [execSmbusBlockRead, hup, if_pos rfl]
    rfl
  case alert =>
    intro hlow
    change execSmbusAlertResponse s = _
    rw [execSmbusAlertResponse, hup, hlow]
    rfl

/-! ## Seal and lifetime statistics -/

theorem exec_sealChange_held {s : State} (hpow : s.powered = true) (o ok : Bool) :
    exec (.sealChange o ⟨true, ok⟩) s = .next (sealNow { s with pins := { s.pins with sealOpenN := !o } } o ok) := by
  have hheld : (State.powered { s with pins := { s.pins with sealOpenN := !o } } && true) = true := by rw [Bool.and_true]; exact hpow
  exact congrArg Host.Outcome.next (if_pos hheld)

/-- The two last writes of the lifetime statistics, where writes are good (R504). -/
theorem storeWrite_of_good {s : State} (h : s.franking.failing = 0) (a : Nat) (b : Bytes) :
    storeWrite s a b = ({ s with franking := { s.franking with mem := mwrite 0 s.franking.mem a b } }, true) := by
  simp [storeWrite, h]

theorem lifetimeUpdate_of_good {s : State} (h : s.franking.failing = 0) (n : Nat) :
    ∃ mem, lifetimeUpdate s n = { s with
      franking := { s.franking with mem := mem }, power := { s.power with peakDie := none, peakIsland := none } } := by
  obtain ⟨u, hu⟩ : ∃ u, u = (storeWrite s uptimeAddr (le 8 (min (stGet s.franking.mem uptimeAddr 8 + n) (2 ^ 64 - 1)))).1 := ⟨_, rfl⟩
  have hmem : ∃ m, u = { s with franking := { s.franking with mem := m } } := ⟨_, hu.trans (congrArg Prod.fst (storeWrite_of_good h ..))⟩
  obtain ⟨m, rfl⟩ := hmem
  unfold lifetimeUpdate
  simp only [← hu]
  exact ⟨_, congrArg Prod.fst (storeWrite_of_good (s := { s with
    franking := { s.franking with mem := m }, power := { s.power with peakDie := none, peakIsland := none } }) h ..)⟩

/-- The recorded level beside the one that has held decides whether a seal event is franked (R499). -/
theorem sealNow_eq {s v : State} {o ok : Bool}
    (hv : v = { s with franking := { s.franking with sealOpen := o, failing := if ok then 0 else 1 } }) :
    sealNow s o ok =
      (fun w : State => { w with franking := { w.franking with failing := 0 } }) (if v.page.sealOpen = o then v else frankSeal v o false) := by
  subst hv
  unfold sealNow
  with_reducible rfl

/-- Settles O11: the recorded level decides whether `sealNow` franks, and the good writes of the lifetime statistics end in the store alone. -/
theorem sealAndLifetimeRows : Obligations.SealAndLifetimeRows := by
  refine ⟨?franked, ?recorded, fun s o ok => ?passing, ?lifetime⟩
  case franked =>
    intro s o ok hpow hpage
    refine ⟨exec_sealChange_held hpow o ok, fun v hv => ?_⟩
    have hnew : v.page.sealOpen ≠ o := by rw [hv]; exact hpage
    rw [sealNow_eq (s := { s with pins := { s.pins with sealOpenN := !o } }) hv, if_neg hnew]
  case recorded =>
    intro s o ok hpow hpage
    obtain ⟨v, hv⟩ : ∃ v : State, v = { s with
      pins := { s.pins with sealOpenN := !o }
      franking := { s.franking with sealOpen := o, failing := if ok then 0 else 1 } } := ⟨_, rfl⟩
    have hold : v.page.sealOpen = o := by rw [hv]; exact hpage
    rw [exec_sealChange_held hpow o ok, sealNow_eq (s := { s with pins := { s.pins with sealOpenN := !o } }) hv, if_pos hold, hv]
  case passing =>
    change execSealChange o ⟨false, ok⟩ s = _
    simp [execSealChange]
  case lifetime =>
    intro s n hpow hgood
    obtain ⟨mem, hmem⟩ := lifetimeUpdate_of_good hgood n
    have hexec : exec (.lifetimeStatisticsUpdate n) s = .next (lifetimeUpdate s n) := congrArg Host.Outcome.next (if_pos hpow)
    rw [hexec, hmem]
    exact ⟨_, rfl, rfl, rfl, rfl⟩

end Sys2Proof.Machine
end

