-- ==== Sys2Proof/Proofs/Binding.lean ====
section
/-!
PROOFS. Binding and the way to RUNNING: the reference (R436, R437), chain discovery and the alignment mark (R97 to R100, R452), the
island power waves (R83 to R88) and the entries of ARMING and RUNNING (R76, R101, R103).
-/
namespace Sys2Proof.Machine

/-! ## A refused bind -/

theorem rebindEnded_boot (s : State) : (rebindEnded s).boot = { s.boot with rebinding := false } := by
  unfold rebindEnded
  split
  · rw [raiseIrq_boot]
  · rename_i h
    have hno : s.boot.rebinding = false := by simpa using h
    rw [← hno]

/-- A refused bind leaves the module UNBOUND with the error and no Folio (R72). -/
theorem bindRefuse_boot (s : State) (code detail : Nat) (copy : Option Copy) :
    ∃ b, (bindRefuse s code detail copy).boot = b ∧ b.state = .unbound ∧ b.errCode = code ∧ b.errDetail = detail ∧ b.folio = none := by
  refine ⟨_, rfl, ?_⟩
  unfold bindRefuse
  rw [rebindEnded_boot, setState_boot]
  exact ⟨rfl, rfl, rfl, rfl⟩

theorem refuseBound_boot (s : State) (code detail : Nat) :
    ∃ b, (refuseBound s code detail).boot = b ∧ b.state = .unbound ∧ b.errCode = code ∧ b.errDetail = detail ∧ b.folio = none :=
  bindRefuse_boot ..

/-! ## REF_IN -/

/-- The wait for REF_IN ends in a refusal, error 0x507 (R437). -/
theorem refWaitOver_boot (s : State) :
    (refWaitOver s).boot.state = .unbound ∧ (refWaitOver s).boot.errCode = 0x507 ∧ (refWaitOver s).boot.folio = none := by
  obtain ⟨b, hb, hstate, hcode, -, hfolio⟩ := refuseBound_boot { s with clocks := { s.clocks with refUntil := none } } 0x507 0xFFFF
  rw [refWaitOver, hb]
  exact ⟨hstate, hcode, hfolio⟩

theorem refWaitOver_now (s : State) : s.now ≤ (refWaitOver s).now := by
  have hle := (refuseBound_keeps 0x507 0xFFFF (.refl { s with clocks := { s.clocks with refUntil := none } })).now_le
  exact hle

theorem powered_of_bound {s : State} (h : s.boot.state = .bound) : s.powered = true := by
  simp [State.powered, h]

/-- A bind that waits for REF_IN, as it comes: in time, or too late. -/
theorem exec_refInPresent_waiting {s : State} (b : Bool) (hbound : s.boot.state = .bound) (hwait : s.boot.wait = .refIn) :
    ∀ u, u = { s with clocks := { s.clocks with refPresent := true, refMhz := s.refDeclared } } →
      exec (.refInPresent b) s = .next (if s.clocks.refUntil.any (fun t => decide (t < s.now)) then refWaitOver u else tryLockS u b) := by
  rintro u rfl
  change execRefInPresent b s = _
  rw [execRefInPresent, powered_of_bound hbound]
  exact congrArg Host.Outcome.next (if_pos (by simp [hbound, hwait]))

theorem exec_refInLost {s : State} (hpow : s.powered = true) (hpresent : s.clocks.refPresent = true) :
    ∀ u, u = { s with clocks := { s.clocks with refPresent := false } } →
      exec .refInLost s = .next (if s.clocks.refSel && s.clocks.pllS.lock then loseS u 1 true else u) := by
  rintro u rfl
  change execRefInLost s = _
  rw [execRefInLost, if_neg (by simp [hpow, hpresent])]

/-- Settles O12: each row is one branch of its command, the waiting bind judged by the end of its wait. -/
theorem referenceRows : Obligations.ReferenceRows := by
  refine ⟨?present, ?waiting, ?lost, ?lostUsed, ?expiry⟩
  case present =>
    intro s b hpow hwait
    change execRefInPresent b s = _
    rw [execRefInPresent, hpow]
    exact congrArg Host.Outcome.next (if_neg (by simp [hwait]))
  case waiting =>
    intro s b hbound hwait
    obtain ⟨u, hu⟩ : ∃ u : State, u = { s with clocks := { s.clocks with refPresent := true, refMhz := s.refDeclared } } := ⟨_, rfl⟩
    have hexec := exec_refInPresent_waiting b hbound hwait u hu
    rw [← hu]
    refine ⟨fun htime => ?_, fun e huntil hlate => ?_⟩
    · have hnone : ¬s.clocks.refUntil.any (fun t => decide (t < s.now)) = true := by
        simpa [Option.any_eq_true] using htime
      rw [hexec, if_neg hnone]
    · have hover : s.clocks.refUntil.any (fun t => decide (t < s.now)) = true := by
        rw [huntil, Option.any_some]
        exact decide_eq_true hlate
      obtain ⟨hstate, hcode, -⟩ := refWaitOver_boot u
      exact ⟨_, hexec.trans (congrArg Host.Outcome.next (if_pos hover)), hstate, hcode⟩
  case lost =>
    intro s hpow hpresent hsel
    rw [exec_refInLost hpow hpresent _ rfl, hsel]
    rfl
  case lostUsed =>
    intro s hpow hpresent hsel hlock
    rw [exec_refInLost hpow hpresent _ rfl, hsel, hlock]
    rfl
  case expiry =>
    intro s e huntil hbound hwait
    have hexec : exec .refWaitExpiry s = .next (refWaitOver (advanceTo s e)) := by
      change execRefWaitExpiry s = _
      simp [execRefWaitExpiry, huntil, hbound, hwait]
    obtain ⟨hstate, hcode, hfolio⟩ := refWaitOver_boot (advanceTo s e)
    exact ⟨_, hexec, hstate, hcode, hfolio, (advanceTo_keeps e (.refl s)).now_le.trans (refWaitOver_now _)⟩

end Sys2Proof.Machine
end

