-- ==== Sys2Proof/Proofs/Chain.lean ====
section
/-!
PROOFS. The follower's alignment mark (R100, R452). The tick of frame 0 waits for the CLK_OUT high phases as the module stands once the
mark has made it a follower, and a SYNC_EN output of a follower that has no ticks yet counts as one that changes (`clkRestarts`): with a
plan switch that waits, it gives no more high phases, though it gave one before the mark.
-/
namespace Sys2Proof.Machine

/-! ## Discovery -/

/-- The end of discovery moves the wait of the bind and its step alone. -/
theorem discoveryDone_eq (s : State) : ∃ w k, discoveryDone s = { s with boot := { s.boot with wait := w, step := k } } := by
  unfold discoveryDone
  split
  · split <;> exact ⟨_, _, rfl⟩
  · exact ⟨s.boot.wait, s.boot.step, rfl⟩

/-! ## The alignment mark -/

/-- The instant that an alignment mark heard now stands for, and the first tick of its grid (R100). -/
def markAt (s : State) : Int := (s.now : Int) - (s.cfg.install.getD {}).syncDelay

def markTick (s : State) : Nat :=
  (markAt s + (fdiv ((s.clkBusy : Int) - markAt s) (max 1 s.spacing : Nat) + 1) * (max 1 s.spacing : Nat)).toNat

/-- A mark at a follower without ticks starts them at the tick that the follower's own state gives. -/
theorem exec_alignmentMark_first {s u : State} (hbound : s.isBound = true) (hchain : s.cfg.install.isSome = true)
    (hleader : s.boot.leader ≠ some true) (hlock : s.lockedInBind = true) (htick : s.time.tick0 = none)
    (hu : u = { s with boot := { s.boot with leader := some false } }) :
    exec .alignmentMark s =
      .next (discoveryDone (knownGrids { u with time := { u.time with tick0 := some (markTick u) } } (markTick u))) := by
  subst hu
  have hexec : exec .alignmentMark s = execAlignmentMark s := rfl
  rw [execAlignmentMark, if_neg (by simp [hbound, hchain, hleader, hlock])] at hexec
  simp only [htick] at hexec
  exact hexec

/-- The tick of frame 0 after the first mark. -/
theorem tick0_of_alignmentMark {s u t : State} (hbound : s.isBound = true) (hchain : s.cfg.install.isSome = true)
    (hleader : s.boot.leader ≠ some true) (hlock : s.lockedInBind = true) (htick : s.time.tick0 = none)
    (hu : u = { s with boot := { s.boot with leader := some false } }) (ht : exec .alignmentMark s = .next t) :
    t.time.tick0 = some (markTick u) := by
  rw [exec_alignmentMark_first hbound hchain hleader hlock htick hu] at ht
  cases ht
  obtain ⟨w, k, hdone⟩ :=
    discoveryDone_eq (knownGrids { u with time := { u.time with tick0 := some (markTick u) } } (markTick u))
  rw [hdone]
  rfl

/-! ## A mark that does not wait -/

/-- A plan in which CLK_OUT0 is a SYNC_EN output of divider 2. -/
def syncEnPlan (p : Nat) : PlanQ := { plan := p, outs := [{ div := 2, syncEn := true }] }

/-- A chain of LEADER 0 whose mark comes 1,999,999 pu late, with two plans that do not differ. -/
def chainFolio : Folio :=
  { (default : Folio) with install := some { syncDelay := 1999999 }, clocks := { plans := [syncEnPlan 0, syncEnPlan 1] } }

/-- A bound module that has no leader yet and no ticks, at pu 4,000,000: CLK_OUT0 runs on from the bind before and is in a high phase, which
ends 4 pu later, and a PLAN_SWITCH to plan 1 waits. -/
def markedState : State := { State.reset with
  boot := { State.reset.boot with state := .bound, folio := some chainFolio }
  time := { State.reset.time with raw := 4000000 }
  clocks := { State.reset.clocks with
    pllS := { lock := true }, clkDiv := [2, 0, 0, 0], pending := [(1, 1, 0, [])] } }

theorem markedState_clkBusy : markedState.clkBusy = 4000004 := by decide +kernel

theorem markedState_markTick :
    markTick { markedState with boot := { markedState.boot with leader := some false } } = 4000001 := by decide +kernel

/-- Refutes O13: at `markedState` CLK_OUT0 is in a high phase that ends at pu 4,000,004, and the mark starts the ticks at 4,000,001. -/
theorem not_chainRows : ¬Obligations.ChainRows := by
  rintro ⟨-, hmark⟩
  have hleader : markedState.boot.leader ≠ some true := by decide
  obtain ⟨t, n, hexec, -, htick, hafter, -⟩ := (hmark markedState rfl rfl hleader rfl).1 rfl (by decide)
  have hn := tick0_of_alignmentMark rfl rfl hleader rfl rfl rfl hexec
  rw [htick, markedState_markTick, Option.some_inj] at hn
  rw [markedState_clkBusy] at hafter
  omega

end Sys2Proof.Machine
end

