-- ==== Sys2Proof/Proofs/Waves.lean ====
section
/-!
PROOFS. The island power waves and their deskew (R83 to R87, R168 to R173), and the entries of ARMING and RUNNING at their ticks (R76,
R101, R103).
-/
namespace Sys2Proof.Machine

/-! ## What bringing islands up keeps -/

/-- A group whose calibration stands (R173). -/
def Group.fit (e : Group) : Prop := e.calibrated = true ∧ e.stale = false

/-- State `t` is `s` with islands brought up or calibrated further: no group loses its power or its calibration by it. -/
structure BringsUp (s t : State) : Prop where
  boot : { t.boot with health := s.boot.health } = s.boot
  time : t.time = s.time
  franking : t.franking = s.franking
  powered : ∀ j, (s.group j).powered = true → (t.group j).powered = true
  fit : ∀ j, (s.group j).fit → (t.group j).fit

theorem BringsUp.refl (s : State) : BringsUp s s := ⟨rfl, rfl, rfl, fun _ h => h, fun _ h => h⟩

theorem BringsUp.trans {s t u : State} (h : BringsUp s t) (k : BringsUp t u) : BringsUp s u := by
  refine ⟨?_, k.time.trans h.time, k.franking.trans h.franking, fun j hj => k.powered j (h.powered j hj), fun j hj => k.fit j (h.fit j hj)⟩
  have hu : { u.boot with health := s.boot.health } = { t.boot with health := s.boot.health } :=
    (congrArg (fun b : Boot => { b with health := s.boot.health }) k.boot :)
  exact hu.trans h.boot

theorem BringsUp.foldl {α : Type} {z : State} {f : State → α → State} (hf : ∀ s x, BringsUp z s → BringsUp z (f s x)) :
    ∀ (l : List α) {s : State}, BringsUp z s → BringsUp z (l.foldl f s)
  | [], _, h => h
  | x :: l, s, h => BringsUp.foldl hf l (hf s x h)

section
variable {z s : State}

/-- A change of one group that takes neither power nor calibration from it. -/
theorem BringsUp.modGroup {g : Nat} {f : Group → Group} (h : BringsUp z s) (hpow : ∀ e : Group, e.powered = true → (f e).powered = true)
    (hfit : ∀ e : Group, e.fit → (f e).fit) : BringsUp z (modGroup s g f) := by
  refine h.trans ⟨rfl, rfl, rfl, fun j h => ?_, fun j h => ?_⟩ <;> by_cases hj : j = g
  · subst hj
    rw [group_modGroup_self]
    exact hpow _ h
  · rwa [group_modGroup_ne _ _ hj]
  · subst hj
    rw [group_modGroup_self]
    exact hfit _ h
  · rwa [group_modGroup_ne _ _ hj]

theorem BringsUp.emits {l : List Output} (h : BringsUp z s) : BringsUp z (emits s l) := ⟨h.boot, h.time, h.franking, h.powered, h.fit⟩

theorem BringsUp.power {w : Power} (h : BringsUp z s) : BringsUp z { s with power := w } := ⟨h.boot, h.time, h.franking, h.powered, h.fit⟩

theorem BringsUp.ite {t : State} {c : Prop} [Decidable c] (h : BringsUp z s) (k : BringsUp z t) : BringsUp z (if c then s else t) := by
  split <;> assumption

theorem BringsUp.exchange {g : Nat} {l : List (Nat × Bytes)} (h : BringsUp z s) : BringsUp z (exchange s g l) :=
  .emits (.modGroup h (fun _ hp => hp) fun _ hf => hf)

theorem BringsUp.followInput {c offset : Nat} (h : BringsUp z s) : BringsUp z (followInput s c offset) :=
  .modGroup h (fun _ hp => hp) fun _ hf => hf

theorem BringsUp.applySettings {g : Nat} (h : BringsUp z s) : BringsUp z (applySettings s g) :=
  .foldl (fun _ _ h => h.followInput) _ (.modGroup h (fun _ hp => hp) fun _ hf => hf)

theorem BringsUp.sendSettings {g : Nat} (h : BringsUp z s) : BringsUp z (sendSettings s g) :=
  .applySettings (.modGroup h.exchange (fun _ hp => hp) fun _ hf => hf)

theorem BringsUp.applyAlign {g : Nat} {d : CalData} (h : BringsUp z s) : BringsUp z (applyAlign s g d) :=
  .modGroup (.modGroup h.exchange (fun _ hp => hp) fun _ hf => hf) (fun _ hp => hp) fun _ hf => hf

theorem BringsUp.setTrims {g : Nat} {t : List (Nat × Nat)} (h : BringsUp z s) : BringsUp z (setTrims s g t) :=
  .applySettings (.modGroup h.exchange (fun _ hp => hp) fun _ hf => hf)

end

/-! ## Waves -/

/-- An island that a wave has brought up has power (R84). -/
theorem islandUp_bringsUp (s : State) (g : Nat) (st : GState) : BringsUp s (islandUp s g st) ∧ ((islandUp s g st).group g).powered = true := by
  have hpower : BringsUp s (islandPower s g st) := .modGroup (.refl s) (fun _ _ => rfl) fun _ h => h
  have hon : ((islandPower s g st).group g).powered = true := by
    unfold islandPower
    rw [group_modGroup_self]
  have hrest : BringsUp (islandPower s g st) (islandUp s g st) :=
    .modGroup (.sendSettings (.exchange (.refl _))) (fun _ h => h) fun _ h => h
  exact ⟨hpower.trans hrest, hrest.powered g hon⟩

theorem recordUnused_bringsUp (s : State) (r : GroupBoot) : BringsUp s (recordUnused s r) :=
  ⟨rfl, rfl, rfl, fun _ h => h, fun _ h => h⟩

theorem waveUp_bringsUp (s : State) (r : GroupBoot) : BringsUp s (waveUp s r) ∧ ((waveUp s r).group r.group).powered = true := by
  obtain ⟨hup, hon⟩ := islandUp_bringsUp s r.group .powering
  have hrecord := recordUnused_bringsUp (islandUp s r.group .powering) r
  exact ⟨hup.trans hrecord, hrecord.powered _ hon⟩

theorem foldl_waveUp_bringsUp (res : List GroupBoot) (s : State) : BringsUp s (res.foldl waveUp s) :=
  .foldl (fun t r h => h.trans (waveUp_bringsUp t r).1) res (.refl s)

/-- Every island of a wave has power at its end. -/
theorem foldl_waveUp_powered : ∀ (res : List GroupBoot) (s : State), ∀ r ∈ res, ((res.foldl waveUp s).group r.group).powered = true
  | [], _, r, h => by cases h
  | x :: res, s, r, h => by
    rw [List.foldl_cons]
    rcases List.mem_cons.mp h with rfl | hin
    · exact (foldl_waveUp_bringsUp res _).powered _ (waveUp_bringsUp s r).2
    · exact foldl_waveUp_powered res (waveUp s x) r hin

/-! ## The deskew -/

/-- A calibration is judged by the factory values alone. -/
theorem calOk_of_franking {s t : State} (h : t.franking = s.franking) (g : Nat) (d : CalData) : calOk t g d = calOk s g d := by
  have hinj : injected t = injected s := by
    funext g p
    simp only [injected, h]
  simp only [calOk, calTrims, hinj]

theorem BringsUp.detectHeat {z s : State} {u : FUnit} {d n : Nat} (h : BringsUp z s) : BringsUp z (detect s u 0x0C d n) := by
  simp only [detect]
  exact .ite h ⟨h.boot, h.time, h.franking, h.powered, h.fit⟩

/-- The temperature at which an island has been calibrated leaves that calibration standing. -/
theorem islandTemp_bringsUp {s : State} {g : Nat} {t : Int} (h : (s.group g).calTemp = t) : BringsUp s (islandTemp s g t) := by
  have htemp : BringsUp s (modGroup s g (fun e => { e with
      temp := t, stale := e.stale || (e.calibrated && decide (240 < (t - e.calTemp).natAbs)) })) := by
    refine ⟨rfl, rfl, rfl, fun j hj => ?_, fun j hj => ?_⟩ <;> by_cases hg : j = g
    · subst hg
      rw [group_modGroup_self]
      exact hj
    · rwa [group_modGroup_ne _ _ hg]
    · subst hg
      rw [group_modGroup_self]
      exact ⟨hj.1, by simp [hj.2, h]⟩
    · rwa [group_modGroup_ne _ _ hg]
  unfold islandTemp
  generalize modGroup s g _ = u at htemp ⊢
  refine .ite (.detectHeat ?_) ?_ <;> exact .ite htemp.power.power htemp.power

/-! ## The deskew of the waves -/

theorem recordCal_bringsUp (s : State) (g : Nat) (l : List (Nat × Nat)) (d : CalData) :
    BringsUp s (recordCal s g l d) ∧ ((recordCal s g l d).group g).fit := by
  obtain ⟨u, hu⟩ : ∃ u : State, u = { s with field := { s.field with trims := l.foldl (fun t e =>
      tput t (64 * g + e.1) (e.2, satInt 8 (halfPs (((d.residuals.find? (fun r => r.1 = e.1)).map (·.2)).getD 0)))) s.field.trims } } :=
    ⟨_, rfl⟩
  have htrims : BringsUp s u := by
    rw [hu]
    exact ⟨rfl, rfl, rfl, fun _ h => h, fun _ h => h⟩
  obtain ⟨v, hv⟩ : ∃ v : State, v = modGroup u g (fun e => { dropCal (takeAlign e) with calTemp := d.temp, stale := false, calibrated := true }) :=
    ⟨_, rfl⟩
  have heq : recordCal s g l d = islandTemp v g d.temp := by
    rw [hv, hu]
    rfl
  have hpow (e : Group) : (takeAlign e).powered = e.powered := by
    unfold takeAlign
    split <;> rfl
  have hmark : BringsUp u v := by
    rw [hv]
    exact .modGroup (.refl u) (fun e h => (hpow e).trans h) fun _ _ => ⟨rfl, rfl⟩
  have hgroup : v.group g = { dropCal (takeAlign (u.group g)) with calTemp := d.temp, stale := false, calibrated := true } := by
    rw [hv, group_modGroup_self]
  have htemp := islandTemp_bringsUp (s := v) (g := g) (t := d.temp) (by rw [hgroup])
  rw [heq]
  exact ⟨(htrims.trans hmark).trans htemp, htemp.fit g (by rw [hgroup]; exact ⟨rfl, rfl⟩)⟩

theorem applyCal_bringsUp (s : State) (g : Nat) (d : CalData) : BringsUp s (applyCal s g d) ∧ ((applyCal s g d).group g).fit := by
  unfold applyCal
  dsimp only
  have hset := (BringsUp.refl s).applyAlign (g := g) (d := d) |>.exchange (g := g) (l := [(0x87, [1])])
    |>.setTrims (g := g) (t := (calTrims s g d).map (fun e => (e.1, e.2.toNat))) |>.exchange (g := g) (l := [(0x87, [1])])
  obtain ⟨hrecord, hfit⟩ := recordCal_bringsUp _ g ((calTrims s g d).map (fun e => (e.1, e.2.toNat))) d
  exact ⟨hset.trans hrecord, hfit⟩

/-- A deskew in which every calibration passes calibrates every group of it. -/
theorem deskewAll_of_ok : ∀ (l : List (Nat × CalData)) (s : State), (∀ e ∈ l, calOk s e.1 e.2 = true) →
    (deskewAll s l).2 = none ∧ BringsUp s (deskewAll s l).1 ∧ ∀ e ∈ l, ((deskewAll s l).1.group e.1).fit
  | [], s, _ => ⟨rfl, .refl s, fun _ h => by cases h⟩
  | (g, d) :: l, s, hok => by
    obtain ⟨hup, hfit⟩ := applyCal_bringsUp s g d
    obtain ⟨hnone, hrest, hall⟩ := deskewAll_of_ok l (applyCal s g d) fun e he => by
      rw [calOk_of_franking hup.franking]
      exact hok e (List.mem_cons_of_mem _ he)
    have heq : deskewAll s ((g, d) :: l) = deskewAll (applyCal s g d) l := by
      rw [deskewAll, if_pos (hok (g, d) List.mem_cons_self)]
    rw [heq]
    refine ⟨hnone, hup.trans hrest, fun e he => ?_⟩
    rcases List.mem_cons.mp he with rfl | hin
    · exact hrest.fit _ hfit
    · exact hall e hin

/-- The first calibration that fails ends the deskew (R172). -/
theorem deskewAll_of_bad : ∀ (a : List (Nat × CalData)) (e : Nat × CalData) (b : List (Nat × CalData)) (s : State),
    (∀ x ∈ a, calOk s x.1 x.2 = true) → calOk s e.1 e.2 = false → (deskewAll s (a ++ e :: b)).2 = some e.1
  | [], e, b, s, _, hbad => by
    rw [List.nil_append, deskewAll, if_neg (by rw [hbad]; exact Bool.false_ne_true)]
  | (g, d) :: a, e, b, s, hok, hbad => by
    have hup := (applyCal_bringsUp s g d).1
    rw [List.cons_append, deskewAll, if_pos (hok (g, d) List.mem_cons_self)]
    refine deskewAll_of_bad a e b _ (fun x hx => ?_) (by rw [calOk_of_franking hup.franking, hbad])
    rw [calOk_of_franking hup.franking]
    exact hok x (List.mem_cons_of_mem _ hx)

/-! ## ISLAND_POWER_WAVE -/

theorem cfg_of_folio {s t : State} (hfolio : t.boot.folio = s.boot.folio) (hbinding : t.boot.binding = s.boot.binding) : t.cfg = s.cfg := by
  simp only [State.cfg, hfolio, hbinding]

theorem BringsUp.cfg {s t : State} (h : BringsUp s t) : t.cfg = s.cfg :=
  cfg_of_folio (congrArg Boot.folio h.boot :) (congrArg Boot.binding h.boot :)

/-- The module with the groups of a wave up and their calibrations kept for the deskew. -/
def waveDone (s : State) (k : Nat) (res : List GroupBoot) : State :=
  let t := res.foldl waveUp s
  { t with boot := { t.boot with
    wavesDone := k + 1, cals := t.boot.cals ++ res.map (fun r => (r.group, r.cal))
    waveOn := decide (4 * (k + 1) < t.cfg.groups.length), step := 9 } }

theorem waveDone_spec (s : State) (k : Nat) (res : List GroupBoot) : ∃ h : List FUnit,
    (waveDone s k res).boot = { s.boot with
      health := h, wavesDone := k + 1, cals := s.boot.cals ++ res.map (fun r => (r.group, r.cal))
      waveOn := decide (4 * (k + 1) < s.cfg.groups.length), step := 9 } ∧
    (waveDone s k res).time = s.time ∧ (waveDone s k res).franking = s.franking ∧
    ∀ r ∈ res, ((waveDone s k res).group r.group).powered = true := by
  have hup := foldl_waveUp_bringsUp res s
  have hon := foldl_waveUp_powered res s
  have hcfg := hup.cfg
  unfold waveDone
  generalize res.foldl waveUp s = t at hup hon hcfg ⊢
  have hboot : t.boot = { s.boot with health := t.boot.health } := (congrArg (fun b : Boot => { b with health := t.boot.health }) hup.boot :)
  refine ⟨t.boot.health, ?_, hup.time, hup.franking, hon⟩
  dsimp only
  rw [hcfg]
  exact (congrArg (fun b : Boot => { b with
    wavesDone := k + 1, cals := b.cals ++ res.map (fun r : GroupBoot => (r.group, r.cal))
    waveOn := decide (4 * (k + 1) < s.cfg.groups.length), step := 9 }) hboot :)

/-- The module with every group deskewed (step 15). -/
def deskewDone (s : State) : State := discoveryDone { s with boot := { s.boot with cals := [], step := 15 } }

section
variable {s : State} {k : Nat} {res : List GroupBoot} (hbound : s.boot.state = .bound) (hwait : s.boot.wait = .waves)
  (hk : k = s.boot.wavesDone) (hgroups : waveGroups s.cfg k ≠ []) (hres : res.map (·.group) = waveGroups s.cfg k)
include hbound hwait hk hgroups hres

/-- A wave that is next, with a result of every one of its groups, in the order of the groups. -/
theorem execIslandPowerWave_due : execIslandPowerWave k res s =
    match res.findSome? (fun r => (waveFailure s r).map (fun c => (c, r.group))) with
    | some (c, g) => .next (refuseBound (res.foldl noteFuse s) c g)
    | none =>
      if 4 * (k + 1) < (waveDone s k res).cfg.groups.length then .next (waveDone s k res)
      else match (deskewAll (waveDone s k res) (waveDone s k res).boot.cals).2 with
        | some g => .next (refuseBound (deskewAll (waveDone s k res) (waveDone s k res).boot.cals).1 0x506 g)
        | none => .next (discoveryDone { (deskewAll (waveDone s k res) (waveDone s k res).boot.cals).1 with boot := {
            (deskewAll (waveDone s k res) (waveDone s k res).boot.cals).1.boot with cals := [], step := 15 } }) := by
  subst hk
  unfold execIslandPowerWave
  rw [if_neg (by simp [hbound, hwait, hgroups, hres])]
  rfl

theorem exec_islandPowerWave_up (hgood : ∀ r ∈ res, waveFailure s r = none) : exec (.islandPowerWave k res) s =
    if 4 * (k + 1) < s.cfg.groups.length then .next (waveDone s k res)
    else match (deskewAll (waveDone s k res) (s.boot.cals ++ res.map (fun r => (r.group, r.cal)))).2 with
      | some g => .next (refuseBound (deskewAll (waveDone s k res) (s.boot.cals ++ res.map (fun r => (r.group, r.cal)))).1 0x506 g)
      | none => .next (deskewDone (deskewAll (waveDone s k res) (s.boot.cals ++ res.map (fun r => (r.group, r.cal)))).1) := by
  have hnone : res.findSome? (fun r => (waveFailure s r).map (fun c => (c, r.group))) = none :=
    List.findSome?_eq_none_iff.mpr fun r hr => by rw [hgood r hr]; rfl
  obtain ⟨_, hboot, -⟩ := waveDone_spec s k res
  have hcals : (waveDone s k res).boot.cals = s.boot.cals ++ res.map (fun r => (r.group, r.cal)) := (congrArg Boot.cals hboot :)
  have hcfg : (waveDone s k res).cfg = s.cfg := cfg_of_folio (congrArg Boot.folio hboot :) (congrArg Boot.binding hboot :)
  change execIslandPowerWave k res s = _
  rw [execIslandPowerWave_due hbound hwait hk hgroups hres, hnone, hcals, hcfg]
  rfl

theorem exec_islandPowerWave_failure {a b : List GroupBoot} {r : GroupBoot} {e : Nat} (hsplit : res = a ++ r :: b)
    (hgood : ∀ x ∈ a, waveFailure s x = none) (hbad : waveFailure s r = some e) :
    exec (.islandPowerWave k res) s = .next (refuseBound (res.foldl noteFuse s) e r.group) := by
  have hfirst : res.findSome? (fun r => (waveFailure s r).map (fun c => (c, r.group))) = some (e, r.group) := by
    have ha : a.findSome? (fun r => (waveFailure s r).map (fun c => (c, r.group))) = none :=
      List.findSome?_eq_none_iff.mpr fun x hx => by rw [hgood x hx]; rfl
    rw [hsplit, List.findSome?_append, ha, List.findSome?_cons, hbad]
    rfl
  change execIslandPowerWave k res s = _
  rw [execIslandPowerWave_due hbound hwait hk hgroups hres, hfirst]

end

/-! ## Ticks at which something waits -/

/-- The latest tick where it is now, otherwise the next one, with time at it. -/
theorem atTick_entryTick {s : State} (htick : s.ticking = true) : ∃ t, atTick s (entryTick s) = some t ∧
    (∃ r w, t = { s with time := { s.time with raw := r, wraps := w } }) ∧
    t.now = (if s.time.ticks ≠ 0 ∧ s.now = s.time.tickAt then s.now else max s.now (s.tickOf s.time.ticks)) := by
  unfold atTick entryTick
  rw [htick]
  by_cases hnow : s.time.ticks ≠ 0 ∧ s.now = s.time.tickAt
  · have hlt : s.time.ticks - 1 < s.time.ticks := by omega
    have hcond : (decide (s.time.ticks ≠ 0) && decide (s.now = s.time.tickAt)) = true := by simpa using hnow
    rw [if_pos hcond, if_pos hnow]
    exact ⟨s, if_pos hlt, ⟨_, _, rfl⟩, rfl⟩
  · have hcond : ¬(decide (s.time.ticks ≠ 0) && decide (s.now = s.time.tickAt)) = true := by simpa using hnow
    rw [if_neg hcond, if_neg hnow]
    exact ⟨advanceTo s (s.tickOf s.time.ticks), by simp, advanceTo_eq s _, advanceTo_now s _⟩

/-- The tick of a count that has come or is the next one. -/
theorem atTick_of_le {s : State} {c : Nat} (htick : s.ticking = true) (hc : c ≤ s.time.ticks) : ∃ t, atTick s c = some t ∧
    (∃ r w, t = { s with time := { s.time with raw := r, wraps := w } }) ∧
    t.now = if c < s.time.ticks then s.now else max s.now (s.tickOf c) := by
  by_cases hlt : c < s.time.ticks
  · exact ⟨s, by simp [atTick, htick, hlt], ⟨_, _, rfl⟩, (if_pos hlt).symm⟩
  · have heq : c = s.time.ticks := by omega
    exact ⟨advanceTo s (s.tickOf c), by simp [atTick, htick, heq], advanceTo_eq s _, by rw [if_neg hlt, advanceTo_now]⟩

/-! ## The obligation -/

/-- After the last wave ARMING is awaited where the module knows its position and its ticks run. -/
theorem discoveryDone_of_waves {s : State} (hwait : s.boot.wait = .waves) (hlast : s.cfg.groups.length ≤ 4 * s.boot.wavesDone) :
    ∃ k, discoveryDone s = { s with boot := { s.boot with
      wait := if (s.cfg.install = none ∨ s.boot.position.isSome) ∧ s.ticking = true then .arming else .waves, step := k } } := by
  have hdue : (s.boot.wait == BindWait.waves && decide (s.cfg.groups.length ≤ 4 * s.boot.wavesDone)) = true := by simp [hwait, hlast]
  unfold discoveryDone
  rw [if_pos hdue]
  by_cases hgo : (s.cfg.install = none ∨ s.boot.position.isSome) ∧ s.ticking = true
  · rw [if_pos (by simpa using hgo), if_pos hgo]
    exact ⟨17, rfl⟩
  · rw [if_neg (by simpa using hgo), if_neg hgo, ← hwait]
    exact ⟨16, rfl⟩

/-- A module whose groups are all deskewed after its last wave. -/
theorem deskewDone_of_bringsUp {s u : State} (hup : BringsUp s u) (hwait : s.boot.wait = .waves)
    (hlast : s.cfg.groups.length ≤ 4 * s.boot.wavesDone) : ∃ k, deskewDone u = { u with boot := { s.boot with
      health := u.boot.health, cals := [], step := k
      wait := if (s.cfg.install = none ∨ s.boot.position.isSome) ∧ s.ticking = true then .arming else .waves } } := by
  have hboot : u.boot = { s.boot with health := u.boot.health } := (congrArg (fun b : Boot => { b with health := u.boot.health }) hup.boot :)
  have hcfg : State.cfg { u with boot := { u.boot with cals := [], step := 15 } } = s.cfg := hup.cfg
  have hpos : u.boot.position = s.boot.position := (congrArg Boot.position hboot :)
  have hticks : State.ticking { u with boot := { u.boot with cals := [], step := 15 } } = s.ticking :=
    (congrArg (fun t : Time => t.tick0.isSome) hup.time :)
  obtain ⟨k, hdone⟩ := discoveryDone_of_waves (s := { u with boot := { u.boot with cals := [], step := 15 } })
    ((congrArg Boot.wait hboot :).trans hwait)
    (by rw [hcfg]; exact hlast.trans_eq (congrArg (4 * ·) (congrArg Boot.wavesDone hboot :).symm))
  refine ⟨k, hdone.trans ?_⟩
  rw [hcfg, hticks]
  simp only [hpos]
  rw [hboot]

/-- Settles O14: the waves by what bringing islands up keeps, the entries by their ticks. -/
theorem powerWaveAndEntryRows : Obligations.PowerWaveAndEntryRows := by
  refine ⟨?wave, ?arming, ?running⟩
  case wave =>
    intro s k res hbound hwait hk hgroups hres
    obtain ⟨health, hboot, htime, hstore, hon⟩ := waveDone_spec s k res
    refine ⟨fun hgood hmore => ?_, fun hgood hlast => ?_, fun a r b e hsplit hgood hbad => ?_⟩
    · have hexec := exec_islandPowerWave_up hbound hwait hk hgroups hres hgood
      rw [if_pos hmore] at hexec
      refine ⟨_, hexec, ?_, ?_, ?_, hon⟩ <;> rw [hboot]
      exact hbound
    · rintro l rfl
      have hexec := exec_islandPowerWave_up hbound hwait hk hgroups hres hgood
      rw [if_neg (by omega)] at hexec
      refine ⟨fun hok => ?_, fun a e b hsplit hok hbad => ?_⟩
      · obtain ⟨hnone, hup, hfit⟩ := deskewAll_of_ok _ (waveDone s k res) fun e he => by
          rw [calOk_of_franking hstore]
          exact hok e he
        simp only [hnone] at hexec
        have hcfg : (waveDone s k res).cfg = s.cfg := cfg_of_folio (congrArg Boot.folio hboot :) (congrArg Boot.binding hboot :)
        obtain ⟨step, hdone⟩ := deskewDone_of_bringsUp hup (by rw [hboot]; exact hwait) (by rw [hcfg, hboot]; exact hlast)
        rw [hdone] at hexec
        refine ⟨_, hexec, ?_, ?_, ?_, rfl, ?_, fun r hr => hup.powered _ (hon r hr), hfit⟩
        · exact (congrArg Boot.wavesDone hboot :)
        · exact ((congrArg Boot.waveOn hboot :)).trans (decide_eq_false (by omega))
        · exact ((congrArg Boot.state hboot :)).trans hbound
        · have hpos : (waveDone s k res).boot.position = s.boot.position := (congrArg Boot.position hboot :)
          have hticks : (waveDone s k res).ticking = s.ticking := (congrArg (fun t : Time => t.tick0.isSome) htime :)
          rw [← hcfg, ← hpos, ← hticks]
      · rw [hsplit, deskewAll_of_bad a e b _ (fun x hx => by rw [calOk_of_franking hstore]; exact hok x hx)
          (by rw [calOk_of_franking hstore, hbad])] at hexec
        obtain ⟨b', hb, hstate, hcode, hdetail, -⟩ := refuseBound_boot (deskewAll (waveDone s k res) (a ++ e :: b)).1 0x506 e.1
        exact ⟨_, hexec, by rw [hb, hstate], by rw [hb, hcode], by rw [hb, hdetail]⟩
    · obtain ⟨b', hb, hstate, hcode, hdetail, -⟩ := refuseBound_boot (res.foldl noteFuse s) e r.group
      exact ⟨_, exec_islandPowerWave_failure hbound hwait hk hgroups hres hsplit hgood hbad,
        by rw [hb, hstate], by rw [hb, hcode], by rw [hb, hdetail]⟩
  case arming =>
    intro s hbound hwait htick
    obtain ⟨t, hat, ⟨r, w, rfl⟩, hnow⟩ := atTick_entryTick htick
    have hexec : exec .armingEntry s =
        .next (beginArming { s with time := { s.time with raw := r, wraps := w } } (entryTick s)) := by
      change execArmingEntry s = _
      rw [execArmingEntry, if_pos (by simp [hbound, hwait, htick])]
      simp only [hat]
    refine ⟨_, hexec, ?_, ?_, ?_⟩ <;> unfold beginArming
    · rw [setState_boot]
    · rw [setState_settleEnd]
      rfl
    · rw [setState_now]
      exact hnow
  case running =>
    intro s c harm htick hspace hsettle hc hcur
    obtain ⟨t, hat, ⟨r, w, rfl⟩, hnow⟩ := atTick_of_le htick hc
    have hcount : (s.tickOf c - s.time.tick0.getD 0) / max 1 s.spacing = c := by
      rw [State.tickOf, Nat.add_sub_cancel_left, Nat.max_eq_right hspace, Nat.mul_div_cancel _ hspace]
    have hexec : exec .runningEntry s = .next (beginRunning { s with time := { s.time with raw := r, wraps := w } } c) := by
      have hmax : max c (State.curFrame { s with time := { s.time with raw := r, wraps := w } }) = c := Nat.max_eq_left hcur
      change execRunningEntry s = _
      simp only [execRunningEntry, hsettle, hcount]
      rw [if_pos (by simp [harm, htick])]
      simp only [hat, hmax]
      rw [← hsettle]
    refine ⟨_, hexec, ?_, ?_, ?_, ?_⟩ <;> unfold beginRunning
    · rw [setState_boot]
    · rw [setState_firstRun]
    · rw [setState_settleEnd]
    · rw [setState_now]
      exact hnow

end Sys2Proof.Machine
end

