-- ==== Sys2Proof/Proofs/HostWrites.lean ====
section
/-!
PROOFS. What leaves for the host: translations and write requests (R458, R468), completions (R362), envelopes (R342, R345, R351, R352) and
notifications (R346).
-/
namespace Sys2Proof.Machine

/-! ## Requests to the host -/

/-- Nothing but translations and outputs of `s` changes up to `t`. -/
def Requests (s t : State) : Prop :=
  { t with pcie := { t.pcie with ats := s.pcie.ats, atsAsked := s.pcie.atsAsked }, out := s.out } = s

namespace Requests

variable {s t u : State}

theorem refl (s : State) : Requests s s := rfl

theorem trans (h : Requests s t) (k : Requests t u) : Requests s u :=
  (congrArg (fun x : State => { x with pcie := { x.pcie with ats := s.pcie.ats, atsAsked := s.pcie.atsAsked }, out := s.out }) k :).trans h

theorem foldl {α : Type} {f : State → α → State} (hf : ∀ s x, Requests s (f s x)) : ∀ (l : List α) (s : State), Requests s (l.foldl f s)
  | [], s => refl s
  | x :: l, s => (hf s x).trans (foldl hf l (f s x))

theorem emit (s : State) (o : Output) : Requests s (emit s o) := rfl

theorem askPage (s : State) (a : Nat) : Requests s (askPage s a) := by
  unfold Machine.askPage
  split <;> exact rfl

theorem translate (s : State) (a : Nat) : Requests s (translate s a) := by
  unfold Machine.translate
  split
  · exact (askPage s a).trans rfl
  · exact rfl

theorem writeRequest (s : State) (c : Nat × Bytes) : Requests s (writeRequest s c) :=
  (translate s c.1).trans (emit _ _)

theorem hostWrite (s : State) (a : Nat) (b : Bytes) : Requests s (hostWrite s a b) := foldl writeRequest _ s

theorem writeback (s : State) (r : Nat) (i : Word32) : Requests s (writeback s r i) := hostWrite _ _ _

theorem rings (h : Requests s t) : t.rings = s.rings := (congrArg State.rings h :)

theorem ring (h : Requests s t) (r : Nat) : t.ring r = s.ring r := (congrArg (fun x : State => x.ring r) h :)

theorem atsEn (h : Requests s t) : t.pcie.atsEn = s.pcie.atsEn := (congrArg (fun x : State => x.pcie.atsEn) h :)

end Requests

/-! ## What a completion touches -/

/-- Nothing but host rings, fetched commands, decided completions, translations and outputs of `s` changes up to `t`. -/
def Completes (s t : State) : Prop :=
  { t with
    rings := { t.rings with rings := s.rings.rings, cmds := s.rings.cmds, done := s.rings.done }
    pcie := { t.pcie with ats := s.pcie.ats, atsAsked := s.pcie.atsAsked }, out := s.out } = s

namespace Completes

variable {s t u : State}

theorem refl (s : State) : Completes s s := rfl

theorem trans (h : Completes s t) (k : Completes t u) : Completes s u :=
  (congrArg (fun x : State => { x with
    rings := { x.rings with rings := s.rings.rings, cmds := s.rings.cmds, done := s.rings.done }
    pcie := { x.pcie with ats := s.pcie.ats, atsAsked := s.pcie.atsAsked }, out := s.out }) k :).trans h

theorem foldl {α : Type} {f : State → α → State} (hf : ∀ s x, Completes s (f s x)) : ∀ (l : List α) (s : State), Completes s (l.foldl f s)
  | [], s => refl s
  | x :: l, s => (hf s x).trans (foldl hf l (f s x))

theorem of_requests (h : Requests s t) : Completes s t :=
  (congrArg (fun x : State => { x with
    rings := { x.rings with rings := s.rings.rings, cmds := s.rings.cmds, done := s.rings.done } }) h :)

theorem modRing (s : State) (r : Nat) (f : Ring → Ring) : Completes s (modRing s r f) := rfl

theorem hostWrite (s : State) (a : Nat) (b : Bytes) : Completes s (hostWrite s a b) := of_requests (.hostWrite s a b)

theorem flushDone : ∀ (k : Nat) (s : State) (l : List (Nat × Bytes × Bytes)), Completes s (flushDone k s l)
  | 0, s, _ => refl s
  | _ + 1, s, [] => refl s
  | k + 1, s, (i, cmd, entry) :: l => by
    simp only [Machine.flushDone]
    split
    · refine trans ?_ (flushDone k _ l)
      have hput : Completes s (Machine.writeback (Machine.modRing (Machine.hostWrite s
          ((s.ring (completionRing i)).base + 32 * ((s.ring (completionRing i)).prod.toNat % max (s.ring (completionRing i)).size 1)) entry)
          (completionRing i) (fun g => { g.noted with prod := (s.ring (completionRing i)).prod + 1 })) (completionRing i)
          ((s.ring (completionRing i)).prod + 1)) :=
        ((hostWrite s _ _).trans (modRing _ _ _)).trans (of_requests (.writeback _ _ _))
      split
      · exact hput.trans (modRing _ _ _)
      · exact hput
    · refine trans ?_ (flushDone k _ l)
      exact rfl

theorem writeCompletions (s : State) : Completes s (writeCompletions s) := by
  refine trans ?_ (flushDone _ _ _)
  exact rfl

theorem completeOne (s : State) (c : Nat × Bytes) (x n m d : Nat) : Completes s (completeOne s c x n m d) := by
  refine trans ?_ (writeCompletions _)
  exact rfl

theorem sweepBad : ∀ (k : Nat) (s : State), Completes s (sweepBad k s)
  | 0, s => refl s
  | k + 1, s => by
    unfold Machine.sweepBad
    split
    · split
      · exact refl s
      · exact (completeOne s _ _ _ _ _).trans (sweepBad k _)
    · exact refl s

theorem complete (s : State) (c : Nat × Bytes) (x n m d : Nat) : Completes s (complete s c x n m d) :=
  (completeOne s c x n m d).trans (sweepBad _ _)

theorem outside (h : Completes s t) :
    { t with rings := s.rings, pcie := { t.pcie with ats := s.pcie.ats, atsAsked := s.pcie.atsAsked }, out := s.out } = s :=
  (congrArg (fun x : State => { x with rings := s.rings }) h :)

theorem rings (h : Completes s t) : { t.rings with rings := s.rings.rings, cmds := s.rings.cmds, done := s.rings.done } = s.rings :=
  (congrArg State.rings h :)

end Completes

/-! ## The completion entry -/

@[simp] theorem zeros_length (n : Nat) : (zeros n).length = n := List.length_replicate

@[simp] theorem le_length : ∀ n v : Nat, (le n v).length = n
  | 0, _ => rfl
  | n + 1, v => congrArg (· + 1) (le_length n (v / 256))

@[simp] theorem sub_length (b : Bytes) (o n : Nat) : (sub b o n).length = n := by
  simp only [sub, List.length_append, zeros_length, List.length_take, List.length_drop]
  omega

theorem ofLe_le : ∀ n v : Nat, ofLe (le n v) = v % 256 ^ n
  | 0, v => by simp [le, ofLe, Nat.mod_one]
  | n + 1, v => by
    have hbyte : (BitVec.ofNat 8 v).toNat = v % 256 := by simp
    rw [le, ofLe, ofLe_le n, hbyte, Nat.pow_succ', Nat.mod_mul]

theorem ofLe_zeros : ∀ n : Nat, ofLe (zeros n) = 0
  | 0 => rfl
  | n + 1 => by
    have ih := ofLe_zeros n
    rw [zeros] at ih ⊢
    rw [List.replicate_succ, ofLe, ih]
    rfl

theorem fld_append_left {a b : Bytes} {o n : Nat} (h : o + n ≤ a.length) : fld (a ++ b) o n = fld a o n := by
  unfold fld sub
  rw [List.drop_append_of_le_length (by omega), List.take_append_of_le_length (by simp; omega)]

theorem fld_append_right {a b : Bytes} {o n : Nat} (h : a.length ≤ o) : fld (a ++ b) o n = fld b (o - a.length) n := by
  unfold fld sub
  rw [List.drop_append, List.drop_of_length_le h, List.nil_append]

theorem fld_whole {a : Bytes} {n : Nat} (h : a.length = n) : fld a 0 n = ofLe a := by
  subst h
  simp [fld, sub, zeros]

/-- Table 11-11. -/
theorem complEntry_fields (cmd : Bytes) (status result mask detail : Nat) (hx : status < 2 ^ 8) (hr : result < 2 ^ 64) (hm : mask < 2 ^ 64)
    (hd : detail < 2 ^ 32) : let e := complEntry cmd status result mask detail
    e.length = 32 ∧ fld e 0 4 = fld cmd 4 4 ∧ fld e 4 1 = fld cmd 0 1 ∧ fld e 5 1 = status ∧ fld e 6 2 = 0 ∧ fld e 8 8 = result ∧
      fld e 16 8 = mask ∧ fld e 24 4 = detail ∧ fld e 28 4 = 0 := by
  have hsub (b : Bytes) (o n : Nat) : ofLe (sub b o n) = fld b o n := rfl
  dsimp only [complEntry]
  refine ⟨by simp, ?_⟩
  simp (disch := simp) only [fld_append_left, fld_append_right, fld_whole, List.length_append, sub_length, le_length, zeros_length, ofLe_le,
    ofLe_zeros, hsub, Nat.reduceAdd, Nat.reduceSub]
  simp only [true_and, and_true]
  refine ⟨?_, ?_, ?_, ?_⟩ <;> exact Nat.mod_eq_of_lt (by omega)

/-- Settles O27: what a completion touches, operation by operation, and the fields of its entry at their places. -/
theorem completionTouchesRingsAlone : Obligations.CompletionTouchesRingsAlone := by
  refine ⟨?_, fun cmd status result mask detail _ => complEntry_fields cmd status result mask detail⟩
  rintro s t k status result mask detail rfl
  have h := Completes.complete s k status result mask detail
  exact ⟨h.outside, h.rings⟩

/-! ## Write requests (R458, R468) -/

theorem translate_of_ats_off {s : State} (h : s.pcie.atsEn = false) (a : Nat) : translate s a = s := by
  unfold translate
  rw [h]
  rfl

theorem writeRequest_of_ats_off {s : State} (h : s.pcie.atsEn = false) (c : Nat × Bytes) :
    writeRequest s c = { s with out := s.out ++ [.hostWrite c.1 c.2] } := by
  simp only [writeRequest, translate_of_ats_off h, hostAddr, reqAttr, h]
  rfl

/-- A translation leaves its page in the cache. -/
theorem cachedPage_translate {s : State} (h : s.pcie.atsEn = true) (a : Nat) :
    cachedPage (translate s a) a = some ((cachedPage s a).getD (Config.translation s.pcie.atsAsked (a / 4096)).toNat) := by
  unfold translate
  rw [if_pos h]
  simp [cachedPage]

theorem hostAddr_translate {s : State} (h : s.pcie.atsEn = true) (a : Nat) :
    hostAddr (translate s a) a = (cachedPage s a).getD (Config.translation s.pcie.atsAsked (a / 4096)).toNat * 4096 + a % 4096 := by
  unfold hostAddr
  rw [(Requests.translate s a).atsEn, if_pos h, cachedPage_translate h]
  rfl

/-- A page in the cache is not asked for; any other is. -/
theorem translate_of_cached {s : State} {a p : Nat} (h : cachedPage s a = some p) :
    (translate s a).out = s.out ∧ (translate s a).pcie.atsAsked = s.pcie.atsAsked := by
  unfold translate
  split
  · simp [askPage, h]
  · exact ⟨rfl, rfl⟩

theorem translate_of_not_cached {s : State} {a : Nat} (hen : s.pcie.atsEn = true) (h : cachedPage s a = none) :
    (translate s a).out = s.out ++ [.translate (a / 4096)] ∧ (translate s a).pcie.atsAsked = s.pcie.atsAsked + 1 := by
  unfold translate
  rw [if_pos hen]
  simp [askPage, hen, h]

theorem writeRequest_of_ats_on {s : State} (h : s.pcie.atsEn = true) (c : Nat × Bytes) : writeRequest s c =
    { translate s c.1 with out := (translate s c.1).out ++ [.hostWrite (hostAddr (translate s c.1) c.1) c.2 { translated := true }] } := by
  have hattr : reqAttr (translate s c.1) = { translated := true } := by
    rw [reqAttr, (Requests.translate s c.1).atsEn, h]
  rw [writeRequest, hattr]
  rfl

theorem foldl_writeRequest_of_ats_off : ∀ (l : List (Nat × Bytes)) {s : State}, s.pcie.atsEn = false →
    l.foldl writeRequest s = { s with out := s.out ++ l.map (fun c => .hostWrite c.1 c.2) }
  | [], s, _ => by simp
  | c :: l, s, h => by
    have ih := foldl_writeRequest_of_ats_off l (s := { s with out := s.out ++ [.hostWrite c.1 c.2] }) h
    rw [List.foldl_cons, writeRequest_of_ats_off h, ih]
    simp

/-- A ring's fields have no part in a request. -/
theorem askPage_modRing (s : State) (r : Nat) (f : Ring → Ring) (a : Nat) : askPage (modRing s r f) a = modRing (askPage s a) r f := by
  unfold askPage
  by_cases h : (s.pcie.atsEn && (cachedPage s a).isNone) = true
  · rw [if_pos h]
    exact if_pos h
  · rw [if_neg h]
    exact if_neg h

theorem translate_modRing (s : State) (r : Nat) (f : Ring → Ring) (a : Nat) : translate (modRing s r f) a = modRing (translate s a) r f := by
  unfold translate
  rw [askPage_modRing]
  by_cases h : s.pcie.atsEn = true
  · rw [if_pos h]
    exact if_pos h
  · rw [if_neg h]
    exact if_neg h

theorem writeRequest_modRing (s : State) (r : Nat) (f : Ring → Ring) (c : Nat × Bytes) :
    writeRequest (modRing s r f) c = modRing (writeRequest s c) r f := by
  unfold writeRequest
  rw [translate_modRing]
  rfl

theorem foldl_writeRequest_modRing (r : Nat) (f : Ring → Ring) : ∀ (l : List (Nat × Bytes)) (s : State),
    l.foldl writeRequest (modRing s r f) = modRing (l.foldl writeRequest s) r f
  | [], _ => rfl
  | c :: l, s => by rw [List.foldl_cons, writeRequest_modRing, foldl_writeRequest_modRing r f l, List.foldl_cons]

theorem Requests.mps {s t : State} (h : Requests s t) : t.mps = s.mps := (congrArg State.mps h :)

/-! ## Envelopes (R342, R345, R351, R352) -/

theorem padBytes_length (g : Ring) (u : Nat) (e : Envelope) : (padBytes g u e).length = 32 := by
  have h : ∀ n : Nat, 32 ≤ roundUp 32 (32 + n) := fun n => by
    simp only [roundUp]
    omega
  simp only [padBytes, Envelope.bytes, List.length_take, sub_length, Envelope.length]
  exact Nat.min_eq_left (h _)

/-- The write requests of an envelope placed into a ring: its PAD, the envelope, and PROD. -/
def putChunks (s : State) (g : Ring) (e : Envelope) : List (Nat × Bytes) :=
  (if padUnits g e.length = 0 then [] else
    writeChunks s.mps 32 (g.base + 32 * (g.prod.toNat % max g.size 1)) (padBytes g (padUnits g e.length) e)) ++
  writeChunks s.mps (e.bytes g.seq).length
    (g.base + 32 * (if padUnits g e.length = 0 then g.prod.toNat % max g.size 1 else 0)) (e.bytes g.seq) ++
  writeChunks s.mps 8 g.wb (le 4 (g.prod + BitVec.ofNat 32 (padUnits g e.length + e.length / 32)).toNat ++ zeros 4)

/-- An envelope placed: its requests go out, and the ring moves over it. -/
theorem putEnvelope_eq (s : State) (r : Nat) (e : Envelope) : putEnvelope s r e =
    modRing ((putChunks s (s.ring r) e).foldl writeRequest s) r (fun g => { g.noted with
      prod := (s.ring r).prod + BitVec.ofNat 32 (padUnits (s.ring r) e.length + e.length / 32), seq := g.seq + 1 }) := by
  have hwb (t : State) (p : Word32) : writeback t r p = (writeChunks t.mps 8 (t.ring r).wb (le 4 p.toNat ++ zeros 4)).foldl writeRequest t := rfl
  simp only [putEnvelope, hwb, ring_modRing_self, foldl_writeRequest_modRing]
  unfold putChunks
  rw [List.foldl_append, List.foldl_append]
  have hmps (t : State) (f : Ring → Ring) : (modRing t r f).mps = t.mps := rfl
  by_cases hpad : padUnits (s.ring r) e.length = 0
  · simp only [if_pos hpad, hmps, (Requests.hostWrite _ _ _).mps, (Requests.hostWrite _ _ _).ring, Ring.noted, List.foldl_nil]
    rfl
  · simp only [if_neg hpad, hmps, (Requests.hostWrite _ _ _).mps, (Requests.hostWrite _ _ _).ring, Ring.noted]
    simp only [hostWrite, padBytes_length, (Requests.foldl Requests.writeRequest _ _).mps]

/-- Settles O22: an envelope is its write requests and a move of its ring (`putEnvelope_eq`). -/
theorem envelopePlacedWhole : Obligations.EnvelopePlacedWhole := by
  refine ⟨?envelope, ?request⟩
  case envelope =>
    intro s t r e ht
    have heq := putEnvelope_eq s r e
    rw [← ht] at heq
    have hreq : Requests s ((putChunks s (s.ring r) e).foldl writeRequest s) := .foldl .writeRequest _ s
    dsimp only
    have hring : t.ring r = { (s.ring r).noted with
        prod := (s.ring r).prod + BitVec.ofNat 32 (padUnits (s.ring r) e.length + e.length / 32), seq := (s.ring r).seq + 1 } := by
      rw [heq, ring_modRing_self]
      exact congrArg (fun g : Ring => { g.noted with
        prod := (s.ring r).prod + BitVec.ofNat 32 (padUnits (s.ring r) e.length + e.length / 32), seq := g.seq + 1 }) (hreq.ring r)
    refine ⟨by rw [hring], by rw [hring], by rw [hring]; rfl, by rw [hring]; rfl, ?_, fun r' h => ?_, ?_⟩
    · intro l hl
      have hl' : l = putChunks s (s.ring r) e := by rw [hl, hring, putChunks]
      subst hl'
      refine ⟨by rw [heq, modRing_out], by rw [heq, modRing_pcie], fun hoff => ?_⟩
      rw [heq, foldl_writeRequest_of_ats_off _ hoff]
      exact ⟨rfl, rfl⟩
    · rw [heq, ring_modRing_ne _ _ h, hreq.ring]
    · rw [heq]
      exact (Completes.of_requests hreq |>.trans (.modRing _ _ _)).outside
  case request =>
    rintro s t u c rfl rfl
    refine ⟨fun h => writeRequest_of_ats_off h c, fun h => ?_⟩
    have haddr := hostAddr_translate h c.1
    refine ⟨writeRequest_of_ats_on h c, fun p hp => ?_, fun hno => ?_, ?_, Requests.translate s c.1⟩
    · obtain ⟨hout, hasked⟩ := translate_of_cached hp
      exact ⟨by rw [haddr, hp]; rfl, hout, hasked⟩
    · obtain ⟨hout, hasked⟩ := translate_of_not_cached h hno
      exact ⟨by rw [haddr, hno]; rfl, hout, hasked⟩
    · rw [haddr, cachedPage_translate h]
      congr 1
      omega

end Sys2Proof.Machine
end

