-- ==== Sys2Proof/Proofs/Commands.lean ====
section
/-!
PROOFS. The start of a command and the general checks of it (R361, R363): each row completes with the first check that fails, or goes on
with its own effect.
-/
namespace Sys2Proof.Machine

/-! ## The start of a command -/

section
variable {s : State} {c : Cmd} {op : Nat}

theorem startCmd_of_startsNext {p : Bytes → Bool} {k : State → Nat × Bytes → State} (h : startsNext s op c) (hp : p c.entry = true) :
    startCmd s p k = .next (k (afterStart s c) c.key) := by
  obtain ⟨hnext, hclock, -⟩ := h
  unfold startCmd
  rw [hnext]
  exact if_pos (by rw [hclock, hp]; rfl)

theorem startCmd_of_op {k : State → Nat × Bytes → State} (h : startsNext s op c) :
    startCmd s (fun e => opOf e = op) k = .next (k (afterStart s c) c.key) :=
  startCmd_of_startsNext h (decide_eq_true h.2.2)

theorem afterStart_windowAfter : (afterStart s c).windowAfter = s.windowAfter := rfl

/-! ## The general checks of each opcode (R363) -/

theorem firstCheck_of_bare {e : Bytes} (h : opOf e = 0x00 ∨ opOf e = 0x70) : firstCheck s e = judge s e [] true true true := by
  rcases h with h | h <;> simp [firstCheck, h]

theorem firstCheck_of_seq {e : Bytes} (h : opOf e = 0x01 ∨ opOf e = 0x02 ∨ opOf e = 0x03) : firstCheck s e =
    judge s e [(8, 1)] true (s.permits 0 && (match s.cfg.seq? (fld e 8 1) with
      | some q => q.hostOpen
      | none => true)) (s.cfg.seq? (fld e 8 1)).isSome := by
  rcases h with h | h | h <;> simp [firstCheck, h] <;> rfl

theorem firstCheck_of_spanRead {e : Bytes} (h : opOf e = 0x10) : firstCheck s e =
    judge s e [(8, 4), (12, 2), (16, 8), (24, 4), (28, 4)] true (s.permits 1)
      ((storedStreams s.cfg).contains (fld e 8 4) && (s.cfg.ring? (fld e 12 2)).isSome && decide (fld e 16 8 < 2 ^ 40)) := by
  simp [firstCheck, h]

theorem firstCheck_of_compress {k : Nat} {e : Bytes} (h : opOf e = 0x20) : firstCheck s e = jobJudge false s (k, e) := by
  simp [firstCheck, h, jobJudge]
  rfl

theorem firstCheck_of_decompress {k : Nat} {e : Bytes} (h : opOf e = 0x21) : firstCheck s e = jobJudge true s (k, e) := by
  simp [firstCheck, h, jobJudge]
  rfl

theorem firstCheck_of_statsRead {e : Bytes} (h : opOf e = 0x30) : firstCheck s e = judge s e [(8, 1), (12, 4), (16, 8)]
    (decide (4 ≤ fld e 8 1) && decide (fld e 8 1 ≤ 7)) (s.permits 4) (decide (fld e 12 4 ≤ 65536)) := by
  simp [firstCheck, h]

theorem firstCheck_of_planSwitch {e : Bytes} (h : opOf e = 0x40) :
    firstCheck s e = judge s e [(8, 1)] true (s.permits 5) (s.cfg.plan? (fld e 8 1)).isSome := by
  simp [firstCheck, h]

theorem firstCheck_of_timePref {e : Bytes} (h : opOf e = 0x41) : firstCheck s e = judge s e [(8, 1)] (decide (fld e 8 1 ≤ 2))
    (s.permits 6) (fld e 8 1 = 2 || (s.cfg.dom (fld e 8 1)).source ≠ 0) := by
  simp [firstCheck, h]

theorem firstCheck_of_bankAssign {e : Bytes} (h : opOf e = 0x50) :
    firstCheck s e = judge s e [(8, 1), (10, 2)] true true (decide (fld e 8 1 < 136)) := by
  simp [firstCheck, h]

theorem firstCheck_of_ringReset {e : Bytes} (h : opOf e = 0x51) : firstCheck s e =
    judge s e [(8, 2)] true true (fld e 8 2 = dlRing || (rkind (fld e 8 2) = 3 && (s.cfg.ring? (fld e 8 2 - 7680)).isSome)) := by
  simp [firstCheck, h]

theorem firstCheck_of_groupPower {e : Bytes} (h : opOf e = 0x60) : firstCheck s e =
    judge s e [(8, 1), (9, 1)] (decide (fld e 9 1 ≤ 1)) (s.permits 7) (s.cfg.group? (fld e 8 1)).isSome := by
  simp [firstCheck, h]

/-! ## Each command with its checks -/

theorem exec_nop (h : startsNext s 0x00 c) :
    exec .nop s = .next (orRefuse (afterStart s c) c.key (firstCheck s c.entry) (fun s => complete s c.key 0 0)) := by
  rw [firstCheck_of_bare (.inl h.2.2)]
  change execNop s = _
  unfold execNop
  rw [startCmd_of_op h]
  rfl

/-- The sequencer command of an action waits for its frame. -/
def seqWaits (c : Cmd) (act : Nat) (t : State) : State :=
  { t with seqCmds := t.seqCmds ++ [{ ring := c.ring, entry := c.entry, act := act, seq := fld c.entry 8 1
                                      m := t.firstRun.map (fun r => max r t.windowAfter) }] }

theorem exec_seqCommand {i : Instr} {act : Nat} (hi : (i, act) ∈ [(Instr.seqArm, 1), (Instr.seqDisarm, 2), (Instr.seqForce, 3)])
    (h : startsNext s act c) : exec i s = .next (orRefuse (afterStart s c) c.key (firstCheck s c.entry) (seqWaits c act)) := by
  have hop := h.2.2
  simp only [List.mem_cons, Prod.mk.injEq, List.not_mem_nil, or_false] at hi
  rw [firstCheck_of_seq (by omega)]
  rcases hi with ⟨rfl, rfl⟩ | ⟨rfl, rfl⟩ | ⟨rfl, rfl⟩
  · change execSeqArm s = _
    unfold execSeqArm
    rw [startCmd_of_op h]
    rfl
  · change execSeqDisarm s = _
    unfold execSeqDisarm
    rw [startCmd_of_op h]
    rfl
  · change execSeqForce s = _
    unfold execSeqForce
    rw [startCmd_of_op h]
    rfl

theorem exec_timePref (h : startsNext s 0x41 c) : exec .timePref s = .next (orRefuse (afterStart s c) c.key (firstCheck s c.entry)
    (fun s => { s with time := { s.time with prefCmds := s.time.prefCmds ++ [c.key] } })) := by
  rw [firstCheck_of_timePref h.2.2]
  change execTimePref s = _
  unfold execTimePref
  rw [startCmd_of_op h]
  rfl

/-- The effect of a SPAN_READ that its checks let pass (R247). -/
def spanBegins (c : Cmd) (s : State) : State :=
  if fld c.entry 24 4 = 0 then complete s c.key 1 0
  else match spanFrames s (fld c.entry 8 4) (fld c.entry 16 8) (fld c.entry 24 4) with
    | none => complete s c.key 8 0
    | some (a, b) => pushReady { s with banks := { s.banks with readouts := s.banks.readouts + 1 } } (deliveryRing (fld c.entry 12 2))
        [.readout { cmd := c.key, stream := fld c.entry 8 4, next := a, last := b, tag := fld c.entry 28 4, written := 0
                    serial := s.banks.readouts }]

theorem exec_spanRead (h : startsNext s 0x10 c) :
    exec .spanRead s = .next (orRefuse (afterStart s c) c.key (firstCheck s c.entry) (spanBegins c)) := by
  rw [firstCheck_of_spanRead h.2.2]
  change execSpanRead s = _
  unfold execSpanRead
  rw [startCmd_of_op h]
  rfl

/-- A job command is judged before it is counted. -/
theorem jobStart_eq (inflate : Bool) (s : State) (c : Nat × Bytes) : jobStart inflate s c =
    orRefuse (if jobJudge inflate s c = some 8 then countFail s 8 else s) c (jobJudge inflate s c) (fun t => jobBegin t (jobOf s c inflate)) := by
  unfold jobStart
  by_cases h : jobJudge inflate s c = some 8
  · simp only [if_pos h]
    rfl
  · simp only [if_neg h]

theorem exec_compress (h : startsNext s 0x20 c) (hissue : s.canIssue = true) : exec .compress s =
    .next (orRefuse (if firstCheck s c.entry = some 8 then countFail (afterStart s c) 8 else afterStart s c) c.key (firstCheck s c.entry)
      (fun t => jobBegin t (jobOf (afterStart s c) c.key false))) := by
  rw [firstCheck_of_compress (k := c.ring) h.2.2]
  refine (if_pos hissue).trans ?_
  rw [startCmd_of_op h, jobStart_eq]
  rfl

theorem exec_decompress (h : startsNext s 0x21 c) (hissue : s.canIssue = true) : exec .decompress s =
    .next (orRefuse (if firstCheck s c.entry = some 8 then countFail (afterStart s c) 8 else afterStart s c) c.key (firstCheck s c.entry)
      (fun t => jobBegin t (jobOf (afterStart s c) c.key true))) := by
  rw [firstCheck_of_decompress (k := c.ring) h.2.2]
  refine (if_pos hissue).trans ?_
  rw [startCmd_of_op h, jobStart_eq]
  rfl

/-- The effect of a STATS_READ that its checks let pass (R469). -/
def statsBegins (how : ReadEnd) (c : Cmd) (s : State) : State :=
  if fld c.entry 12 4 = 0 then complete s c.key 1 0
  else if how == ReadEnd.translationError && s.pcie.atsEn then complete s c.key 5 0 512
  else complete (hostWrite s (fld c.entry 16 8) (statsBytes s (fld c.entry 8 1) (fld c.entry 12 4))) c.key 0 (fld c.entry 12 4)

theorem exec_statsRead {how : ReadEnd} (h : startsNext s 0x30 c) (hissue : s.canIssue = true) :
    exec (.statsRead how) s = .next (orRefuse (afterStart s c) c.key (firstCheck s c.entry) (statsBegins how c)) := by
  rw [firstCheck_of_statsRead h.2.2]
  refine (if_pos hissue).trans ?_
  rw [startCmd_of_op h]
  rfl

/-- The effect of a PLAN_SWITCH that its checks let pass (Table 14-5). -/
def planBegins (c : Cmd) (s : State) : State :=
  if !bit s.cfg.host.planMask (fld c.entry 8 1) then complete s c.key 6 0
  else if fld c.entry 8 1 = s.clocks.plan && planAt s (s.time.ticks + 1) = fld c.entry 8 1 then complete s c.key 0 0
  else if ((s.cfg.plan? (fld c.entry 8 1)).getD {}).conf == s.planNow.conf then
    (if s.clocks.pllS.lock && s.clocks.pllC.lock then
      { s with clocks := { s.clocks with pending := s.clocks.pending ++ [(fld c.entry 8 1, s.time.ticks + 1, c.ring, c.entry)] } }
    else complete s c.key 5 0)
  else complete { s with clocks := { s.clocks with deferred := some (fld c.entry 8 1) } } c.key 0 1

theorem exec_planSwitch (h : startsNext s 0x40 c) :
    exec .planSwitch s = .next (orRefuse (afterStart s c) c.key (firstCheck s c.entry) (planBegins c)) := by
  rw [firstCheck_of_planSwitch h.2.2]
  change execPlanSwitch s = _
  unfold execPlanSwitch
  rw [startCmd_of_op h]
  rfl

theorem exec_bankAssign (h : startsNext s 0x50 c) : exec .bankAssign s = .next (orRefuse (afterStart s c) c.key (firstCheck s c.entry)
    (fun s => complete (assignBank s (fld c.entry 8 1) (fld c.entry 10 2)).1 c.key
      (if (assignBank s (fld c.entry 8 1) (fld c.entry 10 2)).2 then 0 else 6) 0)) := by
  rw [firstCheck_of_bankAssign h.2.2]
  change execBankAssign s = _
  unfold execBankAssign
  rw [startCmd_of_op h]
  rfl

theorem exec_ringReset (h : startsNext s 0x51 c) : exec .ringReset s = .next (orRefuse (afterStart s c) c.key (firstCheck s c.entry)
    (fun s => complete (if fld c.entry 8 2 = dlRing then resetDeadLetter s else resetRing s (fld c.entry 8 2)) c.key 0
      (stagedOf (s.ring (fld c.entry 8 2)).ready).length)) := by
  rw [firstCheck_of_ringReset h.2.2]
  change execRingReset s = _
  unfold execRingReset
  rw [startCmd_of_op h]
  rfl

/-- The effect of a GROUP_POWER that its checks let pass; `k` is that on a group in service without a power command. -/
def powerBegins (c : Cmd) (k : State → Nat → State) (s : State) : State :=
  if !bit s.cfg.host.groupMask (fld c.entry 8 1) then complete s c.key 6 0
  else if (s.group (fld c.entry 8 1)).powerCmd.isSome then complete s c.key 7 0
  else if s.fenced 0x01 (fld c.entry 8 1) then complete s c.key 5 0 (2 ^ fld c.entry 8 1)
  else k s (fld c.entry 8 1)

/-- The way down (R143, R145). -/
def powerDown (c : Cmd) (s : State) (g : Nat) : State :=
  if (s.group g).state == GState.down then complete s c.key 0 0
  else modGroup s g (fun e => { e with powerCmd := some c.key, downAt := some s.time.ticks })

/-- The way up (R144). -/
def powerUp (r : GroupBoot) (c : Cmd) (s : State) (g : Nat) : State :=
  if !((s.group g).state == GState.down) then complete s c.key 0 0
  else match bootFailure s r with
    | some (_, cause) =>
      complete (detect (modGroup (noteFuse s r) g (fun e => { e with powerCmd := none })) ⟨0x01, g⟩ cause 0
        (faultFrameNow (modGroup (noteFuse s r) g (fun e => { e with powerCmd := none })) 1)) c.key 5 0 (2 ^ g)
    | none => joinLater (modGroup (recordUnused (islandReady s r .settling) r) g (fun e => { e with powerCmd := some c.key })) g

theorem exec_groupPowerDown (h : startsNext s 0x60 c) (hdown : fld c.entry 9 1 ≠ 1) : exec .groupPowerDown s =
    .next (orRefuse (afterStart s c) c.key (firstCheck s c.entry) (powerBegins c (powerDown c))) := by
  rw [firstCheck_of_groupPower h.2.2]
  have hp : (fun e => opOf e = 0x60 && fld e 9 1 ≠ 1) c.entry = true := by simp [h.2.2, hdown]
  change execGroupPowerDown s = _
  unfold execGroupPowerDown
  rw [startCmd_of_startsNext h hp]
  rfl

theorem exec_groupPowerUp {r : GroupBoot} (h : startsNext s 0x60 c) (hup : fld c.entry 9 1 = 1)
    (hg : fld c.entry 8 1 = r.group ∨ 16 ≤ fld c.entry 8 1) : exec (.groupPowerUp r) s =
    .next (orRefuse (afterStart s c) c.key (firstCheck s c.entry) (powerBegins c (powerUp r c))) := by
  rw [firstCheck_of_groupPower h.2.2]
  have hp : (fun e => opOf e = 0x60 && fld e 9 1 = 1 && (fld e 8 1 = r.group || decide (16 ≤ fld e 8 1))) c.entry = true := by
    simp [h.2.2, hup, hg]
  change execGroupPowerUp r s = _
  unfold execGroupPowerUp
  rw [startCmd_of_startsNext h hp]
  rfl

/-- A REBIND that is refused lets fetching go on (R105). -/
def rebindRefused (c : Cmd) (status : Nat) (s : State) : State :=
  complete { s with rings := { s.rings with fetchStop := false } } c.key status 0

theorem exec_rebind (h : startsNext s 0x70 c) : exec .rebind s = .next (match firstCheck s c.entry with
    | some x => rebindRefused c x (afterStart s c)
    | none =>
      if (s.boot.state == ModState.running || s.boot.state == ModState.arming) && s.boot.phase == RebindPhase.none then
        beginReading (afterStart s c) (some c.key)
      else rebindRefused c 7 (afterStart s c)) := by
  rw [firstCheck_of_bare (.inr h.2.2)]
  change execRebind s = _
  unfold execRebind
  rw [startCmd_of_op h]
  rfl

end

/-! ## Refused commands -/

/-- A command with no count of its refusals ends with its first failing check. -/
theorem exec_refused {s : State} {c : Cmd} {i : Instr} {x op : Nat} {k : State → State} (hcheck : firstCheck s c.entry = some x)
    (h : startsNext s op c) (hop : op ≠ 0x20 ∧ op ≠ 0x21 ∧ op ≠ 0x70)
    (hexec : exec i s = .next (orRefuse (afterStart s c) c.key (firstCheck s c.entry) k)) :
    exec i s = .next (complete (if x = 8 ∧ (opOf c.entry = 0x20 ∨ opOf c.entry = 0x21) then countFail (afterStart s c) 8
      else if opOf c.entry = 0x70 then { afterStart s c with rings := { (afterStart s c).rings with fetchStop := false } }
      else afterStart s c) c.key x 0) := by
  obtain ⟨hspan, hinflate, hrebind⟩ := hop
  rw [hexec, hcheck, h.2.2]
  simp [orRefuse, hspan, hinflate, hrebind]

/-- Settles O26: each row answers the first check that fails. -/
theorem refusedCommandCompletes : Obligations.RefusedCommandCompletes := by
  rintro s u c i x hrow hcheck rfl
  unfold commandRow at hrow
  split at hrow
  case h_1 => exact exec_refused hcheck hrow (by decide) (exec_nop hrow)
  case h_2 => exact exec_refused hcheck hrow (by decide) (exec_seqCommand (act := 1) (by simp) hrow)
  case h_3 => exact exec_refused hcheck hrow (by decide) (exec_seqCommand (act := 2) (by simp) hrow)
  case h_4 => exact exec_refused hcheck hrow (by decide) (exec_seqCommand (act := 3) (by simp) hrow)
  case h_5 => exact exec_refused hcheck hrow (by decide) (exec_spanRead hrow)
  case h_6 =>
    rw [exec_compress hrow.1 hrow.2, hcheck]
    simp [orRefuse, hrow.1.2.2]
  case h_7 =>
    rw [exec_decompress hrow.1 hrow.2, hcheck]
    simp [orRefuse, hrow.1.2.2]
  case h_8 => exact exec_refused hcheck hrow.1 (by decide) (exec_statsRead hrow.1 hrow.2)
  case h_9 => exact exec_refused hcheck hrow (by decide) (exec_planSwitch hrow)
  case h_10 => exact exec_refused hcheck hrow (by decide) (exec_timePref hrow)
  case h_11 => exact exec_refused hcheck hrow (by decide) (exec_bankAssign hrow)
  case h_12 => exact exec_refused hcheck hrow (by decide) (exec_ringReset hrow)
  case h_13 => exact exec_refused hcheck hrow.1 (by decide) (exec_groupPowerDown hrow.1 hrow.2)
  case h_14 => exact exec_refused hcheck hrow.1 (by decide) (exec_groupPowerUp hrow.1 hrow.2.1 hrow.2.2)
  case h_15 =>
    rw [exec_rebind hrow, hcheck]
    simp [rebindRefused, hrow.2.2]
  case h_16 => exact hrow.elim

end Sys2Proof.Machine
end

