-- ==== Sys2Proof/Proofs/CommandEffects.lean ====
section
/-!
PROOFS. The effects of the commands that their checks let pass: NOP, the SEQ_ commands and TIME_PREF (R181, R182, R412), BANK_ASSIGN (R330),
RING_RESET, SPAN_READ and STATS_READ (R247, R359, R469), PLAN_SWITCH (R448 to R450) and GROUP_POWER (R143 to R145).
-/
namespace Sys2Proof.Machine

/-! ## What a completion keeps -/

section
variable (s : State) (c : Nat × Bytes) (x n m d : Nat)

@[simp] theorem complete_clocks : (complete s c x n m d).clocks = s.clocks := (congrArg State.clocks (Completes.complete s c x n m d) :)

@[simp] theorem complete_field : (complete s c x n m d).field = s.field := (congrArg State.field (Completes.complete s c x n m d) :)

@[simp] theorem complete_time : (complete s c x n m d).time = s.time := (congrArg State.time (Completes.complete s c x n m d) :)

@[simp] theorem complete_boot : (complete s c x n m d).boot = s.boot := (congrArg State.boot (Completes.complete s c x n m d) :)

@[simp] theorem complete_group (g : Nat) : (complete s c x n m d).group g = s.group g :=
  (congrArg (fun t : State => t.group g) (Completes.complete s c x n m d) :)

end

/-! ## Commands that complete or wait -/

/-- Settles O29: a command that passes its checks takes the effect of its row, which waits or completes. -/
theorem waitingCommandRows : Obligations.WaitingCommandRows := by
  intro s c hcheck
  refine ⟨fun h => ?_, fun i act hi h => ?_, fun h => ?_⟩
  · rw [exec_nop h, hcheck]
    rfl
  · rw [exec_seqCommand hi h, hcheck, orRefuse, seqWaits, afterStart_windowAfter]
    rfl
  · rw [exec_timePref h, hcheck]
    rfl

/-! ## Rings, spans and statistics -/

/-- Settles O31: each command that passes its checks takes one branch of its effect, by its length and by what it finds. -/
theorem ringAndReadCommandRows : Obligations.RingAndReadCommandRows := by
  intro s c hcheck
  refine ⟨?reset, ?span, ?stats⟩
  case reset =>
    rintro h r rfl
    rw [exec_ringReset h, hcheck]
    rfl
  case span =>
    intro h
    rw [exec_spanRead h, hcheck]
    have hframes (a b n : Nat) : spanFrames (afterStart s c) a b n = spanFrames s a b n := rfl
    refine ⟨fun h0 => ?_, fun h0 hnone => ?_, fun a b h0 hsome => ?_⟩
    · rw [orRefuse, spanBegins, if_pos h0]
    · rw [orRefuse, spanBegins, if_neg h0, hframes, hnone]
    · rw [orRefuse, spanBegins, if_neg h0, hframes, hsome]
      rfl
  case stats =>
    intro h hissue
    refine ⟨fun how h0 => ?_, fun how h0 hhow => ?_, fun h0 hats => ?_⟩ <;> rw [exec_statsRead h hissue, hcheck, orRefuse, statsBegins]
    · rw [if_pos h0]
    · rw [if_neg h0, if_neg (by simp [hhow])]
      rfl
    · rw [if_neg h0, if_pos (by rw [afterStart_pcie, hats]; rfl)]

/-! ## The owners of host-pool banks (R330) -/

theorem mayAssign_iff {s : State} {b o : Nat} : mayAssign s b o = true ↔
    b ∈ s.banks.pool ∧ (o = 1 ∨ 0x10 ≤ o ∧ o ≤ 0x1F) ∧ s.fenced 0x06 b = false ∧ s.banks.zeroing = false := by
  simp only [mayAssign, Bool.and_eq_true, List.contains_iff_mem, Bool.or_eq_true, decide_eq_true_eq, Bool.not_eq_true', and_assoc]

theorem assignBank_of_may {s : State} {b o : Nat} (h : mayAssign s b o = true) :
    assignBank s b o = ({ s with banks := { s.banks with owner := tput s.banks.owner b o } }, true) := if_pos h

theorem assignBank_of_not {s : State} {b o : Nat} (h : mayAssign s b o = false) :
    assignBank s b o = ({ s with banks := { s.banks with denied := satAdd 32 s.banks.denied 1 } }, false) :=
  if_neg (by rw [h]; exact Bool.false_ne_true)

/-- Settles O30: `mayAssign` is the condition of the statement, for the write and for the command alike. -/
theorem bankOwnerRows : Obligations.BankOwnerRows := by
  intro s b o may hmay
  have hyes (h : may) : mayAssign s b o = true := mayAssign_iff.mpr (hmay.mp h)
  have hno (h : ¬may) : mayAssign s b o = false := Bool.eq_false_iff.mpr fun h' => h (hmay.mpr (mayAssign_iff.mp h'))
  refine ⟨fun hb ho hopen hbound => ?write, ?assign⟩
  case write =>
    have hexec : exec (.bankOwnerWrite b o) s = .next (assignBank s b o).1 := by
      change execBankOwnerWrite b o s = _
      rw [execBankOwnerWrite, if_neg (by omega), boundWrite_of_isBound hopen hbound, Nat.mod_eq_of_lt ho]
    exact ⟨fun h => by rw [hexec, assignBank_of_may (hyes h)], fun h => by rw [hexec, assignBank_of_not (hno h)]⟩
  case assign =>
    rintro c u h hcheck rfl rfl rfl
    have hafter : mayAssign (afterStart s c) (fld c.entry 8 1) (fld c.entry 10 2) =
        mayAssign s (fld c.entry 8 1) (fld c.entry 10 2) := rfl
    rw [exec_bankAssign h, hcheck, orRefuse]
    exact ⟨fun hm => by rw [assignBank_of_may (hafter.trans (hyes hm))]; rfl,
      fun hm => by rw [assignBank_of_not (hafter.trans (hno hm))]; rfl⟩

/-! ## PLAN_SWITCH (R448 to R450) -/

/-- What the settings of a group leave behind does not reach the clocks. -/
theorem exchange_clocks (s : State) (g : Nat) (l : List (Nat × Bytes)) : (exchange s g l).clocks = s.clocks := rfl

theorem foldl_clocks {α : Type} {f : State → α → State} (hf : ∀ s x, (f s x).clocks = s.clocks) :
    ∀ (l : List α) (s : State), (l.foldl f s).clocks = s.clocks
  | [], _ => rfl
  | x :: l, s => (foldl_clocks hf l (f s x)).trans (hf s x)

theorem applySettings_clocks (s : State) (g : Nat) : (applySettings s g).clocks = s.clocks := by
  unfold applySettings followAll
  refine (foldl_clocks ?_ _ _).trans rfl
  intro s x
  rfl

theorem sendSettings_clocks (s : State) (g : Nat) : (sendSettings s g).clocks = s.clocks := by
  unfold sendSettings
  exact applySettings_clocks _ _

/-- The plan in force and the switches, as the operations of a switch leave them. -/
def samePlan (c d : Clocks) : Prop := d.plan = c.plan ∧ d.switches = c.switches ∧ d.pending = c.pending

theorem startOutputs_samePlan (s : State) (t : Nat) : samePlan s.clocks (startOutputs s t).clocks := by
  unfold startOutputs
  dsimp only
  split <;> exact ⟨rfl, rfl, rfl⟩

/-- A switch brings its plan into force and counts one (R450). -/
theorem applyPlan_clocks (s : State) (p c : Nat) : (applyPlan s p c).clocks.plan = p ∧
    (applyPlan s p c).clocks.switches = satAdd 32 s.clocks.switches 1 ∧ (applyPlan s p c).clocks.pending = s.clocks.pending := by
  unfold applyPlan
  dsimp only
  rw [foldl_clocks (fun t g => by split; exacts [sendSettings_clocks t g, rfl])]
  exact startOutputs_samePlan _ _

section
variable {s : State} {c : Cmd}

theorem planBegins_denied (hmask : bit s.cfg.host.planMask (fld c.entry 8 1) = false) : planBegins c s = complete s c.key 6 0 := by
  rw [planBegins, if_pos (by rw [hmask]; rfl)]

variable (hmask : bit s.cfg.host.planMask (fld c.entry 8 1) = true)
include hmask

theorem planBegins_in_force (hp : fld c.entry 8 1 = s.clocks.plan) (hat : planAt s (s.time.ticks + 1) = fld c.entry 8 1) :
    planBegins c s = complete s c.key 0 0 := by
  rw [planBegins, if_neg (by simp [hmask]), if_pos (by simp [hp, hat])]

variable {q : PlanQ} (hq : s.cfg.plan? (fld c.entry 8 1) = some q)
  (hp : fld c.entry 8 1 ≠ s.clocks.plan ∨ planAt s (s.time.ticks + 1) ≠ fld c.entry 8 1)
include hq hp

theorem planBegins_deferred (hconf : q.conf ≠ s.planNow.conf) :
    planBegins c s = complete { s with clocks := { s.clocks with deferred := some (fld c.entry 8 1) } } c.key 0 1 := by
  rw [planBegins, if_neg (by simp [hmask]), if_neg (by simpa [imp_iff_not_or] using hp), if_neg (by simp [hq, hconf])]

variable (hconf : q.conf = s.planNow.conf)
include hconf

theorem planBegins_without_lock (hlock : (s.clocks.pllS.lock && s.clocks.pllC.lock) = false) :
    planBegins c s = complete s c.key 5 0 := by
  rw [planBegins, if_neg (by simp [hmask]), if_neg (by simpa [imp_iff_not_or] using hp), if_pos (by simp [hq, hconf]),
    if_neg (by simp [hlock])]

theorem planBegins_waits (hs : s.clocks.pllS.lock = true) (hc : s.clocks.pllC.lock = true) : planBegins c s =
    { s with clocks := { s.clocks with pending := s.clocks.pending ++ [(fld c.entry 8 1, s.time.ticks + 1, c.ring, c.entry)] } } := by
  rw [planBegins, if_neg (by simp [hmask]), if_neg (by simpa [imp_iff_not_or] using hp), if_pos (by simp [hq, hconf]),
    if_pos (by simp [hs, hc])]

end

/-- The switches of a tick take effect together: the last of them brings its plan into force. -/
def switchAt (s : State) (c : Nat) : State :=
  if planAt s c = s.clocks.plan then
    { s with clocks := { s.clocks with pending := s.clocks.pending.filter (fun e => e.2.1 ≠ c) } }
  else applyPlan { s with clocks := { s.clocks with pending := s.clocks.pending.filter (fun e => e.2.1 ≠ c) } } (planAt s c) c

theorem switchAt_clocks (s : State) (c : Nat) : (switchAt s c).clocks.plan = planAt s c ∧
    (switchAt s c).clocks.pending = s.clocks.pending.filter (fun e => e.2.1 ≠ c) ∧
    (switchAt s c).clocks.switches = if planAt s c = s.clocks.plan then s.clocks.switches else satAdd 32 s.clocks.switches 1 := by
  unfold switchAt
  split
  · rename_i h
    exact ⟨h.symm, rfl, rfl⟩
  · obtain ⟨hplan, hcount, hwaits⟩ :=
      applyPlan_clocks { s with clocks := { s.clocks with pending := s.clocks.pending.filter (fun e => e.2.1 ≠ c) } } (planAt s c) c
    exact ⟨hplan, hwaits, hcount⟩

theorem exec_planSwitchApply {s t : State} {p c k : Nat} {e : Bytes} {l : List (Nat × Nat × Nat × Bytes)}
    (hpend : s.clocks.pending = (p, c, k, e) :: l) (hat : atTick s c = some t) : exec .planSwitchApply s =
    .next ((t.clocks.pending.filter (fun e => e.2.1 = c)).foldl (fun s e => complete s (e.2.2.1, e.2.2.2) 0 0) (switchAt t c)) := by
  change execPlanSwitchApply s = _
  simp only [execPlanSwitchApply, hpend, hat]
  rfl

/-- Settles O32: the switch is judged on clocks that taking the command leaves as they are, and the apply is `switchAt` at its tick. -/
theorem planSwitchRows : Obligations.PlanSwitchRows := by
  refine ⟨?start, ?apply⟩
  case start =>
    rintro s c p q h hcheck rfl hq
    rw [exec_planSwitch h, hcheck, orRefuse]
    have hq' : (afterStart s c).cfg.plan? (fld c.entry 8 1) = some q := hq
    refine ⟨fun hmask => congrArg _ (planBegins_denied hmask), fun hmask => ⟨fun hp hat => ?_, fun hp hconf hlock => ?_,
      fun hp hconf hs hc => ?_, fun hp hconf => ?_⟩⟩ <;> apply congrArg
    · exact planBegins_in_force hmask hp hat
    · exact planBegins_without_lock hmask hq' hp hconf hlock
    · exact planBegins_waits hmask hq' hp hconf hs hc
    · exact planBegins_deferred hmask hq' hp hconf
  case apply =>
    intro s p c k e l htick hpend hc
    obtain ⟨t, hat, ⟨r, w, ht⟩, -⟩ := atTick_of_le htick hc
    have hclocks : t.clocks = s.clocks := by rw [ht]
    have hplan : planAt t c = planAt s c := by simp only [planAt, hclocks]
    have hexec := exec_planSwitchApply hpend hat
    obtain ⟨hto, hwaits, hcount⟩ := switchAt_clocks t c
    refine ⟨_, hexec, ?_, ?_, ?_, ?_, exec_now rfl hexec⟩ <;>
      rw [foldl_clocks (fun _ _ => complete_clocks _ _ _ _ _ _)]
    · rw [hto, hplan]
    · rw [hwaits, hclocks]
    · rw [hcount, hplan, hclocks]
      exact fun h => if_neg h
    · rw [hcount, hplan, hclocks]
      exact fun h => if_pos h

/-! ## GROUP_POWER (R143 to R145) -/

section
variable {s : State} {c : Cmd} {k : State → Nat → State}

theorem powerBegins_denied (hmask : bit s.cfg.host.groupMask (fld c.entry 8 1) = false) : powerBegins c k s = complete s c.key 6 0 := by
  rw [powerBegins, if_pos (by rw [hmask]; rfl)]

variable (hmask : bit s.cfg.host.groupMask (fld c.entry 8 1) = true)
include hmask

theorem powerBegins_busy (hbusy : (s.group (fld c.entry 8 1)).powerCmd.isSome = true) : powerBegins c k s = complete s c.key 7 0 := by
  rw [powerBegins, if_neg (by simp [hmask]), if_pos hbusy]

variable (hfree : (s.group (fld c.entry 8 1)).powerCmd = none)
include hfree

theorem powerBegins_fenced (hfence : s.fenced 0x01 (fld c.entry 8 1) = true) :
    powerBegins c k s = complete s c.key 5 0 (2 ^ fld c.entry 8 1) := by
  rw [powerBegins, if_neg (by simp [hmask]), if_neg (by simp [hfree]), if_pos hfence]

theorem powerBegins_goes (hfence : s.fenced 0x01 (fld c.entry 8 1) = false) : powerBegins c k s = k s (fld c.entry 8 1) := by
  rw [powerBegins, if_neg (by simp [hmask]), if_neg (by simp [hfree]), if_neg (by simp [hfence])]

end

/-- What a fuse shows does not move the frame that a fault of a group reaches. -/
theorem faultFrameNow_noteFuse (s : State) (r : GroupBoot) (g n : Nat) (f : Group → Group) :
    faultFrameNow (modGroup (noteFuse s r) g f) n = faultFrameNow s n := by
  unfold noteFuse
  split <;> rfl

theorem powerUp_of_success {s : State} {r : GroupBoot} {c : Cmd} (hdown : (s.group r.group).state = .down) (hgood : bootFailure s r = none) :
    powerUp r c s r.group =
    joinLater (modGroup (recordUnused (islandReady s r .settling) r) r.group (fun e => { e with powerCmd := some c.key })) r.group := by
  rw [powerUp, if_neg (by simp [hdown]), hgood]

theorem powerUp_of_failure {s : State} {r : GroupBoot} {c : Cmd} {code cause : Nat} (hdown : (s.group r.group).state = .down)
    (hfail : bootFailure s r = some (code, cause)) : powerUp r c s r.group =
    complete (detect (modGroup (noteFuse s r) r.group (fun e => { e with powerCmd := none })) ⟨0x01, r.group⟩ cause 0 (faultFrameNow s 1))
      c.key 5 0 (2 ^ r.group) := by
  rw [powerUp, if_neg (by simp [hdown]), hfail]
  dsimp only
  rw [faultFrameNow_noteFuse]

/-- A group at the end of a power-down (R143). -/
theorem exec_groupPowerDownApply {s : State} {g d : Nat} (hdown : (s.group g).downAt = some d) (hd : d < s.time.ticks)
    (howes : groupOwes s g = false ∨ s.tickOf d + 16000000 ≤ s.now) : ∃ t u, exec (.groupPowerDownApply g) s = .next t ∧ t.group g =
    { (islandOff u g .down).group g with powerCmd := none, downAt := none, calibrated := false } := by
  have hgo : (decide (d < s.time.ticks) && (!groupOwes s g || decide (s.tickOf d + puMs ≤ s.now))) = true := by
    rw [Bool.and_eq_true, Bool.or_eq_true, Bool.not_eq_true', decide_eq_true_iff, decide_eq_true_iff]
    exact ⟨hd, howes⟩
  change ∃ t u, execGroupPowerDownApply g s = .next t ∧ _
  unfold execGroupPowerDownApply
  rw [hdown]
  dsimp only
  rw [if_pos hgo]
  refine ⟨_, if s.laneUp g then sendTile s g 0x89 [] else s, rfl, ?_⟩
  split
  · rw [complete_group, group_modGroup_self]
  · rw [group_modGroup_self]

theorem exec_groupPowerUpRejoin {s : State} {g j : Nat} {c : Nat × Bytes} (hcmd : (s.group g).powerCmd = some c)
    (hdown : (s.group g).downAt = none) (hj : (s.group g).dataFrom = some j) {t : State} (hat : atTick s j = some t) :
    exec (.groupPowerUpRejoin g) s = .next (complete (modGroup t g (fun e => { e with powerCmd := none })) c 0 0) := by
  change execGroupPowerUpRejoin g s = _
  simp only [execGroupPowerUpRejoin, hcmd, hdown, hj, hat]

/-- Settles O33: the judgements come in the order of `powerBegins`, and each way ends at the instant that its apply row names. -/
theorem groupPowerRows : Obligations.GroupPowerRows := by
  refine ⟨?start, ?down, ?up⟩
  case start =>
    rintro s c g i r hcheck h rfl hi
    obtain ⟨k, hexec, hk⟩ : ∃ k, exec i s = .next (powerBegins c k (afterStart s c)) ∧
        (i = .groupPowerDown ∧ k = powerDown c ∨ i = .groupPowerUp r ∧ k = powerUp r c ∧ fld c.entry 8 1 = r.group) := by
      rcases hi with ⟨rfl, h0⟩ | ⟨rfl, h1, hg⟩
      · exact ⟨_, by rw [exec_groupPowerDown h (by omega), hcheck]; rfl, .inl ⟨rfl, rfl⟩⟩
      · exact ⟨_, by rw [exec_groupPowerUp h h1 (.inl hg), hcheck]; rfl, .inr ⟨rfl, rfl, hg⟩⟩
    rw [hexec]
    refine ⟨fun hmask => congrArg _ (powerBegins_denied hmask), fun hmask hbusy => congrArg _ (powerBegins_busy hmask hbusy),
      fun hmask hfree => ⟨fun hfence => congrArg _ (powerBegins_fenced hmask hfree hfence), fun hfence => ?_⟩⟩
    rw [powerBegins_goes (s := afterStart s c) hmask hfree hfence]
    rcases hk with ⟨rfl, rfl⟩ | ⟨rfl, rfl, hg⟩
    · refine ⟨fun _ hd => ?_, fun _ hd => ?_, nofun, nofun, nofun⟩ <;> apply congrArg
      · exact if_pos (by rw [beq_iff_eq]; exact hd)
      · exact if_neg (by rw [beq_iff_eq]; exact hd)
    · refine ⟨nofun, nofun, fun _ hd => ?_, fun _ hd hgood => ?_, fun code cause _ hd hbad => ?_⟩ <;>
        apply congrArg
      · exact if_pos (by rw [Bool.not_eq_true', beq_eq_false_iff_ne]; exact hd)
      · rw [hg]
        exact powerUp_of_success (hg ▸ hd) hgood
      · rw [hg]
        exact powerUp_of_failure (hg ▸ hd) hbad
  case down =>
    intro s g d hdown hd howes
    obtain ⟨t, u, hexec, hgroup⟩ := exec_groupPowerDownApply hdown hd howes
    refine ⟨t, hexec, ?_⟩
    rw [hgroup, islandOff, group_modGroup_self]
    exact ⟨rfl, rfl, rfl, rfl, rfl, rfl⟩
  case up =>
    intro s g j c hcmd hdown hj htick hle
    obtain ⟨t, hat, ⟨r, w, rfl⟩, -⟩ := atTick_of_le htick hle
    have hexec := exec_groupPowerUpRejoin hcmd hdown hj hat
    refine ⟨_, hexec, ?_, ?_, exec_now rfl hexec⟩ <;> rw [complete_group, group_modGroup_self]
    rfl

end Sys2Proof.Machine
end

