-- ==== Sys2Proof/Proofs/RingRows.lean ====
section
/-!
PROOFS. The rows that notify of rings, fetch commands and write what is first on a ring (R28, R30, R346, R347, R361, R469).
-/
namespace Sys2Proof.Machine

/-! ## Notification (R346) -/

theorem signal_rings (s : State) (v : Nat) : (signal s v).rings = s.rings := (congrArg State.rings (signal_frame s v) :)

/-- A ring of no entry is due for nothing. -/
theorem ring_notifyVector (s : State) (v r : Nat) : (notifyVector s v).ring r =
    if (s.ring r).vector = v ∧ (s.ring r).isDue = true ∧ (s.ring r).mask = false then { s.ring r with waiting := 0, due := false }
    else s.ring r := by
  have htable : (notifyVector s v).ring r = tget {} (tmap s.rings.rings (fun _ g =>
      if g.vector = v && g.isDue && !g.mask then { g with waiting := 0, due := false } else g)) r := by
    rw [← signal_rings s v]
    rfl
  rw [htable, State.ring, tget, tget, tget?_tmap]
  cases tget? s.rings.rings r with
  | none => simp [Ring.isDue]
  | some g => simp [and_assoc]

/-- Settles O25: `notifyVector` is a map over the rings that leaves those of another vector. -/
theorem notificationRow : Obligations.NotificationRow := by
  intro s r hkind hdue hmask
  have hexec : exec (.ringNotification r) s = .next (notifyVector s (s.ring r).vector) := by
    change execRingNotification r s = _
    rw [execRingNotification, hkind, hdue, hmask]
    rfl
  have hring := ring_notifyVector s (s.ring r).vector
  have hself := hring r
  rw [if_pos ⟨rfl, hdue, hmask⟩] at hself
  refine ⟨_, hexec, by rw [hself], by rw [hself], hring, ?_, rfl, rfl, ?_⟩
  · exact congrArg (fun t : Rings => { t with rings := s.rings.rings }) (signal_rings s (s.ring r).vector)
  · exact (congrArg (fun t : State => { t with rings := s.rings }) (signal_frame s (s.ring r).vector) :)

/-! ## Fetching a command (R347, R361) -/

theorem nextStart_mem {c : Cmd} : ∀ {before l : List Cmd}, nextStart before l = some c → c ∈ l
  | _, [], h => by cases h
  | before, x :: l, h => by
    simp only [nextStart] at h
    split at h
    · cases h
      exact List.mem_cons_self
    · exact List.mem_cons_of_mem _ (nextStart_mem h)

theorem dropCmd_length {c : Cmd} : ∀ {l : List Cmd}, c ∈ l → (dropCmd l c.ring c.entry).length + 1 = l.length
  | x :: l, h => by
    simp only [dropCmd]
    split
    · rfl
    · rename_i hne
      have hin : c ∈ l := (List.mem_cons.mp h).resolve_left fun e => hne (by simp [e])
      simpa using dropCmd_length hin

theorem writeback_cmds (s : State) (r : Nat) (p : Word32) : (writeback s r p).rings.cmds = s.rings.cmds :=
  congrArg Rings.cmds (Requests.writeback s r p).rings

theorem hostWrite_cmds (s : State) (a : Nat) (b : Bytes) : (hostWrite s a b).rings.cmds = s.rings.cmds :=
  congrArg Rings.cmds (Requests.hostWrite s a b).rings

theorem flushDone_cmds : ∀ (k : Nat) (s : State) (l : List (Nat × Bytes × Bytes)), (flushDone k s l).rings.cmds = s.rings.cmds
  | 0, _, _ => rfl
  | _ + 1, _, [] => rfl
  | k + 1, s, (i, cmd, entry) :: l => by
    simp only [flushDone]
    split
    · rw [flushDone_cmds k _ l]
      split
      · exact (writeback_cmds _ _ _).trans (hostWrite_cmds _ _ _)
      · exact (writeback_cmds _ _ _).trans (hostWrite_cmds _ _ _)
    · exact flushDone_cmds k _ l

theorem completeOne_cmds (s : State) (c : Nat × Bytes) (x n m d : Nat) :
    (completeOne s c x n m d).rings.cmds = dropCmd s.rings.cmds c.1 c.2 := by
  unfold completeOne writeCompletions
  exact flushDone_cmds _ _ _

/-- A sweep as long as the list of fetched commands completes the next one where its opcode is unknown, and whatever follows on it. -/
theorem sweepBad_length (t : State) : sweepBad t.rings.cmds.length t = match nextStart [] t.rings.cmds with
    | some c => if knownOp (opOf c.entry) then t else complete t c.key 7 0
    | none => t := by
  cases hn : t.rings.cmds.length with
  | zero =>
    rw [List.length_eq_zero_iff.mp hn]
    rfl
  | succ k =>
    rw [sweepBad]
    cases hc : nextStart [] t.rings.cmds with
    | none => rfl
    | some c =>
      have hlen : (completeOne t (c.ring, c.entry) 7 0 0 0).rings.cmds.length = k := by
        have hdrop := dropCmd_length (nextStart_mem hc)
        rw [completeOne_cmds]
        dsimp only
        omega
      dsimp only
      split
      · rfl
      · rw [complete, Cmd.key, hlen]

theorem hostWrite_modRing (s : State) (r : Nat) (f : Ring → Ring) (a : Nat) (b : Bytes) :
    hostWrite (modRing s r f) a b = modRing (hostWrite s a b) r f := foldl_writeRequest_modRing r f _ s

/-- The state in which a fetched entry has joined those before it. -/
def entryTaken (u : State) (i : Nat) (entry : Bytes) : State :=
  let cons := (u.ring (commandRing i)).cons + 1
  let w := modRing (hostWrite u (u.ring (commandRing i)).wb (le 4 cons.toNat ++ zeros 4)) (commandRing i) (fun g => { g with cons := cons })
  { w with rings := { w.rings with
    cmds := w.rings.cmds ++ [{ ring := i, entry := entry, started := false }], fetchStop := w.rings.fetchStop || opOf entry = 0x70 } }

theorem takeEntry_eq (u : State) (i : Nat) (entry : Bytes) :
    takeEntry u i entry = sweepBad (entryTaken u i entry).rings.cmds.length (entryTaken u i entry) := by
  have hwb : writeback (modRing u (commandRing i) (fun g => { g with cons := (u.ring (commandRing i)).cons + 1 })) (commandRing i)
      ((u.ring (commandRing i)).cons + 1) = modRing (hostWrite u (u.ring (commandRing i)).wb
        (le 4 ((u.ring (commandRing i)).cons + 1).toNat ++ zeros 4)) (commandRing i)
        (fun g => { g with cons := (u.ring (commandRing i)).cons + 1 }) := by
    rw [writeback, ring_modRing_self, hostWrite_modRing]
  unfold takeEntry
  dsimp only
  rw [hwb]
  rfl

section
variable {s : State} {i : Nat} {e : Bytes} (hi : i < 256) (hfetch : canFetch s i = true)
include hi hfetch

/-- The place of the entry that a command ring gives next. -/
theorem exec_commandFetch (how : ReadEnd) {addr : Nat}
    (haddr : addr = (s.ring (commandRing i)).base + 64 * ((s.ring (commandRing i)).cons.toNat % max (s.ring (commandRing i)).size 1)) :
    exec (.commandFetch i how e) s = match how with
      | .ok => .next (takeEntry (translate s addr) i (sub e 0 64))
      | .translationError => .next (if s.pcie.atsEn && (cachedPage s addr).isNone then failRing (askPage s addr) (commandRing i) else s)
      | .noTag => .next s
      | how => .next (failRing (noteRead (translate s addr) how) (commandRing i)) := by
  subst haddr
  change execCommandFetch i how e s = _
  unfold execCommandFetch
  rw [if_neg (by simp [hi, hfetch])]
  cases how <;> rfl

end

/-- Settles O28: the entry is read behind a translation that touches no ring; taking it moves the consumer index alone. -/
theorem commandFetchRow : Obligations.CommandFetchRow := by
  intro s i e r addr u hi hfetch hr haddr hu
  subst hr
  have hexec := fun how => exec_commandFetch (e := e) hi hfetch how haddr
  rw [← hu] at hexec
  have hreq : Requests s u := hu ▸ Requests.translate s addr
  refine ⟨?taken, ?failed, ?asked⟩
  case taken =>
    have hring := hreq.ring (commandRing i)
    obtain ⟨w, hw⟩ : ∃ w, w = hostWrite u (s.ring (commandRing i)).wb (le 4 ((s.ring (commandRing i)).cons + 1).toNat ++ zeros 4) := ⟨_, rfl⟩
    have hreq' : Requests s w := hw ▸ hreq.trans (.hostWrite u _ _)
    have hstop : s.rings.fetchStop = false := by
      simp only [canFetch, Bool.and_eq_true, Bool.not_eq_true'] at hfetch
      obtain ⟨⟨⟨⟨-, hstop⟩, -⟩, -⟩, -⟩ := hfetch
      exact hstop
    obtain ⟨f, hf⟩ : ∃ f : Ring → Ring, f = fun g => { g with cons := (s.ring (commandRing i)).cons + 1 } := ⟨_, rfl⟩
    have htaken : entryTaken u i (sub e 0 64) = { modRing w (commandRing i) f with
        rings := { (modRing w (commandRing i) f).rings with
          cmds := w.rings.cmds ++ [{ ring := i, entry := sub e 0 64, started := false }]
          fetchStop := w.rings.fetchStop || opOf (sub e 0 64) = 0x70 } } := by
      rw [hw, hf, entryTaken, hring]
      rfl
    refine ⟨entryTaken u i (sub e 0 64), ?_, ?_, fun k hk => ?_, ?_, ?_, ?_, ?_, fun hoff => ?_, ?_⟩
    · rw [hexec]
      dsimp only
      rw [takeEntry_eq, sweepBad_length] <;> rfl
    · rw [htaken]
      exact (ring_modRing_self w (commandRing i) f).trans (by rw [hf, hreq'.ring])
    · rw [htaken]
      exact (ring_modRing_ne w f hk).trans (hreq'.ring k)
    · rw [htaken, ← hreq'.rings]
    · rw [htaken, hreq'.rings, hstop]
      rfl
    · rw [htaken, ← hreq'.rings]
      rfl
    · rintro v rfl
      rw [htaken, ← hw]
      exact ⟨rfl, rfl⟩
    · rw [hu, translate_of_ats_off hoff]
    · rw [htaken]
      exact (congrArg (fun x : State => { x with rings := s.rings }) hreq' :)
  case failed =>
    intro how hhow
    simp only [List.mem_cons, List.not_mem_nil, or_false] at hhow
    rcases hhow with rfl | rfl | rfl | rfl <;> exact hexec _
  case asked =>
    intro hats hcache
    exact (hexec .translationError).trans (congrArg _ (if_pos (by rw [hats, hcache]; rfl)))

end Sys2Proof.Machine
end

