-- ==== Sys2Proof/Proofs/RingHeads.lean ====
section
/-!
PROOFS. A double-bit error in a staged envelope: its drop reports the latency of the emptier ring (R336, R481), of which the statement of
the ring heads is silent.
-/
namespace Sys2Proof.Machine

/-- One delivery ring with 64 bytes of staging. -/
def ltrFolio : Folio := { (default : Folio) with delivery := { rings := [{ ring := 0, staging := 64 }] } }

/-- A bound module that has reported 1 µs, with LTR enabled: the one envelope staged for ring 7,680 lies in bank 128. -/
def ltrState : State := { State.reset with
  boot := { State.reset.boot with state := .bound, folio := some ltrFolio }
  clocks := { State.reset.clocks with pllC := { lock := true } }
  pcie := { State.reset.pcie with linkUp := true, bme := true, devCtl2 := 1024, ltrSent := 1 }
  rings := { State.reset.rings with
    rings := [(7680, { enable := true, size := 64, ready := [.staged default] })], staging := [(0, (7680, 0, 0))] }
  banks := { State.reset.banks with role := [(128, (4, 0))] } }

/-- What counts drops on a ring leaves the endpoint alone. -/
theorem foldl_countDrop_pcie (r c : Nat) (l : List Envelope) (s : State) :
    (l.foldl (fun s x => countDrop s r c x.length) s).pcie = s.pcie := by
  induction l generalizing s with
  | nil => rfl
  | cons x l ih =>
    rw [List.foldl_cons, ih]
    unfold countDrop
    dsimp only
    split <;> split <;> rfl

/-- Refutes O23: at `ltrState` the drop of the envelope with the error leaves every staging ring below a quarter, and 10 µs are reported. -/
theorem not_ringHeadRows : ¬Obligations.RingHeadRows := by
  rintro ⟨hrows, -⟩
  obtain ⟨-, hbad⟩ := ((hrows ltrState 7680 .ok default (by decide)).1 (by decide +kernel) (by decide +kernel)).1 rfl (by decide +kernel)
  obtain ⟨-, hdrop⟩ := hbad 128 0 (by decide +kernel)
  have hsent : (dropWord ltrState 128 0).pcie.ltrSent = 10 := by decide +kernel
  rw [hdrop, modRing_pcie, foldl_countDrop_pcie] at hsent
  exact absurd hsent (by decide)

end Sys2Proof.Machine
end

