-- ==== Sys2Proof/Proofs/History.lean ====
section
/-!
PROOFS. The rows that write from history: record parts and commits (R237 to R241), stream envelopes (R244 to R246) and span readouts (R247).
-/
namespace Sys2Proof.Machine

/-! ## Rows on a ring that may be written -/

theorem onRing_of_translated {s : State} {r : Nat} {how : ReadEnd} (h : how ≠ .translationError) (k : State → State) :
    onRing s r how k = k s := by
  unfold onRing
  rw [if_neg (by simpa using h)]

theorem writeHead_of_fits {s : State} {r : Nat} {e : Envelope} (hcan : s.canWriteRing r = true) (hfits : (s.ring r).fits e.length = true)
    (k : State → State) : writeHead s r e k = k (putEnvelope (popReady s r) r e) := by
  unfold writeHead
  rw [if_pos (by rw [hcan, hfits]; rfl)]

theorem readFails_of_lt {a : Nat} (h : a < dramBytes) : readFails (some a) = true := decide_eq_true h

theorem readFails_none : ¬readFails none = true := Bool.false_ne_true

theorem readFault_of_lt {a : Nat} (h : a < dramBytes) (s : State) : readFault s (some a) = dramError s (a / 65536) (a % 65536) := if_pos h

/-! ## Record parts and commits (R237 to R241) -/

section
variable {s : State} {k rec_ : Nat} {q : RecQ} (hrec : s.cfg.rec? rec_ = some q) (hring : recRing s.cfg q = some k)
include hrec hring

section
variable {no seg chunk idx : Nat} {x : Run} (hhead : headItem s (deliveryRing k) = some (.part rec_ no seg chunk idx))
  (hrun : (s.recd rec_).run? no seg = some x) (hhist : s.canReadHistory = true) (hcan : s.canWriteRing (deliveryRing k) = true)
include hhead hrun hhist hcan

theorem recordPartWrite_of_part (bad : Option Nat) : recordPartWrite s rec_ bad =
    if readFails bad then readFault s bad
    else match partEnvelope s q x chunk idx with
      | none => loseRun s (deliveryRing k) rec_ no seg
      | some (e, blocks) =>
        writeHead s (deliveryRing k) e (fun s => modRun s rec_ no seg (fun x => takePart s q x idx blocks)) := by
  simp only [recordPartWrite, hrec, hring, hhead, hhist, hcan, hrun, ne_eq, not_true_eq_false, decide_false, Bool.not_true, Bool.or_self,
    Bool.false_eq_true, if_false] <;> rfl

end

theorem recordPartWrite_of_commit {no seg : Nat} {x : Run} (hhead : headItem s (deliveryRing k) = some (.commit rec_ no seg))
    (hrun : (s.recd rec_).run? no seg = some x) (bad : Option Nat) (hcan : s.canWriteRing (deliveryRing k) = true)
    (hfits : (s.ring (deliveryRing k)).fits (commitEnvelope s q x).length = true) {u : State}
    (hu : u = dropRun (modRec (putEnvelope (popReady s (deliveryRing k)) (deliveryRing k) (commitEnvelope s q x)) rec_ (fun d => { d with
      lostSince := 0, done := if x.lost then d.done else satAdd 32 d.done 1, lost := if x.lost then satAdd 32 d.lost 1 else d.lost
      invalid := if x.lost = false ∧ bit (commitEnvelope s q x).flags 0 = true then satAdd 32 d.invalid 1 else d.invalid })) rec_ no seg) :
    recordPartWrite s rec_ bad = if q.measure = true ∧ x.lost = false
      then modRing (measureEnvelope u q x (commitEnvelope s q x)).2 (deliveryRing k)
        (fun g => { g with ready := .measure rec_ no seg (measureEnvelope u q x (commitEnvelope s q x)).1 :: g.ready })
      else u := by
  simp only [recordPartWrite, hrec, hring, hhead, hrun, ne_eq, not_true_eq_false, if_false, writeHead_of_fits hcan hfits,
    Bool.and_eq_true, Bool.not_eq_true']
  rw [hu]

/-! ## Stream envelopes (R244 to R246) -/

theorem streamWrite_of_stream {no chunk idx : Nat} {x y : Run} {u : State} {cut : Int × Int × Nat × Bool}
    (hhead : headItem s (deliveryRing k) = some (.stream rec_ no chunk idx)) (hrun : (s.recd rec_).run? no 0 = some x)
    (hhist : s.canReadHistory = true) (hcan : s.canWriteRing (deliveryRing k) = true) (hcut : cut = streamCut s q x chunk idx)
    (hy : y = cutRun x idx cut) (hu : u = noteCut s rec_ no y cut) (bad : Option Nat) : streamWrite s rec_ bad =
    if readFails bad then readFault s bad
    else if (streamBlocks u q y idx cut).isEmpty && !streamLast u y cut then
      endStream (popReady u (deliveryRing k)) (deliveryRing k) rec_ no y.committed
    else writeHead u (deliveryRing k) (streamEnvelope u q y chunk idx cut (streamBlocks u q y idx cut)) (fun s =>
      endStream (modRun s rec_ no 0 (fun x => { x with parts := x.parts + 1, skipped := tdel x.skipped idx })) (deliveryRing k) rec_ no
        y.committed) := by
  subst hcut hy hu
  simp only [streamWrite, hrec, hring, hhead, hhist, hcan, hrun, ne_eq, not_true_eq_false, decide_false, Bool.not_true, Bool.or_self,
    Bool.false_eq_true, if_false]

end

theorem cutRun_committed (x : Run) (idx : Nat) (cut : Int × Int × Nat × Bool) : (cutRun x idx cut).committed = x.committed := by
  unfold cutRun
  split <;> rfl

/-- The count of what a stream leaves out does not reach its ring. -/
theorem noteCut_canWriteRing (s : State) (r no : Nat) (x : Run) (cut : Int × Int × Nat × Bool) (ring : Nat) :
    (noteCut s r no x cut).canWriteRing ring = s.canWriteRing ring := by
  unfold noteCut
  split <;> rfl

/-! ## Span readouts (R247) -/

theorem readoutWrite_of_readout {s : State} {k : Nat} {y : Readout} (hhead : headItem s (deliveryRing k) = some (.readout y))
    (hhist : s.canReadHistory = true) (hfence : s.fenced 0x0F 0 = false) (hcan : s.canWriteRing (deliveryRing k) = true)
    (bad : Option Nat) : readoutWrite s k bad =
    if readFails bad then readFault s bad
    else if (readoutFrames s y).any (·.isNone) then complete (popReady s (deliveryRing k)) y.cmd 8 y.written
    else writeHead s (deliveryRing k) (readoutEnvelope s y ((readoutFrames s y).filterMap id)) (fun s =>
      if min (y.next + 63) y.last = y.last then complete s y.cmd 0 (y.written + 1)
      else pushReady s (deliveryRing k) [.readout { y with next := min (y.next + 63) y.last + 1, written := y.written + 1 }]) := by
  simp only [readoutWrite, hhead, hhist, hfence, hcan, Bool.not_true, Bool.or_self, Bool.false_eq_true, if_false]

/-! ## The obligation -/

/-- Settles O24: each row writes the head of its ring, judged by what history holds and by what the read meets. -/
theorem historyRows : Obligations.HistoryRows := by
  rintro s k r how rfl hhow hcan
  refine ⟨fun rec_ q hrec hring => ⟨?part, ?commit, ?stream⟩, ?readout⟩
  case part =>
    intro no seg chunk idx x hhead hrun hhist
    have hexec (bad : Option Nat) : exec (.recordPartWrite rec_ bad how) s = .next (recordPartWrite s rec_ bad) :=
      congrArg _ (onRing_of_translated hhow _)
    have hwrite := recordPartWrite_of_part hrec hring hhead hrun hhist hcan
    refine ⟨fun e bl hpart hfits => ?_, fun hpart => ?_, fun a ha => ?_⟩ <;> rw [hexec, hwrite]
    · rw [hpart, if_neg readFails_none]
      exact congrArg _ (writeHead_of_fits hcan hfits _)
    · rw [hpart]
      rfl
    · rw [if_pos (readFails_of_lt ha), readFault_of_lt ha]
  case commit =>
    rintro no seg x e u bad hhead hrun rfl hfits hu
    exact congrArg _ ((onRing_of_translated hhow _).trans (recordPartWrite_of_commit hrec hring hhead hrun bad hcan hfits hu))
  case stream =>
    intro no chunk idx x y u cut bl hhead hrun hhist hcut hy hu hbl
    have hexec (bad : Option Nat) : exec (.streamEnvelopeWrite rec_ bad how) s = .next (streamWrite s rec_ bad) :=
      congrArg _ (onRing_of_translated hhow _)
    have hwrite := streamWrite_of_stream hrec hring hhead hrun hhist hcan hcut hy hu
    have hcommit : y.committed = x.committed := by rw [hy, cutRun_committed]
    have hcan' : u.canWriteRing (deliveryRing k) = true := by rw [hu, noteCut_canWriteRing, hcan]
    rw [← hbl, hcommit] at hwrite
    refine ⟨fun hgo hfits => ?_, fun hnone hlast => ?_, fun a ha => ?_⟩ <;> rw [hexec, hwrite]
    · rw [if_neg readFails_none, if_neg (by simpa [or_iff_not_imp_left] using hgo)]
      exact congrArg _ (writeHead_of_fits hcan' hfits _)
    · rw [if_neg readFails_none, if_pos (by simp [hnone, hlast])]
    · rw [if_pos (readFails_of_lt ha), readFault_of_lt ha]
  case readout =>
    intro y hs e hkind hfence hhist hhead
    have hexec (bad : Option Nat) : exec (.spanReadoutWrite (deliveryRing k) bad how) s = .next (readoutWrite s k bad) := by
      have hk : deliveryRing k - 7680 = k := by simp [deliveryRing]
      refine congrArg _ ((if_pos hkind).trans ((onRing_of_translated hhow _).trans ?_))
      rw [hk]
    have hwrite := readoutWrite_of_readout hhead hhist hfence hcan
    refine ⟨fun hframes he hfits => ⟨by rw [he]; rfl, by rw [he]; rfl, ?_⟩, fun hnone => ?_, fun a ha => ?_⟩ <;> rw [hexec, hwrite]
    · have hheld : (readoutFrames s y).any (·.isNone) = false := by simp [hframes]
      have hkept : (readoutFrames s y).filterMap id = hs := by simp [hframes]
      rw [if_neg readFails_none, hheld, if_neg Bool.false_ne_true, hkept, ← he, writeHead_of_fits hcan hfits]
      by_cases hlast : y.last ≤ y.next + 63
      · rw [if_pos hlast, if_pos (Nat.min_eq_right hlast)]
      · rw [if_neg hlast, if_neg (by omega), Nat.min_eq_left (by omega)]
    · rw [if_neg readFails_none, if_pos (List.any_eq_true.mpr ⟨none, hnone, rfl⟩)]
    · rw [if_pos (readFails_of_lt ha), readFault_of_lt ha]

end Sys2Proof.Machine
end

