-- ==== Sys2Proof/Proofs/TimeRows.lean ====
section
/-!
PROOFS. The end of coasting (R412, R419) and the rounds of capture memory (R314, R318, R320).
-/
namespace Sys2Proof.Machine

/-! ## The end of coasting (R412, R419) -/

/-- The module at the end of HOLDOVER_S. -/
def untraced (s : State) (e : Nat) : State :=
  quietPps { advanceTo s e with time := (advanceTo s e).time.untrace e }

theorem exec_coastingEnd {s : State} {e : Nat} (hend : s.time.coastEnd = some e) (htl : s.time.tl = .coasting)
    (htick : s.ticking = true → e ≤ s.tickOf s.time.ticks) : exec .coastingEnd s = .next (untraced s e) := by
  have hfirst : (s.time.tl == TlState.coasting && !(s.ticking && decide (s.tickOf s.time.ticks < e))) = true := by
    simpa [htl, Nat.not_lt, imp_iff_not_or] using htick
  change execCoastingEnd s = _
  unfold execCoastingEnd
  rw [hend]
  exact if_pos hfirst

/-- In UNTRACED PPS_OUT is low unless PPS_OUT_UNTRACED is set. -/
theorem quietPps_of_untraced {s : State} {b : Bool} (h : s.time.tl = .untraced) (hb : s.cfg.time.ppsOutUntraced = b) :
    quietPps s = { s with
      pins := { s.pins with ppsOut := if b then s.pins.ppsOut else .low }
      time := { s.time with ppsEnd := if b then s.time.ppsEnd else none } } := by
  unfold quietPps
  rw [h, hb]
  cases b <;> rfl

theorem cfg_time (s : State) (t : Time) : State.cfg { s with time := t } = s.cfg := rfl

/-- UNTRACED moves the timeline, PPS_OUT and raw time alone. -/
theorem untraced_eq {s : State} {b : Bool} (hb : s.cfg.time.ppsOutUntraced = b) (e : Nat) : ∃ r w, untraced s e = { s with
    pins := { s.pins with ppsOut := if b then s.pins.ppsOut else .low }
    time := { s.time with
      raw := r, wraps := w, tl := .untraced, coastEnd := none, coastEnded := some e, ppsEnd := if b then s.time.ppsEnd else none } } ∧
    w * rawPeriod + r.toNat = max s.now e := by
  obtain ⟨r, w, h⟩ := advanceTo_eq s e
  have hnow := advanceTo_now s e
  refine ⟨r, w, ?_, ?_⟩
  · unfold untraced
    rw [h, quietPps_of_untraced (b := b) rfl (by rw [cfg_time]; exact hb)]
    rfl
  · rw [h] at hnow
    exact hnow

/-! ## Memory rounds (R314, R318, R320) -/

/-- A round moves the memory schedule alone. -/
theorem round_frame (s : State) (a b : Nat) : (round s a b).banks.rounds = s.banks.rounds + 1 ∧
    { (round s a b).banks with
      rounds := s.banks.rounds, credit := s.banks.credit, freeNow := s.banks.freeNow, lastServed := s.banks.lastServed
      reading := s.banks.reading } = s.banks ∧ { round s a b with banks := s.banks } = s := ⟨rfl, rfl, rfl⟩

theorem countCorrected_eq (s : State) (n : Nat) : countCorrected s n = { s with
    banks := { s.banks with dramCorr := min (s.banks.dramCorr + n) (2 ^ 32 - 1) }
    pcie := if n = 0 then s.pcie else { s.pcie with aerCor := setBit s.pcie.aerCor 14 true, devSts := setBit s.pcie.devSts 0 true } } := by
  unfold countCorrected aerCorrected
  split <;> rfl

/-- Settles O18: the end of coasting is `untraced` at its instant, and a round moves the schedule and the counters of link errors. -/
theorem coastingEndAndMemoryRound : Obligations.CoastingEndAndMemoryRound := by
  refine ⟨?coasting, ?round⟩
  case coasting =>
    intro s e hend htl htick
    obtain ⟨r, w, h, hnow⟩ := untraced_eq (s := s) rfl e
    refine ⟨_, exec_coastingEnd hend htl htick, ?_, ?_, ?_, ?_, fun hpps => ?_, fun hpps => ?_, ?_⟩ <;> rw [h]
    · exact hnow
    · rw [hpps]
      exact ⟨rfl, rfl⟩
    · rw [hpps]
      exact ⟨rfl, rfl⟩
  case round =>
    intro s n a b htick hticks hlock hclock hleft
    obtain ⟨r, w, ht⟩ := advanceTo_eq s (s.tickOf s.curFrame + 8000 * s.banks.rounds)
    have hnow := advanceTo_now s (s.tickOf s.curFrame + 8000 * s.banks.rounds)
    obtain ⟨u, hu⟩ : ∃ u, u = countCorrected (advanceTo s (s.tickOf s.curFrame + 8000 * s.banks.rounds)) n := ⟨_, rfl⟩
    have hexec : exec (.memoryRound ⟨n, a, b⟩) s = .next (round u a b) := by
      change execMemoryRound ⟨n, a, b⟩ s = _
      rw [hu]
      exact if_pos (by simp [htick, hticks, hlock, hclock, State.roundsPerFrame, hleft])
    rw [ht, countCorrected_eq] at hu
    rw [ht] at hnow
    obtain ⟨hrounds, hbanks, hrest⟩ := round_frame u a b
    generalize round u a b = t at hexec hrounds hbanks hrest
    have hcorr : t.banks.dramCorr = u.banks.dramCorr := (congrArg Banks.dramCorr hbanks :)
    have hpcie : t.pcie = u.pcie := (congrArg State.pcie hrest :)
    have htime : t.time = u.time := (congrArg State.time hrest :)
    refine ⟨t, hexec, by rw [hcorr, hu], by rw [hpcie, hu], by rw [hrounds, hu], ?_, ?_, ?_⟩
    · have hsame := congrArg (fun b : Banks => { b with dramCorr := s.banks.dramCorr }) hbanks
      rw [hu] at hsame
      exact hsame
    · rw [State.now, htime, hu]
      exact hnow
    · have hsame := congrArg (fun x : State => { x with
        banks := s.banks, pcie := s.pcie, time := { x.time with raw := s.time.raw, wraps := s.time.wraps } }) hrest
      rw [hu] at hsame
      exact hsame

end Sys2Proof.Machine
end

