-- ==== Sys2Proof/Proofs/FieldEdges.lean ====
section
/-!
PROOFS. Edges of TRIG_IN (R206) and of the comparators (R114, R116, R287), and the events of an open work window (R182, R233, R277).
-/
namespace Sys2Proof.Machine

/-! ## TRIG_IN (R206) -/

/-- An input with its level, where it stands among the four. -/
def putTrig (s : State) (i : Nat) (u : TrigIn) : State := { s with field := { s.field with trig := tput s.field.trig i u } }

section
variable {s : State} {i o : Nat} {rise : Bool} {u : TrigIn} (hu : u = tget {} s.field.trig i) (hpow : s.powered = true) (hi : i < 4)
  (hlvl : u.lvl ≠ rise)
include hu hpow hi hlvl

theorem exec_trigInEdge_still (htick : s.ticking = false) :
    exec (.trigInEdge i rise o) s = .next (putTrig s i { u with lvl := rise, lvl0 := rise }) := by
  change execTrigInEdge i rise o s = _
  unfold execTrigInEdge
  dsimp only
  rw [← hu, if_neg (by simp [hpow, hi, hlvl]), if_pos (by rw [htick]; rfl)]
  rfl

theorem exec_trigInEdge_ticking (htick : s.ticking = true) (ho : o < s.spacing) (hlast : ∀ x ∈ u.kept.getLast?, x.1 ≤ o) :
    exec (.trigInEdge i rise o) s = .next (trigEdge (advanceTo s (s.time.tickAt + o)) i rise o) := by
  have hlate : ¬o < (u.kept.getLast?.map (·.1)).getD 0 := by
    cases h : u.kept.getLast? with
    | none => simp
    | some x => simpa using hlast x h
  change execTrigInEdge i rise o s = _
  unfold execTrigInEdge
  dsimp only
  rw [← hu, if_neg (by simp [hpow, hi, hlvl]), if_neg (by simp [htick]), if_neg (by simp [ho, hlate])]

end

/-- An edge 2 ns or more after the one before is kept, and one that is earlier takes that edge out (R206). -/
theorem trigEdge_of_kept {s : State} {i o : Nat} {rise : Bool} {u : TrigIn} (hu : u = tget {} s.field.trig i)
    (htail : u.kept = [] → ∀ d ∈ u.tail.head?, 32 ≤ o + d) : trigEdge s i rise o =
    putTrig s i { u with
      lvl := rise, kept := if ∀ x ∈ u.kept.getLast?, x.1 + 32 ≤ o then u.kept ++ [(o, rise)] else u.kept.dropLast } := by
  unfold trigEdge
  rw [← hu]
  cases h : u.kept.getLast? with
  | none =>
    have hnil : u.kept = [] := List.getLast?_eq_none_iff.mp h
    cases ht : u.tail with
    | nil => simp [putTrig, hnil, ht]
    | cons d l =>
      have hd : 32 ≤ o + d := htail hnil d (by simp [ht])
      simp [putTrig, hnil, ht, Nat.not_lt.mpr hd]
  | some x =>
    by_cases hx : o < x.1 + 32
    · simp [putTrig, h, hx, Nat.not_le.mpr hx]
    · simp [putTrig, h, hx, Nat.not_lt.mp hx]

/-- A pulse that the tick cuts takes the last edge of the frame that has closed with it (R206). -/
theorem trigEdge_of_tail {s : State} {i o d : Nat} {l : List Nat} {rise : Bool} {u : TrigIn} (hu : u = tget {} s.field.trig i)
    (hnil : u.kept = []) (htail : u.tail = d :: l) (hshort : o + d < 32) : trigEdge s i rise o =
    putTrig { s with frames := s.frames.map (fun f => if f.count + 1 = s.curFrame then
      { f with trig := tmod {} f.trig i TrigIn.dropLast } else f) } i { u with lvl := rise, lvl0 := rise, tail := l } := by
  unfold trigEdge
  rw [← hu]
  simp [hnil, htail, hshort, putTrig]

/-! ## The comparators of a channel (R114, R116, R287) -/

theorem comparator_iff (code h : Nat) (now : Bool) (v : Int) : comparator code h now v = true ↔
    if now then -8000000 + 5000 * (code : Int) - 1000 * h ≤ v else -8000000 + 5000 * (code : Int) < v := by
  have hth : thresholdOf code = -8000000 + 5000 * (code : Int) := by
    unfold thresholdOf
    omega
  cases now <;> simp [comparator, hth]

/-- A channel with its input at `v`. -/
def withInput (s : State) (c : Nat) (v : Int) : State := { s with field := { s.field with inputs := tput s.field.inputs c v } }

theorem comparators_withInput {s : State} {c : Nat} {v : Int} {hi lo : Bool} (hpow : (s.group (c / 64)).powered = true)
    (hmode : (s.tileSet c).mode ≠ 0)
    (hhi : hi = true ↔ (if (s.tileChan c).hi then -8000000 + 5000 * ((s.tileSet c).thrHi : Int) - 1000 * (s.tileSet c).hyst ≤ v
      else -8000000 + 5000 * ((s.tileSet c).thrHi : Int) < v))
    (hlo : lo = true ↔ (if (s.tileChan c).lo then -8000000 + 5000 * ((s.tileSet c).thrLo : Int) - 1000 * (s.tileSet c).hyst ≤ v
      else -8000000 + 5000 * ((s.tileSet c).thrLo : Int) < v)) : (withInput s c v).comparators c = (hi, lo) := by
  have hinput : tget 0 (withInput s c v).field.inputs c = v := tget_tput_self _ _ _ _
  have h1 : comparator (s.tileSet c).thrHi (s.tileSet c).hyst (s.tileChan c).hi v = hi :=
    Bool.eq_iff_iff.mpr ((comparator_iff _ _ _ _).trans hhi.symm)
  have h2 : comparator (s.tileSet c).thrLo (s.tileSet c).hyst (s.tileChan c).lo v = lo :=
    Bool.eq_iff_iff.mpr ((comparator_iff _ _ _ _).trans hlo.symm)
  have hchan : (withInput s c v).tileChan c = s.tileChan c := rfl
  have hset : (withInput s c v).tileSet c = s.tileSet c := rfl
  have hgroup : (withInput s c v).group (c / 64) = s.group (c / 64) := rfl
  unfold State.comparators
  rw [hinput, hchan, hset, hgroup, if_neg (by simp [hpow, hmode]), h1, h2]

/-! ### One channel of a tile -/

theorem tileChan_modChan_self (s : State) (c : Nat) (f : TileChan → TileChan) : (modChan s c f).tileChan c = f (s.tileChan c) := by
  unfold State.tileChan modChan
  rw [group_modGroup_self, tget_tmod_self]

theorem tileChan_modChan_ne {s : State} {c d : Nat} (f : TileChan → TileChan) (h : d ≠ c) : (modChan s c f).tileChan d = s.tileChan d := by
  unfold State.tileChan modChan
  by_cases hg : d / 64 = c / 64
  · rw [hg, group_modGroup_self, tget_tmod_ne _ _ _ (by omega)]
  · rw [group_modGroup_ne _ _ hg]

theorem modGroup_congr {s : State} {g : Nat} {f k : Group → Group} (h : f (s.group g) = k (s.group g)) : modGroup s g f = modGroup s g k := by
  have htable : tmod {} s.field.groups g f = tmod {} s.field.groups g k := congrArg (tput s.field.groups g) h
  unfold modGroup
  rw [htable]

/-- Only the present entry of a channel counts for its next one. -/
theorem modChan_congr {s : State} {c : Nat} {f k : TileChan → TileChan} (h : f (s.tileChan c) = k (s.tileChan c)) :
    modChan s c f = modChan s c k := by
  have htable : tmod {} (s.group (c / 64)).chans (c % 64) f = tmod {} (s.group (c / 64)).chans (c % 64) k :=
    congrArg (tput (s.group (c / 64)).chans (c % 64)) h
  exact modGroup_congr (congrArg (fun l => { s.group (c / 64) with chans := l }) htable)

/-- The entry of a channel whose comparators stand at `hi` and `lo`, with the change kept at its place. -/
def followed (u : TileChan) (hi lo : Bool) (o : Nat) : TileChan :=
  { u with hi := hi, lo := lo, raw := if (u.hi, u.lo) = (hi, lo) then u.raw else u.raw ++ [(o, hi, lo)] }

theorem followInput_ticking {s : State} {c o : Nat} {hi lo : Bool} (htick : s.ticking = true) (hcomp : s.comparators c = (hi, lo)) :
    followInput s c o = modChan s c (fun _ => followed (s.tileChan c) hi lo o) := by
  unfold followInput
  rw [hcomp]
  refine modChan_congr ?_
  by_cases h : ((s.tileChan c).hi, (s.tileChan c).lo) = (hi, lo)
  · obtain ⟨hh, hl⟩ := Prod.mk.inj h
    simp [followed, hh, hl]
    rw [← hh, ← hl]
  · have hne : ¬((s.tileChan c).hi = hi ∧ (s.tileChan c).lo = lo) := fun h' => h (by rw [h'.1, h'.2])
    simp [followed, hne, htick]

theorem followInput_still {s : State} {c o : Nat} {hi lo : Bool} (htick : s.ticking = false) (hcomp : s.comparators c = (hi, lo)) :
    followInput s c o = modChan s c (fun _ => if ((s.tileChan c).hi, (s.tileChan c).lo) = (hi, lo) then s.tileChan c
      else { s.tileChan c with hi := hi, lo := lo, hi0 := hi, lo0 := lo }) := by
  unfold followInput
  rw [hcomp]
  refine modChan_congr ?_
  simp [htick]

/-! ### ZONE_CHANGE -/

theorem exec_zoneChange_still {s : State} (htick : s.ticking = false) (c : Nat) (v : Int) (p f : Nat) :
    exec (.zoneChange c v p f) s = .next (followInput (withInput s c v) c 0) := by
  change execZoneChange c v p f s = _
  unfold execZoneChange
  dsimp only
  rw [if_pos (by rw [htick]; rfl)]
  rfl

theorem exec_zoneChange_ticking {s : State} {c o p f : Nat} {v : Int} (htick : s.ticking = true) (hop : o = 256 * p + f)
    (ho : o < 256 * s.spacing) (hlast : ∀ x ∈ (s.tileChan c).raw.getLast?, x.1 ≤ o) :
    exec (.zoneChange c v p f) s = .next (followInput (advanceTo (withInput s c v) (s.time.tickAt + o / 256)) c o) := by
  have hlate : ¬o < ((s.tileChan c).raw.getLast?.map (·.1)).getD 0 := by
    cases h : (s.tileChan c).raw.getLast? with
    | none => simp
    | some x => simpa using hlast x h
  change execZoneChange c v p f s = _
  unfold execZoneChange
  dsimp only
  rw [← hop, if_neg (by simp [htick]), if_neg (by simp [ho, hlate])]
  rfl

/-- Settles O21: an edge joins the kept ones or takes the last one away, and a comparator follows the level of its channel alone. -/
theorem fieldEdgeRows : Obligations.FieldEdgeRows := by
  refine ⟨?trig, ?zone⟩
  case trig =>
    intro s i rise o u hu hpow hi hlvl
    have hgo (htick : s.ticking = true) (ho : o < s.spacing) (hlast : ∀ x ∈ u.kept.getLast?, x.1 ≤ o) :=
      exec_trigInEdge_ticking hu hpow hi hlvl htick ho hlast
    obtain ⟨r, w, ht⟩ := advanceTo_eq s (s.time.tickAt + o)
    have hnow := advanceTo_now s (s.time.tickAt + o)
    rw [ht] at hgo hnow
    refine ⟨fun htick => exec_trigInEdge_still hu hpow hi hlvl htick, fun htick ho hlast htail => ?_, fun d l htick ho hnil htail hshort => ?_⟩
    · have hedge := trigEdge_of_kept (s := { s with time := { s.time with raw := r, wraps := w } }) (rise := rise) hu htail
      exact ⟨_, hgo htick ho hlast, by rw [hedge]; exact hnow, by rw [hedge]; rfl, by rw [hedge]; rfl⟩
    · have hedge := trigEdge_of_tail (s := { s with time := { s.time with raw := r, wraps := w } }) (rise := rise) hu hnil htail hshort
      have hlast : ∀ x ∈ u.kept.getLast?, x.1 ≤ o := by simp [hnil]
      exact ⟨_, hgo htick ho hlast, by rw [hedge]; exact hnow, by rw [hedge]; rfl, by rw [hedge]; rfl, by rw [hedge]; rfl⟩
  case zone =>
    rintro s c v hi lo o p f u q hop rfl rfl hpow hmode hhi hlo w rfl
    have hcomp := comparators_withInput hpow hmode hhi hlo
    refine ⟨fun htick => ?_, fun htick ho hlast => ?_⟩
    · rw [exec_zoneChange_still htick, followInput_still (s := withInput s c v) htick hcomp]
      rfl
    · have hexec := exec_zoneChange_ticking (v := v) htick hop ho hlast
      obtain ⟨r, w, ht⟩ := advanceTo_eq (withInput s c v) (s.time.tickAt + o / 256)
      have hnow := advanceTo_now (withInput s c v) (s.time.tickAt + o / 256)
      rw [ht] at hexec hnow
      obtain ⟨x, hx⟩ : ∃ x : State, x = { withInput s c v with time := { (withInput s c v).time with raw := r, wraps := w } } := ⟨_, rfl⟩
      rw [← hx] at hexec hnow
      have hfollow : followInput x c o = modChan x c (fun _ => followed (s.tileChan c) hi lo o) := by
        subst hx
        exact followInput_ticking htick hcomp
      refine ⟨_, hexec, hnow, ?_, fun d hd => ?_, ?_⟩ <;> rw [hfollow]
      · rw [tileChan_modChan_self]
        rfl
      · rw [tileChan_modChan_ne _ hd, hx]
        rfl
      · rw [hx]
        rfl

/-! ## The events of an open work window (R182, R233, R277) -/

/-- Settles O20: each row is guarded by the open window or by its instant, and runs its effect. -/
theorem workWindowRows : Obligations.WorkWindowRows := by
  refine ⟨fun s l hopen hahead => ?_, fun s q e hq htick hst hnever hdue => ?_, fun s o => rfl⟩
  · change execSeqCommandApply s = _
    unfold execSeqCommandApply
    rw [if_pos (by rw [hopen]; rfl), hahead]
  · change execRearm q s = _
    unfold execRearm
    rw [hq]
    exact if_pos (by simp [htick, hst, hnever, hdue])

end Sys2Proof.Machine
end

