-- ==== Sys2Proof/Proofs/Ticks.lean ====
section
/-!
PROOFS. Frame ticks: the next frame opens with its number, and none is released (R13, R17, R454).
-/
namespace Sys2Proof.Machine

/-! ## What a tick leaves alone -/

theorem foldl_proj {α β : Type} {p : State → β} {f : State → α → State} (hf : ∀ s x, p (f s x) = p s) :
    ∀ (l : List α) (s : State), p (l.foldl f s) = p s
  | [], _ => rfl
  | x :: l, s => (foldl_proj hf l (f s x)).trans (hf s x)

/-- The module's state, the core's clock, the frames released and the counts of those held. -/
def tickPart (s : State) : Boot × Pll × Bool × Nat × List Nat :=
  (s.boot, s.clocks.pllC, s.clocks.safeClock, s.released, s.frames.map (·.count))

theorem Completes.tickPart {s t : State} (h : Completes s t) : Machine.tickPart t = Machine.tickPart s :=
  (congrArg Machine.tickPart h :)

theorem tickPart_closeFrame (s : State) : tickPart (closeFrame s) = tickPart s := by
  unfold closeFrame
  cases h : s.frames with
  | nil => rfl
  | cons f l =>
    have hcount : (captureFrame s f).count = f.count := rfl
    simp only [tickPart, nextFrame, h, List.map_cons, hcount]

theorem tickPart_startOutputs (s : State) (t : Nat) : tickPart (startOutputs s t) = tickPart s := by
  unfold startOutputs
  dsimp only
  split <;> rfl

theorem tickPart_startGrids (s : State) (t : Nat) : tickPart (startGrids s t) = tickPart s := rfl

theorem tickPart_applyPrefs (s : State) : tickPart (applyPrefs s) = tickPart s := by
  unfold applyPrefs
  refine (foldl_proj (p := tickPart) ?_ _ _).trans rfl
  intro t c
  exact (Completes.complete _ c 0 0 0 0).tickPart

theorem quietPps_frame (s : State) :
    { quietPps s with pins := { (quietPps s).pins with ppsOut := s.pins.ppsOut }, time := { (quietPps s).time with ppsEnd := s.time.ppsEnd } }
      = s := by
  unfold quietPps
  split <;> rfl

theorem tickPart_stampTick (s : State) (n t : Nat) : tickPart (stampTick s n t) = tickPart s :=
  (congrArg tickPart (quietPps_frame _) :)

theorem tickPart_beginFrame (s : State) (n t : Nat) : tickPart (beginFrame s n t) =
    (s.boot, s.clocks.pllC, s.clocks.safeClock, s.released, n :: s.frames.map (·.count)) := rfl

theorem tickPart_sendTile (s : State) (g typ : Nat) (b : Bytes) : tickPart (sendTile s g typ b) = tickPart s := by
  unfold sendTile
  split <;> rfl

theorem tickPart_announceTick (s : State) (n : Nat) : tickPart (announceTick s n) = tickPart s := by
  have hmclk (s : State) : tickPart (sendMclk s n) = tickPart s := by
    unfold sendMclk
    refine foldl_proj (fun t e => ?_) _ _
    split
    · exact tickPart_sendTile _ _ _ _
    · rfl
  have htiles (l : List Nat) : tickPart (l.foldl (fun s g => sendTile s g 0x81 (le 2 (n % 65536))) s) = tickPart s :=
    foldl_proj (fun t g => tickPart_sendTile t g _ _) l s
  have hmark (s : State) : tickPart (if s.cfg.install.isSome then emit s .mark else s) = tickPart s := by
    split <;> rfl
  have hrounds (s : State) : tickPart (dueRings (closeRounds s)) = tickPart s := rfl
  unfold announceTick
  dsimp only
  rw [hrounds, hmclk, hmark, htiles]

theorem tickPart_latchMailbox (s : State) : tickPart (latchMailbox s) = tickPart s := rfl

/-- What the tick's own stamps leave of time. -/
theorem announceTick_time (s : State) (n : Nat) : (announceTick s n).time = s.time := by
  have hsend (s : State) (g typ : Nat) (b : Bytes) : (sendTile s g typ b).time = s.time := by
    unfold sendTile
    split <;> rfl
  have hmclk (s : State) : (sendMclk s n).time = s.time := by
    unfold sendMclk
    refine foldl_proj (p := State.time) (fun t e => ?_) _ _
    split
    · exact hsend _ _ _ _
    · rfl
  have htiles (l : List Nat) : (l.foldl (fun s g => sendTile s g 0x81 (le 2 (n % 65536))) s).time = s.time :=
    foldl_proj (p := State.time) (fun t g => hsend t g _ _) l s
  have hmark (s : State) : (if s.cfg.install.isSome then emit s .mark else s).time = s.time := by
    split <;> rfl
  have hrounds (s : State) : (dueRings (closeRounds s)).time = s.time := rfl
  unfold announceTick
  dsimp only
  rw [hrounds, hmclk, hmark, htiles]

/-! ## The tick -/

/-- The module with the next frame open, before the core comes back. -/
def tickOpened (s : State) : State :=
  let t := s.tickOf s.time.ticks
  let u := closeFrame (advanceTo s t)
  announceTick (beginFrame (stampTick (applyPrefs (if s.time.ticks = 0 then startGrids (startOutputs u t) t else u)) s.time.ticks t)
    s.time.ticks t) s.time.ticks

theorem tickPart_tickOpened (s : State) : tickPart (tickOpened s) =
    (s.boot, s.clocks.pllC, s.clocks.safeClock, s.released, s.time.ticks :: s.frames.map (·.count)) := by
  have hbegin (u : State) : tickPart (beginFrame u s.time.ticks (s.tickOf s.time.ticks)) = ((tickPart u).1, (tickPart u).2.1,
      (tickPart u).2.2.1, (tickPart u).2.2.2.1, s.time.ticks :: (tickPart u).2.2.2.2) := tickPart_beginFrame u _ _
  have hadvance : tickPart (advanceTo s (s.tickOf s.time.ticks)) = tickPart s := by
    obtain ⟨r, w, h⟩ := advanceTo_eq s (s.tickOf s.time.ticks)
    rw [h]
    rfl
  have hclose : tickPart (if s.time.ticks = 0 then startGrids (startOutputs (closeFrame (advanceTo s (s.tickOf s.time.ticks)))
      (s.tickOf s.time.ticks)) (s.tickOf s.time.ticks) else closeFrame (advanceTo s (s.tickOf s.time.ticks))) = tickPart s := by
    split
    · rw [tickPart_startGrids, tickPart_startOutputs, tickPart_closeFrame, hadvance]
    · rw [tickPart_closeFrame, hadvance]
  unfold tickOpened
  rw [tickPart_announceTick, hbegin, tickPart_stampTick, tickPart_applyPrefs, hclose]
  rfl

/-- Its number is its count modulo 2^40 (R17). -/
theorem tickOpened_time (s : State) : (tickOpened s).time.ticks = s.time.ticks + 1 ∧
    (tickOpened s).time.frame = BitVec.ofNat 40 s.time.ticks ∧ (tickOpened s).time.tickAt = s.tickOf s.time.ticks := by
  have hbegin (u : State) (n t : Nat) : (beginFrame u n t).time = u.time := rfl
  have hstamp (u : State) (n t : Nat) : (stampTick u n t).time.ticks = n + 1 ∧ (stampTick u n t).time.frame = frameNo n ∧
      (stampTick u n t).time.tickAt = t := by
    unfold stampTick quietPps
    split <;> exact ⟨rfl, rfl, rfl⟩
  unfold tickOpened
  rw [announceTick_time, hbegin]
  exact hstamp _ _ _

/-- The core comes back at a tick of FAULT_HOLD at which PLL-C is locked (R454). -/
def tickCore (u : State) (n : Nat) : State := if u.boot.state == ModState.faultHold && u.clocks.pllC.lock then coreBack u n else u

/-- The mailbox of a frame is latched with the tick that opens its window's first work (R208). -/
def tickLatch (u : State) (n : Nat) : State := if n = u.banks.served + 1 then latchMailbox u else u

theorem frameTick_eq (s : State) : frameTick s = tickLatch (tickCore (tickOpened s) s.time.ticks) s.time.ticks := by
  unfold frameTick tickLatch tickCore tickOpened
  with_reducible rfl

theorem tickCore_of_core {u : State} (h : u.boot.state = .faultHold → u.clocks.pllC.lock = true → u.clocks.safeClock = false) (n : Nat) :
    tickCore u n = u := by
  unfold tickCore
  split
  · rename_i hback
    rw [Bool.and_eq_true, beq_iff_eq] at hback
    unfold coreBack
    rw [h hback.1 hback.2]
    rfl
  · rfl

theorem tickLatch_part (u : State) (n : Nat) : tickPart (tickLatch u n) = tickPart u := by
  unfold tickLatch
  split <;> rfl

theorem tickLatch_time (u : State) (n : Nat) : (tickLatch u n).time = u.time := by
  unfold tickLatch
  split <;> rfl

/-- A tick does not come before its instant. -/
theorem frameTick_now (s : State) : max s.now (s.tickOf s.time.ticks) ≤ (frameTick s).now := by
  have hopen : Keeps (advanceTo s (s.tickOf s.time.ticks)) (tickOpened s) := by
    have hclose := closeFrame_keeps (.refl (advanceTo s (s.tickOf s.time.ticks)))
    exact announceTick_keeps _ (beginFrame_keeps _ _ (stampTick_keeps _ _ (applyPrefs_keeps
      (Keeps.ite (startGrids_keeps _ (startOutputs_keeps _ hclose)) hclose))))
  have hcore : Keeps (advanceTo s (s.tickOf s.time.ticks)) (tickCore (tickOpened s) s.time.ticks) := by
    generalize tickOpened s = u at hopen
    exact Keeps.ite (coreBack_keeps _ hopen) hopen
  have hlatch : Keeps (advanceTo s (s.tickOf s.time.ticks)) (tickLatch (tickCore (tickOpened s) s.time.ticks) s.time.ticks) := by
    generalize tickCore (tickOpened s) s.time.ticks = u at hcore
    exact Keeps.ite (latchMailbox_keeps hcore) hcore
  rw [← advanceTo_now, frameTick_eq]
  exact hlatch.now_le

/-- Settles O17: opening the frame sets count, number and place, and what the tick latches behind it keeps these. -/
theorem tickRowsOpenTheNextFrame : Obligations.TickRowsOpenTheNextFrame := by
  intro s htick hpow
  refine ⟨?tick, fun hnum => ?row, fun hticks hwrap => ?wrap⟩
  case tick =>
    rintro t rfl
    have hnow := frameTick_now s
    refine ⟨(le_max_left _ _).trans hnow, (le_max_right _ _).trans hnow, fun hcore => ?_⟩
    obtain ⟨hticks, hframe, hat⟩ := tickOpened_time s
    have hpart := tickPart_tickOpened s
    rw [frameTick_eq]
    generalize tickOpened s = u at hticks hframe hat hpart
    obtain ⟨hboot, hlock, hsafe, hreleased, hcounts⟩ : u.boot = s.boot ∧ u.clocks.pllC = s.clocks.pllC ∧
        u.clocks.safeClock = s.clocks.safeClock ∧ u.released = s.released ∧ u.frames.map (·.count) = s.time.ticks :: s.frames.map (·.count) := by
      simpa [tickPart] using hpart
    rw [tickCore_of_core (by rw [hboot, hlock, hsafe]; exact hcore), tickLatch_time]
    have hlatch := tickLatch_part u s.time.ticks
    generalize tickLatch u s.time.ticks = v at hlatch
    obtain ⟨-, -, -, hreleased', hcounts'⟩ : v.boot = u.boot ∧ v.clocks.pllC = u.clocks.pllC ∧
        v.clocks.safeClock = u.clocks.safeClock ∧ v.released = u.released ∧ v.frames.map (·.count) = u.frames.map (·.count) := by
      simpa [tickPart] using hlatch
    exact ⟨hticks, hframe, hat, hreleased'.trans hreleased, hcounts'.trans hcounts⟩
  case row =>
    change execFrameTick s = _
    exact if_pos (by simpa [htick, hpow, imp_iff_not_or] using hnum)
  case wrap =>
    change execFrameNumberWrap s = _
    exact if_pos (by simp [htick, hpow, hticks, hwrap])

end Sys2Proof.Machine
end

