-- ==== Sys2Proof/Proofs/Windows.lean ====
section
/-!
PROOFS. The windows: the bank and byte of an offset (R471), what a window refuses and takes (R472), and commits (R473).
-/
namespace Sys2Proof.Machine

/-! ## Where a byte lies -/

theorem winSize_pos (b : Nat) : 0 < winSize b := by unfold winSize; split <;> decide

theorem winSize_le (b : Nat) : winSize b ≤ 2 ^ 20 := by unfold winSize; split <;> decide

/-- Settles O41: the offset within the bank is less than the 2^20 bytes that a bank has in the bank space. -/
theorem windowAddressing : Obligations.WindowAddressing := by
  intro w x
  have hlt : (w.base + x + w.rot) % winSize w.bank < 2 ^ 20 := (Nat.mod_lt _ (winSize_pos _)).trans_le (winSize_le _)
  change ((w.bank + (w.base + x + w.rot) / winSize w.bank) * 2 ^ 20 + (w.base + x + w.rot) % winSize w.bank) / 2 ^ 20 =
      w.bank + (w.base + x + w.rot) / winSize w.bank ∧
    ((w.bank + (w.base + x + w.rot) / winSize w.bank) * 2 ^ 20 + (w.base + x + w.rot) % winSize w.bank) % 2 ^ 20 =
      (w.base + x + w.rot) % winSize w.bank
  omega

/-! ## What an access leaves of its window -/

/-- An error that is logged sets its status bit, and else touches the error bits of Status and Device Status and the header log alone. -/
theorem aerLatch_eq (p : Pcie) (b : Nat) : ∃ st ds fst log n, aerLatch p b =
    { p with aerUnc := setBit p.aerUnc b true, status := st, devSts := ds, aerFirst := fst, aerLog := log, aerLogs := n } := by
  unfold aerLatch
  dsimp only
  split
  · exact ⟨_, _, p.aerFirst, p.aerLog, p.aerLogs, rfl⟩
  · exact ⟨_, _, _, _, _, rfl⟩

@[simp] theorem aerLatch_wins (p : Pcie) (b : Nat) : (aerLatch p b).wins = p.wins := by
  obtain ⟨st, ds, fst, log, n, h⟩ := aerLatch_eq p b
  rw [h]

@[simp] theorem aerLatch_aerUnc (p : Pcie) (b : Nat) : (aerLatch p b).aerUnc = setBit p.aerUnc b true := by
  obtain ⟨st, ds, fst, log, n, h⟩ := aerLatch_eq p b
  rw [h]

@[simp] theorem win_aer (s : State) (b k : Nat) : (aer s b).win k = s.win k := by
  unfold State.win
  rw [show (aer s b).pcie.wins = s.pcie.wins from aerLatch_wins _ _]

/-! ## WINDOW_READ and WINDOW_WRITE, refused -/

section
variable {s : State} {k x : Nat}

theorem winJudge_of_refused {n : Nat} {wr : Bool}
    (h : (s.win k).active.en = false ∨ (wr = true ∧ (s.win k).active.write = false) ∨ (s.win k).active.limit < x + n - 1 ∨
      winLast (s.win k).active.bank < winAddr (s.win k).active (x + n - 1) / 2 ^ 20) : winJudge s k x n wr = .refuse := by
  refine if_pos ?_
  rcases h with h | ⟨hwr, hw⟩ | h | h
  · simp [h]
  · simp [hwr, hw]
  · simp [h]
  · simp only [decide_eq_true h, Bool.or_true]

/-- The Class T evaluator and a window are owners of different codes (Table 10-4). -/
theorem ownerNow_ne_winOwner {b : Nat} (hk : k < 16) (h : tget 0 s.banks.owner b ≠ 0x010 + k) : ownerNow s b ≠ winOwner k := by
  unfold ownerNow winOwner
  dsimp only
  split
  · omega
  · exact h

/-- A request that is taken meets no fenced bank, and none of another owner. -/
theorem bank_of_accept {n : Nat} {wr : Bool} (h : winJudge s k x n wr = .accept) {b : Nat}
    (hb : b ∈ winBanks (s.win k).active x n) : s.fenced 0x06 b = false ∧ ownerNow s b = winOwner k := by
  unfold winJudge at h
  dsimp only at h
  split at h
  · cases h
  · split at h
    · cases h
    · rename_i howner
      split at h
      · cases h
      · rename_i hfence
        simp only [List.any_eq_true, not_exists, not_and, Bool.not_eq_true] at hfence
        simp only [List.find?_eq_none] at howner
        exact ⟨hfence b hb, by simpa [hfence b hb] using howner b hb⟩

theorem exec_windowRead (hk : k < 16) (hopen : s.barOpen = true) {n : Nat} {bad : Option Nat} {pb : List (Nat × Byte)} {j : WinJudge}
    (hj : winJudge s k x n false = j) (hne : j ≠ .accept) :
    exec (.windowRead k x n ⟨bad, pb⟩) s = .next (emit (winRefused s k false j) .completerAbort) := by
  change execWindowRead .. = _
  rw [execWindowRead, if_neg (by omega), memRequest_of_barOpen hopen, hj]
  cases j with
  | accept => exact absurd rfl hne
  | _ => rfl

theorem exec_windowWrite (hk : k < 16) (hopen : s.barOpen = true) {d : Bytes} {pb : List (Nat × Byte)} {j : WinJudge}
    (hj : winJudge s k x d.length true = j) (hne : j ≠ .accept) :
    exec (.windowWrite k x d pb) s = .next (winRefused s k true j) := by
  change execWindowWrite .. = _
  rw [execWindowWrite, if_neg (by omega), memRequest_of_barOpen hopen, hj]
  cases j with
  | accept => exact absurd rfl hne
  | _ => rfl

/-- What a refused access counts and logs. -/
theorem winRefused_fields (s : State) (k : Nat) (wr : Bool) (j : WinJudge) : j ≠ .accept →
    (winRefused s k wr j).out = s.out ∧ (winRefused s k wr j).banks.mem = s.banks.mem ∧ bit (winRefused s k wr j).pcie.aerUnc 15 = true ∧
    (winRefused s k wr j).banks.violHost = (match j with
      | .notOwner _ _ => satAdd 32 s.banks.violHost 1
      | _ => s.banks.violHost) ∧
    ((winRefused s k wr j).win k).drops = (if j = .refuse then (s.win k).drops else satAdd 32 (s.win k).drops 1) ∧
    ((winRefused s k wr j).win k).active = (s.win k).active := by
  intro hne
  have hbit : ∀ u : State, bit (aer u 15).pcie.aerUnc 15 = true := fun u => by
    rw [show (aer u 15).pcie.aerUnc = setBit u.pcie.aerUnc 15 true from aerLatch_aerUnc _ _, bit_setBit_self]
  cases j with
  | accept => exact absurd rfl hne
  | refuse => exact ⟨rfl, rfl, hbit _, rfl, congrArg Win.drops (win_aer s 15 k), congrArg Win.active (win_aer s 15 k)⟩
  | fencedBank =>
    have hwin : (aer (winDrop s k) 15).win k = { s.win k with drops := satAdd 32 (s.win k).drops 1 } :=
      (win_aer ..).trans (win_modWin_self ..)
    exact ⟨rfl, rfl, hbit _, rfl, congrArg Win.drops hwin, (congrArg Win.active hwin :)⟩
  | notOwner b o =>
    have hwin : (aer (winDrop (hostViolation s wr b (winOwner k) o) k) 15).win k =
        { s.win k with drops := satAdd 32 (s.win k).drops 1 } := (win_aer ..).trans (win_modWin_self ..)
    exact ⟨rfl, rfl, hbit _, rfl, congrArg Win.drops hwin, (congrArg Win.active hwin :)⟩

end

/-- Settles O43: the checks come in the order of `winJudge`, and a refusal counts by its kind. -/
theorem windowRefusals : Obligations.WindowRefusals := by
  intro s k x hk hopen
  refine ⟨fun n wr h => winJudge_of_refused (by tauto), fun n wr h => winJudge_of_refused (.inr (.inr (.inr h))), ?_, ?_, ?_⟩
  · intro n wr b hb hbad hacc
    obtain ⟨hfence, howner⟩ := bank_of_accept hacc hb
    rcases hbad with hf | ho
    · simp [hfence] at hf
    · exact ownerNow_ne_winOwner hk ho howner
  · intro n bad pb j hj hne
    obtain ⟨hout, hmem, haer, hviol, hdrops, -⟩ := winRefused_fields s k false j hne
    exact ⟨_, exec_windowRead hk hopen hj hne, congrArg (· ++ [Output.completerAbort]) hout, hmem, haer, hviol, hdrops⟩
  · intro d pb j hj hne
    exact ⟨_, exec_windowWrite hk hopen hj hne, winRefused_fields s k true j hne⟩

/-! ## WIN_COMMIT -/

/-- Settles O44: the commit checks of R473 read the shadow of the window that is committed. -/
theorem windowCommitRow : Obligations.WindowCommitRow := by
  rintro s k w hk hopen hbound rfl
  have hexec : exec (.winCommit k true) s = .next (winCommit s k true) := by
    change execWinCommit .. = _
    rw [execWinCommit, if_neg (by omega), boundWrite_of_isBound hopen hbound]
  refine ⟨_, hexec, fun k' h => win_modWin_ne s _ h, rfl, fun hbad => ?_, fun hmask hro hbank hbase => ?_⟩
  · have hno : commitOk s.cfg k (s.win k).shadow = false := by
      unfold commitOk winSize
      rcases hbad with h | ⟨hw, hr⟩ | h | h
      · simp [h]
      · simp [hw, hr]
      · simp [h]
      · simp [h]
    exact (win_modWin_self ..).trans (if_neg (by simp [hno]))
  · have hok : commitOk s.cfg k (s.win k).shadow = true := by
      unfold commitOk winSize
      cases hw : (s.win k).shadow.write with
      | false => simp [hmask, hbank, hbase]
      | true => simp [hmask, hbank, hbase, hro hw]
    exact (win_modWin_self ..).trans (if_pos hok)

/-! ## The mailbox of a window that has not opened -/

/-- The core has come back from a hold, frame 1 is the first one served since, and its window has not opened; window 0 may write bank 0. -/
def heldState : State :=
  { State.reset with
    time := { State.reset.time with tick0 := some 0, ticks := 3 }
    released := 1
    franking := {}
    banks := { State.reset.banks with served := 1, owner := [(0, 0x010)], mailbox := [(0, 7)] }
    pcie := { State.reset.pcie with linkUp := true, mse := true, wins := [(0, { active := { en := true, write := true } })] } }

/-- Refutes O42: after a hold the first window served is that of another frame than 0 (R454), and a write before it opens changes its
mailbox words, at `heldState` of frame 1. -/
theorem not_windowAccessRows : ¬Obligations.WindowAccessRows := by
  intro h
  have hjudge : winJudge heldState 0 0 1 true = .accept := by decide +kernel
  obtain ⟨-, hwrite, -⟩ := h heldState 0 0 (by decide) (by decide +kernel) (by decide +kernel)
  obtain ⟨t, hexec, -, hkept, -⟩ := hwrite [0] [] hjudge
  have hlatched : exec (.windowWrite 0 0 [0] []) heldState = .next (latchMailbox heldState) := by
    change execWindowWrite .. = _
    rw [execWindowWrite, if_neg (by decide), memRequest_of_barOpen (by decide +kernel), show [(0 : Byte)].length = 1 from rfl, hjudge]
    refine congrArg Host.Outcome.next (?_ : openingMailbox heldState = _)
    unfold openingMailbox
    exact if_pos (by decide +kernel)
  rw [hlatched, Host.Outcome.next.injEq] at hexec
  subst hexec
  have hchanged : (latchMailbox heldState).banks.mailbox ≠ heldState.banks.mailbox := by decide +kernel
  exact hchanged (hkept (by decide +kernel))

end Sys2Proof.Machine
end

