-- ==== Sys2Proof/Proofs/Endpoint.lean ====
section
/-!
PROOFS. Bus Master Enable, the power states, the host domain's release, and the messages of the endpoint (R463 to R482).
-/
namespace Sys2Proof.Machine

/-- A configuration request that arrives. -/
theorem cfgRequest_of_linkUp {s : State} (h : s.pcie.linkUp = true) (k : State → State) : cfgRequest s k = k s := if_pos h

/-! ## Bus Master Enable and D3hot -/

/-- A job's end takes it out of the jobs. -/
theorem finishJob_jobs (s : State) (j : Job) (x n m : Nat) : (finishJob s j x n m).jobs.jobs = s.jobs.jobs.filter (fun y => y.id ≠ j.id) :=
  (congrArg (fun t : State => t.jobs.jobs) (Completes.complete _ j.cmd x n m 0) :)

/-- Of a list of jobs that end, none is left. -/
theorem foldl_finishJob_jobs (x : Nat) (mask : State → Job → Nat) : ∀ (l : List Job) (s : State),
    (l.foldl (fun s j => finishJob s j x 0 (mask s j)) s).jobs.jobs = s.jobs.jobs.filter (fun y => decide (y.id ∉ l.map (·.id)))
  | [], s => by simp
  | j :: l, s => by
    rw [List.foldl_cons, foldl_finishJob_jobs x mask l, finishJob_jobs, List.filter_filter]
    refine List.filter_congr fun y _ => ?_
    simp only [List.map_cons, List.mem_cons, not_or, Bool.decide_and, Bool.and_comm]

theorem failJobs_all_jobs (s : State) (x m : Nat) : (failJobs s (fun _ => true) x m).jobs.jobs = [] := by
  unfold failJobs
  rw [List.filter_true, foldl_finishJob_jobs, List.filter_eq_nil_iff]
  intro y hy
  simpa using ⟨y, hy, rfl⟩

/-- Readouts end with completions alone. -/
theorem endReadouts_completes (s : State) (x r : Nat) : Completes s (endReadouts s x r) :=
  (Completes.modRing s r _).trans (Completes.foldl (fun s _ => Completes.complete s _ _ _ _ _) _ _)

theorem abortHostWork_jobs (s : State) : (abortHostWork s).jobs.jobs = [] := by
  unfold abortHostWork
  exact (congrArg (fun t : State => t.jobs.jobs) (Completes.foldl (fun s r => endReadouts_completes s 9 r) _ _) :).trans
    (failJobs_all_jobs _ 9 0)

/-- Settles O47: each of the four is a configuration write that a bit already at its value makes idle. -/
theorem masterAndPowerStateRows : Obligations.MasterAndPowerStateRows := by
  intro s hlink
  have hclear : exec .busMasterEnableClear s = .next (bmeClear s) := congrArg _ (cfgRequest_of_linkUp hlink _)
  have hset : exec .busMasterEnableSet s = .next (bmeSet s) := congrArg _ (cfgRequest_of_linkUp hlink _)
  have henter : exec .d3hotEntry s = .next (enterD3 s) := congrArg _ (cfgRequest_of_linkUp hlink _)
  have hleave : exec .d0Return s = .next (leaveD3 s) := congrArg _ (cfgRequest_of_linkUp hlink _)
  rw [hclear, hset, henter, hleave]
  refine ⟨fun h => ⟨congrArg _ (if_pos h), abortHostWork_jobs _, congrArg _ (if_pos h)⟩, fun h => ⟨congrArg _ (if_neg ?_), congrArg _ (if_neg ?_)⟩,
    fun h => ⟨congrArg _ (if_neg ?_), congrArg _ (if_neg ?_)⟩, fun h => ⟨congrArg _ (if_pos h), congrArg _ (if_pos h)⟩⟩ <;>
  simp [h]

/-! ## The host domain after its reset -/

/-- A byte after the pool's banks have been cleared. -/
theorem mget_clearBanks (a : Nat) : ∀ (l : List Nat) (m : Mem),
    mget 0 (l.foldl (fun m x => mclear m (x * 2 ^ 20) ((x + 1) * 2 ^ 20)) m) a = if a / 2 ^ 20 ∈ l then 0 else mget 0 m a
  | [], m => by simp
  | x :: l, m => by
    rw [List.foldl_cons, mget_clearBanks a l, mget_mclear]
    by_cases hl : a / 2 ^ 20 ∈ l
    · rw [if_pos hl, if_pos (List.mem_cons_of_mem _ hl)]
    · rw [if_neg hl]
      by_cases hx : a / 2 ^ 20 = x
      · rw [if_pos (by omega), if_pos (List.mem_cons.2 (.inl hx))]
      · rw [if_neg (by omega), if_neg (fun h => (List.mem_cons.1 h).elim hx hl)]

/-- A pool bank in service after the pool has been given out. -/
theorem tget_givePool {p : Nat → Bool} {b : Nat} (hb : p b = false) : ∀ (l : List Nat) (t : Tbl Nat), b ∈ l ∨ tget 0 t b = 1 →
    tget 0 (l.foldl (fun t x => if p x = true then t else tput t x 1) t) b = 1
  | [], t, h => h.resolve_left (List.not_mem_nil)
  | x :: l, t, h => by
    rw [List.foldl_cons]
    refine tget_givePool hb l _ ?_
    rcases eq_or_ne b x with rfl | hne
    · exact .inr (by simp [hb])
    · refine (h.imp (fun hm => (List.mem_cons.1 hm).resolve_left hne) fun h1 => ?_)
      split
      · exact h1
      · rw [tget_tput_ne _ _ _ hne, h1]

/-- Settles O46: the pool's banks are cleared one by one, and those in service assigned to the host pool. -/
theorem hostEpochRows : Obligations.HostEpochRows := by
  refine ⟨fun s hpow hperst => ?_, fun s _ hzero hlink => ?_⟩
  · change execPerstNRelease s = _
    unfold execPerstNRelease
    rw [if_neg (by simp [hperst])]
    exact congrArg _ (if_pos hpow)
  · refine ⟨zeroPool s, congrArg _ (if_pos (by rw [hzero, hlink]; rfl)), rfl, fun b hb => ⟨fun a hlo hhi => ?_, fun hf => ?_⟩,
      fun a ha => ?_, ?_⟩
    · refine (mget_clearBanks a _ _).trans (if_pos ?_)
      rwa [show a / 2 ^ 20 = b by omega]
    · exact tget_givePool (p := s.fenced 0x06) hf _ _ (.inl hb)
    · exact (mget_clearBanks a _ _).trans (if_neg ha)
    · rw [← hzero]
      rfl

/-! ## Messages -/

/-- A host that has had page 0 translated to a page of its own, with address translation on. -/
def translatedState : State :=
  { State.reset with pcie := { State.reset.pcie with linkUp := true, atsEn := true, ats := [(0, 4096)] } }

/-- Refutes O48: an Invalidate Request of the first 4,096 bytes ends the translation of page 0 (R470), but the statement compares the range
with the pair of page and translation, in the order of pairs, and so would have it kept, at `translatedState`. -/
theorem not_endpointMessageRows : ¬Obligations.EndpointMessageRows := by
  rintro ⟨-, hinval, -⟩
  obtain ⟨t, v, hexec, -, -, hats, -⟩ := hinval translatedState 0 0 4096 (by decide +kernel) (by decide +kernel) (by decide +kernel)
  have hgone : exec (.atsInvalidateRequest 0 0 4096) translatedState = .next (modPcie translatedState (fun p => { p with
      ats := [], invals := [{ itag := 0, addr := 0, size := 4096, waits := [] }] })) := rfl
  rw [hgone, Host.Outcome.next.injEq] at hexec
  subst hexec
  have habove : ¬(4096 * ((0, 4096) : Nat × Nat) < ((0 : Nat) : Nat × Nat) + ((4096 : Nat) : Nat × Nat)) := by
    intro hlt
    have hle : 4096 * 4096 ≤ 0 + 4096 := hlt.le.2
    omega
  exact absurd ((hats (0, 4096)).2 ⟨List.mem_singleton.2 rfl, fun h => habove h.2⟩) List.not_mem_nil

end Sys2Proof.Machine
end

