-- ==== Sys2Proof/Proofs/FlashPort.lean ====
section
/-!
PROOFS. The host's flash operations: what a GO starts or ends at once (R46, R47), and what an operation leaves (R475).
-/
namespace Sys2Proof.Machine

/-! ## GO -/

section
variable {s : State} {op len : Nat}

theorem flashGo_of_busy (h : s.flashRegs.busy.isSome = true) :
    flashGo s op len = { s with flashRegs := { s.flashRegs with op := op, len := len } } := if_pos h

/-- The operation that a GO asks for, before it starts. -/
def askedOp (s : State) (op len : Nat) : FlashOp :=
  { op := op, len := len, addr := s.flashRegs.addr, data := s.flashRegs.data, waiting := true, forgotten := false }

theorem flashGo_of_free (hbusy : s.flashRegs.busy = none) (hphase : s.boot.phase ≠ .reading) :
    flashGo s op len = beginFlash { s with flashRegs := { s.flashRegs with op := op, len := len } } (askedOp s op len) := by
  refine (if_neg ?_).trans (if_neg ?_)
  · simp [hbusy]
  · simp [hphase]

theorem beginFlash_of_judged {o : FlashOp} {r : Nat} (h : flashJudge s o = some r) : beginFlash s o = endFlash s o r := by
  unfold beginFlash
  rw [h]

theorem beginFlash_of_good {o : FlashOp} (h : flashJudge s o = none) :
    beginFlash s o = { s with flashRegs := { s.flashRegs with busy := some { o with waiting := false } } } := by
  unfold beginFlash
  rw [h]

/-- A GO row is the GO of its operation. -/
theorem exec_flashGo {i : Instr} (hi : (i, op) ∈ [(Instr.flashRead len, 1), (Instr.flashProgram len, 2), (Instr.flashErase4k len, 3),
    (Instr.flashErase64k len, 4)]) (hlen : len < 512) (hopen : s.barOpen = true) : exec i s = .next (flashGo s op len) := by
  have hgo : ∀ k, memRequest s (fun s => flashGo s k (len % 512)) = flashGo s k len := fun k => by
    rw [memRequest_of_barOpen hopen, Nat.mod_eq_of_lt hlen]
  simp only [List.mem_cons, Prod.mk.injEq, List.not_mem_nil, or_false] at hi
  rcases hi with ⟨rfl, rfl⟩ | ⟨rfl, rfl⟩ | ⟨rfl, rfl⟩ | ⟨rfl, rfl⟩ <;> exact congrArg _ (hgo _)

end

/-- Settles O36: the judgement reads neither the flash registers nor whether the operation waits. -/
theorem flashGoRows : Obligations.FlashGoRows := by
  rintro s i op len o hi hlen hopen rfl
  rw [exec_flashGo hi hlen hopen]
  refine ⟨fun hbusy hphase hjudge => ?_, fun r hbusy hphase hjudge => ?_, fun hbusy => congrArg _ (flashGo_of_busy hbusy)⟩
  · rw [flashGo_of_free hbusy hphase, beginFlash_of_good]
    · rfl
    · exact hjudge
  · rw [flashGo_of_free hbusy hphase, beginFlash_of_judged (r := r)]
    · unfold endFlash
      rw [← hbusy]
      rfl
    · exact hjudge

/-! ## The end of an operation -/

@[simp] theorem raiseIrq_flashRegs (s : State) (i : Nat) : (raiseIrq s i).flashRegs = s.flashRegs :=
  (congrArg State.flashRegs (raiseIrq_frame s i) :)

@[simp] theorem raiseIrq_flash (s : State) (i : Nat) : (raiseIrq s i).flash = s.flash := (congrArg State.flash (raiseIrq_frame s i) :)

theorem signal_irqStatus (s : State) (v : Nat) : (signal s v).pcie.irqStatus = s.pcie.irqStatus := by
  unfold signal
  dsimp only
  split
  · split <;> rfl
  · split
    · rfl
    · split <;> rfl

theorem raiseIrq_irqStatus (s : State) (i : Nat) : bit (raiseIrq s i).pcie.irqStatus i = true := by
  unfold raiseIrq
  split
  · assumption
  · dsimp only
    split
    · rw [signal_irqStatus]
      exact bit_setBit_self ..
    · exact bit_setBit_self ..

section
variable {s : State} {o : FlashOp}

/-- The bytes after an operation that has been carried out. -/
theorem flashEffect_mem (h : Memory.wf 0xFF s.flash.mem = true) (a : Nat) : mget 0xFF (flashEffect s o).flash.mem a =
    (if o.op = 1 then mget 0xFF s.flash.mem a
      else if o.op = 2 then
        if o.span.1 ≤ a ∧ a < o.span.1 + o.span.2 then (sub o.data 0 o.span.2).getD (a - o.span.1) 0 else mget 0xFF s.flash.mem a
      else if o.span.1 ≤ a ∧ a < o.span.1 + o.span.2 then 0xFF else mget 0xFF s.flash.mem a) := by
  unfold flashEffect
  dsimp only
  by_cases h1 : o.op = 1
  · rw [if_pos h1, if_pos h1]
  · rw [if_neg h1, if_neg h1]
    by_cases h2 : o.op = 2
    · rw [if_pos h2, if_pos h2]
      exact (mget_mwrite _ _ _ _ h).trans (by rw [sub_length])
    · rw [if_neg h2, if_neg h2]
      exact mget_mclear _ _ _ _

/-- A failed operation leaves the bytes outside its span, and a read every byte. -/
theorem flashFailed_mem (h : Memory.wf 0xFF s.flash.mem = true) (hbusy : s.flashRegs.busy = some o) (hwait : o.waiting = false)
    (hop : o.op = 1 ∨ o.op = 2 ∨ o.op = 3 ∨ o.op = 4) (halign : 3 ≤ o.op → o.addr % o.span.2 = 0) {a : Nat}
    (ha : a < o.span.1 ∨ o.span.1 + o.span.2 ≤ a ∨ o.op = 1) : mget 0xFF (flashFailed s).flash.mem a = mget 0xFF s.flash.mem a := by
  unfold flashFailed stopFlash
  simp only [hbusy, hwait, Bool.false_or, decide_eq_true_eq]
  by_cases hread : o.op = 1
  · rw [if_pos hread]
  rw [if_neg hread]
  refine (mget_mwrite _ _ _ _ h).trans (if_neg ?_)
  rw [List.length_map, List.length_range]
  simp only [FlashOp.span] at ha halign
  rcases hop with hop | hop | hop | hop
  · exact absurd hop hread
  all_goals
    simp [hop] at ha halign ⊢
    omega

theorem flashEffect_boot (s : State) (o : FlashOp) : (flashEffect s o).boot = s.boot := by
  simp only [flashEffect, apply_ite State.boot, ite_self]

theorem stopFlash_boot (s : State) : (stopFlash s).boot = s.boot := by
  unfold stopFlash
  split
  · rfl
  · simp only [apply_ite State.boot, ite_self]

theorem endFlash_of_kept (h : o.forgotten = false) (r : Nat) : endFlash s o r =
    raiseIrq { s with flashRegs := { s.flashRegs with busy := none, done := true, result := r } } 1 := if_neg (by simp [h])

theorem exec_flashOperationComplete {ok : Bool} (hbusy : s.flashRegs.busy = some o) (hwait : o.waiting = false) (hkept : o.forgotten = false)
    (hsize : s.flash.sizeMbit ≠ 0) (hphase : s.boot.phase ≠ .reading) : exec (.flashOperationComplete ok) s =
      .next (endFlash (if ok = true then flashEffect s o else flashFailed s) o (if ok = true then 0 else 4)) := by
  change execFlashOperationComplete ok s = _
  have hgood : (ok && decide (s.flash.sizeMbit ≠ 0)) = ok := by simp [hsize]
  unfold execFlashOperationComplete
  simp only [hbusy, hgood]
  rw [if_neg (by simp [hwait])]
  refine congrArg Host.Outcome.next (if_neg ?_)
  have hphase' : (endFlash (if ok = true then flashEffect s o else flashFailed s) o (if ok = true then 0 else 4)).boot.phase ≠ .reading := by
    rw [endFlash_of_kept hkept, raiseIrq_boot]
    cases ok with
    | true => exact (flashEffect_boot s o).symm ▸ hphase
    | false => exact (stopFlash_boot s).symm ▸ hphase
  simp [hphase']

end

/-- Settles O37: the bytes that an operation leaves are those of `flashEffect` and `flashFailed`; its end touches the registers alone. -/
theorem flashOperationEnds : Obligations.FlashOperationEnds := by
  intro s o ok hmem hbusy hwait hkept hsize hphase hop halign
  have hwf : Memory.wf 0xFF s.flash.mem = true := (memOk_parts hmem).2.1
  refine ⟨_, exec_flashOperationComplete hbusy hwait hkept hsize hphase, ?_⟩
  generalize hu : (if ok = true then flashEffect s o else flashFailed s) = u
  rw [endFlash_of_kept hkept, raiseIrq_flashRegs, raiseIrq_flash]
  refine ⟨rfl, rfl, rfl, raiseIrq_irqStatus _ _, fun a ha => ?_, fun hok => ?_⟩
  · rw [← hu]
    cases ok with
    | true =>
      refine (flashEffect_mem hwf a).trans ?_
      by_cases hread : o.op = 1
      · rw [if_pos hread]
      · have hout : ¬(o.span.1 ≤ a ∧ a < o.span.1 + o.span.2) := by omega
        rw [if_neg hread, if_neg hout, if_neg hout, ite_self]
    | false => exact flashFailed_mem hwf hbusy hwait hop halign ha
  · obtain rfl : flashEffect s o = u := by rw [← hu, if_pos hok]
    refine ⟨fun h1 => ?_, fun h2 k hk => ?_, fun h3 a hlo hhi => ?_⟩
    · simp [flashEffect, FlashOp.span, h1]
    · have hspan : o.span = (o.addr, o.len) := by simp [FlashOp.span, h2]
      refine (flashEffect_mem hwf _).trans ?_
      rw [if_neg (by omega), if_pos h2, hspan, if_pos (by dsimp only; omega), Nat.add_sub_cancel_left]
    · refine (flashEffect_mem hwf _).trans ?_
      rw [if_neg (by omega), if_neg (by omega), if_pos ⟨hlo, hhi⟩]

end Sys2Proof.Machine
end

