-- ==== Sys2Proof/Proofs/RingTable.lean ====
section
/-!
PROOFS. The host's writes of a ring's entry of the ring table (R340, R341, R346).
-/
namespace Sys2Proof.Machine

section
variable {s : State} {r v : Nat}

/-- A write of a ring that is a host ring and declared. -/
theorem writeRt_of_host (hhost : isHostRing r = true) (hkind : ringKind s r ≠ 0) (k v : Nat) : writeRt s r k v =
    (if k = 0x00 then writeRtCtrl s r v else if k = 0x04 then writeRtNotify s r v else writeRtPlace s r k v) :=
  if_neg (by simp [hhost, hkind])

/-- A ring's entry after a write of RT_CTRL, before ENABLE is set. -/
def ctrlOff (v : Nat) (g : Ring) : Ring :=
  { g with error := g.error && !bit v 30, dbBad := g.dbBad && !bit v 29, vector := v % 2048, enable := false }

/-- RT_CTRL with ENABLE clear disables the ring. -/
theorem writeRtCtrl_of_clear (h : bit v 31 = false) : writeRtCtrl s r v = modRing s r (ctrlOff v) := by
  simp only [writeRtCtrl, h, Bool.and_false, Bool.false_and]
  rfl

/-- RT_CTRL with ENABLE set starts a disabled ring with the VECTOR written. -/
theorem writeRtCtrl_of_set (hoff : (s.ring r).enable = false) (h : bit v 31 = true) :
    writeRtCtrl s r v = ringStart (modRing s r (ctrlOff v)) r := by
  simp only [writeRtCtrl, hoff, h, Bool.false_and, Bool.not_false, Bool.and_self, if_true]
  rfl

/-- The checks of R341 but for VECTOR, of which a write keeps 11 bits. -/
theorem enableOk_ctrlOff (r v : Nat) (g : Ring) : enableOk r (ctrlOff v g) = true ↔
    g.base % 4096 = 0 ∧ g.wb % 8 = 0 ∧ g.wb ≠ 0 ∧ ringSizeOk r g.size = true := by
  have hv : v % 2048 < 2048 := Nat.mod_lt _ (by decide)
  change (decide (g.base % 4096 = 0) && decide (g.wb % 8 = 0) && decide (g.wb ≠ 0) && decide (v % 2048 < 2048) && ringSizeOk r g.size) = true ↔ _
  simp only [hv, Bool.and_eq_true, decide_eq_true_eq, and_true, and_assoc]

/-- A ring that passes is enabled with its indices at 0. -/
theorem ringStart_of_ok (hok : enableOk r (ctrlOff v (s.ring r)) = true) (hserve : s.fenced 0x0A r = false) :
    ∃ u, (u.ring r).enable = true ∧ (u.ring r).prod = 0 ∧ (u.ring r).cons = 0 ∧ (u.ring r).waiting = 0 ∧ (u.ring r).vector = v % 2048 ∧
      (∀ r', r' ≠ r → u.ring r' = s.ring r') ∧ { u with rings := s.rings } = s ∧
      ringStart (modRing s r (ctrlOff v)) r = if rkind r = 5 then writeCompletions u else u := by
  refine ⟨modRing (modRing s r (ctrlOff v)) r (fun g => { g with enable := true, prod := 0, cons := 0, waiting := 0, due := false }),
    ?_, ?_, ?_, ?_, ?_, fun r' h => ?_, rfl, if_pos ?_⟩
  case refine_6 => rw [ring_modRing_ne _ _ h, ring_modRing_ne _ _ h]
  case refine_7 =>
    rw [ring_modRing_self, hok, show (modRing s r (ctrlOff v)).fenced 0x0A r = false from hserve]
    rfl
  all_goals
    rw [ring_modRing_self, ring_modRing_self] <;> rfl

/-- A ring that fails a check, or is fenced, stays disabled and shows ERROR. -/
theorem ringStart_of_bad (h : enableOk r (ctrlOff v (s.ring r)) = false ∨ s.fenced 0x0A r = true) :
    ringStart (modRing s r (ctrlOff v)) r = modRing s r (fun g => { ctrlOff v g with error := true }) := by
  refine (if_neg ?_).trans (modRing_modRing s r _ _)
  rw [ring_modRing_self, show (modRing s r (ctrlOff v)).fenced 0x0A r = s.fenced 0x0A r from rfl]
  rcases h with h | h <;> simp [h]

end

/-- Settles O39: each row is a write of one ring's entry, whose other rings stay. -/
theorem ringControlRows : Obligations.RingControlRows := by
  rintro s r v g hopen hbound hhost hkind rfl
  have hctrl : boundWrite s (fun s => writeRt s r 0x00 v.toNat) = writeRtCtrl s r v.toNat := by
    rw [boundWrite_of_isBound hopen hbound, writeRt_of_host hhost hkind, if_pos rfl]
  have hnotify : boundWrite s (fun s => writeRt s r 0x04 v.toNat) = writeRtNotify s r v.toNat := by
    rw [boundWrite_of_isBound hopen hbound, writeRt_of_host hhost hkind, if_neg (by decide), if_pos rfl]
  refine ⟨fun hoff hset => ?_, fun hclear => congrArg Host.Outcome.next (hctrl.trans (writeRtCtrl_of_clear hclear)), ?_⟩
  · have hexec : exec (.ringEnable r v) s = .next (ringStart (modRing s r (ctrlOff v.toNat)) r) :=
      congrArg Host.Outcome.next (hctrl.trans (writeRtCtrl_of_set hoff hset))
    refine ⟨fun hbase hwb hwb0 hsize hserve => ?_, fun hbad => ?_⟩
    · obtain ⟨u, hen, hprod, hcons, hwait, hvec, hother, hrest, hstart⟩ :=
        ringStart_of_ok ((enableOk_ctrlOff r v.toNat _).2 ⟨hbase, hwb, hwb0, hsize⟩) hserve
      exact ⟨u, hen, hprod, hcons, hwait, hvec, hother, hrest, hexec.trans (congrArg _ hstart)⟩
    · have hfail : enableOk r (ctrlOff v.toNat (s.ring r)) = false ∨ s.fenced 0x0A r = true := by
        rw [← Bool.not_eq_true, enableOk_ctrlOff]
        rw [← Bool.not_eq_true (ringSizeOk _ _)] at hbad
        tauto
      refine ⟨_, hexec.trans (congrArg _ (ringStart_of_bad hfail)), ?_, ?_, fun r' h => ring_modRing_ne _ _ h, rfl⟩ <;>
      · rw [ring_modRing_self] <;> rfl
  · rintro u rfl
    refine congrArg Host.Outcome.next (hnotify.trans ?_)
    unfold writeRtNotify
    refine if_congr ?_ rfl rfl
    simp [and_assoc]

end Sys2Proof.Machine
end

