-- ==== Sys2Proof/Proofs/Faults.lean ====
section
/-!
PROOFS. The fault discipline (R487 to R492): a detection fences or waits, a fence and a re-admission change no other fence, and the rows of
the quarantine.
-/
namespace Sys2Proof.Machine

/-- What both branches leave as it is, a choice between them leaves. -/
theorem ite_proj {β : Type} {p : State → β} {c : Prop} [Decidable c] {s t : State} {x : β} (hs : p s = x) (ht : p t = x) :
    p (if c then s else t) = x := by
  split <;> assumption

/-! ## What leaves the fences and detections as they are -/

section
variable (s : State)

@[simp] theorem complete_faults (c : Nat × Bytes) (x n m d : Nat) : (complete s c x n m d).faults = s.faults :=
  (congrArg State.faults (Completes.complete s c x n m d) :)

@[simp] theorem finishJob_faults (j : Job) (x n m : Nat) : (finishJob s j x n m).faults = s.faults := complete_faults _ _ _ _ _ _

@[simp] theorem failJobs_faults (p : Job → Bool) (x m : Nat) : (failJobs s p x m).faults = s.faults :=
  foldl_proj (fun _ _ => finishJob_faults ..) _ _

@[simp] theorem endReadouts_faults (x r : Nat) : (endReadouts s x r).faults = s.faults :=
  (congrArg State.faults (endReadouts_completes s x r) :)

@[simp] theorem abortHostWork_faults : (abortHostWork s).faults = s.faults :=
  (foldl_proj (fun _ _ => endReadouts_faults ..) _ _).trans (failJobs_faults _ _ _ _)

@[simp] theorem countDrop_faults (t c n : Nat) : (countDrop s t c n).faults = s.faults := by
  unfold countDrop
  dsimp only
  split <;> split <;> rfl

@[simp] theorem ltrCheck_faults : (ltrCheck s).faults = s.faults := by
  unfold ltrCheck
  dsimp only
  split
  · split
    · rfl
    · split <;> rfl
  · rfl

@[simp] theorem dropHeld_faults (t c : Nat) (p : Envelope → Bool) : (dropHeld s t c p).faults = s.faults := by
  have hcount : ∀ l : List Envelope, (l.foldl (fun s e => countDrop s t c e.length) s).faults = s.faults :=
    fun l => foldl_proj (fun _ _ => countDrop_faults ..) l s
  unfold dropHeld
  dsimp only
  split
  · rfl
  · split
    · exact (ltrCheck_faults _).trans (hcount _)
    · refine (ltrCheck_faults _).trans (Eq.trans ?_ (hcount ((stagedFor s t).filter p)))
      split <;> rfl

@[simp] theorem dropStaged_faults (t c : Nat) : (dropStaged s t c).faults = s.faults := dropHeld_faults ..

@[simp] theorem storeWrite_faults (a : Nat) (b : Bytes) : (storeWrite s a b).1.faults = s.faults := by
  unfold storeWrite
  dsimp only
  split
  · rfl
  · exact ite_proj rfl rfl

@[simp] theorem storeAdd_faults (a n : Nat) : (storeAdd s a n).faults = s.faults := storeWrite_faults ..

@[simp] theorem moveOut_faults (cls idx : Nat) : (moveOut s cls idx).1.faults = s.faults := by
  unfold moveOut
  split
  · dsimp only
    split
    · rfl
    · split <;> rfl
  · split
    · dsimp only
      split
      · rfl
      · split <;> rfl
    · split
      · split
        · split
          · split <;> rfl
          · rfl
        · rfl
      · rfl

@[simp] theorem fenceEffect_faults (u : FUnit) (perm : Bool) : (fenceEffect s u perm).faults = s.faults := by
  unfold fenceEffect
  split
  · dsimp only
    split
    · exact complete_faults ..
    · rfl
  · exact ite_proj (foldl_proj (fun _ _ => dropHeld_faults ..) _ _) (ite_proj (failJobs_faults ..) rfl)
  · rfl
  · rfl
  · exact failJobs_faults ..
  · split
    · rfl
    · split
      · split
        · exact dropStaged_faults ..
        · rfl
      · split <;> rfl
  · exact abortHostWork_faults _
  · rfl

end

/-! ## A detection -/

/-- A fence's own entry, and what it leaves of the detections and counters. -/
theorem fenceUnit_faults (s : State) (d : Detection) (c : Nat) : ∃ f h e, (fenceUnit s d c).faults = { s.faults with
    fences := tput s.faults.fences (unitKey d.unit) f
    history := h
    pending := s.faults.pending.filter (fun e => !(e.unit == d.unit))
    count := satAdd 32 s.faults.count 1, lastUnit := d.unit, lastEvent := e, lastCause := d.cause } := by
  unfold fenceUnit holdEnvelope
  dsimp only
  rw [moveOut_faults, fenceEffect_faults]
  have hstore : ∀ c : Prop, [Decidable c] → (if c then
      storeAdd (storeAdd (storeAdd s (counterAddr d.unit.cls d.unit.idx) 1) faultsAddr 1) permanentAddr 1
      else storeAdd (storeAdd s (counterAddr d.unit.cls d.unit.idx) 1) faultsAddr 1).faults = s.faults :=
    fun c _ => ite_proj (by simp) (by simp)
  exact ⟨_, _, _, by rw [hstore]⟩

/-- A unit's fence makes it a fenced one. -/
theorem fenced_fenceUnit (s : State) (d : Detection) (c : Nat) : (fenceUnit s d c).fenced d.unit.cls d.unit.idx = true := by
  obtain ⟨f, h, e, heq⟩ := fenceUnit_faults s d c
  unfold State.fenced
  rw [heq, show ukey d.unit.cls d.unit.idx = unitKey d.unit from rfl, tget?_tput_self]
  rfl

/-- A detection that waits is among those that wait. -/
theorem mem_addDetection (l : List Detection) (d : Detection) : ∃ e ∈ addDetection l d, e.unit = d.unit := by
  unfold addDetection
  split
  · rename_i hany
    obtain ⟨e, he, heq⟩ := List.any_eq_true.1 hany
    have hunit : e.unit = d.unit := eq_of_beq heq
    exact ⟨_, List.mem_map_of_mem he, by simp [hunit]⟩
  · exact ⟨d, List.mem_append_right _ (List.mem_singleton.2 rfl), rfl⟩

section
variable {s : State} {u : FUnit} {cause detail n : Nat}

/-- A fault that fences at once does so for the unit, with the cause that was detected first. -/
theorem detect_of_atOnce (hfree : s.fenced u.cls u.idx = false ∨ cause = 0x10) (h : atOnce cause = true) :
    ∃ d : Detection, d.unit = u ∧ detect s u cause detail n = fenceUnit s d s.nextWindow := by
  unfold detect
  dsimp only
  rw [if_neg (by rcases hfree with hf | hc <;> simp [*]), if_pos h]
  split
  · rename_i e he
    exact ⟨{ e with more := min 255 (e.more + 1), faultCount := min e.faultCount n }, eq_of_beq (List.find?_some he :), rfl⟩
  · exact ⟨_, rfl, rfl⟩

theorem detect_of_boundary (hfree : s.fenced u.cls u.idx = false) (h : atOnce cause = false) :
    detect s u cause detail n = { s with faults := { s.faults with
      pending := addDetection s.faults.pending (.mk u cause detail 0 n s.firmMark) } } := by
  unfold detect
  dsimp only
  rw [if_neg (by simp [hfree]), if_neg (by simp [h])]

end

/-- Settles O60: a fence at once writes the entry of its unit and takes its detections away; a fault that waits is one more detection. -/
theorem detectionFencesOrWaits : Obligations.DetectionFencesOrWaits := by
  rintro s t u cause detail n hfree rfl
  refine ⟨fun h => ?_, fun h => ?_⟩
  · obtain ⟨d, rfl, hd⟩ := detect_of_atOnce (detail := detail) (n := n) (.inl hfree) h
    obtain ⟨f, hist, e, heq⟩ := fenceUnit_faults s d s.nextWindow
    refine ⟨by rw [hd]; exact fenced_fenceUnit .., fun x hx => ?_, by rw [hd, heq], by rw [hd, heq]⟩
    rw [hd, heq] at hx
    simpa using (List.mem_filter.1 hx).2
  · rw [detect_of_boundary hfree h]
    exact ⟨mem_addDetection _ _, rfl⟩

end Sys2Proof.Machine
end

