-- ==== Sys2Proof/Proofs/Quarantine.lean ====
section
/-!
PROOFS. The rows of the fault discipline: fences by command, the self-test after a quarantine, and the return of a unit (R487 to R492).
-/
namespace Sys2Proof.Machine

/-- The instant is read from time alone. -/
theorem now_of_time {s t : State} (h : t.time = s.time) : t.now = s.now := congrArg Time.now h

/-! ## The fence of one unit -/

@[simp] theorem tget?_tdel_self {α : Type} (k : Nat) : ∀ t : Tbl α, tget? (tdel t k) k = none
  | [] => rfl
  | (j, v) :: t => by
    by_cases h : j = k
    · simpa [tdel, h] using tget?_tdel_self k t
    · simpa [tdel, h, tget?] using tget?_tdel_self k t

theorem modFence_now (s : State) (u : FUnit) (g : Fence → Fence) : (modFence s u g).now = s.now := now_of_time rfl

/-- A fence after it has been changed. -/
theorem tget?_modFence {s : State} {u : FUnit} {f : Fence} (h : tget? s.faults.fences (unitKey u) = some f) (g : Fence → Fence) :
    tget? (modFence s u g).faults.fences (unitKey u) = some (g f) := by
  unfold modFence
  simp [h]

/-! ## The self-test -/

/-- A self-test may take a bank: for a lane alone, and of the banks their owners alone. -/
theorem patternBank_eq (s : State) (u : FUnit) : ∃ o, patternBank s u = { s with banks := { s.banks with owner := o } } := by
  unfold patternBank
  split
  · exact ⟨s.banks.owner, rfl⟩
  · split
    · exact ⟨_, rfl⟩
    · exact ⟨s.banks.owner, rfl⟩

theorem patternBank_of_ne {s : State} {u : FUnit} (h : u.cls ≠ 0x04) : patternBank s u = s := if_pos h

/-- The instant of a quarantine's end, and what the start of the self-test leaves. -/
theorem exec_quarantineEnd {s : State} {u : FUnit} {f : Fence} {e : Nat} (hf : tget? s.faults.fences (unitKey u) = some f)
    (hend : f.quarEnd = some e) (htest : f.testing = false) (hpass : f.passed = none) (htick : ∀ n ∈ s.nextTick, e ≤ n) :
    exec (.quarantineEnd u) s = .next (if u.cls = 0x01
      then islandPower (modFence (advanceTo s e) u (fun f => { f with testing := true })) u.idx .powering
      else patternBank (modFence (advanceTo s e) u (fun f => { f with testing := true })) u) := by
  change execQuarantineEnd u s = _
  unfold execQuarantineEnd
  simp only [hf, hend, htest, hpass]
  refine if_neg ?_
  cases hn : s.nextTick with
  | none => simp
  | some n => simpa using htick n hn

/-- The start of a self-test at an instant. -/
theorem startTest_parts {s : State} {u : FUnit} {f : Fence} (hf : tget? s.faults.fences (unitKey u) = some f) (e : Nat) :
    tget? (modFence (advanceTo s e) u (fun f => { f with testing := true })).faults.fences (unitKey u) = some { f with testing := true } ∧
    { modFence (advanceTo s e) u (fun f => { f with testing := true }) with faults := s.faults, time := s.time } = s ∧
    (modFence (advanceTo s e) u (fun f => { f with testing := true })).now = max s.now e := by
  have hnow := advanceTo_now s e
  obtain ⟨w, k, hadv⟩ := advanceTo_eq s e
  rw [hadv] at hnow ⊢
  exact ⟨tget?_modFence hf _, rfl, (modFence_now _ _ _).trans hnow⟩

/-- What the self-test of a unit takes besides: a group's island takes power, and a lane a bank. -/
theorem testing_parts {s v : State} {u : FUnit} {f : Fence} {n : Nat} (hnow : v.now = n)
    (htested : tget? v.faults.fences (unitKey u) = some f) (hrest : { v with faults := s.faults, time := s.time } = s) :
    ∃ t, (if u.cls = 0x01 then islandPower v u.idx .powering else patternBank v u) = t ∧ t.now = n ∧
      tget? t.faults.fences (unitKey u) = some f ∧
      (u.cls ≠ 0x01 → { t with faults := s.faults, time := s.time, banks := { t.banks with owner := s.banks.owner } } = s) ∧
      (u.cls ≠ 0x04 → t.banks = s.banks) := by
  refine ⟨_, rfl, ?_⟩
  by_cases hg : u.cls = 0x01
  · rw [if_pos hg]
    exact ⟨hnow, htested, fun h => absurd hg h, fun _ => (congrArg State.banks hrest :)⟩
  · rw [if_neg hg]
    have hbanks : v.banks = s.banks := (congrArg State.banks hrest :)
    by_cases hlane : u.cls = 0x04
    · obtain ⟨o, hbank⟩ := patternBank_eq v u
      rw [hbank, ← hbanks]
      exact ⟨(now_of_time rfl).trans hnow, htested, fun _ => hrest, fun h => absurd hlane h⟩
    · rw [patternBank_of_ne hlane, ← hbanks]
      exact ⟨hnow, htested, fun _ => hrest, fun _ => rfl⟩

/-! ## A group's self-test leaves the fences -/

section
variable (s : State) (g : Nat)

theorem followInput_faults (c n : Nat) : (followInput s c n).faults = s.faults := rfl

theorem applySettings_faults : (applySettings s g).faults = s.faults := by
  unfold applySettings followAll
  exact foldl_proj (fun _ _ => followInput_faults ..) _ _

theorem setTrims_faults (t : List (Nat × Nat)) : (setTrims s g t).faults = s.faults := by
  unfold setTrims
  exact applySettings_faults _ _

theorem exchange_faults (l : List (Nat × Bytes)) : (exchange s g l).faults = s.faults := rfl

theorem applyAlign_faults (d : CalData) : (applyAlign s g d).faults = s.faults := rfl

theorem islandTemp_fences (t : Int) : (islandTemp s g t).faults.fences = s.faults.fences := by
  have hheat : ∀ (s : State) (u : FUnit) (d n : Nat), (detect s u 0x0C d n).faults.fences = s.faults.fences := fun s u d n => by
    unfold detect
    exact ite_proj (p := fun s => s.faults.fences) rfl rfl
  unfold islandTemp
  exact ite_proj (p := fun s => s.faults.fences) ((hheat ..).trans (ite_proj (p := fun s => s.faults.fences) rfl rfl))
    (ite_proj (p := fun s => s.faults.fences) rfl rfl)

theorem recordCal_fences (l : List (Nat × Nat)) (d : CalData) : (recordCal s g l d).faults.fences = s.faults.fences := by
  unfold recordCal
  exact islandTemp_fences _ _ _

theorem applyCal_fences (d : CalData) : (applyCal s g d).faults.fences = s.faults.fences := by
  unfold applyCal
  refine (recordCal_fences _ _ _ _).trans (congrArg Faults.fences ?_)
  exact (exchange_faults _ _ _).trans ((setTrims_faults _ _ _).trans ((exchange_faults _ _ _).trans (applyAlign_faults _ _ _)))

theorem sendSettings_faults : (sendSettings s g).faults = s.faults := by
  unfold sendSettings
  exact applySettings_faults _ _

theorem islandUp_faults (st : GState) : (islandUp s g st).faults = s.faults := by
  unfold islandUp
  dsimp only
  rw [modGroup_faults, sendSettings_faults]
  rfl

theorem islandReady_fences (r : GroupBoot) (st : GState) : (islandReady s r st).faults.fences = s.faults.fences := by
  unfold islandReady
  dsimp only
  rw [modGroup_faults, applyCal_fences, islandUp_faults]

theorem testedGroup_fences (u : FUnit) (r : Option GroupBoot) : (testedGroup s u r).faults.fences = s.faults.fences := by
  unfold testedGroup
  split
  · exact ite_proj (p := fun s => s.faults.fences) (islandReady_fences ..) rfl
  · rfl

end

/-- Units other than groups pass with nothing of a group. -/
theorem testedGroup_of_ne {s : State} {u : FUnit} (h : u.cls ≠ 0x01) (r : Option GroupBoot) : testedGroup s u r = s := by
  unfold testedGroup
  split
  · exact if_neg h
  · rfl

/-! ## Re-admission -/

section
variable (s : State)

/-- The moves of stranded work touch no fence. -/
theorem moveStranded_faults : (moveStranded s).faults = s.faults :=
  foldl_proj (fun _ _ => ite_proj (moveOut_faults ..) rfl) _ _

theorem moveBack_faults (cls idx : Nat) : (moveBack s cls idx).faults = s.faults := by
  unfold moveBack
  split
  · exact (moveStranded_faults _).trans (ite_proj rfl rfl)
  · split
    · exact ite_proj rfl rfl
    · split
      · split <;> rfl
      · rfl

/-- What sends the pending messages changes the PBA and the outputs alone. -/
theorem flushPba_frame : { flushPba s with pcie := { (flushPba s).pcie with pba := s.pcie.pba }, out := s.out } = s :=
  foldl_proj (p := fun t : State => { t with pcie := { t.pcie with pba := s.pcie.pba }, out := s.out })
    (fun t v => by dsimp only; split <;> rfl) s.pcie.pba s

theorem resumeIssue_faults : (resumeIssue s).faults = s.faults :=
  (congrArg State.faults (Completes.writeCompletions (flushPba s)) :).trans (congrArg State.faults (flushPba_frame s) :)

end

/-- A unit that is re-admitted has no fence. -/
theorem tget?_readmitUnit {s : State} {u : FUnit} (h : u.cls = 0x08 → s.clocks.pllM.lock = true) :
    tget? (readmitUnit s u).faults.fences (unitKey u) = none := by
  have hlock : (u.cls != 0x08 || s.clocks.pllM.lock) = true := by
    by_cases hc : u.cls = 0x08
    · simp [h hc]
    · simp [hc]
  unfold readmitUnit holdEnvelope
  split
  · rename_i hnone
    simpa [hlock, Option.eq_none_iff_forall_ne_some] using hnone
  · dsimp only
    generalize hv : moveBack _ _ _ = v
    have hgone : tget? v.faults.fences (unitKey u) = none := by
      rw [← hv, moveBack_faults, tget?_tdel_self]
    split
    · exact hgone
    · exact hgone
    · exact hgone
    · exact hgone
    · rw [resumeIssue_faults]
      exact hgone
    · exact hgone

/-- The bank owner set of a lane's test comes back, and the Franking Store's test writes its word. -/
theorem storeTest_of_store {s : State} {u : FUnit} (hu : u.cls = 0x0E) (hcopy : s.franking.noCopy = false) (hgood : s.franking.failing = 0) :
    storeTest s u = { s with free := s.free + 1, franking := { s.franking with
      mem := mwrite 0 s.franking.mem testWordAddr (le 8 (Config.freeValue s.free).toNat) } } := by
  unfold storeTest
  rw [if_pos (by simp [hu, hcopy])]
  unfold storeWrite takeFree
  exact congrArg Prod.fst (if_pos hgood)

theorem storeTest_of_not {s : State} {u : FUnit} (h : u.cls ≠ 0x0E ∨ s.franking.noCopy = true) : storeTest s u = s := by
  refine if_neg ?_
  rcases h with h | h <;> simp [h]

theorem patternDone_of_ne {s : State} {u : FUnit} (h : u.cls ≠ 0x04) : patternDone s u = s := if_pos h

/-- What a self-test's end takes back is banks and the Franking Store. -/
theorem storeTest_frame (s : State) (u : FUnit) :
    { storeTest s u with franking := s.franking, free := s.free } = s := by
  unfold storeTest
  split
  · unfold storeWrite takeFree
    dsimp only
    split
    · rfl
    · split <;> rfl
  · rfl

theorem patternDone_frame (s : State) (u : FUnit) : { patternDone s u with banks := s.banks } = s := by
  unfold patternDone
  split <;> rfl

/-- The end of a self-test keeps time, the configuration and the fences. -/
theorem selfTested_parts (s : State) (u : FUnit) : (storeTest (patternDone s u) u).now = s.now ∧
    (storeTest (patternDone s u) u).cfg = s.cfg ∧ (storeTest (patternDone s u) u).faults = s.faults := by
  have hstore := storeTest_frame (patternDone s u) u
  have hpattern := patternDone_frame s u
  exact ⟨now_of_time ((congrArg State.time hstore :).trans (congrArg State.time hpattern :)), (congrArg State.cfg hstore :).trans (congrArg State.cfg hpattern :),
    (congrArg State.faults hstore :).trans (congrArg State.faults hpattern :)⟩

/-- Settles O59: each row changes one unit's entry, and what a test or a return does besides leaves the fences alone. -/
theorem faultDisciplineRows : Obligations.FaultDisciplineRows := by
  refine ⟨fun s u cause detail hpow hexists hcause htick hfree => ?_, fun s u f e hf hend htest hpass htick => ?_,
    fun s u f b r hf htest => ?_, fun s u f hf hmay hbound => ⟨?_, fun hlock => ?_⟩⟩
  · change execFence u cause detail s = _
    refine if_pos ?_
    have htick' : (s.ticking || atOnce cause) = true := by simpa using htick
    have hfree' : (!s.fenced u.cls u.idx || decide (cause = 0x0E)) = true := by simpa using hfree
    simp only [hpow, hexists, hcause, htick', hfree', Bool.and_self]
  · refine ⟨_, exec_quarantineEnd hf hend htest hpass htick, ?_⟩
    obtain ⟨htested, hrest, hnow⟩ := startTest_parts hf e
    generalize modFence (advanceTo s e) u _ = v at htested hrest hnow ⊢
    obtain ⟨t, rfl, ht⟩ := testing_parts hnow htested hrest
    exact ht
  · obtain ⟨hnow, hcfg, hfaults⟩ := selfTested_parts s u
    have hexec : exec (.selfTestComplete u b r) s = .next (if testPasses (storeTest (patternDone s u) u) u b r = true
        then modFence (testedGroup (storeTest (patternDone s u) u) u r) u
          (fun f => { f with testing := false, passed := some (readyAt (storeTest (patternDone s u) u) u) })
        else detect (failedGroup (storeTest (patternDone s u) u) u r) u 0x10 0 (storeTest (patternDone s u) u).released) := by
      change execSelfTestComplete u b r s = _
      unfold execSelfTestComplete
      simp only [hf, htest, Bool.not_true, Bool.false_eq_true, if_false]
      split <;> rfl
    refine ⟨_, rfl, fun h4 h14 => ?_, fun h4 => ?_, fun h14 hcopy hgood => ?_, fun h14 hcopy => ?_, fun hpass => ⟨?_, ?_, ?_, fun hg => ?_⟩,
      fun hfail => ?_⟩
    · rw [patternDone_of_ne h4, storeTest_of_not (.inl h14)]
    · rw [storeTest_of_not (.inl (by omega))]
      exact if_neg (by simp [h4])
    · rw [patternDone_of_ne (by omega), storeTest_of_store h14 hcopy hgood]
    · rw [patternDone_of_ne (by omega), storeTest_of_not (.inr hcopy)]
    · rw [hexec, if_pos hpass]
    · refine tget?_modFence ?_ _
      rw [testedGroup_fences, hfaults, hf]
    · unfold readyAt
      rw [hnow, hcfg]
      rfl
    · exact testedGroup_of_ne hg r
    · rw [hexec, if_neg (by simp [hfail])]
  · change execReadmit u s = _
    unfold execReadmit
    rw [hf]
    exact congrArg _ (if_pos (by rw [hmay, hbound]; rfl))
  · unfold readmit
    refine tget?_readmitUnit fun h => ?_
    rw [if_neg (by omega)]
    exact hlock h

end Sys2Proof.Machine
end

