-- ==== Sys2Proof/Proofs/FrameValues.lean ====
section
/-!
PROOFS. The arithmetic of frame values: rounding with saturation (R263, R272) and the accumulator of a block (R304).
-/
namespace Sys2Proof.Machine

/-! ## Rounding -/

/-- Between two multiples of a positive number lies one quotient. -/
theorem fdiv_eq {y e b : Int} (hb : 0 < b) (hlo : b * e ≤ y) (hhi : y < b * (e + 1)) : fdiv y b = e := by
  unfold fdiv
  rw [Int.fdiv_eq_ediv_of_nonneg _ hb.le]
  exact le_antisymm (Int.lt_add_one_iff.1 (Int.ediv_lt_of_lt_mul hb (by linarith))) (Int.le_ediv_of_mul_le hb (by linarith))

/-- The nearest integer, a tie the greater one, is the value before saturation. -/
theorem sincScale_eq {y e : Int} {k : Nat} (hlo : 2 ^ k * (2 * e) ≤ 2 * y + 2 ^ k) (hhi : 2 * y + 2 ^ k < 2 ^ k * (2 * e + 2)) :
    sincScale y k = satIntB 32 e := by
  unfold sincScale
  congr 1
  cases k with
  | zero => simp at hlo hhi ⊢; omega
  | succ k =>
    rw [if_neg (Nat.succ_ne_zero k), Nat.add_sub_cancel]
    push_cast
    have hpow : (0 : Int) < 2 ^ k := by positivity
    refine fdiv_eq (by positivity) ?_ ?_ <;> rw [pow_succ] at * <;> linarith

theorem satIntB_snd (w : Nat) (e : Int) : (satIntB w e).2 = true ↔ (satIntB w e).1 ≠ e := decide_eq_true_iff

/-! ## The accumulator -/

/-- Exact sums of the differences from a reference, and of their squares. -/
def diffSum (x : Int) (xs : List Int) : Int := (xs.map (· - x)).sum

def squareSum (x : Int) (xs : List Int) : Int := (xs.map fun z => (z - x) * (z - x)).sum

/-- One more result in a block that has begun. -/
theorem accAdd_of_begun {m : Meas} (h : m.k ≠ 0) (z : Int) : accAdd m z = { m with
    sum := m.sum + (z - m.x0), k := m.k + 1, mn := min m.mn z, mx := max m.mx z
    sqsat := m.sqsat || 2 ^ 80 - 1 < m.sq + (z - m.x0).natAbs * (z - m.x0).natAbs
    sq := if (m.sqsat || 2 ^ 80 - 1 < m.sq + (z - m.x0).natAbs * (z - m.x0).natAbs) = true then m.sq
      else m.sq + (z - m.x0).natAbs * (z - m.x0).natAbs } := by
  unfold accAdd
  rw [if_neg h]

/-- The first result of a block is its reference. -/
theorem accAdd_of_start {m : Meas} (h : m.k = 0) (x : Int) : accAdd m x = { m with
    x0 := x, mn := x, mx := x, sum := 0, sq := 0, sqsat := false, k := 1 } := by
  unfold accAdd
  rw [if_pos h]
  simp [h]

theorem accSum_of_begun : ∀ (xs : List Int) {m : Meas}, m.k ≠ 0 →
    (xs.foldl accAdd m).k = m.k + xs.length ∧ (xs.foldl accAdd m).x0 = m.x0 ∧ (xs.foldl accAdd m).sum = m.sum + diffSum m.x0 xs
  | [], m, _ => by simp [diffSum]
  | z :: xs, m, h => by
    have hz := accAdd_of_begun h z
    obtain ⟨hk, hx, hs⟩ := accSum_of_begun xs (m := accAdd m z) (by rw [hz]; exact Nat.succ_ne_zero _)
    rw [List.foldl_cons, hk, hx, hs, hz]
    refine ⟨by simp; omega, rfl, ?_⟩
    simp [diffSum]
    omega

/-- The least and the greatest of a block's results so far. -/
theorem accBounds_of_begun : ∀ (xs : List Int) {m : Meas}, m.k ≠ 0 →
    ((xs.foldl accAdd m).mn ∈ m.mn :: xs ∧ ∀ z ∈ m.mn :: xs, (xs.foldl accAdd m).mn ≤ z) ∧
    ((xs.foldl accAdd m).mx ∈ m.mx :: xs ∧ ∀ z ∈ m.mx :: xs, z ≤ (xs.foldl accAdd m).mx)
  | [], m, _ => by simp
  | z :: xs, m, h => by
    have hz := accAdd_of_begun h z
    have hmn : (accAdd m z).mn = min m.mn z := by rw [hz]
    have hmx : (accAdd m z).mx = max m.mx z := by rw [hz]
    obtain ⟨⟨hin, hle⟩, hin', hle'⟩ := accBounds_of_begun xs (m := accAdd m z) (by rw [hz]; exact Nat.succ_ne_zero _)
    rw [List.foldl_cons]
    generalize xs.foldl accAdd (accAdd m z) = r at *
    rw [hmn] at hin hle
    rw [hmx] at hin' hle'
    simp only [List.mem_cons, forall_eq_or_imp, le_min_iff, max_le_iff] at *
    refine ⟨⟨?_, hle.1.1, hle.1.2, hle.2⟩, ?_, hle'.1.1, hle'.1.2, hle'.2⟩
    · rcases min_choice m.mn z with hc | hc <;> rw [hc] at hin <;> tauto
    · rcases max_choice m.mx z with hc | hc <;> rw [hc] at hin' <;> tauto

theorem squareSum_nonneg (x : Int) (xs : List Int) : 0 ≤ squareSum x xs :=
  List.sum_nonneg (by simpa using fun z _ => mul_self_nonneg (z - x))

/-- The sum of squares is exact up to its saturation, which lasts for the block. -/
theorem accSquares_of_begun : ∀ (xs : List Int) {m : Meas}, m.k ≠ 0 → m.sq ≤ 2 ^ 80 - 1 →
    ((xs.foldl accAdd m).sqsat = false → ((xs.foldl accAdd m).sq : Int) = m.sq + squareSum m.x0 xs) ∧
    ((xs.foldl accAdd m).sqsat = false ↔ m.sqsat = false ∧ m.sq + squareSum m.x0 xs ≤ 2 ^ 80 - 1)
  | [], m, _, hm => by
    simp [squareSum]
    omega
  | z :: xs, m, h, hm => by
    have hz := accAdd_of_begun h z
    have hx : (accAdd m z).x0 = m.x0 := by rw [hz]
    have hnat : (((z - m.x0).natAbs * (z - m.x0).natAbs : Nat) : Int) = (z - m.x0) * (z - m.x0) := by simp
    have hsum : squareSum m.x0 (z :: xs) = (z - m.x0) * (z - m.x0) + squareSum m.x0 xs := by simp [squareSum]
    have hrest := squareSum_nonneg m.x0 xs
    have hsat : (accAdd m z).sqsat = (m.sqsat || decide (2 ^ 80 - 1 < m.sq + (z - m.x0).natAbs * (z - m.x0).natAbs)) := by rw [hz]
    have hsq : (accAdd m z).sq = if (accAdd m z).sqsat = true then m.sq else m.sq + (z - m.x0).natAbs * (z - m.x0).natAbs := by
      rw [hsat, hz]
    generalize (z - m.x0).natAbs * (z - m.x0).natAbs = p at *
    have hbound : (accAdd m z).sq ≤ 2 ^ 80 - 1 := by
      rw [hsq]
      split
      · exact hm
      · rename_i hno
        simp [hsat] at hno
        omega
    obtain ⟨hsq', hiff⟩ := accSquares_of_begun xs (m := accAdd m z) (by rw [hz]; exact Nat.succ_ne_zero _) hbound
    rw [List.foldl_cons, hsum, ← hnat]
    rw [hx] at hsq' hiff
    cases hs : (accAdd m z).sqsat with
    | true =>
      have hover : m.sqsat = true ∨ 2 ^ 80 - 1 < m.sq + p := by simpa [hs] using hsat.symm
      have hnot : ¬(xs.foldl accAdd (accAdd m z)).sqsat = false := by simp [hiff, hs]
      refine ⟨fun hf => absurd hf hnot, iff_of_false hnot ?_⟩
      rintro ⟨hf, hle⟩
      rcases hover with ht | hlt
      · simp [hf] at ht
      · omega
    | false =>
      have hin : m.sqsat = false ∧ m.sq + p ≤ 2 ^ 80 - 1 := by simpa [hs] using hsat.symm
      rw [hs, if_neg (by decide)] at hsq
      rw [hsq] at hsq' hiff
      refine ⟨fun hf => ?_, ?_⟩
      · rw [hsq' hf]
        push_cast
        ring
      · rw [hiff]
        simp only [hs, hin.1, true_and]
        push_cast
        rw [add_assoc]

/-- Settles O58: rounding is the one quotient of its interval, and the accumulator is followed result by result from the block's first one. -/
theorem frameValueArithmetic : Obligations.FrameValueArithmetic := by
  refine ⟨fun y e k hlo hhi => ?_, fun acc => rfl, fun m x xs hk => ?_, fun m n at_ cable hsat => ⟨_, rfl, hsat, if_pos hsat⟩⟩
  · rw [sincScale_eq hlo hhi]
    refine ⟨by simp [satIntB, satInt], ?_⟩
    rw [satIntB_snd]
    simp only [satIntB, satInt]
    omega
  · intro r
    have hstart := accAdd_of_start hk x
    have hbegun : (accAdd m x).k ≠ 0 := by rw [hstart]; exact Nat.one_ne_zero
    obtain ⟨hcount, href, hsum⟩ := accSum_of_begun xs hbegun
    obtain ⟨hmn, hmx⟩ := accBounds_of_begun xs hbegun
    obtain ⟨hsq, hsat⟩ := accSquares_of_begun xs hbegun (by rw [hstart]; exact Nat.zero_le _)
    rw [show r = xs.foldl accAdd (accAdd m x) from rfl, hcount, href, hsum]
    rw [hstart] at *
    refine ⟨Nat.add_comm _ _, rfl, zero_add _, hmn, hmx, fun h => (hsq h).trans (zero_add _), ?_⟩
    simpa [squareSum] using hsat

end Sys2Proof.Machine
end

