-- ==== Sys2Proof/Proofs/Registers.lean ====
section
/-!
PROOFS. Writes of single registers and what a read of them returns (R7, R340, R460 to R466), and the reads that latch (R257, R310, R433).
-/
namespace Sys2Proof.Machine

/-! ## Bits of a register value -/

theorem b2n_bit (v i : Nat) : b2n (bit v i) = v / 2 ^ i % 2 := by
  unfold b2n bit
  rw [Nat.testBit_eq_decide_div_mod_eq]
  split <;> rename_i h <;> simp at h <;> omega

/-- Where bit `i` is clear, adding it leaves the others. -/
theorem testBit_add_two_pow {w i j : Nat} (hw : w.testBit i = false) (h : j ≠ i) : (w + 2 ^ i).testBit j = w.testBit j := by
  rcases Nat.lt_or_gt_of_ne h with hlt | hgt
  · rw [Nat.add_comm, Nat.testBit_two_pow_add_gt hlt]
  · obtain ⟨k, rfl⟩ : ∃ k, j = k + (i + 1) := ⟨j - (i + 1), by omega⟩
    have hclear : w / 2 ^ i % 2 = 0 := by
      rw [Nat.testBit_eq_decide_div_mod_eq] at hw
      simpa using hw
    have hdiv : (w + 2 ^ i) / 2 ^ (i + 1) = w / 2 ^ (i + 1) := by
      rw [pow_succ, ← Nat.div_div_eq_div_mul, ← Nat.div_div_eq_div_mul, Nat.add_div_right _ (by positivity)]
      omega
    rw [← Nat.testBit_div_two_pow, ← Nat.testBit_div_two_pow, hdiv]

/-- Clearing or setting a bit leaves the others. -/
theorem bit_setBit_ne (v : Nat) {i j : Nat} (b : Bool) (h : j ≠ i) : bit (setBit v i b) j = bit v j := by
  unfold setBit bit
  split
  · rfl
  · rename_i hne
    cases b with
    | true => exact testBit_add_two_pow (by simpa using hne) h
    | false =>
      have hset : v.testBit i = true := by simpa using hne
      have hle : 2 ^ i ≤ v := Nat.ge_two_pow_of_testBit hset
      have hclear : (v - 2 ^ i).testBit i = false := by
        have hself := Nat.testBit_two_pow_add_eq (v - 2 ^ i) i
        rw [Nat.add_sub_cancel' hle, hset] at hself
        simpa using hself.symm
      simpa [Nat.sub_add_cancel hle] using (testBit_add_two_pow hclear h).symm

/-- A register whose bits a 1 clears. -/
theorem bit_foldl_clear (v : Nat) : ∀ (l : List Nat) (a i : Nat),
    bit (l.foldl (fun a i => if bit v i then setBit a i false else a) a) i = (bit a i && !(decide (i ∈ l) && bit v i))
  | [], a, i => by simp
  | k :: l, a, i => by
    rw [List.foldl_cons, bit_foldl_clear v l]
    by_cases hi : i = k
    · subst hi
      cases hv : bit v i <;> simp
    · have hkeep : bit (if bit v k = true then setBit a k false else a) i = bit a i := by
        split
        · exact bit_setBit_ne a false hi
        · rfl
      rw [hkeep]
      simp [hi]

/-! ## Rows of BAR0, BAR4 and the configuration space -/

section
variable {s : State} {o : Nat} {all : Bool} {d : Bytes}

theorem exec_expansionMaxWrite (hopen : s.barOpen = true) (hbound : s.isBound = true) (v : Word32) :
    exec (.expansionMaxWrite v) s = .next (if 1 ≤ v.toNat % 8192 ∧ v.toNat % 8192 ≤ 4096
      then { s with jobs := { s.jobs with expMax := v.toNat % 8192 } } else { s with jobs := { s.jobs with badWrite := true } }) := by
  refine congrArg Host.Outcome.next ((boundWrite_of_isBound hopen hbound _).trans ?_)
  unfold writeExpMax
  dsimp only
  by_cases h : 1 ≤ v.toNat % 8192 ∧ v.toNat % 8192 ≤ 4096
  · rw [if_pos h, if_neg]
    simp
    omega
  · rw [if_neg h, if_pos]
    simp
    omega

theorem exec_intxPendingWrite (hopen : s.barOpen = true) {i : Nat} (hi : i < 64) (v : Word32) : exec (.intxPendingWrite i v) s =
    .next (clearIntx s i v.toNat) := by
  change execIntxPendingWrite i v s = _
  rw [execIntxPendingWrite, memRequest_of_barOpen hopen, Nat.mod_eq_of_lt hi]

theorem exec_registerWrite_bar0 (hopen : s.barOpen = true) (ho : o < 0x1000000) :
    exec (.registerWrite o all d) s = .next (bar0Request s o all d) := by
  change execRegisterWrite o all d s = _
  rw [execRegisterWrite, if_pos ho, memRequest_of_barOpen hopen]

theorem exec_registerWrite_bar4 (hopen : s.barOpen = true) (ho : o < 0x10000) :
    exec (.registerWrite (0x1000000 + o) all d) s = .next (bar4Request s o d) := by
  change execRegisterWrite _ all d s = _
  rw [execRegisterWrite, if_neg (by omega), if_pos (by omega), memRequest_of_barOpen hopen, Nat.add_sub_cancel_left]

theorem exec_registerWrite_cfg (hlink : s.pcie.linkUp = true) : exec (.registerWrite (0x2000000 + o) all d) s =
    .next (if d.length = 4 ∧ all = true ∧ o % 4 = 0 then cfgWrite s o (fld d 0 4) else s) := by
  change execRegisterWrite _ all d s = _
  rw [execRegisterWrite, if_neg (by omega), if_neg (by omega), if_neg (by omega), cfgRequest_of_linkUp hlink, Nat.add_sub_cancel_left]
  have hmod : (0x2000000 + o) % 4 = o % 4 := by omega
  refine congrArg _ (if_congr ?_ rfl rfl)
  simp [hmod, and_assoc]

theorem exec_registerWrite_gap (hopen : s.barOpen = true) (hlo : 0x1010000 ≤ o) (hhi : o < 0x2000000) :
    exec (.registerWrite o all d) s = .next { s with pcie := aerLatch s.pcie 20, out := s.out ++ [.unsupported] } := by
  change execRegisterWrite _ all d s = _
  rw [execRegisterWrite, if_neg (by omega), if_neg (by omega), if_pos hhi, if_pos (linkUp_of_barOpen hopen)]
  rfl

/-- A write of one or two words with every byte enabled. -/
theorem bar0Request_one (hd : d.length = 4) (ho : o % 4 = 0) : bar0Request s o true d = bar0Write s o (fld d 0 4) := by
  simp [bar0Request, hd, ho]

theorem bar0Request_two (hd : d.length = 8) (ho : o % 8 = 0) :
    bar0Request s o true d = bar0Write (bar0Write s o (fld d 0 4)) (o + 4) (fld d 4 4) := by
  simp [bar0Request, hd, ho]

theorem bar0Request_bad (h : all = false ∨ ¬(d.length = 4 ∧ o % 4 = 0) ∧ ¬(d.length = 8 ∧ o % 8 = 0)) : bar0Request s o all d = aer s 15 := by
  refine if_pos ?_
  rcases h with h | ⟨h4, h8⟩
  · simp [h]
  · by_cases hd4 : d.length = 4
    · simp_all
    · by_cases hd8 : d.length = 8 <;> simp_all

theorem bar4Request_one (hd : d.length = 4) (ho : o % 4 = 0) : bar4Request s o d = bar4Write s o (fld d 0 4) := by
  simp [bar4Request, hd, ho]

theorem bar4Request_two (hd : d.length = 8) (ho : o % 8 = 0) :
    bar4Request s o d = bar4Write (bar4Write s o (fld d 0 4)) (o + 4) (fld d 4 4) := by
  simp [bar4Request, hd, ho]

theorem bar4Request_bad (h4 : ¬(d.length = 4 ∧ o % 4 = 0)) (h8 : ¬(d.length = 8 ∧ o % 8 = 0)) : bar4Request s o d = s := by
  refine if_pos ?_
  by_cases hd4 : d.length = 4
  · simp_all
  · by_cases hd8 : d.length = 8 <;> simp_all

end

/-! ## The blocks of BAR0 -/

section
variable {s : State} {o : Nat}

theorem bar0Write_ident (v : Nat) (h : o < 0x10000) : bar0Write s o v = writeIdent s o v := by
  unfold bar0Write earlyBlock
  rw [if_neg (by simp [h]), if_pos h]

theorem bar0Read_ident (h : o < 0x10000) : bar0Read s o = identReg s o := by
  unfold bar0Read bar0Word earlyBlock
  rw [if_pos (by simp [h]), if_pos h]

/-- A block from `lo` on is not one of those before it. -/
theorem bar0Write_bk (hbound : s.isBound = true) (v : Nat) (hlo : 0x80000 ≤ o) (hhi : o < 0x90000) :
    bar0Write s o v = writeBk s (o - 0x80000) v := by
  unfold bar0Write
  rw [if_neg (by simp [hbound]), if_neg (by omega), if_neg (by simp; omega), if_neg (by simp; omega), if_neg (by simp; omega),
    if_pos (by simp; omega)]

theorem bar0Write_cx (hbound : s.isBound = true) (v : Nat) : bar0Write s 0x090000 v = writeExpMax s v := by
  unfold bar0Write
  rw [if_neg (by simp [hbound])]
  rfl

theorem bar0Write_rt (hbound : s.isBound = true) (v : Nat) (hlo : 0x100000 ≤ o) (hhi : o < 0x200000) :
    bar0Write s o v = writeRt s ((o - 0x100000) / 64) (o % 64) v := by
  unfold bar0Write
  rw [if_neg (by simp [hbound]), if_neg (by omega), if_neg (by simp; omega), if_neg (by simp; omega), if_neg (by simp; omega),
    if_neg (by simp; omega), if_neg (by omega), if_neg (by omega), if_neg (by simp; omega), if_pos (by simp; omega)]

theorem bar0Read_bk (hbound : s.isBound = true) (hlo : 0x80000 ≤ o) (hhi : o < 0x90000) : bar0Read s o = bkReg s (o - 0x80000) := by
  rw [bar0Read_of_isBound hbound]
  simp (disch := omega) only [bar0Word, if_neg, if_pos]

theorem bar0Read_rt (hbound : s.isBound = true) (hlo : 0x100000 ≤ o) (hhi : o < 0x200000) :
    bar0Read s o = rtReg s ((o - 0x100000) / 64) (o % 64) := by
  rw [bar0Read_of_isBound hbound]
  simp (disch := omega) only [bar0Word, if_neg, if_pos]

theorem bar0Read_cx (hbound : s.isBound = true) : bar0Read s 0x090000 = s.jobs.expMax := by
  rw [bar0Read_of_isBound hbound]
  rfl

end

end Sys2Proof.Machine
end

