-- ==== Sys2Proof/Proofs/RegisterValues.lean ====
section
/-!
PROOFS. What a register reads after a write of it: windows, ring table, MSI-X table and configuration space (R340, R341, R460 to R466), and the
reads that latch (R257, R310, R433).
-/
namespace Sys2Proof.Machine

theorem word_two (i j a b : Nat) : word [(i, a), (j, b)] = (a * 2 ^ i + b * 2 ^ j) % 2 ^ 32 := by
  simp [word]

theorem word_three (i j k a b c : Nat) : word [(i, a), (j, b), (k, c)] = (a * 2 ^ i + b * 2 ^ j + c * 2 ^ k) % 2 ^ 32 := by
  simp [word]

/-! ## The identity block -/

/-- The pending bits that a write of ones to INTX_PENDINGi leaves. -/
def intxLeft (s : State) (i v : Nat) : List Nat := s.pcie.intx.filter (fun p => !(decide (p / 32 = i) && bit v (p % 32)))

theorem mem_intxLeft (s : State) (i v p : Nat) : p ∈ intxLeft s i v ↔ p ∈ s.pcie.intx ∧ ¬(p / 32 = i ∧ bit v (p % 32) = true) := by
  rw [intxLeft, List.mem_filter]
  refine and_congr_right fun _ => ?_
  simp only [Bool.not_eq_true', Bool.and_eq_false_iff, decide_eq_false_iff_not]
  cases bit v (p % 32) <;> simp

theorem clearIntx_eq (s : State) (i v : Nat) : clearIntx s i v = { s with
    pcie := { s.pcie with intx := intxLeft s i v }
    out := if s.intaOn = true ∧ intxLeft s i v = [] then s.out ++ [.deassertInta] else s.out } := by
  unfold clearIntx
  dsimp only
  rw [show s.pcie.intx.filter (fun p => !(decide (p / 32 = i) && bit v (p % 32))) = intxLeft s i v from rfl]
  by_cases h : s.intaOn = true ∧ intxLeft s i v = []
  · rw [if_pos h, if_pos (by simp [h])]
    rfl
  · rw [if_neg h, if_neg (by simpa using h)]
    rfl

theorem writeFlashCtrl_of_clear {s : State} {v : Nat} (hgo : bit v 31 = false) : writeFlashCtrl s v =
    { s with flashRegs := { s.flashRegs with op := bits v 28 3, len := v % 512 } } := if_neg (by simp [hgo])

theorem flashCtrl_written {s : State} {v : Nat} (hgo : bit v 31 = false) :
    bar0Read (bar0Write s 0x100 v) 0x100 = v / 2 ^ 28 % 8 * 2 ^ 28 + v % 512 := by
  have hwrite : ∀ v, writeIdent s 0x100 v = writeFlashCtrl s v := fun _ => rfl
  have hread : ∀ u : State, identReg u 0x100 = word [(28, u.flashRegs.op), (0, u.flashRegs.len)] := fun u => by simp [identReg]
  rw [bar0Write_ident v (by decide), hwrite, writeFlashCtrl_of_clear hgo, bar0Read_ident (by decide), hread, word_two]
  dsimp only [bits]
  omega

theorem irqEnable_written (s : State) (v : Nat) : bar0Read (bar0Write s 0x64 v) 0x64 = v % 8 := by
  rw [bar0Write_ident v (by decide), bar0Read_ident (by decide)]
  change (writeIrqEnable s v).pcie.irqEnable = v % 8
  unfold writeIrqEnable
  exact ite_proj (p := fun s : State => s.pcie.irqEnable) (by
    unfold signal
    dsimp only
    split
    · split <;> rfl
    · split
      · rfl
      · split <;> rfl) rfl

/-! ## The windows -/

section
variable {s : State} {k i : Nat} (v : Nat)

theorem bar0Write_win (hbound : s.isBound = true) (hk : k < 16) (hi : i < 0x20) :
    bar0Write s (0x088000 + 0x20 * k + i) v = writeWin s k i v := by
  rw [bar0Write_bk hbound v (by omega) (by omega), writeBk, if_neg (by omega), if_pos (by simp; omega)]
  rw [show (0x088000 + 0x20 * k + i - 0x80000 - 0x8000) / 0x20 = k by omega, show (0x088000 + 0x20 * k + i - 0x80000) % 0x20 = i by omega]

theorem bar0Read_win (hbound : s.isBound = true) (hk : k < 16) (hi : i < 0x20) :
    bar0Read s (0x088000 + 0x20 * k + i) = winReg (s.win k) i := by
  rw [bar0Read_bk hbound (by omega) (by omega), bkReg]
  dsimp only
  rw [if_neg (by omega), if_neg (by simp; omega), if_neg (by omega), if_neg (by omega), if_neg (by omega), if_neg (by omega),
    if_neg (by simp; omega), if_neg (by omega), if_neg (by omega), if_neg (by omega), if_neg (by omega), if_neg (by omega),
    if_neg (by omega), if_pos (by simp; omega)]
  rw [show (0x088000 + 0x20 * k + i - 0x80000 - 0x8000) / 0x20 = k by omega, show (0x088000 + 0x20 * k + i - 0x80000) % 0x20 = i by omega]
  rfl

/-- A shadow word reads what was written, cut to its width. -/
theorem shadow_written (hbound : s.isBound = true) (hk : k < 16) :
    bar0Read (bar0Write s (0x088000 + 0x20 * k) v) (0x088000 + 0x20 * k) = v % 2 ^ 20 ∧
    bar0Read (bar0Write s (0x088000 + 0x20 * k + 4) v) (0x088000 + 0x20 * k + 4) = v % 2 ^ 23 ∧
    bar0Read (bar0Write s (0x088000 + 0x20 * k + 8) v) (0x088000 + 0x20 * k + 8) = v % 256 ∧
    bar0Read (bar0Write s (0x088000 + 0x20 * k + 12) v) (0x088000 + 0x20 * k + 12) = v / 2 ^ 4 % 4 * 2 ^ 4 + v % 16 := by
  have hread : ∀ i, i < 0x20 → ∀ f, writeWin s k i v = modWin s k f →
      bar0Read (bar0Write s (0x088000 + 0x20 * k + i) v) (0x088000 + 0x20 * k + i) = winReg (f (s.win k)) i := fun i hi f hf => by
    rw [bar0Write_win v hbound hk hi, hf, bar0Read_win (s := modWin s k f) hbound hk hi, win_modWin_self]
  refine ⟨hread 0 (by decide) _ rfl, hread 4 (by decide) _ rfl, hread 8 (by decide) _ rfl, (hread 12 (by decide) _ rfl).trans ?_⟩
  have hword : ∀ w : Win, winReg w 12 = word [(5, b2n w.shadow.write), (4, b2n w.shadow.en), (0, w.shadow.rot)] := fun _ => rfl
  rw [hword, word_three, b2n_bit, b2n_bit]
  dsimp only
  omega

/-- A shadow's write leaves what is active, and the other windows. -/
theorem shadow_others (hbound : s.isBound = true) (hk : k < 16) (hi : i ∈ [0, 4, 8, 12]) :
    ((bar0Write s (0x088000 + 0x20 * k + i) v).win k).active = (s.win k).active ∧
      ∀ k', k' ≠ k → (bar0Write s (0x088000 + 0x20 * k + i) v).win k' = s.win k' := by
  have hmod : ∀ f : Win → Win, writeWin s k i v = modWin s k f → (∀ w, (f w).active = w.active) → i < 0x20 →
      ((bar0Write s (0x088000 + 0x20 * k + i) v).win k).active = (s.win k).active ∧
      ∀ k', k' ≠ k → (bar0Write s (0x088000 + 0x20 * k + i) v).win k' = s.win k' := fun f hf hact hi => by
    rw [bar0Write_win v hbound hk hi, hf, win_modWin_self]
    exact ⟨hact _, fun k' hk' => win_modWin_ne s f hk'⟩
  simp only [List.mem_cons, List.not_mem_nil, or_false] at hi
  rcases hi with rfl | rfl | rfl | rfl <;> exact hmod _ rfl (fun _ => rfl) (by decide)

end

/-! ## The ring table -/

section
variable {s : State} {r i : Nat} (v : Nat)

theorem lt_of_isHostRing (h : isHostRing r = true) : r < 16384 := by
  by_contra hr
  have hk : rkind r = 0 := by
    simp (disch := omega) only [rkind, if_neg]
  simp [isHostRing, hk] at h

theorem bar0Write_ring (hbound : s.isBound = true) (hr : r < 16384) (hi : i < 64) :
    bar0Write s (0x100000 + 64 * r + i) v = writeRt s r i v := by
  rw [bar0Write_rt hbound v (by omega) (by omega)]
  rw [show (0x100000 + 64 * r + i - 0x100000) / 64 = r by omega, show (0x100000 + 64 * r + i) % 64 = i by omega]

theorem bar0Read_ring (hbound : s.isBound = true) (hr : r < 16384) (hi : i < 64) :
    bar0Read s (0x100000 + 64 * r + i) = rtReg s r i := by
  rw [bar0Read_rt hbound (by omega) (by omega)]
  rw [show (0x100000 + 64 * r + i - 0x100000) / 64 = r by omega, show (0x100000 + 64 * r + i) % 64 = i by omega]

/-- The words of a host ring's entry that the host writes. -/
theorem rtReg_host {u : State} (hhost : isHostRing r = true) (hkind : ringKind u r ≠ 0) :
    rtReg u r 0x04 = word [(31, b2n (u.ring r).tick), (30, b2n (u.ring r).mask), (0, (u.ring r).k)] ∧
    rtReg u r 0x08 = (u.ring r).base % 2 ^ 32 ∧ rtReg u r 0x0C = (u.ring r).base / 2 ^ 32 ∧ rtReg u r 0x10 = (u.ring r).size ∧
    rtReg u r 0x14 = (u.ring r).wb % 2 ^ 32 ∧ rtReg u r 0x18 = (u.ring r).wb / 2 ^ 32 := by
  have hh : (isHostRing r && decide (ringKind u r ≠ 0)) = true := by simp [hhost, hkind]
  unfold rtReg
  simp [hhost, hkind]

/-- A ring has the kind of its place. -/
theorem ringKind_congr {t u : State} (hhist : u.hist = t.hist) (hstage : u.rings.staging = t.rings.staging) (hrole : u.banks.role = t.banks.role)
    (hdecl : (u.ring r).declared = (t.ring r).declared) : ringKind u r = ringKind t r := by
  unfold ringKind
  rw [hhist, hstage, hrole, hdecl]

theorem ringKind_modRing (u : State) (f : Ring → Ring) (hf : ∀ g, (f g).declared = g.declared) : ringKind (modRing u r f) r = ringKind u r :=
  ringKind_congr rfl rfl rfl (by rw [ring_modRing_self, hf])

/-- A notification leaves RT_NOTIFY. -/
theorem notify_word {u : State} (hbound : u.isBound = true) (hhost : isHostRing r = true) (hkind : ringKind u r ≠ 0) :
    (notify u r).isBound = true ∧ rtReg (notify u r) r 0x04 = rtReg u r 0x04 := by
  unfold notify
  dsimp only
  split
  · have hsig := signal_frame u (u.ring r).vector
    have hkind' : ringKind (modRing (signal u (u.ring r).vector) r (fun g => { g with waiting := 0, due := false })) r ≠ 0 := by
      rw [ringKind_modRing, show ringKind (signal u (u.ring r).vector) r = ringKind u r from
        (congrArg (fun t : State => ringKind t r) hsig :)]
      · exact hkind
      · exact fun _ => rfl
    refine ⟨(congrArg State.isBound hsig :).trans hbound, ?_⟩
    rw [(rtReg_host hhost hkind').1, (rtReg_host hhost hkind).1, ring_modRing_self,
      show (signal u (u.ring r).vector).ring r = u.ring r from (congrArg (fun t : State => t.ring r) hsig :)]
  · exact ⟨hbound, rfl⟩

/-- RT_NOTIFY reads back. -/
theorem rtNotify_written (hbound : s.isBound = true) (hhost : isHostRing r = true) (hkind : ringKind s r ≠ 0) :
    bar0Read (bar0Write s (0x100000 + 64 * r + 4) v) (0x100000 + 64 * r + 4) = v / 2 ^ 30 % 4 * 2 ^ 30 + v % 2 ^ 16 := by
  have hr := lt_of_isHostRing hhost
  obtain ⟨u, hu⟩ : ∃ u, u = modRing s r (fun g => { g with tick := bit v 31, mask := bit v 30, k := v % 65536 }) := ⟨_, rfl⟩
  have hkind' : ringKind u r ≠ 0 := by
    rw [hu, ringKind_modRing]
    · exact hkind
    · exact fun _ => rfl
  have hword : rtReg u r 0x04 = v / 2 ^ 30 % 4 * 2 ^ 30 + v % 2 ^ 16 := by
    rw [(rtReg_host hhost hkind').1, hu, ring_modRing_self, word_three, b2n_bit, b2n_bit]
    dsimp only
    omega
  have hwrite : bar0Write s (0x100000 + 64 * r + 4) v =
      if ((s.ring r).mask && !bit v 30 && notifies r) = true then notify u r else u := by
    rw [bar0Write_ring v hbound hr (by decide), writeRt_of_host hhost hkind, if_neg (by decide), if_pos rfl, hu]
    rfl
  have hbound' : u.isBound = true := by rw [hu]; exact hbound
  obtain ⟨hn, hsame⟩ := notify_word hbound' hhost hkind'
  rw [hwrite]
  split
  · rw [bar0Read_ring hn hr (by decide), hsame, hword]
  · rw [bar0Read_ring hbound' hr (by decide), hword]

/-- The place of a disabled ring reads back, but for the SIZE of a delivery ring, which the Folio gives. -/
theorem rtPlace_written (hbound : s.isBound = true) (hhost : isHostRing r = true) (hkind : ringKind s r ≠ 0) (hv : v < 2 ^ 32)
    (hoff : (s.ring r).enable = false) :
    (∀ i, i ∈ [8, 12, 20, 24] ∨ (i = 16 ∧ rkind r ≠ 3) →
      bar0Read (bar0Write s (0x100000 + 64 * r + i) v) (0x100000 + 64 * r + i) = v) ∧
    (rkind r = 3 → bar0Read (bar0Write s (0x100000 + 64 * r + 16) v) (0x100000 + 64 * r + 16) = bar0Read s (0x100000 + 64 * r + 16)) := by
  have hr := lt_of_isHostRing hhost
  have hplace : ∀ i, 4 < i → i < 64 → ∃ u, bar0Write s (0x100000 + 64 * r + i) v = u ∧ u.isBound = true ∧ ringKind u r ≠ 0 ∧
      u.ring r = (if i = 0x08 then { s.ring r with base := (s.ring r).base / 2 ^ 32 * 2 ^ 32 + v }
        else if i = 0x0C then { s.ring r with base := v * 2 ^ 32 + (s.ring r).base % 2 ^ 32 }
        else if i = 0x10 then { s.ring r with size := if rkind r = 3 then (s.ring r).size else v }
        else if i = 0x14 then { s.ring r with wb := (s.ring r).wb / 2 ^ 32 * 2 ^ 32 + v }
        else if i = 0x18 then { s.ring r with wb := v * 2 ^ 32 + (s.ring r).wb % 2 ^ 32 } else s.ring r) := fun i hlo hi => by
    rw [bar0Write_ring v hbound hr hi, writeRt_of_host hhost hkind, if_neg (by omega), if_neg (by omega), writeRtPlace]
    refine ⟨_, rfl, hbound, ?_, (ring_modRing_self ..).trans (if_neg (by simp [hoff]))⟩
    rwa [ringKind_modRing]
    intro g
    simp only [apply_ite Ring.declared, ite_self]
  refine ⟨fun i hi => ?_, fun h3 => ?_⟩
  · obtain ⟨u, hu, hub, huk, hring⟩ := hplace i (by simp at hi; omega) (by simp at hi; omega)
    obtain ⟨-, h8, h12, h16, h20, h24⟩ := rtReg_host hhost huk
    rw [hu, bar0Read_ring hub hr (by simp at hi; omega)]
    simp only [List.mem_cons, List.not_mem_nil, or_false] at hi
    rcases hi with (rfl | rfl | rfl | rfl) | ⟨rfl, h3⟩
    · rw [h8, hring, if_pos rfl]
      dsimp only
      omega
    · rw [h12, hring, if_neg (by decide), if_pos rfl]
      dsimp only
      omega
    · rw [h20, hring, if_neg (by decide), if_neg (by decide), if_neg (by decide), if_pos rfl]
      dsimp only
      omega
    · rw [h24, hring, if_neg (by decide), if_neg (by decide), if_neg (by decide), if_neg (by decide), if_pos rfl]
      dsimp only
      omega
    · rw [h16, hring, if_neg (by decide), if_neg (by decide), if_pos rfl]
      exact if_neg h3
  · obtain ⟨u, hu, hub, huk, hring⟩ := hplace 16 (by decide) (by decide)
    rw [hu, bar0Read_ring hub hr (by decide), bar0Read_ring hbound hr (by decide), (rtReg_host hhost huk).2.2.2.1, (rtReg_host hhost hkind).2.2.2.1,
      hring, if_neg (by decide), if_neg (by decide), if_pos rfl]
    exact if_pos h3

/-- An enabled ring keeps its place. -/
theorem rtPlace_of_enabled (hbound : s.isBound = true) (hhost : isHostRing r = true) (hkind : ringKind s r ≠ 0)
    (hon : (s.ring r).enable = true) (hi : i ∈ [8, 12, 16, 20, 24]) (r' : Nat) :
    (bar0Write s (0x100000 + 64 * r + i) v).ring r' = s.ring r' := by
  have hlo : 4 < i ∧ i < 64 := by
    simp at hi
    omega
  rw [bar0Write_ring v hbound (lt_of_isHostRing hhost) hlo.2, writeRt_of_host hhost hkind, if_neg (by omega), if_neg (by omega), writeRtPlace]
  by_cases h : r' = r
  · rw [h, ring_modRing_self, if_pos hon]
  · exact ring_modRing_ne _ _ h

end

/-! ## The MSI-X table -/

/-- The word of an entry at one of its four places, and the entry after a write of it. -/
def msixWord (e : MsixEntry) (k : Nat) : Nat :=
  if k = 0 then e.addr % 2 ^ 32 else if k = 4 then e.addr / 2 ^ 32 else if k = 8 then e.data else b2n e.mask

def msixPut (v k : Nat) (e : MsixEntry) : MsixEntry :=
  if k = 0 then { e with addr := e.addr / 2 ^ 32 * 2 ^ 32 + v }
  else if k = 4 then { e with addr := v * 2 ^ 32 + e.addr % 2 ^ 32 }
  else if k = 8 then { e with data := v }
  else { e with mask := bit v 0 }

section
variable {s : State} {o v : Nat}

theorem bar4Word_of_lt (ho : o < 0x8000) : bar4Word s o = msixWord (tget {} s.pcie.msix (o / 16)) (o % 16) := if_neg (by omega)

theorem bar4Write_msix (ho : o < 0x8000) : (bar4Write s o v).pcie.msix = tmod {} s.pcie.msix (o / 16) (msixPut v (o % 16)) := by
  have hflush : ∀ u : State, (flushPba u).pcie.msix = u.pcie.msix := fun u => (congrArg (fun t : State => t.pcie.msix) (flushPba_frame u) :)
  unfold bar4Write
  dsimp only
  rw [if_neg (by omega)]
  unfold msixPut
  split
  · rfl
  · split
    · rfl
    · split
      · rfl
      · rw [hflush]
        rfl

theorem msixWord_msixPut_self {k : Nat} (e : MsixEntry) (hv : v < 2 ^ 32) (hk : k = 0 ∨ k = 4 ∨ k = 8 ∨ k = 12) :
    msixWord (msixPut v k e) k = (if k = 12 then v % 2 else v) := by
  rcases hk with rfl | rfl | rfl | rfl <;> simp [msixWord, msixPut, b2n_bit] <;> omega

theorem msixWord_msixPut_ne {k j : Nat} (e : MsixEntry) (hv : v < 2 ^ 32) (hk : k = 0 ∨ k = 4 ∨ k = 8 ∨ k = 12)
    (hj : j = 0 ∨ j = 4 ∨ j = 8 ∨ j = 12) (hne : j ≠ k) : msixWord (msixPut v k e) j = msixWord e j := by
  rcases hk with rfl | rfl | rfl | rfl <;> rcases hj with rfl | rfl | rfl | rfl <;> simp [msixWord, msixPut] at hne ⊢ <;> omega

/-- A word of the table after a write of it, and the others. -/
theorem bar4Word_bar4Write (ho : o < 0x8000) (hal : o % 4 = 0) (hv : v < 2 ^ 32) :
    bar4Word (bar4Write s o v) o = (if o % 16 = 12 then v % 2 else v) ∧
    ∀ o', o' < 0x8000 → o' % 4 = 0 → o' ≠ o → bar4Word (bar4Write s o v) o' = bar4Word s o' := by
  refine ⟨?_, fun o' ho' hal' hne => ?_⟩
  · rw [bar4Word_of_lt ho, bar4Write_msix ho, tget_tmod_self, msixWord_msixPut_self _ hv (by omega)]
  · rw [bar4Word_of_lt ho', bar4Word_of_lt ho', bar4Write_msix ho]
    by_cases h : o' / 16 = o / 16
    · rw [h, tget_tmod_self]
      exact msixWord_msixPut_ne _ hv (by omega) (by omega) (by omega)
    · rw [tget_tmod_ne _ _ _ h]

end

/-! ## Configuration space -/

section
variable (s : State) (v : Nat)

theorem cacheLine_written : cfgRead (cfgWrite s 0x0C v) 0x0C = v % 256 := by
  simp [cfgRead, cfgWrite, modPcie]

theorem intLine_written : cfgRead (cfgWrite s 0x3C v) 0x3C = 0x100 + v % 256 := by
  simp [cfgRead, cfgWrite, modPcie]

theorem aerUncMask_written : cfgRead (cfgWrite s 0x108 v) 0x108 = v &&& aerUncBits := by
  simp [cfgRead, cfgWrite, modPcie]

theorem aerUncSev_written : cfgRead (cfgWrite s 0x10C v) 0x10C = v &&& aerUncBits := by
  simp [cfgRead, cfgWrite, modPcie]

theorem aerCorMask_written : cfgRead (cfgWrite s 0x114 v) 0x114 = v &&& aerCorBits := by
  simp [cfgRead, cfgWrite, modPcie]

theorem ltr_written : cfgRead (cfgWrite s 0x16C v) 0x16C = v / 2 ^ 16 % 2 ^ 13 * 2 ^ 16 + v % 2 ^ 13 := by
  simp [cfgRead, cfgWrite, modPcie]
  omega

end

/-! ## Reads that latch -/

/-- A read of one word answers it and latches its high half. -/
theorem bar0ReadRequest_word {s : State} (hopen : s.barOpen = true) {o : Nat} (ho : o % 4 = 0) :
    bar0ReadRequest s o 4 = emit (readLatch s o) (.readData (le 4 (bar0Read s o))) := by
  have hword : (o % 4 + 4 + 3) / 4 = 1 := by omega
  have hbase : o / 4 * 4 = o := by omega
  have hsub : sub (le 4 (bar0Read s o) ++ []) 0 4 = le 4 (bar0Read s o) := by
    simp [sub, zeros]
  unfold bar0ReadRequest
  rw [memRequest_of_barOpen hopen, if_neg (by decide), hword, hbase, ho]
  simp only [bar0Reads, hsub]

section
variable {s : State}

/-- What a read of one of the four registers latches. -/
theorem readLatch_dead (hbound : s.isBound = true) {q : Nat} (hq : q < 64) : readLatch s (0x040010 + 0x40 * q) = latchSeq s q := by
  unfold readLatch
  rw [if_neg (by simp [hbound]), if_neg (by omega), if_neg (by omega), if_neg (by omega), if_pos (by simp; omega)]
  rw [show (0x040010 + 0x40 * q - 0x040000) / 0x40 = q by omega]

theorem readLatch_mean (hbound : s.isBound = true) {e : Nat} (he : e < 1024) : readLatch s (0x070010 + 0x20 * e) = latchMean s e := by
  unfold readLatch
  rw [if_neg (by simp [hbound]), if_neg (by omega), if_neg (by omega), if_neg (by omega), if_neg (by simp; omega), if_pos (by simp; omega)]
  rw [show (0x070010 + 0x20 * e - 0x070000) / 0x20 = e by omega]

theorem readLatch_time (hbound : s.isBound = true) : readLatch s 0x010000 = latchTime s := by
  unfold readLatch
  rw [if_neg (by simp [hbound]), if_pos rfl]

theorem latchTime_eq (s : State) : ∃ n lo hi ns, n = s.rawCount / 2 ^ 32 % 2 ^ 32 ∧
    latchTime s = { s with time := { s.time with rawHi := n, disSecLo := lo, disSecHi := hi, disNs := ns } } := by
  unfold latchTime
  exact ⟨_, _, _, _, rfl, rfl⟩

theorem readLatch_master (hbound : s.isBound = true) {x : Nat} (hx : x < 2) : readLatch s (0x010050 + 0x20 * x) = latchMaster s x := by
  unfold readLatch
  rw [if_neg (by simp [hbound])]
  obtain rfl | rfl : x = 0 ∨ x = 1 := by omega
  · rw [if_neg (by omega), if_pos rfl]
  · rw [if_neg (by omega), if_neg (by omega), if_pos rfl]

end

/-! ## The rows -/

/-- Settles O40: each row is one access of a block, and a register reads back the field that its write sets. -/
theorem registerAccessRows : Obligations.RegisterAccessRows := by
  refine ⟨fun s hopen => ⟨fun v hbound => exec_expansionMaxWrite hopen hbound v, fun i v hi => ⟨_, exec_intxPendingWrite hopen hi v, fun p => ?_, ?_, ?_⟩,
    fun o d ho => ⟨fun h4 hal => ?_, fun h8 hal => ?_, fun h4 h8 => ?_, ?_⟩, fun o all d ho => ⟨fun h4 hal => ?_, fun h8 hal => ?_, fun h4 h8 => ?_⟩,
    fun u o all d hlink => exec_registerWrite_cfg hlink, fun o all d hlo hhi => exec_registerWrite_gap hopen hlo hhi, fun v => ⟨_, rfl, fun i hi => ?_, ?_⟩⟩,
    fun s w v hv => ?_, fun s hopen hbound => ⟨?_, ?_, ?_, ?_, ?_⟩⟩
  · rw [clearIntx_eq]
    exact mem_intxLeft ..
  · rw [clearIntx_eq]
  · rw [clearIntx_eq]
  · rw [exec_registerWrite_bar0 hopen ho, bar0Request_one h4 hal]
  · rw [exec_registerWrite_bar0 hopen ho, bar0Request_two h8 hal]
  · rw [exec_registerWrite_bar0 hopen ho, bar0Request_bad (.inr ⟨h4, h8⟩)]
  · rw [exec_registerWrite_bar0 hopen ho, bar0Request_bad (.inl rfl)]
  · rw [exec_registerWrite_bar4 hopen ho, bar4Request_one h4 hal]
  · rw [exec_registerWrite_bar4 hopen ho, bar4Request_two h8 hal]
  · rw [exec_registerWrite_bar4 hopen ho, bar4Request_bad h4 h8]
  · rw [bar0Write_ident _ (by decide)]
    refine (bit_foldl_clear v.toNat (List.range 3) s.pcie.irqStatus i).trans ?_
    rw [decide_eq_true (List.mem_range.2 hi), Bool.true_and]
  · rw [bar0Write_ident _ (by decide)]
    rfl
  · have hlt : v < 2 ^ 32 := hv ▸ w.isLt
    refine ⟨flashCtrl_written, ?_, irqEnable_written s v, ?_, fun hbound => ⟨fun hlo hhi => ?_, fun k o hk ho => ?_, fun r o hhost hkind ho => ?_⟩,
      fun o ho hal => bar4Word_bar4Write ho hal hlt, fun o ho => if_pos ho,
      cacheLine_written s v, intLine_written s v, aerUncMask_written s v, aerUncSev_written s v, aerCorMask_written s v, ltr_written s v, fun o ho => ?_⟩
    · rw [bar0Write_ident v (by decide), bar0Read_ident (by decide)]
      rfl
    · rw [bar0Write_ident v (by decide), bar0Read_ident (by decide)]
      rfl
    · rw [bar0Write_cx hbound, writeExpMax]
      dsimp only
      rw [if_neg (by simp; omega)]
      exact bar0Read_cx (s := { s with jobs := { s.jobs with expMax := v % 8192 } }) hbound
    · subst ho
      obtain ⟨h0, h4, h8, h12⟩ := shadow_written v hbound hk
      exact ⟨h0, h4, h8, h12, fun i hi => shadow_others v hbound hk hi⟩
    · subst ho
      exact ⟨rtNotify_written v hbound hhost hkind, rtPlace_written v hbound hhost hkind hlt, fun hon i hi => rtPlace_of_enabled v hbound hhost hkind hon hi⟩
    · simp only [List.mem_cons, List.not_mem_nil, or_false] at ho
      rcases ho with rfl | rfl | rfl | rfl | rfl | rfl | rfl | rfl | rfl | rfl | rfl | rfl | rfl | rfl | rfl | rfl | rfl | rfl | rfl | rfl | rfl | rfl |
        rfl | rfl | rfl | rfl | rfl | rfl | rfl | rfl | rfl | rfl <;> rfl
  · intro q hq hshown
    refine congrArg Host.Outcome.next ?_
    rw [Nat.mod_eq_of_lt hq, bar0ReadRequest_word hopen (by omega), readLatch_dead hbound hq, latchSeq, hshown]
    rfl
  · intro q l hq hshown
    refine congrArg Host.Outcome.next ?_
    rw [Nat.mod_eq_of_lt hq, bar0ReadRequest_word hopen (by omega), readLatch_dead hbound hq, latchSeq, hshown]
    rfl
  · intro e he
    refine congrArg Host.Outcome.next ?_
    rw [Nat.mod_eq_of_lt he, bar0ReadRequest_word hopen (by omega), readLatch_mean hbound he]
    rfl
  · refine ⟨_, congrArg Host.Outcome.next (bar0ReadRequest_word hopen (by decide)), ?_, ?_, ?_⟩
    all_goals
      rw [readLatch_time hbound]
      obtain ⟨n, lo, hi, ns, hn, h⟩ := latchTime_eq s
      rw [h]
    · rfl
    · exact hn
    · rfl
  · intro x hx
    refine congrArg Host.Outcome.next ?_
    rw [Nat.mod_eq_of_lt hx, bar0ReadRequest_word hopen (by omega), readLatch_master hbound hx]
    obtain rfl | rfl : x = 0 ∨ x = 1 := by omega
    · rfl
    · rfl

end Sys2Proof.Machine
end

