-- ==== Sys2Proof/Proofs/EndpointResets.lean ====
section
/-!
PROOFS. PERST_N, a hot reset and a function level reset (R62, R331, R479, Table 15-13).
-/
namespace Sys2Proof.Machine

/-- The host domain's reset with what the three resets differ in: the outputs, what is sticky, the link, PERST_N, and the subsystem IDs
reported. -/
def resetBy (s : State) (out : List Output) (sticky kept perst link : Bool) (ids : Nat × Nat × Bool) : State :=
  let t := endEpoch s
  { t with
    pcie := { resetPcie t.pcie sticky kept with linkUp := link }
    rings := { t.rings with rings := tmap t.rings.rings (resetHostRing s.cfg) }
    banks := poolBack t.banks
    jobs := { t.jobs with expMax := 0x400, badWrite := false }
    flashRegs := resetFlashRegs t.flashRegs
    pins := { t.pins with perstN := perst }
    boot := { t.boot with subsysVid := ids.1, subsysId := ids.2.1, subsysStale := ids.2.2 }
    out := out }

/-- The subsystem IDs of the bound copy, or those reported before. -/
def takenIds (s : State) : Nat × Nat × Bool :=
  match s.boot.folio with
  | some f => (f.subsysVid, f.subsysId, false)
  | none => (s.boot.subsysVid, s.boot.subsysId, s.boot.subsysStale)

theorem takeSubsys_eq (s : State) : takeSubsys s = { s with boot := { s.boot with
    subsysVid := (takenIds s).1, subsysId := (takenIds s).2.1, subsysStale := (takenIds s).2.2 } } := by
  unfold takeSubsys takenIds
  cases s.boot.folio <;> rfl

theorem exec_perstN {s : State} (hpow : s.powered = true) (hpin : s.pins.perstN = true) :
    exec .perstN s = .next (resetBy s s.out false false false false (takenIds s)) := by
  change execPerstN s = _
  unfold execPerstN
  rw [if_neg (by simp [hpin])]
  refine congrArg Host.Outcome.next ((if_pos hpow).trans ?_)
  rw [takeSubsys_eq]
  rfl

theorem exec_hotReset {s : State} (hlink : s.pcie.linkUp = true) :
    exec .hotReset s = .next (resetBy s s.out true false s.pins.perstN s.pcie.linkUp (takenIds s)) := by
  refine congrArg Host.Outcome.next ((if_pos hlink).trans ?_)
  rw [takeSubsys_eq]
  rfl

theorem exec_functionLevelReset {s : State} (hlink : s.pcie.linkUp = true) : exec .functionLevelReset s =
    .next (resetBy s (if s.intaOn = true then s.out ++ [.deassertInta] else s.out) true true s.pins.perstN s.pcie.linkUp
      (s.boot.subsysVid, s.boot.subsysId, s.boot.subsysStale)) := by
  refine congrArg Host.Outcome.next ((if_pos hlink).trans ?_)
  unfold resetHost
  rw [Bool.true_and]
  cases s.intaOn <;> rfl

/-! ## What the reset leaves -/

section
variable (s : State)

theorem tget_foldl_tput (v : Nat) {b : Nat} : ∀ (l : List Nat) (t : Tbl Nat), b ∈ l ∨ tget 0 t b = v →
    tget 0 (l.foldl (fun t x => tput t x v) t) b = v
  | [], t, h => h.resolve_left List.not_mem_nil
  | x :: l, t, h => by
    rw [List.foldl_cons]
    refine tget_foldl_tput v l _ ?_
    rcases eq_or_ne b x with rfl | hne
    · exact .inr (tget_tput_self ..)
    · exact h.imp (fun hm => (List.mem_cons.1 hm).resolve_left hne) fun h1 => by rw [tget_tput_ne _ _ _ hne, h1]

/-- The counter of aborted jobs, one for each job. -/
theorem foldl_abort_fails {α : Type} (x : Nat) : ∀ (l : List α) (t : Tbl Nat), tget 0 (l.foldl (fun t _ => tmod 0 t 9 (fun n => satAdd 32 n 1)) t) x =
    (if x = 9 ∧ l ≠ [] then satAdd 32 (tget 0 t 9) l.length else tget 0 t x)
  | [], t => by simp
  | a :: l, t => by
    rw [List.foldl_cons, foldl_abort_fails x l]
    by_cases hx : x = 9
    · subst hx
      rw [tget_tmod_self]
      by_cases hl : l = []
      · simp [hl]
      · rw [if_pos ⟨rfl, hl⟩, if_pos ⟨rfl, by simp⟩]
        simp only [satAdd, List.length_cons]
        omega
    · rw [if_neg (by simp [hx]), if_neg (by simp [hx]), tget_tmod_ne _ _ _ hx]

/-- Staged envelopes are kept, for only readouts and completions are abandoned. -/
theorem stagedOf_kept (l : List Item) : stagedOf (l.filter (fun i => match i with
    | .readout _ => false
    | .completion _ => false
    | _ => true)) = stagedOf l := by
  unfold stagedOf
  rw [List.filterMap_filter]
  refine List.filterMap_congr fun i _ => ?_
  cases i <;> rfl

/-- A group keeps everything but the epoch of its power command. -/
theorem group_endEpoch (g : Nat) : { (endEpoch s).group g with powerCmd := none } = { s.group g with powerCmd := none } ∧
    ((endEpoch s).group g).powerCmd.isSome = (s.group g).powerCmd.isSome := by
  have h : (endEpoch s).group g = { s.group g with powerCmd := (s.group g).powerCmd.map (fun c => (aged c.1, c.2)) } := by
    change (tget? (tmap s.field.groups (fun _ (e : Group) => { e with powerCmd := e.powerCmd.map (fun c => (aged c.1, c.2)) })) g).getD {} = _
    rw [tget?_tmap]
    unfold State.group tget
    cases tget? s.field.groups g <;> rfl
  rw [h]
  exact ⟨rfl, Option.isSome_map⟩

end

/-- Settles O45: the three resets are one reset of the host domain, which differ in the link, the sticky bits and the subsystem IDs. -/
theorem endpointResetRows : Obligations.EndpointResetRows := by
  intro s c hpow hc
  obtain ⟨out, sticky, kept, perst, link, ids, hexec, hlink, haer, hout, hflr, hothers⟩ : ∃ out sticky kept perst link ids,
      exec c s = .next (resetBy s out sticky kept perst link ids) ∧ link = !decide (c = .perstN) ∧
      (if sticky = true then s.pcie.aerUnc else 0) = (if c = .perstN then 0 else s.pcie.aerUnc) ∧
      out = (if c = .functionLevelReset ∧ s.intaOn = true then s.out ++ [.deassertInta] else s.out) ∧
      (c = .functionLevelReset → ids = (s.boot.subsysVid, s.boot.subsysId, s.boot.subsysStale)) ∧
      (c ≠ .functionLevelReset → ids = takenIds s) := by
    rcases hc with ⟨rfl, hpin⟩ | ⟨rfl | rfl, hlink⟩
    · exact ⟨_, _, _, _, _, _, exec_perstN hpow hpin, rfl, rfl, by simp, by simp, fun _ => rfl⟩
    · exact ⟨_, _, _, _, _, _, exec_hotReset hlink, hlink, rfl, by simp, by simp, fun _ => rfl⟩
    · exact ⟨_, _, _, _, _, _, exec_functionLevelReset hlink, hlink, rfl, by simp, fun _ => rfl, fun h => absurd rfl h⟩
  refine ⟨_, hexec, rfl, rfl, rfl, rfl, rfl, rfl, rfl, rfl, rfl, hlink, haer, ?_, ?_, fun x hx => ?_, fun b hb => ?_, rfl, rfl, rfl,
    rfl, rfl, rfl, rfl, rfl, rfl, rfl, rfl, rfl, rfl, hout, group_endEpoch s, ?_, ?_, ?_, ?_, rfl, fun h => ?_, fun h f hf => ?_⟩
  · intro r g u hg hu
    have hring : u = resetHostRing s.cfg r g := by
      rw [hu]
      change (tget? (tmap s.rings.rings (resetHostRing s.cfg)) r).getD {} = _
      rw [tget?_tmap, hg]
      rfl
    rw [hring]
    refine ⟨rfl, rfl, rfl, rfl, rfl, rfl, rfl, rfl, rfl, rfl, rfl, rfl, fun q h3 hq => ?_, fun hno => ?_, rfl, rfl, rfl, rfl, stagedOf_kept _⟩
    · simp [resetHostRing, h3, hq]
    · have hnone : (if rkind r = 3 then s.cfg.ring? (r - 7680) else none) = none := by
        split
        · exact hno ‹_›
        · rfl
      simp [resetHostRing, hnone]
  · refine (foldl_abort_fails 9 s.jobs.jobs s.jobs.fails).trans ?_
    by_cases hj : s.jobs.jobs = [] <;> simp [hj]
  · exact (foldl_abort_fails x s.jobs.jobs s.jobs.fails).trans (if_neg fun h => hx h.1)
  · exact tget_foldl_tput 0 s.banks.pool s.banks.owner (.inl hb)
  · exact (List.map_map ..).trans rfl
  · exact (List.map_map ..).trans rfl
  · exact (List.map_map ..).trans rfl
  · exact (Option.map_map ..).trans rfl
  · rw [hflr h]
    exact ⟨rfl, rfl, rfl⟩
  · rw [hothers h]
    unfold takenIds
    rw [hf]
    exact ⟨rfl, rfl, rfl⟩

end Sys2Proof.Machine
end

