-- ==== Sys2Proof/Proofs/Barrier.lean ====
section
/-!
PROOFS. The barrier: forward and reverse messages as they are taken, damaged messages, and the supply of a group (R122, R134 to R137, R146).
-/
namespace Sys2Proof.Machine

theorem faultFrameNow_modGroup (s : State) (g c : Nat) (f : Group → Group) : faultFrameNow (modGroup s g f) c = faultFrameNow s c := rfl

/-! ## How a message is received -/

/-- A good message is the next one, of its row's type, with its own length and CRC. -/
theorem judgeMsg_good {known : Byte → Bool} {typ : Nat} {seq : Byte} {m : Msg} (h : judgeMsg known typ seq m = .good) :
    m.len ≤ 4096 ∧ m.len = m.payload.length ∧ m.crc = msgCrc m.typ m.seq m.payload ∧ m.seq = seq ∧ m.typ.toNat = typ := by
  unfold judgeMsg at h
  split at h
  · cases h
  · split at h
    · cases h
    · rename_i hlen hcrc
      split at h
      · cases h
      · rename_i hseq
        split at h
        · cases h
        · rename_i htyp
          simp only [Bool.or_eq_true, decide_eq_true_eq, not_or, not_not, Bool.not_eq_true', Bool.not_eq_false] at hcrc hseq htyp
          exact ⟨Nat.not_lt.1 hlen, hcrc.1, hcrc.2, hseq.2, htyp⟩

section
variable {s : State} {g typ : Nat} {m : Msg} (k : State → State)

theorem onForward_of_taken (h : takenForward s g typ m) : onForward s g typ m k = .next (k (afterForward s g)) := by
  unfold onForward takeForward
  rw [if_neg (by simp [h.1])]
  simp only [h.2]
  rfl

theorem onReverse_of_taken (h : takenReverse s g typ m) : onReverse s g typ m k = .next (k (afterReverse s g m)) := by
  unfold onReverse takeReverse
  rw [if_neg (by simp [h.1])]
  simp only [h.2]
  rfl

/-- A message with a wrong CRC counts, and is a fault with cause 0x03. -/
theorem onForward_of_crc (hup : s.laneUp g = true) (h : judgeMsg forwardType typ (s.group g).fwdSeq m = .crc) : onForward s g typ m k =
    .next (detect (modGroup s g (fun e => { e with fwdSeq := e.fwdSeq + 1, crcErr := satAdd 16 e.crcErr 1 })) ⟨0x01, g⟩ 0x03
      (m.typ.toNat + 256 * m.seq.toNat) (faultFrameNow s 1)) := by
  unfold onForward takeForward
  rw [if_neg (by simp [hup])]
  simp only [h, crcFault, modGroup_modGroup, faultFrameNow_modGroup]
  rfl

/-- Another framing fault counts, and is a fault with cause 0x04. -/
theorem onForward_of_framing (hup : s.laneUp g = true) (h : judgeMsg forwardType typ (s.group g).fwdSeq m = .framing) : onForward s g typ m k =
    .next (detect (modGroup s g (fun e => { e with fwdSeq := m.seq + 1, framingErr := satAdd 16 e.framingErr 1 })) ⟨0x01, g⟩ 0x04
      (m.typ.toNat + 256 * m.seq.toNat) (faultFrameNow s 1)) := by
  unfold onForward takeForward
  rw [if_neg (by simp [hup])]
  simp only [h, framingFault, modGroup_modGroup, faultFrameNow_modGroup]
  rfl

end

/-! ## Forward messages -/

/-- What the core does with an ECHO. -/
def echoTaken (s : State) (g : Nat) (q : Byte) (x : BitVec 32) (n : Nat) : State :=
  if n = 0 then modGroup s g (fun e => { e with unechoed := dropEcho e.unechoed q x }) else s

/-- What the core does with an IDENT. -/
def identTaken (s : State) (g : Nat) (d : GroupBoot) : State :=
  let r := { d with group := g }
  let test := (s.group g).testBusy
  let s := modGroup s g (fun e => { e with testBusy := false })
  let s := if test then noteFuse s r else s
  if !identOk s r then tileFailure s g 0x502 else if test && !selfTestOk s r then tileFailure s g 0x503 else s

/-- Each row of a forward message receives it as one of its type. -/
theorem exec_forward {s : State} {g : Nat} {m : Msg} {d : StatusData} {q : Byte} {x : BitVec 32} {n : Nat} {c : CalData} {b : GroupBoot}
    {i : Instr} {typ : Nat} (hi : (i, typ) ∈ [(Instr.samples g m, 1), (.edges g m, 2), (.stamps g m, 3), (.status g m d, 4),
      (.echo g m q x n, 5), (.cal g m c, 6), (.ident g m b, 7), (.idle g m, 8)]) : ∃ k, exec i s = onForward s g typ m k := by
  simp only [List.mem_cons, Prod.mk.injEq, List.not_mem_nil, or_false] at hi
  rcases hi with ⟨rfl, rfl⟩ | ⟨rfl, rfl⟩ | ⟨rfl, rfl⟩ | ⟨rfl, rfl⟩ | ⟨rfl, rfl⟩ | ⟨rfl, rfl⟩ | ⟨rfl, rfl⟩ | ⟨rfl, rfl⟩
  · exact ⟨fun s => landKind s g 0, rfl⟩
  · exact ⟨fun s => landKind s g 1, rfl⟩
  · exact ⟨fun s => landKind s g 2, rfl⟩
  · exact ⟨fun s => statusTaken s g d, rfl⟩
  · exact ⟨fun s => echoTaken s g q x n, rfl⟩
  · exact ⟨fun s => calTaken s g c, rfl⟩
  · exact ⟨fun s => identTaken s g b, rfl⟩
  · exact ⟨id, rfl⟩

theorem calTaken_of_refused {u : State} {g : Nat} (d : CalData) (h : calAllowed u g = false) : calTaken u g d = u := if_pos (by simp [h])

theorem calTaken_of_allowed {u : State} {g : Nat} (d : CalData) (h : calAllowed u g = true) : calTaken u g d =
    match (u.group g).calPhase with
    | 1 => alignByMessages u g d
    | 3 => trimByMessages u g d
    | 5 => if calOk u g d then recordCal u g (u.group g).calTrim d else calFails u g
    | _ => u := by
  unfold calTaken
  exact if_neg (by simp [h])

/-- What IDENT leaves of the group before it is judged. -/
def identSeen (u : State) (g : Nat) (d : GroupBoot) (test : Bool) : State :=
  if test = true then noteFuse (modGroup u g (fun e => { e with testBusy := false })) d else modGroup u g (fun e => { e with testBusy := false })

theorem exec_ident {s : State} {g : Nat} {m : Msg} {d : GroupBoot} (h : takenForward s g 0x07 m) (hd : d.group = g) : exec (.ident g m d) s =
    .next (if identOk (identSeen (afterForward s g) g d (s.group g).testBusy) d = false
      then tileFailure (identSeen (afterForward s g) g d (s.group g).testBusy) g 0x502
      else if (s.group g).testBusy = true ∧ selfTestOk (identSeen (afterForward s g) g d (s.group g).testBusy) d = false
        then tileFailure (identSeen (afterForward s g) g d (s.group g).testBusy) g 0x503
      else identSeen (afterForward s g) g d (s.group g).testBusy) := by
  subst hd
  refine (onForward_of_taken (fun s => identTaken s d.group d) h).trans (congrArg _ ?_)
  have htest : ((afterForward s d.group).group d.group).testBusy = (s.group d.group).testBusy := by
    unfold afterForward
    rw [group_modGroup_self]
  unfold identTaken
  dsimp only
  rw [htest, show ({ d with group := d.group } : GroupBoot) = d from rfl, show (if (s.group d.group).testBusy = true
      then noteFuse (modGroup (afterForward s d.group) d.group (fun e => { e with testBusy := false })) d
      else modGroup (afterForward s d.group) d.group (fun e => { e with testBusy := false })) =
    identSeen (afterForward s d.group) d.group d (s.group d.group).testBusy from rfl]
  refine if_congr (by simp) rfl (if_congr (by simp) rfl rfl)

/-- Settles O49: a good message runs its row's effect on the group with its SEQ counted; a damaged one is its fault in every row. -/
theorem barrierMessageRows : Obligations.BarrierMessageRows := by
  refine ⟨fun s g m => ?_, fun s g m hup => ⟨fun d q x n c b i typ hi => ?_, fun typ seq h => judgeMsg_good h⟩⟩
  · have hphase : ((afterForward s g).group g).calPhase = (s.group g).calPhase := by
      unfold afterForward
      rw [group_modGroup_self]
    have htrim : ((afterForward s g).group g).calTrim = (s.group g).calTrim := by
      unfold afterForward
      rw [group_modGroup_self]
    refine ⟨onForward_of_taken (fun s => landKind s g 0), onForward_of_taken (fun s => landKind s g 1),
      onForward_of_taken (fun s => landKind s g 2), fun d => onForward_of_taken (fun s => statusTaken s g d),
      fun q x h => ?_, fun q x n h hn => ?_, fun d u h hu hno => ?_, fun d u h hu hcal => ?_, fun d u h hd hu => ?_, onForward_of_taken id⟩
    · exact (onForward_of_taken (fun s => echoTaken s g q x 0) h).trans (congrArg _ ((if_pos rfl).trans (modGroup_modGroup ..)))
    · exact (onForward_of_taken (fun s => echoTaken s g q x n) h).trans (congrArg _ (if_neg hn))
    · subst hu
      exact (onForward_of_taken (fun s => calTaken s g d) h).trans (congrArg _ (calTaken_of_refused d hno))
    · subst hu
      have hexec : exec (.cal g m d) s = .next (calTaken (afterForward s g) g d) := onForward_of_taken (fun s => calTaken s g d) h
      rw [hexec, calTaken_of_allowed d hcal, hphase, htrim]
      refine ⟨fun hp => by simp only [hp], fun hp => by simp only [hp], fun hp => by simp only [hp], fun hp => ?_⟩
      simp only [List.mem_cons, List.not_mem_nil, or_false, not_or] at hp
      split
      · exact absurd ‹_› hp.1
      · exact absurd ‹_› hp.2.1
      · exact absurd ‹_› hp.2.2
      · rfl
    · subst hu
      rw [exec_ident h hd]
      refine ⟨fun hid => congrArg _ (if_pos hid), fun hid ht hself => ?_, fun hid hself => ?_⟩
      · exact congrArg _ ((if_neg (by simp [identSeen, hid])).trans (if_pos ⟨ht, hself⟩))
      · refine congrArg _ ((if_neg (by simp [identSeen, hid])).trans (if_neg ?_))
        rintro ⟨ht, hf⟩
        exact Bool.noConfusion ((hself ht).symm.trans hf)
  · obtain ⟨k, hk⟩ := exec_forward hi
    rw [hk]
    exact ⟨onForward_of_crc k hup, onForward_of_framing k hup⟩

/-! ## Reverse messages -/

/-- A channel whose comparators follow its input changes nothing else of any group. -/
theorem group_followInput (s : State) (c o g : Nat) : { (followInput s c o).group g with chans := (s.group g).chans } = s.group g := by
  unfold followInput modChan
  rcases eq_or_ne g (c / 64) with rfl | hg
  · rw [group_modGroup_self]
  · rw [group_modGroup_ne _ _ hg]

/-- The group but for its channels. -/
theorem group_followAll (s : State) (g : Nat) : { (followAll s g).group g with chans := (s.group g).chans } = s.group g := by
  unfold followAll
  dsimp only
  generalize ((s.group g).applied.chans).map (fun e => 64 * g + e.1) = l
  have hall : ∀ (l : List Nat) (off : Nat → Nat) (t : State), { (l.foldl (fun s c => followInput s c (off c)) t).group g with
      chans := (t.group g).chans } = t.group g := by
    intro l off
    induction l with
    | nil => exact fun t => rfl
    | cons c l ih =>
      intro t
      have hrest := congrArg (fun e : Group => { e with chans := (t.group g).chans }) (ih (followInput t c (off c)))
      exact hrest.trans (group_followInput t c (off c) g)
  exact hall l _ s

/-- What the tile has applied at a TICK (R137). -/
theorem group_applySettings (s : State) (g : Nat) : { (applySettings s g).group g with chans := (s.group g).chans } =
    { s.group g with
      applied := (s.group g).applied.merge (s.group g).received
      received := {}
      railsOn := ((s.group g).applied.merge (s.group g).received).rails.any (·.2) } := by
  unfold applySettings
  have h := group_followAll (modGroup s g (fun e =>
    { e with applied := e.applied.merge e.received, received := {}, railsOn := (e.applied.merge e.received).rails.any (·.2) })) g
  simp only [group_modGroup_self] at h ⊢
  exact h

theorem group_afterReverse (s : State) (g : Nat) (m : Msg) :
    (afterReverse s g m).group g = { s.group g with tileSeq := (s.group g).tileSeq + 1 } :=
  group_modGroup_self (s := s) g (fun e => { e with tileSeq := e.tileSeq + 1 })

theorem calAllowed_afterReverse (s : State) (g : Nat) (m : Msg) : calAllowed (afterReverse s g m) g = !((s.group g).state == .running) := by
  unfold calAllowed
  rw [group_afterReverse]

/-- Settles O50: each row runs its effect on the tile with the message counted and echoed; a TICK leaves but the channels as they were. -/
theorem reverseMessageRows : Obligations.ReverseMessageRows := by
  rintro s g m u rfl
  refine ⟨fun h => ⟨_, onReverse_of_taken (fun s => applySettings (modGroup s g (fun e => { e with tickLow := fld m.payload 0 2 })) g) h,
      rfl, ?_⟩, fun c h hc => ?_, fun k on h hk => ?_, fun k d f h hk => ?_, fun hno => ?_, fun hrun => ?_,
    onReverse_of_taken (fun s => modGroup s g (fun e => { e with testBusy := true })), onReverse_of_taken (fun s => islandOff s g .down),
    onReverse_of_taken (fun s => emit s (.fromTile g 0x07
      (tileIdentity s.franking.mem g ++ leInt 4 (tileAsymmetry s.franking.mem g) ++ leInt 4 (tileDelay s.franking.mem g))))⟩
  · have h := group_applySettings (modGroup (afterReverse s g m) g (fun e => { e with tickLow := fld m.payload 0 2 })) g
    rw [group_modGroup_self, group_afterReverse] at h
    exact ⟨congrArg Group.applied h, congrArg Group.received h, congrArg Group.tickLow h, congrArg Group.railsOn h⟩
  · exact (onReverse_of_taken (fun s => if 64 ≤ c.chan then s else modGroup s g (fun e => { e with
      received := { e.received with chans := tput e.received.chans c.chan c } })) h).trans (congrArg _ (if_neg (Nat.not_le.2 hc)))
  · exact (onReverse_of_taken (fun s => if 4 ≤ k then s else modGroup s g (fun e => { e with
      received := { e.received with rails := tput e.received.rails k on } })) h).trans (congrArg _ (if_neg (Nat.not_le.2 hk)))
  · exact (onReverse_of_taken (fun s => if 4 ≤ k then s else modGroup s g (fun e => { e with
      received := { e.received with mclk := tput e.received.mclk k (d, f) } })) h).trans (congrArg _ (if_neg (Nat.not_le.2 hk)))
  · have hcal : calAllowed (afterReverse s g m) g = true := by simp [calAllowed_afterReverse, hno]
    refine ⟨fun h => ?_, fun c t h hc => ?_, fun h => ⟨?_, ?_⟩⟩
    · exact (onReverse_of_taken (fun s => if calAllowed s g then modGroup s g (fun e => { e with steps := min 2047 (e.steps + 1) }) else s)
        h).trans (congrArg _ (if_pos hcal))
    · exact (onReverse_of_taken (fun s => if 64 ≤ c || !calAllowed s g then s else modGroup s g (fun e => { e with
        received := { e.received with trims := tput e.received.trims c t } })) h).trans (congrArg _ (if_neg (by simp [hcal, hc])))
    · exact (onReverse_of_taken (fun s => if calAllowed s g then modGroup s g (fun e => { e with calPhase := calNext e.calPhase false }) else s)
        h).trans (congrArg _ (if_pos hcal))
    · exact (onReverse_of_taken (fun s => if calAllowed s g then modGroup s g (fun e => { e with calPhase := calNext e.calPhase true }) else s)
        h).trans (congrArg _ (if_pos hcal))
  · have hcal : ¬ calAllowed (afterReverse s g m) g = true := by simp [calAllowed_afterReverse, hrun]
    refine ⟨fun h => ?_, fun c t h => ?_, fun b h => ?_⟩
    · exact (onReverse_of_taken (fun s => if calAllowed s g then modGroup s g (fun e => { e with steps := min 2047 (e.steps + 1) }) else s)
        h).trans (congrArg _ (if_neg hcal))
    · exact (onReverse_of_taken (fun s => if 64 ≤ c || !calAllowed s g then s else modGroup s g (fun e => { e with
        received := { e.received with trims := tput e.received.trims c t } })) h).trans (congrArg _ (if_pos (by simp [hcal])))
    · exact (onReverse_of_taken (fun s => if calAllowed s g then modGroup s g (fun e => { e with calPhase := calNext e.calPhase b }) else s)
        h).trans (congrArg _ (if_neg hcal))

/-! ## Faults and limits of a group -/

/-- The frame of an overcurrent of which the limit began at `a` (R488). -/
def onsetFrame (s : State) (a : Nat) : Nat :=
  max s.released (min (if s.ticking then (a - s.time.tick0.getD 0) / max 1 s.spacing else 0) s.curFrame)

theorem overcurrentSince_eq (s : State) (g rail a : Nat) : overcurrentSince s g rail a =
    detect (modGroup s g (fun e => { e with railLimit := e.railLimit.set rail (some (a, true)) })) ⟨0x01, g⟩ 0x0B 0 (onsetFrame s a) := rfl

theorem onsetFrame_advanceTo (s : State) (n a : Nat) : onsetFrame (advanceTo s n) a = onsetFrame s a := by
  obtain ⟨r, w, h⟩ := advanceTo_eq s n
  rw [h]
  rfl

section
variable {s : State} {g rail a : Nat} {f : Bool}

theorem exec_leaveLimit (h : (s.group g).railLimit.getD rail none = some (a, f)) : exec (.railCurrentLimit g rail false) s =
    .next (leaveLimit s g rail (a, f)) := by
  change execRailCurrentLimit g rail false s = _
  unfold execRailCurrentLimit
  simp only [h]
  rfl

theorem exec_enterLimit (hon : (s.group g).railsOn = true) (hr : rail < 5) (h : (s.group g).railLimit.getD rail none = none) :
    exec (.railCurrentLimit g rail true) s = .next (modGroup s g (fun e => { e with railLimit := e.railLimit.set rail (some (s.now, false)) })) := by
  change execRailCurrentLimit g rail true s = _
  unfold execRailCurrentLimit
  simp only [h]
  rw [if_pos (by simp [hon, hr])]

theorem leaveLimit_of_short (h : s.now - a < 1600000) : leaveLimit s g rail (a, f) =
    modGroup (modGroup s g (fun e => { e with limitEvents := satAdd 16 e.limitEvents 1 })) g (fun e => { e with
      railLimit := e.railLimit.set rail none }) := by
  exact congrArg (fun s => modGroup s g (fun e => { e with railLimit := e.railLimit.set rail none })) (if_neg (Nat.not_le.2 h))

theorem leaveLimit_of_long (h : 1600000 ≤ s.now - a) : leaveLimit s g rail (a, f) =
    modGroup (if f then s else overcurrentSince s g rail a) g (fun e => { e with railLimit := e.railLimit.set rail none }) := by
  exact congrArg (fun s => modGroup s g (fun e => { e with railLimit := e.railLimit.set rail none })) (if_pos h)

theorem exec_overcurrent (h : (s.group g).railLimit.getD rail none = some (a, false)) (hon : (s.group g).railsOn = true)
    (htick : s.ticking = true → a + 1600000 ≤ s.tickOf s.time.ticks) :
    exec (.overcurrent g rail) s = .next (overcurrentSince (advanceTo s (a + 1600000)) g rail a) := by
  change execOvercurrent g rail s = _
  unfold execOvercurrent
  simp only [h]
  refine if_pos ?_
  rw [hon, show limitTime = 1600000 from rfl]
  cases ht : s.ticking with
  | false => rfl
  | true => simpa using htick ht

end

/-- Settles O51: a limit of 100 µs is one overcurrent, detected where it ends or where the time has passed, whichever comes first. -/
theorem groupFaultRows : Obligations.GroupFaultRows := by
  intro s g
  refine ⟨fun typ q x l hup hl => ?_, fun lane hup hlane => if_pos (by simp [hup, hlane]), fun hpow => if_pos hpow,
    fun rail hon hr h => exec_enterLimit hon hr h, fun rail a f h => ⟨fun hshort => ?_, fun hlong hf => ?_, fun frame hframe hf => ⟨fun hlong => ?_,
      fun hon htick => ?_⟩⟩⟩
  · change execEchoTimeout g s = _
    unfold execEchoTimeout
    simp only [hl]
    exact if_pos hup
  · rw [exec_leaveLimit h, leaveLimit_of_short hshort]
  · rw [exec_leaveLimit h, leaveLimit_of_long hlong, if_pos hf]
  · rw [exec_leaveLimit h, leaveLimit_of_long hlong, hf, overcurrentSince_eq, hframe]
    rfl
  · rw [exec_overcurrent (hf ▸ h) hon htick, overcurrentSince_eq, onsetFrame_advanceTo, hframe]
    rfl

end Sys2Proof.Machine
end

