-- ==== Sys2Proof/Proofs/LossOfLock.lean ====
section
/-!
PROOFS. Losses of lock of the synthesisers and the failure of the oscillator (R76, R322, R439, R451, R453, R454).
-/
namespace Sys2Proof.Machine

/-! ## What stays of the clocks and of the module's state -/

/-- The synthesisers, the oscillator, the reference of PLL-S and the safe clock. -/
def synths (s : State) : Pll × Pll × Pll × Bool × Bool × Bool :=
  (s.clocks.pllS, s.clocks.pllC, s.clocks.pllM, s.clocks.oscFail, s.clocks.refSel, s.clocks.safeClock)

/-- The synthesisers are as they were, and history that is off stays off. -/
structure SynthsKept (s t : State) : Prop where
  synths : synths t = synths s
  dramOff : s.banks.dramOff = true → t.banks.dramOff = true

/-- So is the module's state. -/
structure ClocksKept (s t : State) : Prop extends SynthsKept s t where
  boot : t.boot = s.boot

/-- What is as it was, by its parts. -/
theorem SynthsKept.parts {s t : State} (h : SynthsKept s t) : t.clocks.pllS = s.clocks.pllS ∧ t.clocks.pllC = s.clocks.pllC ∧
    t.clocks.pllM = s.clocks.pllM ∧ t.clocks.oscFail = s.clocks.oscFail ∧ t.clocks.refSel = s.clocks.refSel ∧
    t.clocks.safeClock = s.clocks.safeClock := by
  simpa [Machine.synths] using h.synths

theorem SynthsKept.trans {s t u : State} (h : SynthsKept s t) (k : SynthsKept t u) : SynthsKept s u :=
  ⟨k.synths.trans h.synths, fun hd => k.dramOff (h.dramOff hd)⟩

/-- The same, for a last step that is known. -/
theorem SynthsKept.of {s t u : State} (k : SynthsKept t u) (h : SynthsKept s t) : SynthsKept s u := h.trans k

theorem ClocksKept.refl (s : State) : ClocksKept s s := ⟨⟨rfl, id⟩, rfl⟩

theorem ClocksKept.trans {s t u : State} (h : ClocksKept s t) (k : ClocksKept t u) : ClocksKept s u :=
  ⟨h.toSynthsKept.trans k.toSynthsKept, k.boot.trans h.boot⟩

theorem ClocksKept.of {s t u : State} (k : ClocksKept t u) (h : ClocksKept s t) : ClocksKept s u := h.trans k

theorem ClocksKept.foldl {α : Type} {f : State → α → State} (hf : ∀ s x, ClocksKept s (f s x)) : ∀ (l : List α) (s : State), ClocksKept s (l.foldl f s)
  | [], s => .refl s
  | x :: l, s => (hf s x).trans (ClocksKept.foldl hf l (f s x))

theorem Completes.clocksKept {s t : State} (h : Completes s t) : ClocksKept s t :=
  ⟨⟨(congrArg Machine.synths h :), fun hd => ((congrArg (fun s => s.banks.dramOff) h :) : t.banks.dramOff = s.banks.dramOff).trans hd⟩,
    (congrArg State.boot h :)⟩

theorem ClocksKept.storeAdd (s : State) (a n : Nat) : ClocksKept s (storeAdd s a n) := by
  unfold Machine.storeAdd storeWrite
  dsimp only
  split
  · exact ⟨⟨rfl, id⟩, rfl⟩
  · split
    · exact ⟨⟨rfl, id⟩, rfl⟩
    · exact ⟨⟨rfl, id⟩, rfl⟩

theorem ClocksKept.faults (s : State) (f : Faults) : ClocksKept s { s with faults := f } := ⟨⟨rfl, id⟩, rfl⟩

theorem ClocksKept.holdEnvelope (s : State) (e : Envelope) : ClocksKept s (holdEnvelope s e) := ⟨⟨rfl, id⟩, rfl⟩

theorem SynthsKept.raiseIrq (s : State) (i : Nat) : SynthsKept s (raiseIrq s i) :=
  ⟨(congrArg Machine.synths (raiseIrq_frame s i) :),
    fun h => ((congrArg (fun s => s.banks.dramOff) (raiseIrq_frame s i) :) : (Machine.raiseIrq s i).banks.dramOff = s.banks.dramOff).trans h⟩

theorem SynthsKept.setState (s : State) (m : ModState) : SynthsKept s (setState s m) := by
  unfold Machine.setState
  split
  · exact ⟨rfl, id⟩
  · exact .of (.raiseIrq ..) ⟨rfl, id⟩

/-! ## A fence of a clock source, of capture memory, or of the Franking Store -/

/-- The classes of a clock source, of capture memory and of the Franking Store. -/
abbrev clockClass (c : Nat) : Prop := c = 0x08 ∨ c = 0x0B ∨ c = 0x0E

theorem ClocksKept.fenceUnit (s : State) {d : Detection} (h : clockClass d.unit.cls) (c : Nat) : ClocksKept s (fenceUnit s d c) := by
  obtain ⟨⟨cls, idx⟩, cause, detail, more, frame, mark⟩ := d
  have heffect : ∀ (s : State) (perm : Bool), ClocksKept s (fenceEffect s ⟨cls, idx⟩ perm) := by
    intro s perm
    rcases h with h | h | h
    · cases h
      exact ⟨⟨rfl, fun _ => rfl⟩, rfl⟩
    · cases h
      exact .refl s
    · cases h
      exact .refl s
  have hmove : ∀ s : State, (moveOut s cls idx).1 = s := by
    intro s
    rcases h with h | h | h
    · cases h
      rfl
    · cases h
      rfl
    · cases h
      rfl
  unfold Machine.fenceUnit
  dsimp only
  rw [hmove]
  have hstore : ∀ c : Prop, [Decidable c] → ClocksKept s (if c then
      Machine.storeAdd (Machine.storeAdd (Machine.storeAdd s (counterAddr cls idx) 1) faultsAddr 1) permanentAddr 1
      else Machine.storeAdd (Machine.storeAdd s (counterAddr cls idx) 1) faultsAddr 1) := by
    intro c _
    have htwo := (storeAdd s (counterAddr cls idx) 1).trans (.storeAdd _ faultsAddr 1)
    split
    · exact htwo.trans (.storeAdd ..)
    · exact htwo
  exact .of (.holdEnvelope _ _) (.of (heffect _ _) (.of (.faults _ _) (hstore _)))

theorem ClocksKept.detect (s : State) {u : FUnit} (h : clockClass u.cls) (cause detail frame : Nat) : ClocksKept s (detect s u cause detail frame) := by
  unfold Machine.detect
  dsimp only
  split
  · exact .refl s
  · split
    · split
      · rename_i e hfind
        have hu : e.unit = u := by simpa using List.find?_some hfind
        exact .fenceUnit s (by simpa [hu] using h) _
      · exact .fenceUnit s h _
    · exact ⟨⟨rfl, id⟩, rfl⟩

theorem ClocksKept.clockFault (s : State) (i d m : Nat) : ClocksKept s (clockFault s i d m) := by
  unfold Machine.clockFault
  split
  · exact .refl s
  · exact .fenceUnit s (.inr (.inl rfl)) _

/-! ## A refused bind -/

theorem SynthsKept.bindRefuse (s : State) (c d : Nat) (copy : Option Copy) : SynthsKept s (bindRefuse s c d copy) := by
  have hoff : SynthsKept s (islandsOff s) :=
    (ClocksKept.foldl (f := fun s g => islandOff s g .unused) (fun _ _ => ⟨⟨rfl, id⟩, rfl⟩) _ s).toSynthsKept
  have hclear : SynthsKept (islandsOff s) (clearBind (islandsOff s)) := ⟨rfl, id⟩
  have hend : ∀ u : State, SynthsKept u (rebindEnded u) := by
    intro u
    unfold rebindEnded
    split
    · exact SynthsKept.trans (t := { u with boot := { u.boot with rebinding := false } }) ⟨rfl, id⟩ (.raiseIrq ..)
    · exact ⟨rfl, id⟩
  unfold Machine.bindRefuse
  generalize clearBind (islandsOff s) = t at hclear
  dsimp only
  refine (hoff.trans hclear).trans (.of (hend _) (.of (.setState ..) ?_))
  exact ⟨rfl, id⟩

theorem SynthsKept.noteStore (s t : State) : SynthsKept t (noteStore s t) := by
  unfold Machine.noteStore
  split
  · exact (ClocksKept.detect t (.inr (.inr rfl)) _ _ _).toSynthsKept
  · exact ⟨rfl, id⟩

theorem SynthsKept.faults (s : State) (f : Faults) : SynthsKept s { s with faults := f } := ⟨rfl, id⟩

theorem SynthsKept.clockRefusal (s : State) (i c d : Nat) : SynthsKept s (clockRefusal s i c d) := by
  have hstore := ((ClocksKept.storeAdd s (counterAddr 0x0B i) 1).trans (.storeAdd _ faultsAddr 1)).toSynthsKept
  exact .of (.faults _ _) (.of (.bindRefuse _ c d _) (.of (.noteStore s _) hstore))

/-! ## A loss, by its parts -/

theorem holdCount_eq (s : State) : ∃ t, holdCount s = { s with time := t } := ⟨_, rfl⟩

theorem gateOutputs_eq (s : State) : ∃ d o, gateOutputs s = { s with clocks := { s.clocks with clkDiv := d, clkOld := o } } := ⟨_, _, rfl⟩

theorem noteSync_eq (s : State) : ∃ w, noteSync s = { s with clocks := { s.clocks with syncWait := w } } := ⟨_, rfl⟩

/-- What PLL-S's loss marks. -/
theorem dropS_eq (s : State) : ∃ t d o w, dropS s = { s with
    time := t, clocks := { s.clocks with pllS := s.clocks.pllS.lose, clkDiv := d, clkOld := o, syncWait := w } } := by
  obtain ⟨t, ht⟩ := holdCount_eq s
  obtain ⟨d, o, hd⟩ := gateOutputs_eq (holdCount s)
  unfold dropS
  dsimp only
  obtain ⟨w, hw⟩ := noteSync_eq { gateOutputs (holdCount s) with
    clocks := { (gateOutputs (holdCount s)).clocks with pllS := (gateOutputs (holdCount s)).clocks.pllS.lose } }
  rw [hw, hd, ht]
  exact ⟨t, d, o, w, rfl⟩

theorem dropS_synths (s : State) : (dropS s).clocks.pllS = s.clocks.pllS.lose ∧ (dropS s).clocks.pllC = s.clocks.pllC ∧
    (dropS s).clocks.pllM = s.clocks.pllM ∧ (dropS s).clocks.oscFail = s.clocks.oscFail ∧ (dropS s).boot = s.boot := by
  obtain ⟨t, d, o, w, h⟩ := dropS_eq s
  rw [h]
  exact ⟨rfl, rfl, rfl, rfl, rfl⟩


theorem ClocksKept.cancelSwitches (s : State) : ClocksKept s (cancelSwitches s) :=
  .of (t := { s with clocks := { s.clocks with pending := [] } }) (.foldl (fun _ _ => (Completes.complete ..).clocksKept) _ _) ⟨⟨rfl, id⟩, rfl⟩

/-- FAULT_HOLD is entered, and remembers the state in which the first loss found the module (R76, R77). -/
structure HoldEntered (s t : State) : Prop extends SynthsKept s t where
  state : t.boot.state = .faultHold
  resume : t.boot.resume = if s.boot.state == ModState.faultHold then s.boot.resume else some s.boot.state

theorem ClocksKept.safeEvts (s : State) : ClocksKept s (safeEvts s) := by
  unfold Machine.safeEvts
  have hall := ClocksKept.foldl (f := fun s (q : EvtQ) => { s with proc := { s.proc with evts := tmod {} s.proc.evts q.out (fun e =>
      { e with safe := true, level := q.safeLevel e.level, pulse := none }) } }) (fun _ _ => ⟨⟨rfl, id⟩, rfl⟩) s.cfg.evts s
  exact hall.trans ⟨⟨rfl, id⟩, rfl⟩

theorem ClocksKept.spoilFrames (s : State) (c : Nat) : ClocksKept s (spoilFrames s c) := ⟨⟨rfl, id⟩, rfl⟩

theorem ClocksKept.groupsLose (s : State) : ClocksKept s (groupsLose s) := ⟨⟨rfl, id⟩, rfl⟩

theorem ClocksKept.notPassed (s : State) (u : FUnit) : ClocksKept s (notPassed s u) := ⟨⟨rfl, id⟩, rfl⟩

theorem HoldEntered.of_kept {s t u : State} (h : ClocksKept s t) (k : HoldEntered t u) : HoldEntered s u :=
  ⟨h.toSynthsKept.trans k.toSynthsKept, k.state, by rw [k.resume, h.boot]⟩

theorem HoldEntered.then_kept {s t u : State} (h : HoldEntered s t) (k : ClocksKept t u) : HoldEntered s u :=
  ⟨h.toSynthsKept.trans k.toSynthsKept, by rw [k.boot, h.state], by rw [k.boot, h.resume]⟩

theorem HoldEntered.setState {s t : State} (h : SynthsKept s t)
    (hr : t.boot.resume = if s.boot.state == ModState.faultHold then s.boot.resume else some s.boot.state) :
    HoldEntered s (setState t .faultHold) :=
  ⟨h.trans (.setState ..), by rw [setState_boot], by rw [setState_boot, hr]⟩

theorem HoldEntered.enterHold (s : State) (i c : Nat) : HoldEntered s (enterHold s i c) := by
  unfold Machine.enterHold
  dsimp only
  refine .then_kept ?_ (.safeEvts _)
  refine .setState ⟨rfl, id⟩ ?_
  rfl

theorem HoldEntered.fault {s t : State} (h : HoldEntered s t) (own : Bool) (i d m : Nat) : HoldEntered s (if own then clockFault t i d m else t) := by
  split
  · exact h.then_kept (.clockFault ..)
  · exact h

/-- What a loss of PLL-S or PLL-C leaves after the synthesiser is marked: FAULT_HOLD after the bind, or at most a refused bind. -/
structure LossHeld (s t : State) : Prop extends SynthsKept s t where
  held : s.past = true → HoldEntered s t

theorem LossHeld.refusal (s : State) (c : Prop) [Decidable c] (i x d : Nat) (h : ¬ s.past = true) :
    LossHeld s (if c then clockRefusal s i x d else s) := by
  split
  · exact ⟨.clockRefusal .., fun k => absurd k h⟩
  · exact ⟨⟨rfl, id⟩, fun k => absurd k h⟩

theorem HoldEntered.lossHeld {s t : State} (h : HoldEntered s t) : LossHeld s t := ⟨h.toSynthsKept, fun _ => h⟩

theorem LossHeld.loseS (s : State) (d : Nat) (own : Bool) : LossHeld (dropS s) (loseS s d own) := by
  unfold Machine.loseS
  generalize dropS s = t
  dsimp only
  split
  · have hlose := ((ClocksKept.cancelSwitches t).trans (.groupsLose _)).trans (.spoilFrames _ (groupsLose (cancelSwitches t)).curFrame)
    exact ((HoldEntered.of_kept hlose (.enterHold ..)).fault own 0 d 0).lossHeld
  · rename_i hpast
    exact .refusal t _ 0 _ _ hpast

theorem LossHeld.loseC (s : State) (own : Bool) : LossHeld (dropC s) (loseC s own) := by
  unfold Machine.loseC
  generalize dropC s = t
  dsimp only
  split
  · have hlose := (ClocksKept.spoilFrames t t.released).trans (.cancelSwitches _)
    exact ((HoldEntered.of_kept hlose (.enterHold ..)).fault own 1 0 1).lossHeld
  · rename_i hpast
    exact .refusal t _ 1 _ _ hpast

/-- A loss of PLL-M moves the module out of no state after the bind. -/
theorem loseM_kept (s : State) (own : Bool) : SynthsKept (dropM s) (loseM s own) ∧ (s.past = true → (loseM s own).boot = s.boot) := by
  unfold loseM
  have hboot : (dropM s).boot = s.boot := rfl
  have hpast : (dropM s).past = s.past := rfl
  rw [← hboot, ← hpast]
  generalize dropM s = t
  dsimp only
  split
  · have hdetect := ((ClocksKept.notPassed t ⟨0x08, 0⟩).trans (.notPassed _ ⟨0x0B, 2⟩)).trans (.detect _ (u := ⟨0x08, 0⟩) (.inl rfl) 0x08 0
      (notPassed (notPassed t ⟨0x08, 0⟩) ⟨0x0B, 2⟩).released)
    split
    · have hall := hdetect.trans (.clockFault _ 2 0 0)
      exact ⟨hall.toSynthsKept, fun _ => hall.boot⟩
    · exact ⟨hdetect.toSynthsKept, fun _ => hdetect.boot⟩
  · rename_i hno
    refine ⟨?_, fun h => absurd h hno⟩
    have hmark := (ClocksKept.notPassed t ⟨0x08, 0⟩).trans (.notPassed _ ⟨0x0B, 2⟩)
    split
    · exact .of (.clockRefusal ..) hmark.toSynthsKept
    · exact hmark.toSynthsKept

theorem past_of_mission {s : State} (h : s.boot.state = .running ∨ s.boot.state = .arming) : s.past = true := by
  unfold State.past
  rcases h with h | h <;> rw [h]

theorem HoldEntered.resume_of_mission {s t : State} (h : HoldEntered s t) (hs : s.boot.state = .running ∨ s.boot.state = .arming) :
    t.boot.resume = some s.boot.state := by
  rw [h.resume]
  refine if_neg ?_
  rcases hs with hs | hs <;> rw [hs] <;> decide

theorem past_of_held {s t : State} (h : HoldEntered s t) : t.past = true := by
  unfold State.past
  rw [h.state]

/-- A loss of PLL-S in ARMING or RUNNING takes the module to FAULT_HOLD. -/
theorem loseS_hold {s : State} (d : Nat) (own : Bool) (h : s.boot.state = .running ∨ s.boot.state = .arming) :
    (loseS s d own).boot.state = .faultHold ∧ (loseS s d own).boot.resume = some s.boot.state := by
  have hboot := (dropS_synths s).2.2.2.2
  rw [← hboot] at h ⊢
  have hheld := (LossHeld.loseS s d own).held (past_of_mission h)
  exact ⟨hheld.state, hheld.resume_of_mission h⟩

/-! ## The failure of the oscillator -/

/-- PLL-S loses lock with the oscillator it runs on (R453). -/
def withOscS (s : State) : State := if s.clocks.pllS.lock && !s.clocks.refSel then loseS s 1 false else s

def withOscC (s : State) : State := if s.clocks.pllC.lock then loseC s false else s

def withOscM (s : State) : State := if s.clocks.pllM.lock then loseM s false else s

/-- The oscillator has failed, and what runs on it has lost its lock. -/
def oscEnded (s : State) : State := withOscM (withOscC (withOscS { s with clocks := { s.clocks with oscFail := true } }))

theorem exec_oscillatorFailure {s : State} (hpow : s.powered = true) (hosc : s.clocks.oscFail = false) : exec .oscillatorFailure s =
    .next (if (oscEnded s).past then clockFault (oscEnded s) 3 0 0 else if s.bindingNow then clockRefusal (oscEnded s) 3 0x509 3
      else oscEnded s) := by
  change execOscillatorFailure s = _
  unfold execOscillatorFailure
  rw [if_neg (by simp [hpow, hosc])]
  rfl

theorem withOscS_synths (s : State) : ((withOscS s).clocks.pllC = s.clocks.pllC ∧ (withOscS s).clocks.pllM = s.clocks.pllM ∧
    (withOscS s).clocks.oscFail = s.clocks.oscFail) ∧ (s.clocks.refSel = false → (withOscS s).clocks.pllS.lock = false) := by
  unfold withOscS
  split
  · obtain ⟨hS, hC, hM, hosc, -, -⟩ := (LossHeld.loseS s 1 false).parts
    obtain ⟨hdS, hdC, hdM, hdosc, -⟩ := dropS_synths s
    exact ⟨⟨hC.trans hdC, hM.trans hdM, hosc.trans hdosc⟩, fun _ => by rw [hS, hdS]; rfl⟩
  · rename_i h
    exact ⟨⟨rfl, rfl, rfl⟩, fun href => by simpa [href] using h⟩

theorem withOscC_synths (s : State) : ((withOscC s).clocks.pllS = s.clocks.pllS ∧ (withOscC s).clocks.pllM = s.clocks.pllM ∧
    (withOscC s).clocks.oscFail = s.clocks.oscFail) ∧ (withOscC s).clocks.pllC.lock = false := by
  unfold withOscC
  split
  · obtain ⟨hS, hC, hM, hosc, -, -⟩ := (LossHeld.loseC s false).parts
    exact ⟨⟨hS, hM, hosc⟩, by rw [hC]; rfl⟩
  · rename_i h
    exact ⟨⟨rfl, rfl, rfl⟩, by simpa using h⟩

theorem withOscM_synths (s : State) : ((withOscM s).clocks.pllS = s.clocks.pllS ∧ (withOscM s).clocks.pllC = s.clocks.pllC ∧
    (withOscM s).clocks.oscFail = s.clocks.oscFail) ∧ (withOscM s).clocks.pllM.lock = false := by
  unfold withOscM
  split
  · obtain ⟨hS, hC, hM, hosc, -, -⟩ := (loseM_kept s false).1.parts
    exact ⟨⟨hS, hC, hosc⟩, by rw [hM]; rfl⟩
  · rename_i h
    exact ⟨⟨rfl, rfl, rfl⟩, by simpa using h⟩

/-- What the oscillator's failure leaves of the clocks. -/
theorem oscEnded_synths (s : State) : (oscEnded s).clocks.oscFail = true ∧ (oscEnded s).clocks.pllC.lock = false ∧
    (oscEnded s).clocks.pllM.lock = false ∧ (s.clocks.refSel = false → (oscEnded s).clocks.pllS.lock = false) := by
  unfold oscEnded
  generalize hu : ({ s with clocks := { s.clocks with oscFail := true } } : State) = u
  have hosc : u.clocks.oscFail = true := hu ▸ rfl
  have href : u.clocks.refSel = s.clocks.refSel := hu ▸ rfl
  obtain ⟨⟨-, -, hoscS⟩, hS⟩ := withOscS_synths u
  obtain ⟨⟨hSC, -, hoscC⟩, hC⟩ := withOscC_synths (withOscS u)
  obtain ⟨⟨hSM, hCM, hoscM⟩, hM⟩ := withOscM_synths (withOscC (withOscS u))
  exact ⟨by rw [hoscM, hoscC, hoscS, hosc], by rw [hCM, hC], hM, fun h => by rw [hSM, hSC, hS (href.trans h)]⟩

/-- A module in ARMING or RUNNING goes to FAULT_HOLD with PLL-C, also where PLL-S has taken it there before. -/
theorem oscEnded_boot {s : State} (hm : s.boot.state = .running ∨ s.boot.state = .arming) (hlock : s.clocks.pllC.lock = true) :
    (oscEnded s).boot.state = .faultHold ∧ (oscEnded s).boot.resume = some s.boot.state := by
  unfold oscEnded
  generalize hu : ({ s with clocks := { s.clocks with oscFail := true } } : State) = u
  have hboot : u.boot = s.boot := hu ▸ rfl
  have hlocku : u.clocks.pllC.lock = true := by rw [← hu]; exact hlock
  rw [← hboot] at hm ⊢
  have hS : (withOscS u).boot = u.boot ∨ (withOscS u).boot.state = .faultHold ∧ (withOscS u).boot.resume = some u.boot.state := by
    unfold withOscS
    split
    · exact .inr (loseS_hold 1 false hm)
    · exact .inl rfl
  have hpast : (withOscS u).past = true := by
    rcases hS with h | h
    · exact past_of_mission (h ▸ hm)
    · unfold State.past
      rw [h.1]
  have hC : (withOscC (withOscS u)).boot.state = .faultHold ∧ (withOscC (withOscS u)).boot.resume = some u.boot.state := by
    unfold withOscC
    rw [if_pos (by rw [(withOscS_synths u).1.1, hlocku])]
    have hheld := (LossHeld.loseC (withOscS u) false).held hpast
    refine ⟨hheld.state, ?_⟩
    rcases hS with h | h
    · rw [hheld.resume_of_mission (s := dropC (withOscS u)) (show (withOscS u).boot.state = _ ∨ (withOscS u).boot.state = _ from h ▸ hm)]
      exact congrArg (fun b : Boot => some b.state) h
    · rw [hheld.resume]
      exact (if_pos (show ((withOscS u).boot.state == ModState.faultHold) = true by rw [h.1]; decide)).trans h.2
  have hM : (withOscM (withOscC (withOscS u))).boot = (withOscC (withOscS u)).boot := by
    unfold withOscM
    split
    · refine (loseM_kept _ false).2 ?_
      unfold State.past
      rw [hC.1]
    · rfl
  rw [hM]
  exact hC

/-- Settles O52: what each loss marks is left as it is by all that follows, a loss in ARMING or RUNNING enters FAULT_HOLD, and the
oscillator's losses follow one another. -/
theorem lockLossRows : Obligations.LockLossRows := by
  refine ⟨fun s hpow hlock => ?_, fun s hpow hlock => ?_, fun s hpow hlock => ?_, fun s g hpow hlock hS => ?_, fun s hpow hosc => ?_⟩
  · exact ⟨congrArg Host.Outcome.next (if_pos (by simp [hpow, hlock])), (LossHeld.loseS s 0 true).parts.1.trans (dropS_synths s).1,
      loseS_hold 0 true⟩
  · have hloss := LossHeld.loseC s true
    obtain ⟨-, hC, -, -, -, hsafe⟩ := hloss.parts
    refine ⟨congrArg Host.Outcome.next (if_pos (by simp [hpow, hlock])), hC, hsafe, fun hm => ?_⟩
    have hheld := hloss.held (past_of_mission (s := dropC s) hm)
    exact ⟨hheld.state, hheld.resume_of_mission (s := dropC s) hm⟩
  · obtain ⟨hkept, -⟩ := loseM_kept s true
    refine ⟨congrArg Host.Outcome.next (if_pos (by simp [hpow, hlock])), hkept.parts.2.2.1, ?_⟩
    simp [State.canReadHistory, hkept.dramOff rfl]
  · exact if_pos (by simp [hpow, hlock, hS])
  · obtain ⟨hfail, hC, hM, hS⟩ := oscEnded_synths s
    have hend : ∃ t, exec .oscillatorFailure s = .next t ∧ SynthsKept (oscEnded s) t ∧ ((oscEnded s).past = true → t.boot = (oscEnded s).boot) := by
      rw [exec_oscillatorFailure hpow hosc]
      refine ⟨_, rfl, ?_⟩
      split
      · have hkept := ClocksKept.clockFault (oscEnded s) 3 0 0
        exact ⟨hkept.toSynthsKept, fun _ => hkept.boot⟩
      · rename_i hpast
        refine ⟨?_, fun h => absurd h hpast⟩
        split
        · exact .clockRefusal ..
        · exact ⟨rfl, id⟩
    obtain ⟨t, hexec, hkept, hboot⟩ := hend
    obtain ⟨htS, htC, htM, htosc, -, -⟩ := hkept.parts
    refine ⟨t, hexec, htosc.trans hfail, by rw [htC, hC], by rw [htM, hM], fun href => by rw [htS, hS href], fun hm hlock => ?_⟩
    obtain ⟨hstate, hresume⟩ := oscEnded_boot hm hlock
    rw [hboot (by unfold State.past; rw [hstate])]
    exact ⟨hstate, hresume⟩

end Sys2Proof.Machine
end

