-- ==== Sys2Proof/Proofs/Relock.lean ====
section
/-!
PROOFS. The synthesisers lock again (R77, R78, R322, R438, R451, R454), and the way back after a loss: groups, FAULT_HOLD and SYNC_IN
(R101, R144, R443, R452).
-/
namespace Sys2Proof.Machine

/-! ## Relock -/

/-- PLL-S may lock again now: in FAULT_HOLD, or in UNBOUND with the settings of an earlier lock, and with its reference present. -/
def mayRelockS (s : State) : Bool :=
  (s.boot.state == ModState.faultHold || (s.boot.state == ModState.unbound && s.clocks.sConf ≠ [])) && !s.clocks.pllS.lock &&
    (if s.clocks.refSel then s.clocks.refPresent else !s.clocks.oscFail)

/-- What a relock of PLL-S marks before the SYNC_EN outputs. -/
def relockedS (s : State) (b : Nat) : State :=
  { s with clocks := { s.clocks with
      pllS := s.clocks.pllS.relock b
      chainSlip := s.clocks.chainSlip || s.boot.leader = some false
      syncStart := if s.cfg.pulseMode && s.cfg.clocks.resumeSync then none else s.clocks.syncStart } }

theorem exec_pllSRelock (s : State) (b : Nat) : exec (.pllSRelock b) s = .next (if mayRelockS s then noteSync (relockedS s b) else s) := by
  exact (apply_ite Host.Outcome.next (mayRelockS s = true) (noteSync (relockedS s b)) s).symm

theorem noteSync_relockedS (s : State) (b : Nat) : ∃ c, noteSync (relockedS s b) = { s with clocks := c } ∧
    c.pllS = { s.clocks.pllS with lock := true, band := b % 64 } ∧ c.clkDiv = s.clocks.clkDiv := by
  obtain ⟨w, hw⟩ := noteSync_eq (relockedS s b)
  exact ⟨_, hw, rfl, rfl⟩

/-- Where PLL-S may not lock, its relock is not of this row. -/
theorem mayRelockS_of_not {s : State} (h : s.boot.state ∉ [ModState.faultHold, .unbound] ∨ s.boot.state = .unbound ∧ s.clocks.sConf = [] ∨
    s.clocks.pllS.lock = true ∨ (if s.clocks.refSel then s.clocks.refPresent = false else s.clocks.oscFail = true)) : mayRelockS s = false := by
  unfold mayRelockS
  rcases h with h | ⟨h, hconf⟩ | h | h
  · simp only [List.mem_cons, List.not_mem_nil, or_false, not_or] at h
    simp [h.1, h.2]
  · simp [h, hconf]
  · simp [h]
  · cases href : s.clocks.refSel with
    | true =>
      rw [href, if_pos rfl] at h
      simp [h]
    | false =>
      rw [href, if_neg (by decide)] at h
      simp [h]

/-- Settles O53: a relock marks the synthesiser, and what follows it is another part of the state. -/
theorem relockRows : Obligations.RelockRows := by
  refine ⟨fun s b hstate hlock href => ?_, fun s b h => ?_, fun s b env hpow hlock hosc => ?_, fun s b hpow hlock hosc => ?_⟩
  · have hmay : mayRelockS s = true := by
      unfold mayRelockS
      rw [hlock]
      cases hsel : s.clocks.refSel with
      | true =>
        rw [hsel, if_pos rfl] at href
        rcases hstate with h | ⟨h, hconf⟩
        · simp [h, href]
        · simp [h, hconf, href]
      | false =>
        rw [hsel, if_neg (by decide)] at href
        rcases hstate with h | ⟨h, hconf⟩
        · simp [h, href]
        · simp [h, hconf, href]
    obtain ⟨c, hc, hpll, hdiv⟩ := noteSync_relockedS s b
    refine ⟨{ s with clocks := c }, ?_, hpll, hdiv, rfl⟩
    rw [exec_pllSRelock, if_pos hmay, hc]
  · rw [exec_pllSRelock, mayRelockS_of_not h]
    rfl
  · have hexec : ∀ u, u = { s with clocks := { s.clocks with pllC := s.clocks.pllC.relock b } } → exec (.pllCRelock b env) s =
        if s.boot.state == ModState.faultHold then .next u else
          .next (if s.boot.state == ModState.boot && s.boot.step = 5 && s.boot.phase == RebindPhase.none
            then step5 { u with clocks := { u.clocks with safeClock := false } } env
            else resumeIssue { u with clocks := { u.clocks with safeClock := false } }) := by
      rintro u rfl
      exact if_neg (by simp [hpow, hlock, hosc])
    rw [hexec _ rfl]
    refine ⟨fun h => if_pos (by simp [h]), fun h hno => ?_, fun h hstep hphase => ?_⟩
    · rw [if_neg (by simpa using h)]
      exact congrArg Host.Outcome.next (if_neg (by simpa [and_assoc] using hno))
    · rw [if_neg (by simp [h])]
      exact congrArg Host.Outcome.next (if_pos (by simp [h, hstep, hphase]))
  · have hexec : ∀ u, u = { s with clocks := { s.clocks with pllM := s.clocks.pllM.relock b } } → exec (.pllMRelock b) s =
        .next (if s.past then passClock (passClock u ⟨0x08, 0⟩) ⟨0x0B, 2⟩ else { u with banks := { u.banks with dramOff := false } }) := by
      rintro u rfl
      exact if_neg (by simp [hpow, hlock, hosc])
    rw [hexec _ rfl]
    refine ⟨_, rfl, ?_⟩
    cases hpast : s.past with
    | true => exact ⟨rfl, fun h => absurd h (by decide), fun _ => rfl⟩
    | false => exact ⟨rfl, fun _ => rfl, fun h => absurd h (by decide)⟩

end Sys2Proof.Machine
end

