-- ==== Sys2Proof/Proofs/FrameWork.lean ====
section
/-!
PROOFS. What the work of a frame leaves as it is (R24): a part of the state that ignores what the work writes is the same after it.
-/
namespace Sys2Proof.Machine

section
variable {β : Type} {p : State → β}

/-- A part of the state that does not look at records and rings. -/
structure IgnoresRecords (p : State → β) : Prop where
  recs : ∀ (s : State) (x : Tbl Rec), p { s with recs := x } = p s
  rings : ∀ (s : State) (x : Rings), p { s with rings := x } = p s

/-- Nor at what a frame's evaluation writes. -/
structure IgnoresEval (p : State → β) : Prop extends IgnoresRecords p where
  field : ∀ (s : State) (x : Field), p { s with field := x } = p s
  seqs : ∀ (s : State) (x : Tbl Seq), p { s with seqs := x } = p s
  proc : ∀ (s : State) (x : Process), p { s with proc := x } = p s
  meter : ∀ (s : State) (x : Meter), p { s with meter := x } = p s
  pins : ∀ (s : State) (x : Pins), p { s with pins := x } = p s
  hist : ∀ (s : State) (x : Tbl Hist), p { s with hist := x } = p s

/-- Nor at the sequencers that the registers show. -/
structure IgnoresWork (p : State → β) : Prop extends IgnoresEval p where
  shown : ∀ (s : State) (x : Option (Tbl Seq)), p { s with shown := x } = p s

/-- A fold that carries something beside the state. -/
theorem foldl_fst_proj {α γ : Type} {f : State × γ → α → State × γ} (hf : ∀ a x, p (f a x).1 = p a.1) :
    ∀ (l : List α) (a : State × γ), p (l.foldl f a).1 = p a.1
  | [], _ => rfl
  | x :: l, a => (foldl_fst_proj hf l (f a x)).trans (hf a x)

/-! ## Runs of records, and what is staged -/

section
variable (h : IgnoresRecords p)
include h

theorem proj_modRec (s : State) (r : Nat) (f : Rec → Rec) : p (modRec s r f) = p s := h.recs ..

theorem proj_modRun (s : State) (r n g : Nat) (f : Run → Run) : p (modRun s r n g f) = p s := proj_modRec h ..

theorem proj_modRing (s : State) (r : Nat) (f : Ring → Ring) : p (modRing s r f) = p s := h.rings ..

theorem proj_beginRun (s : State) (q : RecQ) (t : TrigEvt) (c : Nat) : p (beginRun s q t c) = p s := by
  unfold beginRun
  exact ite_proj (h.recs ..) (h.recs ..)

theorem proj_beginFirst (s : State) (c : Nat) : p (beginFirst s c) = p s :=
  foldl_proj (fun _ _ => ite_proj (h.recs ..) rfl) _ _

theorem proj_takeTrigs (s : State) (c : Nat) (l : List TrigEvt) : p (takeTrigs s c l) = p s :=
  foldl_proj (fun _ _ => foldl_proj (fun _ _ => ite_proj rfl (proj_beginRun h ..)) _ _) _ _

theorem proj_endRuns (s : State) (r g : Nat) : p (endRuns s r g) = p s := proj_modRec h ..

theorem proj_takeGates (s : State) (c : Nat) (l : List (Nat × Nat × Bool)) : p (takeGates s c l) = p s :=
  foldl_proj (fun _ _ => foldl_proj (fun _ _ => ite_proj rfl (ite_proj (h.recs ..) (proj_endRuns h ..))) _ _) _ _

theorem proj_pushReady (s : State) (r : Nat) (l : List Item) : p (pushReady s r l) = p s := proj_modRing h ..

theorem proj_queueRun (q : RecQ) (ring c : Nat) : ∀ (n : Nat) (s : State) (x : Run), p (queueRun q ring c n s x) = p s
  | 0, _, _ => rfl
  | n + 1, s, x => by
    unfold queueRun
    refine ite_proj rfl (ite_proj (ite_proj ?_ ?_) (ite_proj ?_ rfl))
    · exact (proj_pushReady h ..).trans (proj_modRun h ..)
    · exact (proj_pushReady h ..).trans (proj_modRun h ..)
    · exact (proj_queueRun q ring c n _ _).trans ((proj_pushReady h ..).trans (proj_modRun h ..))

theorem proj_queueParts (s : State) (c : Nat) : p (queueParts s c) = p s := by
  unfold queueParts
  refine foldl_proj (fun t q => ?_) _ _
  split
  · rfl
  · exact foldl_proj (fun _ _ => proj_queueRun h ..) _ _

theorem proj_countDrop (s : State) (t c n : Nat) : p (countDrop s t c n) = p s := by
  unfold countDrop
  exact ite_proj ((proj_modRing h ..).trans (ite_proj (h.rings ..) (h.rings ..))) (ite_proj (h.rings ..) (h.rings ..))

theorem proj_offerAt (s : State) (r : Nat) (e : Envelope) : p (offerAt s r e).1 = p s := by
  unfold offerAt
  dsimp only
  split
  · exact (proj_modRing h ..).trans (proj_countDrop h ..)
  · exact (proj_modRing h ..).trans (h.rings ..)

theorem proj_offer (e : Envelope) (s : State) (t : Nat) : p (offer e s t) = p s := by
  unfold offer
  refine ite_proj (proj_offerAt h ..) ?_
  unfold offerStream
  dsimp only
  split
  · exact (h.rings ..).trans (proj_countDrop h ..)
  · exact (h.rings ..).trans ((h.rings ..).trans (h.rings ..))

theorem proj_stage (s : State) (e : Envelope) : p (stage s e) = p s := by
  unfold stage
  exact ite_proj ((proj_offerAt h ..).trans (foldl_proj (proj_offer h e) _ _)) (foldl_proj (proj_offer h e) _ _)

theorem proj_stageLoss (s : State) (n : FrameNo) (m : Postmark) : p (stageLoss s n m) = p s := by
  unfold stageLoss
  refine ite_proj rfl ((foldl_fst_proj (fun a e => ?_) _ _).trans (h.rings ..))
  exact (foldl_proj (proj_offer h e) _ _).trans (ite_proj ((h.rings ..).trans (proj_offerAt h ..)) (proj_offerAt h ..))

end

/-! ## The work of a frame -/

section
variable (h : IgnoresEval p)
include h

theorem proj_indexSamples (s : State) (f : FrameSet) : p (indexSamples s f).1 = p s := by
  unfold indexSamples
  refine foldl_fst_proj (fun a c => ?_) _ _
  dsimp only
  split
  · rfl
  · exact h.field ..

theorem proj_pins_proc (s : State) (x : Pins) (y : Process) : p { s with pins := x, proc := y } = p s :=
  (h.proc { s with pins := x } y).trans (h.pins s x)

theorem proj_redsFrame (s : State) (f : FrameSet) : p (redsFrame s f) = p s := foldl_proj (fun _ _ => h.proc ..) _ _

theorem proj_sumsFrame (s : State) (f : FrameSet) : p (sumsFrame s f) = p s := foldl_proj (fun _ _ => h.proc ..) _ _

theorem proj_meterFrame (s : State) (f : FrameSet) : p (meterFrame s f) = p s :=
  (h.meter ..).trans (foldl_proj (fun _ _ => h.meter ..) _ _)

theorem proj_lcsFrame (s : State) (f : FrameSet) : p (lcsFrame s f) = p s := foldl_proj (fun _ _ => h.proc ..) _ _

theorem proj_commitEvts (s : State) (f : FrameSet) (l : List (Nat × Nat)) : p (commitEvts s f l) = p s :=
  (proj_pins_proc h ..).trans (foldl_proj (fun _ _ => h.proc ..) _ _)

theorem proj_beginSeqs (s : State) (f : FrameSet) : p (beginSeqs s f).1 = p s := by
  unfold beginSeqs
  exact foldl_fst_proj (fun a q => h.seqs a.1 (tput a.1.seqs q.seq _)) _ _

theorem proj_applyCmd (f : FrameSet) (a : State × Work) (k : SeqCmd) : p (applyCmd f a k).1 = p a.1 := by
  unfold applyCmd
  dsimp only
  split
  · rfl
  · exact ite_proj ((foldl_proj (fun _ _ => proj_endRuns h.toIgnoresRecords ..) _ _).trans (h.seqs ..)) (h.seqs ..)

theorem proj_beginWork (s : State) (f : FrameSet) : p (beginWork s f).1 = p s :=
  (foldl_fst_proj (fun _ _ => proj_applyCmd h ..) _ _).trans ((proj_beginSeqs h ..).trans ((proj_meterFrame h ..).trans
    ((proj_sumsFrame h ..).trans (proj_redsFrame h ..))))

theorem proj_keepOutputs (s : State) : p (keepOutputs s) = p s := h.proc ..

theorem proj_keepResults (s : State) : p (keepResults s) = p s := h.meter ..

end

section
variable (h : IgnoresWork p)
include h

theorem proj_seqs_shown (s : State) (x : Tbl Seq) (y : Option (Tbl Seq)) : p { s with seqs := x, shown := y } = p s :=
  (h.shown { s with seqs := x } y).trans (h.seqs s x)

theorem proj_workFrame (s : State) (f : FrameSet) : p (workFrame s f).1 = p s := by
  unfold workFrame
  dsimp only
  refine (proj_takeGates h.toIgnoresRecords ..).trans ((proj_takeTrigs h.toIgnoresRecords ..).trans (Eq.trans
    (ite_proj (proj_beginFirst h.toIgnoresRecords ..) rfl) ((h.hist ..).trans ((proj_commitEvts h.toIgnoresEval ..).trans ((proj_lcsFrame h.toIgnoresEval ..).trans
    ((h.seqs ..).trans ((proj_beginWork h.toIgnoresEval ..).trans ?_)))))))
  exact (proj_seqs_shown h ..).trans (proj_indexSamples h.toIgnoresEval ..)

theorem proj_lostFrame (s : State) (f : FrameSet) : p (lostFrame s f) = p s := by
  unfold lostFrame
  refine ite_proj ((proj_queueParts h.toIgnoresRecords ..).trans (Eq.trans (ite_proj (proj_beginFirst h.toIgnoresRecords ..) rfl)
    ((proj_beginSeqs h.toIgnoresEval ..).trans ?_))) rfl
  exact (proj_seqs_shown h ..).trans ((proj_keepOutputs h.toIgnoresEval ..).trans ((h.hist ..).trans ((proj_sumsFrame h.toIgnoresEval ..).trans
    (proj_redsFrame h.toIgnoresEval ..))))

end

end

end Sys2Proof.Machine
end

