-- ==== Sys2Proof/Proofs/Rejoin.lean ====
section
/-!
PROOFS. The way back after a loss of lock: the rejoin of a group, the end of FAULT_HOLD, and SYNC_IN in pulse mode (R77, R101, R144, R443,
R452).
-/
namespace Sys2Proof.Machine

/-! ## A quotient rounded up -/

theorem cdiv_le_iff {p : Nat} (hp : 0 < p) (a i : Nat) : cdiv a p ≤ i ↔ a ≤ i * p := by
  unfold cdiv
  rw [← Nat.lt_add_one_iff, Nat.div_lt_iff_lt_mul hp, Nat.succ_mul]
  omega

/-! ## A group's rejoin -/

section
variable {β : Type} {p : State → β} (hfield : ∀ (s : State) (x : Field), p { s with field := x } = p s)
include hfield

theorem proj_applySettings (s : State) (g : Nat) : p (applySettings s g) = p s :=
  (foldl_proj (fun _ _ => hfield ..) _ _).trans (hfield ..)

theorem proj_sendSettings (hout : ∀ (s : State) (x : List Output), p { s with out := x } = p s) (s : State) (g : Nat) :
    p (sendSettings s g) = p s :=
  (proj_applySettings hfield ..).trans ((hfield ..).trans ((hout ..).trans (hfield ..)))

theorem proj_realign (hout : ∀ (s : State) (x : List Output), p { s with out := x } = p s) (s : State) (g : Nat) (d : CalData) :
    p (realign s g d) = p s :=
  (hfield ..).trans ((hfield ..).trans ((hfield ..).trans ((hout ..).trans (hfield ..))))

theorem proj_resent (hout : ∀ (s : State) (x : List Output), p { s with out := x } = p s) (s : State) (g : Nat) (d : CalData) :
    p (sendSettings (realign s g d) g) = p s :=
  (proj_sendSettings hfield hout (realign s g d) g).trans (proj_realign hfield hout s g d)

end

/-- A group that has retrained, locked and realigned, before it settles. -/
def rejoined (s : State) (g : Nat) (r : GroupBoot) : State :=
  let u := sendSettings (realign s g r.cal) g
  modGroup u g (fun e => { e with pllLock := true, mclkFrom := some u.now, railsOn := true })

theorem exec_groupRejoin {s : State} {g : Nat} {r : GroupBoot} (hpow : (s.group g).powered = true) (hlock : (s.group g).pllLock = false)
    (hstate : (s.group g).state = .powering) (hS : s.clocks.pllS.lock = true) (hpast : s.past = true) (hfree : s.fenced 0x01 g = false)
    (htrain : r.firstTrain = true ∨ r.againTrain = true) (hlocks : r.pllLocks = true) :
    exec (.groupRejoin g r) s = .next (joinLater (rejoined s g r) g) := by
  change execGroupRejoin g r s = _
  unfold execGroupRejoin
  dsimp only
  rw [if_neg (by simp [hpow, hlock, hstate, hS, hpast, hfree]), if_neg (by rcases htrain with h | h <;> simp [h]), if_neg (by simp [hlocks])]
  rfl

theorem rejoined_kept (s : State) (g : Nat) (r : GroupBoot) : (rejoined s g r).time = s.time ∧ (rejoined s g r).boot = s.boot := by
  have htime := proj_resent (p := State.time) (fun _ _ => rfl) (fun _ _ => rfl) s g r.cal
  have hboot := proj_resent (p := State.boot) (fun _ _ => rfl) (fun _ _ => rfl) s g r.cal
  unfold rejoined
  dsimp only
  rw [modGroup_time, modGroup_boot]
  exact ⟨htime, hboot⟩

theorem group_rejoined (s : State) (g : Nat) (r : GroupBoot) : ((rejoined s g r).group g).pllLock = true ∧
    ((rejoined s g r).group g).railsOn = true ∧ ((rejoined s g r).group g).mclkFrom = some s.now := by
  have htime : (sendSettings (realign s g r.cal) g).time = s.time :=
    proj_resent (p := State.time) (fun _ _ => rfl) (fun _ _ => rfl) s g r.cal
  unfold rejoined
  dsimp only
  rw [group_modGroup_self, now_of_time htime]
  exact ⟨rfl, rfl, rfl⟩

/-- The tick from which a group counts again: the first one to come at or after the end of its settle time. -/
theorem group_joinLater (s : State) (g : Nat) : (joinLater s g).group g = { s.group g with
    state := .settling, dataFrom := some (max (tickFrom s (s.now + ((s.cfg.group? g).map (·.settleMs)).getD 0 * 16000000)) s.time.ticks) } := by
  unfold joinLater
  dsimp only
  rw [group_modGroup_self]
  rfl

theorem tickFrom_le_iff {s : State} (hp : 0 < s.spacing) (e i : Nat) : tickFrom s e ≤ i ↔ e ≤ s.tickOf i := by
  unfold tickFrom State.tickOf
  rw [Nat.max_eq_right hp, cdiv_le_iff hp]
  omega

theorem groupRejoinRow {s : State} {g : Nat} {r : GroupBoot} (hspace : 0 < s.spacing) :
    ∃ t, joinLater (rejoined s g r) g = t ∧ (t.group g).state = .settling ∧ (t.group g).pllLock = true ∧ (t.group g).railsOn = true ∧
      (t.group g).mclkFrom = some s.now ∧ t.now = s.now ∧ t.time = s.time ∧
      ∃ j e, (t.group g).dataFrom = some j ∧ e = s.now + ((s.cfg.group? g).map (·.settleMs)).getD 0 * 16000000 ∧
        s.time.ticks ≤ j ∧ e ≤ s.tickOf j ∧ ∀ i, s.time.ticks ≤ i → e ≤ s.tickOf i → j ≤ i := by
  obtain ⟨htime, hboot⟩ := rejoined_kept s g r
  obtain ⟨hlock, hrails, hmclk⟩ := group_rejoined s g r
  have hcfg : (rejoined s g r).cfg = s.cfg := by
    unfold State.cfg
    rw [hboot]
  have hfrom : ∀ e, tickFrom (rejoined s g r) e = tickFrom s e := by
    intro e
    unfold tickFrom State.spacing
    rw [htime, hcfg]
  generalize rejoined s g r = u at *
  have htimeJ : (joinLater u g).time = s.time := htime
  refine ⟨_, rfl, ?_, ?_, ?_, ?_, now_of_time htimeJ, htimeJ,
    max (tickFrom s (s.now + ((s.cfg.group? g).map (·.settleMs)).getD 0 * 16000000)) s.time.ticks, _, ?_, rfl, ?_⟩
  · rw [group_joinLater]
  · rw [group_joinLater]
    exact hlock
  · rw [group_joinLater]
    exact hrails
  · rw [group_joinLater]
    exact hmclk
  · rw [group_joinLater, now_of_time htime, hcfg, hfrom, htime]
  · refine ⟨Nat.le_max_right .., (tickFrom_le_iff hspace ..).1 (Nat.le_max_left ..), fun i hi he => ?_⟩
    exact Nat.max_le.2 ⟨(tickFrom_le_iff hspace ..).2 he, hi⟩

/-! ## The end of FAULT_HOLD -/

/-- The count, the module's state and the clocks. -/
def countPart (s : State) : Time × Boot × Clocks := (s.time, s.boot, s.clocks)

theorem countPart_completes {s t : State} (h : Completes s t) : countPart t = countPart s := (congrArg countPart h :)

theorem countPart_work : IgnoresWork countPart :=
  ⟨⟨⟨fun _ _ => rfl, fun _ _ => rfl⟩, fun _ _ => rfl, fun _ _ => rfl, fun _ _ => rfl, fun _ _ => rfl, fun _ _ => rfl, fun _ _ => rfl⟩, fun _ _ => rfl⟩

theorem countPart_landersBack (s : State) (r : Nat) : countPart (landersBack s r) = countPart s := rfl

theorem countPart_advance (s : State) (r : Nat) (c : List SeqCmd) (f : List FrameSet) :
    countPart { s with released := r, seqCmds := c, frames := f } = countPart s := rfl

theorem countPart_closeLost (s : State) (r : Nat) : countPart (closeLost s r) = countPart s := by
  unfold closeLost
  dsimp only
  split
  · rfl
  · rename_i l _
    refine (foldl_proj (fun _ _ => countPart_completes (.complete ..)) _ _).trans ?_
    rw [countPart_landersBack, countPart_advance]
    cases l.field with
    | false => exact foldl_proj (fun _ _ => proj_lostFrame countPart_work ..) _ _
    | true =>
      simp only [if_true]
      rw [proj_keepResults countPart_work.toIgnoresEval, proj_keepOutputs countPart_work.toIgnoresEval, proj_queueParts countPart_work.toIgnoresRecords,
        proj_workFrame countPart_work]
      exact foldl_proj (fun _ _ => proj_lostFrame countPart_work ..) _ _

theorem countPart_resumeIssue (s : State) : countPart (resumeIssue s) = countPart s :=
  (countPart_completes (.writeCompletions (flushPba s))).trans (congrArg countPart (flushPba_frame s) :)

/-- The core is on its own clock again. -/
theorem coreBack_kept (s : State) (c : Nat) : (coreBack s c).time = s.time ∧ (coreBack s c).boot = s.boot ∧
    (coreBack s c).clocks.safeClock = false := by
  have hpart : ∀ u : State, countPart u = countPart s → ∀ v, v = resumeIssue { u with clocks := { u.clocks with safeClock := false } } →
      v.time = s.time ∧ v.boot = s.boot ∧ v.clocks.safeClock = false := by
    rintro u hu v rfl
    have hv := countPart_resumeIssue { u with clocks := { u.clocks with safeClock := false } }
    unfold countPart at hu hv
    simp only [Prod.mk.injEq] at hu hv
    obtain ⟨htime, hboot, -⟩ := hu
    obtain ⟨hvtime, hvboot, hvclocks⟩ := hv
    exact ⟨hvtime.trans htime, hvboot.trans hboot, by rw [hvclocks]⟩
  unfold coreBack
  split
  · dsimp only
    split
    · exact hpart _ (countPart_closeLost s c) _ rfl
    · exact hpart s rfl _ rfl
  · rename_i h
    exact ⟨rfl, rfl, by simpa using h⟩

theorem startOutputs_eq (s : State) (t : Nat) : ∃ c, startOutputs s t = { s with clocks := c } ∧ c.safeClock = s.clocks.safeClock := by
  unfold startOutputs
  dsimp only
  split
  · exact ⟨s.clocks, rfl, rfl⟩
  · obtain ⟨w, hw⟩ := noteSync_eq { s with clocks := { s.clocks with
      clkOld := (List.range 4).map (fun k => if s.clkChanges k s.clocks.plan then s.clocks.leave k t else s.clocks.clkOld.getD k (0, 0, 0))
      clkFrom := (List.range 4).map (fun k => if s.clkChanges k s.clocks.plan then t else nth s.clocks.clkFrom k)
      clkDiv := (List.range 4).map (s.clkWant s.clocks.plan), clkFormat := (List.range 4).map (clkFormatOf s) } }
    exact ⟨_, hw, rfl⟩

/-- The outputs and the HOLD_END envelopes at the end of FAULT_HOLD. -/
def holdEnded (s : State) (c : Nat) : State :=
  let u := startOutputs (coreBack s c) (s.tickOf c)
  u.clocks.holds.foldl (holdEnd c) u

theorem holdEnded_kept (s : State) (c : Nat) : (holdEnded s c).time = s.time ∧ (holdEnded s c).boot = s.boot ∧
    (holdEnded s c).clocks.safeClock = false := by
  obtain ⟨htime, hboot, hsafe⟩ := coreBack_kept s c
  obtain ⟨k, hk, hksafe⟩ := startOutputs_eq (coreBack s c) (s.tickOf c)
  unfold holdEnded
  dsimp only
  rw [hk]
  have hfold : countPart (k.holds.foldl (holdEnd c) { coreBack s c with clocks := k }) = (s.time, s.boot, k) := by
    rw [foldl_proj (p := countPart) (f := holdEnd c) (fun _ _ => rfl)]
    unfold countPart
    rw [htime, hboot]
  generalize k.holds.foldl (holdEnd c) { coreBack s c with clocks := k } = u at hfold
  unfold countPart at hfold
  simp only [Prod.mk.injEq] at hfold
  obtain ⟨hutime, huboot, huclocks⟩ := hfold
  exact ⟨hutime, huboot, by rw [huclocks, hksafe, hsafe]⟩

/-- The module before it enters the state it had been in. -/
def holdReleased (s : State) (c : Nat) : State :=
  { holdEnded s c with
    clocks := { (holdEnded s c).clocks with holds := [], holdFrom := [], holdMark := [] }
    boot := { (holdEnded s c).boot with resume := none }
    frames := (holdEnded s c).frames.map (fun f => if f.count = c then
      { f with invalid := false, field := (holdEnded s c).boot.resume.getD .running == ModState.running } else f) }

theorem resumeAt_eq {s : State} {c : Nat} {m : ModState} (h : s.boot.resume = some m) : resumeAt s c =
    if m == ModState.arming then beginArming (holdReleased s c) c else setState (holdReleased s c) m := by
  have hm : (holdEnded s c).boot.resume.getD .running = m := by rw [(holdEnded_kept s c).2.1, h, Option.getD_some]
  rw [← hm]
  rfl

/-- The module resumed: at the tick it was resumed at, in the state that FAULT_HOLD had interrupted. -/
theorem resumeAt_kept {s : State} {c : Nat} {m : ModState} (h : s.boot.resume = some m) : (resumeAt s c).time = s.time ∧
    (resumeAt s c).boot.resume = none ∧ (resumeAt s c).clocks.holds = [] ∧ (resumeAt s c).clocks.safeClock = false ∧
    (resumeAt s c).boot.state = m := by
  obtain ⟨htime, hboot, hsafe⟩ := holdEnded_kept s c
  rw [resumeAt_eq h]
  have hset : ∀ (u : State), u.time = s.time → u.boot.resume = none → u.clocks = (holdReleased s c).clocks → ∀ m',
      (setState u m').time = s.time ∧ (setState u m').boot.resume = none ∧ (setState u m').clocks.holds = [] ∧
        (setState u m').clocks.safeClock = false ∧ (setState u m').boot.state = m' := by
    intro u hutime huboot huclocks m'
    have hclocks : (setState u m').clocks = u.clocks := (congrArg State.clocks (setState_frame u m') :)
    rw [setState_time, setState_boot, hclocks, huclocks]
    exact ⟨hutime, huboot, rfl, hsafe, rfl⟩
  split
  · rename_i harm
    rw [eq_of_beq harm]
    unfold beginArming
    dsimp only
    refine hset _ ?_ ?_ ?_ _
    · exact htime
    · rfl
    · rfl
  · exact hset (holdReleased s c) htime rfl rfl m

/-! ## The settle time -/

/-- The greatest of a list, from 0. -/
theorem foldl_max_spec {α : Type} (f : α → Nat) : ∀ (l : List α) (a : Nat), a ≤ l.foldl (fun a q => max a (f q)) a ∧
    (∀ q ∈ l, f q ≤ l.foldl (fun a q => max a (f q)) a) ∧
    (l.foldl (fun a q => max a (f q)) a = a ∨ ∃ q ∈ l, f q = l.foldl (fun a q => max a (f q)) a)
  | [], a => ⟨Nat.le_refl _, by simp, .inl rfl⟩
  | x :: l, a => by
    obtain ⟨hle, hall, hsome⟩ := foldl_max_spec f l (max a (f x))
    refine ⟨(Nat.le_max_left ..).trans hle, ?_, ?_⟩
    · intro q hq
      rcases List.mem_cons.1 hq with rfl | hq
      · exact (Nat.le_max_right ..).trans hle
      · exact hall q hq
    · rcases hsome with h | ⟨q, hq, h⟩
      · rcases Nat.le_total (f x) a with hax | hxa
        · exact .inl (h.trans (Nat.max_eq_left hax))
        · exact .inr ⟨x, List.mem_cons_self, ((Nat.max_eq_right hxa).symm.trans h.symm :)⟩
      · exact .inr ⟨q, List.mem_cons_of_mem _ hq, h⟩

/-- The longest settle time of a powered group, in ms. -/
def longestSettle (s : State) : Nat :=
  (s.cfg.field.filter (fun q => (s.group q.group).powered)).foldl (fun a q => max a q.settleMs) 0

theorem settleFrames_eq (s : State) : settleFrames s = max 1 (cdiv (longestSettle s * 16000000) s.spacing) := rfl

/-- ARMING lasts at least one frame, as long as each powered group settles, and no longer (R101). -/
theorem settleFrames_spec {s : State} (hp : 0 < s.spacing) : 1 ≤ settleFrames s ∧
    (∀ q ∈ s.cfg.field, (s.group q.group).powered = true → q.settleMs * 16000000 ≤ settleFrames s * s.spacing) ∧
    (settleFrames s = 1 ∨ ∃ q ∈ s.cfg.field, (s.group q.group).powered = true ∧ (settleFrames s - 1) * s.spacing < q.settleMs * 16000000) := by
  obtain ⟨-, hall, hsome⟩ := foldl_max_spec (·.settleMs) (s.cfg.field.filter (fun q => (s.group q.group).powered)) 0
  have hceil : longestSettle s * 16000000 ≤ settleFrames s * s.spacing :=
    (cdiv_le_iff hp ..).1 (settleFrames_eq s ▸ Nat.le_max_right ..)
  refine ⟨Nat.le_max_left .., fun q hq hpow => ?_, ?_⟩
  · have hq' := hall q (List.mem_filter.2 ⟨hq, hpow⟩)
    exact (Nat.mul_le_mul_right _ hq').trans hceil
  · rcases Nat.lt_or_ge 1 (cdiv (longestSettle s * 16000000) s.spacing) with hlong | hshort
    · refine .inr ?_
      have hframes : settleFrames s = cdiv (longestSettle s * 16000000) s.spacing := Nat.max_eq_right (Nat.le_of_lt hlong)
      have hless : (settleFrames s - 1) * s.spacing < longestSettle s * 16000000 := by
        refine Nat.lt_of_not_le (fun h => ?_)
        have := (cdiv_le_iff hp ..).2 h
        omega
      rcases hsome with hzero | ⟨q, hq, hmax⟩
      · rw [show longestSettle s = 0 from hzero] at hless
        omega
      · obtain ⟨hmem, hpow⟩ := List.mem_filter.1 hq
        exact ⟨q, hmem, hpow, by rw [show q.settleMs = longestSettle s from hmax]; exact hless⟩
    · exact .inl (Nat.max_eq_left hshort)

/-- Which groups are powered does not change where each stays as it was in that. -/
theorem powered_tmap (l : Tbl Group) (f : Nat → Group → Group) (hf : ∀ k e, (f k e).powered = e.powered) (g : Nat) :
    (tget {} (tmap l f) g).powered = (tget {} l g).powered := by
  unfold tget
  rw [tget?_tmap]
  cases tget? l g with
  | none => rfl
  | some e => exact hf g e

/-- ARMING begins with its full length (R101). -/
theorem beginArming_settleEnd (s : State) (c : Nat) :
    (beginArming s c).settleEnd = some (s.tickOf (c + settleFrames s)) ∧ settleFrames (beginArming s c) = settleFrames s := by
  unfold beginArming
  dsimp only
  generalize hu : ({ s with
    settleEnd := some (s.tickOf (c + settleFrames s))
    boot := { s.boot with wait := .none, resume := none }
    field := { s.field with groups := tmap s.field.groups (fun _ e =>
      if e.powered && e.pllLock && (e.state == GState.powering || e.state == GState.running) then { e with state := .settling, dataFrom := none }
      else e) } } : State) = u
  have hframe := setState_frame u .arming
  have hfield : (setState u .arming).field = u.field := (congrArg State.field hframe :)
  have hcfg : (setState u .arming).cfg = s.cfg := by
    unfold State.cfg
    rw [setState_boot, ← hu]
  have hpow : ∀ g, ((setState u .arming).group g).powered = (s.group g).powered := by
    intro g
    unfold State.group
    rw [hfield, ← hu]
    refine powered_tmap s.field.groups (fun _ e => if e.powered && e.pllLock && (e.state == GState.powering || e.state == GState.running)
      then { e with state := .settling, dataFrom := none } else e) (fun k e => ?_) g
    split
    · rfl
    · rfl
  refine ⟨((congrArg State.settleEnd hframe :) : (setState u .arming).settleEnd = u.settleEnd).trans (hu ▸ rfl), ?_⟩
  unfold settleFrames State.spacing
  simp only [hcfg, hpow]

/-! ## SYNC_IN in pulse mode -/

/-- An offset from the nearest point of a grid is at most half a period. -/
theorem gridOffset_spec {per : Nat} (hp : 0 < per) (a : Int) : 2 * (gridOffset per a).natAbs ≤ per ∧ ∃ i : Int, a = per * i + gridOffset per a := by
  have hmod := Int.emod_nonneg a (b := (per : Int)) (by omega)
  have hlt := Int.emod_lt_of_pos a (b := (per : Int)) (by omega)
  have hdiv := Int.mul_ediv_add_emod a (per : Int)
  unfold gridOffset
  dsimp only
  split
  · exact ⟨by omega, a / per, hdiv.symm⟩
  · refine ⟨by omega, a / per + 1, ?_⟩
    rw [Int.mul_add]
    omega

/-- The nearest of a list of offsets is one of them. -/
theorem nearest_mem : ∀ (l : List Int) (o : Option Int) (r : Int), l.foldl (fun a x => match a with
    | some y => if x.natAbs < y.natAbs then some x else a
    | none => some x) o = some r → r ∈ l ∨ o = some r
  | [], _, _, h => .inr h
  | x :: l, o, r, h => by
    rcases nearest_mem l _ r h with hmem | hlast
    · exact .inl (List.mem_cons_of_mem _ hmem)
    · cases o with
      | none =>
        obtain rfl : x = r := by simpa using hlast
        exact .inl List.mem_cons_self
      | some y =>
        dsimp only at hlast
        split at hlast
        · obtain rfl : x = r := by simpa using hlast
          exact .inl List.mem_cons_self
        · exact .inr hlast

/-- A later edge is measured against a rising edge of one SYNC_EN output at its contact (R443). -/
theorem syncOffset_spec {s : State} {a : Nat} {r : Int} (h : syncOffset s a = some r) : ∃ (k : Nat) (i : Int), k < 4 ∧
    (s.cfg.clkOut s.clocks.plan k).syncEn = true ∧ nth s.clocks.clkDiv k ≠ 0 ∧ 2 * r.natAbs ≤ 4 * nth s.clocks.clkDiv k ∧
    (a : Int) = (nth s.clocks.clkFrom k + 19 : Nat) + 4 * nth s.clocks.clkDiv k * i + r := by
  unfold syncOffset at h
  rcases nearest_mem _ _ _ h with hmem | hnone
  · obtain ⟨k, hk, hr⟩ := List.mem_filterMap.1 hmem
    dsimp only at hr
    split at hr
    · rename_i hc
      simp only [Bool.and_eq_true, decide_eq_true_eq] at hc
      obtain ⟨hsync, hdiv⟩ := hc
      obtain rfl := Option.some.inj hr
      obtain ⟨hhalf, i, hi⟩ := gridOffset_spec (per := 4 * nth s.clocks.clkDiv k) (by omega)
        ((a : Int) - (nth s.clocks.clkFrom k + clkDelay : Nat))
      refine ⟨k, i, List.mem_range.1 hk, hsync, hdiv, hhalf, ?_⟩
      rw [show clkDelay = 19 from rfl] at hi ⊢
      push_cast at hi ⊢
      omega
    · cases hr
  · cases hnone

theorem nth_map_range4 (f : Nat → Nat) {k : Nat} (hk : k < 4) : nth ((List.range 4).map f) k = f k := by
  simp [nth, List.getD, hk]

/-- The SYNC_EN outputs start at the contact 24 ns after the edge, on the grid of the VCO, and no other output moves (R443). -/
theorem syncOutputs_spec (s : State) (a : Nat) : (syncOutputs s a).clocks.syncStart = some a ∧ (syncOutputs s a).clocks.syncWait = false ∧
    (∀ k < 4, (s.cfg.clkOut s.clocks.plan k).syncEn = true →
      nth (syncOutputs s a).clocks.clkDiv k = (s.cfg.clkOut s.clocks.plan k).div ∧ nth (syncOutputs s a).clocks.clkFrom k % 4 = 0 ∧
      a + 384 ≤ nth (syncOutputs s a).clocks.clkFrom k + 19 + 4 ∧ nth (syncOutputs s a).clocks.clkFrom k + 19 ≤ a + 384 + 4) ∧
    (∀ k < 4, (s.cfg.clkOut s.clocks.plan k).syncEn = false →
      nth (syncOutputs s a).clocks.clkDiv k = nth s.clocks.clkDiv k ∧ nth (syncOutputs s a).clocks.clkFrom k = nth s.clocks.clkFrom k ∧
      nth (syncOutputs s a).clocks.clkFormat k = nth s.clocks.clkFormat k) ∧
    (syncOutputs s a).clocks.clkOld = s.clocks.clkOld ∧ { syncOutputs s a with clocks := s.clocks } = s := by
  refine ⟨rfl, rfl, fun k hk hsync => ?_, fun k hk hsync => ?_, rfl, rfl⟩
  · unfold syncOutputs
    dsimp only
    rw [nth_map_range4 _ hk, nth_map_range4 _ hk, if_pos hsync, if_pos hsync, show clkDelay = 19 from rfl]
    refine ⟨rfl, ?_, ?_, ?_⟩ <;> omega
  · unfold syncOutputs
    dsimp only
    rw [nth_map_range4 _ hk, nth_map_range4 _ hk, nth_map_range4 _ hk, if_neg (by simp [hsync]), if_neg (by simp [hsync]),
      if_neg (by simp [hsync])]
    exact ⟨rfl, rfl, rfl⟩

theorem exec_syncInEdge_first {s : State} (hbound : s.isBound = true) (hpulse : s.cfg.pulseMode = true) (hlock : s.lockedInBind = true)
    (hstart : s.clocks.syncStart = none) (d : Nat) :
    exec (.syncInEdge d) s = .next (if s.syncReady then syncOutputs s (s.now + d) else s) := by
  change execSyncInEdge d s = _
  unfold execSyncInEdge
  rw [if_neg (by simp [hbound, hpulse, hlock]), if_pos (by simp [hstart])]

theorem exec_syncInEdge_later {s : State} (hbound : s.isBound = true) (hpulse : s.cfg.pulseMode = true) (hlock : s.lockedInBind = true)
    (hstart : s.clocks.syncStart ≠ none) (d : Nat) : exec (.syncInEdge d) s = .next { s with clocks := { s.clocks with
      syncEdges := satAdd 16 s.clocks.syncEdges 1
      markErr := ((syncOffset s (s.now + d)).map (satInt 16)).getD s.clocks.markErr } } := by
  change execSyncInEdge d s = _
  unfold execSyncInEdge
  rw [if_neg (by simp [hbound, hpulse, hlock]), if_neg (by simpa [Option.isNone_iff_eq_none] using hstart)]

theorem syncReady_iff {s : State} (hlock : s.lockedInBind = true) : s.syncReady = true ↔
    ∀ k < 4, (s.cfg.clkOut s.clocks.plan k).syncEn = true → nth s.clocks.clkDiv k = 0 := by
  unfold State.syncReady
  rw [hlock]
  simp only [Bool.true_and, List.all_eq_true, List.mem_range, Bool.or_eq_true, Bool.not_eq_true', decide_eq_true_eq]
  exact forall_congr' fun k => imp_congr_right fun _ => ⟨fun h hs => h.resolve_left (by simp [hs]), fun h => by
    cases hs : (s.cfg.clkOut s.clocks.plan k).syncEn with
    | false => exact .inl rfl
    | true => exact .inr (h hs)⟩

/-- Settles O54: the group's data counts from the tick that `tickFrom` names, FAULT_HOLD ends at `entryTick`, and an edge either starts the
outputs or is measured against them. -/
theorem rejoinAndSyncInRows : Obligations.RejoinAndSyncInRows := by
  refine ⟨⟨?rejoin, ?resume, fun s hp => settleFrames_spec hp⟩, ?sync⟩
  case rejoin =>
    intro s g r hpow hlock hstate hS hpast hfree hspace htrain hlocks
    obtain ⟨t, ht, hrow⟩ := groupRejoinRow (g := g) (r := r) hspace
    exact ⟨t, (exec_groupRejoin hpow hlock hstate hS hpast hfree htrain hlocks).trans (congrArg _ ht), hrow⟩
  case resume =>
    intro s hover hresume
    have htick : s.ticking = true := by
      unfold holdOver at hover
      simp only [Bool.and_eq_true] at hover
      obtain ⟨⟨⟨⟨-, htick⟩, -⟩, -⟩, -⟩ := hover
      exact htick
    obtain ⟨u, hat, ⟨r, w, hu⟩, hnow⟩ := atTick_entryTick htick
    have hexec : exec .faultHoldResume s = .next (resumeAt u (entryTick s)) := by
      change execFaultHoldResume s = _
      unfold execFaultHoldResume
      rw [if_pos hover]
      simp only [hat]
    obtain ⟨m, hm, hmode⟩ : ∃ m, s.boot.resume = some m ∧ (m = .running ∨ m = .arming) :=
      hresume.elim (fun h => ⟨_, h, .inl rfl⟩) (fun h => ⟨_, h, .inr rfl⟩)
    have hum : u.boot.resume = some m := by
      rw [hu]
      exact hm
    obtain ⟨htime, hnone, hholds, hsafe, hst⟩ := resumeAt_kept (c := entryTick s) hum
    refine ⟨_, hexec, hnone, hholds, hsafe, (now_of_time htime).trans hnow, fun h => ?_, fun h => ?_⟩
    · rw [hst]
      exact Option.some.inj (hm.symm.trans h)
    · have hma : m = .arming := Option.some.inj (hm.symm.trans h)
      subst hma
      refine ⟨hst, ?_⟩
      have heq : resumeAt u (entryTick s) = beginArming (holdReleased u (entryTick s)) (entryTick s) := (resumeAt_eq hum).trans (if_pos rfl)
      obtain ⟨hend, hframes⟩ := beginArming_settleEnd (holdReleased u (entryTick s)) (entryTick s)
      obtain ⟨hrtime, hrboot, -⟩ := holdEnded_kept u (entryTick s)
      rw [heq, hend, hframes]
      have htickOf : ∀ c, (holdReleased u (entryTick s)).tickOf c = s.tickOf c := by
        intro c
        have htime0 : (holdReleased u (entryTick s)).time = u.time := hrtime
        have hcfg : (holdReleased u (entryTick s)).cfg = s.cfg := by
          unfold State.cfg holdReleased
          dsimp only
          rw [hrboot, hu]
        unfold State.tickOf State.spacing
        rw [htime0, hcfg, hu]
      rw [htickOf]
  case sync =>
    intro s d hbound hpulse hlock
    refine ⟨fun hstart hruns => ?_, fun hstart hlow => ?_, fun hstart => ⟨exec_syncInEdge_later hbound hpulse hlock hstart d,
      fun r h => syncOffset_spec h⟩⟩
    · rw [exec_syncInEdge_first hbound hpulse hlock hstart, if_neg]
      rintro hready
      obtain ⟨k, hk, hsync, hdiv⟩ := hruns
      exact hdiv ((syncReady_iff hlock).1 hready k hk hsync)
    · exact ⟨_, (exec_syncInEdge_first hbound hpulse hlock hstart d).trans (congrArg _ (if_pos ((syncReady_iff hlock).2 hlow))),
        syncOutputs_spec s (s.now + d)⟩

end Sys2Proof.Machine
end

