-- ==== Sys2Proof/Proofs/FaultWork.lean ====
section
/-!
PROOFS. What the fences and returns of units leave as it is (R487 to R494): a part of the state that ignores what they write is the same after
them.
-/
namespace Sys2Proof.Machine

/-- A frame of which channels are spoilt keeps its place. -/
theorem count_withBad (c : Prop) [Decidable c] (f : FrameSet) (l : List Nat) :
    (if c then { f with badChans := l } else f).count = f.count := by
  split
  · rfl
  · rfl

section
variable {β : Type} {p : State → β}

/-- A part of the state that does not look at what the fault discipline and the work it moves write. -/
structure IgnoresFaults (p : State → β) : Prop where
  banks : ∀ (s : State) (x : Banks), p { s with banks := x } = p s
  rings : ∀ (s : State) (x : Rings), p { s with rings := x } = p s
  jobs : ∀ (s : State) (x : Jobs), p { s with jobs := x } = p s
  pcie : ∀ (s : State) (x : Pcie), p { s with pcie := x } = p s
  out : ∀ (s : State) (x : List Output), p { s with out := x } = p s
  faults : ∀ (s : State) (x : Faults), p { s with faults := x } = p s
  franking : ∀ (s : State) (x : Franking), p { s with franking := x } = p s
  free : ∀ (s : State) (x : Nat), p { s with free := x } = p s
  field : ∀ (s : State) (x : Field), p { s with field := x } = p s
  hist : ∀ (s : State) (x : Tbl Hist), p { s with hist := x } = p s
  seqs : ∀ (s : State) (x : Tbl Seq), p { s with seqs := x } = p s
  shown : ∀ (s : State) (x : Option (Tbl Seq)), p { s with shown := x } = p s
  proc : ∀ (s : State) (x : Process), p { s with proc := x } = p s
  time : ∀ (s : State) (x : Time), p { s with time := x } = p s
  frames : ∀ (s : State) (f : FrameSet → FrameSet), (∀ x, (f x).count = x.count) → p { s with frames := s.frames.map f } = p s

variable (h : IgnoresFaults p)
include h

/-! ## Completions and jobs -/

theorem proj_completes {s t : State} (k : Completes s t) : p t = p s := by
  have hmid : ∀ (u : State) (r : Rings) (q : Pcie) (o : List Output), p { u with rings := r, pcie := q, out := o } = p u := fun u r q o =>
    (h.out { u with rings := r, pcie := q } o).trans ((h.pcie { u with rings := r } q).trans (h.rings u r))
  exact (hmid t _ _ _).symm.trans (congrArg p k)

theorem proj_complete (s : State) (c : Nat × Bytes) (x n m d : Nat) : p (complete s c x n m d) = p s := proj_completes h (.complete ..)

theorem proj_failJobs (s : State) (q : Job → Bool) (x m : Nat) : p (failJobs s q x m) = p s :=
  foldl_proj (fun _ _ => (proj_complete h ..).trans ((h.pcie ..).trans (h.jobs ..))) _ _

theorem proj_abortHostWork (s : State) : p (abortHostWork s) = p s :=
  (foldl_proj (fun _ _ => proj_completes h (endReadouts_completes ..)) _ _).trans ((proj_failJobs h ..).trans (h.pcie ..))

theorem proj_resumeIssue (s : State) : p (resumeIssue s) = p s := by
  refine (proj_completes h (.writeCompletions (flushPba s))).trans ?_
  have hmid : ∀ (u : State) (q : Pcie) (o : List Output), p { u with pcie := q, out := o } = p u := fun u q o =>
    (h.out { u with pcie := q } o).trans (h.pcie u q)
  exact (hmid (flushPba s) _ _).symm.trans (congrArg p (flushPba_frame s))

/-! ## Staged envelopes -/

theorem proj_ltrCheck (s : State) : p (ltrCheck s) = p s := by
  have hsend : ∀ n, p (sendLtr s n) = p s := fun n => (h.out ..).trans (h.pcie ..)
  unfold ltrCheck
  exact ite_proj (ite_proj (hsend 1) (ite_proj (hsend 10) rfl)) rfl

theorem proj_countLost (s : State) (t c n : Nat) : p (countDrop s t c n) = p s := by
  unfold countDrop
  exact ite_proj ((h.rings ..).trans (ite_proj (h.rings ..) (h.rings ..))) (ite_proj (h.rings ..) (h.rings ..))

theorem proj_dropHeld (s : State) (t c : Nat) (q : Envelope → Bool) : p (dropHeld s t c q) = p s := by
  have hcount : ∀ l : List Envelope, p (l.foldl (fun s e => countDrop s t c e.length) s) = p s := fun l => foldl_proj (fun _ _ => proj_countLost h ..) l s
  unfold dropHeld
  refine ite_proj rfl (ite_proj ?_ ?_)
  · exact (proj_ltrCheck h _).trans ((h.rings ..).trans (hcount _))
  · exact (proj_ltrCheck h _).trans ((h.rings ..).trans (ite_proj ((h.time ..).trans (hcount _)) (hcount _)))

/-! ## Fences and returns -/

theorem proj_storeAdd (s : State) (a n : Nat) : p (storeAdd s a n) = p s := by
  have hfree : p (takeFree s).2 = p s := h.free ..
  unfold storeAdd storeWrite
  dsimp only
  split
  · exact h.franking ..
  · exact ite_proj ((h.franking ..).trans ((h.franking ..).trans hfree)) ((h.franking ..).trans hfree)

theorem proj_restartConds (s : State) (q : Nat → Bool) : p (restartConds s q) = p s := by
  have hboth : ∀ (x : Tbl Seq) (y : Option (Tbl Seq)), p { s with seqs := x, shown := y } = p s := fun x y =>
    (h.shown { s with seqs := x } y).trans (h.seqs s x)
  exact hboth _ _

theorem proj_moveOut (s : State) (cls idx : Nat) : p (moveOut s cls idx).1 = p s := by
  unfold moveOut
  split
  · dsimp only
    split
    · rfl
    · split
      · rfl
      · exact (h.rings ..).trans ((proj_restartConds h ..).trans (h.rings ..))
  · split
    · dsimp only
      split
      · rfl
      · split
        · rfl
        · exact (h.rings ..).trans ((h.proc ..).trans (h.rings ..))
    · split
      · split
        · split
          · split
            · rfl
            · exact (h.rings ..).trans (h.banks ..)
          · rfl
        · rfl
      · rfl

theorem proj_moveBack (s : State) (cls idx : Nat) : p (moveBack s cls idx) = p s := by
  unfold moveBack
  split
  · refine Eq.trans (foldl_proj (fun _ _ => ite_proj (proj_moveOut h ..) rfl) _ _) ?_
    exact ite_proj (proj_restartConds h ..) ((h.rings ..).trans ((proj_restartConds h ..).trans (h.rings ..)))
  · split
    · exact ite_proj (h.proc ..) ((h.rings ..).trans ((h.proc ..).trans (h.rings ..)))
    · split
      · split
        · rfl
        · exact h.banks ..
      · rfl

theorem proj_fenceEffect (s : State) (u : FUnit) (perm : Bool) : p (fenceEffect s u perm) = p s := by
  unfold fenceEffect
  split
  · dsimp only
    split
    · exact (proj_complete h ..).trans (h.field ..)
    · exact h.field ..
  · refine ite_proj ((foldl_proj (fun _ _ => proj_dropHeld h ..) _ _).trans (h.banks ..)) ?_
    exact ite_proj ((proj_failJobs h ..).trans (h.banks ..)) (h.banks ..)
  · exact h.hist ..
  · exact h.banks ..
  · exact proj_failJobs h ..
  · refine ite_proj (h.rings ..) ?_
    split
    · split
      · exact proj_dropHeld h ..
      · rfl
    · exact ite_proj (h.hist ..) rfl
  · exact proj_abortHostWork h s
  · rfl

theorem proj_fenceUnit (s : State) (d : Detection) (c : Nat) : p (fenceUnit s d c) = p s := by
  unfold fenceUnit
  dsimp only
  refine (h.rings ..).trans ((proj_moveOut h ..).trans ((proj_fenceEffect h ..).trans ((h.faults ..).trans ?_)))
  exact ite_proj ((proj_storeAdd h ..).trans ((proj_storeAdd h ..).trans (proj_storeAdd h ..))) ((proj_storeAdd h ..).trans (proj_storeAdd h ..))

theorem proj_detect (s : State) (u : FUnit) (c d n : Nat) : p (detect s u c d n) = p s := by
  unfold detect
  dsimp only
  split
  · rfl
  · split
    · split
      · exact proj_fenceUnit h ..
      · exact proj_fenceUnit h ..
    · exact h.faults ..

theorem proj_spoilBank (s : State) (b : Nat) : p (spoilBank s b) = p s := by
  unfold spoilBank
  exact ite_proj (h.frames s _ (fun x => count_withBad ..)) rfl

theorem proj_readmitUnit (s : State) (u : FUnit) : p (readmitUnit s u) = p s := by
  unfold readmitUnit
  split
  · rfl
  · rename_i f _
    dsimp only
    refine (h.rings ..).trans ?_
    have hback : p (moveBack { s with faults := { s.faults with
        fences := tdel s.faults.fences (unitKey u), lastUnit := u, lastEvent := 3, lastCause := f.cause } } u.cls u.idx) = p s :=
      (proj_moveBack h ..).trans (h.faults ..)
    split
    · exact (h.field ..).trans hback
    · exact (h.frames _ _ (fun x => count_withBad ..)).trans hback
    · exact (h.banks ..).trans hback
    · exact (h.banks ..).trans hback
    · exact (proj_resumeIssue h _).trans hback
    · exact hback

theorem proj_readmit (s : State) (u : FUnit) : p (readmit s u) = p s :=
  (proj_readmitUnit h ..).trans (ite_proj (proj_spoilBank h ..) rfl)

/-! ## The frame boundary -/

theorem proj_handover (s : State) (n : Nat) : p (handover s n) = p s :=
  (h.banks ..).trans (foldl_proj (fun _ _ => (h.rings ..).trans (h.banks ..)) _ _)

theorem proj_boundary (s : State) (n : Nat) : p (boundary s n) = p s :=
  (h.banks ..).trans ((proj_handover h ..).trans ((foldl_proj (fun _ _ => proj_readmit h ..) _ _).trans
    ((foldl_proj (fun _ _ => proj_fenceUnit h ..) _ _).trans (foldl_proj (fun _ _ => proj_spoilBank h ..) _ _))))

theorem proj_lateGroups (s : State) (c : Nat) : p (lateGroups s c) = p s := by
  unfold lateGroups
  split
  · exact ite_proj (foldl_proj (fun _ _ => proj_detect h ..) _ _) rfl
  · rfl

/-! ## What goes wrong in a window -/

theorem proj_bankCorrected (s : State) (e : Nat × Nat) : p (bankCorrected s e) = p s := by
  unfold bankCorrected aerCorrected
  exact ite_proj (h.banks ..) ((h.pcie ..).trans (h.banks ..))

theorem proj_bankError (c : Nat) (s : State) (e : Nat × Nat) : p (bankError c s e) = p s := by
  have hdrop : ∀ (t : State) (b a : Nat), p (dropWord t b a) = p t := by
    intro t b a
    unfold dropWord
    split
    · exact proj_dropHeld h ..
    · rfl
  unfold bankError
  dsimp only
  refine (proj_detect h ..).trans ((hdrop ..).trans ?_)
  have hmark : ∀ (t : State) (n b a : Nat), p { t with frames := t.frames.map (fun f =>
      if f.count = n then { f with badChans := f.badChans ++ wordStreams t f.count b a } else f) } = p t :=
    fun t n b a => h.frames t _ (fun x => count_withBad ..)
  exact (hmark { s with banks := { s.banks with ecc := tmod (0, 0) s.banks.ecc e.1 (fun x => (x.1, satAdd 16 x.2 1)) } } ..).trans (h.banks ..)

theorem proj_windowFaults (s : State) (c : Nat) (w : WindowFaults) : p (windowFaults s c w) = p s := by
  have hdram : ∀ (s : State) (a b : Nat), p (dramError s a b) = p s := fun s a b => (proj_detect h ..).trans (h.banks ..)
  exact (foldl_proj (fun _ _ => hdram ..) _ _).trans ((foldl_proj (proj_bankError h c) _ _).trans
    ((foldl_proj (fun _ _ => proj_detect h ..) _ _).trans (foldl_proj (proj_bankCorrected h) _ _)))

end

end Sys2Proof.Machine
end

