-- ==== Sys2Proof/Proofs/Release.lean ====
section
/-!
PROOFS. The release of a frame (R22, R24): one frame, not before its instant, and the Class T work that it leaves.
-/
namespace Sys2Proof.Machine

/-! ## The frame in its window -/

/-- The frames released, and the counts of those held. -/
def frameCounts (s : State) : Nat × List Nat := (s.released, s.frames.map (·.count))

theorem frameCounts_faults : IgnoresFaults frameCounts where
  banks _ _ := rfl
  rings _ _ := rfl
  jobs _ _ := rfl
  pcie _ _ := rfl
  out _ _ := rfl
  faults _ _ := rfl
  franking _ _ := rfl
  free _ _ := rfl
  field _ _ := rfl
  hist _ _ := rfl
  seqs _ _ := rfl
  shown _ _ := rfl
  proc _ _ := rfl
  time _ _ := rfl
  frames s f hf := by
    unfold frameCounts
    rw [List.map_map]
    exact congrArg (Prod.mk s.released) (List.map_congr_left (fun x _ => hf x))

theorem released_faults : IgnoresFaults State.released where
  banks _ _ := rfl
  rings _ _ := rfl
  jobs _ _ := rfl
  pcie _ _ := rfl
  out _ _ := rfl
  faults _ _ := rfl
  franking _ _ := rfl
  free _ _ := rfl
  field _ _ := rfl
  hist _ _ := rfl
  seqs _ _ := rfl
  shown _ _ := rfl
  proc _ _ := rfl
  time _ _ := rfl
  frames _ _ _ := rfl

/-- A frame is held where its count is. -/
theorem frameAt?_isSome (s : State) (c : Nat) : (s.frameAt? c).isSome = true ↔ c ∈ s.frames.map (·.count) := by
  unfold State.frameAt?
  simp [List.find?_isSome]

/-- The window of the oldest frame as its release finds it. -/
def releaseWindow (s : State) (w : WindowFaults) : State :=
  windowFaults (advanceTo s (s.tickOf (s.released + 2) + delta)) s.released w

theorem frameCounts_releaseWindow (s : State) (w : WindowFaults) : frameCounts (releaseWindow s w) = frameCounts s := by
  refine (proj_windowFaults frameCounts_faults ..).trans ?_
  obtain ⟨r, v, h⟩ := advanceTo_eq s (s.tickOf (s.released + 2) + delta)
  rw [h]
  rfl

theorem exec_frameRelease {s : State} {w : WindowFaults} {f : FrameSet} (hcan : s.canRelease = true)
    (hf : (releaseWindow s w).frameAt? s.released = some f) : exec (.frameRelease w) s = .next (releaseFrame (releaseWindow s w) f) := by
  change execFrameRelease w s = _
  unfold execFrameRelease
  rw [if_pos hcan]
  unfold releaseWindow at hf ⊢
  dsimp only
  rw [hf]

/-! ## What a release does, by its parts -/

/-- The work of the frame, where it has field data. -/
def releaseWork (s : State) (f : FrameSet) : State × Work :=
  if f.field then workFrame (countOverruns s f) f else (s, { run := {}, cmds := [] })

/-- The frame's envelopes staged. -/
def framed (s : State) (f : FrameSet) (trigs : List TrigEvt) : State :=
  let s := { s with rings := { s.rings with
      rings := tmap s.rings.rings (fun _ g => { g with dropping := false }), netDropping := [] } }
  let s := (frameEnvelopes s f trigs).foldl stage s
  let s := { s with rings := { s.rings with waitingEnv := [] } }
  let s := if s.boot.state == ModState.running then { s with franking := { s.franking with undelivered := [] } } else s
  stageLoss s f.frame (postmarkOf f.tickAt)

/-- Its parts queued, and its outputs taken up. -/
def filed (s : State) (f : FrameSet) : State :=
  let s := framed (releaseWork s f).1 f (releaseWork s f).2.run.trigs
  let s := if f.field then queueParts s f.count else s
  if f.field then clearAbandoned (keepResults (keepOutputs s)) else s

/-- The frame is out of its window, and its sequencer commands complete. -/
def delivered (s : State) (f : FrameSet) : State :=
  let w := (releaseWork s f).2
  let s := filed s f
  let s := { s with
    released := f.count + 1
    frames := s.frames.filter (fun x => decide (f.count ≤ x.count))
    seqCmds := s.seqCmds.filter (fun k => !(w.cmds.any (fun x => x.1 == k))) }
  w.cmds.foldl (fun s x => complete s (x.1.ring, x.1.entry) x.2 0) s

/-- The frame boundary, and the statistics blocks. -/
def bounded (s : State) (n : Nat) : State :=
  let s := boundary (lateGroups s (n + 1)) n
  ltrCheck { s with snap := some s.snapNow }

theorem releaseFrame_eq (s : State) (f : FrameSet) : releaseFrame s f = bounded (delivered s f) f.count := by
  unfold releaseFrame bounded delivered filed framed
  rw [show (if f.field = true then workFrame (countOverruns s f) f else (s, { run := {}, cmds := [] })) = releaseWork s f from rfl]

theorem proj_bounded {β : Type} {p : State → β} (h : IgnoresFaults p) (hsnap : ∀ (s : State) (x : Option Snap), p { s with snap := x } = p s)
    (s : State) (n : Nat) : p (bounded s n) = p s := by
  unfold bounded
  exact (proj_ltrCheck h _).trans ((hsnap _ _).trans ((proj_boundary h _ n).trans (proj_lateGroups h s (n + 1))))

theorem releaseFrame_released (s : State) (f : FrameSet) : (releaseFrame s f).released = f.count + 1 := by
  rw [releaseFrame_eq]
  rw [proj_bounded released_faults (fun _ _ => rfl)]
  unfold delivered
  dsimp only
  rw [foldl_proj (p := State.released) (f := fun s (x : SeqCmd × Nat) => complete s (x.1.ring, x.1.entry) x.2 0)
    (fun _ _ => proj_complete released_faults ..)]

/-- A release is of one frame, and time goes on to its instant at least. -/
theorem exec_frameRelease_released {s : State} (w : WindowFaults) (hcan : s.canRelease = true) :
    ∃ t, exec (.frameRelease w) s = .next t ∧ t.released = s.released + 1 ∧ s.tickOf (s.released + 2) + 128000 ≤ t.now ∧ s.now ≤ t.now := by
  have hheld : (s.frameAt? s.released).isSome = true := by
    unfold State.canRelease at hcan
    simp only [Bool.and_eq_true] at hcan
    obtain ⟨⟨-, hframe⟩, -⟩ := hcan
    exact hframe
  have hcounts := frameCounts_releaseWindow s w
  unfold frameCounts at hcounts
  simp only [Prod.mk.injEq] at hcounts
  have hwindow : ((releaseWindow s w).frameAt? s.released).isSome = true := by
    rw [frameAt?_isSome, hcounts.2, ← frameAt?_isSome]
    exact hheld
  obtain ⟨f, hf⟩ := Option.isSome_iff_exists.1 hwindow
  have hcount : f.count = s.released := by simpa using List.find?_some hf
  have hnow : (advanceTo s (s.tickOf (s.released + 2) + delta)).now ≤ (releaseFrame (releaseWindow s w) f).now :=
    (releaseFrame_keeps f (windowFaults_keeps s.released w (.refl _))).now_le
  rw [advanceTo_now] at hnow
  refine ⟨_, exec_frameRelease hcan hf, by rw [releaseFrame_released, hcount], ?_, ?_⟩
  · exact (Nat.le_max_right s.now _).trans hnow
  · exact (Nat.le_max_left ..).trans hnow

/-! ## What the delivery leaves of the frame's work -/

section
variable {β : Type} {p : State → β}

/-- A part of the state that does not look at what the delivery of a frame writes. -/
structure IgnoresDelivery (p : State → β) : Prop extends IgnoresRecords p where
  franking : ∀ (s : State) (x : Franking), p { s with franking := x } = p s
  meter : ∀ (s : State) (x : Meter), p { s with meter := x } = p s
  outputs : ∀ (s : State) (r : Tbl Red) (u : Tbl Ws), p { s with proc := { s.proc with reds := r, sums := u } } = p s

variable (h : IgnoresDelivery p)
include h

theorem proj_framed (s : State) (f : FrameSet) (l : List TrigEvt) : p (framed s f l) = p s := by
  have hstage : ∀ (u : State) (l : List Envelope), p (l.foldl stage u) = p u := fun u l => foldl_proj (proj_stage h.toIgnoresRecords) l u
  have hfrank : ∀ (u : State) (c : Prop) [Decidable c],
      p (if c then { u with franking := { u.franking with undelivered := [] } } else u) = p u := fun u c _ => ite_proj (h.franking ..) rfl
  have hrings : ∀ (u : State) (x : Rings), p { u with rings := x } = p u := h.rings
  unfold framed
  exact (proj_stageLoss h.toIgnoresRecords ..).trans ((hfrank _ _).trans ((hrings _ _).trans ((hstage _ _).trans (hrings _ _))))

theorem proj_filed (s : State) (f : FrameSet) : p (filed s f) = p (releaseWork s f).1 := by
  have hkeep : ∀ u, p (clearAbandoned (keepResults (keepOutputs u))) = p u := fun u =>
    (h.meter ..).trans ((h.meter ..).trans (h.outputs ..))
  have hparts : p (if f.field then queueParts (framed (releaseWork s f).1 f (releaseWork s f).2.run.trigs) f.count
      else framed (releaseWork s f).1 f (releaseWork s f).2.run.trigs) = p (releaseWork s f).1 :=
    ite_proj ((proj_queueParts h.toIgnoresRecords ..).trans (proj_framed h ..)) (proj_framed h ..)
  unfold filed
  exact ite_proj ((hkeep _).trans hparts) hparts

end

/-- What the release leaves of the frame's Class T work. -/
def classT (s : State) : Tbl Seq × Option (Tbl Seq) × List PinLevel × Tbl Evt × Tbl Lc × Tbl Hist :=
  (s.seqs, s.shown, s.pins.evtOut, s.proc.evts, s.proc.lcs, s.hist)

theorem classT_delivery : IgnoresDelivery classT where
  recs _ _ := rfl
  rings _ _ := rfl
  franking _ _ := rfl
  meter _ _ := rfl
  outputs _ _ _ := rfl

/-- The detections and fences, and the frames held. -/
def unitPart (s : State) : Faults × List FrameSet := (s.faults, s.frames)

theorem unitPart_delivery : IgnoresDelivery unitPart where
  recs _ _ := rfl
  rings _ _ := rfl
  franking _ _ := rfl
  meter _ _ := rfl
  outputs _ _ _ := rfl

theorem unitPart_work : IgnoresWork unitPart where
  recs _ _ := rfl
  rings _ _ := rfl
  field _ _ := rfl
  seqs _ _ := rfl
  proc _ _ := rfl
  meter _ _ := rfl
  pins _ _ := rfl
  hist _ _ := rfl
  shown _ _ := rfl

theorem unitPart_filed (s : State) (f : FrameSet) : unitPart (filed s f) = unitPart s := by
  refine (proj_filed unitPart_delivery s f).trans ?_
  unfold releaseWork
  split
  · exact proj_workFrame unitPart_work (countOverruns s f) f
  · rfl

/-- A completion leaves the work, the units and the frames as they are. -/
theorem delivered_kept (s : State) (f : FrameSet) : classT (delivered s f) = classT (releaseWork s f).1 ∧
    (delivered s f).faults = s.faults ∧ (delivered s f).frames = s.frames.filter (fun x => decide (f.count ≤ x.count)) := by
  have hunit := unitPart_filed s f
  unfold unitPart at hunit
  simp only [Prod.mk.injEq] at hunit
  obtain ⟨hfaults, hframes⟩ := hunit
  have hfold : ∀ {β : Type} (p : State → β), (∀ (s t : State), Completes s t → p t = p s) → ∀ (l : List (SeqCmd × Nat)) (u : State),
      p (l.foldl (fun s x => complete s (x.1.ring, x.1.entry) x.2 0) u) = p u :=
    fun p hp l u => foldl_proj (fun _ _ => hp _ _ (.complete ..)) l u
  unfold delivered
  dsimp only
  refine ⟨?_, ?_, ?_⟩
  · rw [hfold classT (fun _ _ k => (congrArg classT k :))]
    exact proj_filed classT_delivery s f
  · rw [hfold State.faults (fun _ _ k => (congrArg State.faults k :))]
    exact hfaults
  · rw [hfold State.frames (fun _ _ k => (congrArg State.frames k :)), ← hframes]

/-! ## A boundary at which nothing fences and nothing returns -/

theorem lateGroups_of_none {s : State} {c : Nat} (h : ∀ g, s.frameAt? c = some g → ∀ e ∈ g.need, e.2 = 0) : lateGroups s c = s := by
  unfold lateGroups
  split
  · rename_i g hg
    have hnone : g.need.filter (fun e => e.2 ≠ 0) = [] := List.filter_eq_nil_iff.2 (fun e he => by simp [h g hg e he])
    split
    · rw [hnone]
      rfl
    · rfl
  · rfl

theorem boundary_of_quiet {s : State} (n : Nat) (hpending : s.faults.pending = []) (hfences : s.faults.fences = []) :
    boundary s n = latchMailbox (handover s n) := by
  unfold boundary fencePending readmitPassed
  dsimp only
  rw [hpending]
  simp only [List.filter_nil, List.foldl_nil]
  rw [hpending, show sortBy (fun d : Detection => unitKey d.unit) [] = [] from rfl, List.foldl_nil, hfences]
  rfl

theorem classT_bounded {s : State} {n : Nat} (hpending : s.faults.pending = []) (hfences : s.faults.fences = [])
    (hlate : ∀ g, s.frameAt? (n + 1) = some g → ∀ e ∈ g.need, e.2 = 0) : classT (bounded s n) = classT s := by
  have hltr : ∀ u, classT (ltrCheck u) = classT u := by
    intro u
    unfold ltrCheck
    exact ite_proj (ite_proj rfl (ite_proj rfl rfl)) rfl
  unfold bounded
  rw [lateGroups_of_none hlate, boundary_of_quiet n hpending hfences]
  refine (hltr _).trans ?_
  have hreturn : classT (returnBanks s (n % 3)) = classT s := by
    unfold returnBanks
    refine foldl_proj (p := classT) (fun t b => ?_) _ _
    rfl
  exact hreturn

/-! ## The Class T work -/

theorem frameAt?_delivered {s : State} {f : FrameSet} : (delivered s f).frameAt? (f.count + 1) = s.frameAt? (f.count + 1) := by
  unfold State.frameAt?
  rw [(delivered_kept s f).2.2, List.find?_filter]
  congr 1
  funext x
  by_cases hx : x.count = f.count + 1
  · simp [hx]
  · simp [hx]

/-- The history streams take the frame last; what follows is records. -/
theorem classT_workFrame (s : State) (f : FrameSet) : ∀ (i : State × FrameSet) (b : State × Work) (q : State × SeqRun) (l : State),
    i = indexSamples s f → b = beginWork { i.1 with seqs := i.1.shown.getD i.1.seqs, shown := none } i.2 →
    q = seqsFrame b.1 i.2 (i.1.shown.getD i.1.seqs) b.2.run → l = commitEvts (lcsFrame q.1 i.2) i.2 q.2.pulses →
    classT (workFrame s f).1 = (q.1.seqs, none, l.pins.evtOut, l.proc.evts, l.proc.lcs, tmap l.hist (fun _ h => histStream l i.2 h)) := by
  rintro i b q l hi hb hq hl
  have hrecs : IgnoresRecords classT := classT_delivery.toIgnoresRecords
  have hwork : classT (workFrame s f).1 = classT (histFrame l i.2) := by
    unfold workFrame
    dsimp only
    rw [← hi, ← hb, ← hq, ← hl]
    exact (proj_takeGates hrecs ..).trans ((proj_takeTrigs hrecs ..).trans (ite_proj (proj_beginFirst hrecs ..) rfl))
  have hcommit : ∀ {β : Type} (p : State → β), (∀ (s : State) (x : Process), p { s with proc := x } = p s) →
      (∀ (s : State) (x : Pins) (y : Process), p { s with pins := x, proc := y } = p s) → p l = p q.1 := by
    intro β p hproc hboth
    rw [hl]
    unfold commitEvts lcsFrame
    exact (hboth ..).trans ((foldl_proj (fun _ _ => hproc ..) _ _).trans (foldl_proj (fun _ _ => hproc ..) _ _))
  have hshown : q.1.shown = none := by
    have hq1 : q.1.shown = b.1.shown := by rw [hq]; rfl
    have hb1 : b.1.shown = none := by
      rw [hb]
      refine proj_beginWork (p := State.shown) ?_ _ _
      exact ⟨⟨fun _ _ => rfl, fun _ _ => rfl⟩, fun _ _ => rfl, fun _ _ => rfl, fun _ _ => rfl, fun _ _ => rfl, fun _ _ => rfl, fun _ _ => rfl⟩
    rw [hq1, hb1]
  have hseqs := hcommit State.seqs (fun _ _ => rfl) (fun _ _ _ => rfl)
  have hshow := hcommit State.shown (fun _ _ => rfl) (fun _ _ _ => rfl)
  rw [hwork]
  unfold classT histFrame
  dsimp only
  rw [hseqs, hshow.trans hshown]

/-- Settles O19: the work of the window reaches the state that the release ends in, because the delivery and a quiet boundary look past it. -/
theorem releaseReleasesOneFrame : Obligations.ReleaseReleasesOneFrame := by
  intro s w hcan
  refine ⟨exec_frameRelease_released w hcan, fun r f hr hf => ?_⟩
  subst hr
  refine ⟨exec_frameRelease hcan hf, fun hfield hpending hfences hlate i b q l v hi hb hq hl hv => ?_⟩
  have hcount : f.count = s.released := by simpa using List.find?_some hf
  generalize windowFaults (advanceTo s (s.tickOf (s.released + 2) + delta)) s.released w = r at *
  rw [← hcount] at hlate
  obtain ⟨hclass, hfaults, hframes⟩ := delivered_kept r f
  have hend : classT v = classT (workFrame (countOverruns r f) f).1 := by
    rw [hv, releaseFrame_eq, classT_bounded (hfaults ▸ hpending) (hfaults ▸ hfences) (by rw [frameAt?_delivered]; exact hlate), hclass]
    unfold releaseWork
    rw [if_pos hfield]
  have hall := hend.trans (classT_workFrame (countOverruns r f) f i b q l hi hb hq hl)
  unfold classT at hall
  simp only [Prod.mk.injEq] at hall
  exact hall

end Sys2Proof.Machine
end

