-- ==== Sys2Proof/Proofs/TimeDomains.lean ====
section
/-!
PROOFS. The time domains and the pulses: PTP messages, Delay_Req, the loss of a source (R408, R410, R411), PPS_IN (R407) and PPS_OUT (R419).
-/
namespace Sys2Proof.Machine

/-! ## Domains and ports -/

section
variable (s : State)

theorem modDom_congr {x : Nat} {f g : Domain → Domain} (h : f (s.time.dom x) = g (s.time.dom x)) : modDom s x f = modDom s x g := by
  unfold modDom
  rw [h]

theorem modDom_eq_self {x : Nat} {f : Domain → Domain} (h : f (s.time.dom x) = s.time.dom x) : modDom s x f = s := by
  unfold modDom
  rw [h]
  unfold Time.setDom Time.dom
  split
  · rfl
  · rfl

theorem dom_modDom_ne {x y : Nat} (f : Domain → Domain) (h : x = 0 ∧ y ≠ 0 ∨ x ≠ 0 ∧ y = 0) : (modDom s x f).time.dom y = s.time.dom y := by
  unfold modDom Time.setDom Time.dom
  rcases h with ⟨hx, hy⟩ | ⟨hx, hy⟩
  · rw [if_pos hx]
    simp only [hy, if_false]
  · rw [if_neg hx]
    simp only [hy, if_true]

theorem dom_modEth (p x : Nat) (f : EthPort → EthPort) : (modEth s p f).time.dom x = s.time.dom x := by
  unfold modEth
  split
  · rfl
  · rfl

theorem eth_modEth_self (p : Nat) (f : EthPort → EthPort) : (modEth s p f).time.eth p = f (s.time.eth p) := by
  unfold modEth Time.eth
  split
  · rfl
  · rfl

theorem eth_modDom (x p : Nat) (f : Domain → Domain) : (modDom s x f).time.eth p = s.time.eth p := by
  unfold modDom Time.setDom
  split
  · rfl
  · rfl

theorem modEth_modEth (p : Nat) (f g : EthPort → EthPort) : modEth (modEth s p f) p g = modEth s p (fun e => g (f e)) := by
  unfold modEth
  split
  · rfl
  · rfl

/-- What changes ports and domains alone leaves the count. -/
theorem modEth_count (p : Nat) (f : EthPort → EthPort) : (modEth s p f).time.raw = s.time.raw ∧ (modEth s p f).time.wraps = s.time.wraps ∧
    (modEth s p f).time.countFrom = s.time.countFrom := by
  unfold modEth
  split
  · exact ⟨rfl, rfl, rfl⟩
  · exact ⟨rfl, rfl, rfl⟩

theorem modDom_count (x : Nat) (f : Domain → Domain) : (modDom s x f).time.raw = s.time.raw ∧ (modDom s x f).time.wraps = s.time.wraps ∧
    (modDom s x f).time.countFrom = s.time.countFrom := by
  unfold modDom Time.setDom
  split
  · exact ⟨rfl, rfl, rfl⟩
  · exact ⟨rfl, rfl, rfl⟩

end

theorem modDom_now (s : State) (x : Nat) (f : Domain → Domain) : (modDom s x f).now = s.now := by
  obtain ⟨hraw, hwraps, -⟩ := modDom_count s x f
  unfold State.now Time.now
  rw [hraw, hwraps]

/-- An instant is reached where no tick comes before it. -/
theorem atInstant_of_le {s : State} {t : Nat} (h : ∀ n ∈ s.nextTick, t ≤ n) : atInstant s t = some (advanceTo s t) := by
  unfold atInstant
  split
  · rename_i n hn
    exact if_neg (by simp [Nat.not_lt.2 (h n hn)])
  · rfl

/-! ## PTP messages -/

/-- A frame received on a port that is up. -/
def received (s : State) (p : Nat) : State := modEth s p (fun e => { e with rx := satAdd 32 e.rx 1 })

/-- The domain that a frame is for has heard nothing for too long, or has not. -/
def heard (s : State) (p x : Nat) : State := modDom (received s p) x (fun d => d.heardUntil s.now)

theorem received_now (s : State) (p : Nat) : (received s p).now = s.now := by
  obtain ⟨hraw, hwraps, -⟩ := modEth_count s p (fun e => { e with rx := satAdd 32 e.rx 1 })
  unfold State.now Time.now received
  rw [hraw, hwraps]

section
variable {s : State} {p x : Nat} {h : PtpHead} (k : State → Nat → State)

theorem onPort_of_up (k : State → State) (hp : p < 2) (hup : (s.time.eth p).link = true) : onPort s p k = k (received s p) :=
  if_pos (by simp [hp, hup])

theorem onPtp_of_none (hp : p < 2) (hup : (s.time.eth p).link = true) (hno : domainFor s.cfg p h = none) :
    onPtp s p h k = dropFrame (received s p) p := by
  have hno' : domainFor (received s p).cfg p h = none := hno
  unfold onPtp
  rw [onPort_of_up _ hp hup]
  simp only [hno']

theorem onPtp_of_domain (hp : p < 2) (hup : (s.time.eth p).link = true) (hdom : domainFor s.cfg p h = some x) : onPtp s p h k =
    if ptpSupported h then k (heard s p x) x else dropFrame (modDom (heard s p x) x (fun d => { d with err := satAdd 32 d.err 1 })) p := by
  have hdom' : domainFor (received s p).cfg p h = some x := hdom
  unfold onPtp
  rw [onPort_of_up _ hp hup]
  simp only [hdom', received_now]
  rfl

theorem onPtp_of_supported (hp : p < 2) (hup : (s.time.eth p).link = true) (hdom : domainFor s.cfg p h = some x) (hv : h.version = 2)
    (hm : h.minor ≤ 1) : onPtp s p h k = k (heard s p x) x := by
  rw [onPtp_of_domain k hp hup hdom]
  exact if_pos (by simp [ptpSupported, hv, hm])

theorem onPtp_of_malformed (hp : p < 2) (hup : (s.time.eth p).link = true) (hdom : domainFor s.cfg p h = some x)
    (hno : ¬(h.version = 2 ∧ h.minor ≤ 1)) :
    onPtp s p h k = dropFrame (modDom (heard s p x) x (fun d => { d with err := satAdd 32 d.err 1 })) p := by
  rw [onPtp_of_domain k hp hup hdom]
  exact if_neg (by simpa [ptpSupported] using hno)

end

/-- Each PTP message is received for a domain. -/
theorem exec_ptp (s : State) {p : Nat} {i : Instr} {h : PtpHead} (hi : (∃ a : AnnounceData, i = .announce p a ∧ h = a.head) ∨
    (∃ m : SyncData, (i = .sync p m ∨ i = .followUp p m) ∧ h = m.head) ∨ ∃ m : DelayData, i = .delayResp p m ∧ h = m.head) :
    ∃ k, exec i s = .next (onPtp s p h k) := by
  rcases hi with ⟨a, rfl, rfl⟩ | ⟨m, rfl | rfl, rfl⟩ | ⟨m, rfl, rfl⟩
  · exact ⟨_, rfl⟩
  · exact ⟨_, rfl⟩
  · exact ⟨_, rfl⟩
  · exact ⟨_, rfl⟩

theorem fromMaster_of_other {s : State} {x n : Nat} (k : Domain → Domain) (h : (s.time.dom x).master ≠ some n) : fromMaster s x n k = s :=
  modDom_eq_self s (if_neg h)

theorem fromMaster_of_master {s : State} {x n : Nat} (k : Domain → Domain) (h : (s.time.dom x).master = some n) :
    fromMaster s x n k = modDom s x (fun d => k (countRx d)) :=
  modDom_congr s (if_pos h)

/-- A Follow_Up that completes the Sync before it. -/
def syncFollowed (m : SyncData) (d : Domain) : Domain :=
  match d.syncRx, d.syncOrigin with
  | some rx, some c =>
    if d.syncSeq = m.seqId then { d with syncRx := none, syncOrigin := none, lastSync := some (rx, m.origin + m.correction + c) } else d
  | _, _ => d

theorem exec_followUp (p : Nat) (m : SyncData) (s : State) : exec (.followUp p m) s =
    .next (onPtp s p m.head (fun s x => fromMaster s x m.head.sender (syncFollowed m))) := rfl

/-- The answer to the request under way. -/
def delayAnswered (m : DelayData) (s : State) (x : Nat) : State :=
  let d := s.time.dom x
  match d.reqTx with
  | none => s
  | some t3 =>
    if d.master ≠ some m.head.sender || d.reqSeq ≠ m.seqId then s
    else
      let s := modDom s x (fun d => { countRx d with reqTx := none, reqLog := satInt 8 m.logInterval })
      match d.lastSync with
      | none => s
      | some (t2, t1) =>
        let mean := meanDelay t2 t3 t1 (m.received - m.correction)
        let s := modDom s x (fun d => { d with delayNs := fdiv mean qNs })
        takeMeasurement s x t2 (t1 + mean + (s.cfg.dom x).asymNs * qNs)

theorem exec_delayResp (p : Nat) (m : DelayData) (s : State) : exec (.delayResp p m) s = .next (onPtp s p m.head (delayAnswered m)) := rfl

theorem delayAnswered_of_other {s : State} {x : Nat} {m : DelayData}
    (h : (s.time.dom x).master ≠ some m.head.sender ∨ (s.time.dom x).reqTx = none ∨ (s.time.dom x).reqSeq ≠ m.seqId) : delayAnswered m s x = s := by
  unfold delayAnswered
  dsimp only
  split
  · rfl
  · rename_i t3 ht3
    exact if_pos (by rcases h with h | h | h <;> simp_all)

theorem delayAnswered_of_request {s : State} {x : Nat} {m : DelayData} {t2 t3 : Postmark} {t1 : Int}
    (hmaster : (s.time.dom x).master = some m.head.sender) (htx : (s.time.dom x).reqTx = some t3) (hseq : (s.time.dom x).reqSeq = m.seqId)
    (hsync : (s.time.dom x).lastSync = some (t2, t1)) : delayAnswered m s x =
      takeMeasurement (modDom s x (fun d => { countRx d with
          reqTx := none, reqLog := satInt 8 m.logInterval, delayNs := fdiv (meanDelay t2 t3 t1 (m.received - m.correction)) qNs })) x t2
        (t1 + meanDelay t2 t3 t1 (m.received - m.correction) + (s.cfg.dom x).asymNs * qNs) := by
  unfold delayAnswered
  simp only [htx, hsync]
  rw [if_neg (by simp [hmaster, hseq]), modDom_modDom]
  rfl

/-! ## Delay_Req, and the loss of a source -/

theorem exec_delayReq {s : State} {x : Nat} (hx : x < 2) (hsource : (s.cfg.dom x).source = 1 ∨ (s.cfg.dom x).source = 2)
    (hlink : (s.time.eth (s.cfg.dom x).port).link = true) (hmaster : (s.time.dom x).master.isSome = true)
    (hfirst : ∀ n ∈ s.nextTick, reqFrom s x ≤ n) : ∀ u n, u = advanceTo s (reqFrom s x) → n = ((s.time.dom x).reqSeq + 1) % 65536 →
      exec (.delayReq x) s = .next (sentFrame (modDom u x (fun d => { d with reqSeq := n, reqTx := some u.firmMark, reqAt := some u.now }))
        (s.cfg.dom x).port (.delayReq (ptpTo (s.cfg.dom x).source) (s.cfg.dom x).ptpDomain n)) := by
  rintro u n rfl rfl
  have hseq : ((advanceTo s (reqFrom s x)).time.dom x).reqSeq = (s.time.dom x).reqSeq := by
    obtain ⟨r, w, h⟩ := advanceTo_eq s (reqFrom s x)
    rw [h]
    rfl
  change execDelayReq x s = _
  unfold execDelayReq
  dsimp only
  rw [if_pos (by rcases hsource with h | h <;> simp [hx, h, hlink, hmaster]), atInstant_of_le hfirst, ← hseq]

theorem domainLose_of_lostFrom {d : Domain} {l : Nat} (h : d.lostFrom = some l) : (domainLose d).state = .lost ∧ (domainLose d).master = none := by
  unfold domainLose
  split
  · rename_i hoff
    exfalso
    simp [Domain.lostFrom, hoff] at h
  · exact ⟨rfl, rfl⟩

/-- A frame sent leaves the count and the domains. -/
theorem sentFrame_kept (s : State) (p : Nat) (m : NetMsg) : ((sentFrame s p m).time.raw = s.time.raw ∧ (sentFrame s p m).time.wraps = s.time.wraps ∧
    (sentFrame s p m).time.countFrom = s.time.countFrom) ∧ (∀ x, (sentFrame s p m).time.dom x = s.time.dom x) :=
  ⟨modEth_count s p (fun e => { e with tx := satAdd 32 e.tx 1 }), fun x => dom_modEth s p x (fun e => { e with tx := satAdd 32 e.tx 1 })⟩

/-- The postmark of now depends on the count and the clocks alone. -/
theorem firmMark_congr {s t : State} (h : t.time.raw = s.time.raw ∧ t.time.wraps = s.time.wraps ∧ t.time.countFrom = s.time.countFrom)
    (hstep : t.countStep = s.countStep) : t.firmMark = s.firmMark ∧ t.now = s.now := by
  obtain ⟨hraw, hwraps, hfrom⟩ := h
  have hnow : t.now = s.now := by
    unfold State.now Time.now
    rw [hraw, hwraps]
  refine ⟨?_, hnow⟩
  unfold State.firmMark State.rawCount
  rw [hnow, hfrom, hstep]

/-- What a Delay_Req leaves: the request under way, one frame sent, and the count as it was. -/
theorem delayReq_sent (u : State) {x : Nat} (hx : x < 2) (n port : Nat) (m : NetMsg) : ∀ t, t = sentFrame (modDom u x (fun d => { d with
    reqSeq := n, reqTx := some u.firmMark, reqAt := some u.now })) port m →
    t.now = u.now ∧ (t.time.dom x).reqSeq = n ∧ (t.time.dom x).reqTx = some t.firmMark ∧ (t.time.dom x).reqAt = some t.now ∧
      (t.time.eth port).tx = satAdd 32 (u.time.eth port).tx 1 ∧ t.out = u.out ++ [.frame port (ethHead u port) m] ∧
      ∀ a o, { t with time := a, out := o } = { u with time := a, out := o } := by
  rintro t rfl
  obtain ⟨⟨hraw, hwraps, hfrom⟩, hdom⟩ := sentFrame_kept (modDom u x (fun d => { d with
    reqSeq := n, reqTx := some u.firmMark, reqAt := some u.now })) port m
  obtain ⟨hdraw, hdwraps, hdfrom⟩ := modDom_count u x (fun d => { d with reqSeq := n, reqTx := some u.firmMark, reqAt := some u.now })
  obtain ⟨hmark, hnow⟩ := firmMark_congr (s := u) ⟨hraw.trans hdraw, hwraps.trans hdwraps, hfrom.trans hdfrom⟩ rfl
  rw [hmark, hnow, hdom, dom_modDom_self u _ hx]
  refine ⟨rfl, rfl, rfl, rfl, ?_, rfl, fun _ _ => rfl⟩
  have hport := eth_modEth_self (modDom u x (fun d => { d with reqSeq := n, reqTx := some u.firmMark, reqAt := some u.now })) port
    (fun e => { e with tx := satAdd 32 e.tx 1 })
  rw [eth_modDom] at hport
  exact congrArg EthPort.tx hport

/-- Settles O55: what reaches a domain is a function of the domain after the frame is counted and the domain's silence judged. -/
theorem ptpRows : Obligations.PtpRows := by
  refine ⟨fun s u p x hp hx hup hu => ?_, fun s x hx hsource hlink hmaster hfirst => ?_, fun s x l hx hlost hfirst => ?_⟩
  · obtain rfl : u = heard s p x := hu
    refine ⟨fun a hdom hv hm => ?_, fun i h hi => ⟨fun hno => ?_, fun hdom hno => ?_⟩, fun m hdom hv hm hother => ⟨?_, ?_⟩,
      fun m hdom hv hm hother => ?_, fun m hdom hv hm hmaster => ⟨fun htwo => ?_, fun htwo => ?_, fun rx c hrx hc hseq => ?_⟩,
      fun m t2 t3 t1 hdom hv hm hmaster htx hseq hsync => ?_⟩
    · exact congrArg _ (onPtp_of_supported (fun t x => modDom t x (hearAnnounce s.now a)) hp hup hdom hv hm)
    · obtain ⟨k, hk⟩ := exec_ptp s hi
      rw [hk, onPtp_of_none k hp hup hno]
      exact congrArg _ (modEth_modEth ..)
    · obtain ⟨k, hk⟩ := exec_ptp s hi
      rw [hk, onPtp_of_malformed k hp hup hdom hno]
      rfl
    · exact congrArg _ ((onPtp_of_supported (fun t x => fromMaster t x m.head.sender (hearSync s m)) hp hup hdom hv hm).trans
        (fromMaster_of_other _ hother))
    · rw [exec_followUp, onPtp_of_supported _ hp hup hdom hv hm, fromMaster_of_other _ hother]
    · rw [exec_delayResp, onPtp_of_supported _ hp hup hdom hv hm, delayAnswered_of_other hother]
    · refine congrArg _ ((onPtp_of_supported (fun t x => fromMaster t x m.head.sender (hearSync s m)) hp hup hdom hv hm).trans
        ((fromMaster_of_master _ hmaster).trans (modDom_congr _ ?_)))
      exact if_neg (by simp [htwo])
    · refine congrArg _ ((onPtp_of_supported (fun t x => fromMaster t x m.head.sender (hearSync s m)) hp hup hdom hv hm).trans
        ((fromMaster_of_master _ hmaster).trans (modDom_congr _ ?_)))
      exact if_pos htwo
    · rw [exec_followUp, onPtp_of_supported _ hp hup hdom hv hm, fromMaster_of_master _ hmaster]
      refine congrArg _ (modDom_congr _ ?_)
      have hsync : (countRx ((heard s p x).time.dom x)).syncRx = some rx := hrx
      have horigin : (countRx ((heard s p x).time.dom x)).syncOrigin = some c := hc
      unfold syncFollowed
      simp only [hsync, horigin]
      exact if_pos hseq
    · rw [exec_delayResp, onPtp_of_supported _ hp hup hdom hv hm, delayAnswered_of_request hmaster htx hseq hsync]
      rfl
  · obtain ⟨r, w, hu⟩ := advanceTo_eq s (reqFrom s x)
    have hnow := advanceTo_now s (reqFrom s x)
    have hexec := exec_delayReq hx hsource hlink hmaster hfirst _ _ rfl rfl
    generalize advanceTo s (reqFrom s x) = u at hu hnow hexec
    obtain ⟨htnow, hseq, htx, hat, hsent, hout, hrest⟩ := delayReq_sent u hx (((s.time.dom x).reqSeq + 1) % 65536) (s.cfg.dom x).port
      (.delayReq (ptpTo (s.cfg.dom x).source) (s.cfg.dom x).ptpDomain (((s.time.dom x).reqSeq + 1) % 65536)) _ rfl
    refine ⟨_, hexec, htnow.trans hnow, hseq, htx, hat, hsent.trans ?_, hout.trans ?_, ?_⟩
    · rw [show u.time.eth (s.cfg.dom x).port = s.time.eth (s.cfg.dom x).port by rw [hu]; rfl]
    · rw [show u.out = s.out by rw [hu], show ethHead u (s.cfg.dom x).port = ethHead s (s.cfg.dom x).port by
        rw [hu]; unfold ethHead; rw [cfg_time]]
    · exact (hrest s.time s.out).trans (by rw [hu])
  · have hexec : exec (.domainLost x) s = .next (modDom (advanceTo s l) x domainLose) := by
      change execDomainLost x s = _
      unfold execDomainLost
      rw [Nat.mod_eq_of_lt hx]
      simp only [hlost, atInstant_of_le hfirst]
      rfl
    obtain ⟨r, w, hu⟩ := advanceTo_eq s l
    have hnow := advanceTo_now s l
    generalize advanceTo s l = u at hu hnow hexec
    have hdom : u.time.dom x = s.time.dom x := by
      rw [hu]
      rfl
    obtain ⟨hstate, hnone⟩ := domainLose_of_lostFrom hlost
    refine ⟨_, hexec, ?_, ?_, (modDom_now u x domainLose).trans hnow, ?_, ?_⟩
    · rw [dom_modDom_self u _ hx, hdom, hstate]
    · rw [dom_modDom_self u _ hx, hdom, hnone]
    · rw [dom_modDom_ne u domainLose (by omega), hu]
      rfl
    · rw [hu]
      rfl

end Sys2Proof.Machine
end

