-- ==== Sys2Proof/Proofs/Pulses.lean ====
section
/-!
PROOFS. The pulses: PPS_IN (R407) and PPS_OUT (R419).
-/
namespace Sys2Proof.Machine

/-- The count alone says what time it is. -/
theorem now_of_count {s t : State} (hraw : t.time.raw = s.time.raw) (hwraps : t.time.wraps = s.time.wraps) : t.now = s.now := by
  unfold State.now Time.now
  rw [hraw, hwraps]

/-! ## PPS_IN -/

theorem pulseIn_of_other {s : State} {x : Nat} (p : Postmark) (h : (s.cfg.dom x).source ≠ 3) : pulseIn s p x = s := if_pos h

theorem pulseIn_of_second {s : State} {x a : Nat} {p : Postmark} {v : Int} (hsource : (s.cfg.dom x).source = 3) (hv : pulseTime s x p = some v)
    (ha : a = ((s.now : Int) + postmarkDiff p s.postmark).toNat) : pulseIn s p x =
      takeMeasurement (modDom s x (fun d => { domainHeard (countRx (d.heardUntil a)) with lastSync := some (p, v), pulseAt := some a })) x p v := by
  subst ha
  unfold pulseIn
  rw [if_neg (by simp [hsource])]
  simp only [hv]
  rfl

/-! ## The second of the next pulse -/

/-- A quotient rounded up is the least that reaches. -/
theorem neg_fdiv_neg_le_iff {c : Int} (hc : 0 < c) (q m : Int) : -(fdiv (-q) c) ≤ m ↔ q ≤ m * c := by
  unfold fdiv
  rw [Int.fdiv_eq_ediv_of_nonneg _ (Int.le_of_lt hc)]
  have hle : -m ≤ -q / c ↔ -m * c ≤ -q := Int.le_ediv_iff_mul_le hc
  rw [Int.neg_mul] at hle
  omega

/-- The next pulse is of a whole second not before now, later than the last that had one, and of the first such (R419). -/
theorem ppsSecond_spec (s : State) (q : Int) : (∀ l, s.time.ppsLast = some l → l < ppsSecond s q) ∧ q ≤ ppsSecond s q * qSec ∧
    ∀ m : Int, q ≤ m * qSec → (∀ l, s.time.ppsLast = some l → l < m) → ppsSecond s q ≤ m := by
  have hsec : (0 : Int) < qSec := by decide
  have hup := neg_fdiv_neg_le_iff hsec q
  unfold ppsSecond
  dsimp only
  generalize -(fdiv (-q) qSec) = u at hup
  split
  · rename_i l hl
    refine ⟨fun k hk => ?_, (hup _).1 (le_max_left _ _), fun m hm hlast => max_le ((hup m).2 hm) (hlast l hl)⟩
    obtain rfl : l = k := Option.some.inj (hl.symm.trans hk)
    exact lt_of_lt_of_le (Int.lt_succ l) (le_max_right _ _)
  · rename_i hnone
    exact ⟨fun k hk => absurd (hnone.symm.trans hk) (by simp), (hup _).1 (le_refl _), fun m hm _ => (hup m).2 hm⟩

/-- The nearest whole count to a quotient. -/
theorem divUp_spec {b : Nat} (hb : 0 < b) (a : Int) : (2 * divUp a b - 1) * b ≤ 2 * a ∧ 2 * a < (2 * divUp a b + 1) * b := by
  have hpos : (0 : Int) < 2 * (b : Int) := by omega
  unfold divUp
  rw [Int.fdiv_eq_ediv_of_nonneg _ (Int.le_of_lt hpos)]
  have hdiv := Int.mul_ediv_add_emod (2 * a + b) (2 * b)
  have hmod := Int.emod_nonneg (2 * a + b) (b := 2 * (b : Int)) (by omega)
  have hlt := Int.emod_lt_of_pos (2 * a + b) hpos
  generalize (2 * a + b) / (2 * (b : Int)) = k at hdiv
  have hexp : 2 * (b : Int) * k = 2 * k * b := by ring
  rw [Int.sub_mul, Int.add_mul, ← hexp]
  omega

/-- The instant at which a segment reaches a second, to the nearest bin. -/
theorem reach_spec {g : Seg} (h : 0 < 2 ^ 40 + g.rho) (q : Int) : (2 * g.reach q - 1) * (2 ^ 40 + g.rho) ≤ 2 * ((q - g.q) * 2 ^ 28) ∧
    2 * ((q - g.q) * 2 ^ 28) < (2 * g.reach q + 1) * (2 ^ 40 + g.rho) := by
  have hnat : (((2 ^ 40 + g.rho).toNat : Nat) : Int) = 2 ^ 40 + g.rho := Int.toNat_of_nonneg (Int.le_of_lt h)
  have hspec := divUp_spec (b := (2 ^ 40 + g.rho).toNat) (by omega) ((q - g.q) * 2 ^ 28)
  rw [hnat] at hspec
  exact hspec

/-! ## PPS_OUT -/

/-- PPS_OUT goes high for a second, up to an instant. -/
def pulseUp (s : State) (n : Int) (e : Nat) : State :=
  { s with pins := { s.pins with ppsOut := .high }, time := { s.time with ppsLast := some n, ppsEnd := some e } }

/-- It goes low again. -/
def pulseDown (s : State) : State := { s with pins := { s.pins with ppsOut := .low }, time := { s.time with ppsEnd := none } }

theorem exec_ppsOutPulse {s : State} {g : Seg} {a : Nat} (hruns : ppsRuns s = true) (hseg : segOf s.time.segs s.postmark = some g)
    (ha : a = ((s.now : Int) + (g.reach (ppsSecond s (g.timeAt s.postmark) * qSec) - postmarkDiff s.postmark g.anchor)).toNat)
    (hfirst : ∀ c ∈ s.nextTick, a ≤ c) : exec .ppsOutPulse s =
      .next (pulseUp (advanceTo s a) (ppsSecond s (g.timeAt s.postmark)) ((advanceTo s a).now + (advanceTo s a).cfg.time.ppsOutWidth * puUs)) := by
  change execPpsOutPulse s = _
  unfold execPpsOutPulse
  rw [if_neg (by simp [hruns])]
  simp only [hseg, ← ha, atInstant_of_le hfirst]
  rfl

theorem exec_ppsOutPulseEnd {s : State} {e : Nat} (hend : s.time.ppsEnd = some e) (hfirst : ∀ n ∈ s.nextTick, e ≤ n) :
    exec .ppsOutPulseEnd s = .next (pulseDown (advanceTo s e)) := by
  change execPpsOutPulseEnd s = _
  unfold execPpsOutPulseEnd
  simp only [hend, atInstant_of_le hfirst]
  rfl

/-- What a pulse changes after time has gone on. -/
theorem pulseUp_kept {s u : State} {r : BitVec 56} {w : Nat} (hu : u = { s with time := { s.time with raw := r, wraps := w } }) (n : Int) (k e : Nat)
    (he : e = u.now + u.cfg.time.ppsOutWidth * k) :
    (pulseUp u n e).now = u.now ∧ (pulseUp u n e).pins = { s.pins with ppsOut := .high } ∧
      (pulseUp u n e).time = { s.time with raw := (pulseUp u n e).time.raw, wraps := (pulseUp u n e).time.wraps, ppsLast := some n
                                           ppsEnd := some ((pulseUp u n e).now + s.cfg.time.ppsOutWidth * k) } ∧
      { pulseUp u n e with pins := s.pins, time := s.time } = s := by
  have hnow : (pulseUp u n e).now = u.now := now_of_count rfl rfl
  have hcfg : u.cfg = s.cfg := by rw [hu, cfg_time]
  rw [hnow, ← hcfg, ← he]
  refine ⟨rfl, ?_, ?_, ?_⟩
  · rw [hu]
    rfl
  · generalize e = e'
    subst hu
    rfl
  · subst hu
    rfl

theorem pulseDown_kept {s u : State} {r : BitVec 56} {w : Nat} (hu : u = { s with time := { s.time with raw := r, wraps := w } }) :
    (pulseDown u).now = u.now ∧ (pulseDown u).pins = { s.pins with ppsOut := .low } ∧
      (pulseDown u).time = { s.time with raw := (pulseDown u).time.raw, wraps := (pulseDown u).time.wraps, ppsEnd := none } ∧
      { pulseDown u with pins := s.pins, time := s.time } = s := by
  refine ⟨now_of_count rfl rfl, ?_, ?_, ?_⟩
  · subst hu
    rfl
  · subst hu
    rfl
  · subst hu
    rfl

/-- Settles O56: the second is the least that the segment has not passed and no pulse has had, and its instant the nearest bin. -/
theorem ppsRows : Obligations.PpsRows := by
  refine ⟨fun s p hpow => congrArg Host.Outcome.next (if_pos hpow), fun s p x a => ⟨pulseIn_of_other p, fun v hsource hv ha =>
    pulseIn_of_second hsource hv ha⟩, fun s g hruns hseg n k a hn hk ha hfirst => ?_, fun s e hend hfirst => ?_⟩
  · obtain ⟨hlast, hreach, hleast⟩ := ppsSecond_spec s (g.timeAt s.postmark)
    subst hn
    refine ⟨?_, hlast, hreach, hleast, fun hrho => by rw [hk]; exact reach_spec hrho _⟩
    obtain ⟨r, w, hu⟩ := advanceTo_eq s a
    have hexec := exec_ppsOutPulse hruns hseg (by rw [ha, hk]) hfirst
    obtain ⟨hnow, hpins, htime, hrest⟩ := pulseUp_kept hu (ppsSecond s (g.timeAt s.postmark)) puUs _ rfl
    exact ⟨_, hexec, hpins, hnow.trans (advanceTo_now s a), htime, hrest⟩
  · obtain ⟨r, w, hu⟩ := advanceTo_eq s e
    obtain ⟨hnow, hpins, htime, hrest⟩ := pulseDown_kept hu
    exact ⟨_, exec_ppsOutPulseEnd hend hfirst, hpins, hnow.trans (advanceTo_now s e), htime, hrest⟩

end Sys2Proof.Machine
end

