-- ==== Sys2Proof/Proofs/Network.lean ====
section
/-!
PROOFS. ARP and ICMP on the Ethernet ports, their links, and the datagrams of the network streams (R423 to R430).
-/
namespace Sys2Proof.Machine

/-! ## Frames received -/

section
variable {s : State} {p : Nat} (hp : p < 2) (hup : (s.time.eth p).link = true)
include hp hup

theorem exec_arpRequest (a : Nat) : exec (.arpRequest p a) s = .next (
    if (s.cfg.port p).ipv4 ≠ 0 ∧ a = (s.cfg.port p).ipv4 then sentFrame (received s p) p (.arpAnswer a) else dropFrame (received s p) p) := by
  change execArpRequest p a s = _
  unfold execArpRequest
  rw [onPort_of_up _ hp hup]
  exact congrArg _ (if_congr (by rw [Bool.and_eq_true, decide_eq_true_iff, decide_eq_true_iff]; rfl) rfl rfl)

theorem exec_arpReply {ip : Nat} (mac : Nat) (h : (tget? (s.time.eth p).asked ip).isSome = true) : exec (.arpReply p ip mac) s =
    .next (modEth (received s p) p (fun e => { e with asked := tdel e.asked ip, arp := tput e.arp ip (mac % 2 ^ 48, s.now) })) := by
  have hasked : ((received s p).time.eth p).asked = (s.time.eth p).asked := by
    unfold received
    rw [eth_modEth_self]
  change execArpReply p ip mac s = _
  unfold execArpReply
  rw [onPort_of_up _ hp hup]
  dsimp only
  rw [if_pos (by simp [hasked, h]), received_now]

theorem exec_icmpEcho {n : Nat} (d : Bytes) (hip : (s.cfg.port p).ipv4 ≠ 0) (hn : n ≤ 1472) : exec (.icmpEchoRequest p n d) s =
    .next (sentFrame (received s p) p (.icmpAnswer (sub d 0 n))) := by
  have hip' : ((received s p).cfg.port p).ipv4 ≠ 0 := hip
  change execIcmpEchoRequest p n d s = _
  unfold execIcmpEchoRequest
  rw [onPort_of_up _ hp hup]
  exact congrArg _ (if_pos (by simp [hip', hn]))

theorem exec_arpRetry {ip a : Nat} (h : tget? (s.time.eth p).asked ip = some a) (hfirst : ∀ n ∈ s.nextTick, a + 16000000000 ≤ n) :
    ∀ u, u = advanceTo s (a + 16000000000) →
      exec (.arpRetry p ip) s = .next (askArp (modEth u p (fun e => { e with asked := tput e.asked ip u.now })) p ip) := by
  rintro u rfl
  change execArpRetry p ip s = _
  unfold execArpRetry
  rw [if_pos (by simp [hp, hup])]
  simp only [h, show puSec = 16000000000 from rfl, atInstant_of_le hfirst]

theorem exec_arpRefresh {ip mac a : Nat} (h : tget? (s.time.eth p).arp ip = some (mac, a)) (hno : tget? (s.time.eth p).asked ip = none)
    (hfirst : ∀ n ∈ s.nextTick, a + 60 * 16000000000 ≤ n) : ∀ u, u = advanceTo s (a + 60 * 16000000000) →
      exec (.arpRefresh p ip) s = .next (askArp (modEth u p (fun e => { e with asked := tput e.asked ip u.now })) p ip) := by
  rintro u rfl
  change execArpRefresh p ip s = _
  unfold execArpRefresh
  rw [if_pos (by simp [hp, hup, hno])]
  simp only [h, show puSec = 16000000000 from rfl, atInstant_of_le hfirst]

end

/-- What asking for an address leaves: one frame sent, and the instant noted. -/
theorem asked_kept {s u : State} {r : BitVec 56} {w : Nat} (hu : u = { s with time := { s.time with raw := r, wraps := w } }) (p ip : Nat) :
    ∀ t, t = askArp (modEth u p (fun e => { e with asked := tput e.asked ip u.now })) p ip →
      t.now = u.now ∧ t.out = s.out ++ [.frame p (ethHead s p) (.arpAsk ip)] ∧ tget? (t.time.eth p).asked ip = some t.now ∧
        (t.time.eth p).arp = (s.time.eth p).arp ∧ { t with time := s.time, out := s.out } = s := by
  rintro t rfl
  obtain ⟨⟨hraw, hwraps, -⟩, -⟩ := sentFrame_kept (modEth u p (fun e => { e with asked := tput e.asked ip u.now })) p (.arpAsk ip)
  obtain ⟨heraw, hewraps, -⟩ := modEth_count u p (fun e => { e with asked := tput e.asked ip u.now })
  have hnow : (askArp (modEth u p (fun e => { e with asked := tput e.asked ip u.now })) p ip).now = u.now :=
    now_of_count (hraw.trans heraw) (hwraps.trans hewraps)
  have hport : (askArp (modEth u p (fun e => { e with asked := tput e.asked ip u.now })) p ip).time.eth p =
      { u.time.eth p with asked := tput (u.time.eth p).asked ip u.now, tx := satAdd 32 (u.time.eth p).tx 1 } := by
    refine (eth_modEth_self _ p (fun e => { e with tx := satAdd 32 e.tx 1 })).trans ?_
    rw [eth_modEth_self]
  rw [hnow, hport]
  refine ⟨rfl, ?_, tget?_tput_self .., ?_, ?_⟩
  · have hhead : ethHead u p = ethHead s p := by
      rw [hu]
      unfold ethHead
      rw [cfg_time]
    have hout : u.out = s.out := by rw [hu]
    rw [← hhead, ← hout]
    rfl
  · rw [hu]
    rfl
  · generalize u.now = n
    subst hu
    rfl

/-! ## Streams -/

theorem atInstant_now (s : State) : atInstant s s.now = some s := by
  have hself : advanceTo s s.now = s := if_neg (Nat.lt_irrefl _)
  unfold atInstant
  rw [hself]
  split
  · exact if_neg (by simp)
  · rfl

section
variable {s : State} {k : Nat} {q : StreamQ} {d : Datagram} (hk : s.cfg.stream? k = some q) (hup : (s.time.eth q.port).link = true)
  (hclock : s.coreClock = true) (hbound : s.isBound = true) (hd : nextDatagram s k (s.cfg.port q.port).area = some d)
include hk hup hclock hbound hd

theorem exec_datagramSend_unresolved (hno : macFor s q.port q.destIp = none) : exec (.datagramSend k) s = .next (resolveStream s q) := by
  change execDatagramSend k s = _
  unfold execDatagramSend
  simp only [hk]
  rw [if_neg (by simp [hup, hclock, hbound])]
  simp only [hd, hno]

theorem exec_datagramSend_paid {mac : Nat} (hmac : macFor s q.port q.destIp = some mac) (hturn : streamTurn s q.port = some k)
    (hpaid : (d.payload.length + 66) * 128000 ≤ bucket s q.port) :
    exec (.datagramSend k) s = .next (sendDatagram s q mac ((d.payload.length + 66) * 128000) d) := by
  have hwait : cdiv ((d.payload.length + 66) * 128000 - bucket s q.port) (max 1 (s.cfg.port q.port).rateMbps) = 0 := by
    rw [Nat.sub_eq_zero_of_le hpaid]
    exact Nat.le_zero.1 ((cdiv_le_iff (Nat.lt_of_lt_of_le Nat.zero_lt_one (Nat.le_max_left ..)) _ _).2 (Nat.zero_le _))
  change execDatagramSend k s = _
  unfold execDatagramSend
  simp only [hk]
  rw [if_neg (by simp [hup, hclock, hbound])]
  simp only [hd, hmac]
  rw [if_neg (by simp [hturn]), hwait, Nat.add_zero, atInstant_now]

end

/-- Settles O57: each row acts on the port after its frame is counted, or at the instant that its row names. -/
theorem networkRows : Obligations.NetworkRows := by
  refine ⟨fun s u p hp hup hu => ?_, fun s p hp => ⟨fun hmode => ?_, ?_⟩, fun s k q d hk hup hclock hbound hd => ⟨fun hno => ?_,
    fun mac hmac hturn hpaid => ?_⟩⟩
  · obtain rfl : u = received s p := hu
    refine ⟨fun hip => ?_, fun a ha => ?_, fun ip mac h => exec_arpReply hp hup mac h, fun n d hip hn => exec_icmpEcho hp hup d hip hn, ?_,
      fun ip a h hfirst => ?_, fun ip mac a h hno hfirst => ?_⟩
    · rw [exec_arpRequest hp hup, if_pos ⟨hip, rfl⟩]
    · rw [exec_arpRequest hp hup, if_neg (fun h => ha h.2)]
      rfl
    · exact congrArg Host.Outcome.next (onPort_of_up (fun s => dropFrame s p) hp hup)
    · obtain ⟨r, w, hu⟩ := advanceTo_eq s (a + 16000000000)
      obtain ⟨hnow, hout, hat, -, hrest⟩ := asked_kept hu p ip _ rfl
      exact ⟨_, exec_arpRetry hp hup h hfirst _ rfl, hnow.trans (advanceTo_now s _), hout, hat, hrest⟩
    · obtain ⟨r, w, hu⟩ := advanceTo_eq s (a + 60 * 16000000000)
      obtain ⟨hnow, hout, hat, harp, hrest⟩ := asked_kept hu p ip _ rfl
      exact ⟨_, exec_arpRefresh hp hup h hno hfirst _ rfl, hnow.trans (advanceTo_now s _), hout, hat, harp, hrest⟩
  · exact congrArg Host.Outcome.next (if_pos (by simp [hp, hmode]))
  · exact congrArg Host.Outcome.next (if_pos hp)
  · exact exec_datagramSend_unresolved hk hup hclock hbound hd hno
  · exact exec_datagramSend_paid hk hup hclock hbound hd hmac hturn hpaid

end Sys2Proof.Machine
end

