-- ==== Sys2Proof/Proofs/Rebind.lean ====
section
/-!
PROOFS. REBIND from its start through its decision to the end of the old configuration (R104 to R108).
-/
namespace Sys2Proof.Machine

/-! ## The start -/

theorem beginReading_phase (s : State) (c : Option (Nat × Bytes)) : (beginReading s c).boot.phase = .reading := by
  unfold beginReading
  dsimp only
  split
  · rfl
  · rfl

/-! ## The decision -/

/-- The operation that waited for the loader leaves the module's state and the rings. -/
theorem resumeFlash_kept (s : State) : (resumeFlash s).boot = s.boot ∧ (resumeFlash s).rings = s.rings := by
  have hend : ∀ (o : FlashOp) (r : Nat), (endFlash s o r).boot = s.boot ∧ (endFlash s o r).rings = s.rings := by
    intro o r
    unfold endFlash
    split
    · exact ⟨rfl, rfl⟩
    · exact ⟨(congrArg State.boot (raiseIrq_frame _ _) :), (congrArg State.rings (raiseIrq_frame _ _) :)⟩
  unfold resumeFlash
  split
  · split
    · unfold beginFlash
      split
      · exact hend _ _
      · exact ⟨rfl, rfl⟩
    · exact ⟨rfl, rfl⟩
  · exact ⟨rfl, rfl⟩

theorem decideRebind_boot (s : State) (r x d : Nat) :
    (decideRebind s r x d).boot = { s.boot with rebindResult := r, rebindCmd := none } := by
  unfold decideRebind
  dsimp only
  split
  · rw [complete_boot, raiseIrq_boot]
  · rw [raiseIrq_boot]

/-- A REBIND that is not accepted. -/
theorem endReading_kept (s : State) : (endReading s).boot = { s.boot with phase := .none } ∧ (endReading s).rings.fetchStop = false := by
  obtain ⟨hboot, hrings⟩ := resumeFlash_kept { s with boot := { s.boot with phase := .none }, rings := { s.rings with fetchStop := false } }
  unfold endReading
  rw [hboot, hrings]
  exact ⟨rfl, rfl⟩

theorem endReading_decided (s : State) (r x d : Nat) : (endReading (decideRebind s r x d)).boot.rebindResult = r ∧
    (endReading (decideRebind s r x d)).boot.phase = .none ∧ (endReading (decideRebind s r x d)).rings.fetchStop = false := by
  obtain ⟨hboot, hstop⟩ := endReading_kept (decideRebind s r x d)
  rw [hboot, decideRebind_boot]
  exact ⟨rfl, rfl, hstop⟩

theorem rebindOn_of_none {s : State} {r : Choice} (h : r.found = none) :
    rebindOn s r = endReading (decideRebind s 3 4 (r.errA + 65536 * r.errB)) := by
  unfold rebindOn
  simp only [h]

theorem rebindOn_of_denied {s : State} {r : Choice} {k : Copy} {img : Bytes} {f : Folio} (h : r.found = some (k, img, f))
    (hhash : referenceHash s ≠ some f.sealedHash) (hseal : s.boot.sealSample = false) : rebindOn s r = endReading (decideRebind s 2 6 0) := by
  unfold rebindOn
  simp only [h]
  exact if_pos (by simp [hhash, hseal])

/-- An accepted REBIND holds the image read, and stops the fetching (R105, R107). -/
theorem rebindOn_of_accepted {s : State} {r : Choice} {k : Copy} {img : Bytes} {f : Folio} (h : r.found = some (k, img, f))
    (hgood : referenceHash s = some f.sealedHash ∨ s.boot.sealSample = true) : (rebindOn s r).boot.rebindResult = 1 ∧
      (rebindOn s r).boot.phase = .accepted ∧ (rebindOn s r).boot.held = some (k, img) ∧ (rebindOn s r).rings.fetchStop = true := by
  unfold rebindOn
  simp only [h]
  rw [if_neg (by rcases hgood with h | h <;> simp [h])]
  obtain ⟨hboot, hrings⟩ := resumeFlash_kept { decideRebind s 1 0 0 with
    boot := { (decideRebind s 1 0 0).boot with
      phase := .accepted, rebinding := true, held := some (k, img), heldErrs := (r.errA, r.errB), startAt := (decideRebind s 1 0 0).now }
    rings := { (decideRebind s 1 0 0).rings with fetchStop := true } }
  rw [hboot, hrings]
  refine ⟨?_, rfl, rfl, rfl⟩
  exact congrArg Boot.rebindResult (decideRebind_boot s 1 0 0)

/-! ## The end of the running configuration -/

/-- The spans that are cut are records. -/
theorem proj_truncateRuns {β : Type} {p : State → β} (h : IgnoresRecords p) (s : State) : p (truncateRuns s) = p s := by
  unfold truncateRuns
  refine foldl_proj (fun t q => ?_) _ _
  dsimp only
  split
  · exact proj_modRec h ..
  · exact (foldl_proj (fun _ _ => proj_queueRun h ..) _ _).trans (proj_modRec h ..)

/-- Nothing of the truncation moves time or the frames released. -/
theorem truncateRuns_kept (s : State) : (truncateRuns s).time = s.time ∧ (truncateRuns s).released = s.released :=
  ⟨proj_truncateRuns (p := State.time) ⟨fun _ _ => rfl, fun _ _ => rfl⟩ s, proj_truncateRuns (p := State.released) ⟨fun _ _ => rfl, fun _ _ => rfl⟩ s⟩

theorem now_withBoot (u : State) (b : Boot) : { u with boot := b }.now = u.now := now_of_time rfl

/-- Class T stops at the next tick. -/
theorem teardown_kept {s u : State} (hu : u = truncateRuns (advanceTo s (s.tickOf s.time.ticks))) :
    u.now = max s.now (s.tickOf s.time.ticks) ∧ u.ticking = s.ticking ∧ u.released = s.released := by
  obtain ⟨r, w, hadv⟩ := advanceTo_eq s (s.tickOf s.time.ticks)
  obtain ⟨htime, hreleased⟩ := truncateRuns_kept (advanceTo s (s.tickOf s.time.ticks))
  subst hu
  refine ⟨(now_of_time htime).trans (advanceTo_now ..), ?_, hreleased.trans (hadv ▸ rfl)⟩
  rw [State.ticking, htime, hadv]
  rfl

theorem exec_rebindTeardown {s u : State} (hphase : s.boot.phase = .accepted) (htick : s.ticking = true)
    (hu : u = truncateRuns (advanceTo s (s.tickOf s.time.ticks))) :
    exec .rebindTeardown s = .next { u with boot := { u.boot with phase := .draining, drainUntil := u.now + 100 * puMs } } := by
  obtain ⟨-, hticking, -⟩ := teardown_kept hu
  change execRebindTeardown s = _
  unfold execRebindTeardown
  rw [if_neg (by simp [hphase]), if_pos htick, ← hu]
  dsimp only
  rw [if_pos (hticking.trans htick)]

/-- 100 ms of draining begin. -/
theorem exists_draining {s u : State} {n : Nat} (hnow : u.now = n) (hreleased : u.released = s.released) :
    ∃ t, t = { u with boot := { u.boot with phase := .draining, drainUntil := u.now + 100 * puMs } } ∧ t.boot.phase = .draining ∧
      t.now = n ∧ t.boot.drainUntil = t.now + 100 * 16000000 ∧ t.released = s.released :=
  ⟨_, rfl, rfl, (now_withBoot ..).trans hnow, by rw [now_withBoot]; rfl, hreleased⟩

/-! ## The end of the old configuration -/

theorem boot_faults : IgnoresFaults State.boot where
  banks _ _ := rfl
  rings _ _ := rfl
  jobs _ _ := rfl
  pcie _ _ := rfl
  out _ _ := rfl
  faults _ _ := rfl
  franking _ _ := rfl
  free _ _ := rfl
  field _ _ := rfl
  hist _ _ := rfl
  seqs _ _ := rfl
  shown _ _ := rfl
  proc _ _ := rfl
  time _ _ := rfl
  frames _ _ _ := rfl

theorem boot_records : IgnoresRecords State.boot := ⟨fun _ _ => rfl, boot_faults.rings⟩

theorem putEnvelope_boot (s : State) (r : Nat) (e : Envelope) : (putEnvelope s r e).boot = s.boot := by
  have hwrite : ∀ (s : State) (a : Nat) (b : Bytes), (hostWrite s a b).boot = s.boot := fun s a b =>
    proj_completes boot_faults (.hostWrite s a b)
  unfold putEnvelope
  dsimp only
  exact (hwrite ..).trans ((proj_modRing (p := State.boot) boot_records ..).trans ((hwrite ..).trans (ite_proj rfl (hwrite ..))))

theorem drainReserve_boot : ∀ (k : Nat) (s : State), (drainReserve k s).boot = s.boot
  | 0, _ => rfl
  | k + 1, s => by
    unfold drainReserve
    split
    · exact ite_proj ((drainReserve_boot k _).trans (putEnvelope_boot ..)) rfl
    · rfl

theorem dropRemaining_boot (s : State) (r : Nat) : (dropRemaining s r).boot = s.boot :=
  (proj_ltrCheck boot_faults _).trans (foldl_proj (fun _ _ => proj_countLost boot_faults ..) _ _)

theorem notify_boot (s : State) (r : Nat) : (notify s r).boot = s.boot :=
  ite_proj (p := State.boot) (congrArg State.boot (signal_frame s _) :) rfl

theorem safeEvts_boot (s : State) : (safeEvts s).boot = s.boot := by
  unfold safeEvts
  dsimp only
  refine foldl_proj (fun t q => ?_) _ _
  rfl

/-- The module's state goes through the end of its configuration. -/
theorem endConfiguration_boot (s : State) : (endConfiguration s).boot = s.boot := by
  unfold endConfiguration
  refine (safeEvts_boot _).trans ((notify_boot ..).trans ((drainReserve_boot ..).trans ?_))
  refine (proj_stageLoss boot_records ..).trans ?_
  exact (foldl_proj (fun _ _ => proj_dropHeld boot_faults ..) _ _).trans (foldl_proj dropRemaining_boot _ _)

theorem drainOver_boot (s : State) : (drainOver s).boot.state = .boot ∧ (drainOver s).boot.held = s.boot.held ∧ s.now ≤ (drainOver s).now := by
  refine ⟨?_, ?_, (drainOver_keeps (.refl s)).now_le⟩
  · unfold drainOver
    rw [setState_boot]
  · obtain ⟨r, w, hadv⟩ := advanceTo_eq s s.boot.drainUntil
    unfold drainOver
    rw [setState_boot]
    refine (congrArg Boot.held (ite_proj (endConfiguration_boot _) rfl)).trans ?_
    exact congrArg Boot.held (ite_proj (hadv ▸ rfl : (advanceTo s s.boot.drainUntil).boot = s.boot) rfl)

theorem exec_rebindDrainEnd {s : State} {env : BootEnv} {k : Copy} {img : Bytes} (hphase : s.boot.phase = .draining) (hheld : s.boot.held = some (k, img)) :
    exec (.rebindDrainEnd env) s = .next (bindHeld (drainOver s) s.boot.folio k img env) := by
  change execRebindDrainEnd env s = _
  unfold execRebindDrainEnd
  rw [if_neg (by simp [hphase])]
  simp only [(drainOver_boot s).2.1, hheld]

/-! ## The statement -/

theorem rebind_of_passed {s : State} {c : Cmd} (hnext : startsNext s 0x70 c) (hpass : judge s c.entry [] true true true = none) :
    exec .rebind s = .next (if (s.boot.state == ModState.running || s.boot.state == ModState.arming) && s.boot.phase == RebindPhase.none then
        beginReading (afterStart s c) (some c.key)
      else rebindRefused c 7 (afterStart s c)) := by
  rw [exec_rebind hnext, firstCheck_of_bare (.inr hnext.2.2), hpass]

/-- Settles O35: each row's guard is met, and what its effect calls keeps the module's state, time and the frames released. -/
theorem rebindRows : Obligations.RebindRows := by
  unfold Obligations.RebindRows
  refine ⟨⟨fun s c hnext hpass => ⟨fun hstate hphase => ⟨?_, beginReading_phase ..⟩, ?_⟩, ?_, ?_, ?_⟩, ?_, ?_⟩
  · rw [rebind_of_passed hnext hpass, if_pos (by simpa [hphase] using hstate)]
  · rintro hrun harm u rfl
    rw [rebind_of_passed hnext hpass, if_neg (by simp [hrun, harm])]
    rfl
  · intro s hopen hstate hphase
    refine congrArg Host.Outcome.next ((memRequest_of_barOpen hopen _).trans ?_)
    exact if_pos (by simp [hstate, hphase])
  · intro s hphase hflash
    exact if_neg (by simp [hphase, hflash])
  · rintro s t r rfl
    refine ⟨fun hnone => ?_, fun k img f hsome => ⟨fun hhash hseal => ?_, fun hgood => rebindOn_of_accepted hsome hgood⟩⟩
    · rw [rebindOn_of_none hnone]
      exact ⟨rfl, endReading_decided ..⟩
    · rw [rebindOn_of_denied hsome hhash hseal]
      exact ⟨rfl, endReading_decided ..⟩
  · intro s hphase htick
    obtain ⟨hnow, -, hreleased⟩ := teardown_kept rfl
    obtain ⟨t, ht, hrest⟩ := exists_draining hnow hreleased
    exact ⟨t, (exec_rebindTeardown hphase htick rfl).trans (congrArg Host.Outcome.next ht.symm), hrest⟩
  · intro s env k img hphase hheld
    obtain ⟨hstate, -, hnow⟩ := drainOver_boot s
    exact ⟨exec_rebindDrainEnd hphase hheld, hstate, hnow⟩

end Sys2Proof.Machine
end

