-- ==== Sys2Proof/Proofs/JobWork.lean ====
section
/-!
PROOFS. COMPRESS and DECOMPRESS jobs, their lanes and their host reads (R373 to R379, R384 to R391, R469).
-/
namespace Sys2Proof.Machine

/-! ## The start of a job -/

section
variable {s : State} {j : Job}

/-- The effect of a job command that passes its checks. -/
theorem exec_of_jobCommand {c : Cmd} {i : Instr} {inf : Bool} (hi : (i, inf) ∈ [(Instr.compress, false), (Instr.decompress, true)])
    (hnext : startsNext s (if inf then 0x21 else 0x20) c) (hissue : s.canIssue = true) (hcheck : firstCheck s c.entry = none) :
    exec i s = .next (jobBegin (afterStart s c) (jobOf (afterStart s c) c.key inf)) := by
  simp only [List.mem_cons, Prod.mk.injEq, List.not_mem_nil, or_false] at hi
  rcases hi with ⟨rfl, rfl⟩ | ⟨rfl, rfl⟩
  · rw [exec_compress hnext hissue, hcheck]
    rfl
  · rw [exec_decompress hnext hissue, hcheck]
    rfl

theorem jobBegin_of_empty (h : j.srcLen = 0) : jobBegin s j = complete s j.cmd 1 0 := if_pos h

/-- A host source: its bytes are read while the job runs. -/
theorem jobBegin_of_host (hlen : j.srcLen ≠ 0) (hkind : j.kind = 0) :
    jobBegin s j = if anyLane s then queueJob s j j.srcLen else failStart s j.cmd 5 := by
  unfold jobBegin
  rw [if_neg hlen, if_pos hkind]

/-- A history source that is not held. -/
theorem jobBegin_of_notHeld (hlen : j.srcLen ≠ 0) (hkind : j.kind = 1) (hspan : spanFrames s j.srcA j.srcB j.srcLen = none) :
    jobBegin s j = failStart s j.cmd 8 := by
  unfold jobBegin
  rw [if_neg hlen, if_neg (by simp [hkind]), if_pos hkind, hspan]

/-- A history source that is held: its blocks are taken at the start. -/
theorem jobBegin_of_history {a b : Nat} {bs : List Bytes} (hlen : j.srcLen ≠ 0) (hkind : j.kind = 1)
    (hspan : spanFrames s j.srcA j.srcB j.srcLen = some (a, b))
    (hbs : bs = ((upFrom a (b + 1 - a)).filterMap (fun (m : Nat) => heldFrame s j.srcA (m : Int))).map (historyBlock s j)) :
    jobBegin s j = if anyLane s then queueJob s { j with
      plain := bs.flatten, spans := spansOf 0 ((upFrom a bs.length).zip (bs.map (·.length))) } bs.flatten.length else failStart s j.cmd 5 := by
  subst hbs
  unfold jobBegin
  rw [if_neg hlen, if_neg (by simp [hkind]), if_pos hkind, hspan]
  cases anyLane s
  · rfl
  · rfl

/-- A staging source: the envelopes that fit are taken at the start. -/
theorem jobBegin_of_staging {ring : Nat} {k : Nat × Nat} {p : Bytes} {t : State} (hlen : j.srcLen ≠ 0) (hkind : j.kind = 2)
    (hring : tget? s.rings.staging j.srcA = some (ring, k)) (htake : takeStaged (stagedFor s ring) j.srcLen s = (p, t)) :
    jobBegin s j = if p = [] then complete s j.cmd 1 0
      else if anyLane s then queueJob t { j with plain := p } p.length else failStart s j.cmd 5 := by
  unfold jobBegin
  rw [if_neg hlen, if_neg (by simp [hkind]), if_neg (by simp [hkind]), hring]
  dsimp only [Option.map_some, Option.getD_some]
  rw [htake]
  cases p with
  | nil => rfl
  | cons x p =>
    cases anyLane s
    · rfl
    · rfl

end

/-! ## The lanes -/

section
variable {s : State} {lane : Nat} {j : Job} {b : Block}

/-- The split block that a lane codes. -/
def State.coding (s : State) (lane : Nat) : Option (Job × Block) :=
  s.jobs.jobs.findSome? (fun j => (j.blocks.find? (fun b => b.lane = some lane && b.st == BlockSt.running)).map (fun b => (j, b)))

theorem exec_dispatch {i : Nat} (hclock : s.coreClock = true) (hfree : s.fenced 0x0F 0 = false) (hwait : firstWaiting s = some (j, b))
    (hany : anyLane s = true) (hidle : idleLane s = some i) :
    exec .splitBlockDispatch s = .next (askMore (modBlock s j.id b.idx (fun x => { x with lane := some i, st := .running }))) := by
  change execSplitBlockDispatch s = _
  unfold execSplitBlockDispatch
  rw [if_neg (by simp [hclock, hfree]), hwait]
  dsimp only
  rw [if_neg (by simp [hany]), hidle]

theorem exec_of_laneFault (hj : s.coding lane = some (j, b)) (x : BlockTrouble) : exec (.splitBlockComplete lane true x) s =
    .next (detect (failJobs s (fun x => x.id = j.id) 5 (2 ^ lane)) ⟨0x09, lane⟩ 0x0F 0 s.released) := by
  change execSplitBlockComplete lane true x s = _
  unfold execSplitBlockComplete
  rw [show s.jobs.jobs.findSome? _ = _ from hj]
  rfl

theorem exec_of_servedBad (hj : s.coding lane = some (j, b)) (hbad : servedBad s j = true) (x : BlockTrouble) :
    exec (.splitBlockComplete lane false x) s = .next (failJobs s (fun x => x.id = j.id) 5 0) := by
  change execSplitBlockComplete lane false x s = _
  unfold execSplitBlockComplete
  rw [show s.jobs.jobs.findSome? _ = _ from hj]
  exact if_pos hbad

/-- What ends the coding of a split block whose input is here. -/
def codingEnds (s : State) (lane : Nat) (j : Job) (b : Block) (x : BlockTrouble) : State :=
  if j.kind = 1 && x.bad.isSome then failJobs (readFault s x.bad) (fun x => x.id = j.id) 5 256
  else if x.dstFails && s.pcie.atsEn && isLowest j b then failJobs s (fun x => x.id = j.id) 5 512
  else if !sourceHeld s j b then failJobs s (fun x => x.id = j.id) 8 0
  else match codeBlock j b with
    | .error st => failJobs s (fun x => x.id = j.id) st 0
    | .ok o => if outputFits j b o then blockCoded s j b lane o else s

theorem exec_of_inputHere (hj : s.coding lane = some (j, b)) (hgood : servedBad s j = false) (hinput : inputHere s j b = true)
    (hissue : s.canIssue = true) (hread : j.kind ≠ 1 ∨ s.canReadHistory = true) (x : BlockTrouble) :
    exec (.splitBlockComplete lane false x) s = .next (codingEnds s lane j b x) := by
  change execSplitBlockComplete lane false x s = _
  unfold execSplitBlockComplete codingEnds
  rw [show s.jobs.jobs.findSome? _ = _ from hj]
  dsimp only
  rw [if_neg Bool.false_ne_true, if_neg (by simp [hgood]), if_neg (by rcases hread with h | h <;> simp [hinput, hissue, h])]
  simp only [apply_ite Host.Outcome.next]
  cases codeBlock j b
  · rfl
  · simp only [apply_ite Host.Outcome.next]

theorem codingEnds_of_historyError {a : Nat} {dst : Bool} (hkind : j.kind = 1) (ha : a < dramBytes) :
    codingEnds s lane j b ⟨some a, dst⟩ = failJobs (dramError s (a / 65536) (a % 65536)) (fun x => x.id = j.id) 5 256 := by
  unfold codingEnds
  rw [if_pos (by simp [hkind])]
  simp only [readFault, if_pos ha]

theorem codingEnds_of_destinationError (hats : s.pcie.atsEn = true) (hlow : isLowest j b = true) :
    codingEnds s lane j b ⟨none, true⟩ = failJobs s (fun x => x.id = j.id) 5 512 := by
  unfold codingEnds
  rw [if_neg (by simp), if_pos (by simp [hats, hlow])]

theorem codingEnds_of_notHeld (hheld : sourceHeld s j b = false) :
    codingEnds s lane j b ⟨none, false⟩ = failJobs s (fun x => x.id = j.id) 8 0 := by
  unfold codingEnds
  rw [if_neg (by simp), if_neg (by simp), if_pos (by simp [hheld])]

theorem codingEnds_of_error {st : Nat} (hheld : sourceHeld s j b = true) (hcode : codeBlock j b = .error st) :
    codingEnds s lane j b ⟨none, false⟩ = failJobs s (fun x => x.id = j.id) st 0 := by
  unfold codingEnds
  rw [if_neg (by simp), if_neg (by simp), if_neg (by simp [hheld]), hcode]

theorem codingEnds_of_ok {o : Bytes} (hheld : sourceHeld s j b = true) (hcode : codeBlock j b = .ok o) (hfits : outputFits j b o = true) :
    codingEnds s lane j b ⟨none, false⟩ = blockCoded s j b lane o := by
  unfold codingEnds
  rw [if_neg (by simp), if_neg (by simp), if_neg (by simp [hheld]), hcode]
  exact if_pos hfits

end

/-! ## Host reads -/

section
variable {s : State} {tag : Nat} {r : ReadReq}

/-- What a read's end leaves in the error registers touches no job. -/
theorem noteRead_jobs (s : State) (how : ReadEnd) : (noteRead s how).jobs = s.jobs := by
  cases how with
  | poisoned => exact ite_proj (p := State.jobs) (c := s.pcie.perr = true) rfl rfl
  | _ => rfl

theorem exec_hostRead (hr : tget? s.pcie.reads tag = some r) (hlive : r.dead = false) (how : ReadEnd) (data : Arrival) :
    exec (.hostReadCompletion tag how data) s = .next (askMore (if how == ReadEnd.ok then readArrived (noteRead (dropRead s tag) how) r data
      else readFailed (noteRead (dropRead s tag) how) r)) := by
  change execHostReadCompletion tag how data s = _
  unfold execHostReadCompletion
  rw [hr]
  exact if_neg (by simp [hlive])

theorem exec_hostReadTimeout (hr : tget? s.pcie.reads tag = some r) (hlive : r.dead = false) :
    exec (.hostReadTimeout tag) s = .next (askMore (readFailed (aer (dropRead s tag) 14) r)) := by
  change execHostReadTimeout tag s = _
  unfold execHostReadTimeout
  rw [hr]
  exact congrArg (fun t => Host.Outcome.next (askMore t)) (if_neg (by simp [hlive]))

theorem readFailed_of_job {j : Job} (hj : s.jobs.jobs.find? (fun j => j.id = r.job) = some j) : readFailed s r = if j.inflate then
      judgeStream (modJob s r.job (fun j => { j with readFail := some (min r.off (j.readFail.getD r.off)) })) r.job none
    else failJobs s (fun j => j.id = r.job) 5 512 := by
  unfold readFailed
  rw [hj]

/-- A tag that is not outstanding. -/
theorem exec_hostRead_of_none (hr : tget? s.pcie.reads tag = none) (how : ReadEnd) (data : Arrival) :
    exec (.hostReadCompletion tag how data) s =
      .next (if s.pcie.retired.contains tag then dropRetired s tag else if s.pcie.linkUp then aer s 16 else s) := by
  change execHostReadCompletion tag how data s = _
  unfold execHostReadCompletion
  rw [hr]

end

/-! ## The statement -/

/-- Settles O34: each row's guard is met, and its branch is taken. -/
theorem jobRows : Obligations.JobRows := by
  unfold Obligations.JobRows
  refine ⟨?_, ?_, ?_, ?_, ?_⟩
  · rintro s u c i inf j n hi hnext hissue hcheck rfl rfl rfl
    rw [exec_of_jobCommand hi hnext hissue hcheck]
    have hany : anyLane (afterStart s c) = anyLane s := rfl
    refine ⟨fun hempty => ?_, fun hlen hkind => ?_, fun hlen hkind => ⟨fun hspan => ?_, fun a b bs hspan hbs => ?_⟩, ?_⟩
    · exact congrArg Host.Outcome.next (jobBegin_of_empty hempty)
    · rw [jobBegin_of_host hlen hkind]
      exact ⟨fun h => by rw [hany, h]; rfl, fun h => by rw [hany, h]; rfl⟩
    · exact congrArg Host.Outcome.next (jobBegin_of_notHeld hlen hkind hspan)
    · rw [jobBegin_of_history hlen hkind hspan hbs]
      exact ⟨fun h => by rw [hany, h]; rfl, fun h => by rw [hany, h]; rfl⟩
    · rintro hlen hkind ring k h l p t hring rfl htake
      rw [jobBegin_of_staging (s := afterStart s c) hlen hkind hring htake]
      refine ⟨fun hp => by rw [if_pos hp]; rfl, fun hp h => ?_, fun hp h => ?_⟩
      · rw [if_neg hp, hany, h]
        rfl
      · rw [if_neg hp, hany, h]
        rfl
  · exact fun s j b i hclock hfree hwait hany hidle => exec_dispatch hclock hfree hwait hany hidle
  · intro s lane j b hj
    refine ⟨fun bad dst => exec_of_laneFault hj _, fun hbad x => exec_of_servedBad hj hbad x, fun hgood hinput hissue hread => ?_⟩
    simp only [exec_of_inputHere hj hgood hinput hissue hread]
    refine ⟨fun a dst hkind ha => congrArg Host.Outcome.next (codingEnds_of_historyError hkind ha),
      fun hats hlow => congrArg Host.Outcome.next (codingEnds_of_destinationError hats hlow),
      fun hheld => congrArg Host.Outcome.next (codingEnds_of_notHeld hheld), fun hheld => ⟨fun st hcode => ?_, ?_⟩⟩
    · exact congrArg Host.Outcome.next (codingEnds_of_error hheld hcode)
    · rintro o u hcode hfits rfl
      exact congrArg Host.Outcome.next (codingEnds_of_ok hheld hcode hfits)
  · intro s tag r data hr hlive
    refine ⟨exec_hostRead hr hlive .ok data, fun j how hj hhow => ?_⟩
    have hnot : ¬ (how == ReadEnd.ok) = true := by
      rintro h
      rw [eq_of_beq h] at hhow
      simp at hhow
    have hnoted : (noteRead (dropRead s tag) how).jobs = s.jobs := noteRead_jobs ..
    rw [exec_hostRead hr hlive, if_neg hnot, exec_hostReadTimeout hr hlive, readFailed_of_job (hnoted ▸ hj),
      readFailed_of_job (s := aer (dropRead s tag) 14) hj]
    exact ⟨fun h => by rw [h]; exact ⟨rfl, rfl⟩, fun h => by rw [h]; exact ⟨rfl, rfl⟩⟩
  · intro s tag how data hr
    rw [exec_hostRead_of_none hr]
    refine ⟨fun hnot hlink => ?_, fun hin => ?_⟩
    · rw [if_neg (by simpa using hnot), if_pos hlink]
    · rw [if_pos (by simpa using hin)]
      rfl

end Sys2Proof.Machine
end
